-- ==== Sys2Proof/Word.lean ====
section
/-! DEFINITION. The two word types of the Novrant 740: a byte of memory or of a frame, and the 32-bit word of every
memory structure and register (spec 00 section 6). -/

namespace Sys2Proof

/-- One byte. -/
abbrev Byte := BitVec 8

/-- One 32-bit word (spec 00 section 6, "The word is 32 bits and addresses are 32 bits"). -/
abbrev Word := BitVec 32

end Sys2Proof
end

