-- ==== Sys2Proof/Syntax.lean ====
section
/-! DEFINITION. The commands the part takes: one constructor of `Instr` for each row of the operations and events table,
with what the outside supplies to it. -/

namespace Sys2Proof

/-- The four colour planes of an impression (spec 00 section 7). -/
inductive Plane where
  | c | m | y | k
deriving DecidableEq, Repr

/-- R180: the five stored lifetime meters, 64 bits each. -/
structure Meters where
  mono : Nat := 0
  colour : Nat := 0
  spoiled : Nat := 0
  scanned : Nat := 0
  toner : Nat := 0
deriving DecidableEq, Repr

/-- A stored area whose check value no longer holds when it is next read (R2, R171, R132). A check value computed over
changed contents is what the part detects; `found` is what the part then reads where the manual has it use the value all
the same (R171 step 2, section 11.10.2). -/
inductive Decay where
  | account (number : Nat)
  | settings
  | knownList
  | meters (found : Meters)
  | startCount (found : Nat)
deriving DecidableEq, Repr

/-- What the rest of the machine supplies while one command is taken (log 2). -/
structure Env where
  /-- whole seconds the device clock has counted since the command before -/
  elapsed : Nat := 0
  /-- bytes others have stored in the shared DRAM since the command before -/
  stores : List (Nat × Byte) := []
  /-- address ranges (first, length) whose reads fail during this command -/
  badReads : List (Nat × Nat) := []
  /-- address ranges (first, length) whose writes fail during this command -/
  badWrites : List (Nat × Nat) := []
  /-- stored areas whose check value no longer holds -/
  decayed : List Decay := []
  /-- bytes already written of a plaintext write that a withdrawal taken in this command stops (R99) -/
  stopped : Nat := 0
deriving DecidableEq, Repr

/-- The environment that does nothing. -/
def Env.calm : Env := {}

/-- What a start finds outside the part: the level of each sense line (bit n is Sn, 1 high, R155) and whether the
known-answer test of step 3 gave the expected values (R171). -/
structure StartInputs where
  levels : BitVec 8
  testPasses : Bool
deriving DecidableEq, Repr

/-- A register write without behaviour of its own (R164, R168). -/
inductive IgnoredWrite where
  | notice (value : Word)
  | device (value : Word)
deriving DecidableEq, Repr

/-- The commands. -/
inductive Instr where
  | powerOn (env : Env) (start : StartInputs)
  | resetInputAssert
  | resetInputRelease (env : Env) (start : StartInputs)
  | restart (env : Env) (value : Word) (start : StartInputs)
  | startEnd (env : Env)
  | post (value : Word)
  | noticeRead
  | noticeEnableWrite (value : Word)
  | registerWriteIgnored (write : IgnoredWrite)
  | fetch (env : Env) (lane : Fin 4)
  | setAccount (env : Env)
  | readAccounts (env : Env)
  | resetPeriod (env : Env)
  | openSession (env : Env)
  | closeSession (env : Env)
  | sessionIdleExpiry (env : Env) (entry : Nat)
  | lockoutExpiry (env : Env) (account : Nat)
  | openJob (env : Env)
  | resumeJob (env : Env)
  | endJob (env : Env)
  | takeHold (env : Env)
  | releaseHold (env : Env)
  | engineHoldIdleExpiry (env : Env)
  | openSlot (env : Env)
  | keepSlot (env : Env)
  | attachSlot (env : Env)
  | destroySlot (env : Env)
  | heldSlotExpiry (env : Env) (slot : Nat)
  | configure (env : Env)
  | statusDigest (env : Env)
  | clearFaults (env : Env)
  | resumeService (env : Env)
  | resumeServiceTestEnd (env : Env) (passes : Bool)
  | printImpression (env : Env)
  | bandReadDone (env : Env) (entry : Nat)
  | cipherBandDone (env : Env)
  | engineDemand (env : Env) (number : BitVec 8) (plane : Plane)
  | engineOutcome (env : Env) (number : BitVec 8) (delivered : Bool)
  | scanPage (env : Env)
  | scannerLine (env : Env) (bytes : List Byte)
  | scannerPageEnd (env : Env)
  | scannerError (env : Env)
  | bandWriteDone (env : Env)
  | encipherBands (env : Env)
  | decipherBands (env : Env)
  | sourceReadDone (env : Env)
  | periodicSelfTest
  | periodicSelfTestEnd (env : Env) (passes : Bool)
  | senseLineEdge (env : Env) (line : Fin 8) (high : Bool)
  | checkCartridge (env : Env)
  | readCartridges (env : Env)
  | procedureStart (env : Env)
  | attemptSend
  | requestFrameDone
  | quietWaitTimeout (env : Env)
  | responseFrame (env : Env) (bytes : List Byte)
  | responseDeadline (env : Env)
  | linkLine (env : Env)
  | linkLineRecovered
  /-- after so many durable writes of the last command; with a number beyond them, after all of it (log 1) -/
  | lossOfPower (writes : Nat)
deriving DecidableEq, Repr

/-- The environment a command carries; the calm one of a command that carries none. -/
def Instr.env : Instr → Env
  | .powerOn e _ => e
  | .resetInputAssert => .calm
  | .resetInputRelease e _ => e
  | .restart e _ _ => e
  | .startEnd e => e
  | .post _ => .calm
  | .noticeRead => .calm
  | .noticeEnableWrite _ => .calm
  | .registerWriteIgnored _ => .calm
  | .fetch e _ => e
  | .setAccount e => e
  | .readAccounts e => e
  | .resetPeriod e => e
  | .openSession e => e
  | .closeSession e => e
  | .sessionIdleExpiry e _ => e
  | .lockoutExpiry e _ => e
  | .openJob e => e
  | .resumeJob e => e
  | .endJob e => e
  | .takeHold e => e
  | .releaseHold e => e
  | .engineHoldIdleExpiry e => e
  | .openSlot e => e
  | .keepSlot e => e
  | .attachSlot e => e
  | .destroySlot e => e
  | .heldSlotExpiry e _ => e
  | .configure e => e
  | .statusDigest e => e
  | .clearFaults e => e
  | .resumeService e => e
  | .resumeServiceTestEnd e _ => e
  | .printImpression e => e
  | .bandReadDone e _ => e
  | .cipherBandDone e => e
  | .engineDemand e _ _ => e
  | .engineOutcome e _ _ => e
  | .scanPage e => e
  | .scannerLine e _ => e
  | .scannerPageEnd e => e
  | .scannerError e => e
  | .bandWriteDone e => e
  | .encipherBands e => e
  | .decipherBands e => e
  | .sourceReadDone e => e
  | .periodicSelfTest => .calm
  | .periodicSelfTestEnd e _ => e
  | .senseLineEdge e _ _ => e
  | .checkCartridge e => e
  | .readCartridges e => e
  | .procedureStart e => e
  | .attemptSend => .calm
  | .requestFrameDone => .calm
  | .quietWaitTimeout e => e
  | .responseFrame e _ => e
  | .responseDeadline e => e
  | .linkLine e => e
  | .linkLineRecovered => .calm
  | .lossOfPower _ => .calm

end Sys2Proof
end

