-- ==== Sys2Proof/Config.lean ====
section
/-! DEFINITION. What the manual leaves to the inside of the part: the cipher core, the random source, the keyed digest,
the proof function and the device clock past its largest value. Each is an opaque constant; the laws the manual states of
it are proved fields of its type, so nothing else about it can be proved. Log entries 7 and 8. -/

namespace Sys2Proof.Config

/-- The three 16-bit values of a band's nonce: slot generation, page number, band index (R83). -/
structure Nonce where
  generation : BitVec 16
  page : BitVec 16
  band : BitVec 16
deriving DecidableEq, Repr

/-- R83: the cipher core's transform, and what separates its tags. It is deterministic (a function), length-preserving, and
deciphering an encipherment under the same key and nonce gives back the plaintext and the tag of it. -/
structure CipherCore where
  /-- the ciphertext of a plaintext -/
  cipher : BitVec 256 → Nonce → List Byte → List Byte
  /-- the plaintext of a ciphertext -/
  plain : BitVec 256 → Nonce → List Byte → List Byte
  /-- the 16-byte tag, computed over the plaintext; byte 0 is bits 7..0 -/
  tag : BitVec 256 → Nonce → List Byte → BitVec 128
  cipher_length : ∀ k n p, (cipher k n p).length = p.length
  plain_length : ∀ k n c, (plain k n c).length = c.length
  plain_cipher : ∀ k n p, plain k n (cipher k n p) = p
  /-- "a nonce differing in any of its three values" gives a mismatch -/
  tag_nonce : ∀ k k' n n' p p', tag k n p = tag k' n' p' → n = n'
  /-- altered ciphertext gives a mismatch: the law is that of one altered byte, since no 16-byte tag tells every alteration
  (log 8) -/
  tag_altered : ∀ k n c i b, i < c.length → b ≠ c.getD i 0 → tag k n (plain k n (c.set i b)) ≠ tag k n (plain k n c)

/-- R104, R105, R118: the random source, drawn by number. "Two slots, or two openings of one slot, do not share a key":
the first 2^256 keys it gives all differ. Nonces are drawn in the same way and carry no law. -/
structure RandomSource where
  key : Nat → BitVec 256
  nonce : Nat → BitVec 128
  key_fresh : ∀ m n, m < 2 ^ 256 → n < 2 ^ 256 → key m = key n → m = n

/-! ### Secrets with these laws exist -/

/-- The sum of all bytes, in 8 bits. -/
def byteSum (p : List Byte) : Byte := p.foldr (· + ·) 0

/-- A tag that spells the nonce, the low 64 bits of the key and the sum of the plaintext. -/
def plainTag (k : BitVec 256) (n : Nonce) (p : List Byte) : BitVec 128 :=
  (n.generation ++ n.page ++ n.band ++ k.setWidth 64 ++ byteSum p : BitVec 120).setWidth 128

theorem append_parts {v w : Nat} {a c : BitVec v} {b d : BitVec w} (h : a ++ b = c ++ d) : a = c ∧ b = d := by
  have bits := fun i => congrArg (fun x => BitVec.getLsbD x i) h
  simp only [BitVec.getLsbD_append] at bits
  constructor <;> ext i hi
  · simpa [BitVec.getLsbD_eq_getElem, hi] using bits (w + i)
  · simpa [BitVec.getLsbD_eq_getElem, hi] using bits i

theorem plainTag_parts {k k' : BitVec 256} {n n' : Nonce} {p p' : List Byte} (h : plainTag k n p = plainTag k' n' p') :
    n = n' ∧ k.setWidth 64 = k'.setWidth 64 ∧ byteSum p = byteSum p' := by
  have h' := congrArg (BitVec.setWidth 120) h
  simp only [plainTag, BitVec.setWidth_setWidth_of_le _ (by decide : 120 ≤ 128), BitVec.setWidth_eq] at h'
  obtain ⟨h', hs⟩ := append_parts h'
  obtain ⟨h', hk⟩ := append_parts h'
  obtain ⟨h', hb⟩ := append_parts h'
  obtain ⟨hg, hp⟩ := append_parts h'
  cases n; cases n'
  exact ⟨by simp_all, hk, hs⟩

theorem byteSum_set (c : List Byte) (i : Nat) (b : Byte) (hi : i < c.length) (hb : b ≠ c.getD i 0) :
    byteSum (c.set i b) ≠ byteSum c := by
  induction c generalizing i with
  | nil => simp at hi
  | cons x rest ih =>
    cases i with
    | zero => simpa [byteSum] using hb
    | succ i => simpa [byteSum] using ih i (by simpa using hi) (by simpa using hb)

/-- A core that leaves the bytes as they are. -/
def plainCore : CipherCore where
  cipher := fun _ _ p => p
  plain := fun _ _ c => c
  tag := plainTag
  cipher_length := fun _ _ _ => rfl
  plain_length := fun _ _ _ => rfl
  plain_cipher := fun _ _ _ => rfl
  tag_nonce := fun _ _ _ _ _ _ h => (plainTag_parts h).1
  tag_altered := fun _ _ c i b hi hb h => byteSum_set c i b hi hb (plainTag_parts h).2.2

/-- A source that counts. -/
def countingSource : RandomSource where
  key := fun d => BitVec.ofNat 256 d
  nonce := fun _ => 0
  key_fresh := fun m n hm hn h => by
    have h' := congrArg BitVec.toNat h
    rwa [BitVec.toNat_ofNat, BitVec.toNat_ofNat, Nat.mod_eq_of_lt hm, Nat.mod_eq_of_lt hn] at h'

theorem countingSource_tag (d e : Nat) (n n' : Nonce) (p p' : List Byte) (hd : d < 2 ^ 64) (he : e < 2 ^ 64)
    (h : plainCore.tag (countingSource.key d) n p = plainCore.tag (countingSource.key e) n' p') : d = e := by
  have h' := congrArg BitVec.toNat (plainTag_parts h).2.1
  simp only [countingSource, BitVec.toNat_setWidth, BitVec.toNat_ofNat] at h'
  omega

/-! ### The part's own -/

/-- The part's cipher core and random source. R83, R111, R114, R115: a band deciphered under another key gives a mismatch, for
the keys of any two of the first 2^64 draws (log 8). The default values only show that such a part exists. -/
structure Secrets where
  core : CipherCore := plainCore
  source : RandomSource := countingSource
  tag_key : ∀ d e n n' p p', d < 2 ^ 64 → e < 2 ^ 64 → core.tag (source.key d) n p = core.tag (source.key e) n' p' → d = e
    := by exact countingSource_tag
deriving Inhabited

/-- Opaque: only the laws above hold of it. -/
opaque secrets : Secrets

/-- The part's cipher core (R83). -/
def cipherCore : CipherCore := secrets.core

/-- The part's random source. -/
def randomSource : RandomSource := secrets.source

/-- R11: the keyed digest of a credential, "computed over the length and the bytes together, so credentials of different
lengths do not match". Its width is not given, so a digest is a plain number. -/
structure KeyedDigest where
  digest : List Byte → Nat := List.length
  length_eq : ∀ a b, digest a = digest b → a.length = b.length := by intro a b h; exact h
deriving Inhabited

/-- The part's keyed digest. Opaque. -/
opaque keyedDigest : KeyedDigest

/-- R120: the proof the part expects of a genuine cartridge, from the PROVE nonce, the cartridge ID, capacity, stored
remaining and stored use count as IDENTIFY reported them, and the sequence number of the PROVE transaction. The supply
root key and the derived cartridge key are inside it. Opaque. -/
opaque expectedProof (nonce : BitVec 128) (id : BitVec 64) (capacity remaining useCount sequence : Nat) : BitVec 128

/-- Free value: what the 32-bit device clock shows once the seconds counted since the end of the start exceed its
largest value (the manual says neither wrap nor saturate). Log 7. -/
opaque clockPastLast (seconds : Nat) : BitVec 32

/-- The part revision field of Device (section 12.5): a fixed value. -/
def partRevision : Nat := 0x03

/-- R175: the dwell of Resume Service, in seconds. -/
def dwellSeconds : Nat := 2

/-- R174: the number of bands after which the periodic known-answer test runs. -/
def cipherTestBands : Nat := 4096

end Sys2Proof.Config
end

