-- ==== Sys2Proof/Machine/State.lean ====
section
/-! DEFINITION. The state of the Novrant 740: everything the manual gives the part, as plain data, and its value right
after a start has taken its steps 1 to 7 (spec 11 R171, Figure 47). -/

namespace Sys2Proof.Machine

/-! ### Names -/

/-- A job or session handle: entry number and 8-bit generation (section 12.1). -/
structure Handle where
  idx : Nat
  gen : Nat
deriving DecidableEq, Repr

/-- A key slot handle: slot number and 16-bit generation (section 12.1, R102). -/
structure SlotHandle where
  idx : Nat
  gen : Nat
deriving DecidableEq, Repr

/-- One value for each plane C, M, Y, K. -/
structure PerPlane (α : Type) where
  c : α
  m : α
  y : α
  k : α
deriving DecidableEq, Repr

/-- The size classes of a page (R43 to R46, section 12.1). -/
inductive SizeClass where
  | a | b | c
deriving DecidableEq, Repr

/-- Return codes, in the order of Figure 55. -/
inductive ReturnCode where
  | ok | deferred | badTicket | badState | noAccount | accountSuspended | accountLocked | accountDamaged
  | accountBusy | notPermitted | badCredential | noSession | sessionExists | noJob | jobEnded | noQuota
  | quotaStopped | heldByOther | noSlot | badSlot | slotExhausted | supply | engineNotReady | spoiled
  | cipherFail | scanOverrun | scanInterrupted | scanFault | withdrawn | memoryFault | linkFail | dwell
deriving DecidableEq, Repr

/-- Fault kinds, in the order of Figure 56. -/
inductive FaultKind where
  | memoryRead | memoryWrite | cipherCheck | storeMeters | storeSettings | storeList | storeRecord | linkLine
  | engineProtocol
deriving DecidableEq, Repr

/-! ### Device Control (chapter 11) -/

/-- Figure 45. -/
inductive OpState where
  | starting | running | withdrawn | stopped
deriving DecidableEq, Repr

/-- R167, R181, R182: what began the present start. -/
inductive StartCause where
  | power | restart
deriving DecidableEq, Repr

/-- The device block, less its stored areas. -/
structure Device where
  /-- operating state (R170) -/
  op : OpState
  /-- the start is marked as stopping (R171 steps 3 and 4) -/
  stopping : Bool
  cause : StartCause
  /-- the start count of the present start, as its step 2 advanced it (R171, R156) -/
  startCount : Nat
  /-- settings-defaulted flag (R167) -/
  defaulted : Bool
  /-- device clock, whole seconds, 32 bits (section 6) -/
  clock : Nat
  /-- device time of the entry into WITHDRAWN (R170) -/
  entryTime : Option Nat
deriving DecidableEq, Repr

/-- The first fault of the fault capture record (R176). -/
structure FirstFault where
  kind : FaultKind
  lane : Option Nat
  address : Option Nat
  time : Nat
  detail : Nat
deriving DecidableEq, Repr

/-- The fault capture record (R176). Bit n of `again` is the kind of code n. -/
structure FaultRecord where
  first : Option FirstFault
  again : BitVec 10
  later : Nat
deriving DecidableEq, Repr

/-! ### Stored areas -/

/-- Recorded condition of an account (Figure 5); DAMAGED is derived (R2). -/
inductive AccountState where
  | vacant | active | suspended | locked
deriving DecidableEq, Repr

/-- The stored part of an account record (Figure 5). -/
structure AccountRecord where
  state : AccountState
  mayColour : Bool
  mayScan : Bool
  needsSession : Bool
  unlimited : Bool
  quota : Nat
  used : Nat
  mono : Nat
  colour : Nat
  spoiled : Nat
  scanned : Nat
  toner : Nat
  credential : Option Nat
  failed : Nat
  /-- the stored check value is that of the stored fields (R1, R2) -/
  checkOk : Bool
deriving DecidableEq, Repr

/-- A VACANT record with every field clear (R7). -/
def AccountRecord.vacant : AccountRecord :=
  { state := .vacant, mayColour := false, mayScan := false, needsSession := false, unlimited := false, quota := 0,
    used := 0, mono := 0, colour := 0, spoiled := 0, scanned := 0, toner := 0, credential := none, failed := 0,
    checkOk := true }

/-- The three bounds and four multipliers of a billing class (Figure 11). -/
structure TierTable where
  bound0 : Nat
  bound1 : Nat
  bound2 : Nat
  mult0 : Nat
  mult1 : Nat
  mult2 : Nat
  mult3 : Nat
deriving DecidableEq, Repr

/-- One rate for each size class. -/
structure SizeRates where
  a : Nat
  b : Nat
  c : Nat
deriving DecidableEq, Repr

/-- A tone curve: 17 points of 0..4095 (Figure 11). -/
abbrev Curve := Vector Nat 17

/-- R128: the supply policy. -/
inductive Policy where
  | strict | lenient
deriving DecidableEq, Repr

/-- The RATES section. -/
structure Rates where
  mono : SizeRates
  colour : SizeRates
  scan : SizeRates
  tierMono : TierTable
  tierColour : TierTable
deriving DecidableEq, Repr

/-- The CURVES section. -/
structure Curves where
  curve : PerPlane Curve
  deposit : PerPlane Nat
  floor : Nat
deriving DecidableEq, Repr

/-- The SUPPLY section. -/
structure SupplySettings where
  policy : Policy
  lowPermille : Nat
  writeBack : Nat
  retryLimit : Nat
deriving DecidableEq, Repr

/-- The TIMERS section. -/
structure Timers where
  sessionIdle : Nat
  holdIdle : Nat
  failureLimit : Nat
  lockoutPeriod : Nat
  heldSlotTime : Nat
deriving DecidableEq, Repr

/-- The SENSE section: bit n of `watch` is set when Sn is watched, bit n of `normalHigh` when its normal level is high. -/
structure SenseSettings where
  watch : BitVec 8
  normalHigh : BitVec 8
deriving DecidableEq, Repr

/-- The settings area (Figure 46). -/
structure Settings where
  rates : Rates
  curves : Curves
  supply : SupplySettings
  timers : Timers
  sense : SenseSettings
deriving DecidableEq, Repr

/-- The factory defaults: Figures 11, 12 and 13; STRICT, 100, 50 (R125, R126, R128); retry limit 2 (R140); 120 s, 60 s, 5,
300 s, 1440 min (Figure 46); watch yes and normal level high (section 9.1). -/
def Settings.factory : Settings :=
  let curve : Curve := Vector.ofFn (fun i => min 4095 (256 * i.val))
  { rates :=
      { mono := ⟨100, 200, 400⟩, colour := ⟨400, 800, 1600⟩, scan := ⟨20, 40, 80⟩,
        tierMono := ⟨500, 1500, 4000, 256, 320, 448, 640⟩,
        tierColour := ⟨2000, 6000, 16000, 256, 320, 448, 640⟩ },
    curves :=
      { curve := ⟨curve, curve, curve, curve⟩, deposit := ⟨30000, 30000, 30000, 30000⟩, floor := 5 },
    supply := { policy := .strict, lowPermille := 100, writeBack := 50, retryLimit := 2 },
    timers := { sessionIdle := 120, holdIdle := 60, failureLimit := 5, lockoutPeriod := 300, heldSlotTime := 1440 },
    sense := { watch := 0xFF, normalHigh := 0xFF } }

/-- An entry of the known-cartridge list (section 7.4). -/
structure KnownCartridge where
  id : BitVec 64
  kind : Nat
  remaining : Nat
  useCount : Nat
deriving DecidableEq, Repr

/-- The stored areas, each with whether its check value holds (section 6 "Stored and volatile state"). -/
structure Stored where
  accounts : Vector AccountRecord 512
  settings : Settings
  settingsOk : Bool
  known : List KnownCartridge
  knownOk : Bool
  meters : Meters
  metersOk : Bool
  startCount : Nat
  startCountOk : Bool
deriving DecidableEq, Repr

/-! ### Accounts, sessions, jobs, engine hold (chapters 1 and 2) -/

/-- The volatile part of an account (Figure 5). -/
structure AccountVolatile where
  reserved : Nat
  session : Option Handle
  lockoutEnd : Option Nat
  damaged : Bool
deriving DecidableEq, Repr

/-- R20. -/
def AccountVolatile.reset : AccountVolatile :=
  { reserved := 0, session := none, lockoutEnd := none, damaged := false }

/-- A session entry (section 1.6). -/
structure Session where
  isOpen : Bool
  gen : Nat
  account : Nat
  opened : Nat
  last : Nat
deriving DecidableEq, Repr

/-- A FREE session entry of generation `gen`. -/
def Session.free (gen : Nat) : Session := { isOpen := false, gen, account := 0, opened := 0, last := 0 }

/-- R22. -/
inductive JobState where
  | free | opened | quotaStopped | ending
deriving DecidableEq, Repr

/-- R23. -/
inductive JobKind where
  | print | scan | copy
deriving DecidableEq, Repr

/-- A job entry (Figure 8). -/
structure Job where
  state : JobState
  gen : Nat
  kind : JobKind
  account : Nat
  session : Option Handle
  tag : Word
  free : Nat
  printHold : Nat
  scanHold : Nat
  printFlight : Bool
  scanFlight : Bool
  charged : Nat
  total : Nat
  slots : List SlotHandle
deriving DecidableEq, Repr

/-- A FREE job entry of generation `gen`. -/
def Job.freed (gen : Nat) : Job :=
  { state := .free, gen, kind := .print, account := 0, session := none, tag := 0, free := 0, printHold := 0,
    scanHold := 0, printFlight := false, scanFlight := false, charged := 0, total := 0, slots := [] }

/-- The engine hold record (section 2.6). -/
structure EngineHold where
  owner : Handle
  account : Nat
  last : Nat
deriving DecidableEq, Repr

/-! ### Print path (chapter 4) -/

/-- Figure 19. -/
inductive PrintState where
  | idle | waiting | preparing | imaging | imaged
deriving DecidableEq, Repr

/-- What a WAITING Print Impression waits on: the ready lines (R63) or the cartridge records (R64). -/
inductive PrintWait where
  | ready | supply
deriving DecidableEq, Repr

/-- R67: the condition of a band table entry. -/
inductive BandCond where
  | notRead | reading | ready | sent
deriving DecidableEq, Repr

/-- A band table entry (Figure 18). `data` is what a band place holds: the bytes read while the band waits for the
cipher core, the plaintext lines while it is READY, nothing otherwise. -/
structure BandEntry where
  plane : Plane
  first : Nat
  lines : Nat
  address : Nat
  length : Nat
  enciphered : Bool
  slot : SlotHandle
  page : Nat
  index : Nat
  cond : BandCond
  data : List Byte
deriving DecidableEq, Repr

/-- The arguments of the Print Impression in service (Figure 17), less its band list. -/
structure PrintArgs where
  job : Handle
  size : SizeClass
  colour : Bool
  pixels : Nat
  lines : Nat
  /-- bits per pixel -/
  bpp : Nat
  result : Nat
deriving DecidableEq, Repr

/-- R46: the settings captured for an impression. -/
structure PrintCapture where
  curves : Curves
  rateMono : Nat
  rateColour : Nat
  tierMono : TierTable
  tierColour : TierTable
deriving DecidableEq, Repr

/-- The print path. -/
structure PrintPath where
  state : PrintState
  wait : Option PrintWait
  args : Option PrintArgs
  table : List BandEntry
  /-- R67: next line of each plane to send -/
  position : PerPlane Nat
  /-- R49 -/
  sums : PerPlane Nat
  counts : PerPlane Nat
  /-- R69: impression number -/
  number : Nat
  /-- R71: retired number -/
  retired : Option Nat
  capture : Option PrintCapture
deriving DecidableEq, Repr

/-- R82. -/
def PrintPath.reset : PrintPath :=
  { state := .idle, wait := none, args := none, table := [], position := ⟨0, 0, 0, 0⟩, sums := ⟨0, 0, 0, 0⟩,
    counts := ⟨0, 0, 0, 0⟩, number := 0, retired := none, capture := none }

/-- What the part sends on the engine port (section 4.4). -/
inductive EngineMessage where
  | start (number : Nat) (colour : Bool) (pixels lines : Nat)
  | line (number : Nat) (plane : Plane) (line : Nat) (bytes : List Byte)
  | abort (number : Nat)
deriving DecidableEq, Repr

/-! ### Scan path and cipher core (chapter 5) -/

/-- Figure 22. -/
inductive ScanState where
  | idle | waiting | scanning | ciphering
deriving DecidableEq, Repr

/-- The three kinds of work of lane 1. -/
inductive ScanWork where
  | page | encipher | decipher
deriving DecidableEq, Repr

/-- Condition of an internal band buffer (R90). CIPHERING is kept in its two parts: waiting for the core or in it, and
enciphered but waiting for the band before it to be written. WRITING is kept in its two writes: band data, band record. -/
inductive BufferCond where
  | free | filling | ciphering | ciphered | writingData | writingRecord
deriving DecidableEq, Repr

/-- An internal band buffer. -/
structure Buffer where
  cond : BufferCond
  band : Nat
  lines : Nat
  data : List Byte
deriving DecidableEq, Repr

/-- An erased, FREE buffer. -/
def Buffer.erased : Buffer := { cond := .free, band := 0, lines := 0, data := [] }

/-- An entry of a source list: address, length, and lines (Encipher Bands) or band index (Decipher Bands) (Figure 51). -/
structure Source where
  address : Nat
  length : Nat
  extra : Nat
deriving DecidableEq, Repr

/-- An entry of a buffer or destination list: address and capacity (Figure 51). -/
structure Destination where
  address : Nat
  capacity : Nat
deriving DecidableEq, Repr

/-- The arguments of the lane 1 ticket in service (Figures 21 and 23). -/
structure ScanArgs where
  job : Handle
  slot : SlotHandle
  size : SizeClass
  lineBytes : Nat
  maxLines : Nat
  bandLines : Nat
  records : Nat
deriving DecidableEq, Repr

/-- The scan path. -/
structure ScanPath where
  state : ScanState
  work : ScanWork
  args : Option ScanArgs
  /-- buffer table (R85) or destination list (R96, R98) -/
  buffers : List Destination
  /-- source list (R96, R98) -/
  sources : List Source
  /-- page number of the work in flight -/
  page : Nat
  /-- lines taken -/
  taken : Nat
  /-- bands begun; for a cipher ticket, source reads begun -/
  begun : Nat
  /-- band records written; for Decipher Bands, bands written whole -/
  written : Nat
  lineLimit : Bool
  truncation : Bool
  /-- the scanner's page end has been taken (R92) -/
  pageEnd : Bool
  /-- first failure of work that still waits for a write to complete (R93, R97, R99) -/
  failed : Option ReturnCode
  internal : Vector Buffer 2
  /-- drain mark (R94) -/
  drain : Bool
  /-- captured SCAN rate (R46, R88) -/
  capture : Option Nat
deriving DecidableEq, Repr

/-- R101. -/
def ScanPath.reset : ScanPath :=
  { state := .idle, work := .page, args := none, buffers := [], sources := [], page := 0, taken := 0, begun := 0,
    written := 0, lineLimit := false, truncation := false, pageEnd := false, failed := none,
    internal := Vector.replicate 2 .erased, drain := false, capture := none }

/-- The two paths that present bands to the core (R84). -/
inductive CipherPath where
  | print | scan
deriving DecidableEq, Repr

/-- The band in the core: whose it is (band table index or internal buffer number), the slot whose key is loaded, and
whether the work it belongs to has ended, so that its output will be discarded (R77, R93). -/
structure CoreBand where
  path : CipherPath
  idx : Nat
  slot : SlotHandle
  orphan : Bool
deriving DecidableEq, Repr

/-- The cipher core's scheduling state (R84, R174). -/
structure Core where
  band : Option CoreBand
  /-- the print path's waiting bands, in the order their reads completed -/
  printQueue : List Nat
  /-- the scan path's waiting band, one at most -/
  scanWaiting : Option Nat
  lastServed : CipherPath
  /-- cipher count (R174) -/
  count : Nat
  /-- the periodic known-answer test is running (R174) -/
  periodicTest : Bool
  /-- Resume Service's known-answer test is running (R175) -/
  resumeTest : Bool
deriving DecidableEq, Repr

/-- R101, R115; the cipher count is 0 after every reset (R174). -/
def Core.reset : Core :=
  { band := none, printQueue := [], scanWaiting := none, lastServed := .scan, count := 0, periodicTest := false,
    resumeTest := false }

/-! ### Key slots (chapter 6) -/

/-- Section 6.1. -/
inductive SlotState where
  | free | live | held
deriving DecidableEq, Repr

/-- A key slot (Figure 25). Bits 0..3 of `uses` are SCAN, ENCIPHER, DECIPHER, PRINT (section 12.2). -/
structure KeySlot where
  state : SlotState
  gen : Nat
  owner : Option Nat
  job : Option Handle
  uses : BitVec 4
  page : Nat
  keep : Nat
  expiry : Option Nat
  key : Option (BitVec 256)
deriving DecidableEq, Repr

/-- A FREE slot of generation `gen` (R111, R115). -/
def KeySlot.free (gen : Nat) : KeySlot :=
  { state := .free, gen, owner := none, job := none, uses := 0, page := 0, keep := 0, expiry := none, key := none }

/-! ### Supplies and link (chapters 7 and 8) -/

/-- Figure 30. -/
inductive AuthState where
  | absent | unchecked | checking | verified | rejected | permitted | silent
deriving DecidableEq, Repr

/-- Figure 29. -/
inductive RejectReason where
  | badProof | wrongKind
deriving DecidableEq, Repr

/-- R125. -/
inductive Level where
  | normal | low | empty
deriving DecidableEq, Repr

/-- The values group of a cartridge record (Figure 29). -/
structure CartridgeValues where
  capacity : Nat
  remaining : Nat
  level : Level
  useCount : Nat
  sinceWrite : Nat
deriving DecidableEq, Repr

/-- A cartridge record (Figure 29). -/
structure Cartridge where
  auth : AuthState
  reason : Option RejectReason
  id : Option (BitVec 64)
  kind : Option Nat
  values : Option CartridgeValues
  unproven : Bool
  recordOwed : Bool
deriving DecidableEq, Repr

/-- R132. -/
def Cartridge.reset : Cartridge :=
  { auth := .unchecked, reason := none, id := none, kind := none, values := none, unproven := false,
    recordOwed := false }

/-- Figure 32. -/
inductive LinkState where
  | idle | settling | request | response | stuck
deriving DecidableEq, Repr

/-- Figure 34. -/
inductive ProcedureKind where
  | check | record
deriving DecidableEq, Repr

/-- The transaction a running CHECK is on (Figure 34). -/
inductive CheckPhase where
  | identify | prove
deriving DecidableEq, Repr

/-- The five values of an IDENTIFY response (R119). -/
structure Identity where
  id : BitVec 64
  kind : Nat
  capacity : Nat
  remaining : Nat
  useCount : Nat
deriving DecidableEq, Repr

/-- A procedure queue entry (Figure 34). -/
structure Procedure where
  slot : Nat
  kind : ProcedureKind
  running : Bool
  waiter : Bool
  nonce : Option (BitVec 128)
  identity : Option Identity
  phase : Option CheckPhase
  captured : Option (Nat × Nat)
deriving DecidableEq, Repr

/-- The link commands (Figure 33). -/
inductive LinkCommand where
  | identify | prove | record
deriving DecidableEq, Repr

/-- The transaction on the wire: its frame's fields, the further attempts already sent (R140) and whether its procedure
has been removed, so that its result will be discarded (R143). -/
structure Transaction where
  slot : Nat
  command : LinkCommand
  sequence : Nat
  payload : List Byte
  retries : Nat
  discarded : Bool
deriving DecidableEq, Repr

/-- The link controller. -/
structure Link where
  state : LinkState
  queue : List Procedure
  /-- R137: one sequence counter per slot, slot 1 at index 0 -/
  sequence : Vector Nat 5
  transaction : Option Transaction
  /-- the request frame being driven on SLD (R134), empty when the part has released the line -/
  frame : List Byte
deriving DecidableEq, Repr

/-- R146. -/
def Link.reset : Link :=
  { state := .idle, queue := [], sequence := Vector.replicate 5 0, transaction := none, frame := [] }

/-- The Check Cartridge waiting on lane 3 (R130): masks with bit 0 for slot 1. -/
structure CheckWait where
  failed : BitVec 5
  notChecked : BitVec 5
  result : Nat
  capacity : Nat
deriving DecidableEq, Repr

/-! ### Intake (chapter 10) -/

/-- A ticket in service: its address, the copy taken at fetch, and whether its service has begun (R156, R159). -/
structure Ticket where
  address : Nat
  words : List Word
  begun : Bool
deriving DecidableEq, Repr

/-- A lane: intake queue of addresses and ticket in service (R159). -/
structure Lane where
  queue : List Nat
  service : Option Ticket
deriving DecidableEq, Repr

/-- R169. -/
def Lane.reset : Lane := { queue := [], service := none }

/-! ### Shared memory -/

/-- The shared DRAM: (address, byte) pairs, addresses strictly rising, no listed byte equal to what an unlisted address
reads as. -/
abbrev Memory := List Host.Cell

/-! ### The whole state -/

/-- The state of the part and what it shares with the outside. -/
structure State where
  /-- the supply voltages are present (R1, R181) -/
  power : Bool
  /-- NRST is asserted (R181) -/
  nrst : Bool
  dev : Device
  faults : FaultRecord
  stored : Stored
  accounts : Vector AccountVolatile 512
  /-- account 0's failing record has been captured in this start (R3, R20) -/
  zeroCaptured : Bool
  sessions : Vector Session 8
  jobs : Vector Job 32
  hold : Option EngineHold
  print : PrintPath
  /-- messages sent on the engine port by the last command -/
  engineOut : List EngineMessage
  scan : ScanPath
  core : Core
  slots : Vector KeySlot 32
  /-- draws made from the random source (model's own, log 8) -/
  draws : Nat
  /-- the five cartridge records, slot 1 at index 0 -/
  carts : Vector Cartridge 5
  link : Link
  checkWait : Option CheckWait
  /-- taken level of each sense line, bit n for Sn, 1 high (R147) -/
  levels : BitVec 8
  lanes : Vector Lane 4
  /-- Notice and Notice Enable, bit positions of section 12.5 -/
  notice : BitVec 13
  enable : BitVec 13
  /-- what the last read of Notice returned (model's own, log 9) -/
  readData : Word
  mem : Memory
  /-- the environment of the command being taken (model's own, log 2) -/
  env : Env
  /-- the stored areas as they stood before the last command (model's own, log 1) -/
  shadow : Stored
  /-- the shared DRAM as it stood before the last command's own writes (model's own, log 1) -/
  shadowMem : Memory
  /-- the stored areas and the shared DRAM as they stood right after each durable write of the last command, oldest first (model's own,
  log 1) -/
  afterWrites : List (Stored × Memory)
  /-- commands waiting, first in first out -/
  pending : List Instr
deriving DecidableEq, Repr

/-- No constructor: the manual's faults are captures of the fault record (R176), after which the part goes on, so no
command stops the machine. -/
inductive Fault where
deriving DecidableEq, Repr

/-- Refusals. -/
inductive Refusal where
  /-- Raised by an arm of `exec` whose command has no meaning yet, with its mnemonic. Safe: the model stops. -/
  | notModelled (mnemonic : String)
deriving DecidableEq, Repr

/-- The stored areas of a part that has never been used: every account VACANT, factory settings, an empty
known-cartridge list, meters 0, and the start count of its first start (log 5). -/
def Stored.factory : Stored :=
  { accounts := Vector.replicate 512 .vacant, settings := .factory, settingsOk := true, known := [], knownOk := true,
    meters := {}, metersOk := true, startCount := 1, startCountOk := true }

/-- Right after reset: a start with cause POWER has taken its steps 1 to 7 with every check passed and every sense line
high (R171, R182; logs 4, 5, 6). START_END ends the start. -/
def State.reset : State :=
  { power := true, nrst := false,
    dev := { op := .starting, stopping := false, cause := .power, startCount := 1, defaulted := false, clock := 0, entryTime := none },
    faults := { first := none, again := 0, later := 0 },
    stored := .factory,
    accounts := Vector.replicate 512 .reset, zeroCaptured := false,
    sessions := Vector.replicate 8 (.free 0),
    jobs := Vector.replicate 32 (.freed 0),
    hold := none,
    print := .reset, engineOut := [],
    scan := .reset, core := .reset,
    slots := Vector.replicate 32 (.free 0), draws := 0,
    carts := Vector.replicate 5 .reset, link := .reset, checkWait := none,
    levels := 0xFF,
    lanes := Vector.replicate 4 .reset,
    notice := 0, enable := 0, readData := 0,
    mem := [], env := .calm, shadow := .factory, shadowMem := [], afterWrites := [], pending := [] }

end Sys2Proof.Machine
end

