-- ==== Sys2Proof/Machine/Memory.lean ====
section
/-! DEFINITION. Reading and writing the shared DRAM (spec 00 sections 3 and 6): byte addresses of 32 bits, little-endian
words, and accesses that may fail at any address (R159, R161, R163). -/

namespace Sys2Proof.Machine

/-- What a byte that nothing has written reads as (log 4). -/
def Memory.unlisted : Byte := 0

/-- Addresses are 32 bits; an access that runs past the top goes on at 0 (log 10). -/
def wrapAddress (a : Nat) : Nat := a % 2 ^ 32

/-- One byte of memory. -/
def Memory.read (m : Memory) (a : Nat) : Byte :=
  match m with
  | [] => Memory.unlisted
  | (x, v) :: rest => if x = a then v else Memory.read rest a

/-- Write one byte, keeping the addresses strictly rising and no entry at the unlisted value. -/
def Memory.write (m : Memory) (a : Nat) (b : Byte) : Memory :=
  match m with
  | [] => if b = Memory.unlisted then [] else [(a, b)]
  | (x, v) :: rest =>
    if a < x then
      if b = Memory.unlisted then (x, v) :: rest else (a, b) :: (x, v) :: rest
    else if a = x then
      if b = Memory.unlisted then rest else (a, b) :: rest
    else (x, v) :: Memory.write rest a b

/-- The canonical form: addresses strictly rising and below 2^32, no entry at the unlisted value. -/
abbrev Memory.wf (m : Memory) : Prop :=
  m.Pairwise (fun p q => p.1 < q.1) ∧ ∀ c ∈ m, c.1 < 2 ^ 32 ∧ c.2 ≠ Memory.unlisted

/-- Bytes that others store (the operand env.stores). -/
def Memory.storeAll (m : Memory) (cells : List (Nat × Byte)) : Memory :=
  cells.foldl (fun m c => m.write (wrapAddress c.1) c.2) m

/-- Whether an address lies in one of the failing ranges. -/
def failsAt (ranges : List (Nat × Nat)) (a : Nat) : Bool :=
  ranges.any (fun r => decide (r.1 ≤ a ∧ a < r.1 + r.2))

/-- Byte i of a word, byte 0 least significant. -/
def wordByte (w : Word) (i : Nat) : Byte := (w >>> (8 * i)).setWidth 8

/-- The word of four bytes, the first least significant. -/
def wordOf (b0 b1 b2 b3 : Byte) : Word := b3 ++ b2 ++ b1 ++ b0

/-- The word at an address. -/
def Memory.word (m : Memory) (a : Nat) : Word :=
  wordOf (m.read (wrapAddress a)) (m.read (wrapAddress (a + 1))) (m.read (wrapAddress (a + 2)))
    (m.read (wrapAddress (a + 3)))

/-- Store a word, its four bytes in ascending order. -/
def Memory.putWord (m : Memory) (a : Nat) (w : Word) : Memory :=
  (((m.write (wrapAddress a) (wordByte w 0)).write (wrapAddress (a + 1)) (wordByte w 1)).write
    (wrapAddress (a + 2)) (wordByte w 2)).write (wrapAddress (a + 3)) (wordByte w 3)

/-- Whether one of the four bytes of a word access fails. -/
def wordFails (ranges : List (Nat × Nat)) (a : Nat) : Bool :=
  failsAt ranges (wrapAddress a) || failsAt ranges (wrapAddress (a + 1)) || failsAt ranges (wrapAddress (a + 2)) ||
    failsAt ranges (wrapAddress (a + 3))

/-- Read n bytes; an error carries the first failing address. -/
def State.readBytes (s : State) (a n : Nat) : Except Nat (List Byte) :=
  match (List.range n).find? (fun i => failsAt s.env.badReads (wrapAddress (a + i))) with
  | some i => .error (wrapAddress (a + i))
  | none => .ok ((List.range n).map (fun i => s.mem.read (wrapAddress (a + i))))

/-- Read n consecutive words; an error carries the address of the first word that fails. -/
def State.readWords (s : State) (a : Nat) : Nat → Except Nat (List Word)
  | 0 => .ok []
  | n + 1 =>
    if wordFails s.env.badReads a then .error (wrapAddress a)
    else
      match s.readWords (a + 4) n with
      | .error e => .error e
      | .ok ws => .ok (s.mem.word a :: ws)

/-- The state with another shared DRAM. -/
def State.setMem (s : State) (m : Memory) : State := { s with mem := m }

/-- Write bytes in ascending order up to the first address that fails; the second part is that address (log 12). -/
def State.writeBytes (s : State) (a : Nat) : List Byte → State × Option Nat
  | [] => (s, none)
  | b :: rest =>
    if failsAt s.env.badWrites (wrapAddress a) then (s, some (wrapAddress a))
    else State.writeBytes (s.setMem (s.mem.write (wrapAddress a) b)) (a + 1) rest

/-- Write one word, or nothing when one of its bytes fails; the second part is the failing word's address. -/
def State.writeWord (s : State) (a : Nat) (w : Word) : State × Option Nat :=
  if wordFails s.env.badWrites a then (s, some (wrapAddress a))
  else (s.setMem (s.mem.putWord a w), none)

/-- Write words in ascending order up to the first that fails. -/
def State.writeWords (s : State) (a : Nat) : List Word → State × Option Nat
  | [] => (s, none)
  | w :: rest =>
    match s.writeWord a w with
    | (s', some e) => (s', some e)
    | (s', none) => State.writeWords s' (a + 4) rest

end Sys2Proof.Machine
end

