-- ==== Sys2Proof/Machine/Flags.lean ====
section
/-! DEFINITION. Codes and flag words: return codes (Figure 55), fault kinds (Figure 56), Notice and NINT (R164, R166),
the closing word (Figure 48), the fault capture record (R176), and the words a read of Post and of Device returns
(R158, R167). -/

namespace Sys2Proof.Machine

/-- Figure 55. -/
def ReturnCode.code : ReturnCode → Nat
  | .ok => 0 | .deferred => 1 | .badTicket => 2 | .badState => 3 | .noAccount => 4 | .accountSuspended => 5
  | .accountLocked => 6 | .accountDamaged => 7 | .accountBusy => 8 | .notPermitted => 9 | .badCredential => 10
  | .noSession => 11 | .sessionExists => 12 | .noJob => 13 | .jobEnded => 14 | .noQuota => 15 | .quotaStopped => 16
  | .heldByOther => 17 | .noSlot => 18 | .badSlot => 19 | .slotExhausted => 20 | .supply => 21
  | .engineNotReady => 22 | .spoiled => 23 | .cipherFail => 24 | .scanOverrun => 25 | .scanInterrupted => 26
  | .scanFault => 27 | .withdrawn => 28 | .memoryFault => 29 | .linkFail => 30 | .dwell => 31

/-- Figure 56. -/
def FaultKind.code : FaultKind → Nat
  | .memoryRead => 1 | .memoryWrite => 2 | .cipherCheck => 3 | .storeMeters => 4 | .storeSettings => 5
  | .storeList => 6 | .storeRecord => 7 | .linkLine => 8 | .engineProtocol => 9

/-- Section 12.4, Status Digest record. -/
def OpState.code : OpState → Nat
  | .starting => 0 | .running => 1 | .withdrawn => 2 | .stopped => 3

/-- A flag as a bit. -/
def flagBit (b : Bool) : Nat := if b then 1 else 0

/-! ### Notice -/

/-- The cause flags of Notice (R164). -/
inductive Cause where
  | closed (lane : Fin 4)
  | dropped (lane : Fin 4)
  | stale | supply | sense | fault | timer
deriving DecidableEq, Repr

/-- The bit of a cause in Notice and Notice Enable (section 12.5). -/
def Cause.bit : Cause → Nat
  | .closed n => n.val
  | .dropped n => 4 + n.val
  | .stale => 8 | .supply => 9 | .sense => 10 | .fault => 11 | .timer => 12

/-- The flag word of one cause. -/
def Cause.mask (c : Cause) : BitVec 13 := BitVec.twoPow 13 c.bit

/-- Set a cause; one already set stays set (R164). -/
def State.raise (s : State) (c : Cause) : State := { s with notice := s.notice ||| c.mask }

/-- R166: NINT is asserted while a flag and its enable are both set. -/
def State.nintAsserted (s : State) : Bool := s.notice &&& s.enable != 0

/-! ### The fault capture record -/

/-- R176. -/
def FaultRecord.capture (r : FaultRecord) (f : FirstFault) : FaultRecord :=
  match r.first with
  | none => { r with first := some f }
  | some _ => { r with again := r.again ||| BitVec.twoPow 10 f.kind.code, later := min 255 (r.later + 1) }

/-- R177, R181: the record cleared. -/
def FaultRecord.cleared : FaultRecord := { first := none, again := 0, later := 0 }

/-- The device time a capture carries: 0 during STARTING (R176). -/
def State.faultTime (s : State) : Nat := if s.dev.op = .starting then 0 else s.dev.clock

/-- R176: capture a fault and set FAULT. -/
def State.capture (s : State) (kind : FaultKind) (lane address : Option Nat) (detail : Nat) : State :=
  { s with
    faults := s.faults.capture { kind, lane, address, time := s.faultTime, detail }
    notice := s.notice ||| Cause.fault.mask }

/-- Capture MEMORY_READ or MEMORY_WRITE with a lane and the failing address (Figure 56: detail 0). -/
def State.captureMemory (s : State) (kind : FaultKind) (lane : Nat) (address : Nat) : State :=
  s.capture kind (some lane) (some address) 0

/-! ### Words the host reads -/

/-- The epoch: the low 8 bits of the start count of the present start (section 7, R156). -/
def State.epoch (s : State) : Nat := s.dev.startCount % 256

/-- Figure 48: a closing word. -/
def closingWord (state code epoch : Nat) (ended truncated : Bool) : Word :=
  BitVec.ofNat 32 (state + code * 2 ^ 8 + epoch * 2 ^ 16 + flagBit ended * 2 ^ 24 + flagBit truncated * 2 ^ 25)

/-- R158, section 12.5: what a read of Post returns. -/
def State.postRead (s : State) : Word :=
  let freePlaces (n : Fin 4) : Nat := 8 - (s.lanes.get n).queue.length
  BitVec.ofNat 32 (freePlaces 0 + freePlaces 1 * 2 ^ 4 + freePlaces 2 * 2 ^ 8 + freePlaces 3 * 2 ^ 12 +
    s.dev.op.code * 2 ^ 28)

/-- R167, section 12.5: what a read of Device returns. -/
def State.deviceRead (s : State) : Word :=
  BitVec.ofNat 32 (s.dev.op.code + flagBit (s.dev.cause == .restart) * 2 ^ 4 + flagBit s.dev.defaulted * 2 ^ 5 +
    flagBit s.faults.first.isSome * 2 ^ 6 + s.epoch * 2 ^ 8 + Config.partRevision * 2 ^ 24)

/-- R166: what a read of Notice Enable returns. -/
def State.enableRead (s : State) : Word := s.enable.setWidth 32

end Sys2Proof.Machine
end

