-- ==== Sys2Proof/Machine/Operands.lean ====
section
/-! DEFINITION. The fields of tickets and lists at the positions of chapter 12 (R183), and the codes they carry. -/

namespace Sys2Proof.Machine

/-- Bits h..l of a word (section 12.1). -/
def bits (w : Word) (h l : Nat) : Nat := (w.toNat >>> l) % 2 ^ (h + 1 - l)

/-- One bit of a word. -/
def bit (w : Word) (n : Nat) : Bool := w.toNat.testBit n

/-- Argument word Wi of a ticket's copy. -/
def Ticket.w (t : Ticket) (i : Nat) : Word := t.words.getD i 0

/-- A word of a list. -/
def wordAt (ws : List Word) (i : Nat) : Word := ws.getD i 0

/-! ### Handles -/

/-- A 16-bit handle field: bits 7..0 entry number, 15..8 generation (section 12.1). -/
def Handle.ofField (w : Word) : Handle := { idx := bits w 7 0, gen := bits w 15 8 }

/-- The field value 0xFFFF means none. -/
def Handle.optOfField (w : Word) : Option Handle :=
  if bits w 15 0 = 0xFFFF then none else some (Handle.ofField w)

/-- The 16-bit field of a handle. -/
def Handle.field (h : Handle) : Nat := h.idx % 256 + (h.gen % 256) * 256

/-- The 16-bit field of an optional handle. -/
def handleField (h : Option Handle) : Nat :=
  match h with
  | none => 0xFFFF
  | some h => h.field

/-- A key slot handle word (section 12.1). -/
def SlotHandle.ofWord (w : Word) : SlotHandle := { idx := bits w 15 0, gen := bits w 31 16 }

/-- The word of a key slot handle. -/
def SlotHandle.word (h : SlotHandle) : Nat := h.idx % 65536 + (h.gen % 65536) * 65536

/-! ### Ticket kinds -/

/-- The ticket kinds (Figure 49). -/
inductive TicketKind where
  | setAccount | readAccounts | resetPeriod | openSession | closeSession | openJob | endJob | resumeJob | takeHold
  | releaseHold | openSlot | keepSlot | attachSlot | destroySlot | configure | statusDigest | clearFaults
  | resumeService | scanPage | encipherBands | decipherBands | printImpression | checkCartridge | readCartridges
deriving DecidableEq, Repr

/-- Figure 49. -/
def TicketKind.ofCode (n : Nat) : Option TicketKind :=
  match n with
  | 0x01 => some .setAccount
  | 0x02 => some .readAccounts
  | 0x03 => some .resetPeriod
  | 0x04 => some .openSession
  | 0x05 => some .closeSession
  | 0x06 => some .openJob
  | 0x07 => some .endJob
  | 0x08 => some .resumeJob
  | 0x09 => some .takeHold
  | 0x0A => some .releaseHold
  | 0x0B => some .openSlot
  | 0x0C => some .keepSlot
  | 0x0D => some .attachSlot
  | 0x0E => some .destroySlot
  | 0x0F => some .configure
  | 0x10 => some .statusDigest
  | 0x11 => some .clearFaults
  | 0x12 => some .resumeService
  | 0x21 => some .scanPage
  | 0x22 => some .encipherBands
  | 0x23 => some .decipherBands
  | 0x41 => some .printImpression
  | 0x61 => some .checkCartridge
  | 0x62 => some .readCartridges
  | _ => none

/-- Figure 41: the lane that carries a kind. -/
def TicketKind.lane : TicketKind → Fin 4
  | .scanPage => 1
  | .encipherBands => 1
  | .decipherBands => 1
  | .printImpression => 2
  | .checkCartridge => 3
  | .readCartridges => 3
  | _ => 0

/-- The kind named by W0 bits 7..0. -/
def Ticket.kind (t : Ticket) : Option TicketKind := TicketKind.ofCode (bits (t.w 0) 7 0)

/-- The lane echo, W0 bits 9..8. -/
def Ticket.echo (t : Ticket) : Nat := bits (t.w 0) 9 8

/-- R172: what the operating state answers at the start of service; none when the kind is served. -/
def stateGate (op : OpState) (kind : TicketKind) : Option ReturnCode :=
  match op with
  | .starting => none
  | .running => none
  | .withdrawn =>
    match kind with
    | .openSlot => some .withdrawn
    | .attachSlot => some .withdrawn
    | .scanPage => some .withdrawn
    | .encipherBands => some .withdrawn
    | .decipherBands => some .withdrawn
    | .printImpression => some .withdrawn
    | _ => none
  | .stopped =>
    match kind with
    | .statusDigest => none
    | .readAccounts => none
    | .clearFaults => none
    | .readCartridges => none
    | _ => some .badState

/-! ### Codes of argument fields -/

/-- Section 12.1: 1 A, 2 B, 3 C. -/
def SizeClass.ofCode (n : Nat) : Option SizeClass :=
  match n with
  | 1 => some .a
  | 2 => some .b
  | 3 => some .c
  | _ => none

/-- Section 12.1: 1 C, 2 M, 3 Y, 4 K. -/
def planeOfCode (n : Nat) : Option Plane :=
  match n with
  | 1 => some .c
  | 2 => some .m
  | 3 => some .y
  | 4 => some .k
  | _ => none

/-- Open Job's kind field (Figure 49). -/
def JobKind.ofCode (n : Nat) : Option JobKind :=
  match n with
  | 1 => some .print
  | 2 => some .scan
  | 3 => some .copy
  | _ => none

/-- The kind code of a job entry in Status Digest; a FREE entry's is absent, so 0 (R183). -/
def Job.kindCode (j : Job) : Nat :=
  if j.state = .free then 0
  else
    match j.kind with
    | .print => 1
    | .scan => 2
    | .copy => 3

/-- Set Account's state field (Figure 49). -/
def accountStateOfCode (n : Nat) : Option AccountState :=
  match n with
  | 1 => some .active
  | 2 => some .suspended
  | 3 => some .locked
  | _ => none

/-- Figure 53. -/
def AccountState.code : AccountState → Nat
  | .vacant => 0 | .active => 1 | .suspended => 2 | .locked => 3

/-- Status Digest record. -/
def JobState.code : JobState → Nat
  | .free => 0 | .opened => 1 | .quotaStopped => 2 | .ending => 3

/-- Status Digest record; Destroy Slot's W13 (R112). -/
def SlotState.code : SlotState → Nat
  | .free => 0 | .live => 1 | .held => 2

/-- Figure 54. -/
def AuthState.code : AuthState → Nat
  | .absent => 1 | .unchecked => 2 | .checking => 3 | .verified => 4 | .rejected => 5 | .permitted => 6 | .silent => 7

/-- Figure 54. -/
def reasonCode : Option RejectReason → Nat
  | none => 0
  | some .badProof => 1
  | some .wrongKind => 2

/-- Figure 54. -/
def Level.code : Level → Nat
  | .normal => 0 | .low => 1 | .empty => 2

/-- R183: a credential is its stated length of bytes from the start of its byte field; the field's words are little-endian. -/
def credentialBytes (t : Ticket) (first length : Nat) : List Byte :=
  (List.range length).map (fun i => wordByte (t.w (first + i / 4)) (i % 4))

/-- Byte address aligned to a word and not 0 (R163, R178). -/
def areaOk (a : Nat) : Bool := a ≠ 0 && a % 4 = 0

/-! ### Vectors of records -/

/-- An entry of a table; an index beyond the table reads the value given. -/
def entryAt {α : Type} {n : Nat} (v : Vector α n) (i : Nat) (beyond : α) : α := (v[i]?).getD beyond

/-- Replace an entry; an index beyond the table changes nothing. -/
def putAt {α : Type} {n : Nat} (v : Vector α n) (i : Nat) (x : α) : Vector α n := v.setIfInBounds i x

/-- The lowest entry that satisfies a test ("the lowest-numbered FREE entry"). -/
def lowest {α : Type} {n : Nat} (v : Vector α n) (p : α → Bool) : Option Nat := v.toList.findIdx? p

/-! ### Planes -/

/-- The value of a plane. -/
def PerPlane.get {α : Type} (v : PerPlane α) : Plane → α
  | .c => v.c
  | .m => v.m
  | .y => v.y
  | .k => v.k

/-- Replace the value of a plane. -/
def PerPlane.set {α : Type} (v : PerPlane α) (p : Plane) (x : α) : PerPlane α :=
  match p with
  | .c => { v with c := x }
  | .m => { v with m := x }
  | .y => { v with y := x }
  | .k => { v with k := x }

/-- The value of each plane from a function. -/
def PerPlane.of {α : Type} (f : Plane → α) : PerPlane α := ⟨f .c, f .m, f .y, f .k⟩

/-- The plane set of a page: {K} for MONO, {C, M, Y, K} for COLOUR (R61). -/
def planeSet (colour : Bool) : List Plane := if colour then [.c, .m, .y, .k] else [.k]

end Sys2Proof.Machine
end

