-- ==== Sys2Proof/Machine/Ops.lean ====
section
/-! DEFINITION. The shared operations: the frame of a command (environment, clock, shadow of the stored areas), table
accessors, refusals taken in order, and closing a ticket (R161). -/

namespace Sys2Proof.Machine

/-! ### The frame of a command -/

/-- The part is powered and not held by the reset input (R181). -/
def State.alive (s : State) : Bool := s.power && !s.nrst

/-- The part is alive and its start has ended: lanes fetch, timers act (R159, R170). -/
def State.up (s : State) : Bool := s.alive && s.dev.op ≠ .starting

/-- The device clock after some seconds: 32 bits; past its largest value the free value (log 7). -/
def clockAfter (clock seconds : Nat) : Nat :=
  if clock + seconds < 2 ^ 32 then clock + seconds else (Config.clockPastLast (clock + seconds)).toNat

/-- A stored area whose check value no longer holds. -/
def Stored.decay (st : Stored) : Decay → Stored
  | .account n =>
    { st with accounts := putAt st.accounts n { entryAt st.accounts n .vacant with checkOk := false } }
  | .settings => { st with settingsOk := false }
  | .knownList => { st with knownOk := false }
  | .meters m => { st with meters := m, metersOk := false }
  | .startCount n => { st with startCount := n % 2 ^ 32, startCountOk := false }

/-- What stands before a command's own effect: the outside's stores and decays, the seconds the device clock has counted
(it runs in every state after STARTING, R170), no engine message yet, and the stored areas and the DRAM kept as they stand, for
a loss of power during the command (R1), which has written no area yet. -/
def State.begin (s : State) (env : Env) : State :=
  let stored := env.decayed.foldl Stored.decay s.stored
  let mem := s.mem.storeAll env.stores
  { s with
    env := env
    mem := mem
    shadowMem := mem
    stored := stored
    shadow := stored
    afterWrites := []
    engineOut := []
    dev := { s.dev with clock := if s.up then clockAfter s.dev.clock env.elapsed else s.dev.clock } }

/-- After the command the environment is calm again. -/
def State.finish (s : State) : State := { s with env := .calm }

/-- One command: its environment, then its effect, as one whole step that always completes. -/
def command (env : Env) (s : State) (effect : State → State) : Host.Outcome State Fault Refusal :=
  .next (effect (s.begin env)).finish

/-! ### Stored areas -/

/-- The stored areas, each written as a whole: one account record (R1), the settings area (R178), the known-cartridge list (R122), the
lifetime meters and the start count (R180). -/
inductive AreaId where
  | account (number : Nat)
  | settings
  | knownList
  | meters
  | startCount
deriving DecidableEq, Repr

/-- A stored area holds the same, its check value included, in two states of the stored areas. -/
def Stored.same (x y : Stored) : AreaId → Bool
  | .account n => entryAt x.accounts n .vacant = entryAt y.accounts n .vacant
  | .settings => x.settings = y.settings && x.settingsOk = y.settingsOk
  | .knownList => x.known = y.known && x.knownOk = y.knownOk
  | .meters => x.meters = y.meters && x.metersOk = y.metersOk
  | .startCount => x.startCount = y.startCount && x.startCountOk = y.startCountOk

/-- R1, R9, R122, R178, R180: one durable write of a stored area. Each record is durable as it is written, and what stands right after a
write that changes its area is kept for a loss of power before the next (log 1). -/
def State.store (s : State) (area : AreaId) (st : Stored) : State :=
  { s with
    stored := st
    afterWrites := if st.same s.stored area then s.afterWrites else s.afterWrites ++ [(st, s.mem)] }

/-! ### Tables -/

/-- The stored record of an account. -/
def State.record (s : State) (n : Nat) : AccountRecord := entryAt s.stored.accounts n .vacant

/-- Replace the stored record of an account as it stands. -/
def State.putRecord (s : State) (n : Nat) (r : AccountRecord) : State :=
  s.store (.account n) { s.stored with accounts := putAt s.stored.accounts n r }

/-- R1: the part writes a record as a whole with a new check value. -/
def State.writeRecord (s : State) (n : Nat) (r : AccountRecord) : State := s.putRecord n { r with checkOk := true }

/-- The volatile part of an account. -/
def State.acct (s : State) (n : Nat) : AccountVolatile := entryAt s.accounts n .reset

/-- Replace the volatile part of an account. -/
def State.putAcct (s : State) (n : Nat) (a : AccountVolatile) : State := { s with accounts := putAt s.accounts n a }

/-- A session entry. -/
def State.session (s : State) (i : Nat) : Session := entryAt s.sessions i (.free 0)

/-- Replace a session entry. -/
def State.putSession (s : State) (i : Nat) (x : Session) : State := { s with sessions := putAt s.sessions i x }

/-- A job entry. -/
def State.job (s : State) (i : Nat) : Job := entryAt s.jobs i (.freed 0)

/-- Replace a job entry. -/
def State.putJob (s : State) (i : Nat) (x : Job) : State := { s with jobs := putAt s.jobs i x }

/-- A key slot. -/
def State.slot (s : State) (i : Nat) : KeySlot := entryAt s.slots i (.free 0)

/-- Replace a key slot. -/
def State.putSlot (s : State) (i : Nat) (x : KeySlot) : State := { s with slots := putAt s.slots i x }

/-- The cartridge record of supply slot 1..5. -/
def State.cart (s : State) (slot : Nat) : Cartridge := entryAt s.carts (slot - 1) .reset

/-- Replace the cartridge record of supply slot 1..5. -/
def State.putCart (s : State) (slot : Nat) (x : Cartridge) : State := { s with carts := putAt s.carts (slot - 1) x }

/-- A lane. -/
def State.lane (s : State) (n : Fin 4) : Lane := s.lanes.get n

/-- Replace a lane. -/
def State.putLane (s : State) (n : Fin 4) (x : Lane) : State := { s with lanes := s.lanes.set n x }

/-! ### Handles -/

/-- R14: the entry a session handle refers to. -/
def State.sessionOf (s : State) (h : Handle) : Option Nat :=
  if h.idx < 8 ∧ (s.session h.idx).isOpen ∧ (s.session h.idx).gen = h.gen then some h.idx else none

/-- R21: the entry a job handle refers to. -/
def State.jobOf (s : State) (h : Handle) : Option Nat :=
  if h.idx < 32 ∧ (s.job h.idx).state ≠ .free ∧ (s.job h.idx).gen = h.gen then some h.idx else none

/-- R102: whether a slot handle refers to a slot. -/
def State.slotOf (s : State) (h : SlotHandle) : Option Nat :=
  if h.idx < 32 ∧ (s.slot h.idx).state ≠ .free ∧ (s.slot h.idx).gen = h.gen then some h.idx else none

/-- The handle of a job entry as it stands. -/
def State.jobHandle (s : State) (i : Nat) : Handle := { idx := i, gen := (s.job i).gen }

/-! ### Checks in order -/

/-- A refusal: its code and what W14 holds. -/
structure Refused where
  code : ReturnCode
  w14 : Nat
deriving DecidableEq, Repr

/-- One check: refuses when `b` holds. -/
def refuseIf (b : Bool) (code : ReturnCode) (w14 : Nat := 0) : Option Refused :=
  if b then some { code, w14 } else none

/-- "The first that fails closes the ticket with its code." -/
def firstRefusal (checks : List (Option Refused)) : Option Refused := checks.findSome? id

/-! ### Activity (R17, R40) -/

/-- R17: set a session's last activity, if the handle still refers to it. -/
def State.touchSession (s : State) (h : Handle) : State :=
  match s.sessionOf h with
  | none => s
  | some i => s.putSession i { s.session i with last := s.dev.clock }

/-- R17: activity of an optional session handle. -/
def State.touchOptSession (s : State) (h : Option Handle) : State :=
  match h with
  | none => s
  | some h => s.touchSession h

/-- R17: activity for the session of the job a handle refers to. -/
def State.touchJob (s : State) (h : Handle) : State :=
  match s.jobOf h with
  | none => s
  | some i => s.touchOptSession (s.job i).session

/-- R40: activity for the engine hold, when the job owns it. -/
def State.touchHold (s : State) (h : Handle) : State :=
  match s.hold with
  | none => s
  | some e => if e.owner = h then { s with hold := some { e with last := s.dev.clock } } else s

/-! ### Closing a ticket -/

/-- R161: write one of a ticket's words; a failed write captures MEMORY_WRITE with the lane and the address. -/
def State.writeTicketWord (s : State) (lane : Fin 4) (address : Nat) (w : Word) : State :=
  match s.writeWord address w with
  | (s', none) => s'
  | (s', some e) => s'.captureMemory .memoryWrite lane.val e

/-- R161 steps 3 and 4: write W13, W14, then the closing word DONE. -/
def State.closeWords (s : State) (lane : Fin 4) (address : Nat) (code : ReturnCode) (w13 w14 : Nat) (ended truncated : Bool) :
    State :=
  let s := s.writeTicketWord lane (address + 52) (BitVec.ofNat 32 w13)
  let s := s.writeTicketWord lane (address + 56) (BitVec.ofNat 32 w14)
  s.writeTicketWord lane (address + 60) (closingWord 3 code.code s.epoch ended truncated)

/-- The ticket in service on a lane leaves service. -/
def State.leaveService (s : State) (lane : Fin 4) : State := s.putLane lane { s.lane lane with service := none }

/-- R161: the words of the ticket in service are written, CLOSED of the lane is set and the ticket leaves service. -/
def State.close (s : State) (lane : Fin 4) (code : ReturnCode) (w13 w14 : Nat) (ended truncated : Bool := false) : State :=
  match (s.lane lane).service with
  | none => s
  | some t => ((s.closeWords lane t.address code w13 w14 ended truncated).raise (.closed lane)).leaveService lane

/-- Close a refused ticket. -/
def State.refuse (s : State) (lane : Fin 4) (r : Refused) (w13 : Nat := 0) : State :=
  s.close lane r.code w13 r.w14

/-- The unserved ticket of a kind on its lane: fetched, marked ACTIVE, service not begun. -/
def State.serving (s : State) (kind : TicketKind) : Option Ticket :=
  if s.up then
    match (s.lane kind.lane).service with
    | none => none
    | some t => if t.begun = false ∧ t.kind = some kind then some t else none
  else none

/-- Mark the ticket in service on a lane as begun. -/
def State.beginService (s : State) (lane : Fin 4) : State :=
  match (s.lane lane).service with
  | none => s
  | some t => s.putLane lane { s.lane lane with service := some { t with begun := true } }

/-- R160, R172: service of a ticket. Where no such ticket is to be served nothing happens (log 11); the operating state is
looked at first; then the kind's own rules. `gateW13` is W13 of a refusal by the state. -/
def serve (kind : TicketKind) (gateW13 : Nat) (body : Ticket → State → State) (s : State) : State :=
  match s.serving kind with
  | none => s
  | some t =>
    let s := s.beginService kind.lane
    match stateGate s.dev.op kind with
    | some code => s.close kind.lane code gateW13 0
    | none => body t s

/-! ### Result areas -/

/-- R163: write entries from the start of the area; a failed write captures MEMORY_WRITE with the lane and stops. The
answer is the state, the entries written whole, and whether a write failed. -/
def State.writeEntries (s : State) (lane : Fin 4) (address : Nat) : List (List Word) → State × Nat × Bool
  | [] => (s, 0, false)
  | e :: rest =>
    match s.writeWords address e with
    | (s', some bad) => (s'.captureMemory .memoryWrite lane.val bad, 0, true)
    | (s', none) =>
      match State.writeEntries s' lane (address + 4 * e.length) rest with
      | (s'', n, failed) => (s'', n + 1, failed)

end Sys2Proof.Machine
end

