-- ==== Sys2Proof/Machine/Accounts.lean ====
section
/-! DEFINITION. Account records as tickets, admissions and settlements see them (spec 01 R1 to R4, R11, R24). -/

namespace Sys2Proof.Machine

/-- R3: account 0's record after its check value failed: used and every counter 0, the rest as it stands (log 13). -/
def AccountRecord.zeroed (r : AccountRecord) : AccountRecord :=
  { r with used := 0, mono := 0, colour := 0, spoiled := 0, scanned := 0 }

/-- R2, R3: the read of a record. A failing record of account 1..511 becomes DAMAGED, captured once per start; account 0's
is written afresh. -/
def State.readAccount (s : State) (n : Nat) : State :=
  if (s.record n).checkOk then s
  else if n = 0 then
    let s := s.writeRecord 0 (s.record 0).zeroed
    if s.zeroCaptured then s
    else { s.capture .storeRecord none none 0 with zeroCaptured := true }
  else if (s.acct n).damaged then s
  else (s.putAcct n { s.acct n with damaged := true }).capture .storeRecord none none n

/-- The state checks see (Figure 6). -/
inductive SeenState where
  | vacant | active | suspended | locked | damaged
deriving DecidableEq, Repr

/-- Figure 53. -/
def SeenState.code : SeenState → Nat
  | .vacant => 0 | .active => 1 | .suspended => 2 | .locked => 3 | .damaged => 4

/-- R2, R3, R4: account 0 is ACTIVE; a marked account is DAMAGED whatever its stored fields hold. -/
def State.seen (s : State) (n : Nat) : SeenState :=
  if n = 0 then .active
  else if (s.acct n).damaged then .damaged
  else
    match (s.record n).state with
    | .vacant => .vacant
    | .active => .active
    | .suspended => .suspended
    | .locked => .locked

/-- R3: account 0 has MAY_COLOUR. -/
def State.mayColour (s : State) (n : Nat) : Bool := n = 0 || (s.record n).mayColour

/-- R3: account 0 has MAY_SCAN. -/
def State.mayScan (s : State) (n : Nat) : Bool := n = 0 || (s.record n).mayScan

/-- R3: account 0 has NEEDS_SESSION. -/
def State.needsSession (s : State) (n : Nat) : Bool := n = 0 || (s.record n).needsSession

/-- R3: account 0 is UNLIMITED. -/
def State.unlimited (s : State) (n : Nat) : Bool := n = 0 || (s.record n).unlimited

/-- R24: available units, quota minus used minus reserved; none when unbounded. -/
def State.available (s : State) (n : Nat) : Option Nat :=
  if s.unlimited n then none else some ((s.record n).quota - (s.record n).used - (s.acct n).reserved)

/-- R24: the smaller of r and the available units. -/
def grantOf (r : Nat) : Option Nat → Nat
  | none => r
  | some a => min r a

/-- R13: seconds left to an account's lockout end, 0 when absent. Of a LOCKED account they are at least 1, also at a ticket taken
when the end is due and its expiry is not taken yet (log 31). -/
def State.lockoutLeft (s : State) (n : Nat) : Nat :=
  match (s.acct n).lockoutEnd with
  | none => 0
  | some e => if s.seen n = .locked then max 1 (e - s.dev.clock) else e - s.dev.clock

/-- Figure 6: the check on an account's state, `left` being what W14 holds when it is LOCKED. -/
def State.accountCheck (s : State) (n left : Nat) : Option Refused :=
  firstRefusal
    [ refuseIf (s.seen n = .damaged) .accountDamaged,
      refuseIf (s.seen n = .locked) .accountLocked left,
      refuseIf (s.seen n = .suspended) .accountSuspended ]

/-- The check of admissions and grants: the seconds left in W14 (R23, R32, R62, R86, R104, R109; of R98 see log 21). -/
def State.accountRefusal (s : State) (n : Nat) : Option Refused := s.accountCheck n (s.lockoutLeft n)

/-- R11: whether a presented credential matches; account 0 has none (R3). -/
def State.credentialMatches (s : State) (n : Nat) (presented : List Byte) : Bool :=
  match (if n = 0 then none else (s.record n).credential) with
  | none => presented.isEmpty
  | some d => !presented.isEmpty && Config.keyedDigest.digest presented == d

/-- Saturating addition for 32-bit counters and amounts (Figure 5, Figure 8). -/
def sat32 (a b : Nat) : Nat := min (a + b) (2 ^ 32 - 1)

/-- Saturating addition for 64-bit totals (Figure 5, R180). -/
def sat64 (a b : Nat) : Nat := min (a + b) (2 ^ 64 - 1)

/-- R25: add to an account's reserved. -/
def State.addReserved (s : State) (n amount : Nat) : State :=
  s.putAcct n { s.acct n with reserved := (s.acct n).reserved + amount }

/-- R25: take from an account's reserved. -/
def State.subReserved (s : State) (n amount : Nat) : State :=
  s.putAcct n { s.acct n with reserved := (s.acct n).reserved - amount }

/-- R30: what a settlement adds to a stored record. -/
structure AccountCharge where
  charge : Nat
  mono : Nat := 0
  colour : Nat := 0
  spoiled : Nat := 0
  scanned : Nat := 0
  toner : Nat := 0
deriving DecidableEq, Repr

/-- R30: the record after a settlement. -/
def AccountRecord.charge (r : AccountRecord) (c : AccountCharge) : AccountRecord :=
  { r with
    used := sat32 r.used c.charge
    mono := sat32 r.mono c.mono
    colour := sat32 r.colour c.colour
    spoiled := sat32 r.spoiled c.spoiled
    scanned := sat32 r.scanned c.scanned
    toner := sat64 r.toner c.toner }

/-- R2, R30: the stored part of a settlement; a DAMAGED account's record is not written. -/
def State.chargeAccount (s : State) (n : Nat) (c : AccountCharge) : State :=
  let s := s.readAccount n
  if s.seen n = .damaged then s else s.writeRecord n ((s.record n).charge c)

end Sys2Proof.Machine
end

