-- ==== Sys2Proof/Machine/Cipher.lean ====
section
/-! DEFINITION. The cipher core's scheduling (spec 05 R84, 11 R174), key requests (06 R105) and the raw destruction of a key
slot (06 R111), without what it does to work in flight. -/

namespace Sys2Proof.Machine

/-! ### Keys -/

/-- The bit of a use in a slot's set of uses (section 12.2). -/
inductive KeyUse where
  | scan | encipher | decipher | print
deriving DecidableEq, Repr

/-- Section 12.2: SCAN 0, ENCIPHER 1, DECIPHER 2, PRINT 3. -/
def KeyUse.bit : KeyUse → Nat
  | .scan => 0 | .encipher => 1 | .decipher => 2 | .print => 3

/-- The slot's set of uses holds a use. -/
def KeySlot.holds (k : KeySlot) (u : KeyUse) : Bool := k.uses.getLsbD u.bit

/-- R105: a key request is granted when the handle refers to a slot that is LIVE, its attached job is the asking job, and
its uses hold the use asked for. -/
def State.keyGranted (s : State) (h : SlotHandle) (job : Handle) (u : KeyUse) : Bool :=
  match s.slotOf h with
  | none => false
  | some i => (s.slot i).state = .live && (s.slot i).job = some job && (s.slot i).holds u

/-- The key of a slot; an erased key is never used for a band, since no request for it is granted. -/
def State.slotKey (s : State) (h : SlotHandle) : BitVec 256 := ((s.slot h.idx).key).getD 0

/-- R83: the nonce of a band. -/
def nonceOf (h : SlotHandle) (page band : Nat) : Config.Nonce :=
  { generation := BitVec.ofNat 16 h.gen, page := BitVec.ofNat 16 page, band := BitVec.ofNat 16 band }

/-- The 16 bytes of a tag, byte 0 first. -/
def tagBytes (t : BitVec 128) : List Byte := (List.range 16).map (fun i => (t >>> (8 * i)).setWidth 8)

/-- R83: an enciphered band as it stands in memory, ciphertext then tag. -/
def encipherBand (key : BitVec 256) (nonce : Config.Nonce) (plain : List Byte) : List Byte :=
  Config.cipherCore.cipher key nonce plain ++ tagBytes (Config.cipherCore.tag key nonce plain)

/-- R83: decipher ciphertext with tag; none on a mismatch over all 16 tag bytes. -/
def decipherBand (key : BitVec 256) (nonce : Config.Nonce) (band : List Byte) : Option (List Byte) :=
  let n := band.length - 16
  let plain := Config.cipherCore.plain key nonce (band.take n)
  if tagBytes (Config.cipherCore.tag key nonce plain) = band.drop n then some plain else none

/-! ### The core -/

/-- R84, R174: the core can take a band: it holds none, no known-answer test runs, and no test is due. -/
def Core.canTake (c : Core) : Bool :=
  c.band.isNone && !c.periodicTest && !c.resumeTest && c.count < Config.cipherTestBands

/-- R84: whose band the free core takes next: of the path it did not serve last when both wait. -/
def Core.nextPath (c : Core) : Option CipherPath :=
  match c.printQueue, c.scanWaiting with
  | [], none => none
  | _ :: _, none => some .print
  | [], some _ => some .scan
  | _ :: _, some _ => some (match c.lastServed with | .print => .scan | .scan => .print)

/-- The slot handle a print band names. -/
def State.bandSlot (s : State) (i : Nat) : SlotHandle :=
  match s.print.table[i]? with
  | none => ⟨0, 0⟩
  | some e => e.slot

/-- The slot handle of the lane 1 ticket in service. -/
def State.scanSlot (s : State) : SlotHandle :=
  match s.scan.args with
  | none => ⟨0, 0⟩
  | some a => a.slot

/-- The other internal buffer, when its band is complete and not yet presented: the scan path has at most one band waiting (R84),
so it presents this one once buffer i has been taken. -/
def State.nextScanBand (s : State) (i : Nat) : Option Nat :=
  lowest (putAt s.scan.internal i .erased) (fun b => b.cond = .ciphering)

/-- R84: the core takes its next band, if it can and one waits. It is taken as the core becomes free: after everything else a
command does, so that a band its work discards in the same command is never taken. -/
def State.pumpCore (s : State) : State :=
  if s.core.canTake then
    match s.core.nextPath with
    | none => s
    | some .print =>
      match s.core.printQueue with
      | [] => s
      | i :: rest =>
        { s with core := { s.core with
            band := some { path := .print, idx := i, slot := s.bandSlot i, orphan := false }
            printQueue := rest, lastServed := .print } }
    | some .scan =>
      match s.core.scanWaiting with
      | none => s
      | some i =>
        { s with core := { s.core with
            band := some { path := .scan, idx := i, slot := s.scanSlot, orphan := false }
            scanWaiting := s.nextScanBand i, lastServed := .scan } }
  else s

/-- R84: the print path presents a band whose read has completed. -/
def State.presentPrint (s : State) (i : Nat) : State :=
  { s with core := { s.core with printQueue := s.core.printQueue ++ [i] } }

/-- R84: the scan path presents a band, unless one of its bands waits already. -/
def State.presentScan (s : State) (i : Nat) : State :=
  { s with core := { s.core with scanWaiting := s.core.scanWaiting.or (some i) } }

/-- The band in the core belongs to work of a path that has ended: its output will be discarded (R77, R93). -/
def Core.orphaned (c : Core) (p : CipherPath) : Option CoreBand :=
  match c.band with
  | none => none
  | some b => if b.path = p then some { b with orphan := true } else some b

/-- The waiting bands of a path's ended work leave the queue; the one in the core is discarded when it ends. -/
def State.dropCore (s : State) (p : CipherPath) : State :=
  match p with
  | .print => { s with core := { s.core with printQueue := [], band := s.core.orphaned .print } }
  | .scan => { s with core := { s.core with scanWaiting := none, band := s.core.orphaned .scan } }

/-- R84, R111: a band in the core under a destroyed slot is stopped; it is not counted (R174). -/
def State.stopCore (s : State) (h : SlotHandle) : State :=
  match s.core.band with
  | none => s
  | some b => if b.slot = h then { s with core := { s.core with band := none } } else s

/-! ### Raw destruction of a slot -/

/-- R111: take a handle out of its job's attached list; the others keep their order. -/
def State.detachSlot (s : State) (job : Option Handle) (h : SlotHandle) : State :=
  match job with
  | none => s
  | some j => s.putJob j.idx { s.job j.idx with slots := (s.job j.idx).slots.filter (· ≠ h) }

/-- R111: the key is erased, the generation advances, the slot is FREE with nothing in it, its handle leaves its job's list,
and a band in the core under its key is stopped (R84). -/
def State.wipeSlot (s : State) (i : Nat) : State :=
  let k := s.slot i
  let h : SlotHandle := { idx := i, gen := k.gen }
  ((s.putSlot i (.free ((k.gen + 1) % 65536))).detachSlot k.job h).stopCore h

end Sys2Proof.Machine
end

