-- ==== Sys2Proof/Machine/ScanBuffers.lean ====
section
/-! DEFINITION. The scan path's internal band buffers and the end of an Encipher Bands or Decipher Bands ticket
(spec 05 R90, R97, R99). -/

namespace Sys2Proof.Machine

/-- An internal buffer. -/
def State.buffer (s : State) (i : Nat) : Buffer := entryAt s.scan.internal i .erased

/-- Replace an internal buffer. -/
def State.putBuffer (s : State) (i : Nat) (b : Buffer) : State :=
  { s with scan := { s.scan with internal := putAt s.scan.internal i b } }

/-- The lowest internal buffer in a condition. -/
def State.bufferIn (s : State) (c : BufferCond) : Option Nat := lowest s.scan.internal (fun b => b.cond = c)

/-- A buffer that is WRITING, in either of its writes. -/
def Buffer.isWriting (b : Buffer) : Bool := b.cond = .writingData || b.cond = .writingRecord

/-- A buffer that is CIPHERING, in either part. -/
def Buffer.isCiphering (b : Buffer) : Bool := b.cond = .ciphering || b.cond = .ciphered

/-- The buffer that is WRITING, if any. -/
def State.writingBuffer (s : State) : Option Nat := lowest s.scan.internal Buffer.isWriting

/-- Some buffer is CIPHERING. -/
def State.anyCiphering (s : State) : Bool := s.scan.internal.toList.any Buffer.isCiphering

/-- R93, R97: bands not WRITING are erased. -/
def State.eraseUnwritten (s : State) : State :=
  { s with scan := { s.scan with internal := s.scan.internal.map (fun b => if b.isWriting then b else .erased) } }

/-- R92, R93, R97, R99: the scan path discards what it holds for the ticket and enters IDLE; the drain mark stays. -/
def State.scanIdle (s : State) : State :=
  { s with scan := { ScanPath.reset with drain := s.scan.drain } }.dropCore CipherPath.scan

/-- R97, R99: a cipher ticket closes. Encipher Bands: W13 the page number, W14 the bands completed. Decipher Bands: W13 the
bands written whole, and on a failure W14 the position of the first band not written whole. -/
def State.closeCipher (s : State) (code : ReturnCode) : State :=
  match s.scan.work with
  | .page => s
  | .encipher => (s.close 1 code s.scan.page s.scan.written).scanIdle
  | .decipher => (s.close 1 code s.scan.written (if code = .ok then 0 else s.scan.written)).scanIdle

/-- R97, R99: the first failure of a cipher ticket: bands not yet written are erased, a band already WRITING completes, and
the ticket closes once none is. -/
def State.failCipher (s : State) (code : ReturnCode) : State :=
  if s.scan.state = .ciphering ∧ s.scan.failed = none then
    let s := ({ s with scan := { s.scan with failed := some code } }.eraseUnwritten).dropCore CipherPath.scan
    if s.writingBuffer.isNone then s.closeCipher code else s
  else s

/-- R97, R99, R108: the slot of a cipher ticket has left its job. A band in the core or waiting for it is stopped and the
ticket ends BAD_SLOT; otherwise the change is found at the next key request. -/
def State.cipherSlotLost (s : State) (h : SlotHandle) : State :=
  if s.scan.state = .ciphering ∧ s.scan.failed = none ∧ s.scanSlot = h ∧
      s.scan.internal.toList.any (fun b => b.cond = .ciphering) then
    let s :=
      match s.core.band with
      | none => s
      | some b => if b.path = CipherPath.scan ∧ b.orphan = false then { s with core := { s.core with band := none } } else s
    s.failCipher .badSlot
  else s

/-- R90, R97: with no buffer WRITING, the enciphered (or matched) band of lowest index goes to WRITING. At most one buffer
is CIPHERED at a time, since bands pass the core in band index order. -/
def State.startWrite (s : State) : State :=
  if s.writingBuffer.isSome then s
  else
    match s.bufferIn .ciphered with
    | none => s
    | some i => s.putBuffer i { s.buffer i with cond := .writingData }

/-- R97, R99: a source read begins in a FREE buffer when no other read is under way and bands remain. -/
def State.startSourceRead (s : State) : State :=
  if (s.bufferIn .filling).isSome ∨ s.scan.begun ≥ s.scan.sources.length then s
  else
    match s.bufferIn .free with
    | none => s
    | some i =>
      let s := s.putBuffer i { cond := .filling, band := s.scan.begun, lines := 0, data := [] }
      { s with scan := { s.scan with begun := s.scan.begun + 1 } }

end Sys2Proof.Machine
end

