-- ==== Sys2Proof/Machine/Jobs.lean ====
section
/-! DEFINITION. Page holds, settlement, the end of a job and of a session, and what a job's end does to its key slots
(spec 02 R26 to R40, 01 R18, 06 R108). -/

namespace Sys2Proof.Machine

/-! ### Page holds -/

/-- A job with a hold taken on a path and its in-flight flag set (R26). -/
def Job.withHold (j : Job) (p : CipherPath) (h : Nat) : Job :=
  match p with
  | .print => { j with printHold := h, printFlight := true }
  | .scan => { j with scanHold := h, scanFlight := true }

/-- The hold of a path. -/
def Job.holdOf (j : Job) : CipherPath → Nat
  | .print => j.printHold
  | .scan => j.scanHold

/-- R26: take a hold of h for a path from the job's free reservation, topped up from the account's available units; none
when the available units are below the need (R27). -/
def State.requestHold (s : State) (i : Nat) (p : CipherPath) (h : Nat) : Option State :=
  let j := s.job i
  if h ≤ j.free then some (s.putJob i ({ j with free := j.free - h }.withHold p h))
  else
    let need := h - j.free
    let taken := (s.addReserved j.account need).putJob i ({ j with free := 0 }.withHold p h)
    match s.available j.account with
    | none => some taken
    | some a => if need ≤ a then some taken else none

/-- R27: a refused hold makes an OPEN job QUOTA_STOPPED. -/
def State.quotaStop (s : State) (i : Nat) : State :=
  if (s.job i).state = .opened then s.putJob i { s.job i with state := .quotaStopped } else s

/-- R26: the admission is activity for the job's session and for the engine hold its job owns. -/
def State.admitted (s : State) (h : Handle) : State := (s.touchJob h).touchHold h

/-! ### Settlement -/

/-- R29: the job after a settlement of a path with charge c. -/
def Job.settled (j : Job) (p : CipherPath) (c : Nat) (delivered : Bool) : Job :=
  let j := { j with free := j.free + (j.holdOf p - c), total := sat32 j.total c,
                    charged := if delivered then sat32 j.charged 1 else j.charged }
  match p with
  | .print => { j with printHold := 0, printFlight := false }
  | .scan => { j with scanHold := 0, scanFlight := false }

/-- R33 step 2: the free reservation returns to the account. -/
def State.releaseFree (s : State) (i : Nat) : State :=
  let j := s.job i
  (s.subReserved j.account j.free).putJob i { j with free := 0 }

/-- R29, R30: the account unit settles a page: reserved and the job, then the stored record, then activity. A job that is
ENDING hands its free reservation back at once (R35). -/
def State.settleHold (s : State) (h : Handle) (p : CipherPath) (delivered : Bool) (c : AccountCharge) : State :=
  match s.jobOf h with
  | none => s
  | some i =>
    let n := (s.job i).account
    let s := (s.subReserved n c.charge).putJob i ((s.job i).settled p c.charge delivered)
    let s := s.chargeAccount n c
    let s := (s.touchJob h).touchHold h
    if (s.job i).state = .ending then s.releaseFree i else s

/-! ### The end of a job -/

/-- R108: one attached slot at its job's end: HELD when its keep-minutes are above 0, else destroyed; either is found by a
cipher ticket in flight under it. -/
def State.jobEndSlot (s : State) (h : SlotHandle) : State :=
  let k := s.slot h.idx
  if k.keep = 0 then (s.wipeSlot h.idx).cipherSlotLost h
  else
    (s.putSlot h.idx { k with state := .held, job := none, expiry := some (s.dev.clock + k.keep * 60) }).cipherSlotLost h

/-- R108: the attached slots in the order of the list, which is then empty. -/
def State.jobEndSlots (s : State) (i : Nat) : State :=
  let s := (s.job i).slots.foldl State.jobEndSlot s
  s.putJob i { s.job i with slots := [] }

/-- R33 step 1, R34: a Print Impression waiting in admission for the job is closed JOB_ENDED. -/
def State.closeWaitingPrint (s : State) (h : Handle) : State :=
  match s.print.state, s.print.args with
  | .waiting, some a =>
    if a.job = h then
      let s := s.close 2 .jobEnded 0 0
      { s with print := { s.print with state := .idle, wait := none, args := none, table := [], capture := none } }
    else s
  | _, _ => s

/-- R33 step 1, R34: a Scan Page waiting in admission for the job is closed JOB_ENDED, W13 = 65535 (R87). -/
def State.closeWaitingScan (s : State) (h : Handle) : State :=
  match s.scan.state, s.scan.args with
  | .waiting, some a => if a.job = h then (s.close 1 .jobEnded 65535 0).scanIdle else s
  | _, _ => s

/-- R33 step 3, R34: the engine hold is released if the job owns it. -/
def State.releaseHoldOf (s : State) (h : Handle) : State :=
  match s.hold with
  | none => s
  | some e => if e.owner = h then { s with hold := none } else s

/-- R33 step 5: the entry becomes FREE and its generation advances. -/
def State.freeJob (s : State) (i : Nat) : State := s.putJob i (.freed (((s.job i).gen + 1) % 256))

/-- R33 steps 2, 4 and 5, as R35 takes them. -/
def State.finishJob (s : State) (i : Nat) : State := ((s.releaseFree i).jobEndSlots i).freeJob i

/-- R35: a settlement that leaves an ENDING job with no page in flight completes its end; the answer says whether it did. -/
def State.completeEnd (s : State) (h : Handle) : State × Bool :=
  match s.jobOf h with
  | none => (s, false)
  | some i =>
    let j := s.job i
    if j.state = .ending ∧ j.printFlight = false ∧ j.scanFlight = false then (s.finishJob i, true) else (s, false)

/-- R33, R34: End Job on an entry that is neither FREE nor ENDING: it ends at once, or goes to ENDING when a page is in
flight. The answer says whether it ended. Where a Print Impression and a Scan Page both wait for the job the manual gives no order;
here the Print Impression is closed first (log 36). -/
def State.endJobEntry (s : State) (i : Nat) : State × Bool :=
  let h := s.jobHandle i
  let s := (s.closeWaitingPrint h).closeWaitingScan h
  if (s.job i).printFlight ∨ (s.job i).scanFlight then
    let s := (s.releaseFree i).releaseHoldOf h
    (s.putJob i { s.job i with state := .ending }, false)
  else
    let s := ((s.releaseFree i).releaseHoldOf h).jobEndSlots i
    (s.freeJob i, true)

/-! ### The end of a session -/

/-- R18: End Job for one entry opened with the session, with the counts of jobs ended and gone to ENDING (R16). -/
def State.endSessionJob (h : Handle) (acc : State × Nat × Nat) (i : Nat) : State × Nat × Nat :=
  let s := acc.1
  let j := s.job i
  if j.state ≠ .free ∧ j.state ≠ .ending ∧ j.session = some h then
    let r := s.endJobEntry i
    if r.2 then (r.1, acc.2.1 + 1, acc.2.2) else (r.1, acc.2.1, acc.2.2 + 1)
  else acc

/-- R18: end a session: its jobs in ascending order, then the entry FREE with its generation advanced (R14) and the account's
session handle absent. -/
def State.endSession (s : State) (e : Nat) : State × Nat × Nat :=
  let h : Handle := { idx := e, gen := (s.session e).gen }
  let n := (s.session e).account
  let r := (List.range 32).foldl (State.endSessionJob h) (s, 0, 0)
  let s := r.1.putSession e (.free ((h.gen + 1) % 256))
  (s.putAcct n { s.acct n with session := none }, r.2)

/-- R17: a session is in flight while one of its jobs has a page between admission and settlement. -/
def State.sessionInFlight (s : State) (e : Nat) : Bool :=
  s.jobs.toList.any (fun j =>
    j.state ≠ .free && j.session = some { idx := e, gen := (s.session e).gen } && (j.printFlight || j.scanFlight))

/-- R40: the engine hold is in flight while its owner has a page in flight. -/
def State.holdInFlight (s : State) (e : EngineHold) : Bool :=
  match s.jobOf e.owner with
  | none => false
  | some i => (s.job i).printFlight || (s.job i).scanFlight

/-! ### Checks on a job -/

/-- Figure 9 for admissions, Take Hold, Open Slot and Attach Slot: NO_JOB, JOB_ENDED, QUOTA_STOPPED. -/
def State.jobRefusal (s : State) (h : Handle) (stoppedRefused : Bool) : Option Refused :=
  match s.jobOf h with
  | none => some { code := .noJob, w14 := 0 }
  | some i =>
    match (s.job i).state with
    | .ending => some { code := .jobEnded, w14 := 0 }
    | .quotaStopped => if stoppedRefused then some { code := .quotaStopped, w14 := 0 } else none
    | .opened => none
    | .free => none

end Sys2Proof.Machine
end

