-- ==== Sys2Proof/Machine/Metering.lean ====
section
/-! DEFINITION. Page metering arithmetic (spec 03): levels, weights, toner, coverage, billing class, tier, charge, hold,
and the clamping of the RATES and CURVES sections. -/

namespace Sys2Proof.Machine

/-- The rate of a size class. -/
def SizeRates.of (r : SizeRates) : SizeClass → Nat
  | .a => r.a
  | .b => r.b
  | .c => r.c

/-- R47: the level of a stored value of b bits. -/
def levelOf (b v : Nat) : Nat := v * 255 / (2 ^ b - 1)

/-- A point of a tone curve. -/
def Curve.point (t : Curve) (i : Nat) : Nat := entryAt t i 0

/-- R48: the weight of a level. -/
def weight (t : Curve) (level : Nat) : Nat :=
  let i := level / 16
  let f := level % 16
  (t.point i * (16 - f) + t.point (i + 1) * f + 8) / 16

/-- R60: line bytes of a print page, ceil(pixels × b / 8). -/
def printLineBytes (pixels b : Nat) : Nat := (pixels * b + 7) / 8

/-- R184: pixel j of a line, b bits a pixel, the first in the most significant bits of byte 0. -/
def pixelAt (line : List Byte) (b j : Nat) : Nat :=
  ((line.getD (j * b / 8) 0).toNat >>> (8 - b - j * b % 8)) % 2 ^ b

/-- R48, R49: the weight of every pixel of a line, pixels per line of them. -/
def lineWeight (t : Curve) (b pixels : Nat) (line : List Byte) : Nat :=
  ((List.range pixels).map (fun j => weight t (levelOf b (pixelAt line b j)))).sum

/-- R50: toner in µg. -/
def tonerOf (sum deposit : Nat) : Nat := (sum * deposit + 2 ^ 31) / 2 ^ 32

/-- R51: coverage in basis points over the lines sent. -/
def coverageOf (sum pixels lines : Nat) : Nat :=
  if pixels * lines = 0 then 0 else sum * 10000 / (pixels * lines * 4095)

/-- R53: the tier of a billing coverage. -/
def TierTable.tier (t : TierTable) (coverage : Nat) : Nat :=
  if coverage ≤ t.bound0 then 0 else if coverage ≤ t.bound1 then 1 else if coverage ≤ t.bound2 then 2 else 3

/-- The multiplier of a tier. -/
def TierTable.mult (t : TierTable) (tier : Nat) : Nat :=
  match tier with
  | 0 => t.mult0
  | 1 => t.mult1
  | 2 => t.mult2
  | _ => t.mult3

/-- R55: the largest multiplier of a class. -/
def TierTable.maxMult (t : TierTable) : Nat := max (max t.mult0 t.mult1) (max t.mult2 t.mult3)

/-- R54, R55: rate times multiplier in 1/256, rounded half up, clamped to 65535. -/
def chargeOf (rate mult : Nat) : Nat := min 65535 ((rate * mult + 128) / 256)

/-- R46: the capture for an impression of a size class. -/
def PrintCapture.ofSettings (set : Settings) (size : SizeClass) : PrintCapture :=
  { curves := set.curves, rateMono := set.rates.mono.of size, rateColour := set.rates.colour.of size,
    tierMono := set.rates.tierMono, tierColour := set.rates.tierColour }

/-- R55: the hold of an impression. -/
def PrintCapture.hold (c : PrintCapture) (colour : Bool) : Nat :=
  let hMono := chargeOf c.rateMono c.tierMono.maxMult
  let hColour := chargeOf c.rateColour c.tierColour.maxMult
  if colour then max hMono hColour else hMono

/-- The sum over the planes. -/
def PerPlane.total (v : PerPlane Nat) : Nat := v.c + v.m + v.y + v.k

/-- R56: what metering hands on. -/
structure Metered where
  toner : PerPlane Nat
  coverage : PerPlane Nat
  /-- billed COLOUR (R52) -/
  colour : Bool
  tier : Nat
  charge : Nat
deriving DecidableEq, Repr

/-- R52: billed COLOUR. -/
def billedColour (declared : Bool) (floor : Nat) (cov : PerPlane Nat) : Bool :=
  declared && (decide (floor < cov.c) || decide (floor < cov.m) || decide (floor < cov.y))

/-- R50 to R54: metering of an impression from its sums, line counts and capture; charged only when delivered. -/
def meter (c : PrintCapture) (declared : Bool) (pixels : Nat) (sums counts : PerPlane Nat) (delivered : Bool) : Metered :=
  let toner := PerPlane.of (fun p => tonerOf (sums.get p) (c.curves.deposit.get p))
  let cov := PerPlane.of (fun p => coverageOf (sums.get p) pixels (counts.get p))
  let colour := billedColour declared c.curves.floor cov
  let table := if colour then c.tierColour else c.tierMono
  let tier := table.tier (if colour then cov.total else cov.k)
  let charge := if delivered then chargeOf (if colour then c.rateColour else c.rateMono) (table.mult tier) else 0
  { toner, coverage := cov, colour, tier, charge }

/-! ### Clamping (R44, R45) -/

/-- Bring a value to the nearest end of lo..hi. -/
def clamp (lo hi v : Nat) : Nat := max lo (min hi v)

/-- R44: bounds clamped in order of tier, multipliers to 0..1023. -/
def TierTable.clamped (t : TierTable) : TierTable :=
  let b0 := clamp 0 39998 t.bound0
  let b1 := clamp (b0 + 1) 39999 t.bound1
  let b2 := clamp (b1 + 1) 40000 t.bound2
  { bound0 := b0, bound1 := b1, bound2 := b2, mult0 := min 1023 t.mult0, mult1 := min 1023 t.mult1,
    mult2 := min 1023 t.mult2, mult3 := min 1023 t.mult3 }

/-- R44: rates clamped to 0..65535. -/
def SizeRates.clamped (r : SizeRates) : SizeRates := ⟨min 65535 r.a, min 65535 r.b, min 65535 r.c⟩

/-- R44. -/
def Rates.clamped (r : Rates) : Rates :=
  { mono := r.mono.clamped, colour := r.colour.clamped, scan := r.scan.clamped, tierMono := r.tierMono.clamped,
    tierColour := r.tierColour.clamped }

/-- R45: points clamped to 0..4095. -/
def Curve.clamped (t : Curve) : Curve := t.map (min 4095)

/-- R45. -/
def Curves.clamped (c : Curves) : Curves :=
  { curve := PerPlane.of (fun p => (c.curve.get p).clamped),
    deposit := PerPlane.of (fun p => min 65535 (c.deposit.get p)),
    floor := min 10000 c.floor }

end Sys2Proof.Machine
end

