-- ==== Sys2Proof/Machine/Supplies.lean ====
section
/-! DEFINITION. Cartridge records, the known-cartridge list, requests to the link procedure queue, deduction and door edges
(spec 07 R116 to R129, 08 R141, R143, 09 R153). -/

namespace Sys2Proof.Machine

/-! ### Lines and doors -/

/-- R147: the abnormal lines; an unwatched line is normal. -/
def abnormalLines (set : SenseSettings) (levels : BitVec 8) : BitVec 8 := set.watch &&& (levels ^^^ set.normalHigh)

/-- R147: whether line n is abnormal. -/
def State.lineAbnormal (s : State) (n : Nat) : Bool := (abnormalLines s.stored.settings.sense s.levels).getLsbD n

/-- R117: the door line of a supply slot, S1 for slots 1 to 4 and S0 for slot 5. -/
def doorLine (slot : Nat) : Nat := if slot = 5 then 0 else 1

/-- The five supply slots in ascending order. -/
def supplySlots : List Nat := [1, 2, 3, 4, 5]

/-- R153: the slots a door line covers. -/
def doorSlots (line : Nat) : List Nat := if line = 0 then [5] else if line = 1 then [1, 2, 3, 4] else []

/-- A mask with bit 0 for slot 1 (section 12.2 note 2). -/
def slotBit (slot : Nat) : BitVec 5 := BitVec.twoPow 5 (slot - 1)

/-! ### Records -/

/-- R116: VERIFIED or PERMITTED. -/
def Cartridge.trusted (c : Cartridge) : Bool := c.auth = .verified || c.auth = .permitted

/-- R125: the level of remaining in capacity. -/
def levelOfValues (permille capacity remaining : Nat) : Level :=
  if remaining = 0 then .empty else if remaining ≤ capacity * permille / 1000 then .low else .normal

/-- R116: a change of auth state, reject reason or level. -/
def Cartridge.noticed (old new : Cartridge) : Bool :=
  decide (old.auth ≠ new.auth) || decide (old.reason ≠ new.reason) ||
    (match old.values, new.values with
     | some v, some w => decide (v.level ≠ w.level)
     | _, _ => false)

/-- Change a cartridge record, setting SUPPLY where R116 says so. -/
def State.changeCart (s : State) (slot : Nat) (new : Cartridge) : State :=
  let old := s.cart slot
  let s := s.putCart slot new
  if old.noticed new then s.raise .supply else s

/-! ### The known-cartridge list -/

/-- R121: the list's entry for an ID. -/
def State.knownEntry (s : State) (id : BitVec 64) : Option KnownCartridge := s.stored.known.find? (fun e => e.id = id)

/-- R122: put an entry at the front; an entry of its ID leaves its place, and beyond 8 the oldest is removed. -/
def frontEntry (e : KnownCartridge) (list : List KnownCartridge) : List KnownCartridge :=
  (e :: list.filter (fun x => x.id ≠ e.id)).take 8

/-- The list is stored with a new check value (section 7.4). -/
def State.writeKnown (s : State) (list : List KnownCartridge) : State :=
  s.store .knownList { s.stored with known := list, knownOk := true }

/-- R122: a list write for a slot's record; a record without an ID or without values takes none. -/
def State.listWrite (s : State) (slot : Nat) : State :=
  let c := s.cart slot
  match c.id, c.values with
  | some id, some v =>
    s.writeKnown (frontEntry { id, kind := c.kind.getD 0, remaining := v.remaining, useCount := v.useCount } s.stored.known)
  | _, _ => s

/-! ### Requests to the procedure queue -/

/-- A queue entry as a request makes it (R141). -/
def Procedure.queued (slot : Nat) (kind : ProcedureKind) (waiter : Bool) : Procedure :=
  { slot, kind, running := false, waiter, nonce := none, identity := none, phase := none, captured := none }

/-- R141: a request joins the tail, or merges with the entry of its slot and kind. -/
def requestIn (queue : List Procedure) (slot : Nat) (kind : ProcedureKind) (waiter : Bool) : List Procedure :=
  if queue.any (fun p => p.slot = slot && p.kind = kind) then
    queue.map (fun p => if p.slot = slot ∧ p.kind = kind then { p with waiter := p.waiter || waiter } else p)
  else queue ++ [.queued slot kind waiter]

/-- R141. -/
def State.request (s : State) (slot : Nat) (kind : ProcedureKind) (waiter : Bool) : State :=
  { s with link := { s.link with queue := requestIn s.link.queue slot kind waiter } }

/-- R117, R145: a CHECK is requested in RUNNING and WITHDRAWN, and not behind an abnormal door line. -/
def State.requestCheck (s : State) (slot : Nat) (waiter : Bool) : State :=
  if (s.dev.op = .running ∨ s.dev.op = .withdrawn) ∧ s.lineAbnormal (doorLine slot) = false then
    s.request slot .check waiter
  else s

/-- R126: a RECORD is wanted: nothing for a record that is not trusted; RECORD-owed while one runs; else requested. -/
def State.wantRecord (s : State) (slot : Nat) : State :=
  if (s.cart slot).trusted then
    if s.link.queue.any (fun p => p.slot = slot && p.kind = .record && p.running) then
      s.putCart slot { s.cart slot with recordOwed := true }
    else s.request slot .record false
  else s

/-! ### Deduction -/

/-- R124: the values after a deduction; `since` counts for trusted records (log 14). -/
def CartridgeValues.deducted (v : CartridgeValues) (permille amount since : Nat) : CartridgeValues :=
  { v with
    remaining := v.remaining - amount
    level := levelOfValues permille v.capacity (v.remaining - amount)
    useCount := sat32 v.useCount 1
    sinceWrite := min 255 (v.sinceWrite + since) }

/-- R124: the list entry after a deduction. -/
def KnownCartridge.deducted (e : KnownCartridge) (amount : Nat) : KnownCartridge :=
  { e with remaining := e.remaining - amount, useCount := sat32 e.useCount 1 }

/-- R124: deduction from a trusted record, with the RECORDs it wants (R126). -/
def State.deductTrusted (s : State) (slot amount : Nat) : State :=
  let set := s.stored.settings.supply
  match (s.cart slot).values with
  | none => s
  | some v =>
    let w := v.deducted set.lowPermille amount 1
    let s := s.changeCart slot { s.cart slot with values := some w }
    let s := if w.level ≠ v.level then s.wantRecord slot else s
    if set.writeBack ≤ w.sinceWrite then s.wantRecord slot else s

/-- R124: deduction from a record that is not trusted: from its values if present, and in place from the list's entry for
its ID if there is one. -/
def State.deductUntrusted (s : State) (slot amount : Nat) : State :=
  let c := s.cart slot
  let s :=
    match c.values with
    | none => s
    | some v => s.changeCart slot { c with values := some (v.deducted s.stored.settings.supply.lowPermille amount 0) }
  match c.id with
  | none => s
  | some id =>
    if (s.knownEntry id).isSome then
      s.writeKnown (s.stored.known.map (fun e => if e.id = id then e.deducted amount else e))
    else s

/-- R124: one slot an impression used. -/
def State.deductSlot (s : State) (slot amount : Nat) : State :=
  if (s.cart slot).trusted then s.deductTrusted slot amount else s.deductUntrusted slot amount

/-- R124: the slot of each plane of the plane set, and slot 5. The rule orders the list writes of one settlement no further; their order
here decides only what a loss of power between two of them leaves (log 32). -/
def State.deduct (s : State) (colour : Bool) (toner : PerPlane Nat) : State :=
  let s := if colour then ((s.deductSlot 1 toner.c).deductSlot 2 toner.m).deductSlot 3 toner.y else s
  (s.deductSlot 4 toner.k).deductSlot 5 1

/-! ### Result entries and the waiting Check Cartridge -/

/-- Figure 54: a record entry. -/
def State.cartEntry (s : State) (slot : Nat) : List Word :=
  let c := s.cart slot
  let v := c.values.getD { capacity := 0, remaining := 0, level := .normal, useCount := 0, sinceWrite := 0 }
  let id := c.id.getD 0
  [ BitVec.ofNat 32 (slot + c.auth.code * 2 ^ 8 + reasonCode c.reason * 2 ^ 16 + (c.kind.getD 0) % 256 * 2 ^ 24),
    BitVec.ofNat 32 (flagBit c.id.isSome + flagBit c.values.isSome * 2 + flagBit c.unproven * 4 +
      flagBit c.recordOwed * 8 + v.level.code * 2 ^ 8 + v.sinceWrite * 2 ^ 16),
    id.setWidth 32, (id >>> 32).setWidth 32,
    BitVec.ofNat 32 v.capacity, BitVec.ofNat 32 v.remaining, BitVec.ofNat 32 v.useCount ]

/-- Figure 54: a list entry. -/
def knownEntryWords (e : KnownCartridge) : List Word :=
  [ BitVec.ofNat 32 (e.kind % 256 * 2 ^ 24), 0, e.id.setWidth 32, (e.id >>> 32).setWidth 32, 0,
    BitVec.ofNat 32 e.remaining, BitVec.ofNat 32 e.useCount ]

/-- R130: when no named slot still has a CHECK on the ticket's behalf, Check Cartridge writes the five records and closes
LINK_FAIL, SUPPLY or OK. -/
def State.endCheckWait (s : State) : State :=
  match s.checkWait with
  | none => s
  | some w =>
    if s.link.queue.any (fun p => p.waiter) then s
    else
      let r := s.writeEntries 3 w.result ((supplySlots.take w.capacity).map s.cartEntry)
      let code := if w.failed ≠ 0 then ReturnCode.linkFail else if w.notChecked ≠ 0 then .supply else .ok
      { r.1.close 3 code w.failed.toNat w.notChecked.toNat false (decide (w.capacity < 5)) with checkWait := none }

/-- R130: a CHECK the ticket waits on has been removed: the slot is counted as not checked. -/
def State.countNotChecked (s : State) (slot : Nat) : State :=
  match s.checkWait with
  | none => s
  | some w => { s with checkWait := some { w with notChecked := w.notChecked ||| slotBit slot } }

/-! ### Door edges -/

/-- R143: the running procedure of a slot is removed: an attempt in REQUEST or RESPONSE runs to its end and is discarded;
between attempts nothing more is sent. -/
def Link.cutRunning (l : Link) : Link :=
  match l.state with
  | .request => { l with transaction := l.transaction.map (fun t => { t with discarded := true }) }
  | .response => { l with transaction := l.transaction.map (fun t => { t with discarded := true }) }
  | .settling => { l with state := .idle, transaction := none, frame := [] }
  | .idle => { l with transaction := none }
  | .stuck => { l with transaction := none }

/-- R143: remove a slot's procedures; a removed CHECK with the waiter mark is reported as not checked. -/
def State.removeProcedures (s : State) (slot : Nat) : State :=
  let mine := s.link.queue.filter (fun p => p.slot = slot)
  let s := if mine.any (fun p => p.waiter) then s.countNotChecked slot else s
  let link := { s.link with queue := s.link.queue.filter (fun p => p.slot ≠ slot) }
  { s with link := if mine.any (fun p => p.running) then link.cutRunning else link }

/-- R129, R143: the effect of an abnormal door edge on one slot it covers. -/
def State.doorOpened (s : State) (slot : Nat) : State :=
  let s := if (s.cart slot).trusted then s.listWrite slot else s
  let s := s.changeCart slot { s.cart slot with auth := .unchecked, reason := none, recordOwed := false }
  s.removeProcedures slot

/-- R129, R153: an abnormal edge of a line, for the slots it covers, then the end of a Check Cartridge's wait. The manual gives
no order for the list writes of one edge of S1; they are made in ascending order of slot, so slot 4's entry ends at the front
(log 32). Nor does it order the end of that wait and what the ENGINE departure of the same edge does to a Print Impression; the Check
Cartridge is closed here, before the departure (log 48). -/
def State.doorEdge (s : State) (line : Nat) : State := ((doorSlots line).foldl State.doorOpened s).endCheckWait

/-- R153: a return of a door line requests a CHECK for each slot it covers, in ascending order. -/
def State.doorReturn (s : State) (line : Nat) : State :=
  (doorSlots line).foldl (fun s slot => s.requestCheck slot false) s

end Sys2Proof.Machine
end

