-- ==== Sys2Proof/Machine/PrintPath.lean ====
section
/-! DEFINITION. The print path (spec 04): validation, admission and its waits, bands, imaging start, spoiling and settlement
of an impression. -/

namespace Sys2Proof.Machine

/-! ### Band list and validation (R59 to R61) -/

/-- A band list entry as it stands in memory (Figure 50). -/
structure RawBand where
  plane : Nat
  enciphered : Bool
  first : Nat
  lines : Nat
  index : Nat
  address : Nat
  length : Nat
  slot : SlotHandle
  page : Nat
deriving DecidableEq, Repr

/-- Figure 50. -/
def RawBand.ofWords (ws : List Word) : RawBand :=
  { plane := bits (wordAt ws 0) 7 0, enciphered := bit (wordAt ws 0) 8, first := bits (wordAt ws 0) 31 16,
    lines := bits (wordAt ws 1) 15 0, index := bits (wordAt ws 1) 31 16, address := (wordAt ws 2).toNat,
    length := (wordAt ws 3).toNat, slot := SlotHandle.ofWord (wordAt ws 4), page := bits (wordAt ws 5) 15 0 }

/-- Consecutive entries of `size` words (section 12.3). -/
def listEntries (ws : List Word) (size count : Nat) : List (List Word) :=
  (List.range count).map (fun i => (ws.drop (size * i)).take size)

/-- Declared colour, 1 MONO, 2 COLOUR (Figure 49). -/
def colourOfCode (n : Nat) : Option Bool :=
  match n with
  | 1 => some false
  | 2 => some true
  | _ => none

/-- R60: the arguments of the ticket, less the band list; none when one is faulty. -/
def PrintArgs.ofTicket (t : Ticket) : Option PrintArgs :=
  match SizeClass.ofCode (bits (t.w 3) 7 0), colourOfCode (bits (t.w 3) 15 8) with
  | some size, some colour =>
    let b := bits (t.w 3) 23 16
    let pixels := (t.w 4).toNat
    let lines := (t.w 5).toNat
    let result := (t.w 8).toNat
    if (b = 1 ∨ b = 2 ∨ b = 4 ∨ b = 8) ∧ 1 ≤ pixels ∧ pixels ≤ 8192 ∧ 1 ≤ lines ∧ lines ≤ 16384 ∧ areaOk result then
      some { job := Handle.ofField (t.w 2), size, colour, pixels, lines, bpp := b, result }
    else none
  | _, _ => none

/-- R60: a faulty band table entry. -/
def RawBand.faulty (a : PrintArgs) (r : RawBand) : Bool :=
  match planeOfCode r.plane with
  | none => true
  | some p =>
    decide (r.lines < 1 ∨ 256 < r.lines) ||
      decide (r.length ≠ printLineBytes a.pixels a.bpp * r.lines + (if r.enciphered then 16 else 0)) ||
      (!a.colour && p ≠ .k)

/-- The entry of the band table (R59), NOT READ. -/
def RawBand.entry (r : RawBand) : BandEntry :=
  { plane := (planeOfCode r.plane).getD .k, first := r.first, lines := r.lines, address := r.address, length := r.length,
    enciphered := r.enciphered, slot := r.slot, page := r.page, index := r.index, cond := .notRead, data := [] }

/-- R61: the first entry at which the coverage of the page fails, from the first line of the entry before and the next line
expected of each plane. A plane that ends short shows at its last entry. -/
def coverFault (lines : Nat) (i prev : Nat) (next : PerPlane Nat) : List BandEntry → Option Nat
  | [] => none
  | e :: rest =>
    if e.first < prev ∨ e.first ≠ next.get e.plane ∨ lines < e.first + e.lines ∨
        (e.first + e.lines < lines ∧ rest.all (fun x => x.plane ≠ e.plane)) then some i
    else coverFault lines (i + 1) e.first (next.set e.plane (e.first + e.lines)) rest

/-- R61: W14 of a table that does not cover the page: 65535 for a plane with no entry, else the first failing index
(log 15). -/
def coverageFault (a : PrintArgs) (table : List BandEntry) : Option Nat :=
  if (planeSet a.colour).all (fun p => table.any (fun e => e.plane = p)) then
    coverFault a.lines 0 0 ⟨0, 0, 0, 0⟩ table
  else some 65535

/-! ### Supply classes (R64) -/

/-- R64. -/
inductive SupplyClass where
  | usable | refusing | pending
deriving DecidableEq, Repr

/-- R64: the class of a cartridge record under a policy. -/
def Cartridge.supplyClass (c : Cartridge) (policy : Policy) : SupplyClass :=
  let filled : Bool :=
    match c.values with
    | none => false
    | some v => v.level ≠ .empty
  match c.auth with
  | .verified => if filled then .usable else .refusing
  | .permitted => if filled ∧ policy = .lenient then .usable else .refusing
  | .absent => .refusing
  | .silent => .refusing
  | .rejected => .refusing
  | .unchecked => .pending
  | .checking => .pending

/-- R64: the slots a page needs. -/
def neededSlots (colour : Bool) : List Nat := if colour then [1, 2, 3, 4, 5] else [4, 5]

/-- R64: the class of a supply slot now. -/
def State.supplyClass (s : State) (slot : Nat) : SupplyClass :=
  (s.cart slot).supplyClass s.stored.settings.supply.policy

/-- A slot mask. -/
def slotMask (slots : List Nat) : Nat := (slots.foldl (fun m n => m ||| slotBit n) (0 : BitVec 5)).toNat

/-! ### Ends -/

/-- The print path enters IDLE: band table, arguments and capture discarded; sums, line counts and the numbers stay (R78). -/
def State.printIdle (s : State) : State :=
  { s with print := { s.print with state := .idle, wait := none, args := none, table := [], capture := none } }.dropCore
    CipherPath.print

/-- R62: refuse the ticket in admission: no hold, no result record. -/
def State.printRefuse (s : State) (r : Refused) : State := (s.refuse 2 r).printIdle

/-- Figure 52: outcomes. -/
inductive PrintOutcome where
  | delivered | spoiled | notImaged
deriving DecidableEq, Repr

/-- Figure 52: causes. -/
inductive PrintCause where
  | none | underrun | cipher | memory | jam | door | withdrawn | protocol | supply
deriving DecidableEq, Repr

/-- Figure 52. -/
def PrintOutcome.code : PrintOutcome → Nat
  | .delivered => 1 | .spoiled => 2 | .notImaged => 3

/-- Figure 52. -/
def PrintCause.code : PrintCause → Nat
  | .none => 0 | .underrun => 1 | .cipher => 2 | .memory => 3 | .jam => 4 | .door => 5 | .withdrawn => 6
  | .protocol => 7 | .supply => 8

/-- R80, Figure 52: the result record. -/
def printResult (outcome : PrintOutcome) (cause : PrintCause) (number : Nat) (m : Metered) (counts : PerPlane Nat) :
    List Word :=
  [ BitVec.ofNat 32 (outcome.code + cause.code * 2 ^ 8 + (if m.colour then 2 else 1) * 2 ^ 16 +
      (if outcome = .notImaged then 0 else number) * 2 ^ 24),
    BitVec.ofNat 32 m.charge,
    BitVec.ofNat 32 (m.coverage.c + m.coverage.m * 2 ^ 16), BitVec.ofNat 32 (m.coverage.y + m.coverage.k * 2 ^ 16),
    BitVec.ofNat 32 m.toner.c, BitVec.ofNat 32 m.toner.m, BitVec.ofNat 32 m.toner.y, BitVec.ofNat 32 m.toner.k,
    BitVec.ofNat 32 (counts.c + counts.m * 2 ^ 16), BitVec.ofNat 32 (counts.y + counts.k * 2 ^ 16) ]

/-- R30, R79: what an impression's settlement adds to its account. -/
def printCharge (outcome : PrintOutcome) (m : Metered) : AccountCharge :=
  match outcome with
  | .delivered =>
    { charge := m.charge, mono := if m.colour then 0 else 1, colour := if m.colour then 1 else 0, toner := m.toner.total }
  | .spoiled => { charge := 0, spoiled := 1, toner := m.toner.total }
  | .notImaged => { charge := 0, toner := m.toner.total }

/-- R79, R180: the lifetime meters after an impression. -/
def impressionMeters (x : Meters) (outcome : PrintOutcome) (m : Metered) : Meters :=
  match outcome with
  | .delivered =>
    if m.colour then { x with colour := sat64 x.colour 1, toner := sat64 x.toner m.toner.total }
    else { x with mono := sat64 x.mono 1, toner := sat64 x.toner m.toner.total }
  | .spoiled => { x with spoiled := sat64 x.spoiled 1, toner := sat64 x.toner m.toner.total }
  | .notImaged => x

/-- R180: the meters are written and made durable. -/
def State.writeMeters (s : State) (m : Meters) : State :=
  s.store .meters { s.stored with meters := m, metersOk := true }

/-- R80: write the result record to the result area; a failed write captures MEMORY_WRITE (R163). -/
def State.writePrintResult (s : State) (address : Nat) (record : List Word) : State :=
  match s.writeWords address record with
  | (s', none) => s'
  | (s', some bad) => s'.captureMemory .memoryWrite 2 bad

/-- R78: settle the impression in flight, steps 1 to 7 in their order, and enter IDLE. -/
def State.settlePrint (s : State) (outcome : PrintOutcome) (cause : PrintCause) (code : ReturnCode) (w14 : Nat) : State :=
  match s.print.args, s.print.capture with
  | some a, some cap =>
    let m := meter cap a.colour a.pixels s.print.sums s.print.counts (outcome = .delivered)
    let s := s.settleHold a.job .print (outcome = .delivered) (printCharge outcome m)
    let s := if outcome = .notImaged then s else s.deduct a.colour m.toner
    let s := if outcome = .notImaged then s else s.writeMeters (impressionMeters s.stored.meters outcome m)
    let s := s.writePrintResult a.result (printResult outcome cause s.print.number m s.print.counts)
    let r := s.completeEnd a.job
    (r.1.close 2 code m.charge w14 r.2).printIdle
  | _, _ => s

/-- R70: the impression ends before imaging start. -/
def State.notImaged (s : State) (code : ReturnCode) (cause : PrintCause) (w14 : Nat) : State :=
  s.settlePrint .notImaged cause code w14

/-- R74: the part spoils the impression: abort to the engine, whose number is retired, its bands discarded, and settlement
SPOILED at once. -/
def State.spoil (s : State) (cause : PrintCause) : State :=
  let s := { s with engineOut := s.engineOut ++ [EngineMessage.abort s.print.number],
                    print := { s.print with retired := some s.print.number } }
  (s.dropCore CipherPath.print).settlePrint .spoiled cause .spoiled cause.code

/-- R70, R73: a band of the impression fails, by tag (CIPHER) or by read (MEMORY). -/
def State.bandFails (s : State) (i : Nat) (cause : PrintCause) : State :=
  match s.print.state with
  | .preparing => s.notImaged (if cause = .memory then .memoryFault else .cipherFail) cause i
  | .imaging => s.spoil cause
  | _ => s

/-! ### Bands and imaging start -/

/-- R67: the lowest-numbered NOT READ band of a plane begins to be read. -/
def beginRead (p : Plane) : List BandEntry → List BandEntry
  | [] => []
  | e :: rest =>
    if e.plane = p ∧ e.cond = .notRead then { e with cond := .reading } :: rest else e :: beginRead p rest

/-- R67: at admission bands 0 and 1 of each plane begin to be read. -/
def firstReads (colour : Bool) (table : List BandEntry) : List BandEntry :=
  (planeSet colour).foldl (fun t p => beginRead p (beginRead p t)) (table.map (fun e => { e with cond := .notRead, data := [] }))

/-- R69: band 0 of every plane of the plane set is READY. -/
def rowZeroReady (colour : Bool) (table : List BandEntry) : Bool :=
  (planeSet colour).all (fun p =>
    match table.find? (fun e => e.plane = p) with
    | none => false
    | some e => e.cond = .ready)

/-- R69: imaging starts, or the impression ends SUPPLY. -/
def State.imagingStart (s : State) (a : PrintArgs) : State :=
  let bad := (neededSlots a.colour).filter (fun n => s.supplyClass n ≠ .usable)
  if bad = [] then
    let number := if s.print.number ≥ 255 then 1 else s.print.number + 1
    { s with print := { s.print with state := .imaging, number },
             engineOut := s.engineOut ++ [EngineMessage.start number a.colour a.pixels a.lines] }
  else s.notImaged .supply .supply (slotMask bad)

/-- R67, R68, R69: a band becomes READY with its plaintext lines; in PREPARING the last awaited row-0 band starts imaging. -/
def State.bandReady (s : State) (i : Nat) (e : BandEntry) (plain : List Byte) : State :=
  let s := { s with print := { s.print with table := s.print.table.set i { e with cond := .ready, data := plain } } }
  match s.print.args with
  | none => s
  | some a =>
    if s.print.state = .preparing ∧ rowZeroReady a.colour s.print.table then s.imagingStart a else s

/-! ### Admission (R62 to R66) -/

/-- Check 1. -/
def State.runningRefusal (s : State) : Option Refused :=
  match s.dev.op with
  | .running => none
  | .withdrawn => some { code := .withdrawn, w14 := 0 }
  | .stopped => some { code := .badState, w14 := 0 }
  | .starting => some { code := .badState, w14 := 0 }

/-- The account of the job a handle refers to. -/
def State.jobAccount (s : State) (h : Handle) : Nat := (s.job h.idx).account

/-- The kind of the job a handle refers to. -/
def State.jobKind (s : State) (h : Handle) : JobKind := (s.job h.idx).kind

/-- R62 checks 1 and 2. -/
def State.printRefusal12 (s : State) (a : PrintArgs) : Option Refused :=
  firstRefusal
    [s.runningRefusal, s.jobRefusal a.job true, refuseIf (s.jobKind a.job = .scan) .notPermitted]

/-- R62 check 6: the lowest entry whose slot the job may not use. -/
def State.badBandSlot (s : State) (a : PrintArgs) : Option Nat :=
  s.print.table.findIdx? (fun e => e.enciphered && !s.keyGranted e.slot a.job .print)

/-- R37: the owner account of an engine hold another job has. -/
def State.heldByOther (s : State) (h : Handle) : Option Refused :=
  match s.hold with
  | none => none
  | some e => refuseIf (e.owner ≠ h) .heldByOther e.account

/-- R148: the ENGINE group is S0, S1 and S2. -/
def State.engineDeparted (s : State) : Bool := s.lineAbnormal 0 || s.lineAbnormal 1 || s.lineAbnormal 2

/-- R148: the SCANNER group is S3. -/
def State.scannerDeparted (s : State) : Bool := s.lineAbnormal 3

/-- R148: the PRIVACY group is S4. -/
def State.privacyDeparted (s : State) : Bool := s.lineAbnormal 4

/-- R62 checks 3 to 7, after the account has been read. -/
def State.printRefusal37 (s : State) (a : PrintArgs) : Option Refused :=
  let n := s.jobAccount a.job
  firstRefusal
    [ s.accountRefusal n,
      refuseIf (a.colour && !s.mayColour n) .notPermitted,
      s.heldByOther a.job,
      (s.badBandSlot a).map (fun i => { code := .badSlot, w14 := i }),
      refuseIf s.engineDeparted .engineNotReady ]

/-- R63, R64: the ticket waits. -/
def State.printWait (s : State) (w : PrintWait) : State :=
  { s with print := { s.print with state := .waiting, wait := some w } }

/-- R64: a CHECK is asked for each needed slot that is UNCHECKED, and the ticket waits. -/
def State.awaitSupply (s : State) (colour : Bool) : State :=
  (((neededSlots colour).filter (fun n => (s.cart n).auth = .unchecked)).foldl
    (fun s n => s.requestCheck n false) s).printWait .supply

/-- R65: check 10 takes the hold and admits the impression, or refuses it NO_QUOTA. -/
def State.printCheck10 (s : State) (a : PrintArgs) : State :=
  let cap := PrintCapture.ofSettings s.stored.settings a.size
  match s.requestHold a.job.idx .print (cap.hold a.colour) with
  | none =>
    (s.quotaStop a.job.idx).printRefuse
      { code := .noQuota, w14 := (s.available (s.jobAccount a.job)).getD 0 }
  | some s =>
    let s := s.admitted a.job
    { s with print := { s.print with
        state := .preparing, wait := none, capture := some cap, position := ⟨0, 0, 0, 0⟩, sums := ⟨0, 0, 0, 0⟩,
        counts := ⟨0, 0, 0, 0⟩, table := firstReads a.colour s.print.table } }

/-- R62 to R65: a pass through checks 1 to 10 on the band table held. -/
def State.printAdmit (s : State) : State :=
  match s.print.args with
  | none => s
  | some a =>
    let s := s.touchJob a.job
    match s.printRefusal12 a with
    | some r => s.printRefuse r
    | none =>
      let s := s.readAccount (s.jobAccount a.job)
      match s.printRefusal37 a with
      | some r => s.printRefuse r
      | none =>
        if s.lineAbnormal 5 ∨ s.lineAbnormal 7 then s.printWait .ready
        else
          let refusing := (neededSlots a.colour).filter (fun n => s.supplyClass n = .refusing)
          if refusing ≠ [] then s.printRefuse { code := .supply, w14 := slotMask refusing }
          else if (neededSlots a.colour).any (fun n => s.supplyClass n = .pending) then s.awaitSupply a.colour
          else s.printCheck10 a

/-- R66: a wait has ended: checks 1 to 10 again. -/
def State.renewPrint (s : State) : State := if s.print.state = .waiting then s.printAdmit else s

/-- R66: a needed slot that was pending has left UNCHECKED and CHECKING, for a ticket waiting at check 9. -/
def State.renewPrintOnSupply (before s : State) : State :=
  match s.print.args with
  | none => s
  | some a =>
    if s.print.state = .waiting ∧ s.print.wait = some .supply ∧
        (neededSlots a.colour).any (fun n => before.supplyClass n = .pending && s.supplyClass n ≠ .pending) then
      s.renewPrint
    else s

/-! ### Departure and withdrawal (R75, R76) -/

/-- R70, R75, R149: an ENGINE departure. -/
def State.printDeparture (s : State) : State :=
  match s.print.state with
  | .idle => s
  | .waiting => s.renewPrint
  | .preparing => s.notImaged .engineNotReady .door 0
  | .imaging => s.spoil .door
  | .imaged => s.spoil .door

/-- R70, R76: a withdrawal. -/
def State.printWithdrawal (s : State) : State :=
  match s.print.state with
  | .idle => s
  | .waiting => s.renewPrint
  | .preparing => s.notImaged .withdrawn .withdrawn 0
  | .imaging => s.spoil .withdrawn
  | .imaged => s.spoil .withdrawn

/-- R113: the bands in the core or waiting for it that name a handle, the core's first. -/
def State.printBandsUnder (s : State) (h : SlotHandle) : List Nat :=
  let inCore :=
    match s.core.band with
    | none => []
    | some b => if b.path = CipherPath.print ∧ b.orphan = false ∧ b.slot = h then [b.idx] else []
  inCore ++ s.core.printQueue.filter (fun i => s.bandSlot i = h)

end Sys2Proof.Machine
end

