-- ==== Sys2Proof/Machine/ScanPath.lean ====
section
/-! DEFINITION. The scan path (spec 05): admission of a scan page and its wait, lines, bands, page end and failure, and the
progress of Encipher Bands and Decipher Bands tickets. -/

namespace Sys2Proof.Machine

/-! ### Settlement and failure of a page -/

/-- R92, R93: a scan page settles with its charge and closes; W13 the page number, W14 the band records written. -/
def State.settleScan (s : State) (code : ReturnCode) (charge : Nat) : State :=
  match s.scan.args with
  | none => s
  | some a =>
    let completed := decide (code = .ok)
    let s := s.settleHold a.job .scan false { charge, scanned := if completed then 1 else 0 }
    let s := if completed then s.writeMeters { s.stored.meters with scanned := sat64 s.stored.meters.scanned 1 } else s
    let r := s.completeEnd a.job
    (r.1.close 1 code s.scan.page s.scan.written r.2 s.scan.truncation).scanIdle

/-- R93, R94: the first failure of the page in flight. `ended` tells that it is the scanner's own page end or error report;
otherwise, before the page end, the drain mark is set. A band already WRITING completes before the settlement. -/
def State.failPage (s : State) (code : ReturnCode) (ended : Bool) : State :=
  if s.scan.state = .scanning ∧ s.scan.failed = none then
    let s := { s with scan := { s.scan with
      failed := some code, drain := s.scan.drain || !(s.scan.pageEnd || ended) } }
    let s := s.eraseUnwritten.dropCore CipherPath.scan
    if s.writingBuffer.isNone then s.settleScan code 0 else s
  else s

/-- R92: with the page end taken and every band written, the page is settled with the captured scan rate. -/
def State.settleIfWritten (s : State) : State :=
  if s.scan.state = .scanning ∧ s.scan.failed = none ∧ s.scan.pageEnd ∧
      s.scan.internal.toList.all (fun b => b.cond = .free) then
    s.settleScan .ok (s.scan.capture.getD 0)
  else s

/-! ### Bands of a page (R89 to R91) -/

/-- R90 step 1, R91: a complete band takes the host buffer of its index and is presented to the core, or the page fails. -/
def State.bandComplete (s : State) (i : Nat) (a : ScanArgs) : State :=
  let b := s.buffer i
  if b.band ≥ s.scan.buffers.length then s.failPage .scanOverrun false
  else if s.keyGranted a.slot a.job .scan then (s.putBuffer i { b with cond := .ciphering }).presentScan i
  else s.failPage .scanInterrupted false

/-- R89: the buffer a line joins: the one FILLING, or a FREE one taken for a new band. -/
def State.lineBuffer (s : State) : Option (State × Nat) :=
  match s.bufferIn .filling with
  | some i => some (s, i)
  | none =>
    match s.bufferIn .free with
    | none => none
    | some i =>
      let s := s.putBuffer i { cond := .filling, band := s.scan.begun, lines := 0, data := [] }
      some ({ s with scan := { s.scan with begun := s.scan.begun + 1 } }, i)

/-- R89: a line of the page's length joins its band. -/
def State.joinLine (s : State) (a : ScanArgs) (line : List Byte) : State :=
  match s.lineBuffer with
  | none => s.failPage .scanOverrun false
  | some (s, i) =>
    let b := s.buffer i
    let s := s.putBuffer i { b with lines := b.lines + 1, data := b.data ++ line }
    let taken := s.scan.taken + 1
    let s := { s with scan := { s.scan with taken, lineLimit := decide (taken ≥ a.maxLines) } }
    if b.lines + 1 ≥ a.bandLines ∨ taken ≥ a.maxLines then s.bandComplete i a else s

/-- R89: a line taken in SCANNING before the page end: cut, short, or beyond the line limit. -/
def State.takeLine (s : State) (a : ScanArgs) (bytes : List Byte) : State :=
  if s.scan.lineLimit then { s with scan := { s.scan with truncation := true } }
  else if bytes.length < a.lineBytes then s.failPage .scanFault false
  else
    let s := if a.lineBytes < bytes.length then { s with scan := { s.scan with truncation := true } } else s
    s.joinLine a (bytes.take a.lineBytes)

/-- R92: the page end, with a line taken: the band FILLING becomes the final band, and the page settles when its bands are
written. -/
def State.takePageEnd (s : State) (a : ScanArgs) : State :=
  let s := { s with scan := { s.scan with pageEnd := true } }
  if s.scan.taken = 0 then s.failPage .scanFault true
  else
    match s.bufferIn .filling with
    | some i => s.bandComplete i a
    | none => s.settleIfWritten

/-! ### Admission (R86 to R88) -/

/-- R86: refuse; the path enters IDLE. -/
def State.scanRefuse (s : State) (r : Refused) (w13 : Nat) : State := (s.refuse 1 r w13).scanIdle

/-- R86 checks 4 to 6 and MAY_SCAN, after the account has been read. -/
def State.scanRefusal36 (s : State) (a : ScanArgs) : Option Refused :=
  let n := s.jobAccount a.job
  firstRefusal
    [ s.accountRefusal n,
      refuseIf (!s.mayScan n) .notPermitted,
      refuseIf (!s.keyGranted a.slot a.job .scan) .badSlot,
      refuseIf ((s.slot a.slot.idx).page ≥ 65535) .slotExhausted,
      refuseIf s.scannerDeparted .scanInterrupted ]

/-- R106: take the slot's page number; the counter increases by 1. -/
def State.takePageNumber (s : State) (h : SlotHandle) : State × Nat :=
  let k := s.slot h.idx
  (s.putSlot h.idx { k with page := k.page + 1 }, k.page)

/-- R88: check 8. -/
def State.scanCheck8 (s : State) (a : ScanArgs) : State :=
  let rate := s.stored.settings.rates.scan.of a.size
  match s.requestHold a.job.idx .scan rate with
  | none =>
    (s.quotaStop a.job.idx).scanRefuse { code := .noQuota, w14 := (s.available (s.jobAccount a.job)).getD 0 } 65535
  | some s =>
    let s := s.admitted a.job
    let r := s.takePageNumber a.slot
    { r.1 with scan := { r.1.scan with
        state := .scanning, page := r.2, taken := 0, begun := 0, written := 0, lineLimit := false, truncation := false,
        pageEnd := false, failed := none, capture := some rate } }

/-- R86 to R88: a pass through checks 1 to 8 on the buffer table held. -/
def State.scanAdmit (s : State) : State :=
  match s.scan.args with
  | none => s
  | some a =>
    let s := s.touchJob a.job
    match s.runningRefusal with
    | some r => s.scanRefuse r 0
    | none =>
      match firstRefusal [s.jobRefusal a.job true, refuseIf (s.jobKind a.job = .print) .notPermitted] with
      | some r => s.scanRefuse r 65535
      | none =>
        let s := s.readAccount (s.jobAccount a.job)
        match s.scanRefusal36 a with
        | some r => s.scanRefuse r 65535
        | none =>
          if s.lineAbnormal 6 ∨ s.scan.drain then { s with scan := { s.scan with state := .waiting } }
          else s.scanCheck8 a

/-- R87: a wait has ended: checks 1 to 8 again. -/
def State.renewScan (s : State) : State := if s.scan.state = .waiting then s.scanAdmit else s

/-- R94: clear the drain mark; a wait at check 7 ends if S6 is normal (R87). -/
def State.clearDrain (s : State) : State :=
  let s := { s with scan := { s.scan with drain := false } }
  if s.lineAbnormal 6 then s else s.renewScan

/-! ### Writes (R90, R97, R99) -/

/-- What follows once the WRITING buffer is FREE again: the next write begins; a failed page or ticket ends when no write is
left; a completed one settles or closes; a cipher ticket reads on. -/
def State.afterWrite (s : State) : State :=
  match s.scan.failed with
  | some code =>
    if s.writingBuffer.isSome then s
    else if s.scan.work = .page then s.settleScan code 0 else s.closeCipher code
  | none =>
    let s := s.startWrite
    if s.scan.work = .page then s.settleIfWritten
    else if s.scan.written ≥ s.scan.sources.length then s.closeCipher .ok
    else s.startSourceRead

/-- R90, R97: a band is whole in memory, with its record where it has one. -/
def State.bandWritten (s : State) (i : Nat) : State :=
  let s := s.putBuffer i .erased
  ({ s with scan := { s.scan with written := s.scan.written + 1 } }).afterWrite

/-- R90, R93, R97, R99: a write of the WRITING band failed: MEMORY_WRITE, the band erased, and MEMORY_FAULT unless an
earlier failure already ends the work. The manual gives the capture's address; that its lane is lane 1, whose ticket the band
belongs to, is the model's choice (log 30). -/
def State.writeFailed (s : State) (i address : Nat) : State :=
  let s := (s.captureMemory .memoryWrite 1 address).putBuffer i .erased
  match s.scan.failed with
  | some _ => s.afterWrite
  | none => if s.scan.work = .page then s.failPage .memoryFault false else s.failCipher .memoryFault

/-- The host buffer or destination of a band. -/
def State.destination (s : State) (band : Nat) : Nat :=
  match s.scan.buffers[band]? with
  | none => 0
  | some d => d.address

/-- R90, Figure 51: a band record. -/
def bandRecord (b : Buffer) : List Word :=
  [ BitVec.ofNat 32 (b.band + b.band * 2 ^ 16), BitVec.ofNat 32 b.lines, BitVec.ofNat 32 b.data.length ]

/-- The end of the write under way: band data, then (but for Decipher Bands) the band record. -/
def State.writeDone (s : State) : State :=
  match s.writingBuffer with
  | none => s
  | some i =>
    let b := s.buffer i
    if b.cond = .writingData then
      match s.writeBytes (s.destination b.band) b.data with
      | (s, some bad) => s.writeFailed i bad
      | (s, none) =>
        if s.scan.work = .decipher then s.bandWritten i else s.putBuffer i { b with cond := .writingRecord }
    else
      match s.writeWords ((s.scan.args.map (·.records)).getD 0 + 12 * b.band) (bandRecord b) with
      | (s, some bad) => s.writeFailed i bad
      | (s, none) => s.bandWritten i

/-! ### Progress of the core and of source reads -/

/-- R98 check 4: the job was opened with a session, that session is still open, and its account is the slot's owner. -/
def State.authorised (s : State) (job : Handle) (h : SlotHandle) : Bool :=
  match (s.job job.idx).session with
  | none => false
  | some e =>
    match s.sessionOf e with
    | none => false
    | some i => (s.slot h.idx).owner = some (s.session i).account

/-- R83, R90, R97, R99: the core's output for a scan path band. -/
def State.scanBandCiphered (s : State) (i : Nat) (a : ScanArgs) : State :=
  let b := s.buffer i
  let key := s.slotKey a.slot
  match s.scan.work with
  | .decipher =>
    let index := (s.scan.sources[b.band]?.map (·.extra)).getD 0
    match decipherBand key (nonceOf a.slot s.scan.page index) b.data with
    | none => s.failCipher .cipherFail
    | some p => (s.putBuffer i { b with cond := .ciphered, data := p }).startWrite
  | _ =>
    let out := encipherBand key (nonceOf a.slot s.scan.page b.band) b.data
    (s.putBuffer i { b with cond := .ciphered, data := out }).startWrite

/-- R97 step 2, R99 step 2: what refuses the key of a cipher ticket's band. -/
def State.sourceRefusal (s : State) (a : ScanArgs) : Option ReturnCode :=
  match s.scan.work with
  | .page => none
  | .encipher => if s.keyGranted a.slot a.job .encipher then none else some .badSlot
  | .decipher =>
    if s.keyGranted a.slot a.job .decipher then
      if s.authorised a.job a.slot then none else some .notPermitted
    else some .badSlot

/-- R97, R99: the source read under way has completed; its bytes and failing addresses are those of this moment (log 40). -/
def State.sourceRead (s : State) (i : Nat) (a : ScanArgs) : State :=
  let b := s.buffer i
  let src := (s.scan.sources[b.band]?).getD { address := 0, length := 0, extra := 0 }
  match s.readBytes src.address src.length with
  | .error bad => (s.captureMemory .memoryRead 1 bad).failCipher .memoryFault
  | .ok data =>
    match s.sourceRefusal a with
    | some code => s.failCipher code
    | none =>
      let lines := if s.scan.work = .encipher then src.extra else 0
      ((s.putBuffer i { b with cond := .ciphering, lines, data }).presentScan i).startSourceRead

/-! ### Departure, withdrawal, lost slot -/

/-- R150: a SCANNER departure. -/
def State.scanDeparture (s : State) : State :=
  match s.scan.state with
  | .waiting => s.renewScan
  | .scanning => if s.scan.pageEnd then s else s.failPage .scanInterrupted false
  | _ => s

/-- R99: a withdrawal stops a plaintext write in progress at once; the bytes already written stay. -/
def State.stopPlainWrite (s : State) : State :=
  match s.scan.work, s.writingBuffer with
  | .decipher, some i =>
    let b := s.buffer i
    ((s.writeBytes (s.destination b.band) (b.data.take s.env.stopped)).1).putBuffer i .erased
  | _, _ => s

/-- R93, R97, R99, R173: a withdrawal. -/
def State.scanWithdrawal (s : State) : State :=
  match s.scan.state with
  | .idle => s
  | .waiting => s.renewScan
  | .scanning => s.failPage .withdrawn false
  | .ciphering =>
    let s := s.stopPlainWrite
    match s.scan.failed with
    | none => s.failCipher .withdrawn
    | some code => if s.writingBuffer.isNone then s.closeCipher code else s

/-- R93, R95: the destruction of the page's slot fails the page, unless its page end has been taken and no band is left but
one already WRITING. -/
def State.pageSlotLost (s : State) (h : SlotHandle) : State :=
  if s.scan.state = .scanning ∧ s.scanSlot = h ∧ ¬(s.scan.pageEnd ∧ s.anyCiphering = false) then
    s.failPage .scanInterrupted false
  else s

end Sys2Proof.Machine
end

