-- ==== Sys2Proof/Machine/Withdrawal.lean ====
section
/-! DEFINITION. The destruction of a key slot with its effect on work in flight (spec 06 R111, R113, section 6.4.1) and the
withdrawal of the part (11 R173, 06 R114). -/

namespace Sys2Proof.Machine

/-- R113: a print band in the core or waiting for it under the destroyed key fails its tag check; the first of them ends the
impression. -/
def State.failBands (s : State) (bands : List Nat) : State :=
  match bands with
  | [] => s
  | i :: _ => s.bandFails i .cipher

/-- R111, R113, section 6.4.1: destroy a slot. Where one destruction ends work of both paths the manual gives no order; the print
path's work ends first here, which decides whose ticket carries JOB_ENDED when both are of one ENDING job (log 23). -/
def State.destroySlot (s : State) (i : Nat) : State :=
  let h : SlotHandle := { idx := i, gen := (s.slot i).gen }
  let bands := s.printBandsUnder h
  (((s.wipeSlot i).failBands bands).pageSlotLost h).cipherSlotLost h

/-- R114: a slot in a withdrawal: LIVE and HELD slots are destroyed, a FREE one is left. -/
def State.wipeUsed (s : State) (i : Nat) : State := if (s.slot i).state = .free then s else s.wipeSlot i

/-- R114: every key slot is destroyed and the cipher core emptied, as one event. -/
def State.wipeAll (s : State) : State :=
  let s := (List.range 32).foldl State.wipeUsed s
  { s with core := { s.core with band := none, printQueue := [], scanWaiting := none } }

/-- R173, R114: the withdrawal, taken from RUNNING only. It is one event, and neither rule orders the ends of the two paths' work within
it; the print path's work ends first here, which decides whose ticket carries JOB_ENDED when both are of one ENDING job (log 46). -/
def State.withdraw (s : State) : State :=
  if s.dev.op = .running then
    let s := { s with dev := { s.dev with op := .withdrawn, entryTime := some s.dev.clock } }
    (s.wipeAll.printWithdrawal).scanWithdrawal
  else s

end Sys2Proof.Machine
end

