-- ==== Sys2Proof/Machine/AccountTickets.lean ====
section
/-! DEFINITION. Account and session tickets and their expiries (spec 01): Set Account, Read Accounts, Reset Period, Open
Session, Close Session, session idle expiry, lockout expiry. -/

namespace Sys2Proof.Machine

/-! ### Set Account (R5 to R7) -/

/-- A WRITE's arguments (Figure 49). -/
structure WriteArgs where
  state : AccountState
  mayColour : Bool
  mayScan : Bool
  needsSession : Bool
  unlimited : Bool
  quota : Nat
  /-- 0 KEEP, 1 SET, 2 CLEAR -/
  action : Nat
  credential : List Byte
deriving DecidableEq, Repr

/-- R5 check 1 for a WRITE; none when it is malformed. -/
def WriteArgs.ofTicket (t : Ticket) : Option WriteArgs :=
  match accountStateOfCode (bits (t.w 3) 7 0) with
  | none => none
  | some state =>
    let action := bits (t.w 3) 17 16
    let length := bits (t.w 3) 28 24
    if 2 < action ∨ (action = 1 ∧ (length < 1 ∨ 16 < length)) then none
    else
      some { state, mayColour := bit (t.w 3) 8, mayScan := bit (t.w 3) 9, needsSession := bit (t.w 3) 10,
             unlimited := bit (t.w 3) 11, quota := (t.w 4).toNat, action, credential := credentialBytes t 5 length }

/-- R6: the record starts afresh when it was VACANT or is DAMAGED. -/
def State.freshAccount (s : State) (n : Nat) : Bool := (s.acct n).damaged || (s.record n).state = .vacant

/-- R5, R6: the record a WRITE starts from. -/
def State.writeBase (s : State) (n : Nat) : AccountRecord := if s.freshAccount n then .vacant else s.record n

/-- R5 check 4, R6: used plus reserved, with used 0 for a fresh account. -/
def State.committed (s : State) (n : Nat) : Nat := (s.writeBase n).used + (s.acct n).reserved

/-- R6: the quota in effect. -/
def State.quotaInEffect (s : State) (n : Nat) (a : WriteArgs) : Nat :=
  if a.unlimited = false ∧ a.quota < s.committed n then s.committed n else a.quota

/-- R6: the digest after the credential action. -/
def WriteArgs.digest (a : WriteArgs) (old : Option Nat) : Option Nat :=
  match a.action with
  | 0 => old
  | 1 => some (Config.keyedDigest.digest a.credential)
  | _ => none

/-- R6: the record a WRITE leaves. -/
def State.writtenRecord (s : State) (n : Nat) (a : WriteArgs) : AccountRecord :=
  let base := s.writeBase n
  { base with
    state := a.state, mayColour := a.mayColour, mayScan := a.mayScan, needsSession := a.needsSession,
    unlimited := a.unlimited, quota := s.quotaInEffect n a,
    failed := if base.state = .locked ∧ a.state ≠ .locked then 0 else base.failed,
    credential := a.digest base.credential, checkOk := true }

/-- R6: a WRITE. -/
def State.writeAccount (s : State) (n : Nat) (a : WriteArgs) : State :=
  let stillLocked := (s.writeBase n).state = .locked ∧ a.state = .locked
  let r := s.writtenRecord n a
  (s.writeRecord n r).putAcct n
    { s.acct n with damaged := false, lockoutEnd := if stillLocked then (s.acct n).lockoutEnd else none }

/-- R7: destroy each HELD slot of an owner. -/
def State.destroyHeldOf (s : State) (n : Nat) : State :=
  (List.range 32).foldl
    (fun s i => if (s.slot i).state = .held ∧ (s.slot i).owner = some n then s.destroySlot i else s) s

/-- R7: VACATE. -/
def State.vacateAccount (s : State) (n : Nat) : State :=
  let s := s.destroyHeldOf n
  (s.writeRecord n .vacant).putAcct n { s.acct n with damaged := false, lockoutEnd := none }

/-- R5 check 3: the account has a job that is not FREE, or an open session. -/
def State.accountInUse (s : State) (n : Nat) : Bool :=
  (s.acct n).session.isSome || s.jobs.toList.any (fun j => j.state ≠ .free && j.account = n)

/-- R5: Set Account WRITE after check 2. -/
def State.setAccountWrite (s : State) (n : Nat) (a : WriteArgs) : State :=
  let s := s.readAccount n
  if a.unlimited = false ∧ 2 ^ 32 - 1 < s.committed n then s.close 0 .accountBusy 0 0
  else
    let q := s.quotaInEffect n a
    (s.writeAccount n a).close 0 .ok q a.state.code

/-- R5: Set Account VACATE after check 2. -/
def State.setAccountVacate (s : State) (n : Nat) : State :=
  if s.accountInUse n then s.close 0 .accountBusy 0 0
  else (((s.readAccount n).vacateAccount n).close 0 .ok 0 AccountState.vacant.code).pumpCore

/-- R5: the service of Set Account. -/
def setAccountBody (t : Ticket) (s : State) : State :=
  let n := bits (t.w 2) 15 0
  if 511 < n then s.close 0 .badTicket 0 0
  else
    match bits (t.w 2) 23 16 with
    | 1 =>
      match WriteArgs.ofTicket t with
      | none => s.close 0 .badTicket 0 0
      | some a => if n = 0 then s.close 0 .notPermitted 0 0 else s.setAccountWrite n a
    | 2 => if n = 0 then s.close 0 .notPermitted 0 0 else s.setAccountVacate n
    | _ => s.close 0 .badTicket 0 0

/-- SET_ACCOUNT (R5). -/
def execSetAccount (env : Env) (s : State) : Host.Outcome State Fault Refusal :=
  command env s (serve .setAccount 0 setAccountBody)

/-! ### Read Accounts (R10) -/

/-- Figure 53, R10: the entry of one account, from the record just read. -/
def State.accountEntry (s : State) (n : Nat) : List Word :=
  let seen := s.seen n
  let r : AccountRecord := if seen = .damaged then .vacant else s.record n
  let flag (b : Bool) : Nat := flagBit (if seen = .damaged then false else n = 0 || b)
  let reserved := (s.acct n).reserved
  [ BitVec.ofNat 32 (n + seen.code * 2 ^ 16 + flag r.mayColour * 2 ^ 24 + flag r.mayScan * 2 ^ 25 +
      flag r.needsSession * 2 ^ 26 + flag r.unlimited * 2 ^ 27 + flagBit (n ≠ 0 && r.credential.isSome) * 2 ^ 28),
    BitVec.ofNat 32 (r.failed + handleField (s.acct n).session * 2 ^ 16),
    BitVec.ofNat 32 r.quota, BitVec.ofNat 32 r.used,
    BitVec.ofNat 32 reserved, BitVec.ofNat 32 (reserved / 2 ^ 32),
    BitVec.ofNat 32 r.mono, BitVec.ofNat 32 r.colour, BitVec.ofNat 32 r.spoiled, BitVec.ofNat 32 r.scanned,
    BitVec.ofNat 32 r.toner, BitVec.ofNat 32 (r.toner / 2 ^ 32),
    BitVec.ofNat 32 (s.lockoutLeft n) ]

/-- R10: read and write the entries of some accounts; the answer is the state, the entries written whole and whether a write
failed (R163). -/
def State.writeAccounts (s : State) (address : Nat) : List Nat → State × Nat × Bool
  | [] => (s, 0, false)
  | n :: rest =>
    let s := s.readAccount n
    match s.writeWords address (s.accountEntry n) with
    | (s, some bad) => (s.captureMemory .memoryWrite 0 bad, 0, true)
    | (s, none) =>
      match State.writeAccounts s (address + 52) rest with
      | (s, k, failed) => (s, k + 1, failed)

/-- R10: the service of Read Accounts. -/
def readAccountsBody (t : Ticket) (s : State) : State :=
  let first := (t.w 2).toNat
  let last := (t.w 3).toNat
  let address := (t.w 4).toNat
  let capacity := (t.w 5).toNat
  if last < first ∨ 511 < last ∨ areaOk address = false then s.close 0 .badTicket 0 0
  else
    let count := last - first + 1
    let r := s.writeAccounts address ((List.range' first (min count capacity)))
    r.1.close 0 .ok r.2.1 0 false (r.2.2 || decide (capacity < count))

/-- READ_ACCOUNTS (R10). -/
def execReadAccounts (env : Env) (s : State) : Host.Outcome State Fault Refusal :=
  command env s (serve .readAccounts 0 readAccountsBody)

/-! ### Reset Period (R9) -/

/-- R9: one account of ALL, its record durable as it is written, with the counts of records written and skipped as DAMAGED. -/
def State.resetOne (acc : State × Nat × Nat) (n : Nat) : State × Nat × Nat :=
  let s := acc.1.readAccount n
  match s.seen n with
  | .vacant => (s, acc.2)
  | .damaged => (s, acc.2.1, acc.2.2 + 1)
  | _ => (s.writeRecord n { s.record n with used := 0 }, acc.2.1 + 1, acc.2.2)

/-- R9: the service of Reset Period; 0xFFFF is ALL. -/
def resetPeriodBody (t : Ticket) (s : State) : State :=
  let n := bits (t.w 2) 15 0
  if n = 0xFFFF then
    let r := (List.range 512).foldl State.resetOne (s, 0, 0)
    r.1.close 0 .ok r.2.1 r.2.2
  else if 511 < n then s.close 0 .badTicket 0 0
  else
    let s := s.readAccount n
    match s.seen n with
    | .vacant => s.close 0 .noAccount 0 0
    | .damaged => s.close 0 .accountDamaged 0 0
    | _ => (s.writeRecord n { s.record n with used := 0 }).close 0 .ok 1 0

/-- RESET_PERIOD (R9). -/
def execResetPeriod (env : Env) (s : State) : Host.Outcome State Fault Refusal :=
  command env s (serve .resetPeriod 0 resetPeriodBody)

/-! ### Sessions (R12 to R18) -/

/-- R12: the record after a wrong credential. -/
def AccountRecord.wrong (r : AccountRecord) (limit : Nat) : AccountRecord :=
  let failed := min 15 (r.failed + 1)
  { r with failed, state := if limit ≤ failed then .locked else r.state }

/-- R12: a wrong credential for an account other than 0: counted, and the account locked at the limit. -/
def State.wrongCredential (s : State) (n : Nat) : State :=
  let timers := s.stored.settings.timers
  let r := (s.record n).wrong timers.failureLimit
  let s := s.writeRecord n r
  let s :=
    if timers.failureLimit ≤ r.failed then
      s.putAcct n { s.acct n with
        lockoutEnd := if timers.lockoutPeriod = 0 then none else some (s.dev.clock + timers.lockoutPeriod) }
    else s
  s.close 0 .badCredential 0 r.failed

/-- R15 checks 5 and 6 and the opening, after the credential has matched. -/
def State.openSessionFor (s : State) (n : Nat) : State :=
  match (s.acct n).session with
  | some h => s.close 0 .sessionExists 0 h.field
  | none =>
    match lowest s.sessions (fun x => !x.isOpen) with
    | none => s.close 0 .noSession 0 0
    | some e =>
      let h : Handle := { idx := e, gen := (s.session e).gen }
      let s := s.putSession e { isOpen := true, gen := h.gen, account := n, opened := s.dev.clock, last := s.dev.clock }
      (s.putAcct n { s.acct n with session := some h }).close 0 .ok h.field 0

/-- R15 checks 1 to 3. -/
def State.openSessionRefusal (s : State) (n : Nat) : Option Refused :=
  firstRefusal
    [ refuseIf (s.seen n = .vacant) .noAccount, refuseIf (s.seen n = .damaged) .accountDamaged,
      refuseIf (s.seen n = .locked) .accountLocked (s.lockoutLeft n),
      refuseIf (s.seen n = .suspended) .accountSuspended ]

/-- R15: the service of Open Session. -/
def openSessionBody (t : Ticket) (s : State) : State :=
  let n := bits (t.w 2) 15 0
  let length := bits (t.w 2) 23 16
  if 511 < n ∨ 16 < length then s.close 0 .badTicket 0 0
  else
    let s := s.readAccount n
    match s.openSessionRefusal n with
    | some r => s.refuse 0 r
    | none =>
      if s.credentialMatches n (credentialBytes t 3 length) then
        let s := if n ≠ 0 ∧ (s.record n).failed ≠ 0 then s.writeRecord n { s.record n with failed := 0 } else s
        s.openSessionFor n
      else if n = 0 then s.close 0 .badCredential 0 (s.record 0).failed
      else s.wrongCredential n

/-- OPEN_SESSION (R15). -/
def execOpenSession (env : Env) (s : State) : Host.Outcome State Fault Refusal :=
  command env s (serve .openSession 0 openSessionBody)

/-- R16: the service of Close Session. -/
def closeSessionBody (t : Ticket) (s : State) : State :=
  match s.sessionOf (Handle.ofField (t.w 2)) with
  | none => s.close 0 .noSession 0 0
  | some e =>
    let r := s.endSession e
    (r.1.close 0 .ok r.2.1 r.2.2).pumpCore

/-- CLOSE_SESSION (R16). -/
def execCloseSession (env : Env) (s : State) : Host.Outcome State Fault Refusal :=
  command env s (serve .closeSession 0 closeSessionBody)

/-- R17: the idle expiry of a session is due. -/
def State.sessionExpired (s : State) (e : Nat) : Bool :=
  (s.session e).isOpen && !s.sessionInFlight e &&
    decide (s.stored.settings.timers.sessionIdle ≤ s.dev.clock - (s.session e).last)

/-- SESSION_IDLE_EXPIRY (R17). -/
def execSessionIdleExpiry (env : Env) (entry : Nat) (s : State) : Host.Outcome State Fault Refusal :=
  command env s (fun s => if s.up ∧ s.sessionExpired entry then ((s.endSession entry).1.raise .timer).pumpCore else s)

/-- R13: the lockout end of a LOCKED account has been reached. -/
def State.lockoutOver (s : State) (n : Nat) : Bool :=
  s.seen n = .locked &&
    (match (s.acct n).lockoutEnd with
     | none => false
     | some e => decide (e ≤ s.dev.clock))

/-- R13: lockout expiry. -/
def State.unlock (s : State) (n : Nat) : State :=
  let s := s.writeRecord n { s.record n with state := .active, failed := 0 }
  (s.putAcct n { s.acct n with lockoutEnd := none }).raise .timer

/-- LOCKOUT_EXPIRY (R13); it is none of the reads at which R2 looks at the check value (log 17). -/
def execLockoutExpiry (env : Env) (account : Nat) (s : State) : Host.Outcome State Fault Refusal :=
  command env s (fun s => if s.up ∧ s.lockoutOver account then s.unlock account else s)

end Sys2Proof.Machine
end

