-- ==== Sys2Proof/Machine/Sense.lean ====
section
/-! DEFINITION. The sense watch (spec 09): what a change of lines' normal status does, by a settled edge (R147) or by a
Configure of SENSE (R154). -/

namespace Sys2Proof.Machine

/-- R148: the lines of the three groups. -/
def engineLines : BitVec 8 := 0x07

/-- R148. -/
def scannerLines : BitVec 8 := 0x08

/-- R148. -/
def privacyLines : BitVec 8 := 0x10

/-- R148: a group is DEPARTED when one of its lines is abnormal. -/
def departed (group abnormal : BitVec 8) : Bool := group &&& abnormal ≠ 0

/-- The line has taken an abnormal edge. -/
def wentAbnormal (old new : BitVec 8) (n : Nat) : Bool := !old.getLsbD n && new.getLsbD n

/-- The line has returned. -/
def returned (old new : BitVec 8) (n : Nat) : Bool := old.getLsbD n && !new.getLsbD n

/-- R153: the door effects of one of S0 and S1. -/
def State.doorChange (s : State) (old new : BitVec 8) (n : Nat) : State :=
  if wentAbnormal old new n then s.doorEdge n else if returned old new n then s.doorReturn n else s

/-- R148: one group's event, with what its departure does (Figure 38). -/
def State.groupChange (s : State) (old new group : BitVec 8) (departure : State → State) : State :=
  if departed group old = departed group new then s
  else if departed group new then departure (s.raise .sense)
  else s.raise .sense

/-- R94, R152: an abnormal edge of S6 clears the drain mark and is itself discarded. -/
def State.scannerReadyEdge (s : State) (old new : BitVec 8) : State :=
  if wentAbnormal old new 6 then { s with scan := { s.scan with drain := false } } else s

/-- R152: a return of S5 or S7 with the other normal, for a Print Impression waiting at check 8. -/
def State.engineReadyReturn (s : State) (old new : BitVec 8) : State :=
  if (returned old new 5 || returned old new 7) && !new.getLsbD 5 && !new.getLsbD 7 &&
      s.print.state = .waiting && s.print.wait = some .ready then
    s.renewPrint
  else s

/-- R152: a return of S6 with the drain mark clear, for a waiting Scan Page. -/
def State.scannerReadyReturn (s : State) (old new : BitVec 8) : State :=
  if returned old new 6 && !s.scan.drain then s.renewScan else s

/-- R147, R148, R152, R153, R154: the effects of lines whose normal status has changed, the settings and taken levels being
already the new ones: door lines, S6's edge, the groups, then the ready lines' returns, a waiting Print Impression's pass renewed before
a waiting Scan Page's. R66, R87 and R154 give no order; this one is the model's choice (log 16). So is that an edge of S0 or S1 closes a
waiting Check Cartridge before its ENGINE departure closes a Print Impression (log 48). -/
def State.senseChange (s : State) (old new : BitVec 8) : State :=
  let s := (s.doorChange old new 0).doorChange old new 1
  let s := s.scannerReadyEdge old new
  let s := s.groupChange old new engineLines State.printDeparture
  let s := s.groupChange old new scannerLines State.scanDeparture
  let s := s.groupChange old new privacyLines State.withdraw
  ((s.engineReadyReturn old new).scannerReadyReturn old new).pumpCore

/-- The abnormal lines now. -/
def State.abnormal (s : State) : BitVec 8 := abnormalLines s.stored.settings.sense s.levels

/-- R147: a settled change of a line to a level; a level already taken is no edge. -/
def State.takeEdge (s : State) (n : Nat) (high : Bool) : State :=
  if s.levels.getLsbD n = high then s
  else
    let old := s.abnormal
    let s := { s with levels := s.levels ^^^ BitVec.twoPow 8 n }
    s.senseChange old s.abnormal

/-- SENSE_LINE_EDGE (R147). -/
def execSenseLineEdge (env : Env) (line : Fin 8) (high : Bool) (s : State) : Host.Outcome State Fault Refusal :=
  command env s (fun s => if s.alive then s.takeEdge line.val high else s)

end Sys2Proof.Machine
end

