-- ==== Sys2Proof/Machine/Configure.lean ====
section
/-! DEFINITION. Configure (spec 11 R178, section 12.4): the five sections' layouts, the clamps of R44, R45, R128, R145 and
R178, and what new values do as they come into effect. -/

namespace Sys2Proof.Machine

/-! ### Sections and their words -/

/-- The values a Configure source gives, one section's. -/
inductive Section where
  | rates (r : Rates)
  | curves (c : Curves)
  | supply (x : SupplySettings)
  | timers (t : Timers)
  | sense (x : SenseSettings)
deriving DecidableEq, Repr

/-- The number of words of a section; none for a number that is no section. -/
def sectionLength (n : Nat) : Option Nat :=
  match n with
  | 1 => some 25
  | 2 => some 39
  | 3 => some 4
  | 4 => some 5
  | 5 => some 2
  | _ => none

/-- Word i of a section's source as a number. -/
def valueAt (ws : List Word) (i : Nat) : Nat := (wordAt ws i).toNat

/-- Three rates from word i. -/
def SizeRates.ofWords (ws : List Word) (i : Nat) : SizeRates := ⟨valueAt ws i, valueAt ws (i + 1), valueAt ws (i + 2)⟩

/-- A tier table from word i: bounds of tiers 0 to 3, the last ignored (R44), then multipliers. -/
def TierTable.ofWords (ws : List Word) (i : Nat) : TierTable :=
  ⟨valueAt ws i, valueAt ws (i + 1), valueAt ws (i + 2), valueAt ws (i + 4), valueAt ws (i + 5), valueAt ws (i + 6),
    valueAt ws (i + 7)⟩

/-- RATES. -/
def Rates.ofWords (ws : List Word) : Rates :=
  { mono := SizeRates.ofWords ws 0, colour := SizeRates.ofWords ws 3, scan := SizeRates.ofWords ws 6,
    tierMono := TierTable.ofWords ws 9, tierColour := TierTable.ofWords ws 17 }

/-- Half h of the curve points: 16-bit halves, low half first. -/
def halfAt (ws : List Word) (h : Nat) : Nat := valueAt ws (h / 2) / 2 ^ (16 * (h % 2)) % 2 ^ 16

/-- The curve whose points begin at half h. -/
def Curve.ofWords (ws : List Word) (h : Nat) : Curve := Vector.ofFn (fun i => halfAt ws (h + i.val))

/-- CURVES: the points of C, M, Y, K, the four deposit factors, the colour floor. -/
def Curves.ofWords (ws : List Word) : Curves :=
  { curve := ⟨Curve.ofWords ws 0, Curve.ofWords ws 17, Curve.ofWords ws 34, Curve.ofWords ws 51⟩,
    deposit := ⟨valueAt ws 34, valueAt ws 35, valueAt ws 36, valueAt ws 37⟩, floor := valueAt ws 38 }

/-- R128: 1 STRICT, 2 LENIENT; any other value is malformed. -/
def policyOfCode (n : Nat) : Option Policy :=
  match n with
  | 1 => some .strict
  | 2 => some .lenient
  | _ => none

/-- SUPPLY; none when the policy is malformed. -/
def SupplySettings.ofWords (ws : List Word) : Option SupplySettings :=
  (policyOfCode (valueAt ws 0)).map (fun policy =>
    { policy, lowPermille := valueAt ws 1, writeBack := valueAt ws 2, retryLimit := valueAt ws 3 })

/-- TIMERS. -/
def Timers.ofWords (ws : List Word) : Timers :=
  ⟨valueAt ws 0, valueAt ws 1, valueAt ws 2, valueAt ws 3, valueAt ws 4⟩

/-- The 2-bit value of line n in a SENSE word. -/
def lineValue (w : Word) (n : Nat) : Nat := bits w (2 * n + 1) (2 * n)

/-- R154: a SENSE word as one bit for each line; none when a value is neither 0 nor 1. -/
def lineBits (w : Word) : Option (BitVec 8) :=
  if (List.range 8).all (fun n => lineValue w n ≤ 1) then
    some ((List.range 8).foldl (fun v n => if lineValue w n = 1 then v ||| BitVec.twoPow 8 n else v) 0)
  else none

/-- SENSE; none when a value is malformed. -/
def SenseSettings.ofWords (ws : List Word) : Option SenseSettings :=
  match lineBits (wordAt ws 0), lineBits (wordAt ws 1) with
  | some watch, some normalHigh => some { watch, normalHigh }
  | _, _ => none

/-- R178 step 3: the values of a source; none when one is malformed. -/
def Section.ofWords (n : Nat) (ws : List Word) : Option Section :=
  match n with
  | 1 => some (.rates (Rates.ofWords ws))
  | 2 => some (.curves (Curves.ofWords ws))
  | 3 => (SupplySettings.ofWords ws).map .supply
  | 4 => some (.timers (Timers.ofWords ws))
  | 5 => (SenseSettings.ofWords ws).map .sense
  | _ => none

/-! ### Clamping (R178 step 4) -/

/-- R128, R145. -/
def SupplySettings.clamped (x : SupplySettings) : SupplySettings :=
  { x with lowPermille := min 1000 x.lowPermille, writeBack := clamp 1 255 x.writeBack, retryLimit := min 7 x.retryLimit }

/-- R178. -/
def Timers.clamped (t : Timers) : Timers :=
  { sessionIdle := clamp 10 3600 t.sessionIdle, holdIdle := clamp 5 600 t.holdIdle,
    failureLimit := clamp 1 15 t.failureLimit, lockoutPeriod := min 65535 t.lockoutPeriod,
    heldSlotTime := clamp 1 4320 t.heldSlotTime }

/-- The values in effect. -/
def Section.clamped : Section → Section
  | .rates r => .rates r.clamped
  | .curves c => .curves c.clamped
  | .supply x => .supply x.clamped
  | .timers t => .timers t.clamped
  | .sense x => .sense x

/-- The settings area with a section replaced. -/
def Settings.put (set : Settings) : Section → Settings
  | .rates r => { set with rates := r }
  | .curves c => { set with curves := c }
  | .supply x => { set with supply := x }
  | .timers t => { set with timers := t }
  | .sense x => { set with sense := x }

/-! ### The words reported -/

/-- A number as a word. -/
def word32 (n : Nat) : Word := BitVec.ofNat 32 n

/-- Three rates. -/
def SizeRates.words (r : SizeRates) : List Word := [word32 r.a, word32 r.b, word32 r.c]

/-- A tier table; tier 3 has no bound and reports 0 (R44). -/
def TierTable.words (t : TierTable) : List Word :=
  [word32 t.bound0, word32 t.bound1, word32 t.bound2, 0, word32 t.mult0, word32 t.mult1, word32 t.mult2, word32 t.mult3]

/-- The halves of the four curves in their order. -/
def Curves.halves (c : Curves) : List Nat :=
  c.curve.c.toList ++ c.curve.m.toList ++ c.curve.y.toList ++ c.curve.k.toList

/-- A SENSE word. -/
def lineWord (v : BitVec 8) : Word :=
  word32 (((List.range 8).map (fun n => if v.getLsbD n then 4 ^ n else 0)).sum)

/-- The words of a section in effect. -/
def Section.words : Section → List Word
  | .rates r => r.mono.words ++ r.colour.words ++ r.scan.words ++ r.tierMono.words ++ r.tierColour.words
  | .curves c =>
    (List.range 34).map (fun i => word32 (c.halves.getD (2 * i) 0 + c.halves.getD (2 * i + 1) 0 * 2 ^ 16)) ++
      [word32 c.deposit.c, word32 c.deposit.m, word32 c.deposit.y, word32 c.deposit.k, word32 c.floor]
  | .supply x =>
    [word32 (match x.policy with | .strict => 1 | .lenient => 2), word32 x.lowPermille, word32 x.writeBack,
      word32 x.retryLimit]
  | .timers t =>
    [word32 t.sessionIdle, word32 t.holdIdle, word32 t.failureLimit, word32 t.lockoutPeriod, word32 t.heldSlotTime]
  | .sense x => [lineWord x.watch, lineWord x.normalHigh]

/-! ### Effects (R178 step 6) -/

/-- R128: a record under a changed policy. -/
def Cartridge.remapped (c : Cartridge) (old new : Policy) : Cartridge :=
  if old = new then c
  else
    match new with
    | .lenient =>
      if c.auth = .rejected ∧ c.reason = some .badProof then { c with auth := .permitted, reason := none } else c
    | .strict => if c.auth = .permitted then { c with auth := .rejected, reason := some .badProof } else c

/-- R116, R125, R126, R128: one slot under changed SUPPLY settings: its record is remapped, and a record that is then trusted has
its level derived again and wants what R126 gives. The level of any other record stays as it is. The remap itself
makes no list write and requests no RECORD; how that agrees with R128's 'both orders leave the same state' is log 43. -/
def State.resupply (old new : SupplySettings) (s : State) (slot : Nat) : State :=
  let c := (s.cart slot).remapped old.policy new.policy
  match c.values with
  | none => s.changeCart slot c
  | some v =>
    if c.trusted then
      let w := { v with level := levelOfValues new.lowPermille v.capacity v.remaining }
      let s := s.changeCart slot { c with values := some w }
      let s := if w.level ≠ v.level then s.wantRecord slot else s
      if new.writeBack < old.writeBack ∧ new.writeBack ≤ v.sinceWrite then s.wantRecord slot else s
    else s.changeCart slot c

/-- R178 steps 5 and 6: the section is stored with a new check value and comes into effect. -/
def State.putSection (s : State) (x : Section) : State :=
  let old := s.stored.settings
  let wasAbnormal := s.abnormal
  let s := s.store .settings { s.stored with settings := old.put x, settingsOk := true }
  match x with
  | .supply new => supplySlots.foldl (State.resupply old.supply new) s
  | .sense _ => s.senseChange wasAbnormal s.abnormal
  | _ => s

/-- A lane 0 fixed result record; a failed write captures MEMORY_WRITE (R163). -/
def State.writeControlResult (s : State) (address : Nat) (words : List Word) : State :=
  match s.writeWords address words with
  | (s, none) => s
  | (s, some bad) => s.captureMemory .memoryWrite 0 bad

/-- R178: the service of Configure. The rule gives the fault of a failed source read no lane; that it is lane 0, whose ticket this is, is
the model's own (log 30). -/
def configureBody (t : Ticket) (s : State) : State :=
  let n := (t.w 2).toNat
  let source := (t.w 3).toNat
  let result := (t.w 4).toNat
  match sectionLength n with
  | none => s.close 0 .badTicket 0 0
  | some length =>
    if areaOk source = false ∨ areaOk result = false then s.close 0 .badTicket 0 0
    else
      match s.readWords source length with
      | .error bad => (s.captureMemory .memoryRead 0 bad).close 0 .memoryFault 0 0
      | .ok ws =>
        match Section.ofWords n ws with
        | none => s.close 0 .badTicket 0 0
        | some x => ((s.putSection x.clamped).writeControlResult result x.clamped.words).close 0 .ok n 0

/-- CONFIGURE (R178). -/
def execConfigure (env : Env) (s : State) : Host.Outcome State Fault Refusal :=
  command env s (serve .configure 0 configureBody)

end Sys2Proof.Machine
end

