-- ==== Sys2Proof/Machine/DeviceTickets.lean ====
section
/-! DEFINITION. Device Control's tickets and self-tests (spec 11): Status Digest, Clear Faults, Resume Service and the end of
its test, and the periodic known-answer test. -/

namespace Sys2Proof.Machine

/-! ### Status Digest (R179, section 12.4) -/

/-- The low and the high word of a 64-bit meter. -/
def words64 (n : Nat) : List Word := [word32 n, word32 (n / 2 ^ 32)]

/-- Seconds from now to an optional device time, 0 when it is absent. -/
def State.secondsLeft (s : State) (t : Option Nat) : Nat :=
  match t with
  | none => 0
  | some e => e - s.dev.clock

/-- R179: in WITHDRAWN, the seconds since the entry time. -/
def State.sinceEntry (s : State) : Nat :=
  if s.dev.op = .withdrawn then s.dev.clock - s.dev.entryTime.getD 0 else 0

/-- Offset 0. -/
def State.digestHead (s : State) : List Word :=
  [word32 (s.dev.op.code + s.epoch * 2 ^ 8), word32 s.dev.clock, word32 s.sinceEntry, word32 s.dev.startCount]

/-- Offset 16. -/
def State.digestHold (s : State) : List Word :=
  match s.hold with
  | none => [word32 0xFFFF, 0]
  | some e => [word32 (e.owner.field + e.account * 2 ^ 16), word32 (s.dev.clock - e.last)]

/-- Offset 24, one session. -/
def Session.digest (x : Session) : List Word :=
  [word32 (flagBit x.isOpen + x.account * 2 ^ 16), word32 x.opened, word32 x.last]

/-- Offset 120, one job; a FREE entry shows its number and generation (log 18). -/
def Job.digest (j : Job) (i : Nat) : List Word :=
  [ word32 (Handle.field { idx := i, gen := j.gen } + j.state.code * 2 ^ 16 + j.kindCode * 2 ^ 24 +
      flagBit j.printFlight * 2 ^ 28 + flagBit j.scanFlight * 2 ^ 29),
    word32 j.account, word32 j.free, word32 (j.printHold + j.scanHold * 2 ^ 16), j.tag ]

/-- Offset 760, one key slot; its key is no part of it. -/
def State.slotDigest (s : State) (i : Nat) : List Word :=
  let k := s.slot i
  [ word32 (SlotHandle.word { idx := i, gen := k.gen }),
    word32 (k.state.code + k.uses.toNat * 2 ^ 8 + k.owner.getD 0 * 2 ^ 16),
    word32 (handleField k.job + k.page * 2 ^ 16), word32 k.keep, word32 (s.secondsLeft k.expiry) ]

/-- Offset 1400, one cartridge. -/
def Cartridge.digest (c : Cartridge) : Word :=
  word32 (c.auth.code + reasonCode c.reason * 2 ^ 8 + (c.values.elim 0 (fun v => v.level.code)) * 2 ^ 16)

/-- Offset 1420. -/
def State.digestLines (s : State) : Word :=
  word32 (s.abnormal.toNat + flagBit s.engineDeparted * 2 ^ 8 + flagBit s.scannerDeparted * 2 ^ 9 +
    flagBit s.privacyDeparted * 2 ^ 10)

/-- Offset 1464. -/
def FaultRecord.digest (r : FaultRecord) : List Word :=
  match r.first with
  | none => [word32 (0xFF * 2 ^ 8 + r.later * 2 ^ 16), 0, 0, 0, word32 r.again.toNat]
  | some f =>
    [ word32 (f.kind.code + f.lane.getD 0xFF * 2 ^ 8 + r.later * 2 ^ 16 + 2 ^ 24), word32 (f.address.getD 0),
      word32 f.time, word32 f.detail, word32 r.again.toNat ]

/-- The Status Digest record, 371 words. -/
def State.digest (s : State) : List Word :=
  s.digestHead ++ s.digestHold ++ s.sessions.toList.flatMap Session.digest ++
    (List.range 32).flatMap (fun i => (s.job i).digest i) ++ (List.range 32).flatMap s.slotDigest ++
    supplySlots.map (fun n => (s.cart n).digest) ++ [s.digestLines] ++
    [s.stored.meters.mono, s.stored.meters.colour, s.stored.meters.spoiled, s.stored.meters.scanned,
      s.stored.meters.toner].flatMap words64 ++ s.faults.digest

/-- R179: the service of Status Digest. -/
def statusDigestBody (t : Ticket) (s : State) : State :=
  let result := (t.w 2).toNat
  let session := Handle.optOfField (t.w 3)
  if areaOk result = false then s.close 0 .badTicket 0 0
  else if session.isSome ∧ (session.bind s.sessionOf).isNone then s.close 0 .noSession 0 0
  else
    let s := s.touchOptSession session
    (s.writeControlResult result s.digest).close 0 .ok s.dev.clock s.epoch

/-- STATUS_DIGEST (R179). -/
def execStatusDigest (env : Env) (s : State) : Host.Outcome State Fault Refusal :=
  command env s (serve .statusDigest 0 statusDigestBody)

/-! ### Clear Faults (R177) -/

/-- R177: the service of Clear Faults; the record is cleared before the ticket's words are written. -/
def clearFaultsBody (_t : Ticket) (s : State) : State :=
  { s with faults := FaultRecord.cleared }.close 0 .ok (s.faults.first.elim 0 (fun f => f.kind.code)) s.faults.later

/-- CLEAR_FAULTS (R177). -/
def execClearFaults (env : Env) (s : State) : Host.Outcome State Fault Refusal :=
  command env s (serve .clearFaults 0 clearFaultsBody)

/-! ### Resume Service (R175) -/

/-- R175: the seconds since the entry into WITHDRAWN. -/
def State.dwelled (s : State) : Nat := s.dev.clock - s.dev.entryTime.getD 0

/-- R175: the service of Resume Service, up to the start of its known-answer test. The manual does not say whether that test may
begin while the periodic test (R174) still runs; here it begins and both run (log 33). -/
def resumeServiceBody (_t : Ticket) (s : State) : State :=
  if s.dev.op ≠ .withdrawn then s.close 0 .badState 0 1
  else if s.dwelled < Config.dwellSeconds then s.close 0 .dwell 0 (Config.dwellSeconds - s.dwelled)
  else if s.privacyDeparted then s.close 0 .badState 0 2
  else { s with core := { s.core with resumeTest := true } }

/-- RESUME_SERVICE (R175). -/
def execResumeService (env : Env) (s : State) : Host.Outcome State Fault Refusal :=
  command env s (serve .resumeService 0 resumeServiceBody)

/-- R175: the end of Resume Service's test. -/
def State.resumeTestEnds (s : State) (passes : Bool) : State :=
  let s := { s with core := { s.core with resumeTest := false } }
  if passes then
    let s := { s with core := { s.core with count := 0 } }
    if s.privacyDeparted then s.close 0 .badState 0 2
    else { s with dev := { s.dev with op := .running } }.close 0 .ok 0 0
  else (s.capture .cipherCheck none none 2).close 0 .badState 0 3

/-- RESUME_SERVICE_TEST_END (R175). -/
def execResumeServiceTestEnd (env : Env) (passes : Bool) (s : State) : Host.Outcome State Fault Refusal :=
  command env s (fun s => if s.up ∧ s.core.resumeTest then (s.resumeTestEnds passes).pumpCore else s)

/-! ### The periodic self-test (R174) -/

/-- R174: the test is due, and the core is free to run it. The manual does not say whether it may begin while Resume Service's test runs;
that it does not is the model's choice (log 33). -/
def State.selfTestDue (s : State) : Bool :=
  decide (Config.cipherTestBands ≤ s.core.count) && s.core.band.isNone && !s.core.periodicTest && !s.core.resumeTest

/-- PERIODIC_SELF_TEST (R174). -/
def execPeriodicSelfTest (s : State) : Host.Outcome State Fault Refusal :=
  command .calm s (fun s =>
    if s.up ∧ s.selfTestDue then { s with core := { s.core with periodicTest := true } } else s)

/-- R174: the end of the periodic test. -/
def State.selfTestEnds (s : State) (passes : Bool) : State :=
  let s := { s with core := { s.core with periodicTest := false, count := 0 } }
  if passes then s.pumpCore else (s.capture .cipherCheck none none 1).withdraw.pumpCore

/-- PERIODIC_SELF_TEST_END (R174). -/
def execPeriodicSelfTestEnd (env : Env) (passes : Bool) (s : State) : Host.Outcome State Fault Refusal :=
  command env s (fun s => if s.up ∧ s.core.periodicTest then s.selfTestEnds passes else s)

end Sys2Proof.Machine
end

