-- ==== Sys2Proof/Machine/Intake.lean ====
section
/-! DEFINITION. The register window and the fetch (spec 10): Post, Notice, Notice Enable, ignored writes, FETCH. -/

namespace Sys2Proof.Machine

/-- R157: whether a post is dropped. -/
def State.postDropped (s : State) (value : Word) (lane : Fin 4) : Bool :=
  bits value 5 2 ≠ 0 || value.toNat / 64 = 0 || (s.lane lane).queue.length ≥ 8

/-- The lane of a Post word, bits 1..0. -/
def postLane (value : Word) : Fin 4 := ⟨value.toNat % 4, Nat.mod_lt _ (by decide)⟩

/-- R157: a write to Post. -/
def State.takePost (s : State) (value : Word) : State :=
  let lane := postLane value
  if s.postDropped value lane then s.raise (.dropped lane)
  else s.putLane lane { s.lane lane with queue := (s.lane lane).queue ++ [value.toNat / 64 * 64] }

/-- POST (R157); a post while the reset input is asserted, or without power, is lost. -/
def execPost (value : Word) (s : State) : Host.Outcome State Fault Refusal :=
  command .calm s (fun s => if s.alive then s.takePost value else s)

/-- NOTICE_READ (R165): the flags set are returned and exactly those are cleared. -/
def execNoticeRead (s : State) : Host.Outcome State Fault Refusal :=
  command .calm s (fun s => if s.alive then { s with readData := s.notice.setWidth 32, notice := 0 } else s)

/-- NOTICE_ENABLE_WRITE (R166): all enables are replaced. -/
def execNoticeEnableWrite (value : Word) (s : State) : Host.Outcome State Fault Refusal :=
  command .calm s (fun s => if s.alive then { s with enable := value.setWidth 13 } else s)

/-- REGISTER_WRITE_IGNORED (R164, R168): nothing changes. -/
def execRegisterWriteIgnored (_write : IgnoredWrite) (s : State) : Host.Outcome State Fault Refusal :=
  command .calm s (fun s => s)

/-- R159: the detail of a ticket refused at fetch: 1 for an unknown kind, 2 for a kind of another lane or a wrong echo. The manual
gives neither precedence; a ticket with both an unknown kind and a wrong echo gets 1 here (log 37). -/
def Ticket.fetchRefusal (t : Ticket) (lane : Fin 4) : Option Nat :=
  match t.kind with
  | none => some 1
  | some k => if k.lane ≠ lane ∨ t.echo ≠ lane.val then some 2 else none

/-- R156, R159: mark the ticket ACTIVE; if that write fails the ticket leaves service unserved. -/
def State.markActive (s : State) (lane : Fin 4) (t : Ticket) : State :=
  match s.writeWord (t.address + 60) (closingWord 2 0 s.epoch false false) with
  | (s', none) => s'
  | (s', some bad) =>
    (s'.captureMemory .memoryWrite lane.val bad).leaveService lane

/-- R159: the ticket at an address has become the lane's ticket in service; read it and decide. -/
def State.fetchTicket (s : State) (lane : Fin 4) (address : Nat) : State :=
  match s.readWords address 16 with
  | .error bad => (s.captureMemory .memoryRead lane.val bad).leaveService lane
  | .ok words =>
    let t : Ticket := { address, words, begun := false }
    let s := s.putLane lane { s.lane lane with service := some t }
    if bits (t.w 15) 1 0 ≠ 1 then (s.raise .stale).leaveService lane
    else
      match t.fetchRefusal lane with
      | some detail => s.close lane .badTicket 0 detail
      | none => s.markActive lane t

/-- R159: a lane with no ticket in service and a non-empty queue takes the head address. -/
def State.takeFetch (s : State) (lane : Fin 4) : State :=
  match (s.lane lane).service, (s.lane lane).queue with
  | none, address :: rest => (s.putLane lane { s.lane lane with queue := rest }).fetchTicket lane address
  | _, _ => s

/-- FETCH (R159). -/
def execFetch (env : Env) (lane : Fin 4) (s : State) : Host.Outcome State Fault Refusal :=
  command env s (fun s => if s.up then s.takeFetch lane else s)

end Sys2Proof.Machine
end

