-- ==== Sys2Proof/Machine/Link.lean ====
section
/-! DEFINITION. The Supply Link (spec 08): frames and check byte, attempts and retries, the procedures' results (07 R118 to
R127) and the stuck line. -/

namespace Sys2Proof.Machine

/-! ### Frames (R134 to R136, section 12.6) -/

/-- R136: one shift of the check register. -/
def crcShift (r : Byte) : Byte := if r.msb then (r <<< 1) ^^^ 0x07 else r <<< 1

/-- R136: one byte, most significant bit first. -/
def crcByte (r b : Byte) : Byte :=
  crcShift (crcShift (crcShift (crcShift (crcShift (crcShift (crcShift (crcShift (r ^^^ b))))))))

/-- R136: the check byte of a run of bytes. -/
def crc8 (bytes : List Byte) : Byte := bytes.foldl crcByte 0xFF

/-- Section 12.6. -/
def LinkCommand.code : LinkCommand → Nat
  | .identify => 1 | .prove => 2 | .record => 3

/-- Figure 33: response length. -/
def LinkCommand.responseLength : LinkCommand → Nat
  | .identify => 21 | .prove => 16 | .record => 8

/-- A count as four bytes, the least significant first. -/
def countBytes (n : Nat) : List Byte := (List.range 4).map (fun i => BitVec.ofNat 8 (n / 2 ^ (8 * i)))

/-- A 16-byte value, byte 0 first. -/
def bytes16 (v : BitVec 128) : List Byte := (List.range 16).map (fun i => (v >>> (8 * i)).setWidth 8)

/-- A number of bytes, the least significant first. -/
def littleEndian (bytes : List Byte) : Nat := bytes.foldr (fun b n => b.toNat + 256 * n) 0

/-- R134: the request frame of a transaction, the same for every attempt. -/
def Transaction.frame (t : Transaction) : List Byte :=
  let head : List Byte :=
    [BitVec.ofNat 8 t.slot, BitVec.ofNat 8 t.command.code, BitVec.ofNat 8 t.sequence, BitVec.ofNat 8 t.payload.length]
      ++ t.payload
  head ++ [crc8 head]

/-- What a run of bytes taken in RESPONSE amounts to (R135). -/
inductive Taken where
  /-- no complete frame yet -/
  | incomplete
  /-- a payload length field above 32 -/
  | malformed
  /-- a complete frame: address, status, sequence echo, payload, and whether the check byte matches -/
  | frame (address status sequence : Nat) (payload : List Byte) (checkOk : Bool)
deriving DecidableEq, Repr

/-- R135: the frame announced by the payload length field; later bytes are discarded. -/
def takeFrame (bytes : List Byte) : Taken :=
  if bytes.length < 4 then .incomplete
  else
    let n := (bytes.getD 3 0).toNat
    if 32 < n then .malformed
    else if bytes.length < n + 5 then .incomplete
    else
      .frame (bytes.getD 0 0).toNat (bytes.getD 1 0).toNat (bytes.getD 2 0).toNat ((bytes.drop 4).take n)
        (crc8 (bytes.take (n + 4)) = bytes.getD (n + 4) 0)

/-- How an attempt ends (R139). -/
inductive AttemptEnd where
  | fails
  | transactionFails
  | succeeds (payload : List Byte)
deriving DecidableEq, Repr

/-- R139: the examination of a complete frame, in its order. -/
def examine (t : Transaction) (address status sequence : Nat) (payload : List Byte) (checkOk : Bool) : AttemptEnd :=
  if checkOk = false then .fails
  else if address ≠ t.slot then .fails
  else if sequence ≠ t.sequence then .fails
  else if status = 1 then .fails
  else if status = 2 then .transactionFails
  else if status ≠ 0 then .fails
  else if payload.length ≠ t.command.responseLength then .fails
  else .succeeds payload

/-! ### Ends of procedures -/

/-- The running procedure, at the head of the queue. -/
def State.runningProcedure (s : State) : Option Procedure :=
  match s.link.queue with
  | [] => none
  | p :: _ => if p.running then some p else none

/-- Replace the head entry of the queue. -/
def State.putHead (s : State) (p : Procedure) : State :=
  { s with link := { s.link with queue := p :: s.link.queue.tail } }

/-- R130: the end of a CHECK a Check Cartridge waits on; ABSENT or SILENT goes into W13. -/
def State.reportWaiter (s : State) (p : Procedure) : State :=
  if p.waiter then
    match s.checkWait with
    | none => s
    | some w =>
      if (s.cart p.slot).auth = .absent ∨ (s.cart p.slot).auth = .silent then
        { s with checkWait := some { w with failed := w.failed ||| slotBit p.slot } }
      else s
  else s

/-- The link without a transaction; STUCK stays until the line recovers (R144). -/
def Link.released (l : Link) : Link :=
  { l with state := if l.state = .stuck then .stuck else .idle, transaction := none, frame := [] }

/-- R142: the procedure at the head ends and leaves the queue; its waiter is reported. -/
def State.endProcedure (s : State) (p : Procedure) : State :=
  let s := s.reportWaiter p
  { s with link := { s.link.released with queue := s.link.queue.tail } }

/-- R133, R137, R144: a new transaction takes the slot's next sequence number, 1 above the one before it (R138), and waits in
SETTLING. -/
def State.beginTransaction (s : State) (slot : Nat) (command : LinkCommand) (payload : List Byte) : State :=
  let n := (entryAt s.link.sequence (slot - 1) 0 + 1) % 16
  { s with link := { s.link with
      state := .settling, sequence := putAt s.link.sequence (slot - 1) n, frame := [],
      transaction := some { slot, command, sequence := n, payload, retries := 0, discarded := false } } }

/-! ### Results (R119 to R121, R127) -/

/-- Figure 33, section 12.6: the IDENTIFY response payload. -/
def Identity.ofPayload (b : List Byte) : Identity :=
  { id := BitVec.ofNat 64 (littleEndian (b.take 8)), kind := (b.getD 8 0).toNat,
    capacity := littleEndian ((b.drop 9).take 4), remaining := littleEndian ((b.drop 13).take 4),
    useCount := littleEndian ((b.drop 17).take 4) }

/-- R121: the values a CHECK adopts. -/
def adoptedValues (permille : Nat) (x : Identity) (known : Option KnownCartridge) : CartridgeValues :=
  let remaining :=
    match known with
    | none => min x.remaining x.capacity
    | some e => min (min x.remaining e.remaining) x.capacity
  let useCount :=
    match known with
    | none => x.useCount
    | some e => max x.useCount e.useCount
  { capacity := x.capacity, remaining, level := levelOfValues permille x.capacity remaining, useCount, sinceWrite := 0 }

/-- R119: no response to IDENTIFY. -/
def State.checkAbsent (s : State) (p : Procedure) : State :=
  (s.changeCart p.slot { s.cart p.slot with
    auth := .absent, reason := none, id := none, kind := none, values := none, unproven := false }).endProcedure p

/-- R119: a kind other than the slot's. -/
def State.checkWrongKind (s : State) (p : Procedure) (x : Identity) : State :=
  (s.changeCart p.slot { s.cart p.slot with
    auth := .rejected, reason := some .wrongKind, id := some x.id, kind := some x.kind, values := none }).endProcedure p

/-- R119: the slot's kind: PROVE is sent with the nonce. -/
def State.checkProve (s : State) (p : Procedure) (x : Identity) : State :=
  let p := { p with identity := some x, phase := some .prove }
  (s.putHead p).beginTransaction p.slot .prove (bytes16 (p.nonce.getD 0))

/-- R120: no response to PROVE. -/
def State.checkSilent (s : State) (p : Procedure) (x : Identity) : State :=
  (s.changeCart p.slot { s.cart p.slot with
    auth := .silent, reason := none, id := some x.id, kind := some x.kind, values := none }).endProcedure p

/-- R120, R121: a proof that does or does not match; a trusted result takes a list write and, after the procedure's end, wants
a RECORD when the adopted values are below the chip's. A policy change before the result decides it here, one after it remaps the
record alone; what R128's 'same state' is then taken to name is log 43. -/
def State.checkProved (s : State) (p : Procedure) (x : Identity) (matched : Bool) : State :=
  let set := s.stored.settings.supply
  let v := adoptedValues set.lowPermille x (s.knownEntry x.id)
  let auth : AuthState := if matched then .verified else if set.policy = .lenient then .permitted else .rejected
  let reason : Option RejectReason := if auth = .rejected then some .badProof else none
  let s := s.changeCart p.slot
    { auth, reason, id := some x.id, kind := some x.kind, values := some v, unproven := !matched, recordOwed := false }
  if auth = .rejected then s.endProcedure p
  else
    let s := (s.listWrite p.slot).endProcedure p
    if v.remaining < x.remaining ∨ x.useCount < v.useCount then s.wantRecord p.slot else s

/-- R127: a RECORD's end: RECORD-owed is cleared, and acted on for a record left trusted (R126). -/
def State.recordEnds (s : State) (p : Procedure) : State :=
  let owed := (s.cart p.slot).recordOwed
  let s := (s.putCart p.slot { s.cart p.slot with recordOwed := false }).endProcedure p
  if owed then s.wantRecord p.slot else s

/-- R127: the response to RECORD: the smaller remaining, the larger use count, of the current and the returned. -/
def State.recordAnswered (s : State) (p : Procedure) (remaining useCount : Nat) : State :=
  let permille := s.stored.settings.supply.lowPermille
  match (s.cart p.slot).values with
  | none => s.recordEnds p
  | some v =>
    let r := min v.remaining remaining
    let w := { v with
      remaining := r, level := levelOfValues permille v.capacity r, useCount := max v.useCount useCount, sinceWrite := 0 }
    let s := s.changeCart p.slot { s.cart p.slot with values := some w }
    let s := if w.level ≠ v.level then s.wantRecord p.slot else s
    let s := if (s.cart p.slot).trusted then s.listWrite p.slot else s
    s.recordEnds p

/-- R127: no response to RECORD: a trusted record takes a list write and becomes SILENT. -/
def State.recordUnanswered (s : State) (p : Procedure) : State :=
  let s :=
    if (s.cart p.slot).trusted then
      let s := s.listWrite p.slot
      s.changeCart p.slot { s.cart p.slot with auth := .silent, reason := none, values := none }
    else s
  s.recordEnds p

/-- R119, R120, R127, R140: the running procedure takes its transaction's result, a payload or no response. -/
def State.transactionEnds (s : State) (sequence : Nat) (result : Option (List Byte)) : State :=
  match s.runningProcedure with
  | none => { s with link := s.link.released }
  | some p =>
    match p.kind with
    | .record =>
      match result with
      | none => s.recordUnanswered p
      | some b => s.recordAnswered p (littleEndian (b.take 4)) (littleEndian ((b.drop 4).take 4))
    | .check =>
      match p.phase, p.identity with
      | some .prove, some x =>
        match result with
        | none => s.checkSilent p x
        | some b =>
          s.checkProved p x
            (decide (Config.expectedProof (p.nonce.getD 0) x.id x.capacity x.remaining x.useCount sequence =
              BitVec.ofNat 128 (littleEndian b)))
      | _, _ =>
        match result with
        | none => s.checkAbsent p
        | some b =>
          let x := Identity.ofPayload b
          if x.kind = p.slot then s.checkProve p x else s.checkWrongKind p x

/-! ### Attempts (R133, R139, R140) -/

/-- R140, R143: the end of an attempt. -/
def State.attemptEnds (s : State) (t : Transaction) (e : AttemptEnd) : State :=
  if t.discarded then { s with link := s.link.released }
  else
    match e with
    | .succeeds payload => s.transactionEnds t.sequence (some payload)
    | .transactionFails => s.transactionEnds t.sequence none
    | .fails =>
      if t.retries < s.stored.settings.supply.retryLimit then
        { s with link := { s.link with
            state := .settling, frame := [], transaction := some { t with retries := t.retries + 1 } } }
      else s.transactionEnds t.sequence none

/-- A link command: its effect, then the end of a Check Cartridge's wait (R130) and of a print wait at check 9 (R66). A part that
is held or starting takes none of it: a reset has abandoned the tickets that waited (R156, R160). The manual gives no order where one
CHECK's end does both; that the Check Cartridge closes before the print pass is renewed is the model's choice (log 39). -/
def linkCommand (env : Env) (s : State) (effect : State → State) : Host.Outcome State Fault Refusal :=
  command env s (fun s => if s.up then s.renewPrintOnSupply (effect s).endCheckWait else s)

/-- An attempt in RESPONSE ends. -/
def State.responseEnds (s : State) (e : Transaction → Option AttemptEnd) : State :=
  match s.link.state, s.link.transaction with
  | .response, some t =>
    match e t with
    | none => s
    | some r => s.attemptEnds t r
  | _, _ => s

/-- R135, R139: what a run of bytes does to the attempt; none while no frame is complete. -/
def attemptOf (bytes : List Byte) (t : Transaction) : Option AttemptEnd :=
  match takeFrame bytes with
  | .incomplete => none
  | .malformed => some .fails
  | .frame address status sequence payload checkOk => some (examine t address status sequence payload checkOk)

/-! ### Starting a procedure (R118, R127, R142) -/

/-- R118: a CHECK starts; it begins with IDENTIFY, as a chip relies on (R138). -/
def State.startCheck (s : State) (p : Procedure) : State :=
  let s := if (s.cart p.slot).trusted then s.listWrite p.slot else s
  let s := s.changeCart p.slot { s.cart p.slot with auth := .checking, recordOwed := false }
  let p := { p with running := true, nonce := some (Config.randomSource.nonce s.draws), phase := some .identify }
  let s := { s with draws := s.draws + 1 }
  let s := s.putHead p
  let s := { s with link := { s.link with
    queue := s.link.queue.filter (fun q => q.slot ≠ p.slot || q.kind ≠ ProcedureKind.record) } }
  if s.link.state = .stuck then s.checkAbsent p else s.beginTransaction p.slot .identify []

/-- R127: a RECORD starts; one of a record that is not trusted ends without a transaction, so a chip is sent none before a CHECK
has made its record trusted (R138). -/
def State.startRecord (s : State) (p : Procedure) : State :=
  let c := s.cart p.slot
  if c.trusted then
    let r := (c.values.map (·.remaining)).getD 0
    let u := (c.values.map (·.useCount)).getD 0
    let p := { p with running := true, captured := some (r, u) }
    let s := s.putHead p
    if s.link.state = .stuck then s.recordUnanswered p
    else s.beginTransaction p.slot .record (countBytes r ++ countBytes u)
  else (s.putHead { p with running := true }).endProcedure p

/-- R142, R144: with the controller IDLE or STUCK and nothing on the wire, the QUEUED head procedure starts. -/
def State.startProcedure (s : State) : State :=
  if (s.link.state = .idle ∨ s.link.state = .stuck) ∧ s.link.transaction = none then
    match s.link.queue with
    | [] => s
    | p :: _ =>
      if p.running then s
      else
        match p.kind with
        | .check => s.startCheck p
        | .record => s.startRecord p
  else s

/-- R145: the link controller runs in RUNNING and WITHDRAWN. -/
def State.linkRuns (s : State) : Bool := s.dev.op = .running || s.dev.op = .withdrawn

/-! ### The link's commands -/

/-- PROCEDURE_START (R142). -/
def execProcedureStart (env : Env) (s : State) : Host.Outcome State Fault Refusal :=
  linkCommand env s (fun s => if s.linkRuns then s.startProcedure else s)

/-- ATTEMPT_SEND (R133): the line is quiet, and the request frame goes out. -/
def execAttemptSend (s : State) : Host.Outcome State Fault Refusal :=
  command .calm s (fun s =>
    match s.link.state, s.link.transaction with
    | .settling, some t => if s.up then { s with link := { s.link with state := .request, frame := t.frame } } else s
    | _, _ => s)

/-- REQUEST_FRAME_DONE (R133): the request's last byte has gone. -/
def execRequestFrameDone (s : State) : Host.Outcome State Fault Refusal :=
  command .calm s (fun s =>
    if s.up ∧ s.link.state = .request then { s with link := { s.link with state := .response, frame := [] } } else s)

/-- QUIET_WAIT_TIMEOUT (R133): the attempt fails without its frame being sent. -/
def execQuietWaitTimeout (env : Env) (s : State) : Host.Outcome State Fault Refusal :=
  linkCommand env s (fun s =>
    match s.link.state, s.link.transaction with
    | .settling, some t => s.attemptEnds t .fails
    | _, _ => s)

/-- RESPONSE_FRAME (R135, R139): bytes taken at or before the deadline. -/
def execResponseFrame (env : Env) (bytes : List Byte) (s : State) : Host.Outcome State Fault Refusal :=
  linkCommand env s (fun s => s.responseEnds (attemptOf bytes))

/-- RESPONSE_DEADLINE (R139). -/
def execResponseDeadline (env : Env) (s : State) : Host.Outcome State Fault Refusal :=
  linkCommand env s (fun s => s.responseEnds (fun _ => some .fails))

/-- R144: the slot of the queue head, 0 when the queue is empty. -/
def State.queueHeadSlot (s : State) : Nat :=
  match s.link.queue with
  | [] => 0
  | p :: _ => p.slot

/-- R144: the line has been low 10 ms outside a transaction: LINK_LINE, STUCK, and a transaction waiting in SETTLING fails as
no response. -/
def State.lineStuck (s : State) : State :=
  if s.link.state = .idle ∨ s.link.state = .settling then
    let t := s.link.transaction
    let s := s.capture .linkLine none none s.queueHeadSlot
    let s := { s with link := { s.link with state := .stuck, transaction := none, frame := [] } }
    match t with
    | none => s
    | some t => s.transactionEnds t.sequence none
  else s

/-- LINK_LINE (R144). -/
def execLinkLine (env : Env) (s : State) : Host.Outcome State Fault Refusal :=
  linkCommand env s State.lineStuck

/-- LINK_LINE_RECOVERED (R144). -/
def execLinkLineRecovered (s : State) : Host.Outcome State Fault Refusal :=
  command .calm s (fun s =>
    if s.up ∧ s.link.state = .stuck then { s with link := { s.link with state := .idle } } else s)

end Sys2Proof.Machine
end

