-- ==== Sys2Proof/Machine/PrintEvents.lean ====
section
/-! DEFINITION. The commands of the print path and the cipher core (spec 04, 05 R84): Print Impression, the completion of a
band read, the completion of a band in the core, the engine's demands and outcomes. -/

namespace Sys2Proof.Machine

/-! ### Print Impression (R59 to R65) -/

/-- R60, R61: the refusal's W14 for arguments and a band table; none when the ticket is accepted. -/
def printFault (args : Option PrintArgs) (raw : List RawBand) : Option Nat :=
  match args with
  | none => some 65535
  | some a =>
    match raw.findIdx? (RawBand.faulty a) with
    | some i => some i
    | none => coverageFault a (raw.map RawBand.entry)

/-- R59 to R65: the service of Print Impression. All six words of every entry of the band list are read, as R59 says, also of a
plaintext entry, where section 12.3 says of words 4 and 5 that they are read when the cipher flag is set (log 34). A list that
cannot be read closes the ticket after its service has begun, which is activity (R17). -/
def printImpressionBody (t : Ticket) (s : State) : State :=
  let job := Handle.ofField (t.w 2)
  let list := (t.w 6).toNat
  let count := (t.w 7).toNat
  if count < 1 ∨ 256 < count ∨ list % 4 ≠ 0 then s.close 2 .badTicket 0 65535
  else
    match s.readWords list (6 * count) with
    | .error bad => ((s.touchJob job).captureMemory .memoryRead 2 bad).close 2 .memoryFault 0 65535
    | .ok ws =>
      let raw := (listEntries ws 6 count).map RawBand.ofWords
      let args := PrintArgs.ofTicket t
      match printFault args raw with
      | some i => s.close 2 .badTicket 0 i
      | none => { s with print := { s.print with args, table := raw.map RawBand.entry } }.printAdmit

/-- PRINT_IMPRESSION (R59 to R65). -/
def execPrintImpression (env : Env) (s : State) : Host.Outcome State Fault Refusal :=
  command env s (serve .printImpression 0 printImpressionBody)

/-! ### Bands (R67, R68) -/

/-- A band of the impression in flight waits for the core or is in it. -/
def State.atCore (s : State) (i : Nat) : Bool :=
  s.core.printQueue.contains i ||
    (match s.core.band with
     | none => false
     | some b => b.path = CipherPath.print && !b.orphan && b.idx = i)

/-- R67, R68: the read of a band's data has ended. The bytes and the failing addresses are those at this moment, not at the read's
beginning: the model's choice (log 40). -/
def State.bandRead (s : State) (a : PrintArgs) (i : Nat) (e : BandEntry) : State :=
  match s.readBytes e.address e.length with
  | .error bad => (s.captureMemory .memoryRead 2 bad).bandFails i .memory
  | .ok data =>
    if e.enciphered then
      if s.keyGranted e.slot a.job .print then
        { s with print := { s.print with table := s.print.table.set i { e with data } } }.presentPrint i
      else s.bandFails i .cipher
    else s.bandReady i e data

/-- R67: the completion of the read of band table entry i, if it is being read for the impression in flight. -/
def State.takeBandRead (s : State) (i : Nat) : State :=
  if s.print.state = .preparing ∨ s.print.state = .imaging then
    match s.print.args, s.print.table[i]? with
    | some a, some e => if e.cond = .reading ∧ s.atCore i = false then (s.bandRead a i e).pumpCore else s
    | _, _ => s
  else s

/-- BAND_READ_DONE (R67). -/
def execBandReadDone (env : Env) (entry : Nat) (s : State) : Host.Outcome State Fault Refusal :=
  command env s (fun s => if s.up then s.takeBandRead entry else s)

/-- R68: the core has deciphered a band of the impression in flight. -/
def State.printBandCiphered (s : State) (i : Nat) : State :=
  match s.print.table[i]? with
  | none => s
  | some e =>
    match decipherBand (s.slotKey e.slot) (nonceOf e.slot e.page e.index) e.data with
    | none => s.bandFails i .cipher
    | some plain => s.bandReady i e plain

/-- R84, R174: the band in the core ends and is counted; the core is free, and the band's path takes its output unless its
work has ended. -/
def State.coreBandEnds (s : State) (b : CoreBand) : State :=
  let s := { s with core := { s.core with band := none, count := s.core.count + 1 } }
  let s :=
    if b.orphan then s
    else
      match b.path with
      | .print => s.printBandCiphered b.idx
      | .scan =>
        match s.scan.args with
        | none => s
        | some a => s.scanBandCiphered b.idx a
  s.pumpCore

/-- CIPHER_BAND_DONE (R68, R84, R90, R97, R99). -/
def execCipherBandDone (env : Env) (s : State) : Host.Outcome State Fault Refusal :=
  command env s (fun s =>
    match s.core.band with
    | none => s
    | some b => if s.up then s.coreBandEnds b else s)

/-! ### The engine port (R71 to R73) -/

/-- The event kinds of ENGINE_PROTOCOL's detail word (Figure 56). -/
inductive EngineEvent where
  | demand | delivered | spoiled
deriving DecidableEq, Repr

/-- Figure 56. -/
def EngineEvent.code : EngineEvent → Nat
  | .demand => 1 | .delivered => 2 | .spoiled => 3

/-- R71: capture ENGINE_PROTOCOL with the number and the event kind. -/
def State.engineProtocol (s : State) (number : Nat) (e : EngineEvent) : State :=
  s.capture .engineProtocol none none (number + e.code * 2 ^ 8)

/-- R71: the number of the impression in flight past imaging start. -/
def State.inFlightNumber (s : State) : Option Nat :=
  if s.print.state = .imaging ∨ s.print.state = .imaged then some s.print.number else none

/-- R71: an engine event by its number: the impression's own is handled, the retired one discarded, any other captured. The rule gives
no precedence for a number that is both; that it is handled as the impression's own is the model's choice (log 38). -/
def State.engineEvent (s : State) (number : Nat) (e : EngineEvent) (own : State → State) : State :=
  if s.inFlightNumber = some number then own s
  else if s.print.retired = some number then s
  else s.engineProtocol number e

/-- The band table index of the band that holds a line of a plane. -/
def bandAt (table : List BandEntry) (p : Plane) (line : Nat) : Option Nat :=
  table.findIdx? (fun e => e.plane = p && decide (e.first ≤ line ∧ line < e.first + e.lines))

/-- Line `line` of a READY band, of `n` bytes (R184). -/
def BandEntry.lineBytes (e : BandEntry) (line n : Nat) : List Byte := (e.data.drop ((line - e.first) * n)).take n

/-- R72: every line of the plane set has been sent. -/
def allSent (a : PrintArgs) (position : PerPlane Nat) : Bool :=
  (planeSet a.colour).all (fun p => a.lines ≤ position.get p)

/-- R67: a band whose last line has gone is SENT, and the plane's next band begins to be read. -/
def tableAfterLine (table : List BandEntry) (i : Nat) (e : BandEntry) (line : Nat) : List BandEntry :=
  if line + 1 = e.first + e.lines then beginRead e.plane (table.set i { e with cond := .sent, data := [] }) else table

/-- R72: send the line at a plane's send position. -/
def State.sendLine (s : State) (a : PrintArgs) (curve : Curve) (p : Plane) (i : Nat) (e : BandEntry) : State :=
  let line := s.print.position.get p
  let bytes := e.lineBytes line (printLineBytes a.pixels a.bpp)
  let position := s.print.position.set p (line + 1)
  { s with
    engineOut := s.engineOut ++ [EngineMessage.line s.print.number p line bytes]
    print := { s.print with
      sums := s.print.sums.set p (s.print.sums.get p + lineWeight curve a.bpp a.pixels bytes)
      counts := s.print.counts.set p (s.print.counts.get p + 1)
      position
      table := tableAfterLine s.print.table i e line
      state := if allSent a position then .imaged else s.print.state } }

/-- R71, R72: a demand carrying the number of the impression in flight. -/
def State.takeDemand (s : State) (p : Plane) : State :=
  match s.print.args, s.print.capture with
  | some a, some cap =>
    if p ∉ planeSet a.colour ∨ a.lines ≤ s.print.position.get p then s.engineProtocol s.print.number .demand
    else
      match bandAt s.print.table p (s.print.position.get p) with
      | none => (s.spoil .underrun).pumpCore
      | some i =>
        match s.print.table[i]? with
        | none => (s.spoil .underrun).pumpCore
        | some e => if e.cond = .ready then s.sendLine a (cap.curves.curve.get p) p i e else (s.spoil .underrun).pumpCore
  | _, _ => s

/-- ENGINE_DEMAND (R71, R72). -/
def execEngineDemand (env : Env) (number : BitVec 8) (plane : Plane) (s : State) : Host.Outcome State Fault Refusal :=
  command env s (fun s =>
    if s.alive then s.engineEvent number.toNat .demand (fun s => s.takeDemand plane) else s)

/-- R73: an outcome carrying the number of the impression in flight. -/
def State.takeOutcome (s : State) (delivered : Bool) : State :=
  if delivered then
    if s.print.state = .imaged then s.settlePrint .delivered .none .ok 0
    else (s.engineProtocol s.print.number .delivered).spoil .protocol
  else s.settlePrint .spoiled .jam .spoiled PrintCause.jam.code

/-- ENGINE_OUTCOME (R71, R73). -/
def execEngineOutcome (env : Env) (number : BitVec 8) (delivered : Bool) (s : State) : Host.Outcome State Fault Refusal :=
  command env s (fun s =>
    if s.alive then
      s.engineEvent number.toNat (if delivered then .delivered else .spoiled) (fun s => (s.takeOutcome delivered).pumpCore)
    else s)

end Sys2Proof.Machine
end

