-- ==== Sys2Proof/Machine/ScanEvents.lean ====
section
/-! DEFINITION. The commands of the scan path (spec 05): Scan Page, the scanner port, the completion of band writes, Encipher
Bands, Decipher Bands and the completion of source reads. -/

namespace Sys2Proof.Machine

/-! ### Scan Page (R85 to R88) -/

/-- Bytes per pixel of a format, 1 GRAY, 2 RGB (Figure 21). -/
def bytesPerPixel (format : Nat) : Option Nat :=
  match format with
  | 1 => some 1
  | 2 => some 3
  | _ => none

/-- R85: the arguments of the ticket, less the buffer list; none when one is faulty. -/
def ScanArgs.ofTicket (t : Ticket) : Option ScanArgs :=
  match SizeClass.ofCode (bits (t.w 4) 7 0), bytesPerPixel (bits (t.w 4) 15 8) with
  | some size, some n =>
    let pixels := (t.w 5).toNat
    let maxLines := (t.w 6).toNat
    let bandLines := (t.w 7).toNat
    let records := (t.w 10).toNat
    if 1 ≤ pixels ∧ pixels ≤ 8192 ∧ 1 ≤ maxLines ∧ maxLines ≤ 16384 ∧ 16 ≤ bandLines ∧ bandLines ≤ 256 ∧
        bandLines % 16 = 0 ∧ areaOk records then
      some { job := Handle.ofField (t.w 2), slot := SlotHandle.ofWord (t.w 3), size, lineBytes := n * pixels, maxLines,
             bandLines, records }
    else none
  | _, _ => none

/-- Figure 51: a buffer or destination. -/
def Destination.ofWords (ws : List Word) : Destination :=
  { address := (wordAt ws 0).toNat, capacity := (wordAt ws 1).toNat }

/-- Figure 51: a source. -/
def Source.ofWords (ws : List Word) : Source :=
  { address := (wordAt ws 0).toNat, length := (wordAt ws 1).toNat, extra := (wordAt ws 2).toNat }

/-- R85: W14 of a validation refusal; none when the ticket is accepted. -/
def scanFault (args : Option ScanArgs) (buffers : List Destination) : Option Nat :=
  match args with
  | none => some 65535
  | some a => buffers.findIdx? (fun b => decide (b.capacity < a.bandLines * a.lineBytes + 16))

/-- R85 to R88: the service of Scan Page. A list that cannot be read closes the ticket after its service has begun, which is
activity (R17). -/
def scanPageBody (t : Ticket) (s : State) : State :=
  let job := Handle.ofField (t.w 2)
  let list := (t.w 8).toNat
  let count := (t.w 9).toNat
  if count < 1 ∨ 64 < count ∨ areaOk list = false then s.close 1 .badTicket 65535 65535
  else
    match s.readWords list (2 * count) with
    | .error bad => ((s.touchJob job).captureMemory .memoryRead 1 bad).close 1 .memoryFault 65535 0
    | .ok ws =>
      let buffers := (listEntries ws 2 count).map Destination.ofWords
      let args := ScanArgs.ofTicket t
      match scanFault args buffers with
      | some i => s.close 1 .badTicket 65535 i
      | none => { s with scan := { ScanPath.reset with drain := s.scan.drain, work := .page, args, buffers } }.scanAdmit

/-- SCAN_PAGE (R85 to R88). -/
def execScanPage (env : Env) (s : State) : Host.Outcome State Fault Refusal :=
  command env s (serve .scanPage 0 scanPageBody)

/-! ### The scanner port (R89, R92 to R94) -/

/-- A page is in flight to which scanner events still belong: not failed, its page end not taken. -/
def State.takesScanner (s : State) : Bool :=
  s.scan.state = .scanning && s.scan.failed.isNone && !s.scan.pageEnd

/-- R89: a line. With the drain mark set, or with no page to take it, it is discarded. -/
def State.scannerLine (s : State) (bytes : List Byte) : State :=
  match s.scan.args with
  | none => s
  | some a => if s.scan.drain = false ∧ s.takesScanner then (s.takeLine a bytes).pumpCore else s

/-- R92, R94: a page end. -/
def State.scannerPageEnd (s : State) : State :=
  if s.scan.drain then s.clearDrain
  else
    match s.scan.args with
    | none => s
    | some a => if s.takesScanner then (s.takePageEnd a).pumpCore else s

/-- R93, R94: an error report. -/
def State.scannerError (s : State) : State :=
  if s.scan.drain then s.clearDrain else if s.takesScanner then (s.failPage .scanFault true).pumpCore else s

/-- SCANNER_LINE (R89). -/
def execScannerLine (env : Env) (bytes : List Byte) (s : State) : Host.Outcome State Fault Refusal :=
  command env s (fun s => if s.alive then s.scannerLine bytes else s)

/-- SCANNER_PAGE_END (R92, R94). -/
def execScannerPageEnd (env : Env) (s : State) : Host.Outcome State Fault Refusal :=
  command env s (fun s => if s.alive then s.scannerPageEnd else s)

/-- SCANNER_ERROR (R93, R94). -/
def execScannerError (env : Env) (s : State) : Host.Outcome State Fault Refusal :=
  command env s (fun s => if s.alive then s.scannerError else s)

/-- BAND_WRITE_DONE (R90, R97, R99). -/
def execBandWriteDone (env : Env) (s : State) : Host.Outcome State Fault Refusal :=
  command env s (fun s => if s.up then s.writeDone.pumpCore else s)

/-! ### Encipher Bands and Decipher Bands (R96, R98) -/

/-- The lists of a cipher ticket: band count and list addresses in range, or W14 = 65535. -/
def cipherListsOk (count sources destinations : Nat) : Bool :=
  decide (1 ≤ count ∧ count ≤ 64) && areaOk sources && areaOk destinations

/-- R96, R98: read the source and the destination list. -/
def State.readCipherLists (s : State) (count sources destinations : Nat) :
    Except Nat (List Source × List Destination) :=
  match s.readWords sources (3 * count) with
  | .error bad => .error bad
  | .ok ws =>
    match s.readWords destinations (2 * count) with
    | .error bad => .error bad
    | .ok ds => .ok ((listEntries ws 3 count).map Source.ofWords, (listEntries ds 2 count).map Destination.ofWords)

/-- R96: a faulty pair of Encipher Bands. -/
def encipherFaulty (x : Source × Destination) : Bool :=
  decide (x.1.length < 1 ∨ 6291456 < x.1.length ∨ x.1.extra < 1 ∨ 256 < x.1.extra ∨ x.2.capacity < x.1.length + 16)

/-- R98: a faulty pair of Decipher Bands. -/
def decipherFaulty (x : Source × Destination) : Bool :=
  decide (x.1.length < 17 ∨ 6291472 < x.1.length ∨ 65535 < x.1.extra ∨ x.2.capacity < x.1.length - 16)

/-- The arguments of a cipher ticket; the fields of a page are unused. -/
def ScanArgs.ofCipherTicket (t : Ticket) (records : Nat) : ScanArgs :=
  { job := Handle.ofField (t.w 2), slot := SlotHandle.ofWord (t.w 3), size := .a, lineBytes := 0, maxLines := 0,
    bandLines := 0, records }

/-- R96 and R98, checks 1 to 3, the account having been read. -/
def State.cipherRefusal (s : State) (a : ScanArgs) (u : KeyUse) : Option Refused :=
  firstRefusal [s.accountRefusal (s.jobAccount a.job), refuseIf (!s.keyGranted a.slot a.job u) .badSlot]

/-- R97, R99: the scan path enters CIPHERING and begins to read. -/
def State.beginCipher (s : State) (work : ScanWork) (a : ScanArgs) (page : Nat) (sources : List Source)
    (buffers : List Destination) : State :=
  { s with scan := { ScanPath.reset with
      state := .ciphering, work, args := some a, page, sources, buffers, drain := s.scan.drain } }.startSourceRead

/-- R96: the checks on records and the start of Encipher Bands. -/
def State.admitEncipher (s : State) (a : ScanArgs) (sources : List Source) (buffers : List Destination) : State :=
  let s := s.touchJob a.job
  match s.jobRefusal a.job false with
  | some r => s.refuse 1 r 65535
  | none =>
    let s := s.readAccount (s.jobAccount a.job)
    match firstRefusal [s.cipherRefusal a .encipher, refuseIf ((s.slot a.slot.idx).page ≥ 65535) .slotExhausted] with
    | some r => s.refuse 1 r 65535
    | none =>
      let r := s.takePageNumber a.slot
      r.1.beginCipher .encipher a r.2 sources buffers

/-- R96: the service of Encipher Bands; R17 as for Scan Page. Where the band record list address and an entry are both faulty, R96 does not
say which of the two W14 names; that it is the address, 65535, is the model's choice (log 45). -/
def encipherBandsBody (t : Ticket) (s : State) : State :=
  let job := Handle.ofField (t.w 2)
  let count := (t.w 5).toNat
  if cipherListsOk count (t.w 6).toNat (t.w 7).toNat = false then s.close 1 .badTicket 65535 65535
  else
    match s.readCipherLists count (t.w 6).toNat (t.w 7).toNat with
    | .error bad => ((s.touchJob job).captureMemory .memoryRead 1 bad).close 1 .memoryFault 65535 0
    | .ok (sources, buffers) =>
      if areaOk (t.w 8).toNat = false then s.close 1 .badTicket 65535 65535
      else
        match (sources.zip buffers).findIdx? encipherFaulty with
        | some i => s.close 1 .badTicket 65535 i
        | none => s.admitEncipher (ScanArgs.ofCipherTicket t (t.w 8).toNat) sources buffers

/-- ENCIPHER_BANDS (R96). -/
def execEncipherBands (env : Env) (s : State) : Host.Outcome State Fault Refusal :=
  command env s (serve .encipherBands 65535 encipherBandsBody)

/-- R98: the checks on records and the start of Decipher Bands. -/
def State.admitDecipher (s : State) (a : ScanArgs) (page : Nat) (sources : List Source) (buffers : List Destination) :
    State :=
  let s := s.touchJob a.job
  match s.jobRefusal a.job false with
  | some r => s.refuse 1 r
  | none =>
    let s := s.readAccount (s.jobAccount a.job)
    match firstRefusal [s.cipherRefusal a .decipher, refuseIf (!s.authorised a.job a.slot) .notPermitted] with
    | some r => s.refuse 1 r
    | none => s.beginCipher .decipher a page sources buffers

/-- R98: the service of Decipher Bands; R17 as for Scan Page. Where the page number and an entry are both faulty, R98 does not say which of
the two W14 names; that it is the page number, 65535, is the model's choice (log 45). -/
def decipherBandsBody (t : Ticket) (s : State) : State :=
  let job := Handle.ofField (t.w 2)
  let count := (t.w 5).toNat
  let page := (t.w 4).toNat
  if cipherListsOk count (t.w 6).toNat (t.w 7).toNat = false then s.close 1 .badTicket 0 65535
  else
    match s.readCipherLists count (t.w 6).toNat (t.w 7).toNat with
    | .error bad => ((s.touchJob job).captureMemory .memoryRead 1 bad).close 1 .memoryFault 0 0
    | .ok (sources, buffers) =>
      if 65535 < page then s.close 1 .badTicket 0 65535
      else
        match (sources.zip buffers).findIdx? decipherFaulty with
        | some i => s.close 1 .badTicket 0 i
        | none => s.admitDecipher (ScanArgs.ofCipherTicket t 0) page sources buffers

/-- DECIPHER_BANDS (R98). -/
def execDecipherBands (env : Env) (s : State) : Host.Outcome State Fault Refusal :=
  command env s (serve .decipherBands 0 decipherBandsBody)

/-- R97, R99: the source read under way has ended. -/
def State.takeSourceRead (s : State) : State :=
  match s.scan.args, s.bufferIn .filling with
  | some a, some i =>
    if s.scan.state = .ciphering ∧ s.scan.failed = none then (s.sourceRead i a).pumpCore else s
  | _, _ => s

/-- SOURCE_READ_DONE (R97, R99). -/
def execSourceReadDone (env : Env) (s : State) : Host.Outcome State Fault Refusal :=
  command env s (fun s => if s.up then s.takeSourceRead else s)

end Sys2Proof.Machine
end

