-- ==== Sys2Proof/Machine/JobTickets.lean ====
section
/-! DEFINITION. Job and engine hold tickets (spec 02): Open Job, Resume Job, End Job, Take Hold, Release Hold, and the
engine hold's idle expiry. -/

namespace Sys2Proof.Machine

/-! ### Open Job (R23, R24) -/

/-- Open Job's arguments (Figure 49). -/
structure OpenJobArgs where
  account : Nat
  session : Option Handle
  kind : JobKind
  tag : Word
  units : Nat
deriving DecidableEq, Repr

/-- R23 check 1; none when the ticket is malformed. -/
def OpenJobArgs.ofTicket (t : Ticket) : Option OpenJobArgs :=
  match JobKind.ofCode (bits (t.w 3) 23 16) with
  | none => none
  | some kind =>
    if 511 < (t.w 2).toNat then none
    else
      some { account := (t.w 2).toNat, session := Handle.optOfField (t.w 3), kind, tag := t.w 4, units := (t.w 5).toNat }

/-- The account of the open session a handle refers to. -/
def State.sessionAccount (s : State) (h : Handle) : Option Nat := (s.sessionOf h).map (fun e => (s.session e).account)

/-- R23: the named handle refers to an open session of the account. -/
def State.ownSession (s : State) (h : Option Handle) (n : Nat) : Bool :=
  match h with
  | none => false
  | some h => s.sessionAccount h = some n

/-- R23: the lowest FREE job entry. -/
def State.freeEntry (s : State) : Option Nat := lowest s.jobs (fun j => j.state = .free)

/-- R23 checks 2 to 8, after the account has been read. -/
def State.openJobRefusal (s : State) (a : OpenJobArgs) : Option Refused :=
  firstRefusal
    [ refuseIf (s.seen a.account = .vacant) .noAccount,
      s.accountRefusal a.account,
      refuseIf (s.needsSession a.account && !s.ownSession a.session a.account) .notPermitted,
      refuseIf (a.session.isSome && !s.ownSession a.session a.account) .noSession,
      refuseIf (a.kind ≠ .print && !s.mayScan a.account) .notPermitted,
      refuseIf s.freeEntry.isNone .noJob ]

/-- R24: the entry taken, OPEN with its grant as free reservation. -/
def OpenJobArgs.job (a : OpenJobArgs) (gen grant : Nat) : Job :=
  { Job.freed gen with
    state := .opened, kind := a.kind, account := a.account, session := a.session, tag := a.tag, free := grant }

/-- R24: take an entry and grant. -/
def State.openJobEntry (s : State) (a : OpenJobArgs) (i : Nat) : State :=
  let grant := grantOf a.units (s.available a.account)
  let gen := (s.job i).gen
  (((s.putJob i (a.job gen grant)).addReserved a.account grant)).close 0 .ok grant (Handle.field { idx := i, gen })

/-- R23, R24: the service of Open Job. -/
def openJobBody (t : Ticket) (s : State) : State :=
  match OpenJobArgs.ofTicket t with
  | none => s.close 0 .badTicket 0 0
  | some a =>
    let s := (s.touchOptSession a.session).readAccount a.account
    match s.openJobRefusal a with
    | some r => s.refuse 0 r
    | none =>
      match s.freeEntry with
      | none => s.close 0 .noJob 0 0
      | some i => s.openJobEntry a i

/-- OPEN_JOB (R23, R24). -/
def execOpenJob (env : Env) (s : State) : Host.Outcome State Fault Refusal :=
  command env s (serve .openJob 0 openJobBody)

/-! ### Resume Job (R32) -/

/-- R32: the grant, reduced so that the free reservation stays within 32 bits. -/
def State.resumeGrant (s : State) (j : Job) (units : Nat) : Nat :=
  min (grantOf units (s.available j.account)) (2 ^ 32 - 1 - j.free)

/-- R32: the service of Resume Job. -/
def resumeJobBody (t : Ticket) (s : State) : State :=
  let h := Handle.ofField (t.w 2)
  let s := s.touchJob h
  match s.jobOf h, s.jobRefusal h false with
  | none, _ => s.close 0 .noJob 0 0
  | some _, some r => s.refuse 0 r
  | some i, none =>
    let s := s.readAccount (s.job i).account
    match s.accountRefusal (s.job i).account with
    | some r => s.refuse 0 r
    | none =>
      let j := s.job i
      let grant := s.resumeGrant j (t.w 3).toNat
      ((s.putJob i { j with state := .opened, free := j.free + grant }).addReserved j.account grant).close 0 .ok grant
        (j.free + grant)

/-- RESUME_JOB (R32). -/
def execResumeJob (env : Env) (s : State) : Host.Outcome State Fault Refusal :=
  command env s (serve .resumeJob 0 resumeJobBody)

/-! ### End Job (R33, R34) -/

/-- R33, R34: the service of End Job. -/
def endJobBody (t : Ticket) (s : State) : State :=
  let h := Handle.ofField (t.w 2)
  let s := s.touchJob h
  match s.jobOf h, s.jobRefusal h false with
  | none, _ => s.close 0 .noJob 0 0
  | some _, some r => s.refuse 0 r
  | some i, none =>
    let j := s.job i
    let r := s.endJobEntry i
    (r.1.close 0 (if r.2 then .ok else .deferred) j.total j.charged r.2).pumpCore

/-- END_JOB (R33, R34). -/
def execEndJob (env : Env) (s : State) : Host.Outcome State Fault Refusal :=
  command env s (serve .endJob 0 endJobBody)

/-! ### The engine hold (R38 to R40) -/

/-- R38: the service of Take Hold; its check 4 names no W14, which R161 then makes 0. -/
def takeHoldBody (t : Ticket) (s : State) : State :=
  let h := Handle.ofField (t.w 2)
  let s := s.touchJob h
  match firstRefusal [s.jobRefusal h true, refuseIf (s.jobKind h = .scan) .notPermitted] with
  | some r => s.refuse 0 r
  | none =>
    let n := s.jobAccount h
    let s := s.readAccount n
    match firstRefusal [s.accountCheck n 0, s.heldByOther h] with
    | some r => s.refuse 0 r
    | none =>
      let taken := flagBit s.hold.isNone
      { s with hold := some { owner := h, account := n, last := s.dev.clock } }.close 0 .ok taken 0

/-- TAKE_HOLD (R38). -/
def execTakeHold (env : Env) (s : State) : Host.Outcome State Fault Refusal :=
  command env s (serve .takeHold 0 takeHoldBody)

/-- R39: the service of Release Hold. -/
def releaseHoldBody (t : Ticket) (s : State) : State :=
  let h := Handle.ofField (t.w 2)
  let s := s.touchJob h
  match firstRefusal [s.jobRefusal h false, s.heldByOther h] with
  | some r => s.refuse 0 r
  | none => { s with hold := none }.close 0 .ok (flagBit s.hold.isSome) 0

/-- RELEASE_HOLD (R39). -/
def execReleaseHold (env : Env) (s : State) : Host.Outcome State Fault Refusal :=
  command env s (serve .releaseHold 0 releaseHoldBody)

/-- R40: the idle expiry of the engine hold is due. -/
def State.holdExpired (s : State) : Bool :=
  match s.hold with
  | none => false
  | some e => !s.holdInFlight e && decide (s.stored.settings.timers.holdIdle ≤ s.dev.clock - e.last)

/-- ENGINE_HOLD_IDLE_EXPIRY (R40). -/
def execEngineHoldIdleExpiry (env : Env) (s : State) : Host.Outcome State Fault Refusal :=
  command env s (fun s => if s.up ∧ s.holdExpired then { s with hold := none }.raise .timer else s)

end Sys2Proof.Machine
end

