-- ==== Sys2Proof/Machine/SlotTickets.lean ====
section
/-! DEFINITION. Key slot tickets (spec 06): Open Slot, Keep Slot, Attach Slot, Destroy Slot, and the held slot expiry. -/

namespace Sys2Proof.Machine

/-- R104 check 4, R109 check 6: the job's attached list already holds 4 slots. -/
def State.listFull (s : State) (h : Handle) : Option Refused := refuseIf ((s.job h.idx).slots.length ≥ 4) .noSlot 1

/-- A slot handle joins the end of a job's attached list. -/
def State.appendSlot (s : State) (i : Nat) (h : SlotHandle) : State :=
  s.putJob i { s.job i with slots := (s.job i).slots ++ [h] }

/-! ### Open Slot (R104) -/

/-- R104: the lowest FREE slot. -/
def State.freeSlot (s : State) : Option Nat := lowest s.slots (fun k => k.state = .free)

/-- R104: the slot opened, with the key of the next draw. -/
def State.openSlotEntry (s : State) (i : Nat) (job : Handle) (uses : BitVec 4) (keep : Bool) : State :=
  let gen := (s.slot i).gen
  let h : SlotHandle := { idx := i, gen }
  let minutes := if keep then s.stored.settings.timers.heldSlotTime else 0
  let s := s.putSlot i
    { state := .live, gen, owner := some (s.jobAccount job), job := some job, uses, page := 0, keep := minutes,
      expiry := none, key := some (Config.randomSource.key s.draws) }
  let s := { s with draws := s.draws + 1 }
  (s.appendSlot job.idx h).close 0 .ok h.word minutes

/-- R104: the service of Open Slot. -/
def openSlotBody (t : Ticket) (s : State) : State :=
  let uses := BitVec.ofNat 4 (bits (t.w 3) 3 0)
  let keep := bits (t.w 3) 9 8
  if uses = 0 ∨ 1 < keep then s.close 0 .badTicket 0 0
  else
    let h := Handle.ofField (t.w 2)
    let s := s.touchJob h
    match s.jobRefusal h true with
    | some r => s.refuse 0 r
    | none =>
      let n := s.jobAccount h
      let s := s.readAccount n
      match firstRefusal [s.accountRefusal n, s.listFull h] with
      | some r => s.refuse 0 r
      | none =>
        match s.freeSlot with
        | none => s.close 0 .noSlot 0 2
        | some i => s.openSlotEntry i h uses (keep = 1)

/-- OPEN_SLOT (R104). -/
def execOpenSlot (env : Env) (s : State) : Host.Outcome State Fault Refusal :=
  command env s (serve .openSlot 0 openSlotBody)

/-! ### Keep Slot (R107) -/

/-- R107 check 2: the handle refers to a LIVE slot attached to the job. -/
def State.attachedTo (s : State) (h : SlotHandle) (job : Handle) : Bool :=
  (s.slotOf h).isSome && (s.slot h.idx).state = .live && (s.slot h.idx).job = some job

/-- R107: the service of Keep Slot. -/
def keepSlotBody (t : Ticket) (s : State) : State :=
  let h := SlotHandle.ofWord (t.w 2)
  let job := Handle.ofField (t.w 3)
  let s := s.touchJob job
  match firstRefusal [s.jobRefusal job false, refuseIf (!s.attachedTo h job) .badSlot] with
  | some r => s.refuse 0 r
  | none =>
    let minutes := min 4320 (bits (t.w 4) 15 0)
    (s.putSlot h.idx { s.slot h.idx with keep := minutes }).close 0 .ok minutes 0

/-- KEEP_SLOT (R107). -/
def execKeepSlot (env : Env) (s : State) : Host.Outcome State Fault Refusal :=
  command env s (serve .keepSlot 0 keepSlotBody)

/-! ### Attach Slot (R109) -/

/-- R109 check 3, R112 check 4: the session is open and of the slot's owner. -/
def State.sessionRefusal (s : State) (session : Handle) (h : SlotHandle) : Option Refused :=
  match s.sessionAccount session with
  | none => some { code := .noSession, w14 := 0 }
  | some n => refuseIf ((s.slot h.idx).owner ≠ some n) .notPermitted

/-- R109 check 4, R112 check 3: the job's account is the slot's owner. -/
def State.ownerRefusal (s : State) (job : Handle) (h : SlotHandle) : Option Refused :=
  refuseIf ((s.slot h.idx).owner ≠ some (s.jobAccount job)) .notPermitted

/-- R109: the slot HELD becomes LIVE with the job. The rule puts the uses in W14 and gives no bits; that they stand in bits 3..0 as in
Open Slot's W3 (SCAN 0, ENCIPHER 1, DECIPHER 2, PRINT 3) is the model's choice (log 42). -/
def State.attachSlotEntry (s : State) (h : SlotHandle) (job : Handle) : State :=
  let k := s.slot h.idx
  let s := s.putSlot h.idx { k with state := .live, job := some job, expiry := none, keep := 0 }
  (s.appendSlot job.idx h).close 0 .ok k.page k.uses.toNat

/-- R109: the service of Attach Slot. -/
def attachSlotBody (t : Ticket) (s : State) : State :=
  let h := SlotHandle.ofWord (t.w 2)
  let job := Handle.ofField (t.w 3)
  let session := Handle.ofField (t.w 4)
  let s := (s.touchJob job).touchSession session
  match firstRefusal
      [ s.jobRefusal job true,
        refuseIf ((s.slotOf h).isNone || (s.slot h.idx).state = .live) .badSlot,
        s.sessionRefusal session h,
        s.ownerRefusal job h ] with
  | some r => s.refuse 0 r
  | none =>
    let n := s.jobAccount job
    let s := s.readAccount n
    match firstRefusal [s.accountRefusal n, s.listFull job] with
    | some r => s.refuse 0 r
    | none => s.attachSlotEntry h job

/-- ATTACH_SLOT (R109). -/
def execAttachSlot (env : Env) (s : State) : Host.Outcome State Fault Refusal :=
  command env s (serve .attachSlot 0 attachSlotBody)

/-! ### Destroy Slot (R112) and the held expiry (R110) -/

/-- R112 checks 2 to 4. -/
def State.destroyRefusal (s : State) (h : SlotHandle) (job session : Option Handle) : Option Refused :=
  firstRefusal
    [ refuseIf (s.slotOf h).isNone .badSlot,
      match job with
      | none => none
      | some j => firstRefusal [s.jobRefusal j false, s.ownerRefusal j h],
      match session with
      | none => none
      | some e => s.sessionRefusal e h ]

/-- R112: the service of Destroy Slot. No rule orders its closing and that of a ticket whose work the destruction ends; the ended
work's ticket is closed first here (log 47). -/
def destroySlotBody (t : Ticket) (s : State) : State :=
  let h := SlotHandle.ofWord (t.w 2)
  let job := Handle.optOfField (t.w 3)
  let session := Handle.optOfField (t.w 4)
  if job.isSome = session.isSome then s.close 0 .badTicket 0 0
  else
    let s :=
      match job with
      | none => s.touchOptSession session
      | some j => s.touchJob j
    match s.destroyRefusal h job session with
    | some r => s.refuse 0 r
    | none =>
      let k := s.slot h.idx
      ((s.destroySlot h.idx).close 0 .ok k.state.code k.page).pumpCore

/-- DESTROY_SLOT (R112). -/
def execDestroySlot (env : Env) (s : State) : Host.Outcome State Fault Refusal :=
  command env s (serve .destroySlot 0 destroySlotBody)

/-- R110: the expiry of a HELD slot has been reached. -/
def State.slotExpired (s : State) (i : Nat) : Bool :=
  (s.slot i).state = .held &&
    (match (s.slot i).expiry with
     | none => false
     | some e => decide (e ≤ s.dev.clock))

/-- HELD_SLOT_EXPIRY (R110). -/
def execHeldSlotExpiry (env : Env) (slot : Nat) (s : State) : Host.Outcome State Fault Refusal :=
  command env s (fun s => if s.up ∧ s.slotExpired slot then ((s.destroySlot slot).raise .timer).pumpCore else s)

end Sys2Proof.Machine
end

