-- ==== Sys2Proof/Machine/Start.lean ====
section
/-! DEFINITION. Starts and resets (spec 11 R171, R181, R182), the end of a start, and a loss of power (01 R1). -/

namespace Sys2Proof.Machine

/-! ### Ends of work at a reset -/

/-- R82: the abort a reset signals to the engine for an impression in IMAGING or IMAGED. -/
def State.resetAbort (s : State) : List EngineMessage :=
  if s.print.state = .imaging ∨ s.print.state = .imaged then [EngineMessage.abort s.print.number] else []

/-- R171 step 1: all volatile state takes its value after reset; the stored areas, the fault capture record, the shared DRAM,
the draws of the random source, the taken levels (renewed in step 7) and the model's own fields stay. R101, R168: a band or record whose
write is under way is abandoned; that none of that write's bytes stand in memory is the model's choice (log 41). -/
def State.volatileReset (s : State) (cause : StartCause) : State :=
  { State.reset with
    dev := { State.reset.dev with cause }
    faults := s.faults, stored := s.stored, engineOut := s.resetAbort, draws := s.draws, levels := s.levels,
    readData := s.readData, mem := s.mem, env := s.env, shadow := s.shadow, shadowMem := s.shadowMem,
    pending := s.pending }

/-! ### The steps of a start (R171) -/

/-- Mark the start as stopping. -/
def State.markStopping (s : State) : State := { s with dev := { s.dev with stopping := true } }

/-- Step 2: advance the start count and store it with a new check value; every word of this start carries its epoch (R156). -/
def State.startCounts (s : State) : State :=
  let n := (s.stored.startCount + 1) % 2 ^ 32
  { s.store .startCount { s.stored with startCount := n, startCountOk := true } with dev := { s.dev with startCount := n } }

/-- Step 3: the known-answer test. -/
def State.startTest (s : State) (passes : Bool) : State :=
  if passes then s else (s.capture .cipherCheck none none 0).markStopping

/-- Step 4: the meter area, and the start count as step 2 read it. -/
def State.startMeters (s : State) (countOk : Bool) : State :=
  let s := if s.stored.metersOk then s else (s.capture .storeMeters none none 1).markStopping
  if countOk then s else (s.capture .storeMeters none none 2).markStopping

/-- Step 5: the settings area. -/
def State.startSettings (s : State) : State :=
  if s.stored.settingsOk then s
  else
    { s.store .settings { s.stored with settings := .factory, settingsOk := true } with
      dev := { s.dev with defaulted := true } }.capture .storeSettings none none 0

/-- Step 6: the known-cartridge list (R132). -/
def State.startList (s : State) : State :=
  if s.stored.knownOk then s else (s.writeKnown []).capture .storeList none none 0

/-- Step 7, R13: one account's state is read, and a LOCKED one gets its lockout end on the clock that starts from 0. -/
def State.startAccount (s : State) (n : Nat) : State :=
  let s := s.readAccount n
  if s.seen n = .locked then
    let period := s.stored.settings.timers.lockoutPeriod
    s.putAcct n { s.acct n with lockoutEnd := if period = 0 then none else some period }
  else s

/-- Step 7: lockout ends, and the sense lines' levels (R155). R13 and R171 give no order for the accounts' reads; that they are read in
ascending order, which decides whose failing record is captured first, is the model's choice (log 44). -/
def State.startLines (s : State) (levels : BitVec 8) : State :=
  { (List.range' 1 511).foldl State.startAccount s with levels }

/-- R171 steps 1 to 7, in order. -/
def State.start (s : State) (cause : StartCause) (x : StartInputs) : State :=
  let countOk := s.stored.startCountOk
  (((((((s.volatileReset cause).startCounts).startTest x.testPasses).startMeters countOk).startSettings).startList).startLines
    x.levels)

/-- R181: the fault capture record is cleared before a start with cause POWER. -/
def State.powerStart (s : State) (x : StartInputs) : State := { s with faults := FaultRecord.cleared }.start .power x

/-! ### Commands -/

/-- POWER_ON (R181). -/
def execPowerOn (env : Env) (x : StartInputs) (s : State) : Host.Outcome State Fault Refusal :=
  command env s (fun s => s.powerStart x)

/-- R181: the part is held; the engine is told to abort (R82), the Supply Link is released (R146), and with its procedures a
waiting Check Cartridge is abandoned (R160). What else takes its value after reset does so at the release (log 29). -/
def State.holdReset (s : State) : State :=
  { s with nrst := true, engineOut := s.resetAbort, print := .reset, link := .reset, checkWait := none }

/-- RESET_INPUT_ASSERT (R181). -/
def execResetInputAssert (s : State) : Host.Outcome State Fault Refusal :=
  command .calm s (fun s => if s.power then s.holdReset else s)

/-- RESET_INPUT_RELEASE (R181). -/
def execResetInputRelease (env : Env) (x : StartInputs) (s : State) : Host.Outcome State Fault Refusal :=
  command env s (fun s => if s.power ∧ s.nrst then s.powerStart x else s)

/-- RESTART (R168, R182); a write whose restart field does not hold 1 changes nothing. -/
def execRestart (env : Env) (value : Word) (x : StartInputs) (s : State) : Host.Outcome State Fault Refusal :=
  command env s (fun s => if s.alive ∧ bits value 3 0 = 1 then s.start .restart x else s)

/-- R171 step 8: into RUNNING with the CHECKs of R132 and, with PRIVACY departed, the withdrawal; or into STOPPED. -/
def State.endStart (s : State) : State :=
  if s.dev.stopping then { s with dev := { s.dev with op := .stopped, clock := 0 } }
  else
    let s := { s with dev := { s.dev with op := .running, clock := 0 } }
    let s := supplySlots.foldl (fun s n => s.requestCheck n false) s
    if s.privacyDeparted then s.withdraw else s

/-- START_END (R171). -/
def execStartEnd (env : Env) (s : State) : Host.Outcome State Fault Refusal :=
  command env s (fun s => if s.alive ∧ s.dev.op = .starting then s.endStart else s)

/-- R1, R9, R122, R178, R180: the stored areas and the DRAM as they stood after so many of the last command's durable writes: before
its own effect, right after that write, or, with fewer made, when it was complete (log 1). -/
def State.heldAfter (s : State) : Nat → Stored × Memory
  | 0 => (s.shadow, s.shadowMem)
  | n + 1 => (s.afterWrites[n]?).getD (s.stored, s.mem)

/-- LOSS_OF_POWER (R1): the part stops and all volatile state is lost. The loss comes at one moment of the last command, or after it, so
of that command's writes a first part, in their order, is in the stored areas and the rest is not (log 1). -/
def State.losePower (s : State) (writes : Nat) : State :=
  { State.reset with
    power := false
    stored := (s.heldAfter writes).1
    mem := (s.heldAfter writes).2
    draws := s.draws, levels := s.levels, readData := s.readData, env := s.env, shadow := s.shadow,
    shadowMem := s.shadowMem, pending := s.pending }

/-- LOSS_OF_POWER (R1). -/
def execLossOfPower (writes : Nat) (s : State) : Host.Outcome State Fault Refusal :=
  .next (if s.power then s.losePower writes else s)

end Sys2Proof.Machine
end

