-- ==== Sys2Proof/Machine/SupplyTickets.lean ====
section
/-! DEFINITION. Lane 3's tickets (spec 07 R130, R131): Check Cartridge and Read Cartridges. -/

namespace Sys2Proof.Machine

/-- The slots a mask names, bit 0 for slot 1. -/
def slotsOfMask (mask : Nat) : List Nat := supplySlots.filter (fun n => mask.testBit (n - 1))

/-- R130: one named slot: counted as not checked behind an abnormal door line, else a CHECK with the waiter mark. -/
def State.checkFor (s : State) (slot : Nat) : State :=
  if s.lineAbnormal (doorLine slot) then s.countNotChecked slot else s.requestCheck slot true

/-- R130, R163: the service of Check Cartridge. -/
def checkCartridgeBody (t : Ticket) (s : State) : State :=
  let mask := bits (t.w 2) 7 0
  let result := (t.w 3).toNat
  if mask = 0 ∨ 31 < mask ∨ areaOk result = false then s.close 3 .badTicket 0 0
  else
    let s := { s with checkWait := some { failed := 0, notChecked := 0, result, capacity := (t.w 4).toNat } }
    ((slotsOfMask mask).foldl State.checkFor s).endCheckWait

/-- CHECK_CARTRIDGE (R130). -/
def execCheckCartridge (env : Env) (s : State) : Host.Outcome State Fault Refusal :=
  command env s (serve .checkCartridge 0 checkCartridgeBody)

/-- R131: the five records, then the list from the front. -/
def State.cartridgeEntries (s : State) : List (List Word) :=
  supplySlots.map s.cartEntry ++ s.stored.known.map knownEntryWords

/-- R131: the service of Read Cartridges. -/
def readCartridgesBody (t : Ticket) (s : State) : State :=
  let result := (t.w 2).toNat
  let capacity := (t.w 3).toNat
  if areaOk result = false then s.close 3 .badTicket 0 0
  else
    let entries := s.cartridgeEntries
    let listed := s.stored.known.length
    let r := s.writeEntries 3 result (entries.take capacity)
    r.1.close 3 .ok r.2.1 listed false (r.2.2 || decide (capacity < entries.length))

/-- READ_CARTRIDGES (R131). -/
def execReadCartridges (env : Env) (s : State) : Host.Outcome State Fault Refusal :=
  command env s (serve .readCartridges 0 readCartridgesBody)

end Sys2Proof.Machine
end

