-- ==== Sys2Proof/Machine/Dispatch.lean ====
section
/-! DEFINITION. The meaning of every command: one arm per constructor of `Instr`, each one call of its meaning. -/

namespace Sys2Proof.Machine

def exec (i : Instr) (s : State) : Host.Outcome State Fault Refusal :=
  match i with
  | .powerOn env start => Sys2Proof.Machine.execPowerOn env start s
  | .resetInputAssert => Sys2Proof.Machine.execResetInputAssert s
  | .resetInputRelease env start => Sys2Proof.Machine.execResetInputRelease env start s
  | .restart env value start => Sys2Proof.Machine.execRestart env value start s
  | .startEnd env => Sys2Proof.Machine.execStartEnd env s
  | .post value => Sys2Proof.Machine.execPost value s
  | .noticeRead => Sys2Proof.Machine.execNoticeRead s
  | .noticeEnableWrite value => Sys2Proof.Machine.execNoticeEnableWrite value s
  | .registerWriteIgnored write => Sys2Proof.Machine.execRegisterWriteIgnored write s
  | .fetch env lane => Sys2Proof.Machine.execFetch env lane s
  | .setAccount env => Sys2Proof.Machine.execSetAccount env s
  | .readAccounts env => Sys2Proof.Machine.execReadAccounts env s
  | .resetPeriod env => Sys2Proof.Machine.execResetPeriod env s
  | .openSession env => Sys2Proof.Machine.execOpenSession env s
  | .closeSession env => Sys2Proof.Machine.execCloseSession env s
  | .sessionIdleExpiry env entry => Sys2Proof.Machine.execSessionIdleExpiry env entry s
  | .lockoutExpiry env account => Sys2Proof.Machine.execLockoutExpiry env account s
  | .openJob env => Sys2Proof.Machine.execOpenJob env s
  | .resumeJob env => Sys2Proof.Machine.execResumeJob env s
  | .endJob env => Sys2Proof.Machine.execEndJob env s
  | .takeHold env => Sys2Proof.Machine.execTakeHold env s
  | .releaseHold env => Sys2Proof.Machine.execReleaseHold env s
  | .engineHoldIdleExpiry env => Sys2Proof.Machine.execEngineHoldIdleExpiry env s
  | .openSlot env => Sys2Proof.Machine.execOpenSlot env s
  | .keepSlot env => Sys2Proof.Machine.execKeepSlot env s
  | .attachSlot env => Sys2Proof.Machine.execAttachSlot env s
  | .destroySlot env => Sys2Proof.Machine.execDestroySlot env s
  | .heldSlotExpiry env slot => Sys2Proof.Machine.execHeldSlotExpiry env slot s
  | .configure env => Sys2Proof.Machine.execConfigure env s
  | .statusDigest env => Sys2Proof.Machine.execStatusDigest env s
  | .clearFaults env => Sys2Proof.Machine.execClearFaults env s
  | .resumeService env => Sys2Proof.Machine.execResumeService env s
  | .resumeServiceTestEnd env passes => Sys2Proof.Machine.execResumeServiceTestEnd env passes s
  | .printImpression env => Sys2Proof.Machine.execPrintImpression env s
  | .bandReadDone env entry => Sys2Proof.Machine.execBandReadDone env entry s
  | .cipherBandDone env => Sys2Proof.Machine.execCipherBandDone env s
  | .engineDemand env number plane => Sys2Proof.Machine.execEngineDemand env number plane s
  | .engineOutcome env number delivered => Sys2Proof.Machine.execEngineOutcome env number delivered s
  | .scanPage env => Sys2Proof.Machine.execScanPage env s
  | .scannerLine env bytes => Sys2Proof.Machine.execScannerLine env bytes s
  | .scannerPageEnd env => Sys2Proof.Machine.execScannerPageEnd env s
  | .scannerError env => Sys2Proof.Machine.execScannerError env s
  | .bandWriteDone env => Sys2Proof.Machine.execBandWriteDone env s
  | .encipherBands env => Sys2Proof.Machine.execEncipherBands env s
  | .decipherBands env => Sys2Proof.Machine.execDecipherBands env s
  | .sourceReadDone env => Sys2Proof.Machine.execSourceReadDone env s
  | .periodicSelfTest => Sys2Proof.Machine.execPeriodicSelfTest s
  | .periodicSelfTestEnd env passes => Sys2Proof.Machine.execPeriodicSelfTestEnd env passes s
  | .senseLineEdge env line high => Sys2Proof.Machine.execSenseLineEdge env line high s
  | .checkCartridge env => Sys2Proof.Machine.execCheckCartridge env s
  | .readCartridges env => Sys2Proof.Machine.execReadCartridges env s
  | .procedureStart env => Sys2Proof.Machine.execProcedureStart env s
  | .attemptSend => Sys2Proof.Machine.execAttemptSend s
  | .requestFrameDone => Sys2Proof.Machine.execRequestFrameDone s
  | .quietWaitTimeout env => Sys2Proof.Machine.execQuietWaitTimeout env s
  | .responseFrame env bytes => Sys2Proof.Machine.execResponseFrame env bytes s
  | .responseDeadline env => Sys2Proof.Machine.execResponseDeadline env s
  | .linkLine env => Sys2Proof.Machine.execLinkLine env s
  | .linkLineRecovered => Sys2Proof.Machine.execLinkLineRecovered s
  | .lossOfPower writes => Sys2Proof.Machine.execLossOfPower writes s

end Sys2Proof.Machine
end

