-- ==== Sys2Proof/Machine/Chip.lean ====
section
/-! DEFINITION. The chip of a cartridge as the part relies on it (spec 08 R138). A chip is outside the part and no piece of
State: it is defined for the statements about the transactions the part holds with it (log 35). -/

namespace Sys2Proof.Machine

/-- The last answered sequence, and the stored response with its command. -/
structure Answered where
  sequence : Nat
  command : LinkCommand
  payload : List Byte
deriving DecidableEq, Repr

/-- What a chip holds: the values IDENTIFY reports, and what it answered last. -/
structure Chip where
  slot : Nat
  identity : Identity
  last : Option Answered
deriving DecidableEq, Repr

/-- Section 12.6. -/
def LinkCommand.ofCode (n : Nat) : Option LinkCommand :=
  match n with
  | 1 => some .identify
  | 2 => some .prove
  | 3 => some .record
  | _ => none

/-- The eight bytes of an ID, byte 0 first. -/
def idBytes (v : BitVec 64) : List Byte := (List.range 8).map (fun i => (v >>> (8 * i)).setWidth 8)

/-- Section 12.6: the IDENTIFY response payload. -/
def Identity.payload (x : Identity) : List Byte :=
  idBytes x.id ++ [BitVec.ofNat 8 x.kind] ++ countBytes x.capacity ++ countBytes x.remaining ++ countBytes x.useCount

/-- R127: a chip that acts on RECORD keeps the smaller remaining and the larger use count. -/
def Identity.recorded (x : Identity) (remaining useCount : Nat) : Identity :=
  { x with remaining := min x.remaining remaining, useCount := max x.useCount useCount }

/-- R120: the proof of a genuine chip. -/
def Identity.proof (x : Identity) (nonce : BitVec 128) (sequence : Nat) : BitVec 128 :=
  Config.expectedProof nonce x.id x.capacity x.remaining x.useCount sequence

/-- R138: a request with a correct check byte, acted on: what the chip holds after it, and the payload of its answer. -/
def Chip.act (c : Chip) (command : LinkCommand) (sequence : Nat) (payload : List Byte) : Identity × List Byte :=
  match command with
  | .identify => (c.identity, c.identity.payload)
  | .prove => (c.identity, bytes16 (c.identity.proof (BitVec.ofNat 128 (littleEndian payload)) sequence))
  | .record =>
    let x := c.identity.recorded (littleEndian (payload.take 4)) (littleEndian ((payload.drop 4).take 4))
    (x, countBytes x.remaining ++ countBytes x.useCount)

/-- R138: the stored response of a PROVE or RECORD that the chip has answered already. -/
def Chip.stored (c : Chip) (command : LinkCommand) (sequence : Nat) : Option (List Byte) :=
  match c.last with
  | none => none
  | some a => if command ≠ .identify ∧ a.sequence = sequence ∧ a.command = command then some a.payload else none

/-- R138: a request with a correct check byte. A repeat is answered with the stored response and is not acted on. -/
def Chip.answer (c : Chip) (command : LinkCommand) (sequence : Nat) (payload : List Byte) : Chip × List Byte :=
  match c.stored command sequence with
  | some p => (c, p)
  | none =>
    let r := c.act command sequence payload
    ({ c with identity := r.1, last := some { sequence, command, payload := r.2 } }, r.2)

/-- The frame of an answer (section 12.6). -/
def Chip.response (c : Chip) (status sequence : Nat) (payload : List Byte) : List Byte :=
  let head : List Byte :=
    [BitVec.ofNat 8 c.slot, BitVec.ofNat 8 status, BitVec.ofNat 8 sequence, BitVec.ofNat 8 payload.length] ++ payload
  head ++ [crc8 head]

/-- R136, R138: a frame on the line. The chip speaks only to a frame of its own slot; a wrong check byte is answered BAD_CHECK, a
command it does not have BAD_COMMAND, and neither changes what it holds. -/
def Chip.receive (c : Chip) (bytes : List Byte) : Chip × Option (List Byte) :=
  match takeFrame bytes with
  | .frame address command sequence payload checkOk =>
    if address ≠ c.slot then (c, none)
    else if checkOk = false then (c, some (c.response 1 sequence []))
    else
      match LinkCommand.ofCode command with
      | none => (c, some (c.response 2 sequence []))
      | some x =>
        let r := c.answer x sequence payload
        (r.1, some (c.response 0 sequence r.2))
  | _ => (c, none)

end Sys2Proof.Machine
end

