-- ==== Sys2Proof/Safety.lean ====
section
/-! DEFINITION. The terms claims are stated in: a ticket at the start of its service, a state whose ticket has been answered, and
the laws that every step keeps. -/

namespace Sys2Proof.Machine

/-! ### Tickets -/

/-- W13, W14 and the closing word of a ticket can be written. -/
def State.closesFreely (s : State) (k : Ticket) : Prop :=
  wordFails s.env.badWrites (k.address + 52) = false ∧ wordFails s.env.badWrites (k.address + 56) = false ∧
    wordFails s.env.badWrites (k.address + 60) = false

/-- R160, R172: with the environment's own changes made, ticket k of a kind is at the start of its service, and the operating
state lets the kind be served. -/
def Serves (env : Env) (s : State) (kind : TicketKind) (k : Ticket) : Prop :=
  (s.begin env).serving kind = some k ∧ stateGate (s.begin env).dev.op kind = none ∧ (s.begin env).closesFreely k

/-- R161 steps 3 and 4 and the end of the command: W13, W14 and DONE stand in the ticket, CLOSED of the lane is set, the lane
has no ticket in service, and nothing else has changed. -/
def State.answered (s : State) (lane : Fin 4) (k : Ticket) (code : ReturnCode) (w13 w14 : Nat) (ended truncated : Bool := false) :
    State :=
  { s with
    mem := ((s.mem.putWord (k.address + 52) (BitVec.ofNat 32 w13)).putWord (k.address + 56) (BitVec.ofNat 32 w14)).putWord
      (k.address + 60) (closingWord 3 code.code s.epoch ended truncated)
    notice := s.notice ||| (Cause.closed lane).mask
    lanes := s.lanes.set lane { s.lane lane with service := none }
    env := .calm }

/-- R161: one of a ticket's words as its write leaves it: stored, or, where it fails, captured with the lane and the address. -/
def State.wordClosed (s : State) (lane : Fin 4) (a : Nat) (w : Word) : State :=
  if wordFails s.env.badWrites a = true then s.captureMemory .memoryWrite lane.val (wrapAddress a)
  else { s with mem := s.mem.putWord a w }

/-- R161: a ticket closed whatever writes of its words fail: a failing word is captured, those after it are written all the same, and
CLOSED of the lane is set. -/
def State.closedAnyhow (s : State) (lane : Fin 4) (k : Ticket) (code : ReturnCode) (w13 w14 : Nat) : State :=
  let c := ((s.wordClosed lane (k.address + 52) (BitVec.ofNat 32 w13)).wordClosed lane (k.address + 56) (BitVec.ofNat 32 w14)).wordClosed
    lane (k.address + 60) (closingWord 3 code.code s.epoch false false)
  { c with
    notice := c.notice ||| (Cause.closed lane).mask, lanes := c.lanes.set lane { c.lane lane with service := none }, env := .calm }

/-- An address is a byte of so many words from a first address. -/
def byteOf (first words a : Nat) : Prop := ∃ i < 4 * words, a = wrapAddress (first + i)

/-- An address is a byte of W13, W14 or the closing word of a ticket. -/
def Ticket.closingByte (k : Ticket) (a : Nat) : Prop := ∃ i < 12, a = wrapAddress (k.address + 52 + i)

/-- Nothing but the frame of a command: no engine message, and the copies kept for a loss of power renewed. -/
def State.quiet (s : State) : State := (s.begin .calm).finish

/-- A ticket whose service has begun and goes on: the lane holds it, marked as begun. -/
def State.underService (s : State) (lane : Fin 4) (k : Ticket) : State :=
  { s with lanes := s.lanes.set lane { s.lane lane with service := some { k with begun := true } } }

/-- A command answers a next state. -/
abbrev Answers (c : Instr) (s t : State) : Prop := exec c s = .next t

/-- Consecutive words stored from an address. -/
def Memory.putWords (m : Memory) (a : Nat) : List Word → Memory
  | [] => m
  | w :: rest => Memory.putWords (m.putWord a w) (a + 4) rest

/-- R2, R3, R176: what reading an account's record leaves. A failing record of account 1..511 sets the damaged mark and is captured
the first time; account 0's is written afresh, its used and counters 0, and captured once in a start. -/
def State.found (s : State) (n : Nat) : State :=
  let fault : FirstFault := { kind := .storeRecord, lane := none, address := none, time := s.faultTime, detail := n }
  if (s.record n).checkOk = true then s
  else if n = 0 then
    let fresh :=
      s.putRecord 0 { s.record 0 with used := 0, mono := 0, colour := 0, spoiled := 0, scanned := 0, checkOk := true }
    if s.zeroCaptured = true then fresh
    else { fresh with zeroCaptured := true, faults := s.faults.capture fault, notice := s.notice ||| Cause.fault.mask }
  else if (s.acct n).damaged = true then s
  else
    { s.putAcct n { s.acct n with damaged := true } with
      faults := s.faults.capture fault, notice := s.notice ||| Cause.fault.mask }

/-! ### Ends of jobs, sessions and slots -/

/-- R108, R111: an attached slot after its job's end at a device time: HELD for its keep-minutes, or destroyed when it has none. -/
def KeySlot.afterJob (k : KeySlot) (now : Nat) : KeySlot :=
  if k.keep = 0 then .free ((k.gen + 1) % 65536) else { k with state := .held, job := none, expiry := some (now + k.keep * 60) }

/-- R29, R33, R35: what a settlement with charge c leaves of the job of entry i, whose hold it takes: the unused hold returns to the
free reservation; an ENDING job hands that back to its account at once, and ends, its slots HELD or destroyed, when its other path has
no page in flight, as `ended` says. `settled` is the job's own bookkeeping. -/
def State.jobSettled (b t : State) (i hold c : Nat) (ended : Bool) (settled : Job → Job) : Prop :=
  let j := b.job i
  let free := j.free + (hold - c)
  let back := if j.state = .ending then free else 0
  t.job i = (if ended = true then .freed ((j.gen + 1) % 256) else settled { j with free := free - back }) ∧
    (t.acct j.account).reserved = (b.acct j.account).reserved - c - back ∧
    (ended = false → t.slots = b.slots ∧ ∀ x, x ≠ i → t.job x = b.job x) ∧
    (ended = true → (j.slots.map (·.idx)).Nodup → (∀ x ∈ j.slots, x.idx < 32) →
      ∀ n, t.slot n = if n ∈ j.slots.map (·.idx) then (b.slot n).afterJob b.dev.clock else b.slot n)

/-- R18: a job opened with a session and neither FREE nor ENDING. -/
def State.openUnder (b : State) (h : Handle) (i : Nat) : Bool :=
  (b.job i).session = some h && ((b.job i).state = .opened || (b.job i).state = .quotaStopped)

/-- R34: a page of the job is in flight. -/
def Job.flying (j : Job) : Bool := j.printFlight || j.scanFlight

/-- R16, R18, R33, R34: session entry e has ended: each of its jobs is FREE, its generation advanced, or, with a page in flight, ENDING;
their free reservations have returned to their accounts, an engine hold of one of them is released, the entry is FREE and its account
has no session. -/
def SessionEnded (b t : State) (e : Nat) : Prop :=
  let h : Handle := { idx := e, gen := (b.session e).gen }
  t.session e = .free ((h.gen + 1) % 256) ∧ (∀ i, i ≠ e → t.session i = b.session i) ∧
    (∀ i, t.job i =
      if b.openUnder h i = false then { b.job i with slots := (t.job i).slots }
      else if (b.job i).flying = true then { b.job i with state := .ending, free := 0, slots := (t.job i).slots }
      else .freed (((b.job i).gen + 1) % 256)) ∧
    (∀ n < 512, t.acct n =
      { b.acct n with
        reserved := (b.acct n).reserved -
          (((List.range 32).filter (fun i => b.openUnder h i && (b.job i).account = n)).map (fun i => (b.job i).free)).sum
        session := if n = (b.session e).account then none else (b.acct n).session }) ∧
    t.hold =
      match b.hold with
      | none => none
      | some x => if (List.range 32).any (fun i => b.openUnder h i && x.owner = b.jobHandle i) = true then none else some x

/-- R111: a slot destroyed, its handle out of its job's list, and the core without a band under its key (R84). -/
def State.slotGone (b : State) (h : SlotHandle) : State :=
  let c := (b.putSlot h.idx (.free (((b.slot h.idx).gen + 1) % 65536))).detachSlot (b.slot h.idx).job h
  { c with core := { b.core with band := b.core.band.filter (fun x => x.slot ≠ h) } }

/-- R113: the print bands in the core or waiting for it whose entries name a slot's handle, the core's first. -/
def State.bandsAtCore (b : State) (h : SlotHandle) : List Nat :=
  (b.core.band.filter (fun c => c.path = .print && !c.orphan && c.slot = h)).toList.map (·.idx) ++
    b.core.printQueue.filter (fun i => b.bandSlot i = h)

/-- R113, section 6.4.1: no work on the paths ends by the destruction of the slot of a handle. -/
def State.noWorkUnder (b : State) (h : SlotHandle) : Prop :=
  (∀ c, b.core.band = some c → c.slot ≠ h) ∧ (∀ i ∈ b.core.printQueue, b.bandSlot i ≠ h) ∧
    (b.scanSlot = h → b.scan.state ≠ .scanning ∧ (b.scan.state = .ciphering → ∀ i < 2, (b.buffer i).cond ≠ .ciphering))

/-! ### Impressions -/

/-- R59 to R61: a Print Impression ticket at the start of its service, its arguments and its band list read and valid. -/
def PrintOffered (env : Env) (s : State) (k : Ticket) (a : PrintArgs) (table : List BandEntry) : Prop :=
  let list := (k.w 6).toNat
  let count := (k.w 7).toNat
  Serves env s .printImpression k ∧ 1 ≤ count ∧ count ≤ 256 ∧ list % 4 = 0 ∧ PrintArgs.ofTicket k = some a ∧
    ∃ ws, (s.begin env).readWords list (6 * count) = .ok ws ∧
      printFault (some a) ((listEntries ws 6 count).map RawBand.ofWords) = none ∧
      table = (listEntries ws 6 count).map (fun e => (RawBand.ofWords e).entry)

/-- R62: checks 1 to 6 pass for the job of entry i. -/
def State.printAllowed (b : State) (a : PrintArgs) (table : List BandEntry) (i : Nat) : Prop :=
  let j := b.job i
  b.dev.op = .running ∧ b.jobOf a.job = some i ∧ j.state = .opened ∧ j.kind ≠ .scan ∧
    (b.record j.account).checkOk = true ∧ b.seen j.account = .active ∧ (a.colour = true → b.mayColour j.account = true) ∧
    (∀ e, b.hold = some e → e.owner = a.job) ∧
    ∀ e ∈ table, e.enciphered = true → b.keyGranted e.slot a.job .print = true

/-- R26: account n can cover a hold of h for a job with that free reservation. -/
def State.covers (b : State) (n free h : Nat) : Prop :=
  b.unlimited n = true ∨ h ≤ free + ((b.record n).quota - (b.record n).used - (b.acct n).reserved)

/-- R26: entry i takes h from its free reservation, and what that lacks from its account, which is reserved. -/
def State.topUp (b : State) (i h : Nat) (held : Job → Job) : State :=
  let j := b.job i
  (b.putAcct j.account { b.acct j.account with reserved := (b.acct j.account).reserved + (h - j.free) }).putJob i
    (held { j with free := j.free - h })

/-- R46, R55, R65: what check 10 leaves: the hold taken, the engine hold active, the settings captured, and the first two bands of
each plane begun to be read. -/
def State.printAdmitted (b : State) (a : PrintArgs) (table : List BandEntry) (i : Nat) : State :=
  let set := b.stored.settings
  let mono := chargeOf (set.rates.mono.of a.size) set.rates.tierMono.maxMult
  let h := if a.colour = true then max mono (chargeOf (set.rates.colour.of a.size) set.rates.tierColour.maxMult) else mono
  { b.topUp i h (fun j => { j with printHold := h, printFlight := true }) with
    hold := b.hold.map (fun e => { e with last := b.dev.clock })
    print := { b.print with
      state := .preparing, wait := none, args := some a, table := firstReads a.colour table,
      position := ⟨0, 0, 0, 0⟩, sums := ⟨0, 0, 0, 0⟩, counts := ⟨0, 0, 0, 0⟩
      capture := some
        { curves := set.curves, rateMono := set.rates.mono.of a.size, rateColour := set.rates.colour.of a.size,
          tierMono := set.rates.tierMono, tierColour := set.rates.tierColour } } }

/-- The print path after an impression or a refused ticket (R62, R78): the arguments, the band table and the capture discarded. -/
def PrintPath.ended (p : PrintPath) : PrintPath :=
  { p with state := .idle, wait := none, args := none, table := [], capture := none }

/-- R28, R29: the impression in flight: its arguments and capture, its job at entry i, its ticket on lane 2, whose words and result can
be written. The job may be ENDING; then no cipher ticket is in service, which the loss of its slots could end (section 6.4.1). -/
def State.impression (b : State) (a : PrintArgs) (cap : PrintCapture) (i : Nat) (k : Ticket) : Prop :=
  b.print.args = some a ∧ b.print.capture = some cap ∧ b.jobOf a.job = some i ∧
    ((b.job i).state = .ending → b.scan.state ≠ .ciphering) ∧ (b.lane 2).service = some k ∧ b.env.badWrites = []

/-- R35: the settlement of the impression of job i completes the job's end. -/
def State.printEndsJob (b : State) (i : Nat) : Bool := (b.job i).state = .ending && !(b.job i).scanFlight

/-- R29, R35: the job after the settlement of its impression with charge c. -/
def State.impressionSettled (b t : State) (i c : Nat) (delivered : Bool) : Prop :=
  b.jobSettled t i (b.job i).printHold c (b.printEndsJob i) (fun j =>
    { j with
      printHold := 0, printFlight := false, total := min (j.total + c) (2 ^ 32 - 1)
      charged := if delivered = true then min (j.charged + 1) (2 ^ 32 - 1) else j.charged })

/-- R35, R70, R78, R80: the impression in flight has ended before imaging start: charge 0, the hold returned, no counter and no cartridge
changed, its bands discarded, the result record written, the ticket closed. -/
def NotImaged (b t : State) (a : PrintArgs) (i : Nat) (k : Ticket) (code : ReturnCode) (cause : PrintCause) (w14 : Nat) : Prop :=
  let j := b.job i
  let result := BitVec.ofNat 32 (3 + cause.code * 2 ^ 8 + 2 ^ 16) :: List.replicate 9 0
  t = { b with
    mem :=
      (((b.mem.putWords a.result result).putWord (k.address + 52) 0).putWord (k.address + 56) (BitVec.ofNat 32 w14)).putWord
        (k.address + 60) (closingWord 3 code.code b.epoch (b.printEndsJob i) false)
    notice := t.notice, lanes := b.lanes.set 2 { b.lane 2 with service := none }
    stored := { b.stored with accounts := t.stored.accounts }
    accounts := t.accounts, jobs := t.jobs, sessions := t.sessions, hold := t.hold, slots := t.slots, faults := t.faults
    zeroCaptured := t.zeroCaptured, core := t.core, print := b.print.ended, afterWrites := t.afterWrites, env := .calm } ∧
  t.notice.getLsbD (Cause.closed 2).bit = true ∧ t.core.printQueue = [] ∧
  (∀ c, t.core.band = some c → c.path = .print → c.orphan = true) ∧ b.impressionSettled t i 0 false ∧
  (t.record j.account).used ≤ (b.record j.account).used ∧ ((b.record j.account).checkOk = true → t.faults = b.faults)

/-- R30, R35, R74, R78 to R80: the impression in flight has ended SPOILED: charge 0, the hold returned, the lines sent metered, its bands
discarded, the result record written with the cause, the ticket closed with it. `abort` tells that the part told the engine, and
retired the number. -/
def SpoiledEnd (b t : State) (a : PrintArgs) (cap : PrintCapture) (i : Nat) (k : Ticket) (cause : PrintCause) (abort : Bool) : Prop :=
  let j := b.job i
  let n := j.account
  let m := meter cap a.colour a.pixels b.print.sums b.print.counts false
  t = { b with
    mem :=
      (((b.mem.putWords a.result (printResult .spoiled cause b.print.number m b.print.counts)).putWord (k.address + 52) 0).putWord
        (k.address + 56) (BitVec.ofNat 32 cause.code)).putWord (k.address + 60)
          (closingWord 3 23 b.epoch (b.printEndsJob i) false)
    notice := t.notice, lanes := b.lanes.set 2 { b.lane 2 with service := none }, stored := t.stored
    accounts := t.accounts, jobs := t.jobs, sessions := t.sessions, hold := t.hold, slots := t.slots, carts := t.carts, link := t.link
    core := t.core, faults := t.faults, zeroCaptured := t.zeroCaptured
    engineOut := b.engineOut ++ (if abort = true then [EngineMessage.abort b.print.number] else [])
    print := { b.print.ended with retired := if abort = true then some b.print.number else b.print.retired }
    afterWrites := t.afterWrites, env := .calm } ∧
  t.notice.getLsbD (Cause.closed 2).bit = true ∧ t.core.printQueue = [] ∧
  (∀ c, t.core.band = some c → c.path = .print → c.orphan = true) ∧ b.impressionSettled t i 0 false ∧
  (t.record n).used ≤ (b.record n).used ∧
  (n < 512 → (b.record n).checkOk = true → (b.acct n).damaged = false →
    t.faults = b.faults ∧ (t.record n).spoiled = min ((b.record n).spoiled + 1) (2 ^ 32 - 1) ∧
      (t.record n).toner = min ((b.record n).toner + m.toner.total) (2 ^ 64 - 1)) ∧
  t.stored.meters =
    { b.stored.meters with
      spoiled := min (b.stored.meters.spoiled + 1) (2 ^ 64 - 1), toner := min (b.stored.meters.toner + m.toner.total) (2 ^ 64 - 1) }

/-! ### Scan pages -/

/-- R85: a Scan Page ticket at the start of its service, its arguments and its buffer list read and valid. -/
def ScanOffered (env : Env) (s : State) (k : Ticket) (a : ScanArgs) (buffers : List Destination) : Prop :=
  let list := (k.w 8).toNat
  let count := (k.w 9).toNat
  Serves env s .scanPage k ∧ 1 ≤ count ∧ count ≤ 64 ∧ areaOk list = true ∧ ScanArgs.ofTicket k = some a ∧
    ∃ ws, (s.begin env).readWords list (2 * count) = .ok ws ∧ buffers = (listEntries ws 2 count).map Destination.ofWords ∧
      ∀ x ∈ buffers, a.bandLines * a.lineBytes + 16 ≤ x.capacity

/-- R86: checks 1 to 6 pass for the job of entry i. -/
def State.scanAllowed (b : State) (a : ScanArgs) (i : Nat) : Prop :=
  let j := b.job i
  b.dev.op = .running ∧ b.jobOf a.job = some i ∧ j.state = .opened ∧ j.kind ≠ .print ∧
    (b.record j.account).checkOk = true ∧ b.seen j.account = .active ∧ b.mayScan j.account = true ∧
    b.keyGranted a.slot a.job .scan = true ∧ (b.slot a.slot.idx).page < 65535 ∧ b.lineAbnormal 3 = false

/-- R88: what check 8 leaves: the hold taken, the slot's page number taken and advanced, the page SCANNING with nothing begun. -/
def State.scanAdmitted (b : State) (a : ScanArgs) (i : Nat) : State :=
  let rate := b.stored.settings.rates.scan.of a.size
  { ((b.topUp i rate (fun j => { j with scanHold := rate, scanFlight := true })).touchHold a.job).putSlot a.slot.idx
      { b.slot a.slot.idx with page := (b.slot a.slot.idx).page + 1 } with
    scan := { b.scan with
      state := .scanning, page := (b.slot a.slot.idx).page, taken := 0, begun := 0, written := 0, lineLimit := false
      truncation := false, pageEnd := false, failed := none, capture := some rate } }

/-- R28, R29: the page in flight: its job at entry i, and its ticket on lane 1, whose words can be written. -/
def State.scanPage (b : State) (a : ScanArgs) (i : Nat) (k : Ticket) : Prop :=
  b.scan.args = some a ∧ b.jobOf a.job = some i ∧ (b.lane 1).service = some k ∧ b.closesFreely k

/-- R35: the settlement of the page of job i completes the job's end. -/
def State.scanEndsJob (b : State) (i : Nat) : Bool := (b.job i).state = .ending && !(b.job i).printFlight

/-- What a page in flight leaves as it is settled: its ticket closed with the page number and the band records written, the path at rest
with or without the drain mark, nothing of it at the core but a band whose output is discarded, the job settled with charge c (R29,
R35). -/
def PageEnded (b t : State) (i : Nat) (k : Ticket) (code : ReturnCode) (drain : Bool) (c : Nat) : Prop :=
  t = { b with
    mem :=
      ((b.mem.putWord (k.address + 52) (BitVec.ofNat 32 b.scan.page)).putWord (k.address + 56)
        (BitVec.ofNat 32 b.scan.written)).putWord (k.address + 60)
          (closingWord 3 code.code b.epoch (b.scanEndsJob i) b.scan.truncation)
    notice := t.notice, lanes := b.lanes.set 1 { b.lane 1 with service := none }, stored := t.stored
    accounts := t.accounts, jobs := t.jobs, sessions := t.sessions, hold := t.hold, slots := t.slots, faults := t.faults
    zeroCaptured := t.zeroCaptured, core := t.core, scan := { ScanPath.reset with drain }, afterWrites := t.afterWrites, env := .calm } ∧
  t.notice.getLsbD (Cause.closed 1).bit = true ∧ t.core.scanWaiting = none ∧
  (∀ x, t.core.band = some x → x.path = .scan → x.orphan = true) ∧
  b.jobSettled t i (b.job i).scanHold c (b.scanEndsJob i) (fun j =>
    { j with scanHold := 0, scanFlight := false, total := min (j.total + c) (2 ^ 32 - 1) })

/-- R93, R94: the page in flight has failed and is settled: charge 0, the hold returned, no meter advanced. -/
def PageFailed (b t : State) (i : Nat) (k : Ticket) (code : ReturnCode) (drain : Bool) : Prop :=
  let n := (b.job i).account
  PageEnded b t i k code drain 0 ∧ t.stored = { b.stored with accounts := t.stored.accounts } ∧
    (t.record n).used ≤ (b.record n).used ∧ ((b.record n).checkOk = true → t.faults = b.faults)

/-- R30, R92: the page in flight has been settled with its captured rate: its account's used and scanned pages advance, the lifetime
meter counts it. -/
def PageSettled (b t : State) (i : Nat) (k : Ticket) : Prop :=
  let n := (b.job i).account
  let rate := b.scan.capture.getD 0
  PageEnded b t i k .ok b.scan.drain rate ∧
    t.stored = { b.stored with
      accounts := t.stored.accounts
      meters := { b.stored.meters with scanned := min (b.stored.meters.scanned + 1) (2 ^ 64 - 1) }, metersOk := true } ∧
    (n < 512 → (b.record n).checkOk = true → (b.acct n).damaged = false →
      t.faults = b.faults ∧ (t.record n).used = min ((b.record n).used + rate) (2 ^ 32 - 1) ∧
        (t.record n).scanned = min ((b.record n).scanned + 1) (2 ^ 32 - 1)) ∧
    ∀ x, x ≠ n → t.record x = b.record x

/-! ### Cipher tickets -/

/-- R97, R99: the Encipher Bands or Decipher Bands ticket on lane 1 has closed: the former with its page number and the bands
completed, the latter with the bands written whole and, on a failure, the position of the first band not written whole (log 22); the
path is at rest, its buffers erased, and nothing of it at the core but a band whose output is discarded. -/
def CipherEnded (b t : State) (k : Ticket) (code : ReturnCode) : Prop :=
  let w13 := if b.scan.work = .encipher then b.scan.page else b.scan.written
  let w14 := if b.scan.work = .decipher ∧ code = .ok then 0 else b.scan.written
  t = { b.answered 1 k code w13 w14 with scan := { ScanPath.reset with drain := b.scan.drain }, core := t.core } ∧
    t.core.scanWaiting = none ∧ (∀ c, t.core.band = some c → c.path = .scan → c.orphan = true) ∧ t.core.count = b.core.count

/-- R97, R99: the first failure of a cipher ticket: with no band WRITING it closes; a band WRITING stays until its write is complete,
and the other buffer is erased. -/
def CipherFails (b t : State) (k : Ticket) (code : ReturnCode) : Prop :=
  (b.writingBuffer = none → CipherEnded b t k code) ∧
    (b.writingBuffer.isSome = true →
      t = { b with
        scan := { b.scan with failed := some code, internal := t.scan.internal }, core := t.core, env := .calm } ∧
      (∀ i < 2, t.buffer i = if (b.buffer i).isWriting = true then b.buffer i else .erased) ∧
      t.core.scanWaiting = none ∧ (∀ c, t.core.band = some c → c.path = .scan → c.orphan = true) ∧ t.core.count = b.core.count)

/-- The use of a slot's key that each work of lane 1 asks for (R86, R96, R98). -/
def ScanWork.use : ScanWork → KeyUse
  | .page => .scan
  | .encipher => .encipher
  | .decipher => .decipher

/-! ### What reaches memory -/

/-- The result area of a ticket in service, from its first address, in words (Figures 52 to 54). -/
def State.resultArea (b : State) (k : Ticket) : Nat × Nat :=
  match k.kind with
  | some .readAccounts => ((k.w 4).toNat, 13 * 512)
  | some .configure => ((k.w 4).toNat, 39)
  | some .statusDigest => ((k.w 2).toNat, 371)
  | some .checkCartridge => ((k.w 3).toNat, 7 * 5)
  | some .readCartridges => ((k.w 2).toNat, 7 * (5 + b.stored.known.length))
  | _ => (0, 0)

/-- R159, R161, R163: a byte that tickets promise: a closing word or a result area of a ticket in service, the words of a ticket to be
fetched, the result record of the impression in flight, the result area of the waiting Check Cartridge. -/
def State.promised (b : State) (a : Nat) : Prop :=
  (∃ (lane : Fin 4) (k : Ticket), (b.lane lane).service = some k ∧
      (k.closingByte a ∨ byteOf (b.resultArea k).1 (b.resultArea k).2 a)) ∨
    (∃ (lane : Fin 4) (address : Nat), (b.lane lane).queue.head? = some address ∧ byteOf (address + 52) 3 a) ∨
    (∃ x, b.print.args = some x ∧ byteOf x.result 10 a) ∨ ∃ w, b.checkWait = some w ∧ byteOf w.result (7 * 5) a

/-! ### Starts -/

/-- A check of a start that fails is captured with device time 0 and no lane or address (R176). -/
def startFault (kind : FaultKind) (detail : Nat) : FirstFault := { kind, lane := none, address := none, time := 0, detail }

/-- R171 steps 3 to 7, R2: what a start captures of the state `b` it begins from, in its order. -/
def startFailures (b : State) (x : StartInputs) : List FirstFault :=
  (if x.testPasses then [] else [startFault .cipherCheck 0]) ++
    (if b.stored.metersOk then [] else [startFault .storeMeters 1]) ++
    (if b.stored.startCountOk then [] else [startFault .storeMeters 2]) ++
    (if b.stored.settingsOk then [] else [startFault .storeSettings 0]) ++
    (if b.stored.knownOk then [] else [startFault .storeList 0]) ++
    ((List.range' 1 511).filter (fun n => !(b.record n).checkOk)).map (startFault .storeRecord)

/-- R171 steps 1 to 7: what a start leaves of the state `b` it begins from. Everything volatile has its value after reset, but for
what is named here; each named field has its rule below. -/
structure Started (b t : State) (cause : StartCause) (x : StartInputs) : Prop where
  frame : t = { State.reset with
    dev := t.dev, faults := t.faults, stored := t.stored, accounts := t.accounts, notice := t.notice,
    engineOut := b.resetAbort, draws := b.draws, levels := x.levels, readData := b.readData, mem := b.mem,
    shadow := b.shadow, shadowMem := b.shadowMem, afterWrites := t.afterWrites, pending := b.pending }
  device : t.dev =
    { op := .starting, stopping := !x.testPasses || !b.stored.metersOk || !b.stored.startCountOk, cause,
      startCount := (b.stored.startCount + 1) % 2 ^ 32, defaulted := !b.stored.settingsOk, clock := 0, entryTime := none }
  startCount : t.stored.startCount = (b.stored.startCount + 1) % 2 ^ 32 ∧ t.stored.startCountOk = true
  settings : t.stored.settings = (if b.stored.settingsOk then b.stored.settings else .factory) ∧ t.stored.settingsOk = true
  known : t.stored.known = (if b.stored.knownOk then b.stored.known else []) ∧ t.stored.knownOk = true
  meters : t.stored.meters = b.stored.meters ∧ t.stored.metersOk = b.stored.metersOk
  records : t.stored.accounts = b.stored.accounts
  /-- R20, R2, R13: no reservation and no session; a failing record is DAMAGED, a LOCKED one gets a whole lockout period -/
  accounts : ∀ n < 512, t.acct n =
    { reserved := 0, session := none, damaged := decide (n ≠ 0) && !(b.record n).checkOk
      lockoutEnd :=
        if n ≠ 0 ∧ (b.record n).checkOk = true ∧ (b.record n).state = .locked ∧ t.stored.settings.timers.lockoutPeriod ≠ 0 then
          some t.stored.settings.timers.lockoutPeriod
        else none }
  /-- R176, R181, R182: the fault capture record is cleared by power and the reset input, and kept by a restart -/
  faults : t.faults = (startFailures b x).foldl FaultRecord.capture (if cause = .power then .cleared else b.faults)
  /-- R169: Notice is clear but for a failing check -/
  notice : t.notice = if startFailures b x = [] then 0 else Cause.fault.mask

/-! ### Laws of a state -/

/-- The shared DRAM, and its copies for a loss of power, have their canonical form. -/
def State.memoryCanonical (s : State) : Prop := s.mem.wf ∧ s.shadowMem.wf ∧ ∀ x ∈ s.afterWrites, x.2.wf

/-- R159, R157: at most 8 addresses, each 64-byte aligned and not 0. -/
def Lane.lawful (l : Lane) : Prop := l.queue.length ≤ 8 ∧ ∀ a ∈ l.queue, a ≠ 0 ∧ a % 64 = 0 ∧ a < 2 ^ 32

/-- R159. -/
def State.intakeLawful (s : State) : Prop := ∀ n : Fin 4, (s.lane n).lawful

/-- Section 7.4: at most 8 entries, each ID at most once. -/
def knownLawful (l : List KnownCartridge) : Prop := l.length ≤ 8 ∧ (l.map (·.id)).Nodup

/-- Section 7.4, for the stored list and for the list as it stood before the last command and after each of its writes. -/
def State.listLawful (s : State) : Prop :=
  knownLawful s.stored.known ∧ knownLawful s.shadow.known ∧ ∀ x ∈ s.afterWrites, knownLawful x.1.known

/-- R123: remaining lies between 0 and capacity. -/
def Cartridge.lawful (c : Cartridge) : Prop := ∀ v, c.values = some v → v.remaining ≤ v.capacity

/-- R123. -/
def State.cartridgesLawful (s : State) : Prop := ∀ slot, (s.cart slot).lawful

/-- R141, R142: at most one procedure per slot and kind, for slots 1 to 5, and only the one at the head runs. -/
def State.queueLawful (s : State) : Prop :=
  (s.link.queue.map (fun p => (p.slot, p.kind))).Nodup ∧ (∀ p ∈ s.link.queue, 1 ≤ p.slot ∧ p.slot ≤ 5) ∧
    ∀ p ∈ s.link.queue.tail, p.running = false

/-- R44: bounds rise strictly, multipliers lie within 0..1023. -/
def TierTable.lawful (t : TierTable) : Prop :=
  t.bound0 < t.bound1 ∧ t.bound1 < t.bound2 ∧ t.bound2 ≤ 40000 ∧ t.mult0 ≤ 1023 ∧ t.mult1 ≤ 1023 ∧ t.mult2 ≤ 1023 ∧
    t.mult3 ≤ 1023

/-- R178 step 4: the TIMERS ranges. -/
def Timers.lawful (t : Timers) : Prop :=
  (10 ≤ t.sessionIdle ∧ t.sessionIdle ≤ 3600) ∧ (5 ≤ t.holdIdle ∧ t.holdIdle ≤ 600) ∧
    (1 ≤ t.failureLimit ∧ t.failureLimit ≤ 15) ∧ t.lockoutPeriod ≤ 65535 ∧ (1 ≤ t.heldSlotTime ∧ t.heldSlotTime ≤ 4320)

/-- R128, R145: the SUPPLY ranges. -/
def SupplySettings.lawful (x : SupplySettings) : Prop :=
  x.lowPermille ≤ 1000 ∧ (1 ≤ x.writeBack ∧ x.writeBack ≤ 255) ∧ x.retryLimit ≤ 7

/-- R44: rates lie within 0..65535. -/
def SizeRates.lawful (r : SizeRates) : Prop := r.a ≤ 65535 ∧ r.b ≤ 65535 ∧ r.c ≤ 65535

/-- R44: the RATES ranges. -/
def Rates.lawful (r : Rates) : Prop :=
  r.mono.lawful ∧ r.colour.lawful ∧ r.scan.lawful ∧ r.tierMono.lawful ∧ r.tierColour.lawful

/-- R45: the CURVES ranges: points, deposit factors, colour floor. -/
def Curves.lawful (c : Curves) : Prop :=
  (∀ p i, (c.curve.get p).point i ≤ 4095) ∧ (∀ p, c.deposit.get p ≤ 65535) ∧ c.floor ≤ 10000

/-- The ranges of a settings area; every value of SENSE is in range. -/
def Settings.lawful (set : Settings) : Prop :=
  set.rates.lawful ∧ set.curves.lawful ∧ set.timers.lawful ∧ set.supply.lawful

/-- The settings in effect, and those before the last command and after each of its writes, lie in their ranges. -/
def State.settingsLawful (s : State) : Prop :=
  s.stored.settings.lawful ∧ s.shadow.settings.lawful ∧ ∀ x ∈ s.afterWrites, x.1.settings.lawful

/-- R176: a record without a first fault has an empty again set and a later count of 0; the count saturates at 255. -/
def FaultRecord.lawful (r : FaultRecord) : Prop := (r.first = none → r.again = 0 ∧ r.later = 0) ∧ r.later ≤ 255

/-- R170, Figure 47: the entry time is present in WITHDRAWN. -/
def State.entryRecorded (s : State) : Prop := s.dev.op = .withdrawn → s.dev.entryTime.isSome

/-- R180: no meter of `m` is above that of `n`. -/
def Meters.le (m n : Meters) : Prop :=
  m.mono ≤ n.mono ∧ m.colour ≤ n.colour ∧ m.spoiled ≤ n.spoiled ∧ m.scanned ≤ n.scanned ∧ m.toner ≤ n.toner

/-- Each meter fits its 64 bits (R180). -/
def Meters.lawful (m : Meters) : Prop :=
  m.mono < 2 ^ 64 ∧ m.colour < 2 ^ 64 ∧ m.spoiled < 2 ^ 64 ∧ m.scanned < 2 ^ 64 ∧ m.toner < 2 ^ 64

/-- R111, section 6.1: a FREE slot holds nothing, its key among it; a HELD slot has no job and an expiry; a LIVE one has a job and
no expiry; a slot in use has a key. -/
def KeySlot.lawful (k : KeySlot) : Prop :=
  match k.state with
  | .free => k = .free k.gen
  | .live => k.key.isSome ∧ k.job.isSome ∧ k.expiry = none
  | .held => k.key.isSome ∧ k.job = none ∧ k.expiry.isSome

/-- The law of every key slot. -/
def State.slotsLawful (s : State) : Prop := ∀ i, (s.slot i).lawful

/-- R171: in STARTING the paths, the cipher core, the link queue and the lanes are at rest. -/
def State.startRests (s : State) : Prop :=
  s.dev.op = .starting →
    s.print.state = .idle ∧ s.scan.state = .idle ∧ s.link.queue = [] ∧ s.core.band = none ∧
      s.core.printQueue = [] ∧ s.core.scanWaiting = none ∧ ∀ n : Fin 4, (s.lane n).service = none

/-- R175: Resume Service's known-answer test runs in WITHDRAWN alone. -/
def State.testsWithdrawn (s : State) : Prop := s.core.resumeTest = true → s.dev.op = .withdrawn

/-- The units a job keeps of an account: free reservation and page holds (R25). -/
def Job.reservedFor (j : Job) (n : Nat) : Nat :=
  if j.state ≠ .free ∧ j.account = n then j.free + j.printHold + j.scanHold else 0

/-- R25: an account's reserved is the sum of its jobs' free reservations and holds, and a job holds nothing for a path without a
page in flight. -/
def State.balanced (s : State) : Prop :=
  (∀ n < 512, (s.acct n).reserved = (s.jobs.toList.map (fun j => j.reservedFor n)).sum) ∧
    ∀ i, ((s.job i).printFlight = false → (s.job i).printHold = 0) ∧ ((s.job i).scanFlight = false → (s.job i).scanHold = 0)

/-- R8: the used of every record without UNLIMITED but account 0's, which always is, lies within its quota. -/
def Stored.quotaKept (st : Stored) : Prop :=
  ∀ n < 512, n ≠ 0 → (entryAt st.accounts n .vacant).unlimited = false →
    (entryAt st.accounts n .vacant).used ≤ (entryAt st.accounts n .vacant).quota

/-- R8: used and reserved lie within the quota of every account without UNLIMITED; and the same of the used of a record as it stood
before the last command or after one of its writes, to which a loss of power may return it. -/
def State.quotaKept (s : State) : Prop :=
  (∀ n < 512, s.unlimited n = false → (s.record n).used + (s.acct n).reserved ≤ (s.record n).quota) ∧
    s.shadow.quotaKept ∧ ∀ x ∈ s.afterWrites, x.1.quotaKept

/-- A page's work is between admission and settlement (R26). -/
def PrintState.inFlight (p : PrintState) : Prop := p = .preparing ∨ p = .imaging ∨ p = .imaged

/-- R26, R29, R37, R55: the print path and the job whose impression is in flight name each other, the job's print hold is the
captured one, and lane 2 holds the begun ticket of whatever the path has. -/
def State.printLinked (s : State) : Prop :=
  (s.print.state ≠ .idle → ∃ k, (s.lane 2).service = some k ∧ k.begun = true) ∧
    (s.print.state.inFlight → ∃ a cap i, s.print.args = some a ∧ s.print.capture = some cap ∧ s.jobOf a.job = some i ∧
      (s.job i).printFlight = true ∧ (s.job i).printHold = cap.hold a.colour) ∧
    ∀ i, (s.job i).printFlight = true → s.print.state.inFlight ∧ ∃ a, s.print.args = some a ∧ s.jobOf a.job = some i

/-- R26, R29, R88: the scan path and the job whose page is in flight name each other, the job's scan hold is the captured rate,
lane 1 holds the begun ticket, and a path that has begun nothing has no band in its buffers or at the core. -/
def State.scanLinked (s : State) : Prop :=
  (s.scan.state ≠ .idle → ∃ k, (s.lane 1).service = some k ∧ k.begun = true) ∧
    (s.scan.state = .scanning → s.scan.work = .page ∧ ∃ a r i, s.scan.args = some a ∧ s.scan.capture = some r ∧
      s.jobOf a.job = some i ∧ (s.job i).scanFlight = true ∧ (s.job i).scanHold = r) ∧
    (∀ i, (s.job i).scanFlight = true → s.scan.state = .scanning ∧ ∃ a, s.scan.args = some a ∧ s.jobOf a.job = some i) ∧
    (s.scan.state = .ciphering → s.scan.work ≠ .page) ∧ (s.scan.state = .waiting → s.scan.work = .page) ∧
    (s.scan.state = .idle ∨ s.scan.state = .waiting → (∀ i < 2, (s.buffer i).cond = .free) ∧ s.core.scanWaiting = none ∧
      ∀ b, s.core.band = some b → b.path = .scan → b.orphan = true)

/-- The laws of units: R8, R25 and what links pages in flight to their jobs, which a held part has let go of (R181). -/
def State.unitsLawful (s : State) : Prop :=
  s.balanced ∧ s.quotaKept ∧ (s.alive = true → s.printLinked ∧ s.scanLinked)

/-! ### Key slots and the core -/

/-- R103: a LIVE slot is attached to a job that is not FREE and whose account owns it, and the job's list has it; a job's list
holds only such slots, none of them twice, and 4 at most. -/
def State.slotsAgree (s : State) : Prop :=
  (∀ i < 32, (s.slot i).state = .live → ∃ h j, (s.slot i).job = some h ∧ s.jobOf h = some j ∧
    (s.slot i).owner = some (s.job j).account ∧ { idx := i, gen := (s.slot i).gen } ∈ (s.job j).slots) ∧
  (∀ j, ∀ h ∈ (s.job j).slots, (s.job j).state ≠ .free ∧ s.slotOf h = some h.idx ∧ (s.slot h.idx).state = .live ∧
    (s.slot h.idx).job = some (s.jobHandle j)) ∧
  ∀ j, (s.job j).slots.Nodup ∧ (s.job j).slots.length ≤ 4

/-- R104: the key of every slot is one the random source has drawn, and no two slots hold the key of one draw. -/
def State.keysDrawn (s : State) : Prop :=
  ∃ draw : Fin 32 → Nat,
    (∀ i : Fin 32, ∀ key, (s.slot i).key = some key → draw i < s.draws ∧ key = Config.randomSource.key (draw i)) ∧
    ∀ i j : Fin 32, i ≠ j → (s.slot i).key.isSome → (s.slot j).key.isSome → draw i ≠ draw j

/-- R83, R99, R100: every band that has left the core for memory is what the core returned under a drawn key: ciphertext with its tag,
or, of Decipher Bands, the plaintext of a match. Every band waiting for the core, or in it, is one whose slot is LIVE, attached to the
asking job and holding the use; and a failed page or ticket, whose code is not OK, keeps no band but one WRITING. -/
def State.bandsSealed (s : State) : Prop :=
  (∀ i < 2, (s.buffer i).cond = .ciphering → ∃ a, s.scan.args = some a ∧ s.keyGranted a.slot a.job s.scan.work.use = true) ∧
    (∀ i < 2, (s.buffer i).cond = .ciphered ∨ (s.buffer i).isWriting = true →
      ∃ draw < s.draws, ∃ (nonce : Config.Nonce) (band : List Byte),
        if s.scan.work = .decipher then decipherBand (Config.randomSource.key draw) nonce band = some (s.buffer i).data
        else (s.buffer i).data = encipherBand (Config.randomSource.key draw) nonce band) ∧
    (∀ c, s.core.band = some c → c.path = .scan → c.orphan = false → c.idx < 2 ∧ (s.buffer c.idx).cond = .ciphering) ∧
    (∀ i, s.core.scanWaiting = some i → i < 2 ∧ (s.buffer i).cond = .ciphering ∧
      ∀ c, s.core.band = some c → c.path = .scan → c.orphan = false → c.idx ≠ i) ∧
    (s.scan.failed.isSome = true → ∀ i < 2, (s.buffer i).cond = .free ∨ (s.buffer i).isWriting = true) ∧
    s.scan.failed ≠ some .ok

/-- R84: no band waits for a core that can take one. -/
def State.coreSettled (s : State) : Prop :=
  s.core.canTake = true → s.core.printQueue = [] ∧ s.core.scanWaiting = none

end Sys2Proof.Machine
end

