-- ==== Sys2Proof/Certificates/Slice0/Obligations.lean ====
section
/-! DEFINITION. The statements for the provers. -/

open Sys2Proof Sys2Proof.Machine

/-! ### The queue -/

/-- The step takes the command at the front of the queue, runs it on the queue's rest and answers its outcome. On an empty queue
the block idles, which is the model's own choice (log 3). -/
def Obligations.StepTakesFrontCommand : Prop :=
  (∀ (c : Instr) (rest : List Instr) (s : State), s.pending = c :: rest → step s = exec c { s with pending := rest }) ∧
    ∀ s : State, s.pending = [] → step s = .next s

/-- Every command completes in one step, whatever the state and the operands, and leaves the commands that wait behind it, with
the environment calm again. -/
def Obligations.EveryCommandCompletes : Prop :=
  ∀ (c : Instr) (s : State), s.env = .calm → ∃ t, Answers c s t ∧ t.pending = s.pending ∧ t.env = .calm

/-! ### The register window -/

/-- R157: a write to Post is dropped, with DROPPED of the lane, when the field that must be 0 is not, the address is 0 or the queue
holds 8 addresses; else its address joins the tail. While the reset input is asserted it is lost; that it is lost without power too,
and leaves all else as it was, is the model's own (logs 11, 29). -/
def Obligations.PostQueuesOrDrops : Prop :=
  ∀ (v : Word) (s : State) (lane : Fin 4), lane.val = v.toNat % 4 →
    (s.alive = false → Answers (.post v) s s.quiet) ∧
    (s.alive = true →
      if v.toNat / 4 % 16 ≠ 0 ∨ v.toNat / 64 = 0 ∨ 8 ≤ (s.lane lane).queue.length then
        Answers (.post v) s { s.quiet with notice := s.notice ||| (Cause.dropped lane).mask }
      else
        Answers (.post v) s { s.quiet with
          lanes := s.lanes.set lane { s.lane lane with queue := (s.lane lane).queue ++ [64 * (v.toNat / 64)] } })

/-- R165: a read of Notice returns the flags set and clears exactly those; a cause taken before it is returned, one taken after it
stays for the next read; a second read returns it no more. -/
def Obligations.NoticeReadReturnsAndClears : Prop :=
  ∀ s : State, s.alive = true →
    Answers .noticeRead s { s.quiet with readData := s.notice.setWidth 32, notice := 0 } ∧
    (∀ c : Cause, ∃ t, Answers .noticeRead (s.raise c) t ∧ t.readData.getLsbD c.bit = true ∧ t.notice.getLsbD c.bit = false ∧
      ∃ u, Answers .noticeRead t u ∧ u.readData.getLsbD c.bit = false) ∧
    ∀ (c : Cause) (t : State), Answers .noticeRead s t → (t.raise c).notice.getLsbD c.bit = true

/-- R166: a write replaces all enables and a read returns them; NINT is asserted exactly while a flag and its enable are both set;
the read of Notice releases it, and so does a write that leaves no set flag enabled.
R164, R168: a write to Notice, and a write to Device without 1 in the restart field, change nothing. -/
def Obligations.NoticeEnableGovernsNint : Prop :=
  (∀ (s : State) (v : Word), s.alive = true →
    Answers (.noticeEnableWrite v) s { s.quiet with enable := v.setWidth 13 } ∧
    s.enableRead = s.enable.setWidth 32 ∧
    (s.nintAsserted = true ↔ ∃ i < 13, s.notice.getLsbD i = true ∧ s.enable.getLsbD i = true) ∧
    (∀ t, Answers .noticeRead s t → t.nintAsserted = false) ∧
    (∀ t, Answers (.noticeEnableWrite v) s t →
      (t.nintAsserted = true ↔ ∃ i < 13, s.notice.getLsbD i = true ∧ v.getLsbD i = true)) ∧
    ∀ c : Cause, s.enable.getLsbD c.bit = true → (s.raise c).nintAsserted = true) ∧
  ∀ (w : IgnoredWrite) (s : State), s.dev.clock < 2 ^ 32 →
    Answers (.registerWriteIgnored w) s s.quiet ∧
      s.quiet = { s with engineOut := [], shadow := s.stored, shadowMem := s.mem, afterWrites := [], env := .calm }

/-! ### What reaches memory -/

/-- R100: only what the cipher core returned reaches memory from the scan path, over every command. A band that leaves the core for
memory is ciphertext with its tag under a drawn key of a LIVE slot holding the use, or, of Decipher Bands, the plaintext of a match: a
law every step keeps. A band comes to the core only with its key granted, and, of Decipher Bands, for a job whose open session belongs
to the slot's owner. And beside what others store and what tickets promise (their closing words and result areas), a command changes
only bytes of the band, or of its record, that is being written; a reset leaves none of a write under way, which is the model's own
(log 41). -/
def Obligations.OnlyCiphertextReachesMemory : Prop :=
  (∀ s t : State, s.slotsLawful → s.slotsAgree → s.keysDrawn → s.unitsLawful → s.bandsSealed → step s = .next t → t.bandsSealed) ∧
  ∀ (c : Instr) (s t : State), Answers c s t →
    (∀ i < 2, s.unitsLawful → (t.buffer i).cond = .ciphering → (s.buffer i).cond ≠ .ciphering →
      ∃ a, s.scan.args = some a ∧ s.keyGranted a.slot a.job s.scan.work.use = true ∧
        (s.scan.work = .decipher → s.authorised a.job a.slot = true)) ∧
    (s.memoryCanonical → (∀ writes, c ≠ .lossOfPower writes) →
      let b := s.begin c.env
      ∀ x, t.mem.read x = b.mem.read x ∨ b.promised x ∨ ∃ i, s.writingBuffer = some i ∧
        let y := s.buffer i
        let records := (s.scan.args.map (·.records)).getD 0
        let written (data : List Byte) : Byte := (b.writeBytes (s.destination y.band) data).1.mem.read x
        (c = .bandWriteDone c.env ∧ y.cond = .writingData ∧ t.mem.read x = written y.data) ∨
          (c = .bandWriteDone c.env ∧ y.cond = .writingRecord ∧
            t.mem.read x = (b.writeWords (records + 12 * y.band)
              [BitVec.ofNat 32 (y.band + y.band * 2 ^ 16), BitVec.ofNat 32 y.lines, BitVec.ofNat 32 y.data.length]).1.mem.read x) ∨
          (s.scan.work = .decipher ∧ t.mem.read x = written (y.data.take c.env.stopped)))

/-! ### The fetch -/

/-- R159, R161: the endings of a fetch: a failed read, a stale ticket, a ticket refused as malformed, whose closing words may fail, and a
ticket marked ACTIVE, whose own write may fail. That the fault of a failed read or write holds the address of the first word that fails
is the model's own (log 12), as is W14 = 1 of a ticket with an unknown kind and a wrong echo (log 37). -/
def Obligations.FetchEndings : Prop :=
  ∀ (env : Env) (lane : Fin 4) (s : State) (a : Nat) (rest : List Nat), s.up = true →
    s.lane lane = { queue := a :: rest, service := none } →
    let b := s.begin env
    let idle : Vector Lane 4 := s.lanes.set lane { queue := rest, service := none }
    (∀ e, b.readWords a 16 = .error e →
      Answers (.fetch env lane) s
        { b.captureMemory .memoryRead lane.val e with lanes := idle, env := .calm }) ∧
    ∀ ws, b.readWords a 16 = .ok ws →
      let k : Ticket := { address := a, words := ws, begun := false }
      (bits (k.w 15) 1 0 ≠ 1 →
        Answers (.fetch env lane) s { b.raise .stale with lanes := idle, env := .calm }) ∧
      (bits (k.w 15) 1 0 = 1 → k.kind = none →
        Answers (.fetch env lane) s (State.closedAnyhow { b with lanes := idle } lane k .badTicket 0 1) ∧
        (b.closesFreely k →
          Answers (.fetch env lane) s (State.answered { b with lanes := idle } lane k .badTicket 0 1))) ∧
      (bits (k.w 15) 1 0 = 1 → ∀ kind, k.kind = some kind → kind.lane ≠ lane ∨ k.echo ≠ lane.val →
        Answers (.fetch env lane) s (State.closedAnyhow { b with lanes := idle } lane k .badTicket 0 2) ∧
        (b.closesFreely k →
          Answers (.fetch env lane) s (State.answered { b with lanes := idle } lane k .badTicket 0 2))) ∧
      (bits (k.w 15) 1 0 = 1 → ∀ kind, k.kind = some kind → kind.lane = lane → k.echo = lane.val →
        if wordFails env.badWrites (a + 60) = true then
          Answers (.fetch env lane) s
            { b.captureMemory .memoryWrite lane.val (wrapAddress (a + 60)) with lanes := idle, env := .calm }
        else
          Answers (.fetch env lane) s
            { b with
              mem := b.mem.putWord (a + 60) (closingWord 2 0 b.epoch false false)
              lanes := s.lanes.set lane { queue := rest, service := some k }
              env := .calm })

/-! ### Starts and resets -/

/-- R171, R181, R182: power coming up, the release of the reset input and a restart each begin a start, which leaves what `Started`
says: everything volatile reset, Notice (R169) and the volatile part of every account (R20, R13) among it, and the fault capture
record cleared by the first two and kept by a restart, with what the start's own checks capture added. That failing account records
are captured in ascending order is the model's own (log 44), and so is that memory keeps nothing of a band's write under way (log
41). That a restart without 1 in its field changes nothing is R168; that power coming up begins a start also where power is present
is the model's own (log 29). -/
def Obligations.StartsBegin : Prop :=
  ∀ (env : Env) (x : StartInputs) (s : State),
    let b := s.begin env
    (∃ t, Answers (.powerOn env x) s t ∧ Started b t .power x) ∧
    (s.power = true → s.nrst = true → ∃ t, Answers (.resetInputRelease env x) s t ∧ Started b t .power x) ∧
    (∀ v : Word, s.alive = true → v.toNat % 16 = 1 → ∃ t, Answers (.restart env v x) s t ∧ Started b t .restart x) ∧
    (∀ v : Word, v.toNat % 16 ≠ 1 → Answers (.restart env v x) s { b with env := .calm })

/-- R171 steps 3 to 6, R176: what a start with cause POWER leaves in the fault capture record and in Notice.
R171 step 7, R2, R13: a start reads each account's state; a record whose check value fails is DAMAGED, and a LOCKED account has
its lockout end a whole lockout period from the start, or none when the period is 0. -/
def Obligations.StartChecksStoredAreas : Prop :=
  (∀ (env : Env) (x : StartInputs) (s t : State), Answers (.powerOn env x) s t →
      let b := s.begin env
      let failing : List (Bool × FaultKind × Nat) :=
        [ (x.testPasses, .cipherCheck, 0), (b.stored.metersOk, .storeMeters, 1), (b.stored.startCountOk, .storeMeters, 2),
          (b.stored.settingsOk, .storeSettings, 0), (b.stored.knownOk, .storeList, 0) ]
      match failing.find? (fun f => f.1 = false) with
      | some f =>
        t.faults.first = some { kind := f.2.1, lane := none, address := none, time := 0, detail := f.2.2 } ∧
          t.notice = Cause.fault.mask
      | none =>
        (∀ n, 1 ≤ n → n < 512 → (b.record n).checkOk = true) → t.faults = FaultRecord.cleared ∧ t.notice = 0) ∧
  (∀ (env : Env) (x : StartInputs) (s t : State) (n : Nat), Answers (.powerOn env x) s t → 1 ≤ n → n < 512 →
      let r := (s.begin env).record n
      let period := t.stored.settings.timers.lockoutPeriod
      t.acct n =
        { reserved := 0, session := none, damaged := !r.checkOk,
          lockoutEnd := if r.checkOk = true ∧ r.state = .locked ∧ period ≠ 0 then some period else none })

/-- R171 step 8: a start marked as stopping ends in STOPPED; any other in RUNNING, with a CHECK requested for each supply slot
whose door line is normal (R132), and, with PRIVACY departed, in the withdrawal that follows these requests (R151). -/
def Obligations.StartEnds : Prop :=
  ∀ (env : Env) (s : State), s.alive = true → s.dev.op = .starting →
    let b := s.begin env
    let checks : Link := { b.link with
      queue := (supplySlots.filter (fun n => !b.lineAbnormal (doorLine n))).map (fun n => .queued n .check false) }
    (s.dev.stopping = true →
      Answers (.startEnd env) s { b with dev := { b.dev with op := .stopped, clock := 0 }, env := .calm }) ∧
    (s.dev.stopping = false → b.privacyDeparted = false → b.link.queue = [] →
      Answers (.startEnd env) s
        { b with
          dev := { b.dev with op := .running, clock := 0 }
          link := checks
          env := .calm }) ∧
    (s.dev.stopping = false → b.privacyDeparted = true → s.startRests →
      ∃ t, Answers (.startEnd env) s t ∧
        t = { b with
          dev := { b.dev with op := .withdrawn, clock := 0, entryTime := some 0 }
          link := checks, slots := t.slots, jobs := t.jobs, env := .calm
          core := { b.core with band := none, printQueue := [], scanWaiting := none } } ∧
        (∀ i, (t.slot i).state = .free) ∧ ∀ i, t.job i = { b.job i with slots := (t.job i).slots })

/-- R181: while the reset input is asserted the part is held: an impression on the engine is told to abort and the print path is at
rest (R82), the Supply Link is released (R146), and a waiting Check Cartridge is abandoned (R160). That all else takes its reset
value at the release and not before is the model's own (log 29).
R1: a loss of power loses everything volatile and keeps the stored areas: as they were before the last command, as they were right after
any one of its durable writes, or, with its writes all made, as it left them. So each area is as before a write of it or as after it. That
the moment of the loss is given by the number of writes made, and that the shared DRAM is as it was at that moment, is the model's own
account (log 1). -/
def Obligations.ResetInputAndLossOfPower : Prop :=
  (∀ s : State, s.power = true →
      Answers .resetInputAssert s
        { s.quiet with
          nrst := true
          engineOut := if s.print.state = .imaging ∨ s.print.state = .imaged then [EngineMessage.abort s.print.number] else []
          print := .reset
          link := .reset
          checkWait := none }) ∧
  (∀ (writes : Nat) (s : State), s.power = true →
      let moments : List (Stored × Memory) := (s.shadow, s.shadowMem) :: s.afterWrites
      ∃ t, Answers (.lossOfPower writes) s t ∧
        t = { State.reset with
          power := false, stored := t.stored, mem := t.mem, draws := s.draws, levels := s.levels, readData := s.readData,
          env := s.env, shadow := s.shadow, shadowMem := s.shadowMem, pending := s.pending } ∧
        (t.stored, t.mem) = if h : writes < moments.length then moments[writes] else (s.stored, s.mem)) ∧
  (∀ (s : State) (area : AreaId) (st : Stored), s.power = true → s.afterWrites = [] →
    st.same s.stored area = false →
    let t := s.store area st
    ∃ u v w, Answers (.lossOfPower 0) t u ∧ Answers (.lossOfPower 1) t v ∧ Answers (.lossOfPower 2) t w ∧
      u.stored = s.shadow ∧ u.mem = s.shadowMem ∧ v.stored = st ∧ v.mem = s.mem ∧ w.stored = st ∧ w.mem = s.mem)

/-- R5: Set Account is BAD_TICKET for an account number above 511, an operation other than WRITE and VACATE, or a WRITE with a faulty
argument (of which credential action 3 is the model's own, log 20), and NOT_PERMITTED for account 0.
R5, R6: a WRITE of an account other than 0: the quota in effect is never below what is used and reserved, a vacant account
starts afresh, and so does a damaged one, marked before or found by this ticket's own read (R2); the account whose units cannot fit
is BUSY. That LOCKED written over a DAMAGED record leaves no lockout end is the model's own (log 20).
R5, R7: VACATE of an account without a session and without a job clears its record and destroys each HELD slot it owns (no work of the
paths being under one of these); with one of either it is BUSY. -/
def Obligations.SetAccountAnswers : Prop :=
  (∀ (env : Env) (s : State) (k : Ticket), Serves env s .setAccount k →
      let b := s.begin env
      let n := bits (k.w 2) 15 0
      let operation := bits (k.w 2) 23 16
      let malformed := 511 < n ∨ (operation ≠ 1 ∧ operation ≠ 2) ∨ (operation = 1 ∧ WriteArgs.ofTicket k = none)
      (malformed → Answers (.setAccount env) s (b.answered 0 k .badTicket 0 0)) ∧
      (¬malformed → n = 0 → Answers (.setAccount env) s (b.answered 0 k .notPermitted 0 0))) ∧
  (∀ (env : Env) (s : State) (k : Ticket) (a : WriteArgs) (n : Nat), Serves env s .setAccount k →
      n = bits (k.w 2) 15 0 → 1 ≤ n → n ≤ 511 → bits (k.w 2) 23 16 = 1 → WriteArgs.ofTicket k = some a →
      let b := (s.begin env).found n
      let base := if (b.acct n).damaged = true ∨ (b.record n).state = .vacant then AccountRecord.vacant else b.record n
      let committed := base.used + (b.acct n).reserved
      let quota := if a.unlimited = true then a.quota else max a.quota committed
      if a.unlimited = false ∧ 2 ^ 32 ≤ committed then Answers (.setAccount env) s (b.answered 0 k .accountBusy 0 0)
      else
        Answers (.setAccount env) s
          (State.answered
            ((b.putRecord n
              { base with
                state := a.state, mayColour := a.mayColour, mayScan := a.mayScan, needsSession := a.needsSession,
                unlimited := a.unlimited, quota,
                failed := if base.state = .locked ∧ a.state ≠ .locked then 0 else base.failed
                credential :=
                  if a.action = 0 then base.credential
                  else if a.action = 1 then some (Config.keyedDigest.digest a.credential) else none
                checkOk := true }).putAcct n
              { b.acct n with
                damaged := false
                lockoutEnd := if base.state = .locked ∧ a.state = .locked then (b.acct n).lockoutEnd else none })
            0 k .ok quota a.state.code)) ∧
  (∀ (env : Env) (s : State) (k : Ticket) (n : Nat), Serves env s .setAccount k →
      n = bits (k.w 2) 15 0 → 1 ≤ n → n ≤ 511 → bits (k.w 2) 23 16 = 2 →
      let b := s.begin env
      let used := (b.acct n).session.isSome = true ∨ ∃ i < 32, (b.job i).state ≠ .free ∧ (b.job i).account = n
      let taken (i : Nat) : Prop := (b.slot i).state = .held ∧ (b.slot i).owner = some n
      (used → Answers (.setAccount env) s (b.answered 0 k .accountBusy 0 0)) ∧
      (¬used → b.slotsLawful → s.coreSettled → (∀ i < 32, taken i → b.noWorkUnder { idx := i, gen := (b.slot i).gen }) →
        let c := b.found n
        ∃ t, Answers (.setAccount env) s t ∧
          t = State.answered
            { (c.putRecord n .vacant).putAcct n { c.acct n with damaged := false, lockoutEnd := none } with slots := t.slots }
            0 k .ok 0 0 ∧
          ∀ i, (taken i → t.slot i = .free (((b.slot i).gen + 1) % 65536)) ∧ (¬taken i → t.slot i = b.slot i)))

/-- R10, R163: Read Accounts writes the entries of the accounts first to last that fit the area, in ascending order; W13 is their
number, and TRUNCATED is set when not all fit. A write of an entry that fails is captured and ends the entries: those before it stand,
W13 is their number and TRUNCATED is set. That the words before the failing one are stored is the model's own (log 12). -/
def Obligations.ReadAccountsWritesEntries : Prop :=
  ∀ (env : Env) (s : State) (k : Ticket) (first last address capacity : Nat), Serves env s .readAccounts k →
    first = (k.w 2).toNat → last = (k.w 3).toNat → address = (k.w 4).toNat → capacity = (k.w 5).toNat →
    first ≤ last → last ≤ 511 → address ≠ 0 → address % 4 = 0 →
    let b := s.begin env
    (∀ n, first ≤ n → n ≤ last → (b.record n).checkOk = true) →
    let count := last - first + 1
    (env.badWrites = [] →
      Answers (.readAccounts env) s
        (State.answered
          { b with mem := b.mem.putWords address ((List.range' first (min count capacity)).flatMap b.accountEntry) }
          0 k .ok (min count capacity) 0 false (decide (capacity < count)))) ∧
    ∀ (whole bad : Nat) (u v : State), whole < min count capacity →
      b.writeWords address ((List.range' first whole).flatMap b.accountEntry) = (u, none) →
      u.writeWords (address + 52 * whole) (b.accountEntry (first + whole)) = (v, some bad) →
      Answers (.readAccounts env) s (State.answered (v.captureMemory .memoryWrite 0 bad) 0 k .ok whole 0 false true)

/-- R9, R2, R3: Reset Period of one account: its used becomes 0, and nothing else of it changes; a vacant account is refused, and so
is a damaged one, marked before or found by this ticket's own read. A number above 511 that is not ALL is BAD_TICKET.
Of ALL: each record that is neither vacant nor damaged gets used 0, in ascending order, and nothing else of it changes; W13 counts
these, W14 the damaged ones; each failing record met is marked and captured. A loss of power partway leaves the records below some
account as ALL leaves them and the rest as they were, and the ticket in memory ACTIVE as it was. That account 0, written afresh where its record fails,
keeps its toner total is the model's own reading of R3 (log 13). -/
def Obligations.ResetPeriodAnswers : Prop :=
  ∀ (env : Env) (s : State) (k : Ticket) (n : Nat), Serves env s .resetPeriod k → n = bits (k.w 2) 15 0 →
    (n ≤ 511 →
      let b := (s.begin env).found n
      (b.seen n = .vacant → Answers (.resetPeriod env) s (b.answered 0 k .noAccount 0 0)) ∧
      (b.seen n = .damaged → Answers (.resetPeriod env) s (b.answered 0 k .accountDamaged 0 0)) ∧
      (b.seen n ≠ .vacant → b.seen n ≠ .damaged →
        Answers (.resetPeriod env) s (State.answered (b.putRecord n { b.record n with used := 0 }) 0 k .ok 1 0)) ∧
      (n ≠ 0 → ((s.begin env).record n).checkOk = false → b.seen n = .damaged)) ∧
    (511 < n → n ≠ 0xFFFF → Answers (.resetPeriod env) s ((s.begin env).answered 0 k .badTicket 0 0)) ∧
    (n = 0xFFFF →
      let b := s.begin env
      let seen (m : Nat) : SeenState := (b.found m).seen m
      let kept (m : Nat) : Bool := seen m = .vacant || seen m = .damaged
      let failing := (List.range 512).filter (fun m =>
        !(b.record m).checkOk && (if m = 0 then !b.zeroCaptured else !(b.acct m).damaged))
      ∃ u, Answers (.resetPeriod env) s
          (State.answered u 0 k .ok ((List.range 512).filter (fun m => !kept m)).length
            ((List.range 512).filter (fun m => seen m = .damaged)).length) ∧
        u = { b with
          stored := { b.stored with accounts := u.stored.accounts }, accounts := u.accounts, afterWrites := u.afterWrites
          zeroCaptured := b.zeroCaptured || !(b.record 0).checkOk
          faults := (failing.map (fun m =>
            { kind := .storeRecord, lane := none, address := none, time := b.faultTime, detail := m })).foldl .capture b.faults
          notice := if failing = [] then b.notice else b.notice ||| Cause.fault.mask } ∧
        (∀ m < 512, u.acct m = (b.found m).acct m ∧
          u.record m = (if kept m = true then (b.found m).record m else { (b.found m).record m with used := 0 })) ∧
        let done := State.answered u 0 k .ok ((List.range 512).filter (fun m => !kept m)).length
          ((List.range 512).filter (fun m => seen m = .damaged)).length
        let reached (m : Nat) (v : State) : Prop :=
          v.mem = b.mem ∧ ∀ a < 512, v.record a = if a < m then u.record a else b.record a
        (∀ writes v, Answers (.lossOfPower writes) done v →
          (v.stored = done.stored ∧ v.mem = done.mem) ∨ ∃ m ≤ 512, reached m v) ∧
        ∀ m ≤ 512, ∃ writes v, Answers (.lossOfPower writes) done v ∧ reached m v)

/-- R11, R15: Open Session with the right credential for an ACTIVE account that has no session takes the lowest FREE entry.
R12, R15: a wrong credential counts, and at the failure limit the account is LOCKED, with its lockout end unless the period is 0;
a LOCKED account answers ACCOUNT_LOCKED with the seconds left, at least 1 (R13), or 0 when it has no lockout end. -/
def Obligations.OpenSessionAnswers : Prop :=
  (∀ (env : Env) (s : State) (k : Ticket) (n length e : Nat), Serves env s .openSession k →
      n = bits (k.w 2) 15 0 → length = bits (k.w 2) 23 16 → n ≤ 511 → length ≤ 16 →
      let b := s.begin env
      (b.record n).checkOk = true → b.seen n = .active →
      (if n ≠ 0 ∧ (b.record n).credential ≠ none then
          length ≠ 0 ∧ (b.record n).credential = some (Config.keyedDigest.digest (credentialBytes k 3 length))
        else length = 0) →
      (b.acct n).session = none → e < 8 → (b.session e).isOpen = false → (∀ i < e, (b.session i).isOpen = true) →
      let h : Handle := { idx := e, gen := (b.session e).gen }
      Answers (.openSession env) s
        (State.answered
          (((b.putRecord n { b.record n with failed := if n = 0 then (b.record n).failed else 0 }).putSession e
            { isOpen := true, gen := h.gen, account := n, opened := b.dev.clock, last := b.dev.clock }).putAcct n
              { b.acct n with session := some h })
          0 k .ok h.field 0)) ∧
  (∀ (env : Env) (s : State) (k : Ticket) (n length : Nat), Serves env s .openSession k →
      n = bits (k.w 2) 15 0 → length = bits (k.w 2) 23 16 → 1 ≤ n → n ≤ 511 → length ≤ 16 →
      let b := s.begin env
      let timers := b.stored.settings.timers
      (b.record n).checkOk = true →
      (b.seen n = .locked →
        Answers (.openSession env) s (b.answered 0 k .accountLocked 0
          (match (b.acct n).lockoutEnd with
           | none => 0
           | some e => max 1 (e - b.dev.clock)))) ∧
      (b.seen n = .active → b.credentialMatches n (credentialBytes k 3 length) = false →
        let failed := min 15 ((b.record n).failed + 1)
        if timers.failureLimit ≤ failed then
          Answers (.openSession env) s
            (State.answered
              ((b.putRecord n { b.record n with failed, state := .locked }).putAcct n
                { b.acct n with
                  lockoutEnd := if timers.lockoutPeriod = 0 then none else some (b.dev.clock + timers.lockoutPeriod) })
              0 k .badCredential 0 failed)
        else
          Answers (.openSession env) s
            (State.answered (b.putRecord n { b.record n with failed }) 0 k .badCredential 0 failed)))

/-- R16, R18, R33, R34: Close Session ends each job opened with the session that has not ended already: at once, or, with a page in
flight, by way of ENDING; their free reservations return to their accounts, an engine hold of theirs is released. It frees the entry
with its generation advanced, takes the session from its account, and closes OK with the jobs ended in W13 and those gone to ENDING in
W14. -/
def Obligations.CloseSessionEndsJobs : Prop :=
  ∀ (env : Env) (s : State) (k : Ticket) (e : Nat), s.memoryCanonical → Serves env s .closeSession k →
    let b := s.begin env
    let h := Handle.ofField (k.w 2)
    let mine := (List.range 32).filter (b.openUnder h)
    b.sessionOf h = some e →
    ∃ t, Answers (.closeSession env) s t ∧ SessionEnded b t e ∧
      t = { b with
        sessions := t.sessions, accounts := t.accounts, jobs := t.jobs, hold := t.hold, slots := t.slots, print := t.print,
        scan := t.scan, core := t.core, lanes := t.lanes, mem := t.mem, notice := t.notice, faults := t.faults, env := .calm } ∧
      (∀ x, (∀ m p, (b.lane m).service = some p → ¬p.closingByte x) → t.mem.read x = b.mem.read x) ∧
      (t.lane 0).service = none ∧ t.notice.getLsbD (Cause.closed 0).bit = true ∧
      t.mem.word (k.address + 52) = BitVec.ofNat 32 (mine.filter (fun i => !(b.job i).flying)).length ∧
      t.mem.word (k.address + 56) = BitVec.ofNat 32 (mine.filter (fun i => (b.job i).flying)).length ∧
      t.mem.word (k.address + 60) = closingWord 3 0 b.epoch false false

/-- R17, R18: a session is ended by its idle expiry, with its jobs as Close Session ends them, once its idle time has passed with no page
of its jobs in flight, TIMER being set; before that, and while one is in flight, nothing happens.
R13: at its lockout end a LOCKED account becomes ACTIVE with no failures, and TIMER is set.
R40: the engine hold ends once its idle time has passed with no page of its owner in flight, TIMER being set; before that
nothing happens. -/
def Obligations.TimedExpiries : Prop :=
  (∀ (env : Env) (s : State) (e : Nat), s.up = true → s.coreSettled →
      let b := s.begin env
      (∀ i, (b.job i).state ≠ .free → (b.job i).session ≠ some { idx := e, gen := (b.session e).gen }) →
      if (b.session e).isOpen = true ∧ b.stored.settings.timers.sessionIdle ≤ b.dev.clock - (b.session e).last then
        Answers (.sessionIdleExpiry env e) s
          { (b.putSession e (.free (((b.session e).gen + 1) % 256))).putAcct (b.session e).account
              { b.acct (b.session e).account with session := none } with
            notice := b.notice ||| Cause.timer.mask
            env := .calm }
      else Answers (.sessionIdleExpiry env e) s { b with env := .calm }) ∧
  (∀ (env : Env) (s : State) (e : Nat), s.up = true →
      let b := s.begin env
      let h : Handle := { idx := e, gen := (b.session e).gen }
      let inFlight : Prop := ∃ i < 32, (b.job i).state ≠ .free ∧ (b.job i).session = some h ∧ (b.job i).flying = true
      let idle : Prop := b.stored.settings.timers.sessionIdle ≤ b.dev.clock - (b.session e).last
      ((b.session e).isOpen = true → ¬inFlight → idle →
        ∃ t, Answers (.sessionIdleExpiry env e) s t ∧ SessionEnded b t e ∧ t.notice.getLsbD Cause.timer.bit = true ∧
          t = { b with
            sessions := t.sessions, accounts := t.accounts, jobs := t.jobs, hold := t.hold, slots := t.slots, print := t.print,
            scan := t.scan, core := t.core, lanes := t.lanes, mem := t.mem, notice := t.notice, faults := t.faults, env := .calm } ∧
          ∀ x, (∀ m p, (b.lane m).service = some p → ¬p.closingByte x) → t.mem.read x = b.mem.read x) ∧
      ((b.session e).isOpen = false ∨ inFlight ∨ ¬idle → Answers (.sessionIdleExpiry env e) s { b with env := .calm })) ∧
  (∀ (env : Env) (s : State) (n e : Nat), s.up = true →
      let b := s.begin env
      (b.record n).checkOk = true → b.seen n = .locked → (b.acct n).lockoutEnd = some e →
      if e ≤ b.dev.clock then
        Answers (.lockoutExpiry env n) s
          { (b.putRecord n { b.record n with state := .active, failed := 0 }).putAcct n { b.acct n with lockoutEnd := none } with
            notice := b.notice ||| Cause.timer.mask
            env := .calm }
      else Answers (.lockoutExpiry env n) s { b with env := .calm }) ∧
  (∀ (env : Env) (s : State) (e : EngineHold), s.up = true → s.hold = some e →
      let b := s.begin env
      let inFlight : Prop :=
        ∃ i, b.jobOf e.owner = some i ∧ ((b.job i).printFlight = true ∨ (b.job i).scanFlight = true)
      (¬inFlight → b.stored.settings.timers.holdIdle ≤ b.dev.clock - e.last →
        Answers (.engineHoldIdleExpiry env) s
          { b with hold := none, notice := b.notice ||| Cause.timer.mask, env := .calm }) ∧
      (inFlight ∨ b.dev.clock - e.last < b.stored.settings.timers.holdIdle →
        Answers (.engineHoldIdleExpiry env) s { b with env := .calm }))

/-! ### Jobs and the engine hold -/

/-- R23, R24: Open Job takes the lowest FREE entry and grants the smaller of the units asked for and the account's available units,
which are reserved. Activity of a named session is recorded first (R17).
R32: Resume Job grants in the same way, up to a free reservation of 32 bits, and a QUOTA_STOPPED job is OPEN again. -/
def Obligations.JobGrants : Prop :=
  (∀ (env : Env) (s : State) (k : Ticket) (a : OpenJobArgs) (i : Nat), Serves env s .openJob k →
      OpenJobArgs.ofTicket k = some a →
      let b := (s.begin env).touchOptSession a.session
      let n := a.account
      (b.record n).checkOk = true → b.seen n = .active →
      (b.needsSession n = true ∨ a.session ≠ none → b.ownSession a.session n = true) → (a.kind ≠ .print → b.mayScan n = true) →
      i < 32 → (b.job i).state = .free → (∀ j < i, (b.job j).state ≠ .free) →
      let grant :=
        if b.unlimited n = true then a.units else min a.units ((b.record n).quota - (b.record n).used - (b.acct n).reserved)
      let h : Handle := { idx := i, gen := (b.job i).gen }
      Answers (.openJob env) s
        (State.answered
          ((b.putJob i
            { Job.freed h.gen with
              state := .opened, kind := a.kind, account := n, session := a.session, tag := a.tag, free := grant }).putAcct n
            { b.acct n with reserved := (b.acct n).reserved + grant })
          0 k .ok grant h.field)) ∧
  (∀ (env : Env) (s : State) (k : Ticket) (i : Nat), Serves env s .resumeJob k →
      let h := Handle.ofField (k.w 2)
      let b := (s.begin env).touchJob h
      let j := b.job i
      let n := j.account
      b.jobOf h = some i → j.state ≠ .ending → (b.record n).checkOk = true → b.seen n = .active →
      let units := (k.w 3).toNat
      let grant :=
        min (if b.unlimited n = true then units else min units ((b.record n).quota - (b.record n).used - (b.acct n).reserved))
          (2 ^ 32 - 1 - j.free)
      Answers (.resumeJob env) s
        (State.answered
          ((b.putJob i { j with state := .opened, free := j.free + grant }).putAcct n
            { b.acct n with reserved := (b.acct n).reserved + grant })
          0 k .ok grant (j.free + grant)))

/-- R33, R34: End Job of a job without slots and without a page waiting in admission: its free reservation returns to its account and
an engine hold it owns is released; with no page in flight its entry becomes FREE with the generation advanced, otherwise it is
ENDING and the answer DEFERRED. -/
def Obligations.EndJobEndsOrDefers : Prop :=
  ∀ (env : Env) (s : State) (k : Ticket) (i : Nat), Serves env s .endJob k →
    let h := Handle.ofField (k.w 2)
    let b := (s.begin env).touchJob h
    let j := b.job i
    b.jobOf h = some i → j.state ≠ .ending → j.slots = [] → b.print.state ≠ .waiting → b.scan.state ≠ .waiting →
    s.coreSettled →
    let released := b.putAcct j.account { b.acct j.account with reserved := (b.acct j.account).reserved - j.free }
    let hold := if b.hold.map (·.owner) = some h then none else b.hold
    if j.printFlight = true ∨ j.scanFlight = true then
      Answers (.endJob env) s
        (State.answered { released.putJob i { j with state := .ending, free := 0 } with hold } 0 k .deferred j.total j.charged)
    else
      Answers (.endJob env) s
        (State.answered { released.putJob i (.freed ((j.gen + 1) % 256)) with hold } 0 k .ok j.total
          j.charged true)

/-- R33, R108: at its job's end each attached slot is HELD until its keep-minutes have passed, or destroyed when it has none; other
slots are untouched. -/
def Obligations.EndJobLeavesHeldSlots : Prop :=
  ∀ (env : Env) (s : State) (k : Ticket) (i : Nat), Serves env s .endJob k →
    let h := Handle.ofField (k.w 2)
    let b := (s.begin env).touchJob h
    let j := b.job i
    b.jobOf h = some i → j.state ≠ .ending → j.printFlight = false → j.scanFlight = false →
    b.print.state ≠ .waiting → b.scan.state = .idle → (j.slots.map (·.idx)).Nodup → (∀ x ∈ j.slots, x.idx < 32) →
    ∃ t, Answers (.endJob env) s t ∧ (t.job i).state = .free ∧
      t = { b with
        accounts := t.accounts, jobs := t.jobs, slots := t.slots, hold := t.hold, core := t.core, lanes := t.lanes,
        mem := t.mem, notice := t.notice, env := .calm } ∧
      (∀ x, ¬k.closingByte x → t.mem.read x = b.mem.read x) ∧
      ∀ n, t.slot n = if n ∈ j.slots.map (·.idx) then (b.slot n).afterJob b.dev.clock else b.slot n

/-- R37, R38, R39: Take Hold for an OPEN job that may print; Release Hold; a hold of another job refuses both with its account. -/
def Obligations.EngineHoldTickets : Prop :=
  ∀ (env : Env) (s : State) (k : Ticket) (i : Nat),
    let h := Handle.ofField (k.w 2)
    let b := (s.begin env).touchJob h
    let n := (b.job i).account
    let own : Prop := ∀ e, b.hold = some e → e.owner = h
    b.jobOf h = some i → (b.job i).state = .opened →
    (Serves env s .takeHold k → (b.job i).kind ≠ .scan → (b.record n).checkOk = true → b.seen n = .active →
      (own → Answers (.takeHold env) s
        (State.answered { b with hold := some { owner := h, account := n, last := b.dev.clock } } 0 k .ok
          (if b.hold = none then 1 else 0) 0)) ∧
      (∀ e, b.hold = some e → e.owner ≠ h →
        Answers (.takeHold env) s (State.answered b 0 k .heldByOther 0 e.account))) ∧
    (Serves env s .releaseHold k →
      (own → Answers (.releaseHold env) s
        (State.answered { b with hold := none } 0 k .ok (if b.hold = none then 0 else 1) 0)) ∧
      (∀ e, b.hold = some e → e.owner ≠ h →
        Answers (.releaseHold env) s (State.answered b 0 k .heldByOther 0 e.account)))

/-- R25: Open Job, Resume Job and End Job keep every account's reserved equal to the sum of its jobs' free reservations and holds.
R8, R25, R26, R29: so does every step, settlements, top-ups and the ends of sessions among them, together with used and reserved
within the quota, and with what links a page in flight to its job. -/
def Obligations.JobTicketsKeepBalance : Prop :=
  (∀ (env : Env) (s t : State) (c : Instr), c = .openJob env ∨ c = .resumeJob env ∨ c = .endJob env → s.balanced →
      Answers c s t → t.balanced) ∧
    ∀ s t : State, s.unitsLawful → step s = .next t → t.unitsLawful

/-! ### Key slots -/

/-- R104: Open Slot takes the lowest FREE slot for the job, with the next key the random source gives, which is none of those drawn
before. -/
def Obligations.OpenSlotDrawsKey : Prop :=
  ∀ (env : Env) (s : State) (k : Ticket) (i j : Nat), Serves env s .openSlot k →
    let h := Handle.ofField (k.w 2)
    let b := (s.begin env).touchJob h
    let uses := BitVec.ofNat 4 (bits (k.w 3) 3 0)
    let n := (b.job i).account
    uses ≠ 0 → bits (k.w 3) 9 8 ≤ 1 → b.jobOf h = some i → (b.job i).state = .opened → (b.record n).checkOk = true →
    b.seen n = .active → (b.job i).slots.length < 4 → j < 32 → (b.slot j).state = .free →
    (∀ m < j, (b.slot m).state ≠ .free) →
    let minutes := if bits (k.w 3) 9 8 = 1 then b.stored.settings.timers.heldSlotTime else 0
    let gen := (b.slot j).gen
    let key := Config.randomSource.key b.draws
    Answers (.openSlot env) s
      (State.answered
        { (b.putSlot j
            { state := .live, gen, owner := some n, job := some h, uses, page := 0, keep := minutes, expiry := none,
              key := some key }).putJob i { b.job i with slots := (b.job i).slots ++ [{ idx := j, gen }] } with
          draws := b.draws + 1 }
        0 k .ok (SlotHandle.word { idx := j, gen }) minutes) ∧
    (b.draws < 2 ^ 256 → ∀ d < b.draws, Config.randomSource.key d ≠ key)

/-- R107, R109: Keep Slot sets the minutes of a LIVE slot attached to the job, at most 4320; Attach Slot makes a HELD slot of the
job's account, named with an open session of that account, LIVE under the job. That the uses stand in bits 3..0 of Attach Slot's W14 is
the model's own (log 42). -/
def Obligations.KeepAndAttachSlot : Prop :=
  ∀ (env : Env) (s : State) (k : Ticket) (i : Nat),
    let h := SlotHandle.ofWord (k.w 2)
    let job := Handle.ofField (k.w 3)
    let session := Handle.ofField (k.w 4)
    (Serves env s .keepSlot k →
      let b := (s.begin env).touchJob job
      b.jobOf job = some i → (b.job i).state ≠ .ending → b.slotOf h = some h.idx → (b.slot h.idx).state = .live →
      (b.slot h.idx).job = some job →
      let minutes := min 4320 (bits (k.w 4) 15 0)
      Answers (.keepSlot env) s
        (State.answered (b.putSlot h.idx { b.slot h.idx with keep := minutes }) 0 k .ok minutes 0)) ∧
    (Serves env s .attachSlot k →
      let b := ((s.begin env).touchJob job).touchSession session
      let n := (b.job i).account
      b.jobOf job = some i → (b.job i).state = .opened → b.slotOf h = some h.idx → (b.slot h.idx).state = .held →
      b.sessionAccount session = some n → (b.slot h.idx).owner = some n → (b.record n).checkOk = true → b.seen n = .active →
      (b.job i).slots.length < 4 →
      Answers (.attachSlot env) s
        (State.answered
          ((b.putSlot h.idx { b.slot h.idx with state := .live, job := some job, expiry := none, keep := 0 }).putJob i
            { b.job i with slots := (b.job i).slots ++ [h] })
          0 k .ok (b.slot h.idx).page (b.slot h.idx).uses.toNat))

/-- R110, R111, R112: a slot under which no work of the paths ends is destroyed by its owner's session, by a job of its owner, or by its
expiry: it is FREE with nothing in it and its generation advanced, and its handle leaves its job's list.
R113: destroyed while bands of an impression in flight that name it are in the core or wait for it, it ends the impression at the first
of these as a mismatch of its tag: before imaging CIPHER_FAIL with the band's index, in IMAGING SPOILED, cause CIPHER; the Destroy Slot
closes OK all the same. Which of these bands is the first (the one in the core, then in queue order), whose index W14 carries, and that a
waiting band fails at the destruction itself, is the model's own reading (log 23). That the impression's ticket is closed before the
Destroy Slot is the model's choice (log 47). -/
def Obligations.SlotsAreDestroyed : Prop :=
  (∀ (env : Env) (s : State) (k : Ticket) (i n : Nat), s.coreSettled →
    let h := SlotHandle.ofWord (k.w 2)
    (∀ session : Handle, Serves env s .destroySlot k → Handle.optOfField (k.w 3) = none →
      Handle.optOfField (k.w 4) = some session →
      let b := (s.begin env).touchSession session
      b.slotOf h = some h.idx → b.sessionAccount session = some n → (b.slot h.idx).owner = some n → b.noWorkUnder h →
      Answers (.destroySlot env) s
        (State.answered (b.slotGone h) 0 k .ok (b.slot h.idx).state.code (b.slot h.idx).page)) ∧
    (∀ job : Handle, Serves env s .destroySlot k → Handle.optOfField (k.w 3) = some job →
      Handle.optOfField (k.w 4) = none →
      let b := (s.begin env).touchJob job
      b.slotOf h = some h.idx → b.jobOf job = some i → (b.job i).state ≠ .ending → (b.job i).account = n →
      (b.slot h.idx).owner = some n → b.noWorkUnder h →
      Answers (.destroySlot env) s
        (State.answered (b.slotGone h) 0 k .ok (b.slot h.idx).state.code (b.slot h.idx).page)) ∧
    (∀ e, s.up = true → s.slotsLawful → (s.slot i).state = .held → (s.slot i).expiry = some e →
      s.noWorkUnder { idx := i, gen := (s.slot i).gen } →
      let b := s.begin env
      if e ≤ b.dev.clock then
        Answers (.heldSlotExpiry env i) s
          { b.putSlot i (.free (((b.slot i).gen + 1) % 65536)) with
            notice := b.notice ||| Cause.timer.mask, env := .calm }
      else Answers (.heldSlotExpiry env i) s { b with env := .calm })) ∧
  (∀ (env : Env) (s : State) (k p : Ticket) (session : Handle) (n x j : Nat) (a : PrintArgs) (cap : PrintCapture),
    Serves env s .destroySlot k → Handle.optOfField (k.w 3) = none → Handle.optOfField (k.w 4) = some session →
    let h := SlotHandle.ofWord (k.w 2)
    let b := (s.begin env).touchSession session
    let gone := b.slotGone h
    b.slotOf h = some h.idx → b.sessionAccount session = some n → (b.slot h.idx).owner = some n → b.scan.state = .idle →
    (b.bandsAtCore h).head? = some x → gone.impression a cap j p →
    (b.print.state = .preparing → b.print.sums = ⟨0, 0, 0, 0⟩ → b.print.counts = ⟨0, 0, 0, 0⟩ →
      ∃ t u, Answers (.destroySlot env) s t ∧ NotImaged gone u a j p .cipherFail .cipher x ∧
        t = { u.answered 0 k .ok (b.slot h.idx).state.code (b.slot h.idx).page with core := t.core }) ∧
    (b.print.state = .imaging →
      ∃ t u, Answers (.destroySlot env) s t ∧ SpoiledEnd gone u a cap j p .cipher true ∧
        t = { u.answered 0 k .ok (b.slot h.idx).state.code (b.slot h.idx).page with core := t.core }))

/-- R93, R95, R94, section 6.4.1: destroying the slot of a page being scanned, before its page end, fails the page SCAN_INTERRUPTED: its
ticket closes with the page number and the band records written, nothing is charged (the account's reserved and used stay, the hold
returns to the job), the path rests with the drain mark set, and the slot is FREE.
R97, R99, section 6.4.1: destroying the slot of an Encipher Bands or Decipher Bands ticket one of whose bands is in the core or waits for
it ends the ticket BAD_SLOT; the Destroy Slot closes OK. That a band which waits for the core ends the ticket at the destruction itself,
and not at its turn, is the model's own reading (log 23), and that the ended work's ticket is closed before the Destroy Slot is its
choice (log 47). -/
def Obligations.DestroySlotFailsScan : Prop :=
  (∀ (env : Env) (s : State) (k : Ticket) (session : Handle) (n i : Nat) (a : ScanArgs) (p : Ticket), s.memoryCanonical →
    Serves env s .destroySlot k → Handle.optOfField (k.w 3) = none → Handle.optOfField (k.w 4) = some session →
    let h := SlotHandle.ofWord (k.w 2)
    let b := (s.begin env).touchSession session
    b.slotOf h = some h.idx → b.sessionAccount session = some n → (b.slot h.idx).owner = some n →
    b.scan.state = .scanning → b.scan.work = .page → b.scan.failed = none → b.scan.pageEnd = false → b.scan.args = some a →
    a.slot = h → b.writingBuffer = none → b.core.printQueue = [] → b.core.band = none →
    (b.lane 1).service = some p → b.jobOf a.job = some i → (b.job i).state = .opened → b.closesFreely p →
    (∀ x, p.closingByte x → ¬k.closingByte x) →
    ∃ t, Answers (.destroySlot env) s t ∧
      t = { b with
        slots := t.slots, jobs := t.jobs, scan := t.scan, core := t.core, accounts := t.accounts, stored := t.stored,
        sessions := t.sessions, hold := t.hold, lanes := t.lanes, mem := t.mem, notice := t.notice, faults := t.faults,
        zeroCaptured := t.zeroCaptured, afterWrites := t.afterWrites, env := .calm } ∧
      (∀ x, ¬k.closingByte x → ¬p.closingByte x → t.mem.read x = b.mem.read x) ∧ t.scan = { ScanPath.reset with drain := true } ∧
      t.slot h.idx = .free (((b.slot h.idx).gen + 1) % 65536) ∧ (t.lane 1).service = none ∧ (t.lane 0).service = none ∧
      t.notice.getLsbD (Cause.closed 1).bit = true ∧ t.notice.getLsbD (Cause.closed 0).bit = true ∧
      (t.job i).scanFlight = false ∧ (t.job i).scanHold = 0 ∧ (t.job i).free = (b.job i).free + (b.job i).scanHold ∧
      (t.job i).total = min (b.job i).total (2 ^ 32 - 1) ∧
      t.mem.word (p.address + 52) = BitVec.ofNat 32 b.scan.page ∧ t.mem.word (p.address + 56) = BitVec.ofNat 32 b.scan.written ∧
      t.mem.word (p.address + 60) = closingWord 3 26 b.epoch false b.scan.truncation ∧
      (t.acct (b.job i).account).reserved = (b.acct (b.job i).account).reserved ∧
      (t.record (b.job i).account).used ≤ (b.record (b.job i).account).used ∧
      ((b.record (b.job i).account).checkOk = true → (b.record (b.job i).account).used < 2 ^ 32 →
        (t.record (b.job i).account).used = (b.record (b.job i).account).used)) ∧
  ∀ (env : Env) (s : State) (k p : Ticket) (session : Handle) (n : Nat),
    Serves env s .destroySlot k → Handle.optOfField (k.w 3) = none → Handle.optOfField (k.w 4) = some session →
    let h := SlotHandle.ofWord (k.w 2)
    let b := (s.begin env).touchSession session
    b.slotOf h = some h.idx → b.sessionAccount session = some n → (b.slot h.idx).owner = some n →
    b.scan.state = .ciphering → b.scan.failed = none → b.scan.work ≠ .page → b.scanSlot = h →
    (∃ i < 2, (b.buffer i).cond = .ciphering) → (b.lane 1).service = some p → b.closesFreely p →
    (∀ c, b.core.band = some c → c.path = .scan) → (∀ i ∈ b.core.printQueue, b.bandSlot i ≠ h) →
    ∃ t u, Answers (.destroySlot env) s t ∧ CipherFails (b.slotGone h) u p .badSlot ∧
      t = { u.answered 0 k .ok (b.slot h.idx).state.code (b.slot h.idx).page with core := t.core }

/-! ### Device Control -/

/-- R178: Configure of a section other than SUPPLY whose values change no line's normal status: they are clamped, stored, in effect,
and reported in the result. A section that is none of the five, or an address that is 0 or not aligned, is BAD_TICKET, and so are
malformed values; a source that cannot be read is MEMORY_FAULT; nothing is changed then.
R163: a write of the result that fails is captured, and the ticket closes as it would; the words before it are stored (log 12).
R116, R125, R128: Configure of SUPPLY: the policy's change turns records with a BAD_PROOF to PERMITTED or back, the level of every
record that is then trusted follows the low threshold in effect, and no other record's values change; the four values in effect are
reported and the ticket closes OK. That records not trusted keep their level, where R125 speaks of every record, is the model's own
reading (log 14), and so are that the change of policy comes before the levels and that the fault of a source
that cannot be read carries lane 0 (log 30). -/
def Obligations.ConfigureSections : Prop :=
  (∀ (env : Env) (s : State) (k : Ticket) (n length : Nat) (ws : List Word) (x : Section), Serves env s .configure k →
      let b := s.begin env
      n = (k.w 2).toNat → sectionLength n = some length → areaOk (k.w 3).toNat = true → areaOk (k.w 4).toNat = true →
      b.readWords (k.w 3).toNat length = .ok ws → Section.ofWords n ws = some x → n ≠ 3 →
      (∀ y, x = .sense y → abnormalLines y b.levels = b.abnormal) → s.coreSettled →
      let c := b.store .settings { b.stored with settings := b.stored.settings.put x.clamped, settingsOk := true }
      (env.badWrites = [] →
        Answers (.configure env) s
          (State.answered { c with mem := b.mem.putWords (k.w 4).toNat x.clamped.words } 0 k .ok n 0)) ∧
      ∀ (u : State) (bad : Nat), c.writeWords (k.w 4).toNat x.clamped.words = (u, some bad) →
        Answers (.configure env) s (State.answered (u.captureMemory .memoryWrite 0 bad) 0 k .ok n 0)) ∧
  (∀ (env : Env) (s : State) (k : Ticket), Serves env s .configure k →
      let b := s.begin env
      let n := (k.w 2).toNat
      (sectionLength n = none ∨ areaOk (k.w 3).toNat = false ∨ areaOk (k.w 4).toNat = false →
        Answers (.configure env) s (b.answered 0 k .badTicket 0 0)) ∧
      ∀ length, sectionLength n = some length → areaOk (k.w 3).toNat = true → areaOk (k.w 4).toNat = true →
        (∀ bad, b.readWords (k.w 3).toNat length = .error bad →
          Answers (.configure env) s (State.answered (b.captureMemory .memoryRead 0 bad) 0 k .memoryFault 0 0)) ∧
        ∀ ws, b.readWords (k.w 3).toNat length = .ok ws → Section.ofWords n ws = none →
          Answers (.configure env) s (b.answered 0 k .badTicket 0 0)) ∧
  (∀ (env : Env) (s : State) (k : Ticket) (ws : List Word) (x : SupplySettings), Serves env s .configure k →
      let b := s.begin env
      let old := b.stored.settings.supply
      (k.w 2).toNat = 3 → areaOk (k.w 3).toNat = true → areaOk (k.w 4).toNat = true → env.badWrites = [] →
      b.readWords (k.w 3).toNat 4 = .ok ws → SupplySettings.ofWords ws = some x →
      ∃ u, Answers (.configure env) s (State.answered u 0 k .ok 3 0) ∧
        u = { b with
          stored := { b.stored with settings := { b.stored.settings with supply := x.clamped }, settingsOk := true }
          mem := b.mem.putWords (k.w 4).toNat
            ([if x.policy = .strict then 1 else 2, min 1000 x.lowPermille, max 1 (min 255 x.writeBack),
              min 7 x.retryLimit].map (BitVec.ofNat 32))
          carts := u.carts, link := u.link, notice := u.notice, afterWrites := u.afterWrites } ∧
        ∀ slot, 1 ≤ slot → slot ≤ 5 →
          let c := b.cart slot
          let d := u.cart slot
          ((d.auth, d.reason) =
            if old.policy = .strict ∧ x.policy = .lenient ∧ c.auth = .rejected ∧ c.reason = some .badProof then (.permitted, none)
            else if old.policy = .lenient ∧ x.policy = .strict ∧ c.auth = .permitted then (.rejected, some .badProof)
            else (c.auth, c.reason)) ∧
          d.values = c.values.map (fun v =>
            { v with
              level :=
                if d.trusted = false then v.level
                else if v.remaining = 0 then .empty
                else if v.remaining ≤ v.capacity * (min 1000 x.lowPermille) / 1000 then .low else .normal }))

/-- R177, R179: Status Digest writes its record and answers with the clock and the epoch; Clear Faults clears the fault capture record
and answers with what it held. The epoch is that of the present start (R156).
R161: a Clear Faults whose own words cannot be written closes all the same: each failing word is captured with lane 0 and its address,
after the record was cleared, the words after it are written, and CLOSED is set. What the digest shows of FREE entries is the model's own
(log 18), and so is that a failing word is not stored at all and that the fault holds the word's own address (log 12). -/
def Obligations.DigestAndClearFaults : Prop :=
  ∀ (env : Env) (s : State) (k : Ticket),
    (Serves env s .statusDigest k → areaOk (k.w 2).toNat = true → env.badWrites = [] →
      let session := Handle.optOfField (k.w 3)
      let b := (s.begin env).touchOptSession session
      (∀ h, session = some h → ((s.begin env).sessionOf h).isSome) →
      Answers (.statusDigest env) s
        (State.answered { b with mem := b.mem.putWords (k.w 2).toNat b.digest } 0 k .ok b.dev.clock (b.dev.startCount % 256))) ∧
    (Serves env s .clearFaults k →
      let b := s.begin env
      Answers (.clearFaults env) s
        (State.answered { b with faults := { first := none, again := 0, later := 0 } } 0 k .ok
          (match b.faults.first with
           | none => 0
           | some f => f.kind.code)
          b.faults.later)) ∧
    ((s.begin env).serving .clearFaults = some k → stateGate (s.begin env).dev.op .clearFaults = none →
      let b := s.begin env
      Answers (.clearFaults env) s
        (State.closedAnyhow { b with faults := { first := none, again := 0, later := 0 } } 0 k .ok
          (match b.faults.first with
           | none => 0
           | some f => f.kind.code)
          b.faults.later))

/-- R175: Resume Service is refused outside WITHDRAWN, within the dwell and with PRIVACY departed; otherwise its test runs, and when
that passes with PRIVACY normal the part is RUNNING again. A failing test is captured. That its test begins also while the periodic
test still runs is the model's own (log 33). -/
def Obligations.ResumeServiceDwellsAndTests : Prop :=
  ∀ (env : Env) (s : State) (k : Ticket),
    let b := s.begin env
    let since := b.dev.clock - b.dev.entryTime.getD 0
    (Serves env s .resumeService k →
      (b.dev.op ≠ .withdrawn → Answers (.resumeService env) s (b.answered 0 k .badState 0 1)) ∧
      (b.dev.op = .withdrawn → since < 2 → Answers (.resumeService env) s (b.answered 0 k .dwell 0 (2 - since))) ∧
      (b.dev.op = .withdrawn → 2 ≤ since → b.privacyDeparted = true →
        Answers (.resumeService env) s (b.answered 0 k .badState 0 2)) ∧
      (b.dev.op = .withdrawn → 2 ≤ since → b.privacyDeparted = false →
        Answers (.resumeService env) s
          { State.underService { b with core := { b.core with resumeTest := true } } 0 k with env := .calm })) ∧
    (s.up = true → s.core.resumeTest = true → (s.lane 0).service = some k → b.closesFreely k → b.core.printQueue = [] →
      b.core.scanWaiting = none →
      let ended := { b with core := { b.core with resumeTest := false } }
      (b.privacyDeparted = false →
        Answers (.resumeServiceTestEnd env true) s
          (State.answered
            { ended with core := { ended.core with count := 0 }, dev := { b.dev with op := .running } } 0 k .ok 0 0)) ∧
      (b.privacyDeparted = true →
        Answers (.resumeServiceTestEnd env true) s
          (State.answered { ended with core := { ended.core with count := 0 } } 0 k .badState 0 2)) ∧
      Answers (.resumeServiceTestEnd env false) s
        (State.answered
          { ended with
            faults := b.faults.capture
              { kind := .cipherCheck, lane := none, address := none, time := b.dev.clock, detail := 2 }
            notice := b.notice ||| Cause.fault.mask } 0 k .badState 0 3))

/-- R174: after 4096 bands the free core runs its known-answer test; when it passes the count starts again; when it fails in RUNNING
the fault is captured, the part is WITHDRAWN and no key is left. That it does not begin while Resume Service's test runs is the model's
own (log 33). -/
def Obligations.PeriodicSelfTest : Prop :=
  ∀ (env : Env) (s : State), s.up = true →
    (if 4096 ≤ s.core.count ∧ s.core.band = none ∧ s.core.periodicTest = false ∧ s.core.resumeTest = false then
        Answers .periodicSelfTest s { s.quiet with core := { s.core with periodicTest := true } }
      else Answers .periodicSelfTest s s.quiet) ∧
    (s.core.periodicTest = true →
      let b := s.begin env
      let ended := { b with core := { b.core with periodicTest := false, count := 0 } }
      Answers (.periodicSelfTestEnd env true) s { ended.pumpCore with env := .calm } ∧
      (s.dev.op = .running → s.slotsLawful →
        ∃ t, Answers (.periodicSelfTestEnd env false) s t ∧
          t = { b with
            dev := t.dev, core := t.core, slots := t.slots, print := t.print, scan := t.scan, jobs := t.jobs,
            accounts := t.accounts, stored := t.stored, sessions := t.sessions, hold := t.hold, carts := t.carts,
            link := t.link, lanes := t.lanes, notice := t.notice, faults := t.faults, zeroCaptured := t.zeroCaptured,
            mem := t.mem, engineOut := t.engineOut, afterWrites := t.afterWrites, env := .calm } ∧
          t.dev = { b.dev with op := .withdrawn, entryTime := some b.dev.clock } ∧
          (∀ i, (t.slot i).state = .free ∧ (t.slot i).key = none) ∧ t.core.band = none ∧ t.core.count = 0 ∧
          t.notice.getLsbD Cause.fault.bit = true ∧
          (b.faults.first = none →
            t.faults.first =
              some { kind := .cipherCheck, lane := none, address := none, time := b.dev.clock, detail := 1 })))

/-! ### The print path -/

/-- R62 to R66: a Print Impression whose arguments and band list are valid, for an OPEN job that may print it, with the engine ready and
every cartridge it needs usable, is admitted when its hold is covered: by the job's free reservation, or by a top-up from its account's
available units (R26). Otherwise it is refused NO_QUOTA with those units and its OPEN job is QUOTA_STOPPED (R27). With a ready line
abnormal it waits; with a needed cartridge refusing it is refused SUPPLY, with one pending it waits and asks for the CHECKs. A waiting
one takes its checks again when its ready line returns, when the ENGINE group departs, or when its pending cartridge's CHECK ends.
R59, R17: a band list that cannot be read refuses it MEMORY_FAULT, which is activity for the session of the job it names. That words 4
and 5 of a plaintext entry are read too, where section 12.3 reads them only when the cipher flag is set, is the model's own (log 34), and
so are the lane of the fault's capture (log 30) and that such a refusal is activity (log 19). -/
def Obligations.PrintImpressionAdmission : Prop :=
  ∀ (env : Env) (s : State) (a : PrintArgs) (table : List BandEntry) (i : Nat),
    let b := (s.begin env).touchJob a.job
    let j := b.job i
    let n := j.account
    let available := (b.record n).quota - (b.record n).used - (b.acct n).reserved
    let hold := (PrintCapture.ofSettings b.stored.settings a.size).hold a.colour
    let needed := neededSlots a.colour
    let mask (refusing : List Nat) : Nat := (refusing.map (fun m => 2 ^ (m - 1))).sum
    let waiting (w : PrintWait) : PrintPath := { b.print with state := .waiting, wait := some w, args := some a, table }
    let emptied : Core := { b.core with printQueue := [] }
    (∀ (k : Ticket) (bad : Nat), Serves env s .printImpression k → 1 ≤ (k.w 7).toNat → (k.w 7).toNat ≤ 256 →
      (k.w 6).toNat % 4 = 0 → (s.begin env).readWords (k.w 6).toNat (6 * (k.w 7).toNat) = .error bad →
      Answers (.printImpression env) s
        (State.answered (((s.begin env).touchJob (Handle.ofField (k.w 2))).captureMemory .memoryRead 2 bad) 2 k .memoryFault 0
          65535)) ∧
    (∀ k : Ticket, PrintOffered env s k a table → b.printAllowed a table i → (∀ m ∈ [0, 1, 2], b.lineAbnormal m = false) →
      (b.lineAbnormal 5 = true ∨ b.lineAbnormal 7 = true →
        Answers (.printImpression env) s { State.underService { b with print := waiting .ready } 2 k with env := .calm }) ∧
      (b.lineAbnormal 5 = false → b.lineAbnormal 7 = false →
        let refusing := needed.filter (fun m => b.supplyClass m = .refusing)
        (refusing ≠ [] → b.core.band = none →
          Answers (.printImpression env) s
            (State.answered { b with print := b.print.ended, core := emptied } 2 k .supply 0 (mask refusing))) ∧
        (refusing = [] → (∃ m ∈ needed, b.supplyClass m = .pending) →
          Answers (.printImpression env) s
            { State.underService
                { b with
                  print := waiting .supply
                  link := { b.link with
                    queue := (needed.filter (fun m => (b.cart m).auth = .unchecked)).foldl
                      (fun q m => requestIn q m .check false) b.link.queue } } 2 k with
              env := .calm }) ∧
        ((∀ m ∈ needed, b.supplyClass m = .usable) →
          (b.covers n j.free hold →
            Answers (.printImpression env) s { (b.printAdmitted a table i).underService 2 k with env := .calm }) ∧
          (¬b.covers n j.free hold → b.core.band = none →
            Answers (.printImpression env) s
              (State.answered
                { b.putJob i { j with state := .quotaStopped } with print := b.print.ended, core := emptied }
                2 k .noQuota 0 available))))) ∧
    (s.print.state = .waiting → s.print.args = some a → s.print.table = table → b.printAllowed a table i →
      (∀ m ∈ [0, 1, 2], b.lineAbnormal m = false) →
      (∀ (line : Fin 8) (high : Bool), s.alive = true → s.levels.getLsbD line.val ≠ high →
        b.stored.settings.sense.watch.getLsbD line.val = true → s.coreSettled →
        let levels := b.levels ^^^ BitVec.twoPow 8 line.val
        (line = 5 ∨ line = 7 → s.print.wait = some .ready → b.lineAbnormal line.val = true →
          (∀ m ∈ [5, 7], m ≠ line.val → b.lineAbnormal m = false) → (∀ m ∈ needed, b.supplyClass m = .usable) →
          b.covers n j.free hold →
          Answers (.senseLineEdge env line high) s { b.printAdmitted a table i with levels, env := .calm }) ∧
        (∀ k : Ticket, line = 2 → (b.lane 2).service = some k → b.closesFreely k → b.core.band = none → b.core.scanWaiting = none →
          Answers (.senseLineEdge env line high) s
            (State.answered
              { b with levels, notice := b.notice ||| Cause.sense.mask, print := b.print.ended, core := emptied }
              2 k .engineNotReady 0 0))) ∧
      (∀ (k : Ticket) (p : Procedure) (rest : List Procedure) (tr : Transaction), s.up = true → s.print.wait = some .supply →
        b.lineAbnormal 5 = false → b.lineAbnormal 7 = false → (b.lane 2).service = some k → b.closesFreely k →
        b.core.band = none → s.checkWait = none → s.link.state = .response → s.link.transaction = some tr →
        tr.discarded = false → b.stored.settings.supply.retryLimit ≤ tr.retries → s.link.queue = p :: rest →
        p.running = true → p.kind = .check → p.phase = some .identify → p.waiter = false → p.slot ∈ needed →
        b.supplyClass p.slot = .pending →
        Answers (.responseDeadline env) s
          (State.answered
            { b with
              carts := putAt b.carts (p.slot - 1)
                { b.cart p.slot with
                  auth := .absent, reason := none, id := none, kind := none, values := none, unproven := false }
              link := { b.link with state := .idle, queue := rest, transaction := none, frame := [] }
              notice := b.notice ||| Cause.supply.mask, print := b.print.ended, core := emptied }
            2 k .supply 0 (mask (needed.filter (fun m => decide (m = p.slot) || b.supplyClass m = .refusing))))))

/-- R67, R69: the read of a plain band that completes in IMAGING makes it READY with its lines; in PREPARING imaging starts, with a
START message under the next impression number, once band 0 of every plane is READY and the cartridges are still usable; with one that
is not, the impression ends before imaging, SUPPLY with the slots' mask.
R67, R68, R84, R105: the read of an enciphered band whose key request is granted presents it to the core, which takes it when it is
free; otherwise it waits behind the print bands that wait. A refused key request ends the impression as a mismatch of its tag: in
PREPARING before imaging, CIPHER_FAIL with the band's index (R70); in IMAGING SPOILED, cause CIPHER (R73).
R70, R73: a read that fails is captured, and ends the impression: in PREPARING before imaging, MEMORY_FAULT with the band's index; in
IMAGING SPOILED, cause MEMORY. Of the capture R67 gives the address alone: that it is the first byte that fails (log 12), with lane 2
(log 30), is the model's own, and so is that the bytes read are those of the read's completion (log 40). -/
def Obligations.BandReadDone : Prop :=
  (∀ (env : Env) (s : State) (a : PrintArgs) (i : Nat) (e : BandEntry) (data : List Byte), s.up = true →
      s.print.args = some a → s.print.table[i]? = some e → e.cond = .reading → e.enciphered = false → s.atCore i = false →
      s.coreSettled →
      let b := s.begin env
      let table := s.print.table.set i { e with cond := .ready, data }
      let bad := (neededSlots a.colour).filter (fun n => b.supplyClass n ≠ .usable)
      b.readBytes e.address e.length = .ok data →
      (s.print.state = .imaging →
        Answers (.bandReadDone env i) s { b with print := { b.print with table }, env := .calm }) ∧
      (s.print.state = .preparing → rowZeroReady a.colour table = false →
        Answers (.bandReadDone env i) s { b with print := { b.print with table }, env := .calm }) ∧
      (s.print.state = .preparing → rowZeroReady a.colour table = true → bad = [] →
        let number := if 255 ≤ s.print.number then 1 else s.print.number + 1
        Answers (.bandReadDone env i) s
          { b with
            print := { b.print with table, state := .imaging, number }
            engineOut := [EngineMessage.start number a.colour a.pixels a.lines]
            env := .calm }) ∧
      (∀ (cap : PrintCapture) (j : Nat) (k : Ticket), s.print.state = .preparing → rowZeroReady a.colour table = true → bad ≠ [] →
        b.impression a cap j k → s.print.sums = ⟨0, 0, 0, 0⟩ → s.print.counts = ⟨0, 0, 0, 0⟩ →
        ∃ t, Answers (.bandReadDone env i) s t ∧
          NotImaged b t a j k .supply .supply (bad.map (fun m => 2 ^ (m - 1))).sum)) ∧
  (∀ (env : Env) (s : State) (a : PrintArgs) (i : Nat) (e : BandEntry) (data : List Byte), s.up = true →
      s.print.state = .preparing ∨ s.print.state = .imaging → s.print.args = some a → s.print.table[i]? = some e →
      e.cond = .reading → e.enciphered = true → s.atCore i = false →
      let b := s.begin env
      b.readBytes e.address e.length = .ok data →
      (b.keyGranted e.slot a.job .print = true → s.coreSettled →
        Answers (.bandReadDone env i) s
          { b with
            print := { b.print with table := s.print.table.set i { e with data } }
            core :=
              if s.core.canTake = true then
                { b.core with
                  band := some { path := .print, idx := i, slot := e.slot, orphan := false }, lastServed := .print }
              else { b.core with printQueue := b.core.printQueue ++ [i] }
            env := .calm }) ∧
      ∀ (cap : PrintCapture) (j : Nat) (k : Ticket), b.keyGranted e.slot a.job .print = false → b.impression a cap j k →
        (s.print.state = .preparing → s.print.sums = ⟨0, 0, 0, 0⟩ → s.print.counts = ⟨0, 0, 0, 0⟩ →
          ∃ t, Answers (.bandReadDone env i) s t ∧ NotImaged b t a j k .cipherFail .cipher i) ∧
        (s.print.state = .imaging → ∃ t, Answers (.bandReadDone env i) s t ∧ SpoiledEnd b t a cap j k .cipher true)) ∧
  (∀ (env : Env) (s : State) (a : PrintArgs) (cap : PrintCapture) (i j : Nat) (e : BandEntry) (k : Ticket) (address : Nat),
      s.up = true → s.print.table[i]? = some e → e.cond = .reading → s.atCore i = false →
      let b := s.begin env
      let c := b.captureMemory .memoryRead 2 address
      b.impression a cap j k → b.readBytes e.address e.length = .error address →
      (s.print.state = .preparing → s.print.sums = ⟨0, 0, 0, 0⟩ → s.print.counts = ⟨0, 0, 0, 0⟩ →
        ∃ t, Answers (.bandReadDone env i) s t ∧ NotImaged c t a j k .memoryFault .memory i) ∧
      (s.print.state = .imaging → ∃ t, Answers (.bandReadDone env i) s t ∧ SpoiledEnd c t a cap j k .memory true))

/-- R68, R84, R174: the core ends a print band in IMAGING whose tag matches: the band is READY with its plaintext, the core is free
and its count one higher. A band whose tag does not match is counted too, and ends the impression: in PREPARING before imaging,
CIPHER_FAIL with the band's index (R70); in IMAGING SPOILED, cause CIPHER (R73).
R83, R90, R97: the core ends a band of a page being scanned or of Encipher Bands; the enciphered band, its ciphertext and tag under the
page number and the band index, goes to be written, or waits while the other band is being written.
R99: the core ends a band of Decipher Bands under the ticket's page number and the entry's band index: on a match its plaintext goes to
be written likewise; a mismatch ends the ticket CIPHER_FAIL, once a band WRITING is written. -/
def Obligations.CipherBandDone : Prop :=
  (∀ (env : Env) (s : State) (a : PrintArgs) (c : CoreBand) (e : BandEntry) (plain : List Byte), s.up = true →
      s.core.band = some c → c.path = .print → c.orphan = false → s.print.state = .imaging → s.print.args = some a →
      s.print.table[c.idx]? = some e → s.core.printQueue = [] → s.core.scanWaiting = none →
      decipherBand (s.slotKey e.slot) (nonceOf e.slot e.page e.index) e.data = some plain →
      let b := s.begin env
      Answers (.cipherBandDone env) s
        { b with
          print := { b.print with table := b.print.table.set c.idx { e with cond := .ready, data := plain } }
          core := { b.core with band := none, count := b.core.count + 1 }
          env := .calm }) ∧
  (∀ (env : Env) (s : State) (a : PrintArgs) (cap : PrintCapture) (c : CoreBand) (e : BandEntry) (j : Nat) (k : Ticket),
      s.up = true → s.core.band = some c → c.path = .print → c.orphan = false → s.print.table[c.idx]? = some e →
      decipherBand (s.slotKey e.slot) (nonceOf e.slot e.page e.index) e.data = none →
      let b := s.begin env
      let counted := { b with core := { b.core with band := none, count := b.core.count + 1 } }
      b.impression a cap j k →
      (s.print.state = .preparing → s.print.sums = ⟨0, 0, 0, 0⟩ → s.print.counts = ⟨0, 0, 0, 0⟩ →
        ∃ t, Answers (.cipherBandDone env) s t ∧ t.core.count = b.core.count + 1 ∧
          NotImaged counted t a j k .cipherFail .cipher c.idx) ∧
      (s.print.state = .imaging →
        ∃ t, Answers (.cipherBandDone env) s t ∧ t.core.count = b.core.count + 1 ∧
          SpoiledEnd counted t a cap j k .cipher true)) ∧
  (∀ (env : Env) (s : State) (a : ScanArgs) (c : CoreBand), s.up = true → s.core.band = some c → c.path = .scan →
      c.orphan = false → c.idx < 2 → s.scan.args = some a → (s.buffer c.idx).cond = .ciphering →
      let b := s.begin env
      let x := s.buffer c.idx
      let other := s.buffer (1 - c.idx)
      let nonce (band : Nat) : Config.Nonce :=
        { generation := BitVec.ofNat 16 a.slot.gen, page := BitVec.ofNat 16 s.scan.page, band := BitVec.ofNat 16 band }
      let key := ((s.slot a.slot.idx).key).getD 0
      let counted : State := { b with core := { b.core with band := none, count := b.core.count + 1 } }
      let out (data : List Byte) : State :=
        { counted with
          scan := { b.scan with
            internal := putAt b.scan.internal c.idx
              { x with cond := if other.isWriting = true then .ciphered else .writingData, data } }
          env := .calm }
      (other.cond ≠ .ciphered → s.core.printQueue = [] → s.core.scanWaiting = none →
        (s.scan.work ≠ .decipher →
          Answers (.cipherBandDone env) s
            (out (Config.cipherCore.cipher key (nonce x.band) x.data ++
              tagBytes (Config.cipherCore.tag key (nonce x.band) x.data)))) ∧
        (s.scan.work = .decipher → ∀ (src : Source) (plain : List Byte), s.scan.sources[x.band]? = some src →
          decipherBand key (nonce src.extra) x.data = some plain → Answers (.cipherBandDone env) s (out plain))) ∧
      (s.scan.work = .decipher → s.scan.state = .ciphering → s.scan.failed = none →
        ∀ (src : Source) (k : Ticket), s.scan.sources[x.band]? = some src → decipherBand key (nonce src.extra) x.data = none →
          (b.lane 1).service = some k → b.closesFreely k →
          ∃ t, Answers (.cipherBandDone env) s t ∧ CipherFails counted t k .cipherFail))

/-- R71, R72: a demand for a plane whose next line is READY sends that line, moves the plane's send position and adds the line's weight
and 1 to its sum and count; the last line of the page makes the impression IMAGED. A demand for a plane outside the plane set, or one
whose lines have all been sent, is captured and changes nothing else. A demand or outcome that carries another number than the
impression in flight past imaging start, or any while there is none, is discarded when its number is the retired one, and otherwise
captured with the number and the event kind, and changes nothing else. That a number which is both the impression's own and the retired
one is taken as its own is the model's choice (log 38). -/
def Obligations.EngineDemandSendsLine : Prop :=
  ∀ (env : Env) (s : State) (number : BitVec 8) (p : Plane), s.alive = true →
    let b := s.begin env
    (∀ (a : PrintArgs) (cap : PrintCapture) (i : Nat) (e : BandEntry), s.print.state = .imaging →
      s.print.number = number.toNat → s.print.args = some a → s.print.capture = some cap → p ∈ planeSet a.colour →
      let line := s.print.position.get p
      line < a.lines → bandAt s.print.table p line = some i → s.print.table[i]? = some e → e.cond = .ready →
      let n := printLineBytes a.pixels a.bpp
      let bytes := (e.data.drop ((line - e.first) * n)).take n
      let position := s.print.position.set p (line + 1)
      Answers (.engineDemand env number p) s
        { b with
          engineOut := [EngineMessage.line s.print.number p line bytes]
          print := { s.print with
            sums := s.print.sums.set p (s.print.sums.get p + lineWeight (cap.curves.curve.get p) a.bpp a.pixels bytes)
            counts := s.print.counts.set p (s.print.counts.get p + 1)
            position
            table :=
              if line + 1 = e.first + e.lines then
                beginRead p (s.print.table.set i { e with cond := .sent, data := [] })
              else s.print.table
            state := if ∀ q ∈ planeSet a.colour, a.lines ≤ position.get q then .imaged else .imaging }
          env := .calm }) ∧
    let captured (kind : Nat) : State :=
      { b with
        faults := b.faults.capture
          { kind := .engineProtocol, lane := none, address := none, time := b.faultTime, detail := number.toNat + kind * 2 ^ 8 }
        notice := b.notice ||| Cause.fault.mask
        env := .calm }
    let own : Prop := (s.print.state = .imaging ∨ s.print.state = .imaged) ∧ s.print.number = number.toNat
    (∀ (a : PrintArgs) (cap : PrintCapture), own → s.print.args = some a → s.print.capture = some cap →
      p ∉ planeSet a.colour ∨ a.lines ≤ s.print.position.get p → Answers (.engineDemand env number p) s (captured 1)) ∧
    ∀ (c : Instr) (kind : Nat),
      (c, kind) ∈ [(.engineDemand env number p, 1), (.engineOutcome env number true, 2), (.engineOutcome env number false, 3)] → ¬own →
      (s.print.retired = some number.toNat → Answers c s { b with env := .calm }) ∧
      (s.print.retired ≠ some number.toNat → Answers c s (captured kind))

/-- R54, R29, R30, R35, R78, R79: DELIVERED for an IMAGED impression settles it: the charge leaves the account's reserved and is added to its
used, what the hold exceeds it by returns to the job's free reservation, exactly one of the mono and colour counters and the
same-named meter rise with the toner totals, toner is deducted from the trusted cartridge of each plane of the page and one impression
from the imaging unit in slot 5 (R124), and the result record is written and the ticket closed OK with the charge. A job that is ENDING
hands its free reservation back to its account, and, with no scan page in flight, has ended: its slots are HELD or destroyed, and the
ticket carries JOB_ENDED. -/
def Obligations.DeliveredImpressionSettles : Prop :=
  ∀ (env : Env) (s : State) (number : BitVec 8) (a : PrintArgs) (cap : PrintCapture) (i : Nat) (k : Ticket), s.alive = true →
    s.print.state = .imaged → s.print.number = number.toNat →
    let b := s.begin env
    let j := b.job i
    let n := j.account
    b.impression a cap i k → n < 512 → (b.record n).checkOk = true → (b.acct n).damaged = false →
    let m := meter cap a.colour a.pixels s.print.sums s.print.counts true
    let meters := b.stored.meters
    let one (c : Bool) : Nat := if m.colour = c then 1 else 0
    ∃ t, Answers (.engineOutcome env number true) s t ∧
      t = { b with
        mem :=
          (((b.mem.putWords a.result (printResult .delivered .none number.toNat m s.print.counts)).putWord (k.address + 52)
            (BitVec.ofNat 32 m.charge)).putWord (k.address + 56) 0).putWord (k.address + 60)
              (closingWord 3 0 b.epoch (b.printEndsJob i) false)
        notice := t.notice, lanes := b.lanes.set 2 { b.lane 2 with service := none }, stored := t.stored
        accounts := t.accounts, jobs := t.jobs, sessions := t.sessions, hold := t.hold, slots := t.slots, carts := t.carts
        link := t.link, core := t.core, print := b.print.ended, afterWrites := t.afterWrites, env := .calm } ∧
      t.notice.getLsbD (Cause.closed 2).bit = true ∧
      t.acct n = { b.acct n with reserved := (t.acct n).reserved } ∧ b.impressionSettled t i m.charge true ∧
      t.record n =
        { b.record n with
          used := min ((b.record n).used + m.charge) (2 ^ 32 - 1)
          mono := min ((b.record n).mono + one false) (2 ^ 32 - 1)
          colour := min ((b.record n).colour + one true) (2 ^ 32 - 1)
          spoiled := min (b.record n).spoiled (2 ^ 32 - 1)
          scanned := min (b.record n).scanned (2 ^ 32 - 1)
          toner := min ((b.record n).toner + m.toner.total) (2 ^ 64 - 1) } ∧
      (m.colour = true →
        t.stored.meters =
          { meters with
            colour := min (meters.colour + 1) (2 ^ 64 - 1), toner := min (meters.toner + m.toner.total) (2 ^ 64 - 1) }) ∧
      (m.colour = false →
        t.stored.meters =
          { meters with
            mono := min (meters.mono + 1) (2 ^ 64 - 1), toner := min (meters.toner + m.toner.total) (2 ^ 64 - 1) }) ∧
      (let planes := if a.colour = true then [(1, m.toner.c), (2, m.toner.m), (3, m.toner.y)] else []
       ∀ x ∈ planes ++ [(4, m.toner.k), (5, 1)], ∀ v, (b.cart x.1).trusted = true → (b.cart x.1).values = some v →
        ∃ w, (t.cart x.1).values = some w ∧ w.remaining = v.remaining - x.2 ∧ w.useCount = min (v.useCount + 1) (2 ^ 32 - 1)) ∧
      (a.colour = false → ∀ slot ∈ [1, 2, 3], t.cart slot = b.cart slot) ∧
      ∀ x, x ≠ n → t.record x = b.record x ∧ t.acct x = b.acct x

/-- R30, R35, R73, R74: SPOILED settles the impression without a charge, cause JAM, in IMAGING and IMAGED; DELIVERED before it is IMAGED is
captured and spoils it, cause PROTOCOL, with an abort to the engine whose number is retired.
R72: so does a demand for a line whose band is not READY, cause UNDERRUN. -/
def Obligations.SpoiledImpressionIsFree : Prop :=
  ∀ (env : Env) (s : State) (number : BitVec 8) (a : PrintArgs) (cap : PrintCapture) (i : Nat) (k : Ticket),
    s.alive = true → s.print.number = number.toNat →
    let b := s.begin env
    b.impression a cap i k →
    (s.print.state = .imaging ∨ s.print.state = .imaged →
      ∃ t, Answers (.engineOutcome env number false) s t ∧ SpoiledEnd b t a cap i k .jam false) ∧
    (s.print.state = .imaging →
      (∃ t, Answers (.engineOutcome env number true) s t ∧ t.notice.getLsbD Cause.fault.bit = true ∧
        SpoiledEnd (b.capture .engineProtocol none none (number.toNat + 2 * 2 ^ 8)) t a cap i k .protocol true) ∧
      ∀ (p : Plane) (x : Nat) (e : BandEntry), p ∈ planeSet a.colour → s.print.position.get p < a.lines →
        bandAt s.print.table p (s.print.position.get p) = some x → s.print.table[x]? = some e → e.cond ≠ .ready →
        ∃ t, Answers (.engineDemand env number p) s t ∧ SpoiledEnd b t a cap i k .underrun true)

/-! ### The scan path and the cipher tickets -/

/-- R85 to R88: a valid Scan Page for an OPEN job that may scan, with the scanner ready and the drain mark clear, is admitted when its
rate is covered by the job's free reservation or by a top-up from its account's available units (R26): the hold is taken, the slot's
page number taken and advanced, and the page is SCANNING. Otherwise it is refused NO_QUOTA with those units and its OPEN job is
QUOTA_STOPPED (R27). With the scanner not ready or the drain mark set it waits, and takes its checks again when the line returns, when
the mark is cleared (R94) or when the SCANNER group departs.
R17: a buffer list that cannot be read refuses it MEMORY_FAULT, which is activity for the session of the job it names. That it is activity
(log 19) and that the fault's lane is lane 1, of which R85 gives the address alone (log 30), is the model's own. -/
def Obligations.ScanPageAdmits : Prop :=
  ∀ (env : Env) (s : State) (a : ScanArgs) (i : Nat),
    let b := (s.begin env).touchJob a.job
    let j := b.job i
    let n := j.account
    let available := (b.record n).quota - (b.record n).used - (b.acct n).reserved
    let rate := b.stored.settings.rates.scan.of a.size
    let emptied : Core := { b.core with scanWaiting := none }
    (∀ (k : Ticket) (bad : Nat), Serves env s .scanPage k → 1 ≤ (k.w 9).toNat → (k.w 9).toNat ≤ 64 →
      areaOk (k.w 8).toNat = true → (s.begin env).readWords (k.w 8).toNat (2 * (k.w 9).toNat) = .error bad →
      Answers (.scanPage env) s
        (State.answered (((s.begin env).touchJob (Handle.ofField (k.w 2))).captureMemory .memoryRead 1 bad) 1 k .memoryFault
          65535 0)) ∧
    (∀ (k : Ticket) (buffers : List Destination), ScanOffered env s k a buffers → b.scanAllowed a i →
      let held : ScanPath := { ScanPath.reset with drain := b.scan.drain, work := .page, args := some a, buffers }
      (b.lineAbnormal 6 = true ∨ b.scan.drain = true →
        Answers (.scanPage env) s
          { State.underService { b with scan := { held with state := .waiting } } 1 k with env := .calm }) ∧
      (b.lineAbnormal 6 = false → b.scan.drain = false →
        (b.covers n j.free rate →
          Answers (.scanPage env) s
            { (State.scanAdmitted { b with scan := held } a i).underService 1 k with env := .calm }) ∧
        (¬b.covers n j.free rate → b.core.band = none →
          Answers (.scanPage env) s
            (State.answered { b.putJob i { j with state := .quotaStopped } with scan := .reset, core := emptied } 1 k .noQuota 65535
              available)))) ∧
    (s.alive = true → s.scan.state = .waiting → s.scan.args = some a → b.scanAllowed a i →
      (s.scan.drain = true → b.lineAbnormal 6 = false → b.covers n j.free rate →
        let admitted := { State.scanAdmitted { b with scan := { b.scan with drain := false } } a i with env := .calm }
        Answers (.scannerPageEnd env) s admitted ∧ Answers (.scannerError env) s admitted) ∧
      ∀ (line : Fin 8) (high : Bool), s.levels.getLsbD line.val ≠ high →
        b.stored.settings.sense.watch.getLsbD line.val = true → s.coreSettled →
        let levels := b.levels ^^^ BitVec.twoPow 8 line.val
        (line = 6 → b.lineAbnormal 6 = true → s.scan.drain = false → b.covers n j.free rate →
          Answers (.senseLineEdge env line high) s { b.scanAdmitted a i with levels, env := .calm }) ∧
        (∀ k : Ticket, line = 3 → (b.lane 1).service = some k → b.closesFreely k → b.core.band = none → b.core.printQueue = [] →
          Answers (.senseLineEdge env line high) s
            (State.answered
              { b with
                levels, notice := b.notice ||| Cause.sense.mask
                scan := { ScanPath.reset with drain := b.scan.drain }, core := emptied }
              1 k .scanInterrupted 65535 0)))

/-- R89: a line of a page in flight joins its band, or begins one in a FREE buffer; its bytes beyond the line length are cut and
TRUNCATED noted. A line that fills its band, or is the last of the maximum, completes the band, which takes the host buffer of its
index and goes to the core, or waits for it (R84, R90); lines after the maximum are discarded and set TRUNCATED.
R91, R93: a line without a FREE buffer to begin a band in, and a band completed without a host buffer, fail the page SCAN_OVERRUN; a
short line fails it SCAN_FAULT; a band completed with its key refused (R105) fails it SCAN_INTERRUPTED. The failure sets the drain mark,
with which lines are discarded (R94), as they are without a page to take them; a band already WRITING completes first. That a band of the
page in the core stays there until it ends, its output discarded, is the model's own reading (log 23). -/
def Obligations.ScannerLineJoinsBand : Prop :=
  ∀ (env : Env) (s : State) (bytes : List Byte), s.alive = true →
    let b := s.begin env
    (s.scan.drain = true ∨ s.takesScanner = false → Answers (.scannerLine env bytes) s { b with env := .calm }) ∧
    ∀ a : ScanArgs, s.scan.drain = false → s.takesScanner = true → s.scan.args = some a →
      let line := bytes.take a.lineBytes
      let cut : State := { b with scan := { b.scan with truncation := s.scan.truncation || decide (a.lineBytes < bytes.length) } }
      let taken := s.scan.taken + 1
      let last := decide (a.maxLines ≤ taken)
      (s.scan.lineLimit = true → s.coreSettled →
        Answers (.scannerLine env bytes) s { b with scan := { b.scan with truncation := true }, env := .calm }) ∧
      (s.scan.lineLimit = false → bytes.length < a.lineBytes → ∀ (j : Nat) (k : Ticket), b.scanPage a j k → s.writingBuffer = none →
        ∃ t, Answers (.scannerLine env bytes) s t ∧ PageFailed b t j k .scanFault true) ∧
      (s.scan.lineLimit = false → a.lineBytes ≤ bytes.length →
        (∀ (i begun : Nat) (x : Buffer),
          (s.bufferIn .filling = some i ∧ x = s.buffer i ∧ begun = s.scan.begun) ∨
            (s.bufferIn .filling = none ∧ s.bufferIn .free = some i ∧
              x = { cond := .filling, band := s.scan.begun, lines := 0, data := [] } ∧ begun = s.scan.begun + 1) →
          let y : Buffer := { x with lines := x.lines + 1, data := x.data ++ line }
          let joined (z : Buffer) : ScanPath :=
            { cut.scan with internal := putAt b.scan.internal i z, taken, begun, lineLimit := last }
          (y.lines < a.bandLines → last = false → s.coreSettled →
            Answers (.scannerLine env bytes) s { cut with scan := joined y, env := .calm }) ∧
          (a.bandLines ≤ y.lines ∨ last = true →
            (x.band < s.scan.buffers.length → b.keyGranted a.slot a.job .scan = true → s.coreSettled →
              (∀ m < 2, m ≠ i → (s.buffer m).cond ≠ .ciphering) →
              Answers (.scannerLine env bytes) s
                { cut with
                  scan := joined { y with cond := .ciphering }
                  core :=
                    if s.core.canTake = true then
                      { b.core with
                        band := some { path := .scan, idx := i, slot := a.slot, orphan := false }, lastServed := .scan }
                    else { b.core with scanWaiting := b.core.scanWaiting.or (some i) }
                  env := .calm }) ∧
            ∀ (j : Nat) (k : Ticket), b.scanPage a j k → s.writingBuffer = none →
              (s.scan.buffers.length ≤ x.band →
                ∃ t, Answers (.scannerLine env bytes) s t ∧ PageFailed cut t j k .scanOverrun true) ∧
              (x.band < s.scan.buffers.length → b.keyGranted a.slot a.job .scan = false →
                ∃ t, Answers (.scannerLine env bytes) s t ∧ PageFailed cut t j k .scanInterrupted true))) ∧
        (s.bufferIn .filling = none → s.bufferIn .free = none →
          (∀ (j : Nat) (k : Ticket), b.scanPage a j k → s.writingBuffer = none →
            ∃ t, Answers (.scannerLine env bytes) s t ∧ PageFailed cut t j k .scanOverrun true) ∧
          (∀ i, s.writingBuffer = some i → s.coreSettled →
            ∃ t, Answers (.scannerLine env bytes) s t ∧
              t = { cut with
                scan := { cut.scan with failed := some .scanOverrun, drain := true, internal := t.scan.internal }
                core := { b.core with scanWaiting := none, band := t.core.band }, env := .calm } ∧
              (∀ m < 2, t.buffer m = if (s.buffer m).isWriting = true then s.buffer m else .erased) ∧
              t.core.band = b.core.band.map (fun c => if c.path = .scan then { c with orphan := true } else c))))

/-- R92: a page end with every band written settles the page: the captured scan rate is charged, and the page and the meter of scanned
pages are counted; a job that is ENDING may end with it (R35). With no line taken the page fails SCAN_FAULT. A band FILLING becomes the
final band as it stands: it goes to the core, or waits for it, or fails the page without a host buffer (R91) or with its key refused
(R105). With bands still to be written the page stays in flight; once the end is taken, later lines, page ends and error reports are
discarded.
R93, R94: an error report of the scanner fails the page in flight SCAN_FAULT without a charge; with the drain mark set, an error
report or a page end clears the mark. -/
def Obligations.ScannerEndsPage : Prop :=
  ∀ (env : Env) (s : State), s.alive = true →
    let b := s.begin env
    (s.scan.drain = true → s.scan.state ≠ .waiting →
      Answers (.scannerError env) s { b with scan := { b.scan with drain := false }, env := .calm } ∧
      Answers (.scannerPageEnd env) s { b with scan := { b.scan with drain := false }, env := .calm }) ∧
    (s.scan.drain = false → s.takesScanner = false →
      Answers (.scannerError env) s { b with env := .calm } ∧ Answers (.scannerPageEnd env) s { b with env := .calm } ∧
        ∀ bytes, Answers (.scannerLine env bytes) s { b with env := .calm }) ∧
    ∀ a : ScanArgs, s.scan.drain = false → s.takesScanner = true → s.scan.args = some a →
      let ended : State := { b with scan := { b.scan with pageEnd := true } }
      let full (t : State) (k : Ticket) (i : Nat) (code : ReturnCode) : Prop :=
        Answers (.scannerPageEnd env) s t ∧ PageFailed b t i k code false
      (∀ (i : Nat) (k : Ticket), b.scanPage a i k →
        (0 < s.scan.taken → (∀ n < 2, (s.buffer n).cond = .free) →
          ∃ t, Answers (.scannerPageEnd env) s t ∧ PageSettled b t i k) ∧
        (s.writingBuffer = none →
          (s.scan.taken = 0 → ∃ t, full t k i .scanFault) ∧
          (∃ t, Answers (.scannerError env) s t ∧ PageFailed b t i k .scanFault false) ∧
          ∀ m, 0 < s.scan.taken → s.bufferIn .filling = some m →
            (s.scan.buffers.length ≤ (s.buffer m).band → ∃ t, full t k i .scanOverrun) ∧
            ((s.buffer m).band < s.scan.buffers.length → b.keyGranted a.slot a.job .scan = false →
              ∃ t, full t k i .scanInterrupted))) ∧
      (0 < s.scan.taken → s.coreSettled →
        (∀ m, s.bufferIn .filling = some m → (s.buffer m).band < s.scan.buffers.length →
          b.keyGranted a.slot a.job .scan = true → (∀ n < 2, n ≠ m → (s.buffer n).cond ≠ .ciphering) →
          Answers (.scannerPageEnd env) s
            { ended with
              scan := { ended.scan with internal := putAt b.scan.internal m { s.buffer m with cond := .ciphering } }
              core :=
                if s.core.canTake = true then
                  { b.core with band := some { path := .scan, idx := m, slot := a.slot, orphan := false }, lastServed := .scan }
                else { b.core with scanWaiting := b.core.scanWaiting.or (some m) }
              env := .calm }) ∧
        (s.bufferIn .filling = none → (∃ n < 2, (s.buffer n).cond ≠ .free) →
          Answers (.scannerPageEnd env) s { ended with env := .calm }))

/-- R90, R97, R99, R163: the write under way, of the buffer that is WRITING, completes. After a band's bytes its record is written, but for
Decipher Bands, which has none; then the band is whole, its buffer erased and free, and it counts as written; a band that waits for it
goes to be written.
R92, R93: of a page, the last band after the page end settles it; a page that has failed is settled once the band is whole. A write that
fails is captured and fails the page MEMORY_FAULT, unless it has failed before.
R97, R99: of a cipher ticket, the last band closes it OK; otherwise the next source begins to be read in a FREE buffer when no other is, the
moment of which is the model's own (log 27).
A write that fails is captured and ends the ticket MEMORY_FAULT, unless it has failed before; a ticket that has failed closes then. Of the
capture the rules give the address: that it is the first byte or word that fails, those before it being stored (log 12), with lane 1
(log 30), is the model's own. -/
def Obligations.BandWriteWritesBandThenRecord : Prop :=
  ∀ (env : Env) (s : State) (a : ScanArgs) (i : Nat) (d : Destination), s.up = true → s.scan.args = some a →
    s.writingBuffer = some i →
    let b := s.begin env
    let x := s.buffer i
    let other := s.buffer (1 - i)
    let data : Bool := x.cond = .writingData
    let write : State × Option Nat :=
      if data = true then b.writeBytes d.address x.data
      else b.writeWords (a.records + 12 * x.band)
        [BitVec.ofNat 32 (x.band + x.band * 2 ^ 16), BitVec.ofNat 32 x.lines, BitVec.ofNat 32 x.data.length]
    let erased : Vector Buffer 2 := putAt b.scan.internal i .erased
    let whole : State := { write.1 with scan := { b.scan with internal := erased, written := s.scan.written + 1 } }
    let faulty (bad : Nat) : State := { write.1.captureMemory .memoryWrite 1 bad with scan := { b.scan with internal := erased } }
    let next : Vector Buffer 2 := if other.cond = .ciphered then putAt erased (1 - i) { other with cond := .writingData } else erased
    let isWhole : Prop := write.2 = none ∧ (data = false ∨ s.scan.work = .decipher)
    s.scan.buffers[x.band]? = some d → other.isWriting = false →
    (write.2 = none → data = true → s.scan.work ≠ .decipher → s.coreSettled →
      Answers (.bandWriteDone env) s
        { write.1 with scan := { b.scan with internal := putAt b.scan.internal i { x with cond := .writingRecord } }, env := .calm }) ∧
    (isWhole → s.scan.failed = none → s.scan.work = .page → s.scan.pageEnd = false ∨ other.cond ≠ .free → s.coreSettled →
      Answers (.bandWriteDone env) s { whole with scan := { whole.scan with internal := next }, env := .calm }) ∧
    (isWhole → s.scan.failed = none → s.scan.work ≠ .page → s.scan.written + 1 < s.scan.sources.length → other.cond ≠ .free →
      s.coreSettled →
      Answers (.bandWriteDone env) s
        { whole with
          scan :=
            if other.cond = .filling ∨ s.scan.sources.length ≤ s.scan.begun then { whole.scan with internal := next }
            else
              { whole.scan with
                internal := putAt next i { cond := .filling, band := s.scan.begun, lines := 0, data := [] }
                begun := s.scan.begun + 1 }
          env := .calm }) ∧
    (∀ (j : Nat) (k : Ticket), b.scanPage a j k → s.scan.state = .scanning → s.scan.work = .page → s.scan.failed ≠ some .ok →
      (isWhole → s.scan.failed = none → s.scan.pageEnd = true → other.cond = .free →
        ∃ t, Answers (.bandWriteDone env) s t ∧ PageSettled whole t j k) ∧
      (∀ code, isWhole → s.scan.failed = some code →
        ∃ t, Answers (.bandWriteDone env) s t ∧ PageFailed whole t j k code s.scan.drain) ∧
      ∀ bad, write.2 = some bad →
        (s.scan.failed = none →
          ∃ t, Answers (.bandWriteDone env) s t ∧
            PageFailed (faulty bad) t j k .memoryFault (s.scan.drain || !s.scan.pageEnd)) ∧
        ∀ code, s.scan.failed = some code →
          ∃ t, Answers (.bandWriteDone env) s t ∧ PageFailed (faulty bad) t j k code s.scan.drain) ∧
    ∀ k : Ticket, (b.lane 1).service = some k → b.closesFreely k → s.scan.state = .ciphering → s.scan.work ≠ .page →
      (isWhole → s.scan.failed = none → s.scan.sources.length ≤ s.scan.written + 1 →
        ∃ t, Answers (.bandWriteDone env) s t ∧ CipherEnded whole t k .ok) ∧
      (∀ code, isWhole → s.scan.failed = some code → ∃ t, Answers (.bandWriteDone env) s t ∧ CipherEnded whole t k code) ∧
      ∀ bad, write.2 = some bad →
        (s.scan.failed = none → ∃ t, Answers (.bandWriteDone env) s t ∧ CipherEnded (faulty bad) t k .memoryFault) ∧
        ∀ code, s.scan.failed = some code → ∃ t, Answers (.bandWriteDone env) s t ∧ CipherEnded (faulty bad) t k code

/-- R96, R98: valid Encipher Bands and Decipher Bands tickets for a job that has not ended and a slot that grants the use begin to
read their first source; Encipher Bands takes the slot's next page number, Decipher Bands needs the job's session still open for the
slot's owner. -/
def Obligations.CipherTicketsBegin : Prop :=
  ∀ (env : Env) (s : State) (k : Ticket) (sources : List Source) (buffers : List Destination) (i : Nat),
    let count := (k.w 5).toNat
    let job := Handle.ofField (k.w 2)
    let slot := SlotHandle.ofWord (k.w 3)
    let b := (s.begin env).touchJob job
    let n := (b.job i).account
    let first : Vector Buffer 2 := putAt (Vector.replicate 2 Buffer.erased) 0 { cond := .filling, band := 0, lines := 0, data := [] }
    1 ≤ count → count ≤ 64 → areaOk (k.w 6).toNat = true → areaOk (k.w 7).toNat = true →
    (s.begin env).readCipherLists count (k.w 6).toNat (k.w 7).toNat = .ok (sources, buffers) →
    b.jobOf job = some i → (b.job i).state ≠ .ending → (b.record n).checkOk = true → b.seen n = .active →
    (Serves env s .encipherBands k → areaOk (k.w 8).toNat = true → (∀ x ∈ sources.zip buffers, encipherFaulty x = false) →
      b.keyGranted slot job .encipher = true → (b.slot slot.idx).page < 65535 →
      Answers (.encipherBands env) s
        { State.underService
            { b.putSlot slot.idx { b.slot slot.idx with page := (b.slot slot.idx).page + 1 } with
              scan :=
                { ScanPath.reset with
                  state := .ciphering, work := .encipher, args := some (ScanArgs.ofCipherTicket k (k.w 8).toNat)
                  page := (b.slot slot.idx).page, sources, buffers, drain := b.scan.drain, begun := 1, internal := first } } 1 k with
          env := .calm }) ∧
    (Serves env s .decipherBands k → (k.w 4).toNat ≤ 65535 → (∀ x ∈ sources.zip buffers, decipherFaulty x = false) →
      b.keyGranted slot job .decipher = true → b.authorised job slot = true →
      Answers (.decipherBands env) s
        { State.underService
            { b with
              scan :=
                { ScanPath.reset with
                  state := .ciphering, work := .decipher, args := some (ScanArgs.ofCipherTicket k 0)
                  page := (k.w 4).toNat, sources, buffers, drain := b.scan.drain, begun := 1, internal := first } } 1 k with
          env := .calm })

/-- R97, R99, R105: the read of a source of Encipher Bands or Decipher Bands that completes with the key still granted (and, for
Decipher Bands, the job still authorised) fills its buffer with the source's bytes and presents it to the free core. The next source
begins to be read in the other buffer at once: the rules say that it may proceed, and that it does so is the model's own (log 27).
A read that fails is captured and ends the ticket MEMORY_FAULT (of the capture, lane 1 and the first failing byte are the model's own,
logs 30 and 12); a key not granted any more ends it BAD_SLOT, a job no longer authorised NOT_PERMITTED; a band that is being written is
written first. That W14 of a Decipher Bands ticket ended by a failed read or a refused key, with the band before still at the core, is
the position of the first band not written whole, and not of the one read, is the model's own reading (log 22); the bytes read are those
of the read's completion (log 40). -/
def Obligations.SourceReadPresentsBand : Prop :=
  (∀ (env : Env) (s : State) (a : ScanArgs) (src : Source) (data : List Byte), s.up = true → s.scan.state = .ciphering →
    s.scan.failed = none → s.scan.args = some a → (s.buffer 0).cond = .filling → (s.buffer 1).cond = .free →
    s.scan.sources[(s.buffer 0).band]? = some src → s.scan.begun < s.scan.sources.length →
    s.core.printQueue = [] → s.core.scanWaiting = none → s.core.band = none → s.core.periodicTest = false →
    s.core.resumeTest = false → s.core.count < 4096 →
    let b := s.begin env
    b.readBytes src.address src.length = .ok data →
    (s.scan.work = .encipher ∧ b.keyGranted a.slot a.job .encipher = true) ∨
      (s.scan.work = .decipher ∧ b.keyGranted a.slot a.job .decipher = true ∧ b.authorised a.job a.slot = true) →
    let lines := if s.scan.work = .encipher then src.extra else 0
    Answers (.sourceReadDone env) s
      { b with
        scan := { b.scan with
          internal := putAt (putAt b.scan.internal 0 { s.buffer 0 with cond := .ciphering, lines, data }) 1
            { cond := .filling, band := s.scan.begun, lines := 0, data := [] }
          begun := s.scan.begun + 1 }
        core := { b.core with
          band := some { path := .scan, idx := 0, slot := a.slot, orphan := false }, lastServed := .scan }
        env := .calm }) ∧
  ∀ (env : Env) (s : State) (a : ScanArgs) (src : Source) (i : Nat) (k : Ticket), s.up = true → s.scan.state = .ciphering →
    s.scan.work ≠ .page → s.scan.failed = none → s.scan.args = some a → s.bufferIn .filling = some i →
    s.scan.sources[(s.buffer i).band]? = some src →
    let b := s.begin env
    (b.lane 1).service = some k → b.closesFreely k →
    (∀ bad, b.readBytes src.address src.length = .error bad →
      ∃ t, Answers (.sourceReadDone env) s t ∧ CipherFails (b.captureMemory .memoryRead 1 bad) t k .memoryFault) ∧
    ∀ data, b.readBytes src.address src.length = .ok data →
      (b.keyGranted a.slot a.job s.scan.work.use = false →
        ∃ t, Answers (.sourceReadDone env) s t ∧ CipherFails b t k .badSlot) ∧
      (s.scan.work = .decipher → b.keyGranted a.slot a.job .decipher = true → b.authorised a.job a.slot = false →
        ∃ t, Answers (.sourceReadDone env) s t ∧ CipherFails b t k .notPermitted)

/-! ### Sense lines -/

/-- R147, R148, R173, R114: an edge of S4 to its abnormal level in RUNNING withdraws the part: SENSE is set, the entry time recorded,
every key slot is FREE without a key and the cipher core is empty. An edge to a level already taken does nothing.
R93, R97, R99: the withdrawal fails a scan page WITHDRAWN and ends a cipher ticket WITHDRAWN; a plaintext write under way stops at once,
the bytes already written stay, and its band does not count. -/
def Obligations.PrivacyEdgeWithdraws : Prop :=
  ∀ (env : Env) (s : State) (line : Fin 8) (high : Bool), s.alive = true →
    let b := s.begin env
    (s.levels.getLsbD line = high → Answers (.senseLineEdge env line high) s { b with env := .calm }) ∧
    (line = 4 → s.levels.getLsbD 4 ≠ high → s.lineAbnormal 4 = false → s.stored.settings.sense.watch.getLsbD 4 = true →
      s.dev.op = .running → s.slotsLawful →
      (∃ t, Answers (.senseLineEdge env line high) s t ∧
        t = { b with
          dev := t.dev, levels := t.levels, core := t.core, slots := t.slots, print := t.print, scan := t.scan, jobs := t.jobs
          accounts := t.accounts, stored := t.stored, sessions := t.sessions, hold := t.hold, carts := t.carts
          link := t.link, lanes := t.lanes, notice := t.notice, faults := t.faults, zeroCaptured := t.zeroCaptured
          mem := t.mem, engineOut := t.engineOut, afterWrites := t.afterWrites, env := .calm } ∧
        t.dev = { b.dev with op := .withdrawn, entryTime := some b.dev.clock } ∧ t.levels.getLsbD 4 = high ∧
        (∀ i, (t.slot i).state = .free ∧ (t.slot i).key = none) ∧ t.core.band = none ∧ t.core.printQueue = [] ∧
        t.core.scanWaiting = none ∧ t.notice.getLsbD Cause.sense.bit = true) ∧
      (s.print.state = .idle → s.scan.failed = none → ∀ (a : ScanArgs) (k : Ticket), s.scan.args = some a →
        (b.lane 1).service = some k → b.closesFreely k →
        let withdrawn (c : State) : Prop :=
          c = { b with
            dev := { b.dev with op := .withdrawn, entryTime := some b.dev.clock }, levels := c.levels, slots := c.slots
            jobs := c.jobs, core := { b.core with band := none, printQueue := [], scanWaiting := none }
            notice := b.notice ||| Cause.sense.mask, mem := c.mem, scan := c.scan }
        (∀ i, s.scan.state = .scanning → b.jobOf a.job = some i → s.writingBuffer = none →
          ∃ t c, Answers (.senseLineEdge env line high) s t ∧ withdrawn c ∧ c.mem = b.mem ∧ c.scan = b.scan ∧
            PageFailed c t i k .withdrawn (s.scan.drain || !s.scan.pageEnd)) ∧
        (s.scan.state = .ciphering → s.scan.work ≠ .page →
          ∃ t c, Answers (.senseLineEdge env line high) s t ∧ withdrawn c ∧ CipherFails c t k .withdrawn ∧
            match s.scan.work, s.writingBuffer with
            | .decipher, some i =>
              c.mem = (b.writeBytes (s.destination (s.buffer i).band) ((s.buffer i).data.take env.stopped)).1.mem ∧
                c.scan = { b.scan with internal := putAt b.scan.internal i .erased }
            | _, _ => c.mem = b.mem ∧ c.scan = b.scan)))

/-- R117, R129, R143, R148, R153: the toner door (S1) opening, with the print path idle, leaves the cartridges of slots 1 to 4
UNCHECKED and no procedure of theirs queued; slot 5 keeps its record. SENSE is set when the ENGINE group was not departed before, SUPPLY
when a record has changed (R116). Each trusted record takes a list write first (R122); that slot 1's is made first, so that slot 4's
entry ends in front, is the model's own order (log 32). A loss of power then leaves the list as it was before the first of these writes
or after any one of them, and nothing else (R122). Its return requests a CHECK of each. -/
def Obligations.TonerDoorEdge : Prop :=
  ∀ (env : Env) (s : State) (high : Bool), s.alive = true → s.levels.getLsbD 1 ≠ high → s.print.state = .idle →
    s.stored.settings.sense.watch.getLsbD 1 = true → s.coreSettled →
    let b := s.begin env
    let written (list : List KnownCartridge) (slot : Nat) : List KnownCartridge :=
      let c := b.cart slot
      match c.id, c.values with
      | some id, some v =>
        if c.auth = .verified ∨ c.auth = .permitted then
          ({ id, kind := c.kind.getD 0, remaining := v.remaining, useCount := v.useCount } ::
            list.filter (fun e => e.id ≠ id)).take 8
        else list
      | _, _ => list
    let sense : BitVec 13 := if s.lineAbnormal 0 = true ∨ s.lineAbnormal 2 = true then 0 else Cause.sense.mask
    (s.lineAbnormal 1 = false →
      ∃ t, Answers (.senseLineEdge env 1 high) s t ∧ t.levels.getLsbD 1 = high ∧
        t = { b with
          levels := t.levels, carts := t.carts, link := t.link, checkWait := t.checkWait
          stored := { b.stored with known := t.stored.known, knownOk := t.stored.knownOk }
          notice := t.notice, lanes := t.lanes, mem := t.mem, faults := t.faults, afterWrites := t.afterWrites, env := .calm } ∧
        (∀ slot ∈ [1, 2, 3, 4], t.cart slot = { b.cart slot with auth := .unchecked, reason := none, recordOwed := false }) ∧
        t.cart 5 = b.cart 5 ∧ t.stored.known = [1, 2, 3, 4].foldl written b.stored.known ∧
        (∀ writes u, Answers (.lossOfPower writes) t u →
          ∃ n ≤ 4, u.stored.known = ([1, 2, 3, 4].take n).foldl written b.stored.known) ∧
        (∀ n ≤ 4, ∃ writes u, Answers (.lossOfPower writes) t u ∧
          u.stored.known = ([1, 2, 3, 4].take n).foldl written b.stored.known) ∧
        t.link.queue = b.link.queue.filter (fun p => p.slot ∉ [1, 2, 3, 4]) ∧
        (s.checkWait = none → t.checkWait = none ∧ t.lanes = b.lanes ∧ t.mem = b.mem ∧ t.faults = b.faults ∧
          t.notice = b.notice ||| sense |||
            (if [1, 2, 3, 4].any (fun slot => (b.cart slot).auth ≠ .unchecked ∨ (b.cart slot).reason ≠ none) then
              Cause.supply.mask else 0))) ∧
    (s.lineAbnormal 1 = true → s.dev.op = .running → s.link.queue = [] →
      ∃ t, Answers (.senseLineEdge env 1 high) s t ∧ t.levels.getLsbD 1 = high ∧
        t = { b with
          levels := t.levels
          link := { b.link with
            queue := [.queued 1 .check false, .queued 2 .check false, .queued 3 .check false, .queued 4 .check false] }
          notice := b.notice ||| sense, env := .calm })

/-! ### Supplies and the link -/

/-- R130: Check Cartridge requests a CHECK with the waiter mark for each named slot whose door line is normal, counts the others as not
checked, and waits for the CHECKs; with none to wait for it ends at once. At its end the five records are written as far as they fit,
W13 is the mask of the slots whose CHECK ended ABSENT or SILENT, W14 that of those not checked, and the code LINK_FAIL, SUPPLY or OK.
R131, R163: Read Cartridges writes the five records, then the known-cartridge list, as far as they fit; W13 counts the entries
written, W14 those of the list. -/
def Obligations.CartridgeTickets : Prop :=
  (∀ (env : Env) (s : State) (k : Ticket), Serves env s .checkCartridge k →
      let b := s.begin env
      let mask := bits (k.w 2) 7 0
      let capacity := (k.w 4).toNat
      let named := supplySlots.filter (fun n => mask.testBit (n - 1))
      let asked := named.filter (fun n => !b.lineAbnormal (doorLine n))
      let shut := ((named.filter (fun n => b.lineAbnormal (doorLine n))).map (fun n => 2 ^ (n - 1))).sum
      1 ≤ mask → mask ≤ 31 → areaOk (k.w 3).toNat = true → b.link.queue = [] →
      (asked ≠ [] →
        Answers (.checkCartridge env) s
          { State.underService
              { b with
                link := { b.link with queue := asked.map (fun n => .queued n .check true) }
                checkWait := some { failed := 0, notChecked := BitVec.ofNat 5 shut, result := (k.w 3).toNat, capacity } } 3 k with
            env := .calm }) ∧
      (asked = [] → env.badWrites = [] →
        Answers (.checkCartridge env) s
          (State.answered
            { b with
              checkWait := none
              mem := b.mem.putWords (k.w 3).toNat (([1, 2, 3, 4, 5].take capacity).flatMap b.cartEntry) }
            3 k .supply 0 shut false (decide (capacity < 5))))) ∧
  (∀ (env : Env) (s : State) (k : Ticket) (w : CheckWait) (p : Procedure) (rest : List Procedure) (tr : Transaction), s.up = true →
      s.checkWait = some w → s.print.state ≠ .waiting → s.link.state = .response → s.link.transaction = some tr →
      tr.discarded = false → s.link.queue = p :: rest → p.running = true → p.kind = .check → p.phase = some .identify →
      p.waiter = true → (∀ q ∈ rest, q.waiter = false) → 1 ≤ p.slot → p.slot ≤ 5 → env.badWrites = [] →
      let b := s.begin env
      (b.lane 3).service = some k → b.stored.settings.supply.retryLimit ≤ tr.retries →
      let gone : Cartridge :=
        { b.cart p.slot with auth := .absent, reason := none, id := none, kind := none, values := none, unproven := false }
      let c : State := { b with
        carts := putAt b.carts (p.slot - 1) gone, checkWait := none
        link := { b.link with state := .idle, queue := rest, transaction := none, frame := [] }
        notice := if (b.cart p.slot).auth = .absent ∧ (b.cart p.slot).reason = none then b.notice else b.notice ||| Cause.supply.mask }
      Answers (.responseDeadline env) s
        (State.answered { c with mem := b.mem.putWords w.result (([1, 2, 3, 4, 5].take w.capacity).flatMap c.cartEntry) } 3 k
          .linkFail (w.failed.toNat ||| 2 ^ (p.slot - 1)) w.notChecked.toNat false (decide (w.capacity < 5)))) ∧
  (∀ (env : Env) (s : State) (k : Ticket), Serves env s .readCartridges k → areaOk (k.w 2).toNat = true → env.badWrites = [] →
      let b := s.begin env
      let capacity := (k.w 3).toNat
      let entries := [1, 2, 3, 4, 5].map b.cartEntry ++ b.stored.known.map knownEntryWords
      Answers (.readCartridges env) s
        (State.answered
          { b with mem := b.mem.putWords (k.w 2).toNat (entries.take capacity).flatten }
          3 k .ok (min capacity entries.length) b.stored.known.length false (decide (capacity < entries.length))))

/-- R118, R133, R134, R137, R142: a CHECK at the head of the queue starts: the record is CHECKING, a nonce is drawn and IDENTIFY waits
in SETTLING under the slot's next sequence number; once the line is quiet its frame, which ends in the check byte, is sent, and after
its last byte the part listens.
R127: a RECORD of a trusted record captures its remaining and use count and waits in SETTLING to send them; one of a record that is
not trusted ends without a transaction. -/
def Obligations.CheckStartsAndSends : Prop :=
  (∀ (env : Env) (s : State) (slot : Nat) (waiter : Bool) (rest : List Procedure), s.up = true →
    s.dev.op = .running ∨ s.dev.op = .withdrawn → 1 ≤ slot → slot ≤ 5 → s.link.state = .idle → s.link.transaction = none →
    s.link.queue = .queued slot .check waiter :: rest → (∀ p ∈ rest, p.slot ≠ slot) → s.checkWait = none →
    s.print.state ≠ .waiting → (s.cart slot).auth = .unchecked →
    let b := s.begin env
    let sequence := (entryAt s.link.sequence (slot - 1) 0 + 1) % 16
    let sent : Transaction := { slot, command := .identify, sequence, payload := [], retries := 0, discarded := false }
    let head : List Byte := [BitVec.ofNat 8 slot, 1, BitVec.ofNat 8 sequence, 0]
    ∃ t u, Answers (.procedureStart env) s t ∧ Answers .attemptSend t u ∧
      t = { b with
        carts := putAt b.carts (slot - 1) { b.cart slot with auth := .checking, recordOwed := false }
        draws := b.draws + 1
        link := { b.link with
          state := .settling
          queue :=
            { Procedure.queued slot .check waiter with
              running := true, nonce := some (Config.randomSource.nonce b.draws), phase := some .identify } :: rest
          sequence := putAt b.link.sequence (slot - 1) sequence
          transaction := some sent
          frame := [] }
        notice := b.notice ||| Cause.supply.mask
        env := .calm } ∧
      u = { t.quiet with link := { t.link with state := .request, frame := head ++ [crc8 head] } } ∧
      Answers .requestFrameDone u { u.quiet with link := { t.link with state := .response, frame := [] } }) ∧
  (∀ (env : Env) (s : State) (slot : Nat) (rest : List Procedure), s.up = true →
    s.dev.op = .running ∨ s.dev.op = .withdrawn → 1 ≤ slot → slot ≤ 5 → s.link.state = .idle → s.link.transaction = none →
    s.link.queue = .queued slot .record false :: rest → s.checkWait = none → s.print.state ≠ .waiting →
    let b := s.begin env
    let c := b.cart slot
    (∀ v, c.auth = .verified ∨ c.auth = .permitted → c.values = some v →
      let sequence := (entryAt s.link.sequence (slot - 1) 0 + 1) % 16
      let payload := countBytes v.remaining ++ countBytes v.useCount
      let head : List Byte := [BitVec.ofNat 8 slot, 3, BitVec.ofNat 8 sequence, 8] ++ payload
      ∃ t, Answers (.procedureStart env) s t ∧
        t = { b with
          link := { b.link with
            state := .settling
            queue :=
              { Procedure.queued slot .record false with running := true, captured := some (v.remaining, v.useCount) } :: rest
            sequence := putAt b.link.sequence (slot - 1) sequence
            transaction := some { slot, command := .record, sequence, payload, retries := 0, discarded := false }
            frame := [] }
          env := .calm } ∧
        Answers .attemptSend t { t.quiet with link := { t.link with state := .request, frame := head ++ [crc8 head] } }) ∧
    (c.auth ≠ .verified → c.auth ≠ .permitted →
      Answers (.procedureStart env) s { b with link := { b.link with queue := rest, frame := [] }, env := .calm }))

/-- R119, R137, R139: an IDENTIFY answered in time with a complete frame of the slot, the transaction's sequence number, status 0, 21
bytes and a correct check byte: a kind other than the slot's is REJECTED, WRONG_KIND; the slot's kind is sent PROVE with the nonce under
the next sequence number. That WRONG_KIND keeps the unproven flag as it was is the model's own (log 24). -/
def Obligations.IdentifyResponse : Prop :=
  ∀ (env : Env) (s : State) (p : Procedure) (rest : List Procedure) (tr : Transaction) (payload : List Byte), s.up = true →
    s.link.state = .response → s.link.transaction = some tr → tr.discarded = false → tr.command = .identify →
    s.link.queue = p :: rest → p.running = true → p.kind = .check → p.phase = some .identify → p.waiter = false →
    p.slot = tr.slot → 1 ≤ p.slot → p.slot ≤ 5 → tr.sequence < 16 → payload.length = 21 → s.checkWait = none → s.print.state ≠ .waiting →
    let b := s.begin env
    let x := Identity.ofPayload payload
    let head : List Byte := [BitVec.ofNat 8 p.slot, 0, BitVec.ofNat 8 tr.sequence, 21] ++ payload
    let frame := head ++ [crc8 head]
    let n := (entryAt s.link.sequence (p.slot - 1) 0 + 1) % 16
    if x.kind = p.slot then
      Answers (.responseFrame env frame) s
        { b with
          link := { b.link with
            state := .settling
            queue := { p with identity := some x, phase := some .prove } :: rest
            sequence := putAt b.link.sequence (p.slot - 1) n
            transaction := some
              { slot := p.slot, command := .prove, sequence := n, payload := bytes16 (p.nonce.getD 0), retries := 0,
                discarded := false }
            frame := [] }
          env := .calm }
    else
      ∃ t, Answers (.responseFrame env frame) s t ∧
        t = { b with carts := t.carts, link := t.link, notice := t.notice, env := .calm } ∧
        t.cart p.slot =
          { b.cart p.slot with
            auth := .rejected, reason := some .wrongKind, id := some x.id, kind := some x.kind, values := none } ∧
        t.link = { b.link with state := .idle, queue := rest, transaction := none, frame := [] } ∧
        ∀ slot, slot ≠ p.slot → 1 ≤ slot → t.cart slot = b.cart slot

/-- R120, R121, R122, R126: the answer to PROVE: the proof decides between VERIFIED and, by the policy, PERMITTED or REJECTED with
BAD_PROOF; the values adopted are the smaller remaining and the larger use count of the chip's and of what the list knows of the
cartridge, within its capacity; a trusted record goes to the front of the list, and a RECORD is requested when what it adopts is below
the chip's.
R127: the answer to RECORD: the record adopts the smaller remaining and the larger use count, a trusted one goes to the front of the
list, and a RECORD owed, or wanted by the change of its level, is requested. Without an answer a trusted record takes its list write
and becomes SILENT, its values absent; that its unproven flag stays as it was is the model's own (log 24). -/
def Obligations.ProveResponse : Prop :=
  (∀ (env : Env) (s : State) (p : Procedure) (rest : List Procedure) (tr : Transaction) (x : Identity) (payload : List Byte),
    s.up = true → s.link.state = .response → s.link.transaction = some tr → tr.discarded = false → tr.command = .prove →
    s.link.queue = p :: rest → p.running = true → (∀ q ∈ rest, q.running = false) → p.kind = .check → p.phase = some .prove →
    p.identity = some x → p.waiter = false → p.slot = tr.slot → 1 ≤ p.slot → p.slot ≤ 5 → tr.sequence < 16 → payload.length = 16 →
    s.checkWait = none → s.print.state ≠ .waiting →
    let b := s.begin env
    let head : List Byte := [BitVec.ofNat 8 p.slot, 0, BitVec.ofNat 8 tr.sequence, 16] ++ payload
    let proves : Prop :=
      Config.expectedProof (p.nonce.getD 0) x.id x.capacity x.remaining x.useCount tr.sequence =
        BitVec.ofNat 128 (littleEndian payload)
    let lenient : Prop := b.stored.settings.supply.policy = .lenient
    ∃ t v, Answers (.responseFrame env (head ++ [crc8 head])) s t ∧
      t = { b with
        carts := t.carts, link := t.link, stored := t.stored, notice := t.notice, afterWrites := t.afterWrites, env := .calm } ∧
      (∀ slot, slot ≠ p.slot → 1 ≤ slot → t.cart slot = b.cart slot) ∧
      (proves → (t.cart p.slot).auth = .verified ∧ (t.cart p.slot).reason = none ∧ (t.cart p.slot).unproven = false) ∧
      (¬proves → lenient → (t.cart p.slot).auth = .permitted ∧ (t.cart p.slot).reason = none ∧
        (t.cart p.slot).unproven = true) ∧
      (¬proves → ¬lenient → (t.cart p.slot).auth = .rejected ∧ (t.cart p.slot).reason = some .badProof ∧
        (t.cart p.slot).unproven = true ∧ t.stored = b.stored) ∧
      (t.cart p.slot).id = some x.id ∧ (t.cart p.slot).kind = some x.kind ∧ (t.cart p.slot).recordOwed = false ∧
      (t.cart p.slot).values = some v ∧ v.capacity = x.capacity ∧ v.sinceWrite = 0 ∧
      (∀ e, b.stored.known.find? (fun e => e.id = x.id) = some e →
        v.remaining = min (min x.remaining e.remaining) x.capacity ∧ v.useCount = max x.useCount e.useCount) ∧
      (b.stored.known.find? (fun e => e.id = x.id) = none →
        v.remaining = min x.remaining x.capacity ∧ v.useCount = x.useCount) ∧
      (proves ∨ lenient →
        t.stored.known =
          ({ id := x.id, kind := x.kind, remaining := v.remaining, useCount := v.useCount } ::
            b.stored.known.filter (fun e => e.id ≠ x.id)).take 8) ∧
      ((∀ q ∈ rest, q.slot ≠ p.slot) →
        t.link.queue =
          rest ++
            (if (proves ∨ lenient) ∧ (v.remaining < x.remaining ∨ x.useCount < v.useCount) then [.queued p.slot .record false]
              else []))) ∧
  (∀ (env : Env) (s : State) (p : Procedure) (rest : List Procedure) (tr : Transaction) (id : BitVec 64) (v : CartridgeValues),
    s.up = true → s.link.state = .response → s.link.transaction = some tr → tr.discarded = false → tr.command = .record →
    s.link.queue = p :: rest → p.running = true → p.kind = .record → p.waiter = false → p.slot = tr.slot → 1 ≤ p.slot →
    p.slot ≤ 5 → tr.sequence < 16 → s.checkWait = none → s.print.state ≠ .waiting → (∀ q ∈ rest, q.slot ≠ p.slot) →
    let b := s.begin env
    let c := b.cart p.slot
    let trusted : Prop := c.auth = .verified ∨ c.auth = .permitted
    let listed (w : CartridgeValues) : List KnownCartridge :=
      if trusted then
        ({ id, kind := c.kind.getD 0, remaining := w.remaining, useCount := w.useCount } ::
          b.stored.known.filter (fun e => e.id ≠ id)).take 8
      else b.stored.known
    let idle : Link := { b.link with state := .idle, queue := rest, transaction := none, frame := [] }
    c.id = some id → c.values = some v →
    (∀ payload : List Byte, payload.length = 8 →
      let head : List Byte := [BitVec.ofNat 8 p.slot, 0, BitVec.ofNat 8 tr.sequence, 8] ++ payload
      let remaining := min v.remaining (littleEndian (payload.take 4))
      ∃ t w, Answers (.responseFrame env (head ++ [crc8 head])) s t ∧
        t = { b with
          carts := putAt b.carts (p.slot - 1) { c with values := some w, recordOwed := false }
          stored := { b.stored with known := listed w, knownOk := t.stored.knownOk }
          link := { idle with
            queue := rest ++ (if trusted ∧ (c.recordOwed = true ∨ w.level ≠ v.level) then [.queued p.slot .record false] else []) }
          notice := if w.level = v.level then b.notice else b.notice ||| Cause.supply.mask
          afterWrites := t.afterWrites, env := .calm } ∧
        w.remaining = remaining ∧ w.useCount = max v.useCount (littleEndian ((payload.drop 4).take 4)) ∧ w.sinceWrite = 0 ∧
        w.capacity = v.capacity ∧
        w.level =
          (if remaining = 0 then .empty
            else if remaining ≤ v.capacity * b.stored.settings.supply.lowPermille / 1000 then .low else .normal)) ∧
    (b.stored.settings.supply.retryLimit ≤ tr.retries →
      ∃ t, Answers (.responseDeadline env) s t ∧
        t = { b with
          carts := t.carts, stored := { b.stored with known := listed v, knownOk := t.stored.knownOk }, link := idle
          notice := t.notice, afterWrites := t.afterWrites, env := .calm } ∧
        (∀ slot, slot ≠ p.slot → 1 ≤ slot → t.cart slot = b.cart slot) ∧
        (trusted → t.cart p.slot = { c with auth := .silent, reason := none, values := none, recordOwed := false }) ∧
        (¬trusted → t.cart p.slot = { c with recordOwed := false } ∧ t.notice = b.notice)))

/-- R139, R140: an attempt that fails (by a frame with a wrong check byte, at the deadline, or with the line never quiet) is repeated
with the same sequence number while further attempts remain; with none left an unanswered IDENTIFY makes the slot ABSENT.
R144: a line held low with nothing on the wire is captured with the slot at the head of the queue and leaves the link STUCK; its
recovery makes it IDLE again.
R133, R138: an attempt also fails when the line is not quiet in time, and that the attempt after it counts as a retry is the model's own
(log 25). What the part relies on a chip for: a frame received again, as a retry sends it, is answered as it was and acted on once; an
answered request of a transaction is what its attempt takes; and no stored response answers the slot's next transaction. -/
def Obligations.AttemptsFailAndLineSticks : Prop :=
  (∀ (env : Env) (s : State) (p : Procedure) (rest : List Procedure) (tr : Transaction) (c : Instr), s.up = true →
      (s.link.state = .response ∧
          (c = .responseDeadline env ∨ ∃ bytes, bytes.length = 5 ∧ bytes.getD 3 0 = 0 ∧
            crc8 (bytes.take 4) ≠ bytes.getD 4 0 ∧ c = .responseFrame env bytes)) ∨
        (s.link.state = .settling ∧ c = .quietWaitTimeout env) →
      s.link.transaction = some tr → tr.discarded = false → s.checkWait = none → s.print.state ≠ .waiting →
      let b := s.begin env
      let limit := b.stored.settings.supply.retryLimit
      (tr.retries < limit →
        Answers c s
          { b with
            link := { b.link with state := .settling, frame := [], transaction := some { tr with retries := tr.retries + 1 } }
            env := .calm }) ∧
      (limit ≤ tr.retries → s.link.queue = p :: rest → p.running = true → p.kind = .check → p.phase = some .identify →
        p.waiter = false → 1 ≤ p.slot → p.slot ≤ 5 →
        ∃ t, Answers c s t ∧
          t = { b with carts := t.carts, link := t.link, notice := t.notice, env := .calm } ∧
          t.cart p.slot =
            { b.cart p.slot with
              auth := .absent, reason := none, id := none, kind := none, values := none, unproven := false } ∧
          t.link = { b.link with state := .idle, queue := rest, transaction := none, frame := [] })) ∧
  (∀ (env : Env) (s : State), s.up = true → s.checkWait = none → s.print.state ≠ .waiting →
      let b := s.begin env
      (s.link.state = .idle → s.link.transaction = none →
        Answers (.linkLine env) s
          { b with
            faults := b.faults.capture
              { kind := .linkLine, lane := none, address := none, time := b.dev.clock,
                detail :=
                  match s.link.queue with
                  | [] => 0
                  | p :: _ => p.slot }
            notice := b.notice ||| Cause.fault.mask
            link := { b.link with state := .stuck, transaction := none, frame := [] }
            env := .calm }) ∧
      (s.link.state = .stuck → Answers .linkLineRecovered s { s.quiet with link := { s.link with state := .idle } })) ∧
  (∀ (c : Chip) (bytes : List Byte), (c.receive bytes).1.receive bytes = c.receive bytes) ∧
  (∀ (c : Chip) (tr : Transaction), c.slot = tr.slot → 1 ≤ tr.slot → tr.slot ≤ 5 → tr.sequence < 16 → tr.payload.length ≤ 16 →
      (∀ x, c.last = some x → x.payload.length = x.command.responseLength) →
      ∃ response, (c.receive tr.frame).2 = some response ∧
        attemptOf response tr = some (.succeeds (c.answer tr.command tr.sequence tr.payload).2)) ∧
  (∀ (c : Chip) (x : Answered) (command : LinkCommand), c.last = some x → x.sequence < 16 →
      c.stored command ((x.sequence + 1) % 16) = none)

/-! ### Arithmetic -/

/-- R136: a run of bytes followed by its check byte leaves the check register at 0; with any one byte of it wrong it does not. -/
def Obligations.CheckByteDetectsErrors : Prop :=
  ∀ bytes : List Byte, crc8 (bytes ++ [crc8 bytes]) = 0 ∧
    ∀ (i : Nat) (e : Byte), i < bytes.length + 1 → e ≠ 0 →
      crc8 ((bytes ++ [crc8 bytes]).set i ((bytes ++ [crc8 bytes]).getD i 0 ^^^ e)) ≠ 0

/-- R83: deciphering what was enciphered under the same key and nonce gives the plaintext back. A band whose tag bytes differ is
refused, and so is one deciphered with another nonce, under whatever key (R102), or under the key of another draw (R111, R114, R115),
and one with a byte of its ciphertext altered. No 16-byte tag tells every alteration and every key: the laws are those of one byte and
of the first 2^64 draws (log 8). -/
def Obligations.DecipherInvertsEncipher : Prop :=
  (∀ (key : BitVec 256) (nonce : Config.Nonce) (plain tag : List Byte),
    decipherBand key nonce (encipherBand key nonce plain) = some plain ∧
    (encipherBand key nonce plain).length = plain.length + 16 ∧
    (tag.length = 16 → tag ≠ tagBytes (Config.cipherCore.tag key nonce plain) →
      decipherBand key nonce (Config.cipherCore.cipher key nonce plain ++ tag) = none) ∧
    (∀ (key' : BitVec 256) (nonce' : Config.Nonce), nonce' ≠ nonce →
      decipherBand key' nonce' (encipherBand key nonce plain) = none) ∧
    (∀ (i : Nat) (x : Byte), i < plain.length + 16 → x ≠ (encipherBand key nonce plain).getD i 0 →
      decipherBand key nonce ((encipherBand key nonce plain).set i x) = none)) ∧
  ∀ (d e : Nat) (nonce nonce' : Config.Nonce) (plain : List Byte), d < 2 ^ 64 → e < 2 ^ 64 → d ≠ e →
    decipherBand (Config.randomSource.key e) nonce' (encipherBand (Config.randomSource.key d) nonce plain) = none

/-- R47 to R55: what metering gives lies in its ranges: a weight within 0..4095 of a clamped curve, a coverage within 10000 basis
points of sums that such weights give, and a charge that never exceeds the hold. -/
def Obligations.MeteringStaysInRange : Prop :=
  (∀ (t : Curve) (level : Nat), level ≤ 255 → weight t.clamped level ≤ 4095) ∧
    (∀ sum pixels lines : Nat, sum ≤ pixels * lines * 4095 → coverageOf sum pixels lines ≤ 10000) ∧
    ∀ (c : PrintCapture) (declared : Bool) (pixels : Nat) (sums counts : PerPlane Nat) (delivered : Bool),
      (meter c declared pixels sums counts delivered).charge ≤ c.hold declared ∧ c.hold declared ≤ 65535 ∧
        (delivered = false → (meter c declared pixels sums counts delivered).charge = 0) ∧
        (declared = false → (meter c declared pixels sums counts delivered).colour = false)

/-! ### Laws every step keeps -/

/-- The laws hold right after reset. -/
def Obligations.ResetIsLawful : Prop :=
  State.reset.memoryCanonical ∧ State.reset.intakeLawful ∧ State.reset.listLawful ∧ State.reset.cartridgesLawful ∧
    State.reset.queueLawful ∧ State.reset.settingsLawful ∧ State.reset.faults.lawful ∧ State.reset.entryRecorded ∧
    State.reset.slotsLawful ∧ State.reset.startRests ∧ State.reset.testsWithdrawn ∧ State.reset.unitsLawful ∧
    State.reset.slotsAgree ∧ State.reset.keysDrawn ∧ State.reset.coreSettled ∧ State.reset.bandsSealed

/-- Every step keeps the canonical form of the shared DRAM. The form is the model's own (log 4): addresses rise strictly and no listed
byte is what an unlisted one reads as, so that equal contents are equal data. -/
def Obligations.StepKeepsMemoryCanonical : Prop :=
  ∀ s t : State, s.memoryCanonical → step s = .next t → t.memoryCanonical

/-- Section 7.4, R123, R141: every step keeps the laws of the known-cartridge list, of the cartridge records and of the procedure
queue. -/
def Obligations.StepKeepsSupplyLaws : Prop :=
  ∀ s t : State, step s = .next t →
    (s.listLawful → t.listLawful) ∧ (s.cartridgesLawful → t.cartridgesLawful) ∧ (s.queueLawful → t.queueLawful)

/-- R44, R45, R128, R145, R178, R157, R159, R170, R176: every step keeps the settings in their ranges (rates, tier tables, tone curves,
deposit factors and colour floor, supply settings, timers), the intake queues, the fault capture record and the entry time lawful. -/
def Obligations.StepKeepsDeviceLaws : Prop :=
  ∀ s t : State, step s = .next t →
    (s.settingsLawful → t.settingsLawful) ∧ (s.intakeLawful → t.intakeLawful) ∧ (s.faults.lawful → t.faults.lawful) ∧
      (s.entryRecorded → t.entryRecorded)

/-- R111, section 6.1, R171, R175: every step keeps the law of the key slots (no FREE slot holds a key), the rest of a part that is
STARTING, and that Resume Service's test runs in WITHDRAWN alone.
R103, R104, R84: every step keeps, together with the law of the slots, that a LIVE slot is attached to a job of its owner's account
whose list has it, and the list no other slot, and that each slot's key is one drawn for it alone; and that no band waits for a core
that can take one. -/
def Obligations.StepKeepsSlotsAndRest : Prop :=
  ∀ s t : State, step s = .next t →
    (s.slotsLawful → t.slotsLawful) ∧ (s.startRests → t.startRests) ∧ (s.testsWithdrawn → t.testsWithdrawn) ∧
      (s.slotsLawful → s.slotsAgree → s.keysDrawn → t.slotsAgree ∧ t.keysDrawn) ∧ (s.coreSettled → t.coreSettled)

/-- R170, R173, R175: the operating state changes only by a start, the end of a start, a withdrawal from RUNNING, a Resume Service
whose test passes, or a loss of power. (That the test runs in WITHDRAWN alone is a law every step keeps.) -/
def Obligations.OperatingStateTransitions : Prop :=
  ∀ (c : Instr) (s t : State), s.testsWithdrawn → Answers c s t →
    t.dev.op = s.dev.op ∨
      (t.dev.op = .starting ∧ ((∃ e x, c = .powerOn e x) ∨ (∃ e x, c = .resetInputRelease e x) ∨ (∃ e v x, c = .restart e v x) ∨
        ∃ l, c = .lossOfPower l)) ∨
      (s.dev.op = .starting ∧ ∃ e, c = .startEnd e) ∨
      (s.dev.op = .running ∧ t.dev.op = .withdrawn) ∨
      (s.dev.op = .withdrawn ∧ t.dev.op = .running ∧ ∃ e, c = .resumeServiceTestEnd e true)

/-- R104, R109, R172: a key slot becomes LIVE by Open Slot or Attach Slot alone, in RUNNING alone. -/
def Obligations.SlotsBecomeLiveByTicket : Prop :=
  ∀ (c : Instr) (s t : State) (i : Nat), Answers c s t → (t.slot i).state = .live →
    (s.slot i).state = .live ∨ (s.dev.op = .running ∧ ∃ env, c = .openSlot env ∨ c = .attachSlot env)

/-- R180: no command takes from a lifetime meter what its stored area held when the command began: what it held after the command before
it, or, where the area has decayed since, what is found there. -/
def Obligations.MetersNeverDecrease : Prop :=
  ∀ (c : Instr) (s t : State), (∀ writes, c ≠ .lossOfPower writes) → Answers c s t →
    let held := (s.begin c.env).stored.meters
    (Machine.Meters.lawful held → Machine.Meters.le held t.stored.meters ∧ Machine.Meters.lawful t.stored.meters) ∧
    ((∀ found, Decay.meters found ∉ c.env.decayed) → Machine.Meters.lawful s.stored.meters →
      Machine.Meters.le s.stored.meters t.stored.meters)
end

