-- ==== Sys2Proof/Laws/Cipher.lean ====
section
/-! SUPPORT. What the cipher core's operations and a hold request can do, once each: tags, a decipherment, the core's next band, and
the hold of a page. -/

namespace Sys2Proof.Machine

/-! ### Tags and decipherment (R83) -/

@[simp] theorem tagBytes_length (t : BitVec 128) : (tagBytes t).length = 16 := by simp [tagBytes]

theorem littleEndian_tagBytes (t : BitVec 128) : BitVec.ofNat 128 (littleEndian (tagBytes t)) = t := by
  have ht := t.isLt
  apply BitVec.eq_of_toNat_eq
  simp only [littleEndian, tagBytes, List.range, List.range.loop, List.map, List.foldr, BitVec.toNat_setWidth,
    BitVec.toNat_ushiftRight, Nat.shiftRight_eq_div_pow, BitVec.toNat_ofNat]
  omega

theorem tagBytes_injective {t u : BitVec 128} (h : tagBytes t = tagBytes u) : t = u := by
  rw [← littleEndian_tagBytes t, h, littleEndian_tagBytes]

/-- A decipherment of ciphertext with 16 tag bytes. -/
theorem decipherBand_append (key : BitVec 256) (nonce : Config.Nonce) (c tag : List Byte) (h : tag.length = 16) :
    decipherBand key nonce (c ++ tag) =
      if tagBytes (Config.cipherCore.tag key nonce (Config.cipherCore.plain key nonce c)) = tag then
        some (Config.cipherCore.plain key nonce c)
      else none := by
  simp [decipherBand, h]

/-- An encipherment that another key and nonce let pass has the tag of a band of theirs. -/
theorem tag_of_match {key key' : BitVec 256} {nonce nonce' : Config.Nonce} {plain out : List Byte}
    (h : decipherBand key' nonce' (encipherBand key nonce plain) = some out) :
    ∃ q, Config.cipherCore.tag key' nonce' q = Config.cipherCore.tag key nonce plain := by
  rw [encipherBand, decipherBand_append _ _ _ _ (tagBytes_length _)] at h
  split at h
  · exact ⟨_, tagBytes_injective ‹_›⟩
  · cases h

/-! ### The core (R84) -/

theorem State.pumpCore_settled {s : State} (h : s.coreSettled) : s.pumpCore = s := by
  unfold State.pumpCore
  split
  · obtain ⟨hp, hs⟩ := h ‹_›
    simp [Core.nextPath, hp, hs]
  · rfl

/-- The core takes a band of the print path, takes one of the scan path, or is left as it is. -/
theorem State.pumpCore_cases (s : State) :
    (s.core.canTake = true ∧ ∃ i rest, s.core.printQueue = i :: rest ∧
      s.pumpCore = { s with core := { s.core with
        band := some { path := .print, idx := i, slot := s.bandSlot i, orphan := false }, printQueue := rest, lastServed := .print } }) ∨
    (s.core.canTake = true ∧ ∃ i, s.core.scanWaiting = some i ∧
      s.pumpCore = { s with core := { s.core with
        band := some { path := .scan, idx := i, slot := s.scanSlot, orphan := false }, scanWaiting := s.nextScanBand i,
        lastServed := .scan } }) ∨
    (s.coreSettled ∧ s.pumpCore = s) := by
  by_cases hc : s.core.canTake = true
  · rcases hp : s.core.printQueue with _ | ⟨i, rest⟩ <;> rcases hs : s.core.scanWaiting with _ | k
    · have h : s.coreSettled := fun _ => ⟨hp, hs⟩
      exact .inr (.inr ⟨h, pumpCore_settled h⟩)
    · exact .inr (.inl ⟨hc, k, rfl, by simp [State.pumpCore, hc, Core.nextPath, hp, hs]⟩)
    · exact .inl ⟨hc, i, rest, rfl, by simp [State.pumpCore, hc, Core.nextPath, hp, hs]⟩
    · rcases hl : s.core.lastServed
      · exact .inr (.inl ⟨hc, k, rfl, by simp [State.pumpCore, hc, Core.nextPath, hp, hs, hl]⟩)
      · exact .inl ⟨hc, i, rest, rfl, by simp [State.pumpCore, hc, Core.nextPath, hp, hs, hl]⟩
  · have h : s.coreSettled := fun h => absurd h hc
    exact .inr (.inr ⟨h, pumpCore_settled h⟩)

theorem State.pumpCore_frame (s : State) : s.pumpCore = { s with core := s.pumpCore.core } := by
  rcases s.pumpCore_cases with ⟨_, _, _, _, h⟩ | ⟨_, _, _, h⟩ | ⟨_, h⟩ <;> rw [h]

theorem State.dropCore_frame (s : State) (p : CipherPath) : s.dropCore p = { s with core := (s.dropCore p).core } := by
  cases p <;> rfl

/-! ### The hold of a page (R26, R27) -/

theorem putAt_entryAt {α : Type} {n : Nat} (v : Vector α n) (i : Nat) (d : α) : putAt v i (entryAt v i d) = v := by
  unfold putAt entryAt
  ext j hj
  simp only [Vector.getElem_setIfInBounds]
  split
  · subst i
    simp [hj]
  · rfl

@[simp] theorem State.putAcct_same (s : State) (n : Nat) : s.putAcct n (s.acct n) = s := by
  rw [State.putAcct, State.acct, putAt_entryAt]

theorem State.available_covers (s : State) (n free h : Nat) :
    s.covers n free h ↔ s.available n = none ∨ ∃ a, s.available n = some a ∧ h - free ≤ a := by
  unfold State.covers State.available
  by_cases hu : s.unlimited n = true
  · simp [hu]
  · simp [hu]
    omega

/-- A hold request: taken where free reservation and available units cover it, else refused. -/
theorem State.requestHold_some {s : State} {i : Nat} {p : CipherPath} {h : Nat} (hc : s.covers (s.job i).account (s.job i).free h) :
    s.requestHold i p h = some (s.topUp i h (fun j => j.withHold p h)) := by
  rcases Nat.lt_or_ge (s.job i).free h with hf | hf
  · have h0 : (s.job i).free - h = 0 := by omega
    rcases (s.available_covers _ _ _).mp hc with ha | ⟨a, ha, hle⟩
    · simp [State.requestHold, Nat.not_le.mpr hf, ha, State.topUp, State.addReserved, h0]
    · simp [State.requestHold, Nat.not_le.mpr hf, ha, State.topUp, State.addReserved, h0, hle]
  · have h0 : { s.acct (s.job i).account with reserved := (s.acct (s.job i).account).reserved + (h - (s.job i).free) } =
        s.acct (s.job i).account := by
      rw [Nat.sub_eq_zero_of_le hf, Nat.add_zero]
    simp only [State.requestHold, hf, if_pos, State.topUp]
    rw [h0, State.putAcct_same]

theorem State.requestHold_none {s : State} {i : Nat} {p : CipherPath} {h : Nat} (hc : ¬s.covers (s.job i).account (s.job i).free h) :
    s.requestHold i p h = none := by
  rw [s.available_covers, not_or] at hc
  obtain ⟨a, ha⟩ := Option.ne_none_iff_exists'.mp hc.1
  have hlt : ¬h - (s.job i).free ≤ a := fun hle => hc.2 ⟨a, ha, hle⟩
  have hf : ¬h ≤ (s.job i).free := by omega
  simp [State.requestHold, hf, ha, hlt]

end Sys2Proof.Machine
end

