-- ==== Sys2Proof/Laws/Memory.lean ====
section
/-! SUPPORT. What the memory operations can do: a read after a write, the canonical form kept, and the frame of every wider
write. -/

namespace Sys2Proof.Machine

theorem Memory.read_write_same (m : Memory) (a : Nat) (b : Byte) (h : m.wf) : (m.write a b).read a = b := by
  obtain ⟨hp, -⟩ := h
  induction m with
  | nil => by_cases hb : b = Memory.unlisted <;> simp [Memory.write, Memory.read, hb]
  | cons c rest ih =>
    obtain ⟨x, v⟩ := c
    rw [List.pairwise_cons] at hp
    have absent : ∀ r : Memory, (∀ p ∈ r, a < p.1) → Memory.read r a = Memory.unlisted := by
      intro r
      induction r with
      | nil => intro _; rfl
      | cons d r ih =>
        intro hr
        have := hr d (by simp)
        rw [Memory.read, if_neg (by omega)]
        exact ih (fun p hp => hr p (by simp [hp]))
    simp only [Memory.write]
    split
    · split
      · rw [Memory.read, if_neg (by omega), absent rest, ‹b = Memory.unlisted›]
        intro p hp'
        have := hp.1 p hp'
        simp only at this
        omega
      · simp [Memory.read]
    · split
      · split
        · rw [absent rest, ‹b = Memory.unlisted›]
          intro p hp'
          have := hp.1 p hp'
          simp only at this
          omega
        · simp [Memory.read]
      · rw [Memory.read, if_neg (by omega)]
        exact ih hp.2

theorem Memory.read_write_other (m : Memory) (a x : Nat) (b : Byte) (h : x ≠ a) : (m.write a b).read x = m.read x := by
  induction m with
  | nil => by_cases hb : b = Memory.unlisted <;> simp [Memory.write, Memory.read, hb, Ne.symm h]
  | cons c rest ih =>
    obtain ⟨y, v⟩ := c
    simp only [Memory.write]
    split
    · split <;> simp [Memory.read, Ne.symm h]
    · split
      · split <;> simp [Memory.read, Ne.symm h, ‹a = y›.symm]
      · simp [Memory.read, ih]

theorem Memory.mem_write (m : Memory) (a : Nat) (b : Byte) (c : Host.Cell) (h : c ∈ m.write a b) :
    c ∈ m ∨ (c = (a, b) ∧ b ≠ Memory.unlisted) := by
  induction m with
  | nil => by_cases hb : b = Memory.unlisted <;> simp_all [Memory.write]
  | cons d rest ih =>
    obtain ⟨y, v⟩ := d
    simp only [Memory.write] at h
    split at h
    · split at h <;> simp_all
      tauto
    · split at h
      · split at h <;> simp_all
        tauto
      · simp only [List.mem_cons] at h ⊢
        rcases h with h | h
        · exact .inl (.inl h)
        · rcases ih h with h | h
          · exact .inl (.inr h)
          · exact .inr h

/-- A write keeps the canonical form. -/
theorem Memory.write_wf (m : Memory) (a : Nat) (b : Byte) (h : m.wf) (ha : a < 2 ^ 32) : (m.write a b).wf := by
  refine ⟨?_, ?_⟩
  · obtain ⟨hp, -⟩ := h
    induction m with
    | nil => by_cases hb : b = Memory.unlisted <;> simp [Memory.write, hb]
    | cons d rest ih =>
      obtain ⟨y, v⟩ := d
      have hp' := List.pairwise_cons.mp hp
      simp only [Memory.write]
      split
      · split
        · exact hp
        · refine List.pairwise_cons.mpr ⟨?_, hp⟩
          intro p hpm
          rcases List.mem_cons.mp hpm with rfl | hpm
          · assumption
          · have := hp'.1 p hpm
            simp only at this ⊢
            omega
      · split
        · split
          · exact hp'.2
          · subst_vars
            exact List.pairwise_cons.mpr ⟨hp'.1, hp'.2⟩
        · refine List.pairwise_cons.mpr ⟨?_, ih hp'.2⟩
          intro p hpm
          rcases Memory.mem_write _ _ _ _ hpm with hpm | ⟨rfl, -⟩
          · exact hp'.1 p hpm
          · simp only
            omega
  · intro c hc
    rcases Memory.mem_write _ _ _ _ hc with hc | ⟨rfl, hb⟩
    · exact h.2 c hc
    · exact ⟨ha, hb⟩

theorem wrapAddress_lt (a : Nat) : wrapAddress a < 2 ^ 32 := Nat.mod_lt _ (by decide)

theorem Memory.putWord_wf (m : Memory) (a : Nat) (w : Word) (h : m.wf) : (m.putWord a w).wf := by
  simp only [Memory.putWord]
  exact Memory.write_wf _ _ _ (Memory.write_wf _ _ _ (Memory.write_wf _ _ _ (Memory.write_wf _ _ _ h (wrapAddress_lt _))
    (wrapAddress_lt _)) (wrapAddress_lt _)) (wrapAddress_lt _)

theorem Memory.storeAll_wf (m : Memory) (cells : List (Nat × Byte)) (h : m.wf) : (m.storeAll cells).wf := by
  induction cells generalizing m with
  | nil => exact h
  | cons c cells ih => exact ih _ (Memory.write_wf _ _ _ h (wrapAddress_lt _))

theorem Memory.empty_wf : Memory.wf [] := by simp [Memory.wf]

/-- A word write leaves every byte outside its four alone. -/
theorem Memory.read_putWord_other (m : Memory) (a x : Nat) (w : Word) (h : ∀ i < 4, x ≠ wrapAddress (a + i)) :
    (m.putWord a w).read x = m.read x := by
  have h0 := h 0 (by decide)
  have h1 := h 1 (by decide)
  have h2 := h 2 (by decide)
  have h3 := h 3 (by decide)
  simp only [Nat.add_zero] at h0
  simp [Memory.putWord, Memory.read_write_other, h0, h1, h2, h3]

theorem wordOf_wordByte (w : Word) : wordOf (wordByte w 0) (wordByte w 1) (wordByte w 2) (wordByte w 3) = w := by
  apply BitVec.eq_of_getLsbD_eq
  intro i hi
  simp only [wordOf, wordByte, BitVec.getLsbD_append, BitVec.getLsbD_setWidth, BitVec.getLsbD_ushiftRight]
  interval_cases i <;> simp

/-- A word read after a word write to the same address. -/
theorem Memory.word_putWord_same (m : Memory) (a : Nat) (w : Word) (h : m.wf) : (m.putWord a w).word a = w := by
  have hne : ∀ i j, i < 4 → j < 4 → i ≠ j → wrapAddress (a + i) ≠ wrapAddress (a + j) := by
    intro i j hi hj hij e
    simp only [wrapAddress] at e
    omega
  have w0 := Memory.write_wf m (wrapAddress a) (wordByte w 0) h (wrapAddress_lt _)
  have w1 := Memory.write_wf _ (wrapAddress (a + 1)) (wordByte w 1) w0 (wrapAddress_lt _)
  have w2 := Memory.write_wf _ (wrapAddress (a + 2)) (wordByte w 2) w1 (wrapAddress_lt _)
  have e01 := hne 0 1 (by decide) (by decide) (by decide)
  have e02 := hne 0 2 (by decide) (by decide) (by decide)
  have e03 := hne 0 3 (by decide) (by decide) (by decide)
  have e12 := hne 1 2 (by decide) (by decide) (by decide)
  have e13 := hne 1 3 (by decide) (by decide) (by decide)
  have e23 := hne 2 3 (by decide) (by decide) (by decide)
  simp only [Nat.add_zero] at e01 e02 e03
  have key : (m.putWord a w).word a = wordOf (wordByte w 0) (wordByte w 1) (wordByte w 2) (wordByte w 3) := by
    simp only [Memory.word, Memory.putWord]
    rw [Memory.read_write_same _ _ _ w2, Memory.read_write_other _ _ _ _ e23, Memory.read_write_same _ _ _ w1,
      Memory.read_write_other _ _ _ _ e13, Memory.read_write_other _ _ _ _ e12, Memory.read_write_same _ _ _ w0,
      Memory.read_write_other _ _ _ _ e03, Memory.read_write_other _ _ _ _ e02, Memory.read_write_other _ _ _ _ e01,
      Memory.read_write_same _ _ _ h]
  rw [key, wordOf_wordByte]

/-! ### Writes of a state -/

/-- Everything a word write can do. -/
theorem State.writeWord_cases (s : State) (a : Nat) (w : Word) :
    (wordFails s.env.badWrites a = true ∧ s.writeWord a w = (s, some (wrapAddress a))) ∨
      (wordFails s.env.badWrites a = false ∧ s.writeWord a w = (s.setMem (s.mem.putWord a w), none)) := by
  simp only [State.writeWord]
  cases h : wordFails s.env.badWrites a <;> simp

/-- A run of bytes changes nothing but memory. -/
theorem State.writeBytes_frame (bytes : List Byte) (s : State) (a : Nat) :
    (s.writeBytes a bytes).1 = { s with mem := (s.writeBytes a bytes).1.mem } := by
  induction bytes generalizing s a with
  | nil => rfl
  | cons b rest ih =>
    simp only [State.writeBytes]
    split
    · rfl
    · rw [ih]
      rfl

/-- A run of words changes nothing but memory. -/
theorem State.writeWords_frame (words : List Word) (s : State) (a : Nat) :
    (s.writeWords a words).1 = { s with mem := (s.writeWords a words).1.mem } := by
  induction words generalizing s a with
  | nil => rfl
  | cons w rest ih =>
    rcases s.writeWord_cases a w with ⟨-, h⟩ | ⟨-, h⟩
    · simp [State.writeWords, h]
    · simp only [State.writeWords, h]
      rw [ih]
      rfl

theorem State.writeBytes_wf (bytes : List Byte) (s : State) (a : Nat) (h : s.mem.wf) : (s.writeBytes a bytes).1.mem.wf := by
  induction bytes generalizing s a with
  | nil => exact h
  | cons b rest ih =>
    simp only [State.writeBytes]
    split
    · exact h
    · exact ih _ _ (Memory.write_wf _ _ _ h (wrapAddress_lt _))

theorem State.writeWords_wf (words : List Word) (s : State) (a : Nat) (h : s.mem.wf) : (s.writeWords a words).1.mem.wf := by
  induction words generalizing s a with
  | nil => exact h
  | cons w rest ih =>
    rcases s.writeWord_cases a w with ⟨-, e⟩ | ⟨-, e⟩
    · simpa [State.writeWords, e] using h
    · simp only [State.writeWords, e]
      exact ih _ _ (Memory.putWord_wf _ _ _ h)

/-- The memory a fresh part starts with is canonical. -/
theorem State.reset_mem_wf : State.reset.mem.wf := Memory.empty_wf

end Sys2Proof.Machine
end

