-- ==== Sys2Proof/Laws/State.lean ====
section
/-! SUPPORT. One lemma for each field of State after each update the model names, each true by definition, so that no later proof
unfolds an update; then what a table entry reads after an entry was replaced. -/

namespace Sys2Proof.Machine

variable (s : State)

/-! ### setMem -/

@[simp] theorem State.setMem_power (m : Memory) : (s.setMem m).power = s.power := rfl
@[simp] theorem State.setMem_nrst (m : Memory) : (s.setMem m).nrst = s.nrst := rfl
@[simp] theorem State.setMem_dev (m : Memory) : (s.setMem m).dev = s.dev := rfl
@[simp] theorem State.setMem_faults (m : Memory) : (s.setMem m).faults = s.faults := rfl
@[simp] theorem State.setMem_stored (m : Memory) : (s.setMem m).stored = s.stored := rfl
@[simp] theorem State.setMem_accounts (m : Memory) : (s.setMem m).accounts = s.accounts := rfl
@[simp] theorem State.setMem_zeroCaptured (m : Memory) : (s.setMem m).zeroCaptured = s.zeroCaptured := rfl
@[simp] theorem State.setMem_sessions (m : Memory) : (s.setMem m).sessions = s.sessions := rfl
@[simp] theorem State.setMem_jobs (m : Memory) : (s.setMem m).jobs = s.jobs := rfl
@[simp] theorem State.setMem_hold (m : Memory) : (s.setMem m).hold = s.hold := rfl
@[simp] theorem State.setMem_print (m : Memory) : (s.setMem m).print = s.print := rfl
@[simp] theorem State.setMem_engineOut (m : Memory) : (s.setMem m).engineOut = s.engineOut := rfl
@[simp] theorem State.setMem_scan (m : Memory) : (s.setMem m).scan = s.scan := rfl
@[simp] theorem State.setMem_core (m : Memory) : (s.setMem m).core = s.core := rfl
@[simp] theorem State.setMem_slots (m : Memory) : (s.setMem m).slots = s.slots := rfl
@[simp] theorem State.setMem_draws (m : Memory) : (s.setMem m).draws = s.draws := rfl
@[simp] theorem State.setMem_carts (m : Memory) : (s.setMem m).carts = s.carts := rfl
@[simp] theorem State.setMem_link (m : Memory) : (s.setMem m).link = s.link := rfl
@[simp] theorem State.setMem_checkWait (m : Memory) : (s.setMem m).checkWait = s.checkWait := rfl
@[simp] theorem State.setMem_levels (m : Memory) : (s.setMem m).levels = s.levels := rfl
@[simp] theorem State.setMem_lanes (m : Memory) : (s.setMem m).lanes = s.lanes := rfl
@[simp] theorem State.setMem_notice (m : Memory) : (s.setMem m).notice = s.notice := rfl
@[simp] theorem State.setMem_enable (m : Memory) : (s.setMem m).enable = s.enable := rfl
@[simp] theorem State.setMem_readData (m : Memory) : (s.setMem m).readData = s.readData := rfl
@[simp] theorem State.setMem_mem (m : Memory) : (s.setMem m).mem = m := rfl
@[simp] theorem State.setMem_env (m : Memory) : (s.setMem m).env = s.env := rfl
@[simp] theorem State.setMem_shadow (m : Memory) : (s.setMem m).shadow = s.shadow := rfl
@[simp] theorem State.setMem_shadowMem (m : Memory) : (s.setMem m).shadowMem = s.shadowMem := rfl
@[simp] theorem State.setMem_afterWrites (m : Memory) : (s.setMem m).afterWrites = s.afterWrites := rfl
@[simp] theorem State.setMem_pending (m : Memory) : (s.setMem m).pending = s.pending := rfl

/-! ### leaveService -/

@[simp] theorem State.leaveService_power (n : Fin 4) : (s.leaveService n).power = s.power := rfl
@[simp] theorem State.leaveService_nrst (n : Fin 4) : (s.leaveService n).nrst = s.nrst := rfl
@[simp] theorem State.leaveService_dev (n : Fin 4) : (s.leaveService n).dev = s.dev := rfl
@[simp] theorem State.leaveService_faults (n : Fin 4) : (s.leaveService n).faults = s.faults := rfl
@[simp] theorem State.leaveService_stored (n : Fin 4) : (s.leaveService n).stored = s.stored := rfl
@[simp] theorem State.leaveService_accounts (n : Fin 4) : (s.leaveService n).accounts = s.accounts := rfl
@[simp] theorem State.leaveService_zeroCaptured (n : Fin 4) : (s.leaveService n).zeroCaptured = s.zeroCaptured := rfl
@[simp] theorem State.leaveService_sessions (n : Fin 4) : (s.leaveService n).sessions = s.sessions := rfl
@[simp] theorem State.leaveService_jobs (n : Fin 4) : (s.leaveService n).jobs = s.jobs := rfl
@[simp] theorem State.leaveService_hold (n : Fin 4) : (s.leaveService n).hold = s.hold := rfl
@[simp] theorem State.leaveService_print (n : Fin 4) : (s.leaveService n).print = s.print := rfl
@[simp] theorem State.leaveService_engineOut (n : Fin 4) : (s.leaveService n).engineOut = s.engineOut := rfl
@[simp] theorem State.leaveService_scan (n : Fin 4) : (s.leaveService n).scan = s.scan := rfl
@[simp] theorem State.leaveService_core (n : Fin 4) : (s.leaveService n).core = s.core := rfl
@[simp] theorem State.leaveService_slots (n : Fin 4) : (s.leaveService n).slots = s.slots := rfl
@[simp] theorem State.leaveService_draws (n : Fin 4) : (s.leaveService n).draws = s.draws := rfl
@[simp] theorem State.leaveService_carts (n : Fin 4) : (s.leaveService n).carts = s.carts := rfl
@[simp] theorem State.leaveService_link (n : Fin 4) : (s.leaveService n).link = s.link := rfl
@[simp] theorem State.leaveService_checkWait (n : Fin 4) : (s.leaveService n).checkWait = s.checkWait := rfl
@[simp] theorem State.leaveService_levels (n : Fin 4) : (s.leaveService n).levels = s.levels := rfl
@[simp] theorem State.leaveService_notice (n : Fin 4) : (s.leaveService n).notice = s.notice := rfl
@[simp] theorem State.leaveService_enable (n : Fin 4) : (s.leaveService n).enable = s.enable := rfl
@[simp] theorem State.leaveService_readData (n : Fin 4) : (s.leaveService n).readData = s.readData := rfl
@[simp] theorem State.leaveService_mem (n : Fin 4) : (s.leaveService n).mem = s.mem := rfl
@[simp] theorem State.leaveService_env (n : Fin 4) : (s.leaveService n).env = s.env := rfl
@[simp] theorem State.leaveService_shadow (n : Fin 4) : (s.leaveService n).shadow = s.shadow := rfl
@[simp] theorem State.leaveService_shadowMem (n : Fin 4) : (s.leaveService n).shadowMem = s.shadowMem := rfl
@[simp] theorem State.leaveService_afterWrites (n : Fin 4) : (s.leaveService n).afterWrites = s.afterWrites := rfl
@[simp] theorem State.leaveService_pending (n : Fin 4) : (s.leaveService n).pending = s.pending := rfl

/-! ### store -/

@[simp] theorem State.store_power (area : AreaId) (st : Stored) : (s.store area st).power = s.power := rfl
@[simp] theorem State.store_nrst (area : AreaId) (st : Stored) : (s.store area st).nrst = s.nrst := rfl
@[simp] theorem State.store_dev (area : AreaId) (st : Stored) : (s.store area st).dev = s.dev := rfl
@[simp] theorem State.store_faults (area : AreaId) (st : Stored) : (s.store area st).faults = s.faults := rfl
@[simp] theorem State.store_stored (area : AreaId) (st : Stored) : (s.store area st).stored = st := rfl
@[simp] theorem State.store_accounts (area : AreaId) (st : Stored) : (s.store area st).accounts = s.accounts := rfl
@[simp] theorem State.store_zeroCaptured (area : AreaId) (st : Stored) : (s.store area st).zeroCaptured = s.zeroCaptured := rfl
@[simp] theorem State.store_sessions (area : AreaId) (st : Stored) : (s.store area st).sessions = s.sessions := rfl
@[simp] theorem State.store_jobs (area : AreaId) (st : Stored) : (s.store area st).jobs = s.jobs := rfl
@[simp] theorem State.store_hold (area : AreaId) (st : Stored) : (s.store area st).hold = s.hold := rfl
@[simp] theorem State.store_print (area : AreaId) (st : Stored) : (s.store area st).print = s.print := rfl
@[simp] theorem State.store_engineOut (area : AreaId) (st : Stored) : (s.store area st).engineOut = s.engineOut := rfl
@[simp] theorem State.store_scan (area : AreaId) (st : Stored) : (s.store area st).scan = s.scan := rfl
@[simp] theorem State.store_core (area : AreaId) (st : Stored) : (s.store area st).core = s.core := rfl
@[simp] theorem State.store_slots (area : AreaId) (st : Stored) : (s.store area st).slots = s.slots := rfl
@[simp] theorem State.store_draws (area : AreaId) (st : Stored) : (s.store area st).draws = s.draws := rfl
@[simp] theorem State.store_carts (area : AreaId) (st : Stored) : (s.store area st).carts = s.carts := rfl
@[simp] theorem State.store_link (area : AreaId) (st : Stored) : (s.store area st).link = s.link := rfl
@[simp] theorem State.store_checkWait (area : AreaId) (st : Stored) : (s.store area st).checkWait = s.checkWait := rfl
@[simp] theorem State.store_levels (area : AreaId) (st : Stored) : (s.store area st).levels = s.levels := rfl
@[simp] theorem State.store_lanes (area : AreaId) (st : Stored) : (s.store area st).lanes = s.lanes := rfl
@[simp] theorem State.store_notice (area : AreaId) (st : Stored) : (s.store area st).notice = s.notice := rfl
@[simp] theorem State.store_enable (area : AreaId) (st : Stored) : (s.store area st).enable = s.enable := rfl
@[simp] theorem State.store_readData (area : AreaId) (st : Stored) : (s.store area st).readData = s.readData := rfl
@[simp] theorem State.store_mem (area : AreaId) (st : Stored) : (s.store area st).mem = s.mem := rfl
@[simp] theorem State.store_env (area : AreaId) (st : Stored) : (s.store area st).env = s.env := rfl
@[simp] theorem State.store_shadow (area : AreaId) (st : Stored) : (s.store area st).shadow = s.shadow := rfl
@[simp] theorem State.store_shadowMem (area : AreaId) (st : Stored) : (s.store area st).shadowMem = s.shadowMem := rfl
@[simp] theorem State.store_pending (area : AreaId) (st : Stored) : (s.store area st).pending = s.pending := rfl

/-! ### putRecord -/

@[simp] theorem State.putRecord_power (n : Nat) (r : AccountRecord) : (s.putRecord n r).power = s.power := rfl
@[simp] theorem State.putRecord_nrst (n : Nat) (r : AccountRecord) : (s.putRecord n r).nrst = s.nrst := rfl
@[simp] theorem State.putRecord_dev (n : Nat) (r : AccountRecord) : (s.putRecord n r).dev = s.dev := rfl
@[simp] theorem State.putRecord_faults (n : Nat) (r : AccountRecord) : (s.putRecord n r).faults = s.faults := rfl
@[simp] theorem State.putRecord_stored (n : Nat) (r : AccountRecord) : (s.putRecord n r).stored = { s.stored with accounts := putAt s.stored.accounts n r } := rfl
@[simp] theorem State.putRecord_accounts (n : Nat) (r : AccountRecord) : (s.putRecord n r).accounts = s.accounts := rfl
@[simp] theorem State.putRecord_zeroCaptured (n : Nat) (r : AccountRecord) : (s.putRecord n r).zeroCaptured = s.zeroCaptured := rfl
@[simp] theorem State.putRecord_sessions (n : Nat) (r : AccountRecord) : (s.putRecord n r).sessions = s.sessions := rfl
@[simp] theorem State.putRecord_jobs (n : Nat) (r : AccountRecord) : (s.putRecord n r).jobs = s.jobs := rfl
@[simp] theorem State.putRecord_hold (n : Nat) (r : AccountRecord) : (s.putRecord n r).hold = s.hold := rfl
@[simp] theorem State.putRecord_print (n : Nat) (r : AccountRecord) : (s.putRecord n r).print = s.print := rfl
@[simp] theorem State.putRecord_engineOut (n : Nat) (r : AccountRecord) : (s.putRecord n r).engineOut = s.engineOut := rfl
@[simp] theorem State.putRecord_scan (n : Nat) (r : AccountRecord) : (s.putRecord n r).scan = s.scan := rfl
@[simp] theorem State.putRecord_core (n : Nat) (r : AccountRecord) : (s.putRecord n r).core = s.core := rfl
@[simp] theorem State.putRecord_slots (n : Nat) (r : AccountRecord) : (s.putRecord n r).slots = s.slots := rfl
@[simp] theorem State.putRecord_draws (n : Nat) (r : AccountRecord) : (s.putRecord n r).draws = s.draws := rfl
@[simp] theorem State.putRecord_carts (n : Nat) (r : AccountRecord) : (s.putRecord n r).carts = s.carts := rfl
@[simp] theorem State.putRecord_link (n : Nat) (r : AccountRecord) : (s.putRecord n r).link = s.link := rfl
@[simp] theorem State.putRecord_checkWait (n : Nat) (r : AccountRecord) : (s.putRecord n r).checkWait = s.checkWait := rfl
@[simp] theorem State.putRecord_levels (n : Nat) (r : AccountRecord) : (s.putRecord n r).levels = s.levels := rfl
@[simp] theorem State.putRecord_lanes (n : Nat) (r : AccountRecord) : (s.putRecord n r).lanes = s.lanes := rfl
@[simp] theorem State.putRecord_notice (n : Nat) (r : AccountRecord) : (s.putRecord n r).notice = s.notice := rfl
@[simp] theorem State.putRecord_enable (n : Nat) (r : AccountRecord) : (s.putRecord n r).enable = s.enable := rfl
@[simp] theorem State.putRecord_readData (n : Nat) (r : AccountRecord) : (s.putRecord n r).readData = s.readData := rfl
@[simp] theorem State.putRecord_mem (n : Nat) (r : AccountRecord) : (s.putRecord n r).mem = s.mem := rfl
@[simp] theorem State.putRecord_env (n : Nat) (r : AccountRecord) : (s.putRecord n r).env = s.env := rfl
@[simp] theorem State.putRecord_shadow (n : Nat) (r : AccountRecord) : (s.putRecord n r).shadow = s.shadow := rfl
@[simp] theorem State.putRecord_shadowMem (n : Nat) (r : AccountRecord) : (s.putRecord n r).shadowMem = s.shadowMem := rfl
@[simp] theorem State.putRecord_afterWrites (n : Nat) (r : AccountRecord) :
    (s.putRecord n r).afterWrites = (s.store (.account n) { s.stored with accounts := putAt s.stored.accounts n r }).afterWrites := rfl
@[simp] theorem State.putRecord_pending (n : Nat) (r : AccountRecord) : (s.putRecord n r).pending = s.pending := rfl

/-! ### writeRecord -/

@[simp] theorem State.writeRecord_power (n : Nat) (r : AccountRecord) : (s.writeRecord n r).power = s.power := rfl
@[simp] theorem State.writeRecord_nrst (n : Nat) (r : AccountRecord) : (s.writeRecord n r).nrst = s.nrst := rfl
@[simp] theorem State.writeRecord_dev (n : Nat) (r : AccountRecord) : (s.writeRecord n r).dev = s.dev := rfl
@[simp] theorem State.writeRecord_faults (n : Nat) (r : AccountRecord) : (s.writeRecord n r).faults = s.faults := rfl
@[simp] theorem State.writeRecord_stored (n : Nat) (r : AccountRecord) : (s.writeRecord n r).stored = { s.stored with accounts := putAt s.stored.accounts n { r with checkOk := true } } := rfl
@[simp] theorem State.writeRecord_accounts (n : Nat) (r : AccountRecord) : (s.writeRecord n r).accounts = s.accounts := rfl
@[simp] theorem State.writeRecord_zeroCaptured (n : Nat) (r : AccountRecord) : (s.writeRecord n r).zeroCaptured = s.zeroCaptured := rfl
@[simp] theorem State.writeRecord_sessions (n : Nat) (r : AccountRecord) : (s.writeRecord n r).sessions = s.sessions := rfl
@[simp] theorem State.writeRecord_jobs (n : Nat) (r : AccountRecord) : (s.writeRecord n r).jobs = s.jobs := rfl
@[simp] theorem State.writeRecord_hold (n : Nat) (r : AccountRecord) : (s.writeRecord n r).hold = s.hold := rfl
@[simp] theorem State.writeRecord_print (n : Nat) (r : AccountRecord) : (s.writeRecord n r).print = s.print := rfl
@[simp] theorem State.writeRecord_engineOut (n : Nat) (r : AccountRecord) : (s.writeRecord n r).engineOut = s.engineOut := rfl
@[simp] theorem State.writeRecord_scan (n : Nat) (r : AccountRecord) : (s.writeRecord n r).scan = s.scan := rfl
@[simp] theorem State.writeRecord_core (n : Nat) (r : AccountRecord) : (s.writeRecord n r).core = s.core := rfl
@[simp] theorem State.writeRecord_slots (n : Nat) (r : AccountRecord) : (s.writeRecord n r).slots = s.slots := rfl
@[simp] theorem State.writeRecord_draws (n : Nat) (r : AccountRecord) : (s.writeRecord n r).draws = s.draws := rfl
@[simp] theorem State.writeRecord_carts (n : Nat) (r : AccountRecord) : (s.writeRecord n r).carts = s.carts := rfl
@[simp] theorem State.writeRecord_link (n : Nat) (r : AccountRecord) : (s.writeRecord n r).link = s.link := rfl
@[simp] theorem State.writeRecord_checkWait (n : Nat) (r : AccountRecord) : (s.writeRecord n r).checkWait = s.checkWait := rfl
@[simp] theorem State.writeRecord_levels (n : Nat) (r : AccountRecord) : (s.writeRecord n r).levels = s.levels := rfl
@[simp] theorem State.writeRecord_lanes (n : Nat) (r : AccountRecord) : (s.writeRecord n r).lanes = s.lanes := rfl
@[simp] theorem State.writeRecord_notice (n : Nat) (r : AccountRecord) : (s.writeRecord n r).notice = s.notice := rfl
@[simp] theorem State.writeRecord_enable (n : Nat) (r : AccountRecord) : (s.writeRecord n r).enable = s.enable := rfl
@[simp] theorem State.writeRecord_readData (n : Nat) (r : AccountRecord) : (s.writeRecord n r).readData = s.readData := rfl
@[simp] theorem State.writeRecord_mem (n : Nat) (r : AccountRecord) : (s.writeRecord n r).mem = s.mem := rfl
@[simp] theorem State.writeRecord_env (n : Nat) (r : AccountRecord) : (s.writeRecord n r).env = s.env := rfl
@[simp] theorem State.writeRecord_shadow (n : Nat) (r : AccountRecord) : (s.writeRecord n r).shadow = s.shadow := rfl
@[simp] theorem State.writeRecord_shadowMem (n : Nat) (r : AccountRecord) : (s.writeRecord n r).shadowMem = s.shadowMem := rfl
@[simp] theorem State.writeRecord_afterWrites (n : Nat) (r : AccountRecord) :
    (s.writeRecord n r).afterWrites = (s.store (.account n) { s.stored with accounts := putAt s.stored.accounts n { r with checkOk := true } }).afterWrites := rfl
@[simp] theorem State.writeRecord_pending (n : Nat) (r : AccountRecord) : (s.writeRecord n r).pending = s.pending := rfl

/-! ### putAcct -/

@[simp] theorem State.putAcct_power (n : Nat) (a : AccountVolatile) : (s.putAcct n a).power = s.power := rfl
@[simp] theorem State.putAcct_nrst (n : Nat) (a : AccountVolatile) : (s.putAcct n a).nrst = s.nrst := rfl
@[simp] theorem State.putAcct_dev (n : Nat) (a : AccountVolatile) : (s.putAcct n a).dev = s.dev := rfl
@[simp] theorem State.putAcct_faults (n : Nat) (a : AccountVolatile) : (s.putAcct n a).faults = s.faults := rfl
@[simp] theorem State.putAcct_stored (n : Nat) (a : AccountVolatile) : (s.putAcct n a).stored = s.stored := rfl
@[simp] theorem State.putAcct_accounts (n : Nat) (a : AccountVolatile) : (s.putAcct n a).accounts = putAt s.accounts n a := rfl
@[simp] theorem State.putAcct_zeroCaptured (n : Nat) (a : AccountVolatile) : (s.putAcct n a).zeroCaptured = s.zeroCaptured := rfl
@[simp] theorem State.putAcct_sessions (n : Nat) (a : AccountVolatile) : (s.putAcct n a).sessions = s.sessions := rfl
@[simp] theorem State.putAcct_jobs (n : Nat) (a : AccountVolatile) : (s.putAcct n a).jobs = s.jobs := rfl
@[simp] theorem State.putAcct_hold (n : Nat) (a : AccountVolatile) : (s.putAcct n a).hold = s.hold := rfl
@[simp] theorem State.putAcct_print (n : Nat) (a : AccountVolatile) : (s.putAcct n a).print = s.print := rfl
@[simp] theorem State.putAcct_engineOut (n : Nat) (a : AccountVolatile) : (s.putAcct n a).engineOut = s.engineOut := rfl
@[simp] theorem State.putAcct_scan (n : Nat) (a : AccountVolatile) : (s.putAcct n a).scan = s.scan := rfl
@[simp] theorem State.putAcct_core (n : Nat) (a : AccountVolatile) : (s.putAcct n a).core = s.core := rfl
@[simp] theorem State.putAcct_slots (n : Nat) (a : AccountVolatile) : (s.putAcct n a).slots = s.slots := rfl
@[simp] theorem State.putAcct_draws (n : Nat) (a : AccountVolatile) : (s.putAcct n a).draws = s.draws := rfl
@[simp] theorem State.putAcct_carts (n : Nat) (a : AccountVolatile) : (s.putAcct n a).carts = s.carts := rfl
@[simp] theorem State.putAcct_link (n : Nat) (a : AccountVolatile) : (s.putAcct n a).link = s.link := rfl
@[simp] theorem State.putAcct_checkWait (n : Nat) (a : AccountVolatile) : (s.putAcct n a).checkWait = s.checkWait := rfl
@[simp] theorem State.putAcct_levels (n : Nat) (a : AccountVolatile) : (s.putAcct n a).levels = s.levels := rfl
@[simp] theorem State.putAcct_lanes (n : Nat) (a : AccountVolatile) : (s.putAcct n a).lanes = s.lanes := rfl
@[simp] theorem State.putAcct_notice (n : Nat) (a : AccountVolatile) : (s.putAcct n a).notice = s.notice := rfl
@[simp] theorem State.putAcct_enable (n : Nat) (a : AccountVolatile) : (s.putAcct n a).enable = s.enable := rfl
@[simp] theorem State.putAcct_readData (n : Nat) (a : AccountVolatile) : (s.putAcct n a).readData = s.readData := rfl
@[simp] theorem State.putAcct_mem (n : Nat) (a : AccountVolatile) : (s.putAcct n a).mem = s.mem := rfl
@[simp] theorem State.putAcct_env (n : Nat) (a : AccountVolatile) : (s.putAcct n a).env = s.env := rfl
@[simp] theorem State.putAcct_shadow (n : Nat) (a : AccountVolatile) : (s.putAcct n a).shadow = s.shadow := rfl
@[simp] theorem State.putAcct_shadowMem (n : Nat) (a : AccountVolatile) : (s.putAcct n a).shadowMem = s.shadowMem := rfl
@[simp] theorem State.putAcct_afterWrites (n : Nat) (a : AccountVolatile) : (s.putAcct n a).afterWrites = s.afterWrites := rfl
@[simp] theorem State.putAcct_pending (n : Nat) (a : AccountVolatile) : (s.putAcct n a).pending = s.pending := rfl

/-! ### addReserved -/

@[simp] theorem State.addReserved_power (n amount : Nat) : (s.addReserved n amount).power = s.power := rfl
@[simp] theorem State.addReserved_nrst (n amount : Nat) : (s.addReserved n amount).nrst = s.nrst := rfl
@[simp] theorem State.addReserved_dev (n amount : Nat) : (s.addReserved n amount).dev = s.dev := rfl
@[simp] theorem State.addReserved_faults (n amount : Nat) : (s.addReserved n amount).faults = s.faults := rfl
@[simp] theorem State.addReserved_stored (n amount : Nat) : (s.addReserved n amount).stored = s.stored := rfl
@[simp] theorem State.addReserved_zeroCaptured (n amount : Nat) : (s.addReserved n amount).zeroCaptured = s.zeroCaptured := rfl
@[simp] theorem State.addReserved_sessions (n amount : Nat) : (s.addReserved n amount).sessions = s.sessions := rfl
@[simp] theorem State.addReserved_jobs (n amount : Nat) : (s.addReserved n amount).jobs = s.jobs := rfl
@[simp] theorem State.addReserved_hold (n amount : Nat) : (s.addReserved n amount).hold = s.hold := rfl
@[simp] theorem State.addReserved_print (n amount : Nat) : (s.addReserved n amount).print = s.print := rfl
@[simp] theorem State.addReserved_engineOut (n amount : Nat) : (s.addReserved n amount).engineOut = s.engineOut := rfl
@[simp] theorem State.addReserved_scan (n amount : Nat) : (s.addReserved n amount).scan = s.scan := rfl
@[simp] theorem State.addReserved_core (n amount : Nat) : (s.addReserved n amount).core = s.core := rfl
@[simp] theorem State.addReserved_slots (n amount : Nat) : (s.addReserved n amount).slots = s.slots := rfl
@[simp] theorem State.addReserved_draws (n amount : Nat) : (s.addReserved n amount).draws = s.draws := rfl
@[simp] theorem State.addReserved_carts (n amount : Nat) : (s.addReserved n amount).carts = s.carts := rfl
@[simp] theorem State.addReserved_link (n amount : Nat) : (s.addReserved n amount).link = s.link := rfl
@[simp] theorem State.addReserved_checkWait (n amount : Nat) : (s.addReserved n amount).checkWait = s.checkWait := rfl
@[simp] theorem State.addReserved_levels (n amount : Nat) : (s.addReserved n amount).levels = s.levels := rfl
@[simp] theorem State.addReserved_lanes (n amount : Nat) : (s.addReserved n amount).lanes = s.lanes := rfl
@[simp] theorem State.addReserved_notice (n amount : Nat) : (s.addReserved n amount).notice = s.notice := rfl
@[simp] theorem State.addReserved_enable (n amount : Nat) : (s.addReserved n amount).enable = s.enable := rfl
@[simp] theorem State.addReserved_readData (n amount : Nat) : (s.addReserved n amount).readData = s.readData := rfl
@[simp] theorem State.addReserved_mem (n amount : Nat) : (s.addReserved n amount).mem = s.mem := rfl
@[simp] theorem State.addReserved_env (n amount : Nat) : (s.addReserved n amount).env = s.env := rfl
@[simp] theorem State.addReserved_shadow (n amount : Nat) : (s.addReserved n amount).shadow = s.shadow := rfl
@[simp] theorem State.addReserved_shadowMem (n amount : Nat) : (s.addReserved n amount).shadowMem = s.shadowMem := rfl
@[simp] theorem State.addReserved_afterWrites (n amount : Nat) : (s.addReserved n amount).afterWrites = s.afterWrites := rfl
@[simp] theorem State.addReserved_pending (n amount : Nat) : (s.addReserved n amount).pending = s.pending := rfl

/-! ### subReserved -/

@[simp] theorem State.subReserved_power (n amount : Nat) : (s.subReserved n amount).power = s.power := rfl
@[simp] theorem State.subReserved_nrst (n amount : Nat) : (s.subReserved n amount).nrst = s.nrst := rfl
@[simp] theorem State.subReserved_dev (n amount : Nat) : (s.subReserved n amount).dev = s.dev := rfl
@[simp] theorem State.subReserved_faults (n amount : Nat) : (s.subReserved n amount).faults = s.faults := rfl
@[simp] theorem State.subReserved_stored (n amount : Nat) : (s.subReserved n amount).stored = s.stored := rfl
@[simp] theorem State.subReserved_zeroCaptured (n amount : Nat) : (s.subReserved n amount).zeroCaptured = s.zeroCaptured := rfl
@[simp] theorem State.subReserved_sessions (n amount : Nat) : (s.subReserved n amount).sessions = s.sessions := rfl
@[simp] theorem State.subReserved_jobs (n amount : Nat) : (s.subReserved n amount).jobs = s.jobs := rfl
@[simp] theorem State.subReserved_hold (n amount : Nat) : (s.subReserved n amount).hold = s.hold := rfl
@[simp] theorem State.subReserved_print (n amount : Nat) : (s.subReserved n amount).print = s.print := rfl
@[simp] theorem State.subReserved_engineOut (n amount : Nat) : (s.subReserved n amount).engineOut = s.engineOut := rfl
@[simp] theorem State.subReserved_scan (n amount : Nat) : (s.subReserved n amount).scan = s.scan := rfl
@[simp] theorem State.subReserved_core (n amount : Nat) : (s.subReserved n amount).core = s.core := rfl
@[simp] theorem State.subReserved_slots (n amount : Nat) : (s.subReserved n amount).slots = s.slots := rfl
@[simp] theorem State.subReserved_draws (n amount : Nat) : (s.subReserved n amount).draws = s.draws := rfl
@[simp] theorem State.subReserved_carts (n amount : Nat) : (s.subReserved n amount).carts = s.carts := rfl
@[simp] theorem State.subReserved_link (n amount : Nat) : (s.subReserved n amount).link = s.link := rfl
@[simp] theorem State.subReserved_checkWait (n amount : Nat) : (s.subReserved n amount).checkWait = s.checkWait := rfl
@[simp] theorem State.subReserved_levels (n amount : Nat) : (s.subReserved n amount).levels = s.levels := rfl
@[simp] theorem State.subReserved_lanes (n amount : Nat) : (s.subReserved n amount).lanes = s.lanes := rfl
@[simp] theorem State.subReserved_notice (n amount : Nat) : (s.subReserved n amount).notice = s.notice := rfl
@[simp] theorem State.subReserved_enable (n amount : Nat) : (s.subReserved n amount).enable = s.enable := rfl
@[simp] theorem State.subReserved_readData (n amount : Nat) : (s.subReserved n amount).readData = s.readData := rfl
@[simp] theorem State.subReserved_mem (n amount : Nat) : (s.subReserved n amount).mem = s.mem := rfl
@[simp] theorem State.subReserved_env (n amount : Nat) : (s.subReserved n amount).env = s.env := rfl
@[simp] theorem State.subReserved_shadow (n amount : Nat) : (s.subReserved n amount).shadow = s.shadow := rfl
@[simp] theorem State.subReserved_shadowMem (n amount : Nat) : (s.subReserved n amount).shadowMem = s.shadowMem := rfl
@[simp] theorem State.subReserved_afterWrites (n amount : Nat) : (s.subReserved n amount).afterWrites = s.afterWrites := rfl
@[simp] theorem State.subReserved_pending (n amount : Nat) : (s.subReserved n amount).pending = s.pending := rfl

/-! ### putSession -/

@[simp] theorem State.putSession_power (i : Nat) (x : Session) : (s.putSession i x).power = s.power := rfl
@[simp] theorem State.putSession_nrst (i : Nat) (x : Session) : (s.putSession i x).nrst = s.nrst := rfl
@[simp] theorem State.putSession_dev (i : Nat) (x : Session) : (s.putSession i x).dev = s.dev := rfl
@[simp] theorem State.putSession_faults (i : Nat) (x : Session) : (s.putSession i x).faults = s.faults := rfl
@[simp] theorem State.putSession_stored (i : Nat) (x : Session) : (s.putSession i x).stored = s.stored := rfl
@[simp] theorem State.putSession_accounts (i : Nat) (x : Session) : (s.putSession i x).accounts = s.accounts := rfl
@[simp] theorem State.putSession_zeroCaptured (i : Nat) (x : Session) : (s.putSession i x).zeroCaptured = s.zeroCaptured := rfl
@[simp] theorem State.putSession_sessions (i : Nat) (x : Session) : (s.putSession i x).sessions = putAt s.sessions i x := rfl
@[simp] theorem State.putSession_jobs (i : Nat) (x : Session) : (s.putSession i x).jobs = s.jobs := rfl
@[simp] theorem State.putSession_hold (i : Nat) (x : Session) : (s.putSession i x).hold = s.hold := rfl
@[simp] theorem State.putSession_print (i : Nat) (x : Session) : (s.putSession i x).print = s.print := rfl
@[simp] theorem State.putSession_engineOut (i : Nat) (x : Session) : (s.putSession i x).engineOut = s.engineOut := rfl
@[simp] theorem State.putSession_scan (i : Nat) (x : Session) : (s.putSession i x).scan = s.scan := rfl
@[simp] theorem State.putSession_core (i : Nat) (x : Session) : (s.putSession i x).core = s.core := rfl
@[simp] theorem State.putSession_slots (i : Nat) (x : Session) : (s.putSession i x).slots = s.slots := rfl
@[simp] theorem State.putSession_draws (i : Nat) (x : Session) : (s.putSession i x).draws = s.draws := rfl
@[simp] theorem State.putSession_carts (i : Nat) (x : Session) : (s.putSession i x).carts = s.carts := rfl
@[simp] theorem State.putSession_link (i : Nat) (x : Session) : (s.putSession i x).link = s.link := rfl
@[simp] theorem State.putSession_checkWait (i : Nat) (x : Session) : (s.putSession i x).checkWait = s.checkWait := rfl
@[simp] theorem State.putSession_levels (i : Nat) (x : Session) : (s.putSession i x).levels = s.levels := rfl
@[simp] theorem State.putSession_lanes (i : Nat) (x : Session) : (s.putSession i x).lanes = s.lanes := rfl
@[simp] theorem State.putSession_notice (i : Nat) (x : Session) : (s.putSession i x).notice = s.notice := rfl
@[simp] theorem State.putSession_enable (i : Nat) (x : Session) : (s.putSession i x).enable = s.enable := rfl
@[simp] theorem State.putSession_readData (i : Nat) (x : Session) : (s.putSession i x).readData = s.readData := rfl
@[simp] theorem State.putSession_mem (i : Nat) (x : Session) : (s.putSession i x).mem = s.mem := rfl
@[simp] theorem State.putSession_env (i : Nat) (x : Session) : (s.putSession i x).env = s.env := rfl
@[simp] theorem State.putSession_shadow (i : Nat) (x : Session) : (s.putSession i x).shadow = s.shadow := rfl
@[simp] theorem State.putSession_shadowMem (i : Nat) (x : Session) : (s.putSession i x).shadowMem = s.shadowMem := rfl
@[simp] theorem State.putSession_afterWrites (i : Nat) (x : Session) : (s.putSession i x).afterWrites = s.afterWrites := rfl
@[simp] theorem State.putSession_pending (i : Nat) (x : Session) : (s.putSession i x).pending = s.pending := rfl

/-! ### putJob -/

@[simp] theorem State.putJob_power (i : Nat) (x : Job) : (s.putJob i x).power = s.power := rfl
@[simp] theorem State.putJob_nrst (i : Nat) (x : Job) : (s.putJob i x).nrst = s.nrst := rfl
@[simp] theorem State.putJob_dev (i : Nat) (x : Job) : (s.putJob i x).dev = s.dev := rfl
@[simp] theorem State.putJob_faults (i : Nat) (x : Job) : (s.putJob i x).faults = s.faults := rfl
@[simp] theorem State.putJob_stored (i : Nat) (x : Job) : (s.putJob i x).stored = s.stored := rfl
@[simp] theorem State.putJob_accounts (i : Nat) (x : Job) : (s.putJob i x).accounts = s.accounts := rfl
@[simp] theorem State.putJob_zeroCaptured (i : Nat) (x : Job) : (s.putJob i x).zeroCaptured = s.zeroCaptured := rfl
@[simp] theorem State.putJob_sessions (i : Nat) (x : Job) : (s.putJob i x).sessions = s.sessions := rfl
@[simp] theorem State.putJob_jobs (i : Nat) (x : Job) : (s.putJob i x).jobs = putAt s.jobs i x := rfl
@[simp] theorem State.putJob_hold (i : Nat) (x : Job) : (s.putJob i x).hold = s.hold := rfl
@[simp] theorem State.putJob_print (i : Nat) (x : Job) : (s.putJob i x).print = s.print := rfl
@[simp] theorem State.putJob_engineOut (i : Nat) (x : Job) : (s.putJob i x).engineOut = s.engineOut := rfl
@[simp] theorem State.putJob_scan (i : Nat) (x : Job) : (s.putJob i x).scan = s.scan := rfl
@[simp] theorem State.putJob_core (i : Nat) (x : Job) : (s.putJob i x).core = s.core := rfl
@[simp] theorem State.putJob_slots (i : Nat) (x : Job) : (s.putJob i x).slots = s.slots := rfl
@[simp] theorem State.putJob_draws (i : Nat) (x : Job) : (s.putJob i x).draws = s.draws := rfl
@[simp] theorem State.putJob_carts (i : Nat) (x : Job) : (s.putJob i x).carts = s.carts := rfl
@[simp] theorem State.putJob_link (i : Nat) (x : Job) : (s.putJob i x).link = s.link := rfl
@[simp] theorem State.putJob_checkWait (i : Nat) (x : Job) : (s.putJob i x).checkWait = s.checkWait := rfl
@[simp] theorem State.putJob_levels (i : Nat) (x : Job) : (s.putJob i x).levels = s.levels := rfl
@[simp] theorem State.putJob_lanes (i : Nat) (x : Job) : (s.putJob i x).lanes = s.lanes := rfl
@[simp] theorem State.putJob_notice (i : Nat) (x : Job) : (s.putJob i x).notice = s.notice := rfl
@[simp] theorem State.putJob_enable (i : Nat) (x : Job) : (s.putJob i x).enable = s.enable := rfl
@[simp] theorem State.putJob_readData (i : Nat) (x : Job) : (s.putJob i x).readData = s.readData := rfl
@[simp] theorem State.putJob_mem (i : Nat) (x : Job) : (s.putJob i x).mem = s.mem := rfl
@[simp] theorem State.putJob_env (i : Nat) (x : Job) : (s.putJob i x).env = s.env := rfl
@[simp] theorem State.putJob_shadow (i : Nat) (x : Job) : (s.putJob i x).shadow = s.shadow := rfl
@[simp] theorem State.putJob_shadowMem (i : Nat) (x : Job) : (s.putJob i x).shadowMem = s.shadowMem := rfl
@[simp] theorem State.putJob_afterWrites (i : Nat) (x : Job) : (s.putJob i x).afterWrites = s.afterWrites := rfl
@[simp] theorem State.putJob_pending (i : Nat) (x : Job) : (s.putJob i x).pending = s.pending := rfl

/-! ### putSlot -/

@[simp] theorem State.putSlot_power (i : Nat) (x : KeySlot) : (s.putSlot i x).power = s.power := rfl
@[simp] theorem State.putSlot_nrst (i : Nat) (x : KeySlot) : (s.putSlot i x).nrst = s.nrst := rfl
@[simp] theorem State.putSlot_dev (i : Nat) (x : KeySlot) : (s.putSlot i x).dev = s.dev := rfl
@[simp] theorem State.putSlot_faults (i : Nat) (x : KeySlot) : (s.putSlot i x).faults = s.faults := rfl
@[simp] theorem State.putSlot_stored (i : Nat) (x : KeySlot) : (s.putSlot i x).stored = s.stored := rfl
@[simp] theorem State.putSlot_accounts (i : Nat) (x : KeySlot) : (s.putSlot i x).accounts = s.accounts := rfl
@[simp] theorem State.putSlot_zeroCaptured (i : Nat) (x : KeySlot) : (s.putSlot i x).zeroCaptured = s.zeroCaptured := rfl
@[simp] theorem State.putSlot_sessions (i : Nat) (x : KeySlot) : (s.putSlot i x).sessions = s.sessions := rfl
@[simp] theorem State.putSlot_jobs (i : Nat) (x : KeySlot) : (s.putSlot i x).jobs = s.jobs := rfl
@[simp] theorem State.putSlot_hold (i : Nat) (x : KeySlot) : (s.putSlot i x).hold = s.hold := rfl
@[simp] theorem State.putSlot_print (i : Nat) (x : KeySlot) : (s.putSlot i x).print = s.print := rfl
@[simp] theorem State.putSlot_engineOut (i : Nat) (x : KeySlot) : (s.putSlot i x).engineOut = s.engineOut := rfl
@[simp] theorem State.putSlot_scan (i : Nat) (x : KeySlot) : (s.putSlot i x).scan = s.scan := rfl
@[simp] theorem State.putSlot_core (i : Nat) (x : KeySlot) : (s.putSlot i x).core = s.core := rfl
@[simp] theorem State.putSlot_slots (i : Nat) (x : KeySlot) : (s.putSlot i x).slots = putAt s.slots i x := rfl
@[simp] theorem State.putSlot_draws (i : Nat) (x : KeySlot) : (s.putSlot i x).draws = s.draws := rfl
@[simp] theorem State.putSlot_carts (i : Nat) (x : KeySlot) : (s.putSlot i x).carts = s.carts := rfl
@[simp] theorem State.putSlot_link (i : Nat) (x : KeySlot) : (s.putSlot i x).link = s.link := rfl
@[simp] theorem State.putSlot_checkWait (i : Nat) (x : KeySlot) : (s.putSlot i x).checkWait = s.checkWait := rfl
@[simp] theorem State.putSlot_levels (i : Nat) (x : KeySlot) : (s.putSlot i x).levels = s.levels := rfl
@[simp] theorem State.putSlot_lanes (i : Nat) (x : KeySlot) : (s.putSlot i x).lanes = s.lanes := rfl
@[simp] theorem State.putSlot_notice (i : Nat) (x : KeySlot) : (s.putSlot i x).notice = s.notice := rfl
@[simp] theorem State.putSlot_enable (i : Nat) (x : KeySlot) : (s.putSlot i x).enable = s.enable := rfl
@[simp] theorem State.putSlot_readData (i : Nat) (x : KeySlot) : (s.putSlot i x).readData = s.readData := rfl
@[simp] theorem State.putSlot_mem (i : Nat) (x : KeySlot) : (s.putSlot i x).mem = s.mem := rfl
@[simp] theorem State.putSlot_env (i : Nat) (x : KeySlot) : (s.putSlot i x).env = s.env := rfl
@[simp] theorem State.putSlot_shadow (i : Nat) (x : KeySlot) : (s.putSlot i x).shadow = s.shadow := rfl
@[simp] theorem State.putSlot_shadowMem (i : Nat) (x : KeySlot) : (s.putSlot i x).shadowMem = s.shadowMem := rfl
@[simp] theorem State.putSlot_afterWrites (i : Nat) (x : KeySlot) : (s.putSlot i x).afterWrites = s.afterWrites := rfl
@[simp] theorem State.putSlot_pending (i : Nat) (x : KeySlot) : (s.putSlot i x).pending = s.pending := rfl

/-! ### putCart -/

@[simp] theorem State.putCart_power (n : Nat) (x : Cartridge) : (s.putCart n x).power = s.power := rfl
@[simp] theorem State.putCart_nrst (n : Nat) (x : Cartridge) : (s.putCart n x).nrst = s.nrst := rfl
@[simp] theorem State.putCart_dev (n : Nat) (x : Cartridge) : (s.putCart n x).dev = s.dev := rfl
@[simp] theorem State.putCart_faults (n : Nat) (x : Cartridge) : (s.putCart n x).faults = s.faults := rfl
@[simp] theorem State.putCart_stored (n : Nat) (x : Cartridge) : (s.putCart n x).stored = s.stored := rfl
@[simp] theorem State.putCart_accounts (n : Nat) (x : Cartridge) : (s.putCart n x).accounts = s.accounts := rfl
@[simp] theorem State.putCart_zeroCaptured (n : Nat) (x : Cartridge) : (s.putCart n x).zeroCaptured = s.zeroCaptured := rfl
@[simp] theorem State.putCart_sessions (n : Nat) (x : Cartridge) : (s.putCart n x).sessions = s.sessions := rfl
@[simp] theorem State.putCart_jobs (n : Nat) (x : Cartridge) : (s.putCart n x).jobs = s.jobs := rfl
@[simp] theorem State.putCart_hold (n : Nat) (x : Cartridge) : (s.putCart n x).hold = s.hold := rfl
@[simp] theorem State.putCart_print (n : Nat) (x : Cartridge) : (s.putCart n x).print = s.print := rfl
@[simp] theorem State.putCart_engineOut (n : Nat) (x : Cartridge) : (s.putCart n x).engineOut = s.engineOut := rfl
@[simp] theorem State.putCart_scan (n : Nat) (x : Cartridge) : (s.putCart n x).scan = s.scan := rfl
@[simp] theorem State.putCart_core (n : Nat) (x : Cartridge) : (s.putCart n x).core = s.core := rfl
@[simp] theorem State.putCart_slots (n : Nat) (x : Cartridge) : (s.putCart n x).slots = s.slots := rfl
@[simp] theorem State.putCart_draws (n : Nat) (x : Cartridge) : (s.putCart n x).draws = s.draws := rfl
@[simp] theorem State.putCart_carts (n : Nat) (x : Cartridge) : (s.putCart n x).carts = putAt s.carts (n - 1) x := rfl
@[simp] theorem State.putCart_link (n : Nat) (x : Cartridge) : (s.putCart n x).link = s.link := rfl
@[simp] theorem State.putCart_checkWait (n : Nat) (x : Cartridge) : (s.putCart n x).checkWait = s.checkWait := rfl
@[simp] theorem State.putCart_levels (n : Nat) (x : Cartridge) : (s.putCart n x).levels = s.levels := rfl
@[simp] theorem State.putCart_lanes (n : Nat) (x : Cartridge) : (s.putCart n x).lanes = s.lanes := rfl
@[simp] theorem State.putCart_notice (n : Nat) (x : Cartridge) : (s.putCart n x).notice = s.notice := rfl
@[simp] theorem State.putCart_enable (n : Nat) (x : Cartridge) : (s.putCart n x).enable = s.enable := rfl
@[simp] theorem State.putCart_readData (n : Nat) (x : Cartridge) : (s.putCart n x).readData = s.readData := rfl
@[simp] theorem State.putCart_mem (n : Nat) (x : Cartridge) : (s.putCart n x).mem = s.mem := rfl
@[simp] theorem State.putCart_env (n : Nat) (x : Cartridge) : (s.putCart n x).env = s.env := rfl
@[simp] theorem State.putCart_shadow (n : Nat) (x : Cartridge) : (s.putCart n x).shadow = s.shadow := rfl
@[simp] theorem State.putCart_shadowMem (n : Nat) (x : Cartridge) : (s.putCart n x).shadowMem = s.shadowMem := rfl
@[simp] theorem State.putCart_afterWrites (n : Nat) (x : Cartridge) : (s.putCart n x).afterWrites = s.afterWrites := rfl
@[simp] theorem State.putCart_pending (n : Nat) (x : Cartridge) : (s.putCart n x).pending = s.pending := rfl

/-! ### putLane -/

@[simp] theorem State.putLane_power (n : Fin 4) (x : Lane) : (s.putLane n x).power = s.power := rfl
@[simp] theorem State.putLane_nrst (n : Fin 4) (x : Lane) : (s.putLane n x).nrst = s.nrst := rfl
@[simp] theorem State.putLane_dev (n : Fin 4) (x : Lane) : (s.putLane n x).dev = s.dev := rfl
@[simp] theorem State.putLane_faults (n : Fin 4) (x : Lane) : (s.putLane n x).faults = s.faults := rfl
@[simp] theorem State.putLane_stored (n : Fin 4) (x : Lane) : (s.putLane n x).stored = s.stored := rfl
@[simp] theorem State.putLane_accounts (n : Fin 4) (x : Lane) : (s.putLane n x).accounts = s.accounts := rfl
@[simp] theorem State.putLane_zeroCaptured (n : Fin 4) (x : Lane) : (s.putLane n x).zeroCaptured = s.zeroCaptured := rfl
@[simp] theorem State.putLane_sessions (n : Fin 4) (x : Lane) : (s.putLane n x).sessions = s.sessions := rfl
@[simp] theorem State.putLane_jobs (n : Fin 4) (x : Lane) : (s.putLane n x).jobs = s.jobs := rfl
@[simp] theorem State.putLane_hold (n : Fin 4) (x : Lane) : (s.putLane n x).hold = s.hold := rfl
@[simp] theorem State.putLane_print (n : Fin 4) (x : Lane) : (s.putLane n x).print = s.print := rfl
@[simp] theorem State.putLane_engineOut (n : Fin 4) (x : Lane) : (s.putLane n x).engineOut = s.engineOut := rfl
@[simp] theorem State.putLane_scan (n : Fin 4) (x : Lane) : (s.putLane n x).scan = s.scan := rfl
@[simp] theorem State.putLane_core (n : Fin 4) (x : Lane) : (s.putLane n x).core = s.core := rfl
@[simp] theorem State.putLane_slots (n : Fin 4) (x : Lane) : (s.putLane n x).slots = s.slots := rfl
@[simp] theorem State.putLane_draws (n : Fin 4) (x : Lane) : (s.putLane n x).draws = s.draws := rfl
@[simp] theorem State.putLane_carts (n : Fin 4) (x : Lane) : (s.putLane n x).carts = s.carts := rfl
@[simp] theorem State.putLane_link (n : Fin 4) (x : Lane) : (s.putLane n x).link = s.link := rfl
@[simp] theorem State.putLane_checkWait (n : Fin 4) (x : Lane) : (s.putLane n x).checkWait = s.checkWait := rfl
@[simp] theorem State.putLane_levels (n : Fin 4) (x : Lane) : (s.putLane n x).levels = s.levels := rfl
@[simp] theorem State.putLane_lanes (n : Fin 4) (x : Lane) : (s.putLane n x).lanes = s.lanes.set n x := rfl
@[simp] theorem State.putLane_notice (n : Fin 4) (x : Lane) : (s.putLane n x).notice = s.notice := rfl
@[simp] theorem State.putLane_enable (n : Fin 4) (x : Lane) : (s.putLane n x).enable = s.enable := rfl
@[simp] theorem State.putLane_readData (n : Fin 4) (x : Lane) : (s.putLane n x).readData = s.readData := rfl
@[simp] theorem State.putLane_mem (n : Fin 4) (x : Lane) : (s.putLane n x).mem = s.mem := rfl
@[simp] theorem State.putLane_env (n : Fin 4) (x : Lane) : (s.putLane n x).env = s.env := rfl
@[simp] theorem State.putLane_shadow (n : Fin 4) (x : Lane) : (s.putLane n x).shadow = s.shadow := rfl
@[simp] theorem State.putLane_shadowMem (n : Fin 4) (x : Lane) : (s.putLane n x).shadowMem = s.shadowMem := rfl
@[simp] theorem State.putLane_afterWrites (n : Fin 4) (x : Lane) : (s.putLane n x).afterWrites = s.afterWrites := rfl
@[simp] theorem State.putLane_pending (n : Fin 4) (x : Lane) : (s.putLane n x).pending = s.pending := rfl

/-! ### putBuffer -/

@[simp] theorem State.putBuffer_power (i : Nat) (b : Buffer) : (s.putBuffer i b).power = s.power := rfl
@[simp] theorem State.putBuffer_nrst (i : Nat) (b : Buffer) : (s.putBuffer i b).nrst = s.nrst := rfl
@[simp] theorem State.putBuffer_dev (i : Nat) (b : Buffer) : (s.putBuffer i b).dev = s.dev := rfl
@[simp] theorem State.putBuffer_faults (i : Nat) (b : Buffer) : (s.putBuffer i b).faults = s.faults := rfl
@[simp] theorem State.putBuffer_stored (i : Nat) (b : Buffer) : (s.putBuffer i b).stored = s.stored := rfl
@[simp] theorem State.putBuffer_accounts (i : Nat) (b : Buffer) : (s.putBuffer i b).accounts = s.accounts := rfl
@[simp] theorem State.putBuffer_zeroCaptured (i : Nat) (b : Buffer) : (s.putBuffer i b).zeroCaptured = s.zeroCaptured := rfl
@[simp] theorem State.putBuffer_sessions (i : Nat) (b : Buffer) : (s.putBuffer i b).sessions = s.sessions := rfl
@[simp] theorem State.putBuffer_jobs (i : Nat) (b : Buffer) : (s.putBuffer i b).jobs = s.jobs := rfl
@[simp] theorem State.putBuffer_hold (i : Nat) (b : Buffer) : (s.putBuffer i b).hold = s.hold := rfl
@[simp] theorem State.putBuffer_print (i : Nat) (b : Buffer) : (s.putBuffer i b).print = s.print := rfl
@[simp] theorem State.putBuffer_engineOut (i : Nat) (b : Buffer) : (s.putBuffer i b).engineOut = s.engineOut := rfl
@[simp] theorem State.putBuffer_scan (i : Nat) (b : Buffer) : (s.putBuffer i b).scan = { s.scan with internal := putAt s.scan.internal i b } := rfl
@[simp] theorem State.putBuffer_core (i : Nat) (b : Buffer) : (s.putBuffer i b).core = s.core := rfl
@[simp] theorem State.putBuffer_slots (i : Nat) (b : Buffer) : (s.putBuffer i b).slots = s.slots := rfl
@[simp] theorem State.putBuffer_draws (i : Nat) (b : Buffer) : (s.putBuffer i b).draws = s.draws := rfl
@[simp] theorem State.putBuffer_carts (i : Nat) (b : Buffer) : (s.putBuffer i b).carts = s.carts := rfl
@[simp] theorem State.putBuffer_link (i : Nat) (b : Buffer) : (s.putBuffer i b).link = s.link := rfl
@[simp] theorem State.putBuffer_checkWait (i : Nat) (b : Buffer) : (s.putBuffer i b).checkWait = s.checkWait := rfl
@[simp] theorem State.putBuffer_levels (i : Nat) (b : Buffer) : (s.putBuffer i b).levels = s.levels := rfl
@[simp] theorem State.putBuffer_lanes (i : Nat) (b : Buffer) : (s.putBuffer i b).lanes = s.lanes := rfl
@[simp] theorem State.putBuffer_notice (i : Nat) (b : Buffer) : (s.putBuffer i b).notice = s.notice := rfl
@[simp] theorem State.putBuffer_enable (i : Nat) (b : Buffer) : (s.putBuffer i b).enable = s.enable := rfl
@[simp] theorem State.putBuffer_readData (i : Nat) (b : Buffer) : (s.putBuffer i b).readData = s.readData := rfl
@[simp] theorem State.putBuffer_mem (i : Nat) (b : Buffer) : (s.putBuffer i b).mem = s.mem := rfl
@[simp] theorem State.putBuffer_env (i : Nat) (b : Buffer) : (s.putBuffer i b).env = s.env := rfl
@[simp] theorem State.putBuffer_shadow (i : Nat) (b : Buffer) : (s.putBuffer i b).shadow = s.shadow := rfl
@[simp] theorem State.putBuffer_shadowMem (i : Nat) (b : Buffer) : (s.putBuffer i b).shadowMem = s.shadowMem := rfl
@[simp] theorem State.putBuffer_afterWrites (i : Nat) (b : Buffer) : (s.putBuffer i b).afterWrites = s.afterWrites := rfl
@[simp] theorem State.putBuffer_pending (i : Nat) (b : Buffer) : (s.putBuffer i b).pending = s.pending := rfl

/-! ### raise -/

@[simp] theorem State.raise_power (c : Cause) : (s.raise c).power = s.power := rfl
@[simp] theorem State.raise_nrst (c : Cause) : (s.raise c).nrst = s.nrst := rfl
@[simp] theorem State.raise_dev (c : Cause) : (s.raise c).dev = s.dev := rfl
@[simp] theorem State.raise_faults (c : Cause) : (s.raise c).faults = s.faults := rfl
@[simp] theorem State.raise_stored (c : Cause) : (s.raise c).stored = s.stored := rfl
@[simp] theorem State.raise_accounts (c : Cause) : (s.raise c).accounts = s.accounts := rfl
@[simp] theorem State.raise_zeroCaptured (c : Cause) : (s.raise c).zeroCaptured = s.zeroCaptured := rfl
@[simp] theorem State.raise_sessions (c : Cause) : (s.raise c).sessions = s.sessions := rfl
@[simp] theorem State.raise_jobs (c : Cause) : (s.raise c).jobs = s.jobs := rfl
@[simp] theorem State.raise_hold (c : Cause) : (s.raise c).hold = s.hold := rfl
@[simp] theorem State.raise_print (c : Cause) : (s.raise c).print = s.print := rfl
@[simp] theorem State.raise_engineOut (c : Cause) : (s.raise c).engineOut = s.engineOut := rfl
@[simp] theorem State.raise_scan (c : Cause) : (s.raise c).scan = s.scan := rfl
@[simp] theorem State.raise_core (c : Cause) : (s.raise c).core = s.core := rfl
@[simp] theorem State.raise_slots (c : Cause) : (s.raise c).slots = s.slots := rfl
@[simp] theorem State.raise_draws (c : Cause) : (s.raise c).draws = s.draws := rfl
@[simp] theorem State.raise_carts (c : Cause) : (s.raise c).carts = s.carts := rfl
@[simp] theorem State.raise_link (c : Cause) : (s.raise c).link = s.link := rfl
@[simp] theorem State.raise_checkWait (c : Cause) : (s.raise c).checkWait = s.checkWait := rfl
@[simp] theorem State.raise_levels (c : Cause) : (s.raise c).levels = s.levels := rfl
@[simp] theorem State.raise_lanes (c : Cause) : (s.raise c).lanes = s.lanes := rfl
@[simp] theorem State.raise_notice (c : Cause) : (s.raise c).notice = s.notice ||| c.mask := rfl
@[simp] theorem State.raise_enable (c : Cause) : (s.raise c).enable = s.enable := rfl
@[simp] theorem State.raise_readData (c : Cause) : (s.raise c).readData = s.readData := rfl
@[simp] theorem State.raise_mem (c : Cause) : (s.raise c).mem = s.mem := rfl
@[simp] theorem State.raise_env (c : Cause) : (s.raise c).env = s.env := rfl
@[simp] theorem State.raise_shadow (c : Cause) : (s.raise c).shadow = s.shadow := rfl
@[simp] theorem State.raise_shadowMem (c : Cause) : (s.raise c).shadowMem = s.shadowMem := rfl
@[simp] theorem State.raise_afterWrites (c : Cause) : (s.raise c).afterWrites = s.afterWrites := rfl
@[simp] theorem State.raise_pending (c : Cause) : (s.raise c).pending = s.pending := rfl

/-! ### capture -/

@[simp] theorem State.capture_power (k : FaultKind) (l a : Option Nat) (d : Nat) : (s.capture k l a d).power = s.power := rfl
@[simp] theorem State.capture_nrst (k : FaultKind) (l a : Option Nat) (d : Nat) : (s.capture k l a d).nrst = s.nrst := rfl
@[simp] theorem State.capture_dev (k : FaultKind) (l a : Option Nat) (d : Nat) : (s.capture k l a d).dev = s.dev := rfl
@[simp] theorem State.capture_faults (k : FaultKind) (l a : Option Nat) (d : Nat) : (s.capture k l a d).faults = s.faults.capture { kind := k, lane := l, address := a, time := s.faultTime, detail := d } := rfl
@[simp] theorem State.capture_stored (k : FaultKind) (l a : Option Nat) (d : Nat) : (s.capture k l a d).stored = s.stored := rfl
@[simp] theorem State.capture_accounts (k : FaultKind) (l a : Option Nat) (d : Nat) : (s.capture k l a d).accounts = s.accounts := rfl
@[simp] theorem State.capture_zeroCaptured (k : FaultKind) (l a : Option Nat) (d : Nat) : (s.capture k l a d).zeroCaptured = s.zeroCaptured := rfl
@[simp] theorem State.capture_sessions (k : FaultKind) (l a : Option Nat) (d : Nat) : (s.capture k l a d).sessions = s.sessions := rfl
@[simp] theorem State.capture_jobs (k : FaultKind) (l a : Option Nat) (d : Nat) : (s.capture k l a d).jobs = s.jobs := rfl
@[simp] theorem State.capture_hold (k : FaultKind) (l a : Option Nat) (d : Nat) : (s.capture k l a d).hold = s.hold := rfl
@[simp] theorem State.capture_print (k : FaultKind) (l a : Option Nat) (d : Nat) : (s.capture k l a d).print = s.print := rfl
@[simp] theorem State.capture_engineOut (k : FaultKind) (l a : Option Nat) (d : Nat) : (s.capture k l a d).engineOut = s.engineOut := rfl
@[simp] theorem State.capture_scan (k : FaultKind) (l a : Option Nat) (d : Nat) : (s.capture k l a d).scan = s.scan := rfl
@[simp] theorem State.capture_core (k : FaultKind) (l a : Option Nat) (d : Nat) : (s.capture k l a d).core = s.core := rfl
@[simp] theorem State.capture_slots (k : FaultKind) (l a : Option Nat) (d : Nat) : (s.capture k l a d).slots = s.slots := rfl
@[simp] theorem State.capture_draws (k : FaultKind) (l a : Option Nat) (d : Nat) : (s.capture k l a d).draws = s.draws := rfl
@[simp] theorem State.capture_carts (k : FaultKind) (l a : Option Nat) (d : Nat) : (s.capture k l a d).carts = s.carts := rfl
@[simp] theorem State.capture_link (k : FaultKind) (l a : Option Nat) (d : Nat) : (s.capture k l a d).link = s.link := rfl
@[simp] theorem State.capture_checkWait (k : FaultKind) (l a : Option Nat) (d : Nat) : (s.capture k l a d).checkWait = s.checkWait := rfl
@[simp] theorem State.capture_levels (k : FaultKind) (l a : Option Nat) (d : Nat) : (s.capture k l a d).levels = s.levels := rfl
@[simp] theorem State.capture_lanes (k : FaultKind) (l a : Option Nat) (d : Nat) : (s.capture k l a d).lanes = s.lanes := rfl
@[simp] theorem State.capture_notice (k : FaultKind) (l a : Option Nat) (d : Nat) : (s.capture k l a d).notice = s.notice ||| Cause.fault.mask := rfl
@[simp] theorem State.capture_enable (k : FaultKind) (l a : Option Nat) (d : Nat) : (s.capture k l a d).enable = s.enable := rfl
@[simp] theorem State.capture_readData (k : FaultKind) (l a : Option Nat) (d : Nat) : (s.capture k l a d).readData = s.readData := rfl
@[simp] theorem State.capture_mem (k : FaultKind) (l a : Option Nat) (d : Nat) : (s.capture k l a d).mem = s.mem := rfl
@[simp] theorem State.capture_env (k : FaultKind) (l a : Option Nat) (d : Nat) : (s.capture k l a d).env = s.env := rfl
@[simp] theorem State.capture_shadow (k : FaultKind) (l a : Option Nat) (d : Nat) : (s.capture k l a d).shadow = s.shadow := rfl
@[simp] theorem State.capture_shadowMem (k : FaultKind) (l a : Option Nat) (d : Nat) : (s.capture k l a d).shadowMem = s.shadowMem := rfl
@[simp] theorem State.capture_afterWrites (k : FaultKind) (l a : Option Nat) (d : Nat) : (s.capture k l a d).afterWrites = s.afterWrites := rfl
@[simp] theorem State.capture_pending (k : FaultKind) (l a : Option Nat) (d : Nat) : (s.capture k l a d).pending = s.pending := rfl

/-! ### captureMemory -/

@[simp] theorem State.captureMemory_power (k : FaultKind) (l a : Nat) : (s.captureMemory k l a).power = s.power := rfl
@[simp] theorem State.captureMemory_nrst (k : FaultKind) (l a : Nat) : (s.captureMemory k l a).nrst = s.nrst := rfl
@[simp] theorem State.captureMemory_dev (k : FaultKind) (l a : Nat) : (s.captureMemory k l a).dev = s.dev := rfl
@[simp] theorem State.captureMemory_stored (k : FaultKind) (l a : Nat) : (s.captureMemory k l a).stored = s.stored := rfl
@[simp] theorem State.captureMemory_accounts (k : FaultKind) (l a : Nat) : (s.captureMemory k l a).accounts = s.accounts := rfl
@[simp] theorem State.captureMemory_zeroCaptured (k : FaultKind) (l a : Nat) : (s.captureMemory k l a).zeroCaptured = s.zeroCaptured := rfl
@[simp] theorem State.captureMemory_sessions (k : FaultKind) (l a : Nat) : (s.captureMemory k l a).sessions = s.sessions := rfl
@[simp] theorem State.captureMemory_jobs (k : FaultKind) (l a : Nat) : (s.captureMemory k l a).jobs = s.jobs := rfl
@[simp] theorem State.captureMemory_hold (k : FaultKind) (l a : Nat) : (s.captureMemory k l a).hold = s.hold := rfl
@[simp] theorem State.captureMemory_print (k : FaultKind) (l a : Nat) : (s.captureMemory k l a).print = s.print := rfl
@[simp] theorem State.captureMemory_engineOut (k : FaultKind) (l a : Nat) : (s.captureMemory k l a).engineOut = s.engineOut := rfl
@[simp] theorem State.captureMemory_scan (k : FaultKind) (l a : Nat) : (s.captureMemory k l a).scan = s.scan := rfl
@[simp] theorem State.captureMemory_core (k : FaultKind) (l a : Nat) : (s.captureMemory k l a).core = s.core := rfl
@[simp] theorem State.captureMemory_slots (k : FaultKind) (l a : Nat) : (s.captureMemory k l a).slots = s.slots := rfl
@[simp] theorem State.captureMemory_draws (k : FaultKind) (l a : Nat) : (s.captureMemory k l a).draws = s.draws := rfl
@[simp] theorem State.captureMemory_carts (k : FaultKind) (l a : Nat) : (s.captureMemory k l a).carts = s.carts := rfl
@[simp] theorem State.captureMemory_link (k : FaultKind) (l a : Nat) : (s.captureMemory k l a).link = s.link := rfl
@[simp] theorem State.captureMemory_checkWait (k : FaultKind) (l a : Nat) : (s.captureMemory k l a).checkWait = s.checkWait := rfl
@[simp] theorem State.captureMemory_levels (k : FaultKind) (l a : Nat) : (s.captureMemory k l a).levels = s.levels := rfl
@[simp] theorem State.captureMemory_lanes (k : FaultKind) (l a : Nat) : (s.captureMemory k l a).lanes = s.lanes := rfl
@[simp] theorem State.captureMemory_notice (k : FaultKind) (l a : Nat) : (s.captureMemory k l a).notice = s.notice ||| Cause.fault.mask := rfl
@[simp] theorem State.captureMemory_enable (k : FaultKind) (l a : Nat) : (s.captureMemory k l a).enable = s.enable := rfl
@[simp] theorem State.captureMemory_readData (k : FaultKind) (l a : Nat) : (s.captureMemory k l a).readData = s.readData := rfl
@[simp] theorem State.captureMemory_mem (k : FaultKind) (l a : Nat) : (s.captureMemory k l a).mem = s.mem := rfl
@[simp] theorem State.captureMemory_env (k : FaultKind) (l a : Nat) : (s.captureMemory k l a).env = s.env := rfl
@[simp] theorem State.captureMemory_shadow (k : FaultKind) (l a : Nat) : (s.captureMemory k l a).shadow = s.shadow := rfl
@[simp] theorem State.captureMemory_shadowMem (k : FaultKind) (l a : Nat) : (s.captureMemory k l a).shadowMem = s.shadowMem := rfl
@[simp] theorem State.captureMemory_afterWrites (k : FaultKind) (l a : Nat) : (s.captureMemory k l a).afterWrites = s.afterWrites := rfl
@[simp] theorem State.captureMemory_pending (k : FaultKind) (l a : Nat) : (s.captureMemory k l a).pending = s.pending := rfl

/-! ### writeKnown -/

@[simp] theorem State.writeKnown_power (l : List KnownCartridge) : (s.writeKnown l).power = s.power := rfl
@[simp] theorem State.writeKnown_nrst (l : List KnownCartridge) : (s.writeKnown l).nrst = s.nrst := rfl
@[simp] theorem State.writeKnown_dev (l : List KnownCartridge) : (s.writeKnown l).dev = s.dev := rfl
@[simp] theorem State.writeKnown_faults (l : List KnownCartridge) : (s.writeKnown l).faults = s.faults := rfl
@[simp] theorem State.writeKnown_stored (l : List KnownCartridge) : (s.writeKnown l).stored = { s.stored with known := l, knownOk := true } := rfl
@[simp] theorem State.writeKnown_accounts (l : List KnownCartridge) : (s.writeKnown l).accounts = s.accounts := rfl
@[simp] theorem State.writeKnown_zeroCaptured (l : List KnownCartridge) : (s.writeKnown l).zeroCaptured = s.zeroCaptured := rfl
@[simp] theorem State.writeKnown_sessions (l : List KnownCartridge) : (s.writeKnown l).sessions = s.sessions := rfl
@[simp] theorem State.writeKnown_jobs (l : List KnownCartridge) : (s.writeKnown l).jobs = s.jobs := rfl
@[simp] theorem State.writeKnown_hold (l : List KnownCartridge) : (s.writeKnown l).hold = s.hold := rfl
@[simp] theorem State.writeKnown_print (l : List KnownCartridge) : (s.writeKnown l).print = s.print := rfl
@[simp] theorem State.writeKnown_engineOut (l : List KnownCartridge) : (s.writeKnown l).engineOut = s.engineOut := rfl
@[simp] theorem State.writeKnown_scan (l : List KnownCartridge) : (s.writeKnown l).scan = s.scan := rfl
@[simp] theorem State.writeKnown_core (l : List KnownCartridge) : (s.writeKnown l).core = s.core := rfl
@[simp] theorem State.writeKnown_slots (l : List KnownCartridge) : (s.writeKnown l).slots = s.slots := rfl
@[simp] theorem State.writeKnown_draws (l : List KnownCartridge) : (s.writeKnown l).draws = s.draws := rfl
@[simp] theorem State.writeKnown_carts (l : List KnownCartridge) : (s.writeKnown l).carts = s.carts := rfl
@[simp] theorem State.writeKnown_link (l : List KnownCartridge) : (s.writeKnown l).link = s.link := rfl
@[simp] theorem State.writeKnown_checkWait (l : List KnownCartridge) : (s.writeKnown l).checkWait = s.checkWait := rfl
@[simp] theorem State.writeKnown_levels (l : List KnownCartridge) : (s.writeKnown l).levels = s.levels := rfl
@[simp] theorem State.writeKnown_lanes (l : List KnownCartridge) : (s.writeKnown l).lanes = s.lanes := rfl
@[simp] theorem State.writeKnown_notice (l : List KnownCartridge) : (s.writeKnown l).notice = s.notice := rfl
@[simp] theorem State.writeKnown_enable (l : List KnownCartridge) : (s.writeKnown l).enable = s.enable := rfl
@[simp] theorem State.writeKnown_readData (l : List KnownCartridge) : (s.writeKnown l).readData = s.readData := rfl
@[simp] theorem State.writeKnown_mem (l : List KnownCartridge) : (s.writeKnown l).mem = s.mem := rfl
@[simp] theorem State.writeKnown_env (l : List KnownCartridge) : (s.writeKnown l).env = s.env := rfl
@[simp] theorem State.writeKnown_shadow (l : List KnownCartridge) : (s.writeKnown l).shadow = s.shadow := rfl
@[simp] theorem State.writeKnown_shadowMem (l : List KnownCartridge) : (s.writeKnown l).shadowMem = s.shadowMem := rfl
@[simp] theorem State.writeKnown_afterWrites (l : List KnownCartridge) :
    (s.writeKnown l).afterWrites = (s.store .knownList { s.stored with known := l, knownOk := true }).afterWrites := rfl
@[simp] theorem State.writeKnown_pending (l : List KnownCartridge) : (s.writeKnown l).pending = s.pending := rfl

/-! ### writeMeters -/

@[simp] theorem State.writeMeters_power (m : Meters) : (s.writeMeters m).power = s.power := rfl
@[simp] theorem State.writeMeters_nrst (m : Meters) : (s.writeMeters m).nrst = s.nrst := rfl
@[simp] theorem State.writeMeters_dev (m : Meters) : (s.writeMeters m).dev = s.dev := rfl
@[simp] theorem State.writeMeters_faults (m : Meters) : (s.writeMeters m).faults = s.faults := rfl
@[simp] theorem State.writeMeters_stored (m : Meters) : (s.writeMeters m).stored = { s.stored with meters := m, metersOk := true } := rfl
@[simp] theorem State.writeMeters_accounts (m : Meters) : (s.writeMeters m).accounts = s.accounts := rfl
@[simp] theorem State.writeMeters_zeroCaptured (m : Meters) : (s.writeMeters m).zeroCaptured = s.zeroCaptured := rfl
@[simp] theorem State.writeMeters_sessions (m : Meters) : (s.writeMeters m).sessions = s.sessions := rfl
@[simp] theorem State.writeMeters_jobs (m : Meters) : (s.writeMeters m).jobs = s.jobs := rfl
@[simp] theorem State.writeMeters_hold (m : Meters) : (s.writeMeters m).hold = s.hold := rfl
@[simp] theorem State.writeMeters_print (m : Meters) : (s.writeMeters m).print = s.print := rfl
@[simp] theorem State.writeMeters_engineOut (m : Meters) : (s.writeMeters m).engineOut = s.engineOut := rfl
@[simp] theorem State.writeMeters_scan (m : Meters) : (s.writeMeters m).scan = s.scan := rfl
@[simp] theorem State.writeMeters_core (m : Meters) : (s.writeMeters m).core = s.core := rfl
@[simp] theorem State.writeMeters_slots (m : Meters) : (s.writeMeters m).slots = s.slots := rfl
@[simp] theorem State.writeMeters_draws (m : Meters) : (s.writeMeters m).draws = s.draws := rfl
@[simp] theorem State.writeMeters_carts (m : Meters) : (s.writeMeters m).carts = s.carts := rfl
@[simp] theorem State.writeMeters_link (m : Meters) : (s.writeMeters m).link = s.link := rfl
@[simp] theorem State.writeMeters_checkWait (m : Meters) : (s.writeMeters m).checkWait = s.checkWait := rfl
@[simp] theorem State.writeMeters_levels (m : Meters) : (s.writeMeters m).levels = s.levels := rfl
@[simp] theorem State.writeMeters_lanes (m : Meters) : (s.writeMeters m).lanes = s.lanes := rfl
@[simp] theorem State.writeMeters_notice (m : Meters) : (s.writeMeters m).notice = s.notice := rfl
@[simp] theorem State.writeMeters_enable (m : Meters) : (s.writeMeters m).enable = s.enable := rfl
@[simp] theorem State.writeMeters_readData (m : Meters) : (s.writeMeters m).readData = s.readData := rfl
@[simp] theorem State.writeMeters_mem (m : Meters) : (s.writeMeters m).mem = s.mem := rfl
@[simp] theorem State.writeMeters_env (m : Meters) : (s.writeMeters m).env = s.env := rfl
@[simp] theorem State.writeMeters_shadow (m : Meters) : (s.writeMeters m).shadow = s.shadow := rfl
@[simp] theorem State.writeMeters_shadowMem (m : Meters) : (s.writeMeters m).shadowMem = s.shadowMem := rfl
@[simp] theorem State.writeMeters_afterWrites (m : Meters) :
    (s.writeMeters m).afterWrites = (s.store .meters { s.stored with meters := m, metersOk := true }).afterWrites := rfl
@[simp] theorem State.writeMeters_pending (m : Meters) : (s.writeMeters m).pending = s.pending := rfl

/-! ### finish -/

@[simp] theorem State.finish_power : s.finish.power = s.power := rfl
@[simp] theorem State.finish_nrst : s.finish.nrst = s.nrst := rfl
@[simp] theorem State.finish_dev : s.finish.dev = s.dev := rfl
@[simp] theorem State.finish_faults : s.finish.faults = s.faults := rfl
@[simp] theorem State.finish_stored : s.finish.stored = s.stored := rfl
@[simp] theorem State.finish_accounts : s.finish.accounts = s.accounts := rfl
@[simp] theorem State.finish_zeroCaptured : s.finish.zeroCaptured = s.zeroCaptured := rfl
@[simp] theorem State.finish_sessions : s.finish.sessions = s.sessions := rfl
@[simp] theorem State.finish_jobs : s.finish.jobs = s.jobs := rfl
@[simp] theorem State.finish_hold : s.finish.hold = s.hold := rfl
@[simp] theorem State.finish_print : s.finish.print = s.print := rfl
@[simp] theorem State.finish_engineOut : s.finish.engineOut = s.engineOut := rfl
@[simp] theorem State.finish_scan : s.finish.scan = s.scan := rfl
@[simp] theorem State.finish_core : s.finish.core = s.core := rfl
@[simp] theorem State.finish_slots : s.finish.slots = s.slots := rfl
@[simp] theorem State.finish_draws : s.finish.draws = s.draws := rfl
@[simp] theorem State.finish_carts : s.finish.carts = s.carts := rfl
@[simp] theorem State.finish_link : s.finish.link = s.link := rfl
@[simp] theorem State.finish_checkWait : s.finish.checkWait = s.checkWait := rfl
@[simp] theorem State.finish_levels : s.finish.levels = s.levels := rfl
@[simp] theorem State.finish_lanes : s.finish.lanes = s.lanes := rfl
@[simp] theorem State.finish_notice : s.finish.notice = s.notice := rfl
@[simp] theorem State.finish_enable : s.finish.enable = s.enable := rfl
@[simp] theorem State.finish_readData : s.finish.readData = s.readData := rfl
@[simp] theorem State.finish_mem : s.finish.mem = s.mem := rfl
@[simp] theorem State.finish_env : s.finish.env = .calm := rfl
@[simp] theorem State.finish_shadow : s.finish.shadow = s.shadow := rfl
@[simp] theorem State.finish_shadowMem : s.finish.shadowMem = s.shadowMem := rfl
@[simp] theorem State.finish_afterWrites : s.finish.afterWrites = s.afterWrites := rfl
@[simp] theorem State.finish_pending : s.finish.pending = s.pending := rfl

/-! ### begin -/

@[simp] theorem State.begin_power (e : Env) : (s.begin e).power = s.power := rfl
@[simp] theorem State.begin_nrst (e : Env) : (s.begin e).nrst = s.nrst := rfl
@[simp] theorem State.begin_faults (e : Env) : (s.begin e).faults = s.faults := rfl
@[simp] theorem State.begin_accounts (e : Env) : (s.begin e).accounts = s.accounts := rfl
@[simp] theorem State.begin_zeroCaptured (e : Env) : (s.begin e).zeroCaptured = s.zeroCaptured := rfl
@[simp] theorem State.begin_sessions (e : Env) : (s.begin e).sessions = s.sessions := rfl
@[simp] theorem State.begin_jobs (e : Env) : (s.begin e).jobs = s.jobs := rfl
@[simp] theorem State.begin_hold (e : Env) : (s.begin e).hold = s.hold := rfl
@[simp] theorem State.begin_print (e : Env) : (s.begin e).print = s.print := rfl
@[simp] theorem State.begin_engineOut (e : Env) : (s.begin e).engineOut = [] := rfl
@[simp] theorem State.begin_scan (e : Env) : (s.begin e).scan = s.scan := rfl
@[simp] theorem State.begin_core (e : Env) : (s.begin e).core = s.core := rfl
@[simp] theorem State.begin_slots (e : Env) : (s.begin e).slots = s.slots := rfl
@[simp] theorem State.begin_draws (e : Env) : (s.begin e).draws = s.draws := rfl
@[simp] theorem State.begin_carts (e : Env) : (s.begin e).carts = s.carts := rfl
@[simp] theorem State.begin_link (e : Env) : (s.begin e).link = s.link := rfl
@[simp] theorem State.begin_checkWait (e : Env) : (s.begin e).checkWait = s.checkWait := rfl
@[simp] theorem State.begin_levels (e : Env) : (s.begin e).levels = s.levels := rfl
@[simp] theorem State.begin_lanes (e : Env) : (s.begin e).lanes = s.lanes := rfl
@[simp] theorem State.begin_notice (e : Env) : (s.begin e).notice = s.notice := rfl
@[simp] theorem State.begin_enable (e : Env) : (s.begin e).enable = s.enable := rfl
@[simp] theorem State.begin_readData (e : Env) : (s.begin e).readData = s.readData := rfl
@[simp] theorem State.begin_mem (e : Env) : (s.begin e).mem = s.mem.storeAll e.stores := rfl
@[simp] theorem State.begin_env (e : Env) : (s.begin e).env = e := rfl
@[simp] theorem State.begin_shadowMem (e : Env) : (s.begin e).shadowMem = s.mem.storeAll e.stores := rfl
@[simp] theorem State.begin_afterWrites (e : Env) : (s.begin e).afterWrites = [] := rfl
@[simp] theorem State.begin_pending (e : Env) : (s.begin e).pending = s.pending := rfl

/-! ### Table entries -/

theorem entryAt_putAt_same {α : Type} {n : Nat} (v : Vector α n) (i : Nat) (x d : α) (h : i < n) :
    entryAt (putAt v i x) i d = x := by
  simp [entryAt, putAt, h]

theorem entryAt_putAt_other {α : Type} {n : Nat} (v : Vector α n) (i j : Nat) (x d : α) (h : i ≠ j) :
    entryAt (putAt v i x) j d = entryAt v j d := by
  simp only [entryAt, putAt, Vector.getElem?_setIfInBounds]
  split
  · exact absurd ‹i = j› h
  · rfl

theorem entryAt_beyond {α : Type} {n : Nat} (v : Vector α n) (i : Nat) (d : α) (h : n ≤ i) : entryAt v i d = d := by
  simp [entryAt, h]

theorem putAt_beyond {α : Type} {n : Nat} (v : Vector α n) (i : Nat) (x : α) (h : n ≤ i) : putAt v i x = v := by
  ext j hj
  simp [putAt, Vector.getElem_setIfInBounds]
  omega

/-- Everything reading a table after replacing an entry can give. -/
theorem entryAt_putAt {α : Type} {n : Nat} (v : Vector α n) (i j : Nat) (x d : α) :
    entryAt (putAt v i x) j d = if i = j ∧ i < n then x else entryAt v j d := by
  by_cases h : i = j
  · subst h
    by_cases hn : i < n
    · simp [entryAt_putAt_same, hn]
    · simp [hn, putAt_beyond v i x (Nat.le_of_not_lt hn)]
  · simp [h, entryAt_putAt_other]

theorem State.putJob_job (i j : Nat) (x : Job) :
    (s.putJob i x).job j = if i = j ∧ i < 32 then x else s.job j := entryAt_putAt ..

theorem State.putSlot_slot (i j : Nat) (x : KeySlot) :
    (s.putSlot i x).slot j = if i = j ∧ i < 32 then x else s.slot j := entryAt_putAt ..

theorem State.putSession_session (i j : Nat) (x : Session) :
    (s.putSession i x).session j = if i = j ∧ i < 8 then x else s.session j := entryAt_putAt ..

theorem State.putAcct_acct (i j : Nat) (x : AccountVolatile) :
    (s.putAcct i x).acct j = if i = j ∧ i < 512 then x else s.acct j := entryAt_putAt ..

theorem State.putRecord_record (i j : Nat) (x : AccountRecord) :
    (s.putRecord i x).record j = if i = j ∧ i < 512 then x else s.record j := entryAt_putAt ..

theorem State.writeRecord_record (i j : Nat) (x : AccountRecord) :
    (s.writeRecord i x).record j = if i = j ∧ i < 512 then { x with checkOk := true } else s.record j := entryAt_putAt ..

theorem State.putBuffer_buffer (i j : Nat) (x : Buffer) :
    (s.putBuffer i x).buffer j = if i = j ∧ i < 2 then x else s.buffer j := entryAt_putAt ..

@[simp] theorem State.putLane_lane_same (n : Fin 4) (x : Lane) : (s.putLane n x).lane n = x := by
  simp [State.lane, State.putLane, Vector.get_eq_getElem]

theorem State.putLane_lane_other (n m : Fin 4) (x : Lane) (h : n ≠ m) : (s.putLane n x).lane m = s.lane m := by
  have : n.val ≠ m.val := fun e => h (Fin.ext e)
  simp [State.lane, State.putLane, Vector.get_eq_getElem, this]

end Sys2Proof.Machine
end

