-- ==== Sys2Proof/Laws/Ops.lean ====
section
/-! SUPPORT. What the shared operations can do, once each: the frame of a command, the service of a ticket, its close, result
areas, activity, and the read of an account. -/

namespace Sys2Proof.Machine

/-! ### Commands -/

/-- A command always completes. -/
theorem command_next (env : Env) (s : State) (effect : State → State) :
    command env s effect = .next (effect (s.begin env)).finish := rfl

theorem command_eq_next {env : Env} {s t : State} {effect : State → State} (h : command env s effect = .next t) :
    t = (effect (s.begin env)).finish := by
  simpa [command] using h.symm

theorem clockAfter_calm (clock : Nat) (h : clock < 2 ^ 32) : clockAfter clock 0 = clock := by
  have h' : clock + 0 < 2 ^ 32 := h
  rw [clockAfter, if_pos h', Nat.add_zero]

theorem State.begin_dev (s : State) (env : Env) :
    (s.begin env).dev = { s.dev with clock := if s.up then clockAfter s.dev.clock env.elapsed else s.dev.clock } := rfl

@[simp] theorem State.begin_alive (s : State) (env : Env) : (s.begin env).alive = s.alive := rfl

@[simp] theorem State.begin_up (s : State) (env : Env) : (s.begin env).up = s.up := rfl

@[simp] theorem State.begin_lane (s : State) (env : Env) (n : Fin 4) : (s.begin env).lane n = s.lane n := rfl

@[simp] theorem State.begin_job (s : State) (env : Env) (i : Nat) : (s.begin env).job i = s.job i := rfl

@[simp] theorem State.begin_serving (s : State) (env : Env) (k : TicketKind) : (s.begin env).serving k = s.serving k := rfl

/-- With nothing decayed, the stored areas a command begins with are those of the state. -/
theorem State.begin_stored_calm (s : State) (env : Env) (h : env.decayed = []) : (s.begin env).stored = s.stored := by
  simp [State.begin, h]

/-! ### Lanes -/

theorem State.serving_some {s : State} {kind : TicketKind} {k : Ticket} (h : s.serving kind = some k) :
    s.up = true ∧ (s.lane kind.lane).service = some k ∧ k.begun = false ∧ k.kind = some kind := by
  unfold State.serving at h
  cases hup : s.up with
  | false => simp [hup] at h
  | true =>
    cases hs : (s.lane kind.lane).service with
    | none => simp [hup, hs] at h
    | some t =>
      simp only [hup, hs, if_true] at h
      split at h
      · rename_i hk
        cases h
        exact ⟨rfl, rfl, hk⟩
      · cases h

theorem State.beginService_some {s : State} {lane : Fin 4} {k : Ticket} (h : (s.lane lane).service = some k) :
    s.beginService lane = s.putLane lane { s.lane lane with service := some { k with begun := true } } := by
  simp [State.beginService, h]

/-- Marking a ticket as begun changes its lane's ticket in service and nothing else. -/
theorem State.beginService_frame (s : State) (lane : Fin 4) :
    s.beginService lane = { s with lanes := (s.beginService lane).lanes } := by
  unfold State.beginService
  split <;> rfl

theorem State.beginService_queue (s : State) (lane n : Fin 4) :
    ((s.beginService lane).lane n).queue = (s.lane n).queue := by
  unfold State.beginService
  split
  · rfl
  · by_cases h : lane = n
    · subst h; simp
    · rw [State.putLane_lane_other _ _ _ _ h]

/-- Everything the service of a ticket can do: nothing, a close by the operating state, or the kind's own rules. -/
theorem serve_cases (kind : TicketKind) (w13 : Nat) (body : Ticket → State → State) (s : State) :
    (s.serving kind = none ∧ serve kind w13 body s = s) ∨
      ∃ k, s.serving kind = some k ∧
        ((∃ code, stateGate s.dev.op kind = some code ∧
            serve kind w13 body s = (s.beginService kind.lane).close kind.lane code w13 0) ∨
          (stateGate s.dev.op kind = none ∧ serve kind w13 body s = body k (s.beginService kind.lane))) := by
  unfold serve
  have hop : (s.beginService kind.lane).dev.op = s.dev.op := by rw [State.beginService_frame]
  cases h : s.serving kind with
  | none => simp
  | some k =>
    refine .inr ⟨k, rfl, ?_⟩
    simp only [hop]
    cases hg : stateGate s.dev.op kind with
    | none => exact .inr ⟨rfl, rfl⟩
    | some code => exact .inl ⟨code, rfl, rfl⟩

/-- The service of a ticket that the operating state lets be served. -/
theorem serve_body {env : Env} {s : State} {kind : TicketKind} {k : Ticket} (h : Serves env s kind k) (w13 : Nat)
    (body : Ticket → State → State) :
    serve kind w13 body (s.begin env) = body k ((s.begin env).beginService kind.lane) := by
  rcases serve_cases kind w13 body (s.begin env) with ⟨hn, -⟩ | ⟨k', hk, ⟨code, hc, -⟩ | ⟨-, e⟩⟩
  · rw [h.1] at hn; cases hn
  · rw [h.2.1] at hc; cases hc
  · rw [h.1] at hk; cases hk; exact e

/-! ### Closing -/

/-- Everything the write of a ticket's word can do. -/
theorem State.writeTicketWord_cases (s : State) (lane : Fin 4) (a : Nat) (w : Word) :
    (wordFails s.env.badWrites a = true ∧
        s.writeTicketWord lane a w = s.captureMemory .memoryWrite lane.val (wrapAddress a)) ∨
      (wordFails s.env.badWrites a = false ∧ s.writeTicketWord lane a w = s.setMem (s.mem.putWord a w)) := by
  rcases s.writeWord_cases a w with ⟨h, e⟩ | ⟨h, e⟩
  · exact .inl ⟨h, by simp [State.writeTicketWord, e]⟩
  · exact .inr ⟨h, by simp [State.writeTicketWord, e]⟩

theorem State.writeTicketWord_frame (s : State) (lane : Fin 4) (a : Nat) (w : Word) :
    s.writeTicketWord lane a w =
      { s with
        mem := (s.writeTicketWord lane a w).mem, faults := (s.writeTicketWord lane a w).faults,
        notice := (s.writeTicketWord lane a w).notice } := by
  rcases s.writeTicketWord_cases lane a w with ⟨-, e⟩ | ⟨-, e⟩ <;> rw [e] <;> rfl

theorem State.closeWords_frame (s : State) (lane : Fin 4) (a : Nat) (code : ReturnCode) (w13 w14 : Nat) (ended truncated : Bool) :
    s.closeWords lane a code w13 w14 ended truncated =
      { s with
        mem := (s.closeWords lane a code w13 w14 ended truncated).mem
        faults := (s.closeWords lane a code w13 w14 ended truncated).faults
        notice := (s.closeWords lane a code w13 w14 ended truncated).notice } := by
  unfold State.closeWords
  rw [State.writeTicketWord_frame (State.writeTicketWord _ _ _ _), State.writeTicketWord_frame (State.writeTicketWord _ _ _ _),
    State.writeTicketWord_frame s]

/-- A close changes the ticket's words, the fault record (when a word cannot be written), Notice and the lane; nothing else. -/
theorem State.close_frame (s : State) (lane : Fin 4) (code : ReturnCode) (w13 w14 : Nat) (ended truncated : Bool) :
    s.close lane code w13 w14 ended truncated =
      { s with
        mem := (s.close lane code w13 w14 ended truncated).mem
        faults := (s.close lane code w13 w14 ended truncated).faults
        notice := (s.close lane code w13 w14 ended truncated).notice
        lanes := (s.close lane code w13 w14 ended truncated).lanes } := by
  unfold State.close
  cases h : (s.lane lane).service with
  | none => rfl
  | some t =>
    simp only []
    rw [State.closeWords_frame]
    rfl

/-- Where no ticket is in service a close changes nothing. -/
theorem State.close_idle (s : State) (lane : Fin 4) (code : ReturnCode) (w13 w14 : Nat) (ended truncated : Bool)
    (h : (s.lane lane).service = none) : s.close lane code w13 w14 ended truncated = s := by
  simp [State.close, h]

theorem State.writeTicketWord_ok {s : State} {a : Nat} (h : wordFails s.env.badWrites a = false) (lane : Fin 4) (w : Word) :
    s.writeTicketWord lane a w = s.setMem (s.mem.putWord a w) := by
  rcases s.writeTicketWord_cases lane a w with ⟨h', -⟩ | ⟨-, e⟩
  · rw [h] at h'; cases h'
  · exact e

/-- The three words of a close whose writes succeed. -/
theorem State.closeWords_ok {s : State} {k : Ticket} (hw : s.closesFreely k) (lane : Fin 4) (code : ReturnCode)
    (w13 w14 : Nat) (ended truncated : Bool) :
    s.closeWords lane k.address code w13 w14 ended truncated =
      s.setMem (((s.mem.putWord (k.address + 52) (BitVec.ofNat 32 w13)).putWord (k.address + 56) (BitVec.ofNat 32 w14)).putWord
        (k.address + 60) (closingWord 3 code.code s.epoch ended truncated)) := by
  obtain ⟨h1, h2, h3⟩ := hw
  have e1 := State.writeTicketWord_ok h1 lane (BitVec.ofNat 32 w13)
  have e2 := State.writeTicketWord_ok (s := s.setMem (s.mem.putWord (k.address + 52) (BitVec.ofNat 32 w13))) h2 lane
    (BitVec.ofNat 32 w14)
  have e3 := State.writeTicketWord_ok (s := (s.setMem (s.mem.putWord (k.address + 52) (BitVec.ofNat 32 w13))).setMem
    ((s.mem.putWord (k.address + 52) (BitVec.ofNat 32 w13)).putWord (k.address + 56) (BitVec.ofNat 32 w14))) h3 lane
    (closingWord 3 code.code s.epoch ended truncated)
  simp only [State.setMem_mem] at e2
  rw [State.closeWords, e1, e2]
  exact e3

/-- A close whose three words can be written: the ticket is answered. -/
theorem State.close_answered {s : State} {lane : Fin 4} {k : Ticket} (h : (s.lane lane).service = some k)
    (hw : s.closesFreely k) (code : ReturnCode) (w13 w14 : Nat) (ended truncated : Bool) :
    (s.close lane code w13 w14 ended truncated).finish = s.answered lane k code w13 w14 ended truncated := by
  unfold State.close
  rw [h]
  simp only []
  rw [State.closeWords_ok hw]
  simp only [State.answered, State.finish, State.leaveService, State.putLane, State.raise, State.setMem, State.lane]

/-- The close of a ticket whose service has begun, after its rule has made changes that leave the lanes and the environment
alone. -/
theorem State.close_served {b u : State} {lane : Fin 4} {k : Ticket} (h : (b.lane lane).service = some k)
    (hw : b.closesFreely k) (hl : u.lanes = (b.beginService lane).lanes) (he : u.env = b.env) (code : ReturnCode)
    (w13 w14 : Nat) (ended truncated : Bool) :
    (u.close lane code w13 w14 ended truncated).finish =
      State.answered { u with lanes := b.lanes } lane k code w13 w14 ended truncated := by
  have hl' : u.lanes = (b.putLane lane { b.lane lane with service := some { k with begun := true } }).lanes := by
    rw [hl, State.beginService_some h]
  have hlane : u.lane lane = { b.lane lane with service := some { k with begun := true } } := by
    rw [State.lane, hl']
    exact State.putLane_lane_same b lane _
  have hs : (u.lane lane).service = some { k with begun := true } := by rw [hlane]
  have hw' : u.closesFreely { k with begun := true } := by
    simpa [State.closesFreely, he] using hw
  rw [State.close_answered hs hw']
  simp only [State.answered, hlane, State.epoch]
  congr 1
  rw [hl']
  simp [State.putLane, State.lane, Vector.get_eq_getElem]

theorem State.writeTicketWord_wf (s : State) (lane : Fin 4) (a : Nat) (w : Word) (h : s.mem.wf) :
    (s.writeTicketWord lane a w).mem.wf := by
  rcases s.writeTicketWord_cases lane a w with ⟨-, e⟩ | ⟨-, e⟩ <;> rw [e]
  · exact h
  · exact Memory.putWord_wf _ _ _ h

theorem State.writeTicketWord_read_other (s : State) (lane : Fin 4) (x : Nat) (w : Word) (a : Nat)
    (hx : ∀ i < 4, a ≠ wrapAddress (x + i)) : (s.writeTicketWord lane x w).mem.read a = s.mem.read a := by
  rcases s.writeTicketWord_cases lane x w with ⟨-, e⟩ | ⟨-, e⟩ <;> rw [e]
  · rfl
  · exact Memory.read_putWord_other _ _ _ _ hx

theorem State.close_mem {s : State} {lane : Fin 4} {k : Ticket} (h : (s.lane lane).service = some k) (code : ReturnCode)
    (w13 w14 : Nat) (ended truncated : Bool) :
    (s.close lane code w13 w14 ended truncated).mem = (s.closeWords lane k.address code w13 w14 ended truncated).mem := by
  simp [State.close, h]

theorem State.close_wf (s : State) (lane : Fin 4) (code : ReturnCode) (w13 w14 : Nat) (ended truncated : Bool)
    (h : s.mem.wf) : (s.close lane code w13 w14 ended truncated).mem.wf := by
  cases hs : (s.lane lane).service with
  | none => rwa [State.close_idle _ _ _ _ _ _ _ hs]
  | some t =>
    rw [State.close_mem hs]
    exact State.writeTicketWord_wf _ _ _ _ (State.writeTicketWord_wf _ _ _ _ (State.writeTicketWord_wf _ _ _ _ h))

/-- A close leaves every byte outside W13, W14 and the closing word alone. -/
theorem State.close_read_other {s : State} {lane : Fin 4} {k : Ticket} (h : (s.lane lane).service = some k) (code : ReturnCode)
    (w13 w14 : Nat) (ended truncated : Bool) (a : Nat) (ha : ¬k.closingByte a) :
    (s.close lane code w13 w14 ended truncated).mem.read a = s.mem.read a := by
  have hb : ∀ j i, j + i < 12 → a ≠ wrapAddress (k.address + (52 + j) + i) := fun j i hi e =>
    ha ⟨j + i, hi, by rw [e]; congr 1; omega⟩
  rw [State.close_mem h, State.closeWords,
    State.writeTicketWord_read_other _ _ _ _ _ (fun i hi => hb 8 i (by omega)),
    State.writeTicketWord_read_other _ _ _ _ _ (fun i hi => hb 4 i (by omega)),
    State.writeTicketWord_read_other _ _ _ _ _ (fun i hi => hb 0 i (by omega))]

/-! ### Result areas -/

/-- Entries written to a result area change memory, and the fault record and Notice when a write fails; nothing else. -/
theorem State.writeEntries_frame (entries : List (List Word)) (s : State) (lane : Fin 4) (a : Nat) :
    (s.writeEntries lane a entries).1 =
      { s with
        mem := (s.writeEntries lane a entries).1.mem
        faults := (s.writeEntries lane a entries).1.faults
        notice := (s.writeEntries lane a entries).1.notice } := by
  induction entries generalizing s a with
  | nil => rfl
  | cons e rest ih =>
    simp only [State.writeEntries]
    split
    · rename_i bad h
      have := State.writeWords_frame e s a
      rw [h] at this
      simp only at this ⊢
      rw [this]
      rfl
    · rename_i s' h
      have := State.writeWords_frame e s a
      rw [h] at this
      simp only at this ⊢
      rw [ih, this]

/-- The count of entries written whole is at most the entries given. -/
theorem State.writeEntries_count (entries : List (List Word)) (s : State) (lane : Fin 4) (a : Nat) :
    (s.writeEntries lane a entries).2.1 ≤ entries.length := by
  induction entries generalizing s a with
  | nil => simp [State.writeEntries]
  | cons e rest ih =>
    simp only [State.writeEntries]
    split
    · simp
    · exact Nat.succ_le_succ (ih _ _)

/-! ### Checks -/

theorem firstRefusal_none {checks : List (Option Refused)} :
    firstRefusal checks = none ↔ ∀ c ∈ checks, c = none := by
  induction checks with
  | nil => simp [firstRefusal]
  | cons c rest ih =>
    cases c with
    | none =>
      simp only [firstRefusal, List.findSome?_cons, id, List.mem_cons, forall_eq_or_imp, true_and]
      exact ih
    | some r => simp [firstRefusal]

theorem refuseIf_none {b : Bool} {code : ReturnCode} {w14 : Nat} : refuseIf b code w14 = none ↔ b = false := by
  cases b <;> simp [refuseIf]

/-! ### Activity -/

/-- Activity changes sessions only. -/
theorem State.touchSession_frame (s : State) (h : Handle) : s.touchSession h = { s with sessions := (s.touchSession h).sessions } := by
  unfold State.touchSession
  split <;> rfl

theorem State.touchOptSession_frame (s : State) (h : Option Handle) :
    s.touchOptSession h = { s with sessions := (s.touchOptSession h).sessions } := by
  cases h with
  | none => rfl
  | some h => exact s.touchSession_frame h

theorem State.touchJob_frame (s : State) (h : Handle) : s.touchJob h = { s with sessions := (s.touchJob h).sessions } := by
  unfold State.touchJob
  split
  · rfl
  · exact s.touchOptSession_frame _

/-- Activity of the engine hold changes the hold only. -/
theorem State.touchHold_frame (s : State) (h : Handle) : s.touchHold h = { s with hold := (s.touchHold h).hold } := by
  unfold State.touchHold
  split
  · rfl
  · split <;> rfl

/-! ### Durable writes (R1, R122, R178, R180) -/

/-- Everything a durable write can do to what is kept for a loss of power: nothing, where it leaves its area as it was; else it is
the last of the writes kept. -/
theorem State.store_afterWrites_cases (s : State) (area : AreaId) (st : Stored) :
    (st.same s.stored area = true ∧ (s.store area st).afterWrites = s.afterWrites) ∨
      (st.same s.stored area = false ∧ (s.store area st).afterWrites = s.afterWrites ++ [(st, s.mem)]) := by
  cases h : st.same s.stored area <;> simp [State.store, h]

/-- What is kept after a durable write was kept before it, or is what the write left. -/
theorem State.mem_store_afterWrites {s : State} {area : AreaId} {st : Stored} {x : Stored × Memory}
    (h : x ∈ (s.store area st).afterWrites) : x ∈ s.afterWrites ∨ x = (st, s.mem) := by
  rcases s.store_afterWrites_cases area st with ⟨-, e⟩ | ⟨-, e⟩ <;> rw [e] at h
  · exact .inl h
  · simpa using h

/-- Everything the stored areas and the DRAM after a loss of power can be. -/
theorem State.heldAfter_cases (s : State) (n : Nat) :
    (n = 0 ∧ s.heldAfter n = (s.shadow, s.shadowMem)) ∨ s.heldAfter n ∈ s.afterWrites ∨
      (s.afterWrites.length < n ∧ s.heldAfter n = (s.stored, s.mem)) := by
  cases n with
  | zero => exact .inl ⟨rfl, rfl⟩
  | succ n =>
    by_cases h : n < s.afterWrites.length
    · exact .inr (.inl (by simp [State.heldAfter, h]))
    · exact .inr (.inr ⟨by omega, by simp [State.heldAfter, Nat.le_of_not_lt h]⟩)

/-! ### Account reads (R2, R3) -/

/-- Everything the read of an account record can do. -/
theorem State.readAccount_cases (s : State) (n : Nat) :
    ((s.record n).checkOk = true ∧ s.readAccount n = s) ∨
      ((s.record n).checkOk = false ∧ n = 0 ∧
        ((s.zeroCaptured = true ∧ s.readAccount n = s.writeRecord 0 (s.record 0).zeroed) ∨
          (s.zeroCaptured = false ∧ s.readAccount n =
            { (s.writeRecord 0 (s.record 0).zeroed).capture .storeRecord none none 0 with zeroCaptured := true }))) ∨
      ((s.record n).checkOk = false ∧ n ≠ 0 ∧
        (((s.acct n).damaged = true ∧ s.readAccount n = s) ∨
          ((s.acct n).damaged = false ∧
            s.readAccount n = (s.putAcct n { s.acct n with damaged := true }).capture .storeRecord none none n))) := by
  unfold State.readAccount
  by_cases hc : (s.record n).checkOk = true
  · simp [hc]
  · by_cases h0 : n = 0
    · subst h0
      cases hz : s.zeroCaptured <;> simp [hc, hz]
    · cases hd : (s.acct n).damaged <;> simp [hc, h0]

/-- A record whose check value holds is read without effect. -/
theorem State.readAccount_ok {s : State} {n : Nat} (h : (s.record n).checkOk = true) : s.readAccount n = s := by
  simp [State.readAccount, h]

/-- The read of an account writes stored records and changes damaged marks, the fault record and Notice only. -/
theorem State.readAccount_frame (s : State) (n : Nat) :
    s.readAccount n =
      { s with
        stored := (s.readAccount n).stored, afterWrites := (s.readAccount n).afterWrites, accounts := (s.readAccount n).accounts,
        faults := (s.readAccount n).faults, notice := (s.readAccount n).notice, zeroCaptured := (s.readAccount n).zeroCaptured } := by
  rcases s.readAccount_cases n with ⟨-, e⟩ | ⟨-, -, ⟨-, e⟩ | ⟨-, e⟩⟩ | ⟨-, -, ⟨-, e⟩ | ⟨-, e⟩⟩ <;> rw [e] <;> rfl

end Sys2Proof.Machine
end

