-- ==== Sys2Proof/Laws/Lanes.lean ====
section
/-! SUPPORT. A ticket's rules look at the ticket in service only when it closes: they commute with another table of lanes. With
it, what a ticket's service answers. -/

namespace Sys2Proof.Machine

variable (s : State) (L : Vector Lane 4)

/-- The state with other lanes. -/
def State.setLanes (s : State) (L : Vector Lane 4) : State := { s with lanes := L }

@[simp] theorem State.setLanes_power : (s.setLanes L).power = s.power := rfl
@[simp] theorem State.setLanes_nrst : (s.setLanes L).nrst = s.nrst := rfl
@[simp] theorem State.setLanes_dev : (s.setLanes L).dev = s.dev := rfl
@[simp] theorem State.setLanes_faults : (s.setLanes L).faults = s.faults := rfl
@[simp] theorem State.setLanes_stored : (s.setLanes L).stored = s.stored := rfl
@[simp] theorem State.setLanes_accounts : (s.setLanes L).accounts = s.accounts := rfl
@[simp] theorem State.setLanes_zeroCaptured : (s.setLanes L).zeroCaptured = s.zeroCaptured := rfl
@[simp] theorem State.setLanes_sessions : (s.setLanes L).sessions = s.sessions := rfl
@[simp] theorem State.setLanes_jobs : (s.setLanes L).jobs = s.jobs := rfl
@[simp] theorem State.setLanes_hold : (s.setLanes L).hold = s.hold := rfl
@[simp] theorem State.setLanes_print : (s.setLanes L).print = s.print := rfl
@[simp] theorem State.setLanes_engineOut : (s.setLanes L).engineOut = s.engineOut := rfl
@[simp] theorem State.setLanes_scan : (s.setLanes L).scan = s.scan := rfl
@[simp] theorem State.setLanes_core : (s.setLanes L).core = s.core := rfl
@[simp] theorem State.setLanes_slots : (s.setLanes L).slots = s.slots := rfl
@[simp] theorem State.setLanes_draws : (s.setLanes L).draws = s.draws := rfl
@[simp] theorem State.setLanes_carts : (s.setLanes L).carts = s.carts := rfl
@[simp] theorem State.setLanes_link : (s.setLanes L).link = s.link := rfl
@[simp] theorem State.setLanes_checkWait : (s.setLanes L).checkWait = s.checkWait := rfl
@[simp] theorem State.setLanes_levels : (s.setLanes L).levels = s.levels := rfl
@[simp] theorem State.setLanes_notice : (s.setLanes L).notice = s.notice := rfl
@[simp] theorem State.setLanes_enable : (s.setLanes L).enable = s.enable := rfl
@[simp] theorem State.setLanes_readData : (s.setLanes L).readData = s.readData := rfl
@[simp] theorem State.setLanes_mem : (s.setLanes L).mem = s.mem := rfl
@[simp] theorem State.setLanes_env : (s.setLanes L).env = s.env := rfl
@[simp] theorem State.setLanes_shadow : (s.setLanes L).shadow = s.shadow := rfl
@[simp] theorem State.setLanes_shadowMem : (s.setLanes L).shadowMem = s.shadowMem := rfl
@[simp] theorem State.setLanes_afterWrites : (s.setLanes L).afterWrites = s.afterWrites := rfl
@[simp] theorem State.setLanes_pending : (s.setLanes L).pending = s.pending := rfl
@[simp] theorem State.setLanes_lanes : (s.setLanes L).lanes = L := rfl
@[simp] theorem State.setLanes_setLanes (M : Vector Lane 4) : (s.setLanes L).setLanes M = s.setLanes M := rfl
theorem State.setLanes_self : s.setLanes s.lanes = s := rfl
theorem State.beginService_setLanes (n : Fin 4) : s.beginService n = s.setLanes (s.beginService n).lanes := s.beginService_frame n

/-! ### What the tables read -/

@[simp] theorem State.setLanes_at_record (n : Nat) : (s.setLanes L).record n = s.record n := rfl
@[simp] theorem State.setLanes_at_acct (n : Nat) : (s.setLanes L).acct n = s.acct n := rfl
@[simp] theorem State.setLanes_at_session (n : Nat) : (s.setLanes L).session n = s.session n := rfl
@[simp] theorem State.setLanes_at_job (n : Nat) : (s.setLanes L).job n = s.job n := rfl
@[simp] theorem State.setLanes_at_slot (n : Nat) : (s.setLanes L).slot n = s.slot n := rfl
@[simp] theorem State.setLanes_at_cart (n : Nat) : (s.setLanes L).cart n = s.cart n := rfl
@[simp] theorem State.setLanes_at_buffer (n : Nat) : (s.setLanes L).buffer n = s.buffer n := rfl
@[simp] theorem State.setLanes_at_sessionOf (h : Handle) : (s.setLanes L).sessionOf h = s.sessionOf h := rfl
@[simp] theorem State.setLanes_at_jobOf (h : Handle) : (s.setLanes L).jobOf h = s.jobOf h := rfl
@[simp] theorem State.setLanes_at_slotOf (h : SlotHandle) : (s.setLanes L).slotOf h = s.slotOf h := rfl
@[simp] theorem State.setLanes_at_jobHandle (n : Nat) : (s.setLanes L).jobHandle n = s.jobHandle n := rfl
@[simp] theorem State.setLanes_at_alive : (s.setLanes L).alive = s.alive := rfl
@[simp] theorem State.setLanes_at_up : (s.setLanes L).up = s.up := rfl
@[simp] theorem State.setLanes_at_epoch : (s.setLanes L).epoch = s.epoch := rfl
@[simp] theorem State.setLanes_at_seen (n : Nat) : (s.setLanes L).seen n = s.seen n := rfl
@[simp] theorem State.setLanes_at_mayColour (n : Nat) : (s.setLanes L).mayColour n = s.mayColour n := rfl
@[simp] theorem State.setLanes_at_mayScan (n : Nat) : (s.setLanes L).mayScan n = s.mayScan n := rfl
@[simp] theorem State.setLanes_at_needsSession (n : Nat) : (s.setLanes L).needsSession n = s.needsSession n := rfl
@[simp] theorem State.setLanes_at_unlimited (n : Nat) : (s.setLanes L).unlimited n = s.unlimited n := rfl
@[simp] theorem State.setLanes_at_available (n : Nat) : (s.setLanes L).available n = s.available n := rfl
@[simp] theorem State.setLanes_at_lockoutLeft (n : Nat) : (s.setLanes L).lockoutLeft n = s.lockoutLeft n := rfl
@[simp] theorem State.setLanes_at_accountRefusal (n : Nat) : (s.setLanes L).accountRefusal n = s.accountRefusal n := rfl
@[simp] theorem State.setLanes_at_credentialMatches (n : Nat) (p : List Byte) : (s.setLanes L).credentialMatches n p = s.credentialMatches n p := rfl
@[simp] theorem State.setLanes_at_keyGranted (h : SlotHandle) (j : Handle) (u : KeyUse) : (s.setLanes L).keyGranted h j u = s.keyGranted h j u := rfl
@[simp] theorem State.setLanes_at_slotKey (h : SlotHandle) : (s.setLanes L).slotKey h = s.slotKey h := rfl
@[simp] theorem State.setLanes_at_bandSlot (i : Nat) : (s.setLanes L).bandSlot i = s.bandSlot i := rfl
@[simp] theorem State.setLanes_at_scanSlot : (s.setLanes L).scanSlot = s.scanSlot := rfl
@[simp] theorem State.setLanes_at_lineAbnormal (n : Nat) : (s.setLanes L).lineAbnormal n = s.lineAbnormal n := rfl
@[simp] theorem State.setLanes_at_abnormal : (s.setLanes L).abnormal = s.abnormal := rfl
@[simp] theorem State.setLanes_at_engineDeparted : (s.setLanes L).engineDeparted = s.engineDeparted := rfl
@[simp] theorem State.setLanes_at_scannerDeparted : (s.setLanes L).scannerDeparted = s.scannerDeparted := rfl
@[simp] theorem State.setLanes_at_privacyDeparted : (s.setLanes L).privacyDeparted = s.privacyDeparted := rfl
@[simp] theorem State.setLanes_at_knownEntry (id : BitVec 64) : (s.setLanes L).knownEntry id = s.knownEntry id := rfl
@[simp] theorem State.setLanes_at_jobRefusal (h : Handle) (b : Bool) : (s.setLanes L).jobRefusal h b = s.jobRefusal h b := rfl
@[simp] theorem State.setLanes_at_jobAccount (h : Handle) : (s.setLanes L).jobAccount h = s.jobAccount h := rfl
@[simp] theorem State.setLanes_at_jobKind (h : Handle) : (s.setLanes L).jobKind h = s.jobKind h := rfl
@[simp] theorem State.setLanes_at_heldByOther (h : Handle) : (s.setLanes L).heldByOther h = s.heldByOther h := rfl
@[simp] theorem State.setLanes_at_runningRefusal : (s.setLanes L).runningRefusal = s.runningRefusal := rfl
@[simp] theorem State.setLanes_at_supplyClass (n : Nat) : (s.setLanes L).supplyClass n = s.supplyClass n := rfl
@[simp] theorem State.setLanes_at_cartEntry (n : Nat) : (s.setLanes L).cartEntry n = s.cartEntry n := rfl
@[simp] theorem State.setLanes_at_accountEntry (n : Nat) : (s.setLanes L).accountEntry n = s.accountEntry n := rfl
@[simp] theorem State.setLanes_at_accountInUse (n : Nat) : (s.setLanes L).accountInUse n = s.accountInUse n := rfl
@[simp] theorem State.setLanes_at_freshAccount (n : Nat) : (s.setLanes L).freshAccount n = s.freshAccount n := rfl
@[simp] theorem State.setLanes_at_writeBase (n : Nat) : (s.setLanes L).writeBase n = s.writeBase n := rfl
@[simp] theorem State.setLanes_at_committed (n : Nat) : (s.setLanes L).committed n = s.committed n := rfl
@[simp] theorem State.setLanes_at_quotaInEffect (n : Nat) (a : WriteArgs) : (s.setLanes L).quotaInEffect n a = s.quotaInEffect n a := rfl
@[simp] theorem State.setLanes_at_writtenRecord (n : Nat) (a : WriteArgs) : (s.setLanes L).writtenRecord n a = s.writtenRecord n a := rfl
@[simp] theorem State.setLanes_at_openSessionRefusal (n : Nat) : (s.setLanes L).openSessionRefusal n = s.openSessionRefusal n := rfl
@[simp] theorem State.setLanes_at_sessionAccount (h : Handle) : (s.setLanes L).sessionAccount h = s.sessionAccount h := rfl
@[simp] theorem State.setLanes_at_ownSession (h : Option Handle) (n : Nat) : (s.setLanes L).ownSession h n = s.ownSession h n := rfl
@[simp] theorem State.setLanes_at_freeEntry : (s.setLanes L).freeEntry = s.freeEntry := rfl
@[simp] theorem State.setLanes_at_openJobRefusal (a : OpenJobArgs) : (s.setLanes L).openJobRefusal a = s.openJobRefusal a := rfl
@[simp] theorem State.setLanes_at_resumeGrant (j : Job) (u : Nat) : (s.setLanes L).resumeGrant j u = s.resumeGrant j u := rfl
@[simp] theorem State.setLanes_at_listFull (h : Handle) : (s.setLanes L).listFull h = s.listFull h := rfl
@[simp] theorem State.setLanes_at_freeSlot : (s.setLanes L).freeSlot = s.freeSlot := rfl
@[simp] theorem State.setLanes_at_attachedTo (h : SlotHandle) (j : Handle) : (s.setLanes L).attachedTo h j = s.attachedTo h j := rfl
@[simp] theorem State.setLanes_at_sessionRefusal (j : Handle) (h : SlotHandle) : (s.setLanes L).sessionRefusal j h = s.sessionRefusal j h := rfl
@[simp] theorem State.setLanes_at_ownerRefusal (j : Handle) (h : SlotHandle) : (s.setLanes L).ownerRefusal j h = s.ownerRefusal j h := rfl
@[simp] theorem State.setLanes_at_destroyRefusal (h : SlotHandle) (j e : Option Handle) : (s.setLanes L).destroyRefusal h j e = s.destroyRefusal h j e := rfl
@[simp] theorem State.setLanes_at_digest : (s.setLanes L).digest = s.digest := rfl
@[simp] theorem State.setLanes_at_dwelled : (s.setLanes L).dwelled = s.dwelled := rfl
@[simp] theorem State.setLanes_at_authorised (j : Handle) (h : SlotHandle) : (s.setLanes L).authorised j h = s.authorised j h := rfl
@[simp] theorem State.setLanes_at_cipherRefusal (a : ScanArgs) (u : KeyUse) : (s.setLanes L).cipherRefusal a u = s.cipherRefusal a u := rfl
@[simp] theorem State.setLanes_at_cartridgeEntries : (s.setLanes L).cartridgeEntries = s.cartridgeEntries := rfl
@[simp] theorem State.setLanes_at_readWords (a n : Nat) : (s.setLanes L).readWords a n = s.readWords a n := by
  induction n generalizing a with
  | zero => rfl
  | succ n ih => simp only [State.readWords, State.setLanes_env, State.setLanes_mem, ih]
@[simp] theorem State.setLanes_at_readBytes (a n : Nat) : (s.setLanes L).readBytes a n = s.readBytes a n := rfl
@[simp] theorem State.setLanes_at_badBandSlot (a : PrintArgs) : (s.setLanes L).badBandSlot a = s.badBandSlot a := rfl
@[simp] theorem State.setLanes_at_printRefusal12 (a : PrintArgs) : (s.setLanes L).printRefusal12 a = s.printRefusal12 a := rfl
@[simp] theorem State.setLanes_at_printRefusal37 (a : PrintArgs) : (s.setLanes L).printRefusal37 a = s.printRefusal37 a := rfl
@[simp] theorem State.setLanes_at_scanRefusal36 (a : ScanArgs) : (s.setLanes L).scanRefusal36 a = s.scanRefusal36 a := rfl
@[simp] theorem State.setLanes_at_faultTime : (s.setLanes L).faultTime = s.faultTime := rfl
@[simp] theorem State.setLanes_at_bufferIn (c : BufferCond) : (s.setLanes L).bufferIn c = s.bufferIn c := rfl
@[simp] theorem State.setLanes_at_writingBuffer : (s.setLanes L).writingBuffer = s.writingBuffer := rfl
@[simp] theorem State.setLanes_at_printBandsUnder (h : SlotHandle) : (s.setLanes L).printBandsUnder h = s.printBandsUnder h := rfl
@[simp] theorem State.setLanes_at_sessionInFlight (e : Nat) : (s.setLanes L).sessionInFlight e = s.sessionInFlight e := rfl
@[simp] theorem State.setLanes_at_holdInFlight (e : EngineHold) : (s.setLanes L).holdInFlight e = s.holdInFlight e := rfl
@[simp] theorem State.setLanes_at_readCipherLists (n a d : Nat) : (s.setLanes L).readCipherLists n a d = s.readCipherLists n a d := by
  simp only [State.readCipherLists, State.setLanes_at_readWords]

/-! ### What the updates do -/

@[simp] theorem State.setLanes_putRecord (n : Nat) (r : AccountRecord) : (s.setLanes L).putRecord n r = (s.putRecord n r).setLanes L := rfl
@[simp] theorem State.setLanes_writeRecord (n : Nat) (r : AccountRecord) : (s.setLanes L).writeRecord n r = (s.writeRecord n r).setLanes L := rfl
@[simp] theorem State.setLanes_putAcct (n : Nat) (a : AccountVolatile) : (s.setLanes L).putAcct n a = (s.putAcct n a).setLanes L := rfl
@[simp] theorem State.setLanes_addReserved (n m : Nat) : (s.setLanes L).addReserved n m = (s.addReserved n m).setLanes L := rfl
@[simp] theorem State.setLanes_subReserved (n m : Nat) : (s.setLanes L).subReserved n m = (s.subReserved n m).setLanes L := rfl
@[simp] theorem State.setLanes_putSession (n : Nat) (x : Session) : (s.setLanes L).putSession n x = (s.putSession n x).setLanes L := rfl
@[simp] theorem State.setLanes_putJob (n : Nat) (x : Job) : (s.setLanes L).putJob n x = (s.putJob n x).setLanes L := rfl
@[simp] theorem State.setLanes_putSlot (n : Nat) (x : KeySlot) : (s.setLanes L).putSlot n x = (s.putSlot n x).setLanes L := rfl
@[simp] theorem State.setLanes_putCart (n : Nat) (x : Cartridge) : (s.setLanes L).putCart n x = (s.putCart n x).setLanes L := rfl
@[simp] theorem State.setLanes_putBuffer (n : Nat) (x : Buffer) : (s.setLanes L).putBuffer n x = (s.putBuffer n x).setLanes L := rfl
@[simp] theorem State.setLanes_raise (c : Cause) : (s.setLanes L).raise c = (s.raise c).setLanes L := rfl
@[simp] theorem State.setLanes_capture (k : FaultKind) (l a : Option Nat) (d : Nat) : (s.setLanes L).capture k l a d = (s.capture k l a d).setLanes L := rfl
@[simp] theorem State.setLanes_captureMemory (k : FaultKind) (l a : Nat) : (s.setLanes L).captureMemory k l a = (s.captureMemory k l a).setLanes L := rfl
@[simp] theorem State.setLanes_writeKnown (l : List KnownCartridge) : (s.setLanes L).writeKnown l = (s.writeKnown l).setLanes L := rfl
@[simp] theorem State.setLanes_writeMeters (m : Meters) : (s.setLanes L).writeMeters m = (s.writeMeters m).setLanes L := rfl
@[simp] theorem State.setLanes_setMem (m : Memory) : (s.setLanes L).setMem m = (s.setMem m).setLanes L := rfl
@[simp] theorem State.setLanes_writeAccount (n : Nat) (a : WriteArgs) : (s.setLanes L).writeAccount n a = (s.writeAccount n a).setLanes L := rfl
@[simp] theorem State.setLanes_appendSlot (i : Nat) (h : SlotHandle) : (s.setLanes L).appendSlot i h = (s.appendSlot i h).setLanes L := rfl

@[simp] theorem State.setLanes_touchSession (h : Handle) : (s.setLanes L).touchSession h = (s.touchSession h).setLanes L := by
  simp only [State.touchSession, State.setLanes_at_sessionOf]
  split <;> rfl

@[simp] theorem State.setLanes_touchOptSession (h : Option Handle) :
    (s.setLanes L).touchOptSession h = (s.touchOptSession h).setLanes L := by
  cases h with
  | none => rfl
  | some h => exact s.setLanes_touchSession L h

@[simp] theorem State.setLanes_touchJob (h : Handle) : (s.setLanes L).touchJob h = (s.touchJob h).setLanes L := by
  simp only [State.touchJob, State.setLanes_at_jobOf]
  split
  · rfl
  · exact s.setLanes_touchOptSession L _

@[simp] theorem State.setLanes_touchHold (h : Handle) : (s.setLanes L).touchHold h = (s.touchHold h).setLanes L := by
  simp only [State.touchHold, State.setLanes_hold]
  split
  · rfl
  · split <;> rfl

@[simp] theorem State.setLanes_readAccount (n : Nat) : (s.setLanes L).readAccount n = (s.readAccount n).setLanes L := by
  rcases s.readAccount_cases n with ⟨h, e⟩ | ⟨h, rfl, ⟨hz, e⟩ | ⟨hz, e⟩⟩ | ⟨h, h0, ⟨hd, e⟩ | ⟨hd, e⟩⟩ <;> rw [e] <;>
    rcases (s.setLanes L).readAccount_cases _ with ⟨h', e'⟩ | ⟨h', hn, ⟨hz', e'⟩ | ⟨hz', e'⟩⟩ | ⟨h', h0', ⟨hd', e'⟩ | ⟨hd', e'⟩⟩ <;>
    rw [e'] <;> (simp_all; try rfl)

@[simp] theorem State.setLanes_pumpCore : (s.setLanes L).pumpCore = s.pumpCore.setLanes L := by
  cases hc : s.core.canTake with
  | false => simp [State.pumpCore, hc]
  | true =>
    cases hn : s.core.nextPath with
    | none => simp [State.pumpCore, hc, hn]
    | some p =>
      cases p with
      | print =>
        cases hq : s.core.printQueue with
        | nil => simp [State.pumpCore, hc, hn, hq]
        | cons i rest => simp [State.pumpCore, hc, hn, hq]; rfl
      | scan =>
        cases hq : s.core.scanWaiting with
        | none => simp [State.pumpCore, hc, hn, hq]
        | some i => simp [State.pumpCore, hc, hn, hq]; rfl

/-! ### The answer of a ticket's service -/

/-- The service of a ticket that ends in its close: it is enough to follow the kind's rules from a state that differs from the
command's in its lanes only. -/
theorem Serves.answers {env : Env} {s v : State} {kind : TicketKind} {k : Ticket} (h : Serves env s kind k) (gateW13 : Nat)
    {body : Ticket → State → State} {code : ReturnCode} {w13 w14 : Nat} {ended truncated : Bool}
    (hl : v.lanes = (s.begin env).lanes) (he : v.env = env)
    (hb : ∀ L, body k ((s.begin env).setLanes L) = (v.setLanes L).close kind.lane code w13 w14 ended truncated) :
    command env s (serve kind gateW13 body) = .next (v.answered kind.lane k code w13 w14 ended truncated) := by
  have hs := (State.serving_some h.1).2.1
  rw [command_next, serve_body h, State.beginService_setLanes, hb]
  have := State.close_served (b := s.begin env) (u := v.setLanes ((s.begin env).beginService kind.lane).lanes) hs h.2.2 rfl
    (by simp [he]) code w13 w14 ended truncated
  rw [this, ← hl]
  rfl

/-- The service of a ticket that goes on after its start. -/
theorem Serves.begun {env : Env} {s v : State} {kind : TicketKind} {k : Ticket} (h : Serves env s kind k) (gateW13 : Nat)
    {body : Ticket → State → State} (hl : v.lanes = (s.begin env).lanes)
    (hb : ∀ L, body k ((s.begin env).setLanes L) = v.setLanes L) :
    command env s (serve kind gateW13 body) = .next ((v.underService kind.lane k).finish) := by
  have hs := (State.serving_some h.1).2.1
  rw [command_next, serve_body h, State.beginService_setLanes, hb, State.beginService_some hs]
  simp only [State.underService, State.lane, hl, State.putLane, State.setLanes]

end Sys2Proof.Machine
end

