-- ==== Sys2Proof/WellFormed.lean ====
section
/-! DEFINITION. The operands a command can carry: what an outside agent is able to supply. `exec` gives every command
a meaning all the same; these checks say which operands stand for something that can happen. -/

namespace Sys2Proof

/-- An address range lies in the 32-bit address space. -/
def rangeOk (r : Nat × Nat) : Bool := r.1 + r.2 ≤ 2 ^ 32

/-- A decayed area exists and holds values of its width. -/
def Decay.ok : Decay → Bool
  | .account n => n < 512
  | .settings => true
  | .knownList => true
  | .meters m => m.mono < 2 ^ 64 && m.colour < 2 ^ 64 && m.spoiled < 2 ^ 64 && m.scanned < 2 ^ 64 && m.toner < 2 ^ 64
  | .startCount n => n < 2 ^ 32

/-- The environment of a command. -/
def Env.ok (e : Env) : Bool :=
  e.stores.all (fun c => c.1 < 2 ^ 32) && e.badReads.all rangeOk && e.badWrites.all rangeOk && e.decayed.all Decay.ok

/-- An ignored write is one that has no behaviour: a Device write with 1 in the restart field (bits 3..0) is a
RESTART instead (R168). -/
def IgnoredWrite.ok : IgnoredWrite → Bool
  | .notice _ => true
  | .device v => v.toNat % 16 ≠ 1

/-- The operands of a command. -/
def Instr.wellFormed : Instr → Bool
  | .powerOn e _ => e.ok
  | .resetInputAssert => true
  | .resetInputRelease e _ => e.ok
  | .restart e v _ => e.ok && v.toNat % 16 = 1
  | .startEnd e => e.ok
  | .post _ => true
  | .noticeRead => true
  | .noticeEnableWrite _ => true
  | .registerWriteIgnored w => w.ok
  | .fetch e _ => e.ok
  | .setAccount e => e.ok
  | .readAccounts e => e.ok
  | .resetPeriod e => e.ok
  | .openSession e => e.ok
  | .closeSession e => e.ok
  | .sessionIdleExpiry e n => e.ok && n < 8
  | .lockoutExpiry e n => e.ok && 1 ≤ n && n < 512
  | .openJob e => e.ok
  | .resumeJob e => e.ok
  | .endJob e => e.ok
  | .takeHold e => e.ok
  | .releaseHold e => e.ok
  | .engineHoldIdleExpiry e => e.ok
  | .openSlot e => e.ok
  | .keepSlot e => e.ok
  | .attachSlot e => e.ok
  | .destroySlot e => e.ok
  | .heldSlotExpiry e n => e.ok && n < 32
  | .configure e => e.ok
  | .statusDigest e => e.ok
  | .clearFaults e => e.ok
  | .resumeService e => e.ok
  | .resumeServiceTestEnd e _ => e.ok
  | .printImpression e => e.ok
  | .bandReadDone e n => e.ok && n < 256
  | .cipherBandDone e => e.ok
  | .engineDemand e _ _ => e.ok
  | .engineOutcome e _ _ => e.ok
  | .scanPage e => e.ok
  | .scannerLine e _ => e.ok
  | .scannerPageEnd e => e.ok
  | .scannerError e => e.ok
  | .bandWriteDone e => e.ok
  | .encipherBands e => e.ok
  | .decipherBands e => e.ok
  | .sourceReadDone e => e.ok
  | .periodicSelfTest => true
  | .periodicSelfTestEnd e _ => e.ok
  | .senseLineEdge e _ _ => e.ok
  | .checkCartridge e => e.ok
  | .readCartridges e => e.ok
  | .procedureStart e => e.ok
  | .attemptSend => true
  | .requestFrameDone => true
  | .quietWaitTimeout e => e.ok
  | .responseFrame e _ => e.ok
  | .responseDeadline e => e.ok
  | .linkLine e => e.ok
  | .linkLineRecovered => true
  | .lossOfPower _ => true

end Sys2Proof
end

