-- ==== Sys2Proof/Laws/PerInstr.lean ====
section
/-! SUPPORT. A statement about every command as syntax: the operands of a well-formed command hold a well-formed environment. -/

namespace Sys2Proof

/-- The environment a command carries. -/
def Instr.env? : Instr → Option Env
  | .powerOn e _ => some e
  | .resetInputAssert => none
  | .resetInputRelease e _ => some e
  | .restart e _ _ => some e
  | .startEnd e => some e
  | .post _ => none
  | .noticeRead => none
  | .noticeEnableWrite _ => none
  | .registerWriteIgnored _ => none
  | .fetch e _ => some e
  | .setAccount e => some e
  | .readAccounts e => some e
  | .resetPeriod e => some e
  | .openSession e => some e
  | .closeSession e => some e
  | .sessionIdleExpiry e _ => some e
  | .lockoutExpiry e _ => some e
  | .openJob e => some e
  | .resumeJob e => some e
  | .endJob e => some e
  | .takeHold e => some e
  | .releaseHold e => some e
  | .engineHoldIdleExpiry e => some e
  | .openSlot e => some e
  | .keepSlot e => some e
  | .attachSlot e => some e
  | .destroySlot e => some e
  | .heldSlotExpiry e _ => some e
  | .configure e => some e
  | .statusDigest e => some e
  | .clearFaults e => some e
  | .resumeService e => some e
  | .resumeServiceTestEnd e _ => some e
  | .printImpression e => some e
  | .bandReadDone e _ => some e
  | .cipherBandDone e => some e
  | .engineDemand e _ _ => some e
  | .engineOutcome e _ _ => some e
  | .scanPage e => some e
  | .scannerLine e _ => some e
  | .scannerPageEnd e => some e
  | .scannerError e => some e
  | .bandWriteDone e => some e
  | .encipherBands e => some e
  | .decipherBands e => some e
  | .sourceReadDone e => some e
  | .periodicSelfTest => none
  | .periodicSelfTestEnd e _ => some e
  | .senseLineEdge e _ _ => some e
  | .checkCartridge e => some e
  | .readCartridges e => some e
  | .procedureStart e => some e
  | .attemptSend => none
  | .requestFrameDone => none
  | .quietWaitTimeout e => some e
  | .responseFrame e _ => some e
  | .responseDeadline e => some e
  | .linkLine e => some e
  | .linkLineRecovered => none
  | .lossOfPower _ => none

namespace Laws.Environment

/-- A well-formed command carries a well-formed environment, if it carries one. -/
def Statement (i : Instr) : Prop := ∀ e, i.env? = some e → i.wellFormed = true → e.ok = true

theorem powerOn (env : Env) (start : StartInputs) : Statement (.powerOn env start) :=
  fun _ h hw => Option.some.inj h ▸ hw

theorem resetInputAssert : Statement .resetInputAssert :=
  fun _ h _ => nomatch h

theorem resetInputRelease (env : Env) (start : StartInputs) : Statement (.resetInputRelease env start) :=
  fun _ h hw => Option.some.inj h ▸ hw

theorem restart (env : Env) (value : Word) (start : StartInputs) : Statement (.restart env value start) :=
  fun _ h hw => Option.some.inj h ▸ (Bool.and_eq_true_iff.mp hw).1

theorem startEnd (env : Env) : Statement (.startEnd env) :=
  fun _ h hw => Option.some.inj h ▸ hw

theorem post (value : Word) : Statement (.post value) :=
  fun _ h _ => nomatch h

theorem noticeRead : Statement .noticeRead :=
  fun _ h _ => nomatch h

theorem noticeEnableWrite (value : Word) : Statement (.noticeEnableWrite value) :=
  fun _ h _ => nomatch h

theorem registerWriteIgnored (write : IgnoredWrite) : Statement (.registerWriteIgnored write) :=
  fun _ h _ => nomatch h

theorem fetch (env : Env) (lane : Fin 4) : Statement (.fetch env lane) :=
  fun _ h hw => Option.some.inj h ▸ hw

theorem setAccount (env : Env) : Statement (.setAccount env) :=
  fun _ h hw => Option.some.inj h ▸ hw

theorem readAccounts (env : Env) : Statement (.readAccounts env) :=
  fun _ h hw => Option.some.inj h ▸ hw

theorem resetPeriod (env : Env) : Statement (.resetPeriod env) :=
  fun _ h hw => Option.some.inj h ▸ hw

theorem openSession (env : Env) : Statement (.openSession env) :=
  fun _ h hw => Option.some.inj h ▸ hw

theorem closeSession (env : Env) : Statement (.closeSession env) :=
  fun _ h hw => Option.some.inj h ▸ hw

theorem sessionIdleExpiry (env : Env) (entry : Nat) : Statement (.sessionIdleExpiry env entry) :=
  fun _ h hw => Option.some.inj h ▸ (Bool.and_eq_true_iff.mp hw).1

theorem lockoutExpiry (env : Env) (account : Nat) : Statement (.lockoutExpiry env account) :=
  fun _ h hw => Option.some.inj h ▸ (Bool.and_eq_true_iff.mp (Bool.and_eq_true_iff.mp hw).1).1

theorem openJob (env : Env) : Statement (.openJob env) :=
  fun _ h hw => Option.some.inj h ▸ hw

theorem resumeJob (env : Env) : Statement (.resumeJob env) :=
  fun _ h hw => Option.some.inj h ▸ hw

theorem endJob (env : Env) : Statement (.endJob env) :=
  fun _ h hw => Option.some.inj h ▸ hw

theorem takeHold (env : Env) : Statement (.takeHold env) :=
  fun _ h hw => Option.some.inj h ▸ hw

theorem releaseHold (env : Env) : Statement (.releaseHold env) :=
  fun _ h hw => Option.some.inj h ▸ hw

theorem engineHoldIdleExpiry (env : Env) : Statement (.engineHoldIdleExpiry env) :=
  fun _ h hw => Option.some.inj h ▸ hw

theorem openSlot (env : Env) : Statement (.openSlot env) :=
  fun _ h hw => Option.some.inj h ▸ hw

theorem keepSlot (env : Env) : Statement (.keepSlot env) :=
  fun _ h hw => Option.some.inj h ▸ hw

theorem attachSlot (env : Env) : Statement (.attachSlot env) :=
  fun _ h hw => Option.some.inj h ▸ hw

theorem destroySlot (env : Env) : Statement (.destroySlot env) :=
  fun _ h hw => Option.some.inj h ▸ hw

theorem heldSlotExpiry (env : Env) (slot : Nat) : Statement (.heldSlotExpiry env slot) :=
  fun _ h hw => Option.some.inj h ▸ (Bool.and_eq_true_iff.mp hw).1

theorem configure (env : Env) : Statement (.configure env) :=
  fun _ h hw => Option.some.inj h ▸ hw

theorem statusDigest (env : Env) : Statement (.statusDigest env) :=
  fun _ h hw => Option.some.inj h ▸ hw

theorem clearFaults (env : Env) : Statement (.clearFaults env) :=
  fun _ h hw => Option.some.inj h ▸ hw

theorem resumeService (env : Env) : Statement (.resumeService env) :=
  fun _ h hw => Option.some.inj h ▸ hw

theorem resumeServiceTestEnd (env : Env) (passes : Bool) : Statement (.resumeServiceTestEnd env passes) :=
  fun _ h hw => Option.some.inj h ▸ hw

theorem printImpression (env : Env) : Statement (.printImpression env) :=
  fun _ h hw => Option.some.inj h ▸ hw

theorem bandReadDone (env : Env) (entry : Nat) : Statement (.bandReadDone env entry) :=
  fun _ h hw => Option.some.inj h ▸ (Bool.and_eq_true_iff.mp hw).1

theorem cipherBandDone (env : Env) : Statement (.cipherBandDone env) :=
  fun _ h hw => Option.some.inj h ▸ hw

theorem engineDemand (env : Env) (number : BitVec 8) (plane : Plane) : Statement (.engineDemand env number plane) :=
  fun _ h hw => Option.some.inj h ▸ hw

theorem engineOutcome (env : Env) (number : BitVec 8) (delivered : Bool) : Statement (.engineOutcome env number delivered) :=
  fun _ h hw => Option.some.inj h ▸ hw

theorem scanPage (env : Env) : Statement (.scanPage env) :=
  fun _ h hw => Option.some.inj h ▸ hw

theorem scannerLine (env : Env) (bytes : List Byte) : Statement (.scannerLine env bytes) :=
  fun _ h hw => Option.some.inj h ▸ hw

theorem scannerPageEnd (env : Env) : Statement (.scannerPageEnd env) :=
  fun _ h hw => Option.some.inj h ▸ hw

theorem scannerError (env : Env) : Statement (.scannerError env) :=
  fun _ h hw => Option.some.inj h ▸ hw

theorem bandWriteDone (env : Env) : Statement (.bandWriteDone env) :=
  fun _ h hw => Option.some.inj h ▸ hw

theorem encipherBands (env : Env) : Statement (.encipherBands env) :=
  fun _ h hw => Option.some.inj h ▸ hw

theorem decipherBands (env : Env) : Statement (.decipherBands env) :=
  fun _ h hw => Option.some.inj h ▸ hw

theorem sourceReadDone (env : Env) : Statement (.sourceReadDone env) :=
  fun _ h hw => Option.some.inj h ▸ hw

theorem periodicSelfTest : Statement .periodicSelfTest :=
  fun _ h _ => nomatch h

theorem periodicSelfTestEnd (env : Env) (passes : Bool) : Statement (.periodicSelfTestEnd env passes) :=
  fun _ h hw => Option.some.inj h ▸ hw

theorem senseLineEdge (env : Env) (line : Fin 8) (high : Bool) : Statement (.senseLineEdge env line high) :=
  fun _ h hw => Option.some.inj h ▸ hw

theorem checkCartridge (env : Env) : Statement (.checkCartridge env) :=
  fun _ h hw => Option.some.inj h ▸ hw

theorem readCartridges (env : Env) : Statement (.readCartridges env) :=
  fun _ h hw => Option.some.inj h ▸ hw

theorem procedureStart (env : Env) : Statement (.procedureStart env) :=
  fun _ h hw => Option.some.inj h ▸ hw

theorem attemptSend : Statement .attemptSend :=
  fun _ h _ => nomatch h

theorem requestFrameDone : Statement .requestFrameDone :=
  fun _ h _ => nomatch h

theorem quietWaitTimeout (env : Env) : Statement (.quietWaitTimeout env) :=
  fun _ h hw => Option.some.inj h ▸ hw

theorem responseFrame (env : Env) (bytes : List Byte) : Statement (.responseFrame env bytes) :=
  fun _ h hw => Option.some.inj h ▸ hw

theorem responseDeadline (env : Env) : Statement (.responseDeadline env) :=
  fun _ h hw => Option.some.inj h ▸ hw

theorem linkLine (env : Env) : Statement (.linkLine env) :=
  fun _ h hw => Option.some.inj h ▸ hw

theorem linkLineRecovered : Statement .linkLineRecovered :=
  fun _ h _ => nomatch h

theorem lossOfPower (writes : Nat) : Statement (.lossOfPower writes) :=
  fun _ h _ => nomatch h

end Laws.Environment

end Sys2Proof
end

