-- ==== Sys2Proof/Tests/Slice0.lean ====
section
/-! SUPPORT. Tests: the checks of well-formedness, small steps from the examples and tables of the specification, and for every
obligation with hypotheses a concrete state and operands that meet them all. -/

namespace Sys2Proof.Tests

set_option Elab.async false

open Sys2Proof.Machine

/-! ### Small states -/

/-- A part in RUNNING 1000 seconds after its start. -/
def running : State := { State.reset with dev := { State.reset.dev with op := .running, clock := 1000 } }

/-- The state with a ticket in service on a lane. -/
def inLane (lane : Fin 4) (k : Ticket) (s : State) : State :=
  { s with lanes := s.lanes.set lane { queue := [], service := some k } }

/-- A ticket at address 4096 with a kind code, a lane echo, argument words and a closing word WAITING. -/
def ticket (code lane : Nat) (args : List (Nat × Nat)) : Ticket :=
  { address := 4096, begun := false,
    words := (List.range 16).map (fun i =>
      if i = 0 then BitVec.ofNat 32 (code + lane * 256)
      else if i = 15 then 1
      else BitVec.ofNat 32 ((args.find? (fun p => p.1 = i)).elim 0 (·.2))) }

/-- An ACTIVE account with 10000 units that may do everything and has no credential. -/
def member : AccountRecord :=
  { AccountRecord.vacant with state := .active, mayColour := true, mayScan := true, quota := 10000, used := 40 }

/-- Account 5 is that member. -/
def enrolled : State := { running.putRecord 5 member with afterWrites := [] }

/-- Session 0, generation 1, of account 5. -/
def withSession : State :=
  (enrolled.putSession 0 { isOpen := true, gen := 1, account := 5, opened := 900, last := 950 }).putAcct 5
    { AccountVolatile.reset with session := some ⟨0, 1⟩ }

/-- A COPY job of account 5 under that session, entry 2, generation 3, with 5000 units free. -/
def job : Job :=
  { Job.freed 3 with state := .opened, kind := .copy, account := 5, session := some ⟨0, 1⟩, free := 5000, total := 7, charged := 2 }

/-- The field of its handle. -/
def jobField : Nat := 2 + 3 * 256

/-- The state with that job. -/
def withJob : State :=
  (withSession.putJob 2 job).putAcct 5 { AccountVolatile.reset with session := some ⟨0, 1⟩, reserved := 5000 }

/-- A LIVE slot of account 5 attached to that job. -/
def liveSlot : KeySlot :=
  { state := .live, gen := 7, owner := some 5, job := some ⟨2, 3⟩, uses := 15, page := 4, keep := 10, expiry := none, key := some 9 }

/-- The word of its handle. -/
def slotWord : Nat := 1 + 7 * 65536

/-- The state with that slot, number 1. -/
def withSlot : State := (withJob.putSlot 1 liveSlot).putJob 2 { job with slots := [⟨1, 7⟩] }

/-- The slot after its job has ended. -/
def heldSlot : KeySlot := { liveSlot with state := .held, job := none, expiry := some 1600 }

/-- A state with that HELD slot. -/
def withHeld : State := withJob.putSlot 1 heldSlot

/-- A VERIFIED cartridge. -/
def verified (slot : Nat) : Cartridge :=
  { auth := .verified, reason := none, id := some (BitVec.ofNat 64 (100 + slot)), kind := some slot,
    values := some { capacity := 1000000, remaining := 900000, level := .normal, useCount := 3, sinceWrite := 0 },
    unproven := false, recordOwed := false }

/-- The state with VERIFIED cartridges in all five supply slots. -/
def supplied (s : State) : State := supplySlots.foldl (fun s n => s.putCart n (verified n)) s

/-- A state with words in memory. -/
def withWords (a : Nat) (ws : List Word) (s : State) : State := { s with mem := s.mem.putWords a ws }

/-- What the command answers, when it answers a next state. -/
def after (c : Instr) (s : State) : State :=
  match exec c s with
  | .next t => t
  | _ => s

/-! ### Well-formedness: each check refuses an ill-formed term -/

theorem test_wf_calm : (Instr.setAccount .calm).wellFormed = true := by decide
theorem test_wf_store_outside : (Instr.setAccount { stores := [(2 ^ 32, 0)] }).wellFormed = false := by decide
theorem test_wf_bad_read_range : (Instr.statusDigest { badReads := [(2 ^ 32 - 1, 2)] }).wellFormed = false := by decide
theorem test_wf_bad_write_range : (Instr.linkLine { badWrites := [(0, 2 ^ 32 + 1)] }).wellFormed = false := by decide
theorem test_wf_decay_account : (Instr.startEnd { decayed := [.account 512] }).wellFormed = false := by decide
theorem test_wf_decay_meters :
    (Instr.startEnd { decayed := [.meters { toner := 2 ^ 64 }] }).wellFormed = false := by decide
theorem test_wf_decay_start_count : (Instr.startEnd { decayed := [.startCount (2 ^ 32)] }).wellFormed = false := by decide
theorem test_wf_restart_value : (Instr.restart .calm 0x10 ⟨0xFF, true⟩).wellFormed = false := by decide
theorem test_wf_ignored_restart : (Instr.registerWriteIgnored (.device 0x11)).wellFormed = false := by decide
theorem test_wf_session_entry : (Instr.sessionIdleExpiry .calm 8).wellFormed = false := by decide
theorem test_wf_lockout_account_zero : (Instr.lockoutExpiry .calm 0).wellFormed = false := by decide
theorem test_wf_lockout_account_beyond : (Instr.lockoutExpiry .calm 512).wellFormed = false := by decide
theorem test_wf_held_slot : (Instr.heldSlotExpiry .calm 32).wellFormed = false := by decide
theorem test_wf_band_entry : (Instr.bandReadDone .calm 256).wellFormed = false := by decide

/-! ### Small tests, expected values from the specification -/

/-- Section 8.2.1. -/
theorem test_crc8 : crc8 [1, 2] = 0xCC ∧ crc8 [1, 2, 0xCC] = 0 := by decide +kernel

/-- Section 3.10.1: weights of the four 2-bit values, coverage, toner, charge and hold. -/
theorem test_mono_page :
    [3, 2, 1, 0].map (fun v => weight (Settings.factory.curves.curve.get .k) (levelOf 2 v)) = [4079, 2720, 1360, 0] ∧
      meter (.ofSettings .factory .a) false 4800 ⟨0, 0, 0, 7070500000⟩ ⟨0, 0, 0, 7000⟩ true =
        { toner := ⟨0, 0, 0, 49387⟩, coverage := ⟨0, 0, 0, 513⟩, colour := false, tier := 1, charge := 125 } ∧
      (PrintCapture.ofSettings .factory .a).hold false = 250 := by decide +kernel

/-- Section 3.10.2. -/
theorem test_colour_page :
    meter (.ofSettings .factory .b) true 4000 ⟨8190000000, 4095000000, 0, 16380000000⟩ ⟨5000, 5000, 5000, 5000⟩ true =
      { toner := ⟨57206, 28603, 0, 114413⟩, coverage := ⟨1000, 500, 0, 2000⟩, colour := true, tier := 1, charge := 1000 } := by
  decide +kernel

/-- Section 1.3.1: quota 500 asked for with 620 used and 250 reserved is stored and reported as 870. -/
theorem test_setAccount_lowers_quota :
    let k := ticket 1 0 [(2, 17 + 65536), (3, 1), (4, 500)]
    let s := (running.putRecord 17 { member with quota := 1000, used := 620 }).putAcct 17 { AccountVolatile.reset with reserved := 250 }
    let t := after (.setAccount .calm) (inLane 0 k s)
    (t.record 17).quota = 870 ∧ t.mem.word (4096 + 52) = 870 ∧ t.mem.word (4096 + 56) = 1 := by decide +kernel

/-- Section 1.5.1: the fifth wrong credential, at 1022, locks the account until 1322. -/
theorem test_openSession_locks :
    let k := ticket 4 0 [(2, 42 + 3 * 65536)]
    let s := running.putRecord 42 { member with failed := 4, credential := none }
    let t := after (.openSession .calm) (inLane 0 k { s with dev := { s.dev with clock := 1022 } })
    (t.record 42).state = .locked ∧ (t.acct 42).lockoutEnd = some 1322 ∧ t.mem.word (4096 + 56) = 5 := by decide +kernel

/-- Section 1.5.1: at 1100 the LOCKED account answers with the 222 seconds left. -/
theorem test_openSession_locked :
    let k := ticket 4 0 [(2, 42)]
    let s := (running.putRecord 42 { member with state := .locked, failed := 5 }).putAcct 42
      { AccountVolatile.reset with lockoutEnd := some 1322 }
    let t := after (.openSession .calm) (inLane 0 k { s with dev := { s.dev with clock := 1100 } })
    t.mem.word (4096 + 56) = 222 := by decide +kernel

/-- Section 2.3.1: of 1000 less 400 used, 300 units are granted. -/
theorem test_openJob_grants :
    let k := ticket 6 0 [(2, 23), (3, 0xFFFF + 65536), (5, 300)]
    let s := running.putRecord 23 { member with quota := 1000, used := 400 }
    let t := after (.openJob .calm) (inLane 0 k s)
    (t.job 0).free = 300 ∧ (t.acct 23).reserved = 300 ∧ t.mem.word (4096 + 52) = 300 := by decide +kernel

/-- Section 2.3.1: Resume Job of 500 units under the quota of 1500. -/
theorem test_resumeJob_grants :
    let k := ticket 8 0 [(2, jobField), (3, 500)]
    let s := (withJob.putJob 2 { job with state := .quotaStopped, free := 0 }).putRecord 5 { member with quota := 1500, used := 775 }
    let t := after (.resumeJob .calm) (inLane 0 k (s.putAcct 5 .reset))
    (t.job 2).state = .opened ∧ (t.job 2).free = 500 ∧ t.mem.word (4096 + 52) = 500 := by decide +kernel

/-- R161: the closing word of the first start, DONE with BAD_STATE outside WITHDRAWN; R175. -/
theorem test_resumeService_refused :
    (after (.resumeService .calm) (inLane 0 (ticket 18 0 []) running)).mem.word (4096 + 60) = 3 + 3 * 256 + 65536 := by
  decide +kernel

/-- R158: after a Post to lane 1 it has 7 free places. -/
theorem test_post_places : (after (.post 65) running).postRead = 0x10008878 := by decide +kernel

/-- Section 12.5: START_END of the first start leaves RUNNING with epoch 1. -/
theorem test_startEnd_device : (after (.startEnd .calm) .reset).deviceRead = 0x03000101 := by decide +kernel

/-! ### Witnesses

For each obligation with hypotheses: concrete states and operands at which the hypotheses of a clause hold together. -/

/-- Where no write fails a ticket's words can be written. -/
theorem closes_of {s : State} (h : s.env.badWrites = []) (k : Ticket) : s.closesFreely k := by
  refine ⟨?_, ?_, ?_⟩ <;> simp [wordFails, failsAt, h]

/-- Memories with nothing written have the canonical form. -/
theorem canonical_of {s : State} (h : s.mem = []) (h' : s.shadowMem = []) (hw : s.afterWrites = []) : s.memoryCanonical := by
  unfold State.memoryCanonical
  rw [h, h', hw]
  exact ⟨Memory.empty_wf, Memory.empty_wf, nofun⟩

theorem closes_calm (s : State) (k : Ticket) : (s.begin .calm).closesFreely k := closes_of rfl k

/-- A ticket fetched on its lane is at the start of its service when the environment is calm and the state lets it be served. -/
theorem serves_calm {s : State} {kind : TicketKind} {k : Ticket} (h : s.serving kind = some k)
    (g : stateGate s.dev.op kind = none) : Serves .calm s kind k := ⟨h, g, closes_calm s k⟩

/-- A table of a state beyond its end reads as one value, so a law over its entries need be checked only below the end. -/
theorem forall_entries {α : Type} {n : Nat} {v : Vector α n} {d : α} {p : α → Prop} (h : ∀ i < n, p (entryAt v i d)) (hd : p d) :
    ∀ i, p (entryAt v i d) := by
  intro i
  rcases Nat.lt_or_ge i n with hi | hi
  · exact h i hi
  · simpa [entryAt, Vector.getElem?_eq_none hi] using hd

/-- A table all of whose entries are one. -/
theorem forall_replicate {α : Type} (n : Nat) {x d : α} {p : α → Prop} (hx : p x) (hd : p d) :
    ∀ i, p (entryAt (Vector.replicate n x) i d) :=
  forall_entries (fun i hi => by simpa [entryAt, hi] using hx) hd

/-- A table with one entry replaced. -/
theorem forall_putAt {α : Type} {n : Nat} {v : Vector α n} {d : α} {p : α → Prop} (h : ∀ i, p (entryAt v i d)) (k : Nat) {x : α}
    (hx : p x) : ∀ i, p (entryAt (putAt v k x) i d) := by
  intro j
  have hj : entryAt (putAt v k x) j d = entryAt v j d ∨ entryAt (putAt v k x) j d = x := by
    simp only [entryAt, putAt, Vector.getElem?_setIfInBounds]
    split <;> try split
    all_goals simp_all
  rcases hj with hj | hj <;> rw [hj]
  exacts [h j, hx]

/-- The law of the slots is about the slots alone. -/
theorem slotsLawful_of {s t : State} (h : s.slotsLawful) (e : t.slots = s.slots) : t.slotsLawful := by
  intro i
  unfold State.slot
  rw [e]
  exact h i

theorem oneSlot_lawful {x : KeySlot} (hx : x.lawful) {s : State} (e : s.slots = putAt (Vector.replicate 32 (.free 0)) 1 x) :
    s.slotsLawful := by
  intro i
  unfold State.slot
  rw [e]
  exact forall_putAt (p := KeySlot.lawful) (forall_replicate (p := KeySlot.lawful) (x := .free 0) 32 (show KeySlot.lawful (.free 0) from rfl)
    (show KeySlot.lawful (.free 0) from rfl)) 1 hx i

theorem withSlot_slotsLawful : withSlot.slotsLawful := oneSlot_lawful (x := liveSlot) ⟨rfl, rfl, rfl⟩ rfl

theorem withHeld_slotsLawful : withHeld.slotsLawful := oneSlot_lawful (x := heldSlot) ⟨rfl, rfl, rfl⟩ rfl

/-- A core as a reset leaves it is settled. -/
theorem settled_of_reset {s : State} (h : s.core = .reset) : s.coreSettled := by
  rw [State.coreSettled, h]
  exact fun _ => ⟨rfl, rfl⟩

/-! #### The queue and the register window -/

theorem witness_StepTakesFrontCommand :
    { State.reset with pending := [.noticeRead, .post 65] }.pending = [.noticeRead] ++ [.post 65] ∧ State.reset.pending = [] :=
  ⟨rfl, rfl⟩

theorem witness_EveryCommandCompletes : withSlot.env = .calm := rfl

/-- Both clauses, and both outcomes of a write that is not lost: a reserved bit, address 0, a full queue, and a place free. -/
theorem witness_PostQueuesOrDrops :
    (1 : Fin 4).val = (65 : Word).toNat % 4 ∧ { running with nrst := true }.alive = false ∧ running.alive = true ∧
      (69 : Word).toNat / 4 % 16 ≠ 0 ∧ (1 : Word).toNat / 64 = 0 ∧
      8 ≤ (({ running with lanes := running.lanes.set 1 ⟨List.replicate 8 64, none⟩ } : State).lane 1).queue.length := by
  decide +kernel

theorem witness_NoticeReadReturnsAndClears :
    ({ running with notice := 0x1FFF } : State).alive = true ∧ Answers .noticeRead running (after .noticeRead running) :=
  ⟨rfl, rfl⟩

theorem witness_NoticeEnableGovernsNint :
    ({ running with notice := 0x10, enable := 0x1FFF } : State).alive = true ∧
      ({ running with notice := 0x10, enable := 0x1FFF } : State).enable.getLsbD (Cause.dropped 0).bit = true ∧
      running.dev.clock < 2 ^ 32 ∧ Answers .noticeRead running (after .noticeRead running) ∧
      Answers (.noticeEnableWrite 5) running (after (.noticeEnableWrite 5) running) :=
  ⟨rfl, by decide, by decide, rfl, rfl⟩

/-- A part with two addresses waiting on lane 0. -/
def waiting (ws : List Word) : State :=
  withWords 4096 ws { running with lanes := running.lanes.set 0 { queue := [4096, 8192], service := none } }

theorem witness_FetchEndings :
    (waiting []).up = true ∧ (waiting []).lane 0 = { queue := [4096, 8192], service := none } ∧
      (((waiting []).begin { badReads := [(4100, 1)] }).readWords 4096 16).toOption = none ∧
      bits ((ticket 1 0 []).w 15) 1 0 = 1 ∧ wordFails [(4157, 1)] (4096 + 60) = true ∧
      (ticket 0x77 0 []).kind = none ∧ (ticket 1 1 []).kind = some .setAccount ∧ (ticket 1 1 []).echo ≠ 0 ∧
      (ticket 0x41 0 []).kind = some .printImpression ∧ TicketKind.printImpression.lane ≠ 0 := by decide +kernel

theorem witness_FetchEndings_read :
    ((waiting (ticket 1 0 []).words).begin .calm).readWords 4096 16 = .ok (ticket 1 0 []).words ∧
      ((waiting []).begin .calm).readWords 4096 16 = .ok (List.replicate 16 0) := ⟨by rfl, by rfl⟩

/-- A ticket of an unknown kind with a wrong echo too, one of whose closing words cannot be written. -/
theorem witness_FetchEndings_closing :
    let env : Env := { badWrites := [(4152, 1)] }
    let k := ticket 0x77 1 []
    (waiting k.words).up = true ∧ ((waiting k.words).begin env).readWords 4096 16 = .ok k.words ∧ k.kind = none ∧ k.echo ≠ 0 ∧
      bits (k.w 15) 1 0 = 1 ∧ wordFails env.badWrites (4096 + 56) = true := ⟨by decide +kernel, by rfl, by decide +kernel⟩

/-! #### Starts and resets -/

theorem witness_StartsBegin :
    { withSlot with nrst := true }.power = true ∧ { withSlot with nrst := true }.nrst = true ∧ withSlot.alive = true ∧
      (1 : Word).toNat % 16 = 1 ∧ (0x10 : Word).toNat % 16 ≠ 1 := by decide +kernel

theorem witness_StartChecksStoredAreas :
    Answers (.powerOn .calm ⟨0xFF, true⟩) withSlot (after (.powerOn .calm ⟨0xFF, true⟩) withSlot) ∧
      ∀ n, ((withSlot.begin .calm).record n).checkOk = true :=
  ⟨rfl, forall_putAt (p := fun r : AccountRecord => r.checkOk = true) (forall_replicate (p := fun r : AccountRecord => r.checkOk = true) 512 rfl rfl) 5 rfl⟩

/-- The state of a part in STARTING. -/
def startingUp : State := { withSlot with dev := State.reset.dev }

theorem witness_StartEnds :
    startingUp.alive = true ∧ startingUp.dev.op = .starting ∧ startingUp.dev.stopping = false ∧
      (startingUp.begin .calm).privacyDeparted = false ∧ (startingUp.begin .calm).link.queue = [] ∧
      ({ startingUp with dev := { startingUp.dev with stopping := true } } : State).dev.stopping = true := by decide +kernel

theorem witness_StartEnds_departed :
    let s : State := { startingUp with levels := 0xEF }
    s.alive = true ∧ s.dev.op = .starting ∧ s.dev.stopping = false ∧ (s.begin .calm).privacyDeparted = true ∧ s.startRests := by
  refine ⟨rfl, rfl, rfl, by decide +kernel, fun _ => ⟨rfl, rfl, rfl, rfl, rfl, rfl, by decide +kernel⟩⟩

theorem witness_ResetInputAndLossOfPower :
    withSlot.power = true ∧ withSlot.afterWrites = [] ∧ Stored.factory.same withSlot.stored (.account 5) = false := by decide +kernel

/-! #### Accounts and sessions -/

/-- Set Account WRITE of account 5: ACTIVE, MAY_COLOUR, a credential of 3 bytes, quota 100. -/
def writeTicket : Ticket := ticket 1 0 [(2, 5 + 65536), (3, 1 + 256 + 65536 + 3 * 2 ^ 24), (4, 100), (5, 0x313233)]

theorem witness_SetAccountAnswers_write :
    let s := inLane 0 writeTicket withJob
    let d := inLane 0 writeTicket (withJob.putRecord 5 { member with checkOk := false })
    Serves .calm s .setAccount writeTicket ∧ Serves .calm d .setAccount writeTicket ∧ bits (writeTicket.w 2) 15 0 = 5 ∧
      bits (writeTicket.w 2) 23 16 = 1 ∧ (WriteArgs.ofTicket writeTicket).isSome ∧
      (((s.begin .calm).found 5).acct 5).damaged = false ∧ (((d.begin .calm).found 5).acct 5).damaged = true :=
  ⟨serves_calm (by decide +kernel) (by decide +kernel), serves_calm (by decide +kernel) (by decide +kernel), by decide +kernel⟩

/-- An account number, an operation and a credential action out of range; and account 0. -/
theorem witness_SetAccountAnswers_refused :
    let tickets := [ticket 1 0 [(2, 512 + 65536), (3, 1)], ticket 1 0 [(2, 5 + 3 * 65536)], ticket 1 0 [(2, 5 + 65536), (3, 1 + 3 * 65536)]]
    (∀ k ∈ tickets, (inLane 0 k withJob).serving .setAccount = some k ∧
      (511 < bits (k.w 2) 15 0 ∨ (bits (k.w 2) 23 16 ≠ 1 ∧ bits (k.w 2) 23 16 ≠ 2) ∨
        (bits (k.w 2) 23 16 = 1 ∧ WriteArgs.ofTicket k = none))) ∧
      (inLane 0 (ticket 1 0 [(2, 2 * 65536)]) withJob).serving .setAccount = some (ticket 1 0 [(2, 2 * 65536)]) ∧
      stateGate withJob.dev.op .setAccount = none := by decide +kernel

/-- An account whose used and reserved units no quota of 32 bits can cover. -/
theorem witness_SetAccountAnswers_full :
    let s := inLane 0 writeTicket (withJob.putRecord 5 { member with used := 2 ^ 32 - 1 })
    let b := (s.begin .calm).found 5
    Serves .calm s .setAccount writeTicket ∧ (WriteArgs.ofTicket writeTicket).map (·.unlimited) = some false ∧
      (b.acct 5).damaged = false ∧ (b.record 5).state ≠ .vacant ∧ 2 ^ 32 ≤ (b.record 5).used + (b.acct 5).reserved :=
  ⟨serves_calm (by decide +kernel) (by decide +kernel), by decide +kernel⟩

/-- Set Account VACATE of account 5. -/
def vacateTicket : Ticket := ticket 1 0 [(2, 5 + 2 * 65536)]

theorem witness_SetAccountAnswers_busy :
    let s := inLane 0 vacateTicket withJob
    Serves .calm s .setAccount vacateTicket ∧ bits (vacateTicket.w 2) 15 0 = 5 ∧ bits (vacateTicket.w 2) 23 16 = 2 ∧
      ((s.begin .calm).acct 5).session.isSome = true :=
  ⟨serves_calm (by decide +kernel) (by decide +kernel), by decide +kernel⟩

/-- No work of the paths is under a handle where the core's band is of another one, no band waits and the scan path is at rest. -/
theorem noWork_of {b : State} {h : SlotHandle} (hc : b.core.band.all (fun c => decide (c.slot ≠ h)) = true)
    (hq : b.core.printQueue = []) (hs : b.scan.state = .idle) : b.noWorkUnder h := by
  refine ⟨fun c e => ?_, fun i e => ?_, fun _ => ⟨?_, ?_⟩⟩
  · simpa [e] using hc
  · simp [hq] at e
  · simp [hs]
  · simp [hs]

/-- An account with a HELD slot, while the core has a band of another slot. -/
theorem witness_SetAccountAnswers_vacate :
    let s := inLane 0 vacateTicket
      { enrolled.putSlot 1 heldSlot with core := { Core.reset with band := some ⟨.print, 0, ⟨4, 2⟩, false⟩ } }
    let b := s.begin .calm
    Serves .calm s .setAccount vacateTicket ∧ b.slotsLawful ∧ s.coreSettled ∧
      b.noWorkUnder { idx := 1, gen := (b.slot 1).gen } ∧
      ¬((b.acct 5).session.isSome = true ∨ ∃ i < 32, (b.job i).state ≠ .free ∧ (b.job i).account = 5) ∧
      (b.slot 1).state = .held ∧ (b.slot 1).owner = some 5 ∧ ∀ i < 32, i ≠ 1 → (b.slot i).state ≠ .held :=
  ⟨serves_calm (by decide +kernel) (by decide +kernel),
    oneSlot_lawful (x := heldSlot) ⟨rfl, rfl, rfl⟩ rfl, nofun, noWork_of (by decide +kernel) rfl rfl, by decide +kernel⟩

def readTicket : Ticket := ticket 2 0 [(2, 4), (3, 6), (4, 16384), (5, 2)]

theorem witness_ReadAccountsWritesEntries :
    let s := inLane 0 readTicket withJob
    Serves .calm s .readAccounts readTicket ∧ (readTicket.w 2).toNat = 4 ∧ (readTicket.w 3).toNat = 6 ∧
      (readTicket.w 4).toNat = 16384 ∧ (readTicket.w 5).toNat = 2 ∧ Env.calm.badWrites = [] ∧
      ∀ n, n ≤ 6 → ((s.begin .calm).record n).checkOk = true :=
  ⟨serves_calm (by decide +kernel) (by decide +kernel), by decide +kernel⟩

/-- The third word of the second entry cannot be written. -/
theorem witness_ReadAccountsWritesEntries_fails :
    let env : Env := { badWrites := [(16384 + 52 + 8, 1)] }
    let s := inLane 0 readTicket withJob
    let b := s.begin env
    let whole := b.writeWords 16384 ((List.range' 4 1).flatMap b.accountEntry)
    Serves env s .readAccounts readTicket ∧ 1 < min 3 2 ∧ whole.2 = none ∧
      (whole.1.writeWords (16384 + 52 * 1) (b.accountEntry (4 + 1))).2 = some (16384 + 60) :=
  ⟨⟨by decide +kernel, by decide +kernel, by decide +kernel, by decide +kernel, by decide +kernel⟩, by decide +kernel⟩

def periodTicket : Ticket := ticket 3 0 [(2, 5)]

theorem witness_ResetPeriodAnswers :
    let s := inLane 0 periodTicket withJob
    let b := (s.begin .calm).found 5
    Serves .calm s .resetPeriod periodTicket ∧ bits (periodTicket.w 2) 15 0 = 5 ∧ b.seen 5 ≠ .vacant ∧ b.seen 5 ≠ .damaged :=
  ⟨serves_calm (by decide +kernel) (by decide +kernel), by decide +kernel⟩

theorem witness_ResetPeriodAnswers_refused :
    let v := inLane 0 periodTicket running
    let d := inLane 0 periodTicket (withJob.putRecord 5 { member with checkOk := false })
    Serves .calm v .resetPeriod periodTicket ∧ Serves .calm d .resetPeriod periodTicket ∧
      ((v.begin .calm).found 5).seen 5 = .vacant ∧ ((d.begin .calm).found 5).seen 5 = .damaged ∧
      ((d.begin .calm).record 5).checkOk = false :=
  ⟨serves_calm (by decide +kernel) (by decide +kernel), serves_calm (by decide +kernel) (by decide +kernel), by decide +kernel⟩

/-- ALL, with a failing record of account 5 and one of account 0; and a number that is neither an account nor ALL. -/
theorem witness_ResetPeriodAnswers_all :
    let k := ticket 3 0 [(2, 0xFFFF)]
    let wrong := ticket 3 0 [(2, 512)]
    let s := inLane 0 k ((withJob.putRecord 5 { member with checkOk := false }).putRecord 0 { member with checkOk := false })
    let b := s.begin .calm
    Serves .calm s .resetPeriod k ∧ Serves .calm (inLane 0 wrong withJob) .resetPeriod wrong ∧ bits (k.w 2) 15 0 = 0xFFFF ∧
      511 < bits (wrong.w 2) 15 0 ∧ bits (wrong.w 2) 15 0 ≠ 0xFFFF ∧ (b.record 0).checkOk = false ∧ b.zeroCaptured = false ∧
      (b.record 5).checkOk = false ∧ (b.acct 5).damaged = false :=
  ⟨serves_calm (by decide +kernel) (by decide +kernel), serves_calm (by decide +kernel) (by decide +kernel), by decide +kernel⟩

/-- Open Session of account 5 without a credential, and with one of 3 bytes. -/
def openTicket : Ticket := ticket 4 0 [(2, 5)]
def openTicket3 : Ticket := ticket 4 0 [(2, 5 + 3 * 65536), (3, 0x313233)]

theorem witness_OpenSessionAnswers_open :
    let s := inLane 0 openTicket enrolled
    let b := s.begin .calm
    Serves .calm s .openSession openTicket ∧ bits (openTicket.w 2) 15 0 = 5 ∧ bits (openTicket.w 2) 23 16 = 0 ∧
      (b.record 5).checkOk = true ∧ b.seen 5 = .active ∧ (b.record 5).credential = none ∧ (b.acct 5).session = none ∧
      (b.session 0).isOpen = false :=
  ⟨serves_calm (by decide +kernel) (by decide +kernel), by decide +kernel⟩

/-- A wrong credential; and a LOCKED account whose end is to come, or due. -/
theorem witness_OpenSessionAnswers_refused :
    let s := inLane 0 openTicket3 enrolled
    let locked := inLane 0 openTicket3 (enrolled.putRecord 5 { member with state := .locked })
    let due := locked.putAcct 5 { AccountVolatile.reset with lockoutEnd := some 1000 }
    let b := s.begin .calm
    Serves .calm s .openSession openTicket3 ∧ Serves .calm locked .openSession openTicket3 ∧
      Serves .calm due .openSession openTicket3 ∧ bits (openTicket3.w 2) 15 0 = 5 ∧ bits (openTicket3.w 2) 23 16 = 3 ∧
      (b.record 5).checkOk = true ∧ b.seen 5 = .active ∧ b.credentialMatches 5 (credentialBytes openTicket3 3 3) = false ∧
      ((locked.begin .calm).record 5).checkOk = true ∧ (locked.begin .calm).seen 5 = .locked ∧
      (due.begin .calm).seen 5 = .locked ∧ ((due.begin .calm).acct 5).lockoutEnd = some 1000 :=
  ⟨serves_calm (by decide +kernel) (by decide +kernel), serves_calm (by decide +kernel) (by decide +kernel),
    serves_calm (by decide +kernel) (by decide +kernel), by decide +kernel⟩

def closeTicket : Ticket := ticket 5 0 [(2, 256)]

/-- The session's job, without a page and with one in flight. -/
theorem witness_CloseSessionEndsJobs :
    let s := inLane 0 closeTicket withSlot
    let f := inLane 0 closeTicket (withSlot.putJob 2 { job with printFlight := true, printHold := 100 })
    s.memoryCanonical ∧ f.memoryCanonical ∧ Serves .calm s .closeSession closeTicket ∧ Serves .calm f .closeSession closeTicket ∧
      (s.begin .calm).sessionOf (Handle.ofField (closeTicket.w 2)) = some 0 ∧
      (f.begin .calm).sessionOf (Handle.ofField (closeTicket.w 2)) = some 0 ∧
      (s.begin .calm).openUnder (Handle.ofField (closeTicket.w 2)) 2 = true ∧ ((s.begin .calm).job 2).flying = false ∧
      (f.begin .calm).openUnder (Handle.ofField (closeTicket.w 2)) 2 = true ∧ ((f.begin .calm).job 2).flying = true :=
  ⟨canonical_of rfl rfl rfl, canonical_of rfl rfl rfl, serves_calm (by decide +kernel) (by decide +kernel),
    serves_calm (by decide +kernel) (by decide +kernel), by decide +kernel⟩

theorem witness_TimedExpiries_session :
    withSession.up = true ∧ withSession.coreSettled ∧ ∀ i, ((withSession.begin .calm).job i).state ≠ .free →
      ((withSession.begin .calm).job i).session ≠ some { idx := 0, gen := ((withSession.begin .calm).session 0).gen } :=
  ⟨rfl, settled_of_reset rfl,
    forall_entries (p := fun j : Job => j.state ≠ .free → j.session ≠ some _) (by decide +kernel) (by decide)⟩

/-- A session with a job whose idle time has passed; that time with a page of the job in flight; and a time before it. -/
theorem witness_TimedExpiries_jobs :
    let b := withSlot.begin { elapsed := 70 }
    let f := (withSlot.putJob 2 { job with scanFlight := true, scanHold := 20 }).begin { elapsed := 70 }
    let early := withSlot.begin { elapsed := 69 }
    withSlot.up = true ∧ (b.session 0).isOpen = true ∧ b.openUnder ⟨0, 1⟩ 2 = true ∧
      (∀ i < 32, (b.job i).flying = false) ∧ b.stored.settings.timers.sessionIdle = b.dev.clock - (b.session 0).last ∧
      (f.session 0).isOpen = true ∧ (f.job 2).state ≠ .free ∧ (f.job 2).session = some ⟨0, 1⟩ ∧ (f.job 2).flying = true ∧
      early.dev.clock - (early.session 0).last < early.stored.settings.timers.sessionIdle ∧
      ({ idx := 0, gen := (b.session 0).gen } : Handle) = ⟨0, 1⟩ := by decide +kernel

theorem witness_TimedExpiries_lockout :
    let b := ((enrolled.putRecord 5 { member with state := .locked }).putAcct 5
      { AccountVolatile.reset with lockoutEnd := some 1000 }).begin .calm
    b.up = true ∧ (b.record 5).checkOk = true ∧ b.seen 5 = .locked ∧ (b.acct 5).lockoutEnd = some 1000 ∧ 1000 ≤ b.dev.clock := by
  decide +kernel

theorem witness_TimedExpiries_hold :
    let s : State := { withJob with hold := some ⟨⟨2, 3⟩, 5, 900⟩ }
    let b := s.begin .calm
    s.up = true ∧ b.jobOf ⟨2, 3⟩ = some 2 ∧ (b.job 2).printFlight = false ∧ (b.job 2).scanFlight = false ∧
      b.stored.settings.timers.holdIdle ≤ b.dev.clock - 900 ∧ b.dev.clock - 999 < b.stored.settings.timers.holdIdle := by
  decide +kernel

/-! #### Jobs and the engine hold -/

def openJobTicket : Ticket := ticket 6 0 [(2, 5), (3, 256 + 65536 * 3), (4, 77), (5, 600)]
def resumeTicket : Ticket := ticket 8 0 [(2, jobField), (3, 20000)]

theorem witness_JobGrants_open :
    let s := inLane 0 openJobTicket withJob
    let b := (s.begin .calm).touchOptSession (some ⟨0, 1⟩)
    Serves .calm s .openJob openJobTicket ∧ OpenJobArgs.ofTicket openJobTicket = some ⟨5, some ⟨0, 1⟩, .copy, 77, 600⟩ ∧
      (b.record 5).checkOk = true ∧ b.seen 5 = .active ∧ b.ownSession (some ⟨0, 1⟩) 5 = true ∧ b.mayScan 5 = true ∧
      (b.job 0).state = .free :=
  ⟨serves_calm (by decide +kernel) (by decide +kernel), by decide +kernel⟩

theorem witness_JobGrants_resume :
    let s := inLane 0 resumeTicket withJob
    let b := (s.begin .calm).touchJob (Handle.ofField (resumeTicket.w 2))
    Serves .calm s .resumeJob resumeTicket ∧ b.jobOf (Handle.ofField (resumeTicket.w 2)) = some 2 ∧
      (b.job 2).state ≠ .ending ∧ (b.job 2).account = 5 ∧ (b.record 5).checkOk = true ∧ b.seen 5 = .active :=
  ⟨serves_calm (by decide +kernel) (by decide +kernel), by decide +kernel⟩

def endTicket : Ticket := ticket 7 0 [(2, jobField)]

/-- That job with a page in flight. -/
def flying : State := withJob.putJob 2 { job with printFlight := true, printHold := 100 }

theorem witness_EndJobEndsOrDefers :
    let s := inLane 0 endTicket withJob
    let b := (s.begin .calm).touchJob (Handle.ofField (endTicket.w 2))
    let f := ((inLane 0 endTicket flying).begin .calm).touchJob (Handle.ofField (endTicket.w 2))
    Serves .calm s .endJob endTicket ∧ Serves .calm (inLane 0 endTicket flying) .endJob endTicket ∧ s.coreSettled ∧
      b.jobOf (Handle.ofField (endTicket.w 2)) = some 2 ∧ (b.job 2).state ≠ .ending ∧ (b.job 2).slots = [] ∧
      b.print.state ≠ .waiting ∧ b.scan.state ≠ .waiting ∧ (b.job 2).printFlight = false ∧ (b.job 2).scanFlight = false ∧
      f.jobOf (Handle.ofField (endTicket.w 2)) = some 2 ∧ (f.job 2).printFlight = true :=
  ⟨serves_calm (by decide +kernel) (by decide +kernel), serves_calm (by decide +kernel) (by decide +kernel),
    settled_of_reset rfl, by decide +kernel⟩

theorem witness_EndJobLeavesHeldSlots :
    let s := inLane 0 endTicket withSlot
    let b := (s.begin .calm).touchJob (Handle.ofField (endTicket.w 2))
    Serves .calm s .endJob endTicket ∧ b.jobOf (Handle.ofField (endTicket.w 2)) = some 2 ∧ (b.job 2).state ≠ .ending ∧
      (b.job 2).printFlight = false ∧ (b.job 2).scanFlight = false ∧ b.print.state ≠ .waiting ∧ b.scan.state = .idle ∧
      ((b.job 2).slots.map (·.idx)).Nodup ∧ ((b.job 2).slots.map (·.idx)) = [1] :=
  ⟨serves_calm (by decide +kernel) (by decide +kernel), by decide +kernel⟩

def takeTicket : Ticket := ticket 9 0 [(2, jobField)]
def releaseTicket : Ticket := ticket 10 0 [(2, jobField)]

theorem witness_EngineHoldTickets :
    let s := inLane 0 takeTicket withJob
    let r := inLane 0 releaseTicket { withJob with hold := some ⟨⟨4, 3⟩, 6, 950⟩ }
    let b := (s.begin .calm).touchJob (Handle.ofField (takeTicket.w 2))
    Serves .calm s .takeHold takeTicket ∧ Serves .calm r .releaseHold releaseTicket ∧
      b.jobOf (Handle.ofField (takeTicket.w 2)) = some 2 ∧ (b.job 2).state = .opened ∧ (b.job 2).kind ≠ .scan ∧
      (b.job 2).account = 5 ∧ (b.record 5).checkOk = true ∧ b.seen 5 = .active ∧ b.hold = none ∧
      (⟨4, 3⟩ : Handle) ≠ Handle.ofField (releaseTicket.w 2) :=
  ⟨serves_calm (by decide +kernel) (by decide +kernel), serves_calm (by decide +kernel) (by decide +kernel), by decide +kernel⟩

theorem withSlot_balanced : withSlot.balanced := by
  refine ⟨fun n _ => ?_, forall_entries
    (p := fun j : Job => (j.printFlight = false → j.printHold = 0) ∧ (j.scanFlight = false → j.scanHold = 0)) (by decide +kernel)
    (by decide)⟩
  by_cases hn : n = 5
  · subst hn
    decide +kernel
  · have hj : ∀ j ∈ withSlot.jobs.toList, j.state = .free ∨ j.account = 5 := by decide +kernel
    have ha : withSlot.acct n = .reset := by
      simp [State.acct, withSlot, withJob, withSession, enrolled, running, State.putSlot, State.putJob, State.putAcct, State.putSession,
        State.putRecord, State.reset, entryAt, putAt, Ne.symm hn, Vector.getElem?_replicate]
      split <;> rfl
    rw [ha, List.sum_eq_zero]
    · rfl
    · intro u hu
      obtain ⟨j, hm, rfl⟩ := List.mem_map.mp hu
      unfold Job.reservedFor
      rw [if_neg]
      rintro ⟨h1, h2⟩
      rcases hj j hm with h | h
      exacts [h1 h, hn (h2 ▸ h)]

/-- Every other account of the state is vacant, with nothing reserved. -/
theorem withSlot_other {n : Nat} (hn : n ≠ 5) : withSlot.acct n = .reset ∧ withSlot.record n = .vacant := by
  constructor <;>
    simp [State.acct, State.record, withSlot, withJob, withSession, enrolled, running, State.putSlot, State.putJob, State.putAcct,
      State.putSession, State.putRecord, State.reset, Stored.factory, entryAt, putAt, Ne.symm hn, Vector.getElem?_replicate] <;>
    split <;> rfl

theorem withSlot_unitsLawful : withSlot.unitsLawful := by
  refine ⟨withSlot_balanced, ⟨fun n _ hu => ?_, fun n _ _ _ => ?_, nofun⟩, fun _ => ⟨⟨nofun, fun h => ?_, ?_⟩, ?_⟩⟩
  · by_cases hn : n = 5
    · subst hn
      decide +kernel
    · rw [(withSlot_other hn).1, (withSlot_other hn).2]
      decide
  · have hv : entryAt withSlot.shadow.accounts n .vacant = .vacant :=
      forall_replicate (p := fun r : AccountRecord => r = .vacant) 512 rfl rfl n
    rw [hv]
    decide
  · rcases h with h | h | h <;> cases h
  · have hf : ∀ i, (withSlot.job i).printFlight = false := forall_entries (p := fun j : Job => j.printFlight = false) (by decide +kernel) rfl
    exact fun i h => absurd h (by simp [hf i])
  · have hf : ∀ i, (withSlot.job i).scanFlight = false := forall_entries (p := fun j : Job => j.scanFlight = false) (by decide +kernel) rfl
    exact ⟨nofun, nofun, fun i h => absurd h (by simp [hf i]), nofun, nofun, fun _ => ⟨by decide +kernel, rfl, nofun⟩⟩

theorem witness_JobTicketsKeepBalance :
    (inLane 0 endTicket withSlot).balanced ∧
      Answers (.endJob .calm) (inLane 0 endTicket withSlot) (after (.endJob .calm) (inLane 0 endTicket withSlot)) :=
  ⟨withSlot_balanced, rfl⟩

theorem witness_JobTicketsKeepBalance_step : withSlot.unitsLawful ∧ step withSlot = .next withSlot :=
  ⟨withSlot_unitsLawful, rfl⟩

/-- The state whose slot holds the first key drawn. -/
def drawn : State := { withSlot.putSlot 1 { liveSlot with key := some (Config.randomSource.key 0) } with draws := 1 }

theorem drawn_slotsLawful : drawn.slotsLawful :=
  oneSlot_lawful (x := { liveSlot with key := some (Config.randomSource.key 0) }) ⟨rfl, rfl, rfl⟩ rfl

theorem drawn_slot {i : Nat} (h : i ≠ 1) : drawn.slot i = .free 0 := by
  simp [State.slot, drawn, withSlot, withJob, withSession, enrolled, running, State.putSlot, State.putJob, State.putAcct,
    State.putSession, State.putRecord, State.reset, entryAt, putAt, Ne.symm h, Vector.getElem?_replicate]
  split <;> rfl

theorem drawn_slotsAgree : drawn.slotsAgree := by
  have hj : ∀ j, j ≠ 2 → (drawn.job j).slots = [] := fun j h => by
    simp [State.job, drawn, withSlot, withJob, withSession, enrolled, running, State.putSlot, State.putJob, State.putAcct,
      State.putSession, State.putRecord, State.reset, entryAt, putAt, Ne.symm h, Vector.getElem?_replicate]
    split <;> rfl
  have h2 : drawn.job 2 = { job with slots := [⟨1, 7⟩] } := by decide +kernel
  have hs : drawn.slot 1 = { liveSlot with key := some (Config.randomSource.key 0) } := rfl
  have ho : drawn.jobOf ⟨2, 3⟩ = some 2 := rfl
  have hl : drawn.slotOf ⟨1, 7⟩ = some 1 := rfl
  refine ⟨fun i _ hlive => ?_, fun j h hm => ?_, fun j => ?_⟩
  · by_cases hi : i = 1
    · subst hi
      rw [hs]
      exact ⟨⟨2, 3⟩, 2, rfl, ho, by rw [h2]; rfl, by rw [h2]; decide⟩
    · rw [drawn_slot hi] at hlive
      cases hlive
  · by_cases h2' : j = 2
    · subst h2'
      rw [h2] at hm ⊢
      obtain rfl : h = ⟨1, 7⟩ := by simpa using hm
      exact ⟨by decide, hl, by rw [hs]; rfl, by rw [hs, State.jobHandle, h2]; rfl⟩
    · rw [hj j h2'] at hm
      cases hm
  · by_cases h2' : j = 2
    · subst h2'
      rw [h2]
      decide
    · rw [hj j h2']
      decide

theorem drawn_keysDrawn : drawn.keysDrawn := by
  have hf : ∀ i : Fin 32, i ≠ 1 → (drawn.slot i).key = none := fun i h => by
    rw [drawn_slot fun e => h (Fin.ext e)]
    rfl
  refine ⟨fun _ => 0, fun i key hk => ?_, fun i j hij hi hj => ?_⟩
  · by_cases h : i = 1
    · subst h
      exact ⟨by decide, (Option.some.inj hk).symm⟩
    · rw [hf i h] at hk
      cases hk
  · by_cases h : i = 1
    · subst h
      rw [hf j (Ne.symm hij)] at hj
      cases hj
    · rw [hf i h] at hi
      cases hi

/-! #### Key slots -/

def openSlotTicket : Ticket := ticket 11 0 [(2, jobField), (3, 5 + 256)]

theorem witness_OpenSlotDrawsKey :
    let s := inLane 0 openSlotTicket withSlot
    let b := (s.begin .calm).touchJob (Handle.ofField (openSlotTicket.w 2))
    Serves .calm s .openSlot openSlotTicket ∧ BitVec.ofNat 4 (bits (openSlotTicket.w 3) 3 0) ≠ 0 ∧
      bits (openSlotTicket.w 3) 9 8 ≤ 1 ∧ b.jobOf (Handle.ofField (openSlotTicket.w 2)) = some 2 ∧ (b.job 2).state = .opened ∧
      (b.job 2).account = 5 ∧ (b.record 5).checkOk = true ∧ b.seen 5 = .active ∧ (b.job 2).slots.length < 4 ∧
      (b.slot 0).state = .free ∧ b.draws < 2 ^ 256 :=
  ⟨serves_calm (by decide +kernel) (by decide +kernel), by decide +kernel⟩

def keepTicket : Ticket := ticket 12 0 [(2, slotWord), (3, jobField), (4, 5000)]
def attachTicket : Ticket := ticket 13 0 [(2, slotWord), (3, jobField), (4, 256)]

theorem witness_KeepAndAttachSlot_keep :
    let s := inLane 0 keepTicket withSlot
    let b := (s.begin .calm).touchJob (Handle.ofField (keepTicket.w 3))
    Serves .calm s .keepSlot keepTicket ∧ b.jobOf (Handle.ofField (keepTicket.w 3)) = some 2 ∧ (b.job 2).state ≠ .ending ∧
      SlotHandle.ofWord (keepTicket.w 2) = ⟨1, 7⟩ ∧ b.slotOf ⟨1, 7⟩ = some 1 ∧ (b.slot 1).state = .live ∧
      (b.slot 1).job = some (Handle.ofField (keepTicket.w 3)) :=
  ⟨serves_calm (by decide +kernel) (by decide +kernel), by decide +kernel⟩

theorem witness_KeepAndAttachSlot_attach :
    let s := inLane 0 attachTicket withHeld
    let b := ((s.begin .calm).touchJob (Handle.ofField (attachTicket.w 3))).touchSession (Handle.ofField (attachTicket.w 4))
    Serves .calm s .attachSlot attachTicket ∧ b.jobOf (Handle.ofField (attachTicket.w 3)) = some 2 ∧ (b.job 2).state = .opened ∧
      SlotHandle.ofWord (attachTicket.w 2) = ⟨1, 7⟩ ∧ b.slotOf ⟨1, 7⟩ = some 1 ∧ (b.slot 1).state = .held ∧
      b.sessionAccount (Handle.ofField (attachTicket.w 4)) = some 5 ∧ (b.job 2).account = 5 ∧ (b.slot 1).owner = some 5 ∧
      (b.record 5).checkOk = true ∧ b.seen 5 = .active ∧ (b.job 2).slots.length < 4 :=
  ⟨serves_calm (by decide +kernel) (by decide +kernel), by decide +kernel⟩

/-- Destroy Slot by the session of the owner, and by a job of the owner. -/
def destroyTicket : Ticket := ticket 14 0 [(2, slotWord), (3, 0xFFFF), (4, 256)]
def destroyByJob : Ticket := ticket 14 0 [(2, slotWord), (3, jobField), (4, 0xFFFF)]

theorem witness_SlotsAreDestroyed_session :
    let s := inLane 0 destroyTicket withSlot
    let b := (s.begin .calm).touchSession ⟨0, 1⟩
    Serves .calm s .destroySlot destroyTicket ∧ s.coreSettled ∧ b.noWorkUnder (SlotHandle.ofWord (destroyTicket.w 2)) ∧
      Handle.optOfField (destroyTicket.w 3) = none ∧ Handle.optOfField (destroyTicket.w 4) = some ⟨0, 1⟩ ∧
      b.slotOf (SlotHandle.ofWord (destroyTicket.w 2)) = some 1 ∧ b.sessionAccount ⟨0, 1⟩ = some 5 ∧ (b.slot 1).owner = some 5 :=
  ⟨serves_calm (by decide +kernel) (by decide +kernel), settled_of_reset rfl, noWork_of rfl rfl rfl, by decide +kernel⟩

theorem witness_SlotsAreDestroyed_job :
    let s := inLane 0 destroyByJob withSlot
    let b := (s.begin .calm).touchJob ⟨2, 3⟩
    Serves .calm s .destroySlot destroyByJob ∧ s.coreSettled ∧ b.noWorkUnder (SlotHandle.ofWord (destroyByJob.w 2)) ∧
      Handle.optOfField (destroyByJob.w 3) = some ⟨2, 3⟩ ∧ Handle.optOfField (destroyByJob.w 4) = none ∧
      b.slotOf (SlotHandle.ofWord (destroyByJob.w 2)) = some 1 ∧ b.jobOf ⟨2, 3⟩ = some 2 ∧ (b.job 2).state ≠ .ending ∧
      (b.job 2).account = 5 ∧ (b.slot 1).owner = some 5 :=
  ⟨serves_calm (by decide +kernel) (by decide +kernel), settled_of_reset rfl, noWork_of rfl rfl rfl, by decide +kernel⟩

theorem witness_SlotsAreDestroyed_expiry :
    withHeld.up = true ∧ withHeld.slotsLawful ∧ withHeld.coreSettled ∧
      withHeld.noWorkUnder { idx := 1, gen := (withHeld.slot 1).gen } ∧ (withHeld.slot 1).state = .held ∧
      (withHeld.slot 1).expiry = some 1600 ∧ ¬1600 ≤ (withHeld.begin .calm).dev.clock ∧
      1600 ≤ (withHeld.begin { elapsed := 600 }).dev.clock :=
  ⟨rfl, withHeld_slotsLawful, settled_of_reset rfl, noWork_of rfl rfl rfl, by decide +kernel⟩

/-- The arguments of a scan ticket, and the ticket itself, in service at another address. -/
def scanArgs : ScanArgs := ⟨⟨2, 3⟩, ⟨1, 7⟩, .a, 4, 32, 16, 0x6000⟩
def scanTicket : Ticket :=
  ticket 0x21 1 [(2, jobField), (3, slotWord), (4, 1 + 256), (5, 4), (6, 32), (7, 16), (8, 0x2000), (9, 1), (10, 0x6000)]
def scanServed : Ticket := { scanTicket with address := 0x9000, begun := true }

/-- The scan path with a page in flight. -/
def pagePath : ScanPath :=
  { ScanPath.reset with
    state := .scanning, work := .page, args := some scanArgs, buffers := [⟨0x7000, 80⟩], page := 3, capture := some 20 }

/-- The state with that page. -/
def scanning (p : ScanPath) : State :=
  inLane 1 scanServed
    { withSlot.putJob 2 { job with slots := [⟨1, 7⟩], scanHold := 20, scanFlight := true } with scan := p }

theorem witness_DestroySlotFailsScan :
    let s := inLane 0 destroyTicket (scanning pagePath)
    let b := (s.begin .calm).touchSession ⟨0, 1⟩
    s.memoryCanonical ∧ Serves .calm s .destroySlot destroyTicket ∧ b.closesFreely scanServed ∧
      (∀ x, scanServed.closingByte x → ¬destroyTicket.closingByte x) ∧ Handle.optOfField (destroyTicket.w 3) = none ∧
      Handle.optOfField (destroyTicket.w 4) = some ⟨0, 1⟩ ∧ b.slotOf (SlotHandle.ofWord (destroyTicket.w 2)) = some 1 ∧
      b.sessionAccount ⟨0, 1⟩ = some 5 ∧ (b.slot 1).owner = some 5 ∧ b.scan.state = .scanning ∧ b.scan.work = .page ∧
      b.scan.failed = none ∧ b.scan.pageEnd = false ∧ b.scan.args = some scanArgs ∧
      scanArgs.slot = SlotHandle.ofWord (destroyTicket.w 2) ∧ b.writingBuffer = none ∧ b.core.printQueue = [] ∧
      b.core.band = none ∧ (b.lane 1).service = some scanServed ∧ b.jobOf scanArgs.job = some 2 ∧ (b.job 2).state = .opened ∧
      (b.record 5).checkOk = true ∧ (b.record 5).used < 2 ^ 32 := by
  refine ⟨canonical_of rfl rfl rfl, serves_calm (by decide +kernel) (by decide +kernel), closes_of rfl _, ?_, by decide +kernel⟩
  rintro x ⟨i, hi, rfl⟩ ⟨j, hj, h⟩
  have hw : wrapAddress (0x9000 + 52 + i) = wrapAddress (4096 + 52 + j) := h
  unfold wrapAddress at hw
  omega

/-! #### Device Control -/

def configureTicket (n : Nat) : Ticket := ticket 15 0 [(2, n), (3, 0x3000), (4, 0x5000)]

/-- A memory that holds a SENSE, a TIMERS or a SUPPLY section. -/
def offered (ws : List Word) : State := supplied (withWords 0x3000 ws withSlot)

theorem witness_ConfigureSections :
    let s := inLane 0 (configureTicket 4) (offered [5, 700, 0, 9, 9999])
    Serves .calm s .configure (configureTicket 4) ∧ s.coreSettled ∧
      (s.begin .calm).readWords ((configureTicket 4).w 3).toNat 5 = .ok [5, 700, 0, 9, 9999] ∧
      ((configureTicket 4).w 2).toNat = 4 ∧ sectionLength 4 = some 5 ∧ areaOk ((configureTicket 4).w 3).toNat = true ∧
      areaOk ((configureTicket 4).w 4).toNat = true ∧ Section.ofWords 4 [5, 700, 0, 9, 9999] = some (.timers ⟨5, 700, 0, 9, 9999⟩) :=
  ⟨serves_calm (by decide +kernel) (by decide +kernel), settled_of_reset rfl, rfl, by decide +kernel⟩

theorem witness_ConfigureSections_sense :
    let s := inLane 0 (configureTicket 5) (offered [0x5555, 0x5555])
    Serves .calm s .configure (configureTicket 5) ∧ s.coreSettled ∧ sectionLength 5 = some 2 ∧
      Section.ofWords 5 [0x5555, 0x5555] = some (.sense ⟨0xFF, 0xFF⟩) ∧
      abnormalLines ⟨0xFF, 0xFF⟩ (s.begin .calm).levels = (s.begin .calm).abnormal :=
  ⟨serves_calm (by decide +kernel) (by decide +kernel), settled_of_reset rfl, by decide +kernel⟩

theorem witness_ConfigureSections_supply :
    let s := inLane 0 (configureTicket 3) (offered [2, 2000, 60, 3])
    Serves .calm s .configure (configureTicket 3) ∧
      (s.begin .calm).readWords ((configureTicket 3).w 3).toNat 4 = .ok [2, 2000, 60, 3] ∧ ((configureTicket 3).w 2).toNat = 3 ∧
      areaOk ((configureTicket 3).w 3).toNat = true ∧ areaOk ((configureTicket 3).w 4).toNat = true ∧
      SupplySettings.ofWords [2, 2000, 60, 3] = some ⟨.lenient, 2000, 60, 3⟩ :=
  ⟨serves_calm (by decide +kernel) (by decide +kernel), rfl, by decide +kernel⟩

/-- A result that cannot be written; a section that is none; a source that cannot be read; a policy that is none. -/
theorem witness_ConfigureSections_fails :
    let s := inLane 0 (configureTicket 4) (offered [5, 700, 0, 9, 9999])
    let bad : Env := { badWrites := [(0x5006, 1)] }
    let unread : Env := { badReads := [(0x3010, 1)] }
    Serves bad s .configure (configureTicket 4) ∧ Serves unread s .configure (configureTicket 4) ∧
      (s.begin unread).readWords ((configureTicket 4).w 3).toNat 5 = .error 0x3010 ∧
      ((s.begin bad).writeWords ((configureTicket 4).w 4).toNat (Section.timers ⟨5, 700, 0, 9, 9999⟩).clamped.words).2 =
        some 0x5004 ∧ sectionLength 6 = none ∧ areaOk 0 = false ∧ Section.ofWords 3 [3, 0, 0, 0] = none :=
  ⟨⟨by decide +kernel, by decide +kernel, by decide +kernel, by decide +kernel, by decide +kernel⟩,
    ⟨by decide +kernel, by decide +kernel, closes_of rfl _⟩, rfl, by decide +kernel⟩

def digestTicket : Ticket := ticket 16 0 [(2, 0x3000), (3, 256)]
def clearTicket : Ticket := ticket 17 0 []

theorem witness_DigestAndClearFaults :
    let s := inLane 0 digestTicket withSlot
    Serves .calm s .statusDigest digestTicket ∧
      Serves .calm (inLane 0 clearTicket (withSlot.capture .cipherCheck none none 3)) .clearFaults clearTicket ∧
      areaOk (digestTicket.w 2).toNat = true ∧ Env.calm.badWrites = [] ∧
      Handle.optOfField (digestTicket.w 3) = some ⟨0, 1⟩ ∧ ((s.begin .calm).sessionOf ⟨0, 1⟩).isSome = true :=
  ⟨serves_calm (by decide +kernel) (by decide +kernel), serves_calm (by decide +kernel) (by decide +kernel), by decide +kernel⟩

/-- A Clear Faults whose W14 cannot be written. -/
theorem witness_DigestAndClearFaults_fails :
    let env : Env := { badWrites := [(4152, 2)] }
    let s := inLane 0 clearTicket (withSlot.capture .cipherCheck none none 3)
    (s.begin env).serving .clearFaults = some clearTicket ∧ stateGate (s.begin env).dev.op .clearFaults = none ∧
      wordFails env.badWrites (4096 + 56) = true := by decide +kernel

def serviceTicket : Ticket := ticket 18 0 []

/-- The state withdrawn at a time. -/
def withdrawnAt (time : Nat) : State :=
  { withSlot with dev := { withSlot.dev with op := .withdrawn, entryTime := some time } }

theorem witness_ResumeServiceDwellsAndTests :
    let s := inLane 0 serviceTicket (withdrawnAt 500)
    let p := (inLane 0 serviceTicket { withdrawnAt 500 with levels := 0xEF }).begin .calm
    Serves .calm s .resumeService serviceTicket ∧ (s.begin .calm).dev.op = .withdrawn ∧
      2 ≤ (s.begin .calm).dev.clock - (s.begin .calm).dev.entryTime.getD 0 ∧ (s.begin .calm).privacyDeparted = false ∧
      p.privacyDeparted = true ∧
      ((withdrawnAt 999).begin .calm).dev.clock - ((withdrawnAt 999).begin .calm).dev.entryTime.getD 0 < 2 ∧
      (withSlot.begin .calm).dev.op ≠ .withdrawn :=
  ⟨serves_calm (by decide +kernel) (by decide +kernel), by decide +kernel⟩

theorem witness_ResumeServiceDwellsAndTests_end :
    let s := inLane 0 { serviceTicket with begun := true } { withdrawnAt 500 with core := { Core.reset with resumeTest := true } }
    (s.begin .calm).closesFreely { serviceTicket with begun := true } ∧ s.up = true ∧ s.core.resumeTest = true ∧
      (s.lane 0).service = some { serviceTicket with begun := true } ∧ (s.begin .calm).core.printQueue = [] ∧
      (s.begin .calm).core.scanWaiting = none ∧ (s.begin .calm).privacyDeparted = false ∧
      (({ s with levels := 0xEF } : State).begin .calm).privacyDeparted = true :=
  ⟨closes_calm _ _, by decide +kernel⟩

theorem witness_PeriodicSelfTest :
    let s : State := { withSlot with core := { Core.reset with count := 4096, periodicTest := true } }
    s.slotsLawful ∧ s.up = true ∧ s.core.periodicTest = true ∧ s.dev.op = .running ∧ (s.begin .calm).faults.first = none ∧
      4096 ≤ ({ Core.reset with count := 4096 } : Core).count ∧ Core.reset.band = none ∧ Core.reset.resumeTest = false :=
  ⟨slotsLawful_of withSlot_slotsLawful rfl, by decide +kernel⟩

/-! #### The print path -/

def printTicket : Ticket :=
  ticket 0x41 2 [(2, jobField), (3, 1 + 256 + 65536), (4, 16), (5, 2), (6, 0x2000), (7, 1), (8, 0x5000)]
def printArgs : PrintArgs := ⟨⟨2, 3⟩, .a, false, 16, 2, 1, 0x5000⟩

/-- The entry of one plain band of K, and of one enciphered under the slot. -/
def plainList : List Word := [4, 2, 0x3000, 4, 0, 0]
def cipherList : List Word := [4 + 256, 2, 0x3000, 20, BitVec.ofNat 32 slotWord, 3]

/-- The state with a band list in memory and every cartridge VERIFIED. -/
def listed (ws : List Word) : State := withWords 0x2000 ws (supplied withSlot)

/-- A ticket whose list of one entry stands in memory. -/
theorem offered_one {s : State} {k : Ticket} {a : PrintArgs} {ws : List Word} (h : s.serving .printImpression = some k)
    (g : stateGate s.dev.op .printImpression = none) (hk : (k.w 6).toNat = 0x2000 ∧ (k.w 7).toNat = 1)
    (ha : PrintArgs.ofTicket k = some a) (hr : (s.begin .calm).readWords 0x2000 6 = .ok ws)
    (hf : printFault (some a) ((listEntries ws 6 1).map RawBand.ofWords) = none) :
    PrintOffered .calm s k a ((listEntries ws 6 1).map (fun e => (RawBand.ofWords e).entry)) := by
  refine ⟨serves_calm h g, ?_, ?_, ?_, ha, ws, ?_, ?_, ?_⟩ <;> simp only [hk.1, hk.2] <;> first | exact hr | exact hf | decide

/-- Checks 1 to 6 where no engine hold stands. -/
theorem allowed_of {b : State} {a : PrintArgs} {table : List BandEntry} {i : Nat}
    (h : b.dev.op = .running ∧ b.jobOf a.job = some i ∧ (b.job i).state = .opened ∧ (b.job i).kind ≠ .scan ∧
      (b.record (b.job i).account).checkOk = true ∧ b.seen (b.job i).account = .active ∧ b.mayColour (b.job i).account = true ∧
      b.hold = none ∧ ∀ e ∈ table, e.enciphered = true → b.keyGranted e.slot a.job .print = true) : b.printAllowed a table i := by
  obtain ⟨h1, h2, h3, h4, h5, h6, h7, h8, h9⟩ := h
  exact ⟨h1, h2, h3, h4, h5, h6, fun _ => h7, fun e he => by simp [h8] at he, h9⟩

/-- The band table of that list. -/
def tableOf (ws : List Word) : List BandEntry := (listEntries ws 6 1).map (fun e => (RawBand.ofWords e).entry)

/-- An enciphered page, covered by the job's free reservation. -/
theorem witness_PrintImpressionAdmission :
    let s := inLane 2 printTicket (listed cipherList)
    let b := (s.begin .calm).touchJob ⟨2, 3⟩
    PrintOffered .calm s printTicket printArgs (tableOf cipherList) ∧ b.printAllowed printArgs (tableOf cipherList) 2 ∧
      (∀ n ∈ [0, 1, 2, 5, 7], b.lineAbnormal n = false) ∧ (∀ n ∈ neededSlots false, b.supplyClass n = .usable) ∧
      b.covers 5 (b.job 2).free ((PrintCapture.ofSettings b.stored.settings .a).hold false) :=
  ⟨offered_one (ws := cipherList) (by decide +kernel) (by decide +kernel) (by decide +kernel) (by decide +kernel) rfl
      (by decide +kernel), allowed_of (by decide +kernel), by decide +kernel, by decide +kernel, Or.inr (by decide +kernel)⟩

/-- A list that cannot be read. -/
theorem witness_PrintImpressionAdmission_unread :
    let env : Env := { badReads := [(0x2008, 1)] }
    let s := inLane 2 printTicket (listed plainList)
    (s.begin env).serving .printImpression = some printTicket ∧ (s.begin env).dev.op = .running ∧
      (s.begin env).closesFreely printTicket ∧ (printTicket.w 7).toNat = 1 ∧ (printTicket.w 6).toNat = 0x2000 ∧
      (s.begin env).readWords 0x2000 6 = .error 0x2008 := by
  refine ⟨by decide +kernel, by decide +kernel, ?_, by decide +kernel, by decide +kernel, rfl⟩
  refine ⟨?_, ?_, ?_⟩ <;> decide +kernel

/-- A job with 100 units free, for a page whose hold is 250, and an account with more left or with 80. -/
def short (quota : Nat) : State :=
  (((listed plainList).putJob 2 { job with free := 100 }).putRecord 5 { member with quota }).putAcct 5
    { AccountVolatile.reset with reserved := 5000 }

theorem witness_PrintImpressionAdmission_short :
    let poor := ((inLane 2 printTicket (short 5120)).begin .calm).touchJob ⟨2, 3⟩
    let rich := ((inLane 2 printTicket (short 5190)).begin .calm).touchJob ⟨2, 3⟩
    let hold := (PrintCapture.ofSettings poor.stored.settings .a).hold false
    PrintOffered .calm (inLane 2 printTicket (short 5120)) printTicket printArgs (tableOf plainList) ∧
      PrintOffered .calm (inLane 2 printTicket (short 5190)) printTicket printArgs (tableOf plainList) ∧
      poor.printAllowed printArgs (tableOf plainList) 2 ∧ rich.printAllowed printArgs (tableOf plainList) 2 ∧
      ¬poor.covers 5 (poor.job 2).free hold ∧ rich.covers 5 (rich.job 2).free hold ∧ (rich.job 2).free < hold ∧
      poor.core.band = none ∧ (∀ n ∈ [0, 1, 2, 5, 7], poor.lineAbnormal n = false) ∧
      ∀ n ∈ neededSlots false, poor.supplyClass n = .usable := by
  refine ⟨offered_one (ws := plainList) (by decide +kernel) (by decide +kernel) (by decide +kernel) (by decide +kernel) rfl
      (by decide +kernel), offered_one (ws := plainList) (by decide +kernel) (by decide +kernel) (by decide +kernel)
      (by decide +kernel) rfl (by decide +kernel), allowed_of (by decide +kernel), allowed_of (by decide +kernel), ?_,
    Or.inr (by decide +kernel), by decide +kernel⟩
  unfold State.covers
  decide +kernel

/-- The engine not ready; a cartridge rejected; a cartridge not checked. -/
theorem witness_PrintImpressionAdmission_waits :
    let s (s : State) := ((inLane 2 printTicket s).begin .calm).touchJob ⟨2, 3⟩
    let unready := s { listed plainList with levels := 0xDF }
    let refused := s ((listed plainList).putCart 5 { verified 5 with auth := .rejected })
    let pending := s ((listed plainList).putCart 4 { verified 4 with auth := .unchecked })
    (∀ b ∈ [unready, refused, pending], b.jobOf ⟨2, 3⟩ = some 2 ∧ b.core.band = none ∧ ∀ n ∈ [0, 1, 2], b.lineAbnormal n = false) ∧
      unready.lineAbnormal 5 = true ∧ refused.lineAbnormal 5 = false ∧ refused.lineAbnormal 7 = false ∧
      (neededSlots false).filter (fun m => refused.supplyClass m = .refusing) = [5] ∧
      (neededSlots false).filter (fun m => pending.supplyClass m = .refusing) = [] ∧
      (∃ m ∈ neededSlots false, pending.supplyClass m = .pending) := by decide +kernel

/-- A Print Impression that waits. -/
def printWaiting (w : PrintWait) (s : State) : State :=
  inLane 2 { printTicket with begun := true }
    { s with print := { PrintPath.reset with state := .waiting, wait := some w, args := some printArgs, table := tableOf plainList } }

theorem witness_PrintImpressionAdmission_renewed :
    let s := printWaiting .ready { listed plainList with levels := 0xDF }
    let b := (s.begin .calm).touchJob ⟨2, 3⟩
    b.printAllowed printArgs (tableOf plainList) 2 ∧ s.coreSettled ∧
      b.covers 5 (b.job 2).free ((PrintCapture.ofSettings b.stored.settings .a).hold false) ∧
      b.closesFreely { printTicket with begun := true } ∧ s.print.state = .waiting ∧ s.print.args = some printArgs ∧
      s.print.table = tableOf plainList ∧ (∀ n ∈ [0, 1, 2], b.lineAbnormal n = false) ∧ s.alive = true ∧
      s.levels.getLsbD 5 ≠ true ∧ s.levels.getLsbD 2 ≠ false ∧ (∀ n ∈ [2, 5], b.stored.settings.sense.watch.getLsbD n = true) ∧
      s.print.wait = some .ready ∧ b.lineAbnormal 5 = true ∧ b.lineAbnormal 7 = false ∧
      (∀ n ∈ neededSlots false, b.supplyClass n = .usable) ∧
      (b.lane 2).service = some { printTicket with begun := true } ∧ b.core.band = none ∧ b.core.scanWaiting = none :=
  ⟨allowed_of (by decide +kernel), settled_of_reset rfl, Or.inr (by decide +kernel), closes_of rfl _, by decide +kernel⟩

theorem witness_PrintImpressionAdmission_checked :
    let p : Procedure :=
      { slot := 4, kind := .check, running := true, waiter := false, nonce := some 77, identity := none, phase := some .identify,
        captured := none }
    let tr : Transaction := { slot := 4, command := .identify, sequence := 5, payload := [], retries := 2, discarded := false }
    let s := printWaiting .supply
      { (listed plainList).putCart 4 { verified 4 with auth := .checking } with
        link := { Link.reset with state := .response, queue := [p], transaction := some tr } }
    let b := (s.begin .calm).touchJob ⟨2, 3⟩
    s.print.state = .waiting ∧ s.print.wait = some .supply ∧ b.printAllowed printArgs (tableOf plainList) 2 ∧
      (∀ n ∈ [0, 1, 2, 5, 7], b.lineAbnormal n = false) ∧ s.up = true ∧ s.checkWait = none ∧
      b.stored.settings.supply.retryLimit ≤ tr.retries ∧ p.slot ∈ neededSlots false ∧ b.supplyClass p.slot = .pending ∧
      (b.lane 2).service = some { printTicket with begun := true } ∧ b.core.band = none :=
  ⟨rfl, rfl, allowed_of (by decide +kernel), by decide +kernel⟩

def capture : PrintCapture := PrintCapture.ofSettings Settings.factory .a

/-- The entry of that plain band, being read, and its data. -/
def band : BandEntry :=
  { plane := .k, first := 0, lines := 2, address := 0x3000, length := 4, enciphered := false, slot := ⟨1, 7⟩, page := 3, index := 0,
    cond := .reading, data := [] }
def bandData : List Byte := [0x55, 0x55, 0x0F, 0x0F]
def readyBand : BandEntry := { band with cond := .ready, data := bandData }
def cipherEntry : BandEntry := { band with enciphered := true }

/-- The print path with that band, and the state with it. -/
def pathWith (st : PrintState) (e : BandEntry) : PrintPath :=
  { PrintPath.reset with state := st, args := some printArgs, table := [e], number := 9, capture := some capture }
def printServed : Ticket := { printTicket with begun := true }
def printing (st : PrintState) (e : BandEntry) : State :=
  inLane 2 printServed
    { (withWords 0x3000 [0x0F0F5555] (supplied withSlot)).putJob 2
        { job with slots := [⟨1, 7⟩], printHold := 250, printFlight := true } with
      print := pathWith st e }

theorem witness_BandReadDone :
    let s := printing .preparing band
    let b := s.begin .calm
    b.readBytes band.address band.length = .ok bandData ∧ s.up = true ∧ s.print.args = some printArgs ∧
      s.print.table[0]? = some band ∧ band.cond = .reading ∧ band.enciphered = false ∧ s.atCore 0 = false ∧
      s.core.printQueue = [] ∧ s.core.scanWaiting = none ∧ rowZeroReady false (s.print.table.set 0 readyBand) = true ∧
      rowZeroReady false ([band, readyBand]) = false ∧
      (neededSlots false).filter (fun n => b.supplyClass n ≠ .usable) = [] ∧ (printing .imaging band).print.state = .imaging :=
  ⟨rfl, by decide +kernel⟩

theorem witness_BandReadDone_enciphered :
    let s := printing .imaging cipherEntry
    let b := s.begin .calm
    b.readBytes cipherEntry.address cipherEntry.length = .ok bandData ∧ s.up = true ∧ s.print.state = .imaging ∧
      s.print.args = some printArgs ∧ s.print.table[0]? = some cipherEntry ∧ cipherEntry.cond = .reading ∧
      cipherEntry.enciphered = true ∧ s.atCore 0 = false ∧ s.core = .reset ∧
      b.keyGranted cipherEntry.slot ⟨2, 3⟩ .print = true :=
  ⟨rfl, by decide +kernel⟩

/-- The same read with the core busy: the band waits. -/
theorem witness_BandReadDone_busy :
    let s : State :=
      { printing .imaging cipherEntry with core := { Core.reset with band := some ⟨.scan, 0, ⟨1, 7⟩, true⟩, printQueue := [3] } }
    (s.begin .calm).readBytes cipherEntry.address cipherEntry.length = .ok bandData ∧ s.coreSettled ∧ s.atCore 0 = false ∧
      s.core.canTake = false ∧ (s.begin .calm).keyGranted cipherEntry.slot ⟨2, 3⟩ .print = true :=
  ⟨rfl, nofun, by decide +kernel⟩

/-- The impression in flight, in PREPARING and in IMAGING, with its last band to be read. -/
theorem printing_impression (st : PrintState) (e : BandEntry) (env : Env) (h : env.badWrites = []) :
    ((printing st e).begin env).impression printArgs capture 2 printServed := by
  have hj : (printing .imaging band).jobOf printArgs.job = some 2 := by decide +kernel
  have hs : ((printing .imaging band).job 2).state = .ending → (printing .imaging band).scan.state ≠ .ciphering := by decide +kernel
  have hl : ((printing .imaging band).lane 2).service = some printServed := by decide +kernel
  exact ⟨rfl, rfl, hj, hs, hl, h⟩

/-- An enciphered band whose slot does not hold the use PRINT. -/
theorem witness_BandReadDone_refused :
    ∀ st ∈ [PrintState.preparing, .imaging],
      let s := (printing st cipherEntry).putSlot 1 { liveSlot with uses := 7 }
      let b := s.begin .calm
      b.readBytes cipherEntry.address cipherEntry.length = .ok bandData ∧ b.impression printArgs capture 2 printServed ∧
        s.up = true ∧ s.print.state = st ∧ s.atCore 0 = false ∧ s.print.sums = ⟨0, 0, 0, 0⟩ ∧
        b.keyGranted cipherEntry.slot printArgs.job .print = false := by
  intro st h
  refine ⟨rfl, printing_impression st cipherEntry .calm rfl, ?_⟩
  revert st
  decide +kernel

/-- R113: the core holds, or has waiting for it, a band under the slot that a Destroy Slot names. -/
theorem witness_SlotsAreDestroyed_bands :
    ∀ st ∈ [PrintState.preparing, .imaging],
      ∀ core ∈ [{ Core.reset with band := some ⟨.print, 0, ⟨1, 7⟩, false⟩ }, { Core.reset with printQueue := [0], periodicTest := true }],
      let s := inLane 0 destroyTicket { printing st cipherEntry with core }
      let b := (s.begin .calm).touchSession ⟨0, 1⟩
      Serves .calm s .destroySlot destroyTicket ∧ (b.slotGone ⟨1, 7⟩).impression printArgs capture 2 printServed ∧
        SlotHandle.ofWord (destroyTicket.w 2) = ⟨1, 7⟩ ∧ Handle.optOfField (destroyTicket.w 3) = none ∧
        Handle.optOfField (destroyTicket.w 4) = some ⟨0, 1⟩ ∧ b.slotOf ⟨1, 7⟩ = some 1 ∧ b.sessionAccount ⟨0, 1⟩ = some 5 ∧
        (b.slot 1).owner = some 5 ∧ b.scan.state = .idle ∧ (b.bandsAtCore ⟨1, 7⟩).head? = some 0 ∧ b.print.state = st ∧
        b.print.sums = ⟨0, 0, 0, 0⟩ ∧ b.print.counts = ⟨0, 0, 0, 0⟩ := by
  unfold Serves State.impression State.closesFreely
  decide +kernel

/-- A cartridge rejected since admission; and a read that fails. -/
theorem witness_BandReadDone_ends :
    let s := printing .preparing band
    let refused := ((printing .preparing band).putCart 5 { verified 5 with auth := .rejected }).begin .calm
    let env : Env := { badReads := [(0x3002, 1)] }
    (s.begin env).impression printArgs capture 2 printServed ∧
      ((printing .imaging band).begin env).impression printArgs capture 2 printServed ∧
      (s.begin env).readBytes band.address band.length = .error 0x3002 ∧
      ((printing .imaging band).begin env).readBytes band.address band.length = .error 0x3002 ∧
      (neededSlots false).filter (fun n => refused.supplyClass n ≠ .usable) = [5] ∧ s.up = true ∧ s.print.table[0]? = some band ∧
      s.atCore 0 = false ∧ s.print.sums = ⟨0, 0, 0, 0⟩ ∧ s.print.counts = ⟨0, 0, 0, 0⟩ :=
  ⟨printing_impression _ _ _ rfl, printing_impression _ _ _ rfl, rfl, rfl, by decide +kernel⟩

/-- The state whose core holds that band, deciphered under the slot's key 9. -/
def deciphering : State :=
  { printing .imaging { cipherEntry with data := encipherBand 9 ⟨7, 3, 0⟩ bandData } with
    core := { Core.reset with band := some ⟨.print, 0, ⟨1, 7⟩, false⟩ } }

theorem witness_CipherBandDone_print :
    deciphering.up = true ∧ deciphering.core.band = some ⟨.print, 0, ⟨1, 7⟩, false⟩ ∧ deciphering.print.state = .imaging ∧
      deciphering.print.args = some printArgs ∧
      deciphering.print.table[0]? = some { cipherEntry with data := encipherBand 9 ⟨7, 3, 0⟩ bandData } ∧
      deciphering.core.printQueue = [] ∧ deciphering.core.scanWaiting = none ∧
      decipherBand (deciphering.slotKey ⟨1, 7⟩) (nonceOf ⟨1, 7⟩ 3 0) (encipherBand 9 ⟨7, 3, 0⟩ bandData) = some bandData := by
  refine ⟨rfl, rfl, rfl, rfl, rfl, rfl, rfl, ?_⟩
  have hk : deciphering.slotKey ⟨1, 7⟩ = 9 := rfl
  have hn : nonceOf ⟨1, 7⟩ 3 0 = ⟨7, 3, 0⟩ := rfl
  have ht : ∀ t, (tagBytes t).length = 16 := fun t => by simp [tagBytes]
  rw [hk, hn]
  simp [decipherBand, encipherBand, ht, Config.cipherCore.cipher_length, Config.cipherCore.plain_cipher]

/-- The same band read with another page number in its entry. -/
def misnamed (st : PrintState) : State :=
  { printing st { cipherEntry with page := 4, data := encipherBand 9 ⟨7, 3, 0⟩ bandData } with
    core := { Core.reset with band := some ⟨.print, 0, ⟨1, 7⟩, false⟩ } }

/-- R83: whatever the core computes, the nonce of another page gives a mismatch. -/
theorem witness_CipherBandDone_mismatch :
    (∀ st ∈ [PrintState.preparing, .imaging], (misnamed st).up = true ∧ (misnamed st).print.sums = ⟨0, 0, 0, 0⟩ ∧
      ((misnamed st).begin .calm).impression printArgs capture 2 printServed) ∧
      decipherBand ((misnamed .imaging).slotKey ⟨1, 7⟩) (nonceOf ⟨1, 7⟩ 4 0) (encipherBand 9 ⟨7, 3, 0⟩ bandData) = none := by
  refine ⟨fun st h => ⟨by cases st <;> decide +kernel, rfl, printing_impression st _ .calm rfl⟩, ?_⟩
  rcases hd : decipherBand ((misnamed .imaging).slotKey ⟨1, 7⟩) (nonceOf ⟨1, 7⟩ 4 0) (encipherBand 9 ⟨7, 3, 0⟩ bandData) with _ | p
  · rfl
  · obtain ⟨q, hq⟩ := tag_of_match hd
    exact absurd (Config.cipherCore.tag_nonce _ _ _ _ _ _ hq) (by decide)

/-- The scan path with a buffer of 2 lines in a condition. -/
def bufferPath (c : BufferCond) : ScanPath :=
  { pagePath with internal := putAt pagePath.internal 0 ⟨c, 0, 2, bandData⟩, taken := 2, begun := 1 }

theorem witness_CipherBandDone_scan :
    let s : State := { scanning (bufferPath .ciphering) with core := { Core.reset with band := some ⟨.scan, 0, ⟨1, 7⟩, false⟩ } }
    s.up = true ∧ s.core.band = some ⟨.scan, 0, ⟨1, 7⟩, false⟩ ∧ s.scan.work = .page ∧ s.scan.args = some scanArgs ∧
      (s.buffer 0).cond = .ciphering ∧ (s.buffer 1).cond = .free ∧ s.core.printQueue = [] ∧ s.core.scanWaiting = none := by
  decide +kernel

/-- A ticket of lane 1 that works on bands, in a state whose slot holds the first key drawn. -/
def cipherWork (p : ScanPath) : State := inLane 1 scanServed { drawn with scan := p }

/-- Encipher Bands or Decipher Bands with two buffers, and the band of the first in the core. -/
def coreWork (work : ScanWork) (x y : Buffer) : State :=
  { cipherWork
      { ScanPath.reset with
        state := .ciphering, work, args := some scanArgs, sources := [⟨0x3000, 20, 5⟩, ⟨0x3100, 20, 6⟩],
        buffers := [⟨0x7000, 80⟩, ⟨0x7100, 80⟩], page := 3, begun := 2, internal := putAt (putAt (Vector.replicate 2 .erased) 0 x) 1 y } with
    core := { Core.reset with band := some ⟨.scan, 0, ⟨1, 7⟩, false⟩ } }

/-- The band of a page being scanned and of Encipher Bands, with the other buffer FREE and WRITING. -/
theorem witness_CipherBandDone_encipher :
    ∀ other ∈ [BufferCond.free, .writingData, .writingRecord],
      let s := coreWork .encipher ⟨.ciphering, 0, 2, bandData⟩ ⟨other, 1, 2, bandData⟩
      s.up = true ∧ s.core.band = some ⟨.scan, 0, ⟨1, 7⟩, false⟩ ∧ s.scan.args = some scanArgs ∧ (s.buffer 0).cond = .ciphering ∧
        (s.buffer 1).cond = other ∧ s.core.printQueue = [] ∧ s.core.scanWaiting = none ∧ s.scan.work ≠ .decipher := by decide +kernel

/-- A band of Decipher Bands as the core gets it, under the key of draw 0, the ticket's page 3 and a band index. -/
def decipherWork (index : BitVec 16) (other : BufferCond) : State :=
  coreWork .decipher ⟨.ciphering, 0, 0, encipherBand (Config.randomSource.key 0) ⟨7, 3, index⟩ bandData⟩ ⟨other, 1, 0, bandData⟩

/-- R99: the entry's band index gives a match; a band enciphered under another does not. -/
theorem witness_CipherBandDone_decipher :
    let key := (((decipherWork 5 .free).slot scanArgs.slot.idx).key).getD 0
    decipherBand key ⟨7, 3, 5⟩ ((decipherWork 5 .free).buffer 0).data = some bandData ∧
      decipherBand key ⟨7, 3, 5⟩ ((decipherWork 4 .free).buffer 0).data = none := by
  have ht : ∀ t, (tagBytes t).length = 16 := fun t => by simp [tagBytes]
  have hk : (((decipherWork 5 .free).slot scanArgs.slot.idx).key).getD 0 = Config.randomSource.key 0 := rfl
  have hb : ∀ i, ((decipherWork i .free).buffer 0).data = encipherBand (Config.randomSource.key 0) ⟨7, 3, i⟩ bandData := fun _ => rfl
  simp only [hk, hb]
  refine ⟨by simp [decipherBand, encipherBand, ht, Config.cipherCore.cipher_length, Config.cipherCore.plain_cipher], ?_⟩
  rcases hd : decipherBand (Config.randomSource.key 0) ⟨7, 3, 5⟩ (encipherBand (Config.randomSource.key 0) ⟨7, 3, 4⟩ bandData) with _ | p
  · rfl
  · obtain ⟨q, hq⟩ := tag_of_match hd
    exact absurd (Config.cipherCore.tag_nonce _ _ _ _ _ _ hq) (by decide)

theorem witness_CipherBandDone_decipher_ends (index : BitVec 16) :
    ∀ other ∈ [BufferCond.free, .writingData],
      let s := decipherWork index other
      s.up = true ∧ s.scan.state = .ciphering ∧ s.scan.work = .decipher ∧ s.scan.failed = none ∧ s.scan.args = some scanArgs ∧
        (s.buffer 0).cond = .ciphering ∧ (s.buffer 1).cond = other ∧ s.scan.sources[(s.buffer 0).band]? = some ⟨0x3000, 20, 5⟩ ∧
        s.core.printQueue = [] ∧ s.core.scanWaiting = none ∧ ((s.begin .calm).lane 1).service = some scanServed := by
  intro other h
  fin_cases h <;> exact ⟨rfl, rfl, rfl, rfl, rfl, rfl, rfl, rfl, rfl, rfl, rfl⟩

/-- A slot is destroyed while a band of its cipher ticket is in the core. -/
theorem witness_DestroySlotFailsScan_cipher :
    ∀ work ∈ [ScanWork.encipher, .decipher], ∀ other ∈ [BufferCond.free, .writingData],
      let s := inLane 0 destroyTicket (coreWork work ⟨.ciphering, 0, 2, bandData⟩ ⟨other, 1, 2, bandData⟩)
      let b := (s.begin .calm).touchSession ⟨0, 1⟩
      Serves .calm s .destroySlot destroyTicket ∧ b.closesFreely scanServed ∧ b.slotOf ⟨1, 7⟩ = some 1 ∧
        b.sessionAccount ⟨0, 1⟩ = some 5 ∧ (b.slot 1).owner = some 5 ∧ b.scan.state = .ciphering ∧ b.scan.failed = none ∧
        b.scan.work ≠ .page ∧ b.scanSlot = SlotHandle.ofWord (destroyTicket.w 2) ∧ (∃ i < 2, (b.buffer i).cond = .ciphering) ∧
        (b.lane 1).service = some scanServed ∧ b.core.band.map (·.path) = some .scan ∧ b.core.printQueue = [] := by
  unfold Serves State.closesFreely
  decide +kernel

theorem witness_EngineDemandSendsLine :
    let s := printing .imaging readyBand
    let i : State := { withSlot with print := { PrintPath.reset with retired := some 9 } }
    s.alive = true ∧ s.print.state = .imaging ∧ s.print.number = (9 : BitVec 8).toNat ∧ s.print.args = some printArgs ∧
      s.print.capture = some capture ∧ Plane.k ∈ planeSet printArgs.colour ∧ s.print.position.get .k < printArgs.lines ∧
      bandAt s.print.table .k 0 = some 0 ∧ s.print.table[0]? = some readyBand ∧ readyBand.cond = .ready ∧
      i.print.retired = some (9 : BitVec 8).toNat ∧ i.print.retired ≠ some (8 : BitVec 8).toNat ∧ i.print.state = .idle := by
  decide +kernel

/-- Events with another number while IMAGING; a demand outside the plane set; one past the last line. -/
theorem witness_EngineDemandSendsLine_captured :
    let s := printing .imaging readyBand
    let done : State := { s with print := { s.print with position := ⟨0, 0, 0, 2⟩ } }
    s.alive = true ∧ s.print.number ≠ (8 : BitVec 8).toNat ∧ s.print.retired ≠ some (8 : BitVec 8).toNat ∧
      s.print.number = (9 : BitVec 8).toNat ∧ Plane.c ∉ planeSet printArgs.colour ∧ Plane.k ∈ planeSet printArgs.colour ∧
      done.print.state = .imaging ∧ printArgs.lines ≤ done.print.position.get .k := by decide +kernel

/-- The state with that impression IMAGED. -/
def imaged : State :=
  let s := printing .imaged band
  { s with print := { s.print with sums := ⟨0, 0, 0, 60000⟩, counts := ⟨0, 0, 0, 2⟩, position := ⟨0, 0, 0, 2⟩ } }

theorem witness_DeliveredImpressionSettles :
    let b := imaged.begin .calm
    imaged.alive = true ∧ imaged.print.state = .imaged ∧ imaged.print.number = (9 : BitVec 8).toNat ∧
      b.impression printArgs capture 2 printServed ∧ (b.job 2).account = 5 ∧ (b.record 5).checkOk = true ∧
      (b.acct 5).damaged = false ∧ (b.cart 4).trusted = true ∧ (b.cart 4).values.isSome = true ∧ (b.cart 5).trusted = true ∧
      (meter capture false 16 imaged.print.sums imaged.print.counts true).colour = false := by
  refine ⟨rfl, rfl, rfl, ⟨rfl, rfl, ?_, ?_, ?_, rfl⟩, ?_⟩ <;> decide +kernel

/-- An ENDING job, with and without a scan page in flight. -/
theorem witness_DeliveredImpressionSettles_ending :
    ∀ scanFlight ∈ [false, true],
      let b := (imaged.putJob 2
        { job with state := .ending, free := 0, slots := [⟨1, 7⟩], printHold := 250, printFlight := true, scanFlight }).begin .calm
      b.print.args = some printArgs ∧ b.print.capture = some capture ∧ b.jobOf printArgs.job = some 2 ∧
        (b.job 2).state = .ending ∧ b.scan.state ≠ .ciphering ∧ (b.lane 2).service = some printServed ∧ b.env.badWrites = [] ∧
        b.printEndsJob 2 = !scanFlight ∧ ((b.job 2).slots.map (·.idx)).Nodup ∧ ∀ x ∈ (b.job 2).slots, x.idx < 32 := by
  decide +kernel

/-- A COLOUR page, billed COLOUR. -/
theorem witness_DeliveredImpressionSettles_colour :
    let a := { printArgs with colour := true }
    let s : State :=
      { imaged with print := { imaged.print with args := some a, sums := ⟨60000, 0, 0, 0⟩, counts := ⟨2, 2, 2, 2⟩ } }
    let b := s.begin .calm
    s.alive = true ∧ b.impression a capture 2 printServed ∧ (meter capture true 16 s.print.sums s.print.counts true).colour = true ∧
      ∀ n ∈ [1, 2, 3, 4, 5], (b.cart n).trusted = true ∧ (b.cart n).values.isSome = true := by
  refine ⟨rfl, ⟨rfl, rfl, ?_, ?_, ?_, rfl⟩, ?_⟩ <;> decide +kernel

theorem witness_SpoiledImpressionIsFree :
    let s := printing .imaging band
    let b := s.begin .calm
    s.alive = true ∧ s.print.state = .imaging ∧ s.print.number = (9 : BitVec 8).toNat ∧
      b.impression printArgs capture 2 printServed ∧ Plane.k ∈ planeSet printArgs.colour ∧
      s.print.position.get .k < printArgs.lines ∧ bandAt s.print.table .k 0 = some 0 ∧ s.print.table[0]? = some band ∧
      band.cond ≠ .ready :=
  ⟨rfl, rfl, rfl, printing_impression _ _ _ rfl, by decide +kernel⟩

/-! #### The scan path and the cipher tickets -/

/-- A Scan Page ticket whose list of one buffer stands in memory. -/
theorem scan_offered {s : State} (h : s.serving .scanPage = some scanTicket) (g : stateGate s.dev.op .scanPage = none)
    (hr : (s.begin .calm).readWords 0x2000 2 = .ok [0x7000, 80]) : ScanOffered .calm s scanTicket scanArgs [⟨0x7000, 80⟩] :=
  ⟨serves_calm h g, by decide, by decide, by decide, by decide, [0x7000, 80], hr, by decide, by decide⟩

/-- The state with that list. -/
def scanList (s : State) : State := inLane 1 scanTicket (withWords 0x2000 [0x7000, 80] s)

/-- A page covered; one that the account must top up; one it cannot; one that must wait for the scanner or for the drain. -/
theorem witness_ScanPageAdmits :
    let b (s : State) := ((scanList s).begin .calm).touchJob ⟨2, 3⟩
    let low (quota : Nat) : State := ((withSlot.putJob 2 { job with slots := [⟨1, 7⟩], free := 5 }).putRecord 5
      { member with quota }).putAcct 5 { AccountVolatile.reset with reserved := 5000 }
    (∀ s ∈ [withSlot, low 5055, low 5054, { withSlot with levels := 0xBF }, { withSlot with scan.drain := true }],
      (scanList s).serving .scanPage = some scanTicket ∧ (b s).dev.op = .running ∧ (b s).jobOf ⟨2, 3⟩ = some 2 ∧
        ((b s).job 2).state = .opened ∧ ((b s).job 2).kind ≠ .print ∧ ((b s).job 2).account = 5 ∧
        ((b s).record 5).checkOk = true ∧ (b s).seen 5 = .active ∧ (b s).mayScan 5 = true ∧
        (b s).keyGranted ⟨1, 7⟩ ⟨2, 3⟩ .scan = true ∧ ((b s).slot 1).page < 65535 ∧ (b s).lineAbnormal 3 = false ∧
        (b s).core.band = none) ∧
      20 ≤ ((b withSlot).job 2).free ∧ 5 + (5055 - 40 - 5000) = 20 ∧ 5 + (5054 - 40 - 5000) < 20 ∧
      (b withSlot).stored.settings.rates.scan.of .a = 20 ∧ (b { withSlot with levels := 0xBF }).lineAbnormal 6 = true := by
  decide +kernel

theorem witness_ScanPageAdmits_offered :
    ScanOffered .calm (scanList withSlot) scanTicket scanArgs [⟨0x7000, 80⟩] ∧
      (((scanList withSlot).begin .calm).touchJob ⟨2, 3⟩).covers 5 5000 20 :=
  ⟨scan_offered (by decide +kernel) (by decide +kernel) rfl, Or.inr (by decide +kernel)⟩

/-- A list that cannot be read. -/
theorem witness_ScanPageAdmits_unread :
    let env : Env := { badReads := [(0x2004, 1)] }
    let s := scanList withSlot
    (s.begin env).serving .scanPage = some scanTicket ∧ (s.begin env).dev.op = .running ∧ (s.begin env).closesFreely scanTicket ∧
      (scanTicket.w 9).toNat = 1 ∧ (scanTicket.w 8).toNat = 0x2000 ∧ (s.begin env).readWords 0x2000 2 = .error 0x2004 := by
  refine ⟨by decide +kernel, by decide +kernel, ⟨?_, ?_, ?_⟩, by decide +kernel, by decide +kernel, rfl⟩ <;> decide +kernel

/-- A Scan Page that waits: for the line, and for the end of the drain. -/
def scanHeld (s : State) : State :=
  inLane 1 scanServed
    { s with scan := { ScanPath.reset with state := .waiting, work := .page, args := some scanArgs, buffers := [⟨0x7000, 80⟩] } }

theorem witness_ScanPageAdmits_renewed :
    let s := scanHeld { withSlot with levels := 0xBF }
    let b := (s.begin .calm).touchJob ⟨2, 3⟩
    let d : State := { scanHeld withSlot with scan := { (scanHeld withSlot).scan with drain := true } }
    let c := (d.begin .calm).touchJob ⟨2, 3⟩
    b.scanAllowed scanArgs 2 ∧ c.scanAllowed scanArgs 2 ∧ s.coreSettled ∧ b.covers 5 (b.job 2).free 20 ∧
      b.closesFreely scanServed ∧ s.scan.state = .waiting ∧ s.scan.args = some scanArgs ∧ s.levels.getLsbD 6 ≠ true ∧
      s.levels.getLsbD 3 ≠ false ∧ (∀ n ∈ [3, 6], b.stored.settings.sense.watch.getLsbD n = true) ∧ b.lineAbnormal 6 = true ∧
      s.scan.drain = false ∧ (b.lane 1).service = some scanServed ∧ b.core.band = none ∧ b.core.printQueue = [] ∧
      d.scan.drain = true ∧ d.alive = true ∧ c.lineAbnormal 6 = false := by
  refine ⟨?_, ?_, settled_of_reset rfl, Or.inr (by decide +kernel), closes_of rfl _, by decide +kernel⟩ <;>
    unfold State.scanAllowed <;> decide +kernel

/-- A page whose band lacks one line, and one whose page does. -/
def almostFull : State := scanning { bufferPath .filling with internal := putAt pagePath.internal 0 ⟨.filling, 0, 15, bandData⟩ }
def almostLast : State := scanning { bufferPath .filling with taken := 31 }

/-- Lines that join a band, begin one, complete one by its lines and by the page's. -/
theorem witness_ScannerLineJoinsBand :
    ∀ s ∈ [scanning (bufferPath .filling), scanning pagePath, almostFull, almostLast], s.alive = true ∧ s.scan.drain = false ∧
      s.takesScanner = true ∧ s.scan.args = some scanArgs ∧ s.scan.lineLimit = false ∧ s.core.canTake = true ∧
      s.core.printQueue = [] ∧ s.core.scanWaiting = none ∧ (s.buffer 1).cond ≠ .ciphering ∧
      scanArgs.lineBytes ≤ ([1, 2, 3, 4, 5] : List Byte).length ∧ (s.buffer 0).band < s.scan.buffers.length ∧
      (s.begin .calm).keyGranted ⟨1, 7⟩ ⟨2, 3⟩ .scan = true := by decide +kernel

theorem witness_ScannerLineJoinsBand_boundaries :
    let s := scanning (bufferPath .filling)
    s.bufferIn .filling = some 0 ∧ (s.buffer 0).lines + 1 < scanArgs.bandLines ∧ s.scan.taken + 1 < scanArgs.maxLines ∧
      (scanning pagePath).bufferIn .filling = none ∧ (scanning pagePath).bufferIn .free = some 0 ∧
      scanArgs.bandLines = (almostFull.buffer 0).lines + 1 ∧ scanArgs.maxLines = almostLast.scan.taken + 1 ∧
      (scanning { bufferPath .filling with lineLimit := true }).takesScanner = true ∧
      (scanning { bufferPath .filling with drain := true }).scan.drain = true ∧
      (scanning { bufferPath .filling with pageEnd := true }).takesScanner = false := by decide +kernel

/-- A page's ticket can be closed where no write of its words fails. -/
theorem scanning_page (p : ScanPath) (env : Env) (hp : p.args = some scanArgs) (h : ((scanning p).begin env).closesFreely scanServed) :
    ((scanning p).begin env).scanPage scanArgs 2 scanServed :=
  ⟨hp, (by decide +kernel : (scanning pagePath).jobOf scanArgs.job = some 2),
    (by decide +kernel : ((scanning pagePath).lane 1).service = some scanServed), h⟩

/-- A short line; a band without a host buffer; a line without a FREE buffer, with no band WRITING and with one. -/
theorem witness_ScannerLineJoinsBand_fails :
    let s := scanning (bufferPath .filling)
    let beyond := scanning { bufferPath .filling with internal := putAt pagePath.internal 0 ⟨.filling, 1, 15, bandData⟩ }
    let two (x : BufferCond) := scanning
      { bufferPath .filling with internal := putAt (putAt pagePath.internal 0 ⟨x, 0, 16, bandData⟩) 1 ⟨.ciphering, 1, 16, bandData⟩ }
    (s.begin .calm).scanPage scanArgs 2 scanServed ∧ (beyond.begin .calm).scanPage scanArgs 2 scanServed ∧
      ((two .ciphering).begin .calm).scanPage scanArgs 2 scanServed ∧ (two .writingData).coreSettled ∧
      s.writingBuffer = none ∧ ([1, 2, 3] : List Byte).length < scanArgs.lineBytes ∧
      beyond.scan.buffers.length ≤ (beyond.buffer 0).band ∧ beyond.writingBuffer = none ∧
      (two .ciphering).takesScanner = true ∧ (two .ciphering).bufferIn .filling = none ∧ (two .ciphering).bufferIn .free = none ∧
      (two .ciphering).writingBuffer = none ∧ (two .writingData).writingBuffer = some 0 :=
  ⟨scanning_page _ _ rfl (closes_of rfl _), scanning_page _ _ rfl (closes_of rfl _), scanning_page _ _ rfl (closes_of rfl _),
    settled_of_reset rfl, by decide +kernel⟩

/-- A band completed after its slot has lost the use SCAN, by a line and by the page end. -/
theorem witness_ScannerLineJoinsBand_refused :
    let s := almostFull.putSlot 1 { liveSlot with uses := 14 }
    let b := s.begin .calm
    b.scanPage scanArgs 2 scanServed ∧ s.takesScanner = true ∧ s.writingBuffer = none ∧ s.bufferIn .filling = some 0 ∧
      0 < s.scan.taken ∧ scanArgs.bandLines = (s.buffer 0).lines + 1 ∧ (s.buffer 0).band < s.scan.buffers.length ∧
      b.keyGranted scanArgs.slot scanArgs.job .scan = false :=
  ⟨scanning_page _ _ rfl (closes_of rfl _), by decide +kernel⟩

/-- A page all of whose bands are written. -/
def writtenPath : ScanPath := { pagePath with taken := 16, begun := 1, written := 1, truncation := true }

theorem witness_ScannerEndsPage :
    let s := scanning writtenPath
    let b := s.begin .calm
    b.scanPage scanArgs 2 scanServed ∧ s.coreSettled ∧ s.alive = true ∧ s.scan.drain = false ∧ s.takesScanner = true ∧
      s.scan.args = some scanArgs ∧ 0 < s.scan.taken ∧ (∀ n < 2, (s.buffer n).cond = .free) ∧ (b.job 2).account = 5 ∧
      (b.record 5).checkOk = true ∧ (b.acct 5).damaged = false ∧ s.writingBuffer = none ∧
      (scanning { pagePath with drain := true }).scan.state ≠ .waiting ∧
      (scanning { writtenPath with pageEnd := true }).takesScanner = false ∧ (scanning pagePath).scan.taken = 0 :=
  ⟨scanning_page _ _ rfl (closes_of rfl _), settled_of_reset rfl, by decide +kernel⟩

/-- The final band with the core free and busy; without a host buffer; and a page end while another band is written. -/
theorem witness_ScannerEndsPage_final :
    let s := scanning (bufferPath .filling)
    let busy : State := { s with core := { Core.reset with band := some ⟨.print, 0, ⟨4, 2⟩, false⟩ } }
    let beyond := scanning { bufferPath .filling with internal := putAt pagePath.internal 0 ⟨.filling, 1, 15, bandData⟩ }
    s.coreSettled ∧ busy.coreSettled ∧ (beyond.begin .calm).scanPage scanArgs 2 scanServed ∧ s.bufferIn .filling = some 0 ∧
      0 < s.scan.taken ∧ (s.buffer 0).band < s.scan.buffers.length ∧ (s.buffer 1).cond ≠ .ciphering ∧ s.core.canTake = true ∧
      busy.core.canTake = false ∧ (s.begin .calm).keyGranted scanArgs.slot scanArgs.job .scan = true ∧
      beyond.scan.buffers.length ≤ (beyond.buffer 0).band ∧ beyond.writingBuffer = none ∧
      (scanning (bufferPath .writingData)).bufferIn .filling = none ∧ ((scanning (bufferPath .writingData)).buffer 0).cond ≠ .free :=
  ⟨settled_of_reset rfl, nofun, scanning_page _ _ rfl (closes_of rfl _), by decide +kernel⟩

/-- An ENDING job whose page ends it. -/
theorem witness_ScannerEndsPage_ending :
    let s := (scanning writtenPath).putJob 2
      { job with state := .ending, free := 0, slots := [⟨1, 7⟩], scanHold := 20, scanFlight := true }
    let b := s.begin .calm
    b.closesFreely scanServed ∧ b.scan.args = some scanArgs ∧ b.jobOf scanArgs.job = some 2 ∧
      (b.lane 1).service = some scanServed ∧ b.scanEndsJob 2 = true ∧ s.takesScanner = true := ⟨closes_of rfl _, by decide +kernel⟩

theorem witness_BandWriteWritesBandThenRecord :
    let s := scanning (bufferPath .writingData)
    let r := scanning (bufferPath .writingRecord)
    s.up = true ∧ s.scan.state = .scanning ∧ s.scan.work = .page ∧ s.scan.failed = none ∧ s.scan.pageEnd = false ∧
      s.scan.args = some scanArgs ∧ s.writingBuffer = some 0 ∧ s.scan.buffers[(s.buffer 0).band]? = some ⟨0x7000, 80⟩ ∧
      (s.buffer 0).cond = .writingData ∧ r.writingBuffer = some 0 ∧ (r.buffer 0).cond = .writingRecord ∧
      (r.buffer 1).cond = .free ∧ s.core = .reset ∧ Core.reset.printQueue = [] ∧ Core.reset.scanWaiting = none := by
  decide +kernel

/-- The last band of a page: its record written, or failing; and of a page that has failed. -/
theorem witness_BandWriteWritesBandThenRecord_page :
    let env : Env := { badWrites := [(0x6004, 1)] }
    let ended := { bufferPath .writingRecord with pageEnd := true }
    let failed := { bufferPath .writingRecord with failed := some ReturnCode.scanFault }
    ((scanning ended).begin .calm).scanPage scanArgs 2 scanServed ∧ ((scanning ended).begin env).scanPage scanArgs 2 scanServed ∧
      ((scanning failed).begin .calm).scanPage scanArgs 2 scanServed ∧
      ((scanning failed).begin env).scanPage scanArgs 2 scanServed ∧
      (∀ p ∈ [ended, failed], p.failed ≠ some .ok ∧ (scanning p).up = true ∧ (scanning p).scan.state = .scanning ∧
        (scanning p).writingBuffer = some 0 ∧
        ((scanning p).buffer 1).cond = .free ∧ (scanning p).scan.buffers[((scanning p).buffer 0).band]? = some ⟨0x7000, 80⟩ ∧
        (((scanning p).begin .calm).writeWords 0x6000 [0, 2, 4]).2 = none ∧
        (((scanning p).begin env).writeWords 0x6000 [0, 2, 4]).2 = some 0x6004) ∧
      (((scanning (bufferPath .writingData)).begin { badWrites := [(0x7002, 1)] }).writeBytes 0x7000 bandData).2 = some 0x7002 :=
  ⟨scanning_page _ _ rfl (closes_of rfl _), scanning_page _ _ rfl (by unfold State.closesFreely; decide +kernel),
    scanning_page _ _ rfl (closes_of rfl _), scanning_page _ _ rfl (by unfold State.closesFreely; decide +kernel), by decide +kernel⟩

/-- A cipher ticket whose buffer 0 is being written. -/
def writing (work : ScanWork) (x : BufferCond) (written : Nat) (failed : Option ReturnCode) (other : BufferCond) : State :=
  let s := coreWork work ⟨x, written, 2, bandData⟩ ⟨other, 1, 2, bandData⟩
  { s with scan := { s.scan with written, failed }, core := .reset }

/-- The last band, and one before it, with the other buffer FILLING, CIPHERED and FREE; after a failure; and a write that fails. -/
theorem witness_BandWriteWritesBandThenRecord_cipher :
    ∀ x ∈ [(ScanWork.encipher, BufferCond.writingRecord), (.decipher, .writingData)], ∀ failed ∈ [none, some ReturnCode.cipherFail],
      ∀ written ∈ [0, 1], ∀ other ∈ [BufferCond.free, .filling, .ciphered],
      let s := writing x.1 x.2 written failed other
      s.coreSettled ∧ s.up = true ∧ s.scan.args = some scanArgs ∧ s.writingBuffer = some 0 ∧ s.scan.state = .ciphering ∧
        s.scan.buffers[(s.buffer 0).band]?.isSome = true ∧ (s.buffer 1).isWriting = false ∧ s.scan.failed = failed ∧
        (s.scan.sources.length ≤ s.scan.written + 1 ↔ written = 1) ∧ ((s.begin .calm).lane 1).service = some scanServed ∧
        ((s.begin .calm).writeBytes (s.destination written) bandData).2 = none ∧
        ((s.begin { badWrites := [(0x7002, 1), (0x7102, 1)] }).writeBytes (s.destination written) bandData).2 ≠ none := by
  unfold State.coreSettled
  decide +kernel

def encipherTicket : Ticket :=
  ticket 0x22 1 [(2, jobField), (3, slotWord), (5, 2), (6, 0x2000), (7, 0x2100), (8, 0x6000)]
def decipherTicket : Ticket := ticket 0x23 1 [(2, jobField), (3, slotWord), (4, 3), (5, 2), (6, 0x2000), (7, 0x2100)]
def sources : List Source := [⟨0x3000, 20, 2⟩, ⟨0x3100, 20, 2⟩]
def destinations : List Destination := [⟨0x7000, 80⟩, ⟨0x7100, 80⟩]

/-- Their lists in memory. -/
def cipherLists : State :=
  withWords 0x2100 [0x7000, 80, 0x7100, 80] (withWords 0x2000 [0x3000, 20, 2, 0x3100, 20, 2] withSlot)

theorem witness_CipherTicketsBegin :
    let s := inLane 1 encipherTicket cipherLists
    let d := inLane 1 decipherTicket cipherLists
    let b := (s.begin .calm).touchJob ⟨2, 3⟩
    Serves .calm s .encipherBands encipherTicket ∧ Serves .calm d .decipherBands decipherTicket ∧
      (s.begin .calm).readCipherLists 2 0x2000 0x2100 = .ok (sources, destinations) ∧
      (encipherTicket.w 5).toNat = 2 ∧ areaOk (encipherTicket.w 6).toNat = true ∧ areaOk (encipherTicket.w 7).toNat = true ∧
      areaOk (encipherTicket.w 8).toNat = true ∧ (decipherTicket.w 4).toNat ≤ 65535 ∧
      (∀ x ∈ sources.zip destinations, encipherFaulty x = false) ∧ (∀ x ∈ sources.zip destinations, decipherFaulty x = false) ∧
      b.jobOf ⟨2, 3⟩ = some 2 ∧ (b.job 2).state ≠ .ending ∧ (b.job 2).account = 5 ∧ (b.record 5).checkOk = true ∧
      b.seen 5 = .active ∧ b.keyGranted ⟨1, 7⟩ ⟨2, 3⟩ .encipher = true ∧ b.keyGranted ⟨1, 7⟩ ⟨2, 3⟩ .decipher = true ∧
      (b.slot 1).page < 65535 ∧ b.authorised ⟨2, 3⟩ ⟨1, 7⟩ = true :=
  ⟨serves_calm (by decide +kernel) (by decide +kernel), serves_calm (by decide +kernel) (by decide +kernel), rfl, by decide +kernel⟩

/-- An Encipher Bands ticket reading its first source. -/
def enciphering : State :=
  { withWords 0x3000 [1, 2, 3, 4, 5] cipherLists with
    scan :=
      { ScanPath.reset with
        state := .ciphering, work := .encipher, args := some scanArgs, sources, buffers := destinations, page := 4, begun := 1,
        internal := putAt (Vector.replicate 2 Buffer.erased) 0 ⟨.filling, 0, 0, []⟩ } }

theorem witness_SourceReadPresentsBand :
    ∀ work ∈ [ScanWork.encipher, .decipher],
      let s : State := { enciphering with scan := { enciphering.scan with work } }
      s.up = true ∧ s.scan.state = .ciphering ∧ s.scan.work = work ∧ s.scan.failed = none ∧ s.scan.args = some scanArgs ∧
        (s.buffer 0).cond = .filling ∧ (s.buffer 1).cond = .free ∧
        s.scan.sources[(s.buffer 0).band]? = some ⟨0x3000, 20, 2⟩ ∧ s.scan.begun < s.scan.sources.length ∧ s.core = .reset ∧
        (s.begin .calm).keyGranted ⟨1, 7⟩ ⟨2, 3⟩ .encipher = true ∧ (s.begin .calm).keyGranted ⟨1, 7⟩ ⟨2, 3⟩ .decipher = true ∧
        (s.begin .calm).authorised ⟨2, 3⟩ ⟨1, 7⟩ = true ∧ ((s.begin .calm).readBytes 0x3000 20).toOption.isSome = true := by
  decide +kernel

/-- A source that cannot be read; a slot that has lost the use; a job whose session has ended. -/
theorem witness_SourceReadPresentsBand_fails :
    ∀ work ∈ [ScanWork.encipher, .decipher], ∀ other ∈ [BufferCond.free, .writingData],
      let s := coreWork work ⟨.filling, 0, 0, []⟩ ⟨other, 1, 2, bandData⟩
      let env : Env := { badReads := [(0x3004, 1)] }
      s.up = true ∧ s.scan.state = .ciphering ∧ s.scan.work ≠ .page ∧ s.scan.failed = none ∧ s.scan.args = some scanArgs ∧
        s.bufferIn .filling = some 0 ∧ s.scan.sources[(s.buffer 0).band]? = some ⟨0x3000, 20, 5⟩ ∧
        ((s.begin env).lane 1).service = some scanServed ∧ wordFails env.badWrites (scanServed.address + 60) = false ∧
        ((s.begin env).readBytes 0x3000 20).toOption = none ∧ ((s.begin .calm).readBytes 0x3000 20).toOption.isSome = true ∧
        (((s.putSlot 1 { liveSlot with uses := 9 }).begin .calm).keyGranted scanArgs.slot scanArgs.job work.use = false) ∧
        (s.begin .calm).keyGranted scanArgs.slot scanArgs.job work.use = true ∧
        ((s.putSession 0 (.free 2)).begin .calm).authorised scanArgs.job scanArgs.slot = false := by decide +kernel

/-! #### What reaches memory -/

/-- The laws of units hold of a cipher ticket's work. -/
theorem coreWork_unitsLawful (work : ScanWork) (h : work ≠ .page) (x y : Buffer) : (coreWork work x y).unitsLawful := by
  have hf : ∀ i, (withSlot.job i).scanFlight = false := forall_entries (p := fun j : Job => j.scanFlight = false) (by decide +kernel) rfl
  obtain ⟨hb, hq, hl⟩ := withSlot_unitsLawful
  refine ⟨hb, hq, fun _ => ⟨⟨nofun, fun hp => ?_, (hl rfl).1.2.2⟩, fun _ => ?_, nofun, fun i hi => ?_, fun _ => h, nofun, ?_⟩⟩
  · rcases hp with hp | hp | hp <;> cases hp
  · exact ⟨scanServed, rfl, rfl⟩
  · exact absurd hi (by simp [show (coreWork work x y).job i = withSlot.job i from rfl, hf i])
  · rintro (hp | hp) <;> cases hp

/-- So do those of the slots and their keys, which are about the slots, the jobs and the count of draws alone. -/
theorem slotLaws_of {s t : State} (hs : t.slots = s.slots) (hj : t.jobs = s.jobs) (hd : t.draws = s.draws)
    (h : s.slotsLawful ∧ s.slotsAgree ∧ s.keysDrawn) : t.slotsLawful ∧ t.slotsAgree ∧ t.keysDrawn := by
  simp only [State.slotsLawful, State.slotsAgree, State.keysDrawn, State.slot, State.job, State.jobOf, State.slotOf,
    State.jobHandle, hs, hj, hd] at h ⊢
  exact h

/-- A band that the core has enciphered, being written, while the next waits for the core. -/
def sealing : State :=
  coreWork .encipher ⟨.ciphering, 1, 2, bandData⟩ ⟨.writingData, 0, 2, encipherBand (Config.randomSource.key 0) ⟨7, 3, 0⟩ bandData⟩

theorem sealing_bandsSealed : sealing.bandsSealed := by
  have two {p : Nat → Prop} (h0 : p 0) (h1 : p 1) : ∀ i < 2, p i := fun i hi => by interval_cases i; exacts [h0, h1]
  refine ⟨two (fun _ => ⟨scanArgs, rfl, rfl⟩) nofun, two (fun h => ?_) (fun _ => ⟨0, by decide, ⟨7, 3, 0⟩, bandData, rfl⟩), ?_, nofun,
    nofun, nofun⟩
  · rcases h with h | h <;> cases h
  · rintro c ⟨⟩ _ _
    exact ⟨by decide, rfl⟩

theorem writeDone_answers (s : State) : Answers (.bandWriteDone .calm) s (after (.bandWriteDone .calm) s) := rfl

theorem readDone_answers (s : State) : Answers (.sourceReadDone .calm) s (after (.sourceReadDone .calm) s) := rfl

theorem witness_OnlyCiphertextReachesMemory :
    sealing.slotsLawful ∧ sealing.slotsAgree ∧ sealing.keysDrawn ∧ sealing.unitsLawful ∧ sealing.bandsSealed ∧
      sealing.memoryCanonical ∧ step sealing = .next sealing ∧
      Answers (.bandWriteDone .calm) sealing (after (.bandWriteDone .calm) sealing) ∧ sealing.writingBuffer = some 1 := by
  have h : sealing.slotsLawful ∧ sealing.slotsAgree ∧ sealing.keysDrawn :=
    slotLaws_of (s := drawn) rfl rfl rfl ⟨drawn_slotsLawful, drawn_slotsAgree, drawn_keysDrawn⟩
  exact ⟨h.1, h.2.1, h.2.2, coreWork_unitsLawful _ (by decide) _ _, sealing_bandsSealed, canonical_of rfl rfl rfl, rfl,
    writeDone_answers _, by decide +kernel⟩

/-- A command that brings a band to the core, of Encipher Bands and of Decipher Bands. -/
theorem witness_OnlyCiphertextReachesMemory_presents :
    ∀ work ∈ [ScanWork.encipher, .decipher],
      let s := coreWork work ⟨.filling, 0, 0, []⟩ .erased
      s.unitsLawful ∧ Answers (.sourceReadDone .calm) s (after (.sourceReadDone .calm) s) ∧
        ((after (.sourceReadDone .calm) s).buffer 0).cond = .ciphering ∧ (s.buffer 0).cond ≠ .ciphering := by
  intro work h
  refine ⟨coreWork_unitsLawful work (by rintro rfl; simp at h) _ _, readDone_answers _, ?_⟩
  revert work
  decide +kernel

/-! #### Sense lines, supplies and the link -/

theorem witness_PrivacyEdgeWithdraws :
    withSlot.slotsLawful ∧ withSlot.alive = true ∧ withSlot.levels.getLsbD 4 ≠ false ∧ withSlot.levels.getLsbD 2 = true ∧
      withSlot.lineAbnormal 4 = false ∧ withSlot.stored.settings.sense.watch.getLsbD 4 = true ∧ withSlot.dev.op = .running :=
  ⟨withSlot_slotsLawful, by decide +kernel⟩

/-- A page in flight, and cipher tickets with and without a band being written. -/
theorem witness_PrivacyEdgeWithdraws_scan :
    (∀ s ∈ [scanning (bufferPath .ciphering), coreWork .encipher ⟨.ciphering, 0, 2, bandData⟩ .erased,
        coreWork .decipher ⟨.ciphering, 1, 2, bandData⟩ ⟨.writingData, 0, 2, bandData⟩], s.alive = true ∧ s.levels.getLsbD 4 ≠ false ∧
      s.lineAbnormal 4 = false ∧ s.stored.settings.sense.watch.getLsbD 4 = true ∧ s.dev.op = .running ∧ s.print.state = .idle ∧
      s.scan.failed = none ∧ s.scan.args = some scanArgs ∧ ((s.begin .calm).lane 1).service = some scanServed) ∧
      (scanning (bufferPath .ciphering)).writingBuffer = none ∧
      ((scanning (bufferPath .ciphering)).begin .calm).jobOf scanArgs.job = some 2 ∧
      (coreWork .decipher ⟨.ciphering, 1, 2, bandData⟩ ⟨.writingData, 0, 2, bandData⟩).writingBuffer = some 1 := by decide +kernel

theorem witness_TonerDoorEdge :
    let s : State := { supplied withSlot with link := { Link.reset with queue := [.queued 1 .check true, .queued 5 .check false] } }
    let d : State := { supplied withSlot with levels := 0xFD }
    s.alive = true ∧ s.levels.getLsbD 1 ≠ false ∧ s.print.state = .idle ∧ s.stored.settings.sense.watch.getLsbD 1 = true ∧
      s.lineAbnormal 1 = false ∧ s.checkWait = none ∧ s.core.printQueue = [] ∧ s.core.scanWaiting = none ∧
      d.levels.getLsbD 1 ≠ true ∧ d.lineAbnormal 1 = true ∧ d.dev.op = .running ∧ d.link.queue = [] := by decide +kernel

/-- R122, R129: four trusted cartridges at the edge; slot 4's entry ends in front, the others behind it. -/
theorem test_door_list_writes :
    (after (.senseLineEdge .calm 1 false) (supplied withSlot)).stored.known.map (·.id) = [104, 103, 102, 101] := by decide +kernel

/-- R9: a loss of power while ALL goes through accounts 5 to 7: account 5 is at 0 and account 7 as it was, or both are at 0. -/
theorem test_reset_all_broken_off :
    let s := ([5, 6, 7].foldl State.resetOne (((running.putRecord 5 member).putRecord 7 member).begin .calm, 0, 0)).1
    [0, 1, 2].map (fun n => (((s.losePower n).record 5).used, ((s.losePower n).record 7).used)) = [(40, 40), (0, 40), (0, 0)] := by decide +kernel

/-- R122: a loss of power after the first of those writes leaves slot 1's entry alone; one before all of them leaves none. -/
theorem test_door_list_writes_broken_off :
    let t := after (.senseLineEdge .calm 1 false) (supplied withSlot)
    (after (.lossOfPower 1) t).stored.known.map (·.id) = [101] ∧
      (after (.lossOfPower 0) t).stored.known = [] ∧
      Answers (.lossOfPower 1) t (after (.lossOfPower 1) t) := by
  refine ⟨by decide +kernel, by decide +kernel, rfl⟩

def checkTicket : Ticket := ticket 0x61 3 [(2, 0x13), (3, 0x5000), (4, 5)]
def readCartridgesTicket : Ticket := ticket 0x62 3 [(2, 0x5000), (3, 6)]

theorem witness_CartridgeTickets :
    let s := inLane 3 checkTicket withSlot
    let shut := inLane 3 checkTicket { withSlot with levels := 0xFC }
    Serves .calm s .checkCartridge checkTicket ∧ Serves .calm shut .checkCartridge checkTicket ∧
      Serves .calm (inLane 3 readCartridgesTicket withSlot) .readCartridges readCartridgesTicket ∧
      bits (checkTicket.w 2) 7 0 = 0x13 ∧ areaOk (checkTicket.w 3).toNat = true ∧
      areaOk (readCartridgesTicket.w 2).toNat = true ∧ (s.begin .calm).link.queue = [] ∧
      (∀ n ∈ supplySlots, (s.begin .calm).lineAbnormal (doorLine n) = false) ∧
      (∀ n ∈ supplySlots, (shut.begin .calm).lineAbnormal (doorLine n) = true) :=
  ⟨serves_calm (by decide +kernel) (by decide +kernel), serves_calm (by decide +kernel) (by decide +kernel),
    serves_calm (by decide +kernel) (by decide +kernel), by decide +kernel⟩

theorem witness_CheckStartsAndSends :
    let s : State := { withSlot with link := { Link.reset with queue := [.queued 2 .check false, .queued 5 .check false] } }
    s.up = true ∧ s.dev.op = .running ∧ s.link.state = .idle ∧ s.link.transaction = none ∧
      s.link.queue = .queued 2 .check false :: [.queued 5 .check false] ∧ (Procedure.queued 5 .check false).slot ≠ 2 ∧
      s.checkWait = none ∧ s.print.state ≠ .waiting ∧ (s.cart 2).auth = .unchecked := by decide +kernel

/-- A CHECK of slot 2 whose IDENTIFY is on the wire. -/
def procedure : Procedure :=
  { slot := 2, kind := .check, running := true, waiter := false, nonce := some 77, identity := none, phase := some .identify,
    captured := none }
def transaction : Transaction :=
  { slot := 2, command := .identify, sequence := 5, payload := [], retries := 0, discarded := false }

/-- The state with a procedure and a transaction on the link. -/
def onWire (p : Procedure) (t : Transaction) (st : LinkState) : State :=
  { withSlot with link := { Link.reset with queue := [p, .queued 5 .check false], transaction := some t, state := st } }

/-- An IDENTIFY payload that names a kind. -/
def identifyPayload (kind : Byte) : List Byte := [1, 2, 3, 4, 5, 6, 7, 8, kind, 0x40, 0x42, 0x0F, 0, 0x10, 0x27, 0, 0, 9, 0, 0, 0]

/-- A RECORD of a trusted record, and one of a record that is not. -/
theorem witness_CheckStartsAndSends_record :
    ∀ auth ∈ [AuthState.verified, .unchecked],
      let s : State :=
        { (supplied withSlot).putCart 2 { verified 2 with auth } with
          link := { Link.reset with queue := [.queued 2 .record false, .queued 5 .check false] } }
      s.up = true ∧ s.dev.op = .running ∧ s.link.state = .idle ∧ s.link.transaction = none ∧
        s.link.queue = .queued 2 .record false :: [.queued 5 .check false] ∧ s.checkWait = none ∧ s.print.state ≠ .waiting ∧
        ((s.begin .calm).cart 2).auth = auth ∧ ((s.begin .calm).cart 2).values = (verified 2).values := by decide +kernel

/-- A waiting Check Cartridge whose last CHECK goes unanswered. -/
theorem witness_CartridgeTickets_end :
    let p := { procedure with waiter := true }
    let tr := { transaction with retries := 2 }
    let s := inLane 3 { checkTicket with begun := true }
      { onWire p tr .response with checkWait := some { failed := 0, notChecked := 1, result := 0x5000, capacity := 5 } }
    s.up = true ∧ s.checkWait.isSome = true ∧ s.print.state ≠ .waiting ∧ s.link.state = .response ∧
      s.link.transaction = some tr ∧ tr.discarded = false ∧ s.link.queue = p :: [.queued 5 .check false] ∧ p.running = true ∧
      p.kind = .check ∧ p.phase = some .identify ∧ (Procedure.queued 5 .check false).waiter = false ∧
      ((s.begin .calm).lane 3).service = some { checkTicket with begun := true } ∧
      (s.begin .calm).stored.settings.supply.retryLimit ≤ tr.retries := by decide +kernel

theorem witness_IdentifyResponse :
    let s := onWire procedure transaction .response
    s.up = true ∧ s.link.state = .response ∧ s.link.transaction = some transaction ∧ transaction.discarded = false ∧
      transaction.command = .identify ∧ s.link.queue = procedure :: [.queued 5 .check false] ∧ procedure.running = true ∧
      procedure.kind = .check ∧ procedure.phase = some .identify ∧ procedure.waiter = false ∧
      procedure.slot = transaction.slot ∧ transaction.sequence < 16 ∧ (identifyPayload 2).length = 21 ∧ s.checkWait = none ∧
      s.print.state ≠ .waiting ∧ (Identity.ofPayload (identifyPayload 2)).kind = procedure.slot ∧
      (Identity.ofPayload (identifyPayload 3)).kind ≠ procedure.slot := by decide +kernel

def identity : Identity := Identity.ofPayload (identifyPayload 2)
def proving : Procedure := { procedure with phase := some .prove, identity := some identity }
def proveTransaction : Transaction := { transaction with command := .prove, payload := bytes16 77 }

theorem witness_ProveResponse :
    let s := onWire proving proveTransaction .response
    s.up = true ∧ s.link.state = .response ∧ s.link.transaction = some proveTransaction ∧ proveTransaction.discarded = false ∧
      proveTransaction.command = .prove ∧ s.link.queue = proving :: [.queued 5 .check false] ∧ proving.running = true ∧
      (∀ q ∈ s.link.queue.tail, q.running = false) ∧
      proving.kind = .check ∧ proving.phase = some .prove ∧ proving.identity = some identity ∧ proving.waiter = false ∧
      proving.slot = proveTransaction.slot ∧ proveTransaction.sequence < 16 ∧ s.checkWait = none ∧
      s.print.state ≠ .waiting ∧ s.stored.settings.supply.policy ≠ .lenient := by decide +kernel

/-- Whatever proof the part expects, one payload of 16 bytes proves it and another does not. -/
theorem witness_ProveResponse_proof (expected : BitVec 128) :
    (∃ payload : List Byte, payload.length = 16 ∧ expected = BitVec.ofNat 128 (littleEndian payload)) ∧
      ∃ payload : List Byte, payload.length = 16 ∧ expected ≠ BitVec.ofNat 128 (littleEndian payload) := by
  have h : ∀ v : BitVec 128, BitVec.ofNat 128 (littleEndian (bytes16 v)) = v := by
    intro v
    have hv := v.isLt
    apply BitVec.eq_of_toNat_eq
    simp only [littleEndian, bytes16, List.range, List.range.loop, List.map, List.foldr, BitVec.toNat_setWidth,
      BitVec.toNat_ushiftRight, Nat.shiftRight_eq_div_pow, BitVec.toNat_ofNat]
    omega
  refine ⟨⟨bytes16 expected, by simp [bytes16], (h expected).symm⟩, ⟨bytes16 (expected + 1), by simp [bytes16], ?_⟩⟩
  rw [h]
  intro he
  have := congrArg BitVec.toNat he
  have := expected.isLt
  simp at *

/-- The chip's ID in the known-cartridge list, and not in it. -/
theorem witness_ProveResponse_known :
    let s := onWire proving proveTransaction .response
    let k : State := { s with stored := { s.stored with known := [⟨identity.id, 2, 5000, 12⟩] } }
    s.stored.known.find? (fun e => e.id = identity.id) = none ∧
      k.stored.known.find? (fun e => e.id = identity.id) = some ⟨identity.id, 2, 5000, 12⟩ ∧ (Procedure.queued 5 .check false).slot ≠ 2 := by
  decide +kernel

/-- A RECORD on the wire, of a trusted record and of one that has stopped being trusted. -/
theorem witness_ProveResponse_record :
    ∀ auth ∈ [AuthState.verified, .rejected],
      let p : Procedure := { Procedure.queued 2 .record false with running := true, captured := some (900000, 3) }
      let tr := { transaction with command := .record, payload := countBytes 900000 ++ countBytes 3, retries := 2 }
      let s := (supplied (onWire p tr .response)).putCart 2 { verified 2 with auth }
      s.up = true ∧ s.link.state = .response ∧ s.link.transaction = some tr ∧ tr.discarded = false ∧ tr.command = .record ∧
        s.link.queue = p :: [.queued 5 .check false] ∧ p.running = true ∧ p.kind = .record ∧ p.waiter = false ∧ p.slot = tr.slot ∧
        tr.sequence < 16 ∧ s.checkWait = none ∧ s.print.state ≠ .waiting ∧ ((s.begin .calm).cart 2).auth = auth ∧
        ((s.begin .calm).cart 2).id = some 102 ∧ ((s.begin .calm).cart 2).values.isSome = true ∧
        (s.begin .calm).stored.settings.supply.retryLimit ≤ tr.retries ∧ (countBytes 40000 ++ countBytes 9).length = 8 := by
  decide +kernel

theorem witness_AttemptsFailAndLineSticks :
    let s := onWire procedure transaction .response
    let last := onWire procedure { transaction with retries := 2 } .settling
    s.up = true ∧ s.link.state = .response ∧ s.link.transaction = some transaction ∧ transaction.discarded = false ∧
      s.checkWait = none ∧ s.print.state ≠ .waiting ∧ transaction.retries < (s.begin .calm).stored.settings.supply.retryLimit ∧
      crc8 (([1, 2, 3, 0, 9] : List Byte).take 4) ≠ ([1, 2, 3, 0, 9] : List Byte).getD 4 0 ∧ last.link.state = .settling ∧
      (last.begin .calm).stored.settings.supply.retryLimit ≤ 2 ∧
      last.link.queue = procedure :: [.queued 5 .check false] ∧ withSlot.link.state = .idle ∧
      withSlot.link.transaction = none ∧ ({ withSlot with link := { Link.reset with state := .stuck } } : State).up = true := by
  decide +kernel

/-- A chip that has answered, and a transaction with it. -/
def chip : Chip := { slot := 2, identity, last := some { sequence := 5, command := .identify, payload := identifyPayload 2 } }

theorem witness_AttemptsFailAndLineSticks_chip :
    chip.slot = proveTransaction.slot ∧ proveTransaction.sequence < 16 ∧ proveTransaction.payload.length ≤ 16 ∧
      (∀ x, chip.last = some x → x.payload.length = x.command.responseLength ∧ x.sequence < 16) := by
  refine ⟨rfl, by decide +kernel, by decide +kernel, ?_⟩
  rintro x ⟨⟩
  exact ⟨rfl, by decide⟩

/-- R138: a RECORD received again is answered as before and acted on once; the answer is the pair the chip now holds. -/
theorem test_chip_repeats :
    let frame : List Byte := [2, 3, 6, 8] ++ countBytes 5000 ++ countBytes 12
    let r := chip.receive (frame ++ [crc8 frame])
    r.1.identity.remaining = 5000 ∧ r.1.identity.useCount = 12 ∧ r.1.receive (frame ++ [crc8 frame]) = r ∧
      r.2.map List.length = some 13 := by decide +kernel

/-! #### Arithmetic -/

theorem witness_CheckByteDetectsErrors : 2 < ([1, 2] : List Byte).length + 1 ∧ (0x80 : Byte) ≠ 0 := by decide

/-- Whatever the tag of a plaintext, some 16 bytes differ from it. -/
theorem witness_DecipherInvertsEncipher (t : BitVec 128) : ∃ tag : List Byte, tag.length = 16 ∧ tag ≠ tagBytes t := by
  rcases eq_or_ne (List.replicate 16 (0 : Byte)) (tagBytes t) with h | h
  · exact ⟨List.replicate 16 1, rfl, fun e => absurd (e.trans h.symm) (by decide)⟩
  · exact ⟨_, rfl, h⟩

/-- Another nonce, another draw, and bytes that differ from those of a band. -/
theorem witness_DecipherInvertsEncipher_altered :
    (⟨7, 3, 0⟩ : Config.Nonce) ≠ ⟨7, 3, 1⟩ ∧ (0 : Nat) < 2 ^ 64 ∧ (2 ^ 64 - 1 : Nat) < 2 ^ 64 ∧ (0 : Nat) ≠ 2 ^ 64 - 1 ∧
      (18 : Nat) < ([1, 2, 3] : List Byte).length + 16 ∧ ∀ x : Byte, ∃ y : Byte, y ≠ x :=
  ⟨by decide, by decide, by decide, by decide, by decide, fun x => ⟨x + 1, by bv_omega⟩⟩

/-- R83: a part whose tags tell nonces, keys and altered bytes apart exists. -/
theorem test_secrets_lawful : ∃ x : Config.Secrets, x.core = Config.plainCore :=
  ⟨{ core := Config.plainCore, source := Config.countingSource, tag_key := Config.countingSource_tag }, rfl⟩

/-- A full page of black of the worked case: the largest sum of its pixels and lines. -/
theorem witness_MeteringStaysInRange :
    (255 : Nat) ≤ 255 ∧ (4800 : Nat) * 7000 * 4095 ≤ 4800 * 7000 * 4095 ∧ coverageOf (4800 * 7000 * 4095) 4800 7000 = 10000 := by
  decide +kernel

/-! #### Laws every step keeps -/

theorem step_reset : step .reset = .next .reset := rfl

theorem step_notice : step { State.reset with pending := [.noticeRead] } = .next (after .noticeRead .reset) := rfl

theorem witness_StepKeepsMemoryCanonical : State.reset.memoryCanonical ∧ step .reset = .next .reset :=
  ⟨⟨by decide, by decide⟩, step_reset⟩

theorem witness_StepKeepsSupplyLaws :
    State.reset.listLawful ∧ State.reset.queueLawful ∧ State.reset.cartridgesLawful ∧ step .reset = .next .reset := by
  refine ⟨⟨⟨by decide, by decide⟩, ⟨by decide, by decide⟩, nofun⟩, ⟨by decide, by decide, by decide⟩, ?_, step_reset⟩
  intro slot
  exact forall_replicate (p := Cartridge.lawful) 5 (fun v h => by cases h) (fun v h => by cases h) (slot - 1)

theorem witness_StepKeepsDeviceLaws :
    State.reset.settingsLawful ∧ State.reset.intakeLawful ∧ State.reset.faults.lawful ∧ withSlot.entryRecorded ∧
      step { State.reset with pending := [.noticeRead] } = .next (after .noticeRead .reset) := by
  have h : Settings.factory.lawful := by
    refine ⟨⟨?_, ?_, ?_, ?_, ?_⟩, ⟨?_, ?_, ?_⟩, ?_, ?_⟩
    · unfold SizeRates.lawful; decide
    · unfold SizeRates.lawful; decide
    · unfold SizeRates.lawful; decide
    · unfold TierTable.lawful; decide
    · unfold TierTable.lawful; decide
    · intro p
      exact forall_entries (p := fun x : Nat => x ≤ 4095) (by cases p <;> decide) (by decide)
    · intro p
      cases p <;> decide
    · decide
    · unfold Timers.lawful; decide
    · unfold SupplySettings.lawful; decide
  refine ⟨⟨h, h, nofun⟩, ?_, ⟨fun _ => ⟨rfl, rfl⟩, by decide⟩, nofun, step_notice⟩
  intro n
  have : State.reset.lane n = .reset := by revert n; decide
  rw [this]
  exact ⟨by decide, by decide⟩

theorem witness_StepKeepsSlotsAndRest :
    let testing : State := { withdrawnAt 500 with core := { Core.reset with resumeTest := true } }
    drawn.slotsLawful ∧ drawn.slotsAgree ∧ drawn.keysDrawn ∧ drawn.coreSettled ∧ startingUp.startRests ∧ testing.testsWithdrawn ∧
      testing.core.resumeTest = true ∧ step drawn = .next drawn ∧ step startingUp = .next startingUp ∧
      step testing = .next testing :=
  ⟨drawn_slotsLawful, drawn_slotsAgree, drawn_keysDrawn, settled_of_reset rfl,
    fun _ => ⟨rfl, rfl, rfl, rfl, rfl, rfl, by decide +kernel⟩, fun _ => rfl, rfl, rfl, rfl, rfl⟩

theorem witness_OperatingStateTransitions :
    startingUp.testsWithdrawn ∧ Answers (.startEnd .calm) startingUp (after (.startEnd .calm) startingUp) ∧
      (after (.startEnd .calm) startingUp).dev.op = .running := ⟨nofun, rfl, by decide +kernel⟩

theorem witness_SlotsBecomeLiveByTicket :
    let s := inLane 0 openSlotTicket withSlot
    Answers (.openSlot .calm) s (after (.openSlot .calm) s) ∧ ((after (.openSlot .calm) s).slot 0).state = .live :=
  ⟨rfl, by decide +kernel⟩

/-- A page delivered; and the meters found decayed at the same command. -/
theorem witness_MetersNeverDecrease :
    ∀ decayed ∈ [[], [Decay.meters { mono := 5, colour := 0, spoiled := 0, scanned := 0, toner := 2 ^ 64 - 1 }]],
      let c := Instr.engineOutcome { decayed } 9 true
      (∀ writes, c ≠ .lossOfPower writes) ∧ Answers c imaged (after c imaged) ∧
        Machine.Meters.lawful (imaged.begin c.env).stored.meters ∧ Machine.Meters.lawful imaged.stored.meters ∧
        (after c imaged).stored.meters.mono = (imaged.begin c.env).stored.meters.mono + 1 := by
  intro decayed h
  refine ⟨nofun, rfl, ?_⟩
  revert decayed
  unfold Machine.Meters.lawful
  decide +kernel

end Sys2Proof.Tests
end

section
/-! Notice, Notice Enable and NINT (R164 to R166, R168): the frame every register command leaves, the bits of a cause, what the
three commands answer, and the two statements assembled from these. -/

namespace Sys2Proof.Machine

variable {s t : State} {c : Cause} {v : Word}

/-! ### The frame of a command without effect -/

@[simp] theorem State.quiet_notice : s.quiet.notice = s.notice := rfl

/-- With no time passed, nothing stored by others and nothing decayed, only the copies of a command's frame are renewed: the clock
stands still because it is a 32-bit value. -/
theorem State.quiet_eq (hclock : s.dev.clock < 2 ^ 32) :
    s.quiet = { s with engineOut := [], shadow := s.stored, shadowMem := s.mem, afterWrites := [], env := .calm } := by
  have hdev : (s.begin .calm).dev = s.dev := by
    have helapsed : clockAfter s.dev.clock Env.calm.elapsed = s.dev.clock := clockAfter_calm _ hclock
    rw [State.begin_dev, helapsed, ite_self]
  have hquiet : s.quiet = { s with
      dev := (s.begin .calm).dev, engineOut := [], shadow := s.stored, shadowMem := s.mem, afterWrites := [], env := .calm } := rfl
  rw [hquiet, hdev]

/-! ### The bits of a cause -/

/-- Section 12.5: every cause has its bit among the 13 of Notice. -/
theorem Cause.bit_lt (c : Cause) : c.bit < 13 := by
  cases c with
  | closed lane => exact Nat.lt_trans lane.isLt (by decide)
  | dropped lane => exact Nat.lt_trans (Nat.add_lt_add_left lane.isLt 4) (by decide)
  | stale | supply | sense | fault | timer => decide

theorem Cause.mask_getLsbD_bit (c : Cause) : c.mask.getLsbD c.bit = true := by
  simp [Cause.mask, c.bit_lt]

/-- R164: a cause raised is set, whatever stood in Notice. -/
theorem State.raise_notice_getLsbD_bit (s : State) (c : Cause) : (s.raise c).notice.getLsbD c.bit = true := by
  rw [State.raise_notice, BitVec.getLsbD_or, c.mask_getLsbD_bit, Bool.or_true]

/-! ### NINT -/

/-- R166: NINT read bit by bit. -/
theorem State.nintAsserted_iff :
    s.nintAsserted = true ↔ ∃ i < 13, s.notice.getLsbD i = true ∧ s.enable.getLsbD i = true := by
  have hword : s.nintAsserted = true ↔ s.notice &&& s.enable ≠ 0 := bne_iff_ne
  rw [hword]
  constructor
  · intro hne
    by_contra hnone
    refine hne (BitVec.eq_of_getLsbD_eq fun i hi => ?_)
    have hbit : ¬(s.notice.getLsbD i = true ∧ s.enable.getLsbD i = true) := fun h => hnone ⟨i, hi, h⟩
    simpa using hbit
  · rintro ⟨i, _, hnotice, henable⟩ hzero
    have hset : (s.notice &&& s.enable).getLsbD i = true := by rw [BitVec.getLsbD_and, hnotice, henable, Bool.and_true]
    rw [hzero] at hset
    simp at hset

/-- R166: an enabled cause asserts NINT when it is raised. -/
theorem State.raise_nintAsserted (henable : s.enable.getLsbD c.bit = true) : (s.raise c).nintAsserted = true :=
  State.nintAsserted_iff.mpr ⟨c.bit, c.bit_lt, s.raise_notice_getLsbD_bit c, henable⟩

theorem State.nintAsserted_of_notice_zero (hnotice : s.notice = 0) : s.nintAsserted = false := by
  simp [State.nintAsserted, hnotice]

/-! ### What the commands answer -/

/-- R165. -/
theorem answers_noticeRead_iff (halive : s.alive = true) :
    Answers .noticeRead s t ↔ t = { s.quiet with readData := s.notice.setWidth 32, notice := 0 } := by
  have hexec : exec .noticeRead s = execNoticeRead s := rfl
  rw [Answers, hexec, execNoticeRead, command_next, State.begin_alive, if_pos halive, Host.Outcome.next.injEq, eq_comm]
  rfl

/-- R166. -/
theorem answers_noticeEnableWrite_iff (halive : s.alive = true) :
    Answers (.noticeEnableWrite v) s t ↔ t = { s.quiet with enable := v.setWidth 13 } := by
  have hexec : exec (.noticeEnableWrite v) s = execNoticeEnableWrite v s := rfl
  rw [Answers, hexec, execNoticeEnableWrite, command_next, State.begin_alive, if_pos halive, Host.Outcome.next.injEq, eq_comm]
  rfl

/-- R164, R168. -/
theorem answers_registerWriteIgnored (w : IgnoredWrite) (s : State) : Answers (.registerWriteIgnored w) s s.quiet := rfl

/-! ### What a read of Notice leaves -/

theorem answers_noticeRead_notice (halive : s.alive = true) (h : Answers .noticeRead s t) : t.notice = 0 := by
  rw [(answers_noticeRead_iff halive).mp h]

theorem answers_noticeRead_readData (halive : s.alive = true) (h : Answers .noticeRead s t) :
    t.readData = s.notice.setWidth 32 := by
  rw [(answers_noticeRead_iff halive).mp h]

theorem answers_noticeRead_alive (halive : s.alive = true) (h : Answers .noticeRead s t) : t.alive = true := by
  rw [(answers_noticeRead_iff halive).mp h]
  exact halive

/-- R165: the word returned has a cause's bit exactly when the cause was set. -/
theorem answers_noticeRead_readData_bit (halive : s.alive = true) (h : Answers .noticeRead s t) (c : Cause) :
    t.readData.getLsbD c.bit = s.notice.getLsbD c.bit := by
  have hbit : c.bit < 32 := Nat.lt_trans c.bit_lt (by decide)
  rw [answers_noticeRead_readData halive h, BitVec.getLsbD_setWidth, decide_eq_true hbit, Bool.true_and]

/-- R166: NINT after a write of Notice Enable follows the flags that stood and the word written. -/
theorem answers_noticeEnableWrite_nintAsserted_iff (halive : s.alive = true) (h : Answers (.noticeEnableWrite v) s t) :
    t.nintAsserted = true ↔ ∃ i < 13, s.notice.getLsbD i = true ∧ v.getLsbD i = true := by
  rw [(answers_noticeEnableWrite_iff halive).mp h, State.nintAsserted_iff]
  refine exists_congr fun i => and_congr_right fun hi => ?_
  rw [State.quiet_notice, BitVec.getLsbD_setWidth, decide_eq_true hi, Bool.true_and]

end Sys2Proof.Machine

namespace Sys2Proof.Proofs

open Sys2Proof.Machine

/-- Settles O4: the read answers the frame with the flags moved to the word returned, so a second read finds none of them. -/
theorem noticeReadReturnsAndClears : Obligations.NoticeReadReturnsAndClears := by
  intro s halive
  refine ⟨(answers_noticeRead_iff halive).mpr rfl, fun c => ?_, fun c t _ => t.raise_notice_getLsbD_bit c⟩
  have hraised : (s.raise c).alive = true := halive
  obtain ⟨t, hread⟩ : ∃ t, Answers .noticeRead (s.raise c) t := ⟨_, (answers_noticeRead_iff hraised).mpr rfl⟩
  have hclear : t.notice.getLsbD c.bit = false := by
    rw [answers_noticeRead_notice hraised hread]
    exact BitVec.getLsbD_zero
  have ht : t.alive = true := answers_noticeRead_alive hraised hread
  obtain ⟨u, hagain⟩ : ∃ u, Answers .noticeRead t u := ⟨_, (answers_noticeRead_iff ht).mpr rfl⟩
  refine ⟨t, hread, ?_, hclear, u, hagain, ?_⟩
  · rw [answers_noticeRead_readData_bit hraised hread, s.raise_notice_getLsbD_bit]
  · rw [answers_noticeRead_readData_bit ht hagain, hclear]

/-- Settles O5: NINT is the bitwise meeting of the flags and the enables, and each command changes one side of it. -/
theorem noticeEnableGovernsNint : Obligations.NoticeEnableGovernsNint :=
  ⟨fun _ _ halive =>
    ⟨(answers_noticeEnableWrite_iff halive).mpr rfl,
      rfl,
      State.nintAsserted_iff,
      fun _ hread => State.nintAsserted_of_notice_zero (answers_noticeRead_notice halive hread),
      fun _ hwrite => answers_noticeEnableWrite_nintAsserted_iff halive hwrite,
      fun _ henable => State.raise_nintAsserted henable⟩,
    fun w s hclock => ⟨answers_registerWriteIgnored w s, State.quiet_eq hclock⟩⟩

end Sys2Proof.Proofs
end

