-- ==== Sys2Proof/Proofs/Acts.lean ====
section
/-! What the operations inside a command can do to the state, said once: the acts they are made of, each with what holds where the model
takes it, and the runs of acts. Every law of a step is then checked act by act. -/

namespace Sys2Proof.Machine

/-! ### The acts -/

/-- The band write that a withdrawal stops: destination and data of the WRITING band of a Decipher Bands ticket (R99). -/
def State.plainWrite (s : State) : Option (Nat × List Byte) :=
  if s.scan.work = .decipher then s.writingBuffer.map (fun i => (s.destination (s.buffer i).band, (s.buffer i).data)) else none

/-- What is granted to the operations of one command. -/
structure Scope where
  /-- the values bytes of the shared DRAM may take -/
  bytes : Nat → Byte → Prop
  /-- the procedure queue was lawful -/
  queue : Prop
  /-- band writes may begin -/
  writes : Prop

/-- The same, with band writes allowed to begin. -/
def Scope.loose (W : Scope) : Scope := { W with writes := True }

/-- The law of a procedure queue (R141, R142). -/
def queueOk (q : List Procedure) : Prop :=
  (q.map (fun p => (p.slot, p.kind))).Nodup ∧ (∀ p ∈ q, 1 ≤ p.slot ∧ p.slot ≤ 5) ∧ ∀ p ∈ q.tail, p.running = false

/-- A change of what carries no law of its own. -/
structure Misc (W : Scope) (s t : State) : Prop where
  frame : t = { s with
    accounts := t.accounts, zeroCaptured := t.zeroCaptured, sessions := t.sessions, jobs := t.jobs, hold := t.hold, print := t.print
    engineOut := t.engineOut, scan := t.scan, core := t.core, checkWait := t.checkWait, notice := t.notice }
  args : t.print.args = s.print.args ∨ t.print.args = none := by exact .inl rfl
  test : t.core.resumeTest = s.core.resumeTest := by rfl
  wait : ∀ w, t.checkWait = some w → ∃ v, s.checkWait = some v ∧ w.result = v.result := by exact fun w h => ⟨w, h, rfl⟩
  plain : W.writes ∨ t.plainWrite = s.plainWrite ∨ t.plainWrite = none := by exact .inr (.inl rfl)
  notice : ∀ i, s.notice.getLsbD i = true → t.notice.getLsbD i = true := by exact fun _ h => h

/-- One act of an operation. -/
inductive Act (W : Scope) : State → State → Prop
  | mem {s : State} (m : Memory) (hwf : s.mem.wf → m.wf)
      (hbytes : s.mem.wf → ∀ a, m.read a = s.mem.read a ∨ W.bytes a (m.read a)) : Act W s (s.setMem m)
  | record {s : State} (n : Nat) (r : AccountRecord) : Act W s (s.putRecord n r)
  | meters {s : State} (m : Meters) (h : Meters.lawful s.stored.meters → Meters.le s.stored.meters m ∧ Meters.lawful m) : Act W s (s.writeMeters m)
  | known {s : State} (l : List KnownCartridge) (h : knownLawful s.stored.known → knownLawful l) : Act W s (s.writeKnown l)
  | settings {s : State} (x : Settings) (h : s.stored.settings.lawful → x.lawful) :
      Act W s (s.store .settings { s.stored with settings := x, settingsOk := true })
  | capture {s : State} (k : FaultKind) (l a : Option Nat) (d : Nat) : Act W s (s.capture k l a d)
  | cart {s : State} (n : Nat) (c : Cartridge) (h : (s.cart n).lawful → c.lawful) : Act W s (s.putCart n c)
  | link {s : State} (l : Link) (h : W.queue → queueOk s.link.queue → queueOk l.queue) : Act W s { s with link := l }
  | lane {s : State} (n : Fin 4) (l : Lane) (hq : l.queue = (s.lane n).queue)
      (hs : ∀ k, l.service = some k → ∃ k', (s.lane n).service = some k' ∧ k.address = k'.address) : Act W s (s.putLane n l)
  | slot {s : State} (i : Nat) (k : KeySlot) (hl : (s.slot i).lawful → k.lawful) (hs : k.state = .live → (s.slot i).state = .live)
      (hk : k.key = (s.slot i).key ∨ k.key = none) : Act W s (s.putSlot i k)
  | draws {s : State} (n : Nat) (h : s.draws ≤ n) : Act W s { s with draws := n }
  | withdraw {s : State} (h : s.dev.op = .running) :
      Act W s { s with dev := { s.dev with op := .withdrawn, entryTime := some s.dev.clock } }
  | misc {s t : State} (h : Misc W s t) : Act W s t

/-- A run of acts. -/
def Reaches (W : Scope) (s t : State) : Prop := Relation.ReflTransGen (Act W) s t

variable {W : Scope} {s t u : State}

theorem Reaches.refl : Reaches W s s := Relation.ReflTransGen.refl

theorem Reaches.act (h : Reaches W s t) (a : Act W t u) : Reaches W s u := Relation.ReflTransGen.tail h a

theorem Reaches.trans (h : Reaches W s t) (h' : Reaches W t u) : Reaches W s u := Relation.ReflTransGen.trans h h'

/-- What every act keeps, a run keeps. -/
theorem Reaches.keeps {P : State → Prop} (h : Reaches W s t) (hp : P s) (hact : ∀ {x y}, Act W x y → P x → P y) : P t := by
  induction h with
  | refl => exact hp
  | tail _ a ih => exact hact a ih

/-- A part of the state that no act changes. -/
theorem Reaches.same {α : Type} (f : State → α) (h : Reaches W s t) (hact : ∀ {x y}, Act W x y → f y = f x) : f t = f s :=
  h.keeps (P := fun x => f x = f s) rfl (fun a hx => (hact a).trans hx)

theorem Misc.loose (h : Misc W s t) : Misc W.loose s t :=
  { frame := h.frame, args := h.args, test := h.test, wait := h.wait, plain := .inl trivial, notice := h.notice }

theorem Act.loose (h : Act W s t) : Act W.loose s t := by
  cases h with
  | mem m hwf hbytes => exact .mem m hwf hbytes
  | record n r => exact .record n r
  | meters m h => exact .meters m h
  | known l h => exact .known l h
  | settings x h => exact .settings x h
  | capture k l a d => exact .capture k l a d
  | cart n c h => exact .cart n c h
  | link l h => exact .link l h
  | lane n l hq hs => exact .lane n l hq hs
  | slot i k hl hs hk => exact .slot i k hl hs hk
  | draws n h => exact .draws n h
  | withdraw h => exact .withdraw h
  | misc h => exact .misc h.loose

theorem Reaches.loose (h : Reaches W s t) : Reaches W.loose s t := by
  induction h with
  | refl => exact .refl
  | tail _ a ih => exact ih.act a.loose

/-! ### What no act changes -/

theorem Act.env (h : Act W s t) : t.env = s.env := by
  cases h with
  | misc h => rw [h.frame]
  | _ => rfl

theorem Act.pending (h : Act W s t) : t.pending = s.pending := by
  cases h with
  | misc h => rw [h.frame]
  | _ => rfl

theorem Act.shadow (h : Act W s t) : t.shadow = s.shadow := by
  cases h with
  | misc h => rw [h.frame]
  | _ => rfl

theorem Act.shadowMem (h : Act W s t) : t.shadowMem = s.shadowMem := by
  cases h with
  | misc h => rw [h.frame]
  | _ => rfl

theorem Reaches.env (h : Reaches W s t) : t.env = s.env := h.same State.env Act.env
theorem Reaches.pending (h : Reaches W s t) : t.pending = s.pending := h.same State.pending Act.pending
theorem Reaches.shadow (h : Reaches W s t) : t.shadow = s.shadow := h.same State.shadow Act.shadow
theorem Reaches.shadowMem (h : Reaches W s t) : t.shadowMem = s.shadowMem := h.same State.shadowMem Act.shadowMem

/-- R164: a cause that is set stays set. -/
theorem Act.notice (h : Act W s t) {i : Nat} (hi : s.notice.getLsbD i = true) : t.notice.getLsbD i = true := by
  cases h with
  | capture => simp [State.capture, hi]
  | misc h => exact h.notice i hi
  | _ => exact hi

theorem Reaches.notice (h : Reaches W s t) {i : Nat} (hi : s.notice.getLsbD i = true) : t.notice.getLsbD i = true :=
  h.keeps (P := fun x => x.notice.getLsbD i = true) hi fun a ha => a.notice ha

/-! ### What is granted and stays granted -/

/-- The closing words of every ticket in service are granted. -/
def State.closesWithin (s : State) (W : Scope) : Prop :=
  ∀ n k, (s.lane n).service = some k → ∀ a v, k.closingByte a → W.bytes a v

/-- The closing words of tickets in service, the result record of an impression and the result area of a waiting Check Cartridge are
granted. -/
structure State.within (s : State) (W : Scope) : Prop where
  closes : s.closesWithin W
  record : ∀ x, s.print.args = some x → ∀ a v, byteOf x.result 10 a → W.bytes a v
  wait : ∀ w, s.checkWait = some w → ∀ a v, byteOf w.result (7 * 5) a → W.bytes a v

theorem closingByte_address {k k' : Ticket} (h : k.address = k'.address) {a : Nat} (ha : k.closingByte a) : k'.closingByte a := by
  simpa only [Ticket.closingByte, h] using ha

theorem Act.closesWithin (h : Act W s t) (hs : s.closesWithin W) : t.closesWithin W := by
  cases h with
  | lane n l hq hl =>
    intro m k hk a v ha
    by_cases hnm : n = m
    · subst hnm
      rw [State.putLane_lane_same] at hk
      obtain ⟨k', hk', e⟩ := hl k hk
      exact hs _ _ hk' a v (closingByte_address e ha)
    · rw [State.putLane_lane_other _ _ _ _ hnm] at hk
      exact hs _ _ hk a v ha
  | misc h =>
    have hl : t.lanes = s.lanes := by rw [h.frame]
    intro m k hk
    rw [State.lane, hl] at hk
    exact hs m k hk
  | _ => exact hs

theorem Act.within (h : Act W s t) (hs : s.within W) : t.within W := by
  refine ⟨h.closesWithin hs.closes, ?_, ?_⟩
  · cases h with
    | misc h =>
      intro x hx
      rcases h.args with e | e
      · exact hs.record x (e ▸ hx)
      · rw [e] at hx; cases hx
    | _ => exact hs.record
  · cases h with
    | misc h =>
      intro w hw
      obtain ⟨v, hv, e⟩ := h.wait w hw
      rw [e]
      exact hs.wait v hv
    | _ => exact hs.wait

theorem Reaches.closesWithin (h : Reaches W s t) (hs : s.closesWithin W) : t.closesWithin W := h.keeps hs Act.closesWithin
theorem Reaches.within (h : Reaches W s t) (hs : s.within W) : t.within W := h.keeps hs Act.within

end Sys2Proof.Machine
end

