-- ==== Sys2Proof/Proofs/Runs1.lean ====
section
/-! The shared operations as runs of acts: tickets' words and result areas, accounts, cipher core, band buffers, jobs and sessions. -/

namespace Sys2Proof.Machine

variable {W : Scope} {s t : State}

/-! ### Acts named after the updates -/

theorem Reaches.misc {u : State} (h : Reaches W s t) (hm : Misc W t u) : Reaches W s u := h.act (.misc hm)

/-- A run to either branch. -/
theorem Reaches.ite {p : Prop} [Decidable p] {u v : State} (hu : p → Reaches W s u) (hv : ¬p → Reaches W s v) :
    Reaches W s (if p then u else v) := by
  split
  · exact hu ‹_›
  · exact hv ‹_›

theorem Reaches.capture (h : Reaches W s t) {k : FaultKind} {l a : Option Nat} {d : Nat} : Reaches W s (t.capture k l a d) :=
  h.act (.capture k l a d)

theorem Reaches.captureMemory (h : Reaches W s t) {k : FaultKind} {l a : Nat} : Reaches W s (t.captureMemory k l a) := h.capture

theorem Reaches.raise (h : Reaches W s t) {c : Cause} : Reaches W s (t.raise c) :=
  h.misc { frame := rfl, notice := fun i hi => by simp [State.raise, hi] }

theorem Reaches.putAcct (h : Reaches W s t) {n : Nat} {a : AccountVolatile} : Reaches W s (t.putAcct n a) := h.misc { frame := rfl }

theorem Reaches.addReserved (h : Reaches W s t) {n m : Nat} : Reaches W s (t.addReserved n m) := h.putAcct

theorem Reaches.subReserved (h : Reaches W s t) {n m : Nat} : Reaches W s (t.subReserved n m) := h.putAcct

theorem Reaches.putSession (h : Reaches W s t) {i : Nat} {x : Session} : Reaches W s (t.putSession i x) := h.misc { frame := rfl }

theorem Reaches.putJob (h : Reaches W s t) {i : Nat} {x : Job} : Reaches W s (t.putJob i x) := h.misc { frame := rfl }

theorem Reaches.putRecord (h : Reaches W s t) {n : Nat} {r : AccountRecord} : Reaches W s (t.putRecord n r) := h.act (.record n r)

theorem Reaches.writeRecord (h : Reaches W s t) {n : Nat} {r : AccountRecord} : Reaches W s (t.writeRecord n r) := h.putRecord

theorem Reaches.hold (h : Reaches W s t) {x : Option EngineHold} : Reaches W s { t with hold := x } := h.misc { frame := rfl }

theorem Reaches.engineOut (h : Reaches W s t) {x : List EngineMessage} : Reaches W s { t with engineOut := x } :=
  h.misc { frame := rfl }

/-- The print path changes, its arguments staying or going. -/
theorem Reaches.print (h : Reaches W s t) {p : PrintPath} (ha : p.args = t.print.args ∨ p.args = none := by exact .inl rfl) :
    Reaches W s { t with print := p } := h.misc { frame := rfl, args := ha }

/-- The core changes, but for Resume Service's test. -/
theorem Reaches.core (h : Reaches W s t) {c : Core} (hc : c.resumeTest = t.core.resumeTest := by rfl) :
    Reaches W s { t with core := c } := h.misc { frame := rfl, test := hc }

/-- The scan path changes. -/
theorem Reaches.scan (h : Reaches W s t) {p : ScanPath}
    (hp : W.writes ∨ State.plainWrite { t with scan := p } = t.plainWrite ∨ State.plainWrite { t with scan := p } = none
      := by exact .inr (.inl rfl)) : Reaches W s { t with scan := p } := h.misc { frame := rfl, plain := hp }

/-! ### Memory -/

theorem Memory.read_putWord (m : Memory) (a x : Nat) (w : Word) :
    (m.putWord a w).read x = m.read x ∨ ∃ i < 4, x = wrapAddress (a + i) := by
  by_cases hx : ∃ i < 4, x = wrapAddress (a + i)
  · exact .inr hx
  · exact .inl (Memory.read_putWord_other _ _ _ _ fun i hi e => hx ⟨i, hi, e⟩)

/-- A word is written, its bytes being granted. -/
theorem Reaches.putWord (h : Reaches W s t) {a : Nat} {w : Word} (hb : ∀ i < 4, ∀ v, W.bytes (wrapAddress (a + i)) v) :
    Reaches W s (t.setMem (t.mem.putWord a w)) := by
  refine h.act (.mem _ (Memory.putWord_wf _ _ _) fun _ x => ?_)
  rcases t.mem.read_putWord a x w with e | ⟨i, hi, rfl⟩
  · exact .inl e
  · exact .inr (hb i hi _)

theorem Reaches.writeWord (h : Reaches W s t) {a : Nat} {w : Word} (hb : ∀ i < 4, ∀ v, W.bytes (wrapAddress (a + i)) v) :
    Reaches W s (t.writeWord a w).1 := by
  rcases t.writeWord_cases a w with ⟨-, e⟩ | ⟨-, e⟩ <;> rw [e]
  · exact h
  · exact h.putWord hb

theorem Reaches.writeWords {words : List Word} (h : Reaches W s t) {a : Nat}
    (hb : ∀ x v, byteOf a words.length x → W.bytes x v) : Reaches W s (t.writeWords a words).1 := by
  induction words generalizing t a with
  | nil => exact h
  | cons w rest ih =>
    have hw : Reaches W s (t.writeWord a w).1 :=
      h.writeWord fun i hi v => hb _ v ⟨i, by simp only [List.length_cons]; omega, rfl⟩
    simp only [State.writeWords]
    split
    · rename_i e; rwa [e] at hw
    · rename_i e
      rw [e] at hw
      refine ih hw fun x v ⟨i, hi, hx⟩ => hb x v ⟨4 + i, by simp only [List.length_cons]; omega, ?_⟩
      rw [hx, Nat.add_assoc]

/-- What a match on a write leaves: the state after the words, or that with a capture. -/
theorem Reaches.writeControlResult (h : Reaches W s t) {a : Nat} {words : List Word}
    (hb : ∀ x v, byteOf a words.length x → W.bytes x v) : Reaches W s (t.writeControlResult a words) := by
  have hw := h.writeWords hb
  unfold State.writeControlResult
  split <;> (rename_i e; rw [e] at hw)
  · exact hw
  · exact hw.captureMemory

theorem Reaches.writePrintResult (h : Reaches W s t) {a : Nat} {words : List Word}
    (hb : ∀ x v, byteOf a words.length x → W.bytes x v) : Reaches W s (t.writePrintResult a words) := by
  have hw := h.writeWords hb
  unfold State.writePrintResult
  split <;> (rename_i e; rw [e] at hw)
  · exact hw
  · exact hw.captureMemory

theorem Reaches.writeEntries {entries : List (List Word)} (h : Reaches W s t) {lane : Fin 4} {a n : Nat}
    (hn : (entries.map List.length).sum ≤ n) (hb : ∀ x v, byteOf a n x → W.bytes x v) :
    Reaches W s (t.writeEntries lane a entries).1 := by
  induction entries generalizing t a n with
  | nil => exact h
  | cons e rest ih =>
    simp only [List.map_cons, List.sum_cons] at hn
    have hw : Reaches W s (t.writeWords a e).1 := h.writeWords fun x v ⟨i, hi, hx⟩ => hb x v ⟨i, by omega, hx⟩
    simp only [State.writeEntries]
    split
    · rename_i he; rw [he] at hw; exact hw.captureMemory
    · rename_i he
      rw [he] at hw
      refine ih (n := n - e.length) hw (by omega) fun x v ⟨i, hi, hx⟩ => hb x v ⟨4 * e.length + i, by omega, ?_⟩
      rw [hx, Nat.add_assoc]

/-! ### Tickets -/

theorem Reaches.writeTicketWord (h : Reaches W s t) {lane : Fin 4} {a : Nat} {w : Word}
    (hb : ∀ i < 4, ∀ v, W.bytes (wrapAddress (a + i)) v) : Reaches W s (t.writeTicketWord lane a w) := by
  rcases t.writeTicketWord_cases lane a w with ⟨-, e⟩ | ⟨-, e⟩ <;> rw [e]
  · exact h.captureMemory
  · exact h.putWord hb

theorem Reaches.leaveService (h : Reaches W s t) {lane : Fin 4} : Reaches W s (t.leaveService lane) :=
  h.act (.lane lane _ rfl fun _ hk => nomatch hk)

theorem Reaches.beginService (h : Reaches W s t) {lane : Fin 4} : Reaches W s (t.beginService lane) := by
  unfold State.beginService
  split
  · exact h
  · rename_i k hk
    exact h.act (.lane lane _ rfl fun _ e => ⟨k, hk, by cases e; rfl⟩)

theorem Reaches.close (h : Reaches W s t) (hs : s.closesWithin W) {lane : Fin 4} {code : ReturnCode} {w13 w14 : Nat}
    {ended truncated : Bool} : Reaches W s (t.close lane code w13 w14 ended truncated) := by
  unfold State.close
  split
  · exact h
  · rename_i k hk
    have hb : ∀ j, j + 4 ≤ 12 → ∀ i < 4, ∀ v, W.bytes (wrapAddress (k.address + (52 + j) + i)) v := fun j hj i hi v =>
      h.closesWithin hs lane k hk _ v ⟨j + i, by omega, by congr 1; omega⟩
    exact (((h.writeTicketWord (hb 0 (by decide))).writeTicketWord (hb 4 (by decide))).writeTicketWord
      (hb 8 (by decide))).raise.leaveService

theorem Reaches.refuse (h : Reaches W s t) (hs : s.closesWithin W) {lane : Fin 4} {r : Refused} {w13 : Nat} :
    Reaches W s (t.refuse lane r w13) := h.close hs

/-! ### Activity -/

theorem Reaches.touchSession (h : Reaches W s t) {j : Handle} : Reaches W s (t.touchSession j) := by
  unfold State.touchSession
  split
  · exact h
  · exact h.putSession

theorem Reaches.touchOptSession (h : Reaches W s t) {j : Option Handle} : Reaches W s (t.touchOptSession j) := by
  cases j with
  | none => exact h
  | some j => exact h.touchSession

theorem Reaches.touchJob (h : Reaches W s t) {j : Handle} : Reaches W s (t.touchJob j) := by
  unfold State.touchJob
  split
  · exact h
  · exact h.touchOptSession

theorem Reaches.touchHold (h : Reaches W s t) {j : Handle} : Reaches W s (t.touchHold j) := by
  unfold State.touchHold
  split
  · exact h
  · split
    · exact h.hold
    · exact h

theorem Reaches.admitted (h : Reaches W s t) {j : Handle} : Reaches W s (t.admitted j) := h.touchJob.touchHold

/-! ### Accounts -/

theorem Reaches.readAccount (h : Reaches W s t) {n : Nat} : Reaches W s (t.readAccount n) := by
  rcases t.readAccount_cases n with ⟨-, e⟩ | ⟨-, -, ⟨-, e⟩ | ⟨-, e⟩⟩ | ⟨-, -, ⟨-, e⟩ | ⟨-, e⟩⟩ <;> rw [e]
  · exact h
  · exact h.writeRecord
  · exact h.writeRecord.capture.misc { frame := rfl }
  · exact h
  · exact h.putAcct.capture

theorem Reaches.chargeAccount (h : Reaches W s t) {n : Nat} {c : AccountCharge} : Reaches W s (t.chargeAccount n c) := by
  unfold State.chargeAccount
  simp only []
  split
  · exact h.readAccount
  · exact h.readAccount.writeRecord

/-! ### Cipher core -/

theorem Reaches.pumpCore (h : Reaches W s t) : Reaches W s t.pumpCore := by
  rcases t.pumpCore_cases with ⟨-, i, rest, -, e⟩ | ⟨-, i, -, e⟩ | ⟨-, e⟩ <;> rw [e]
  · exact h.core
  · exact h.core
  · exact h

theorem Reaches.presentPrint (h : Reaches W s t) {i : Nat} : Reaches W s (t.presentPrint i) := h.core

theorem Reaches.presentScan (h : Reaches W s t) {i : Nat} : Reaches W s (t.presentScan i) := h.core

theorem Reaches.dropCore (h : Reaches W s t) {p : CipherPath} : Reaches W s (t.dropCore p) := by
  cases p <;> exact h.core

theorem Reaches.stopCore (h : Reaches W s t) {k : SlotHandle} : Reaches W s (t.stopCore k) := by
  unfold State.stopCore
  split
  · exact h
  · split
    · exact h.core
    · exact h

theorem Reaches.detachSlot (h : Reaches W s t) {j : Option Handle} {k : SlotHandle} : Reaches W s (t.detachSlot j k) := by
  cases j with
  | none => exact h
  | some j => exact h.putJob

theorem KeySlot.free_lawful (gen : Nat) : (KeySlot.free gen).lawful := rfl

theorem Reaches.wipeSlot (h : Reaches W s t) {i : Nat} : Reaches W s (t.wipeSlot i) :=
  (h.act (.slot i (.free (((t.slot i).gen + 1) % 65536)) (fun _ => KeySlot.free_lawful _) (fun e => nomatch e)
    (.inr rfl))).detachSlot.stopCore

/-! ### Band buffers -/

theorem lowest_congr {α : Type} {n : Nat} {v w : Vector α n} {p : α → Bool} (h : v.toList.map p = w.toList.map p) :
    lowest v p = lowest w p := by
  have hfind : ∀ l : List α, l.findIdx? p = (l.map p).findIdx? id := fun l => by simp [List.findIdx?_map]
  rw [lowest, lowest, hfind, hfind, h]

/-- What a lowest entry is: within the table and passing the test. -/
theorem lowest_some {α : Type} {n : Nat} {v : Vector α n} {p : α → Bool} {i : Nat} (h : lowest v p = some i) (d : α) :
    i < n ∧ p (entryAt v i d) = true := by
  rw [lowest, List.findIdx?_eq_some_iff_getElem] at h
  obtain ⟨hi, hp, -⟩ := h
  have hn : i < n := by simpa using hi
  refine ⟨hn, ?_⟩
  simpa [entryAt, hn] using hp

theorem lowest_none {α : Type} {n : Nat} {v : Vector α n} {p : α → Bool} (h : lowest v p = none) {i : Nat} (hi : i < n) (d : α) :
    p (entryAt v i d) = false := by
  rw [lowest, List.findIdx?_eq_none_iff] at h
  have := h (entryAt v i d) (by simp [entryAt, hi])
  simpa using this

theorem State.writingBuffer_some {s : State} {i : Nat} (h : s.writingBuffer = some i) : i < 2 ∧ (s.buffer i).isWriting = true :=
  lowest_some h _

theorem State.eraseUnwritten_buffer (s : State) (i : Nat) :
    s.eraseUnwritten.buffer i = if (s.buffer i).isWriting then s.buffer i else .erased := by
  by_cases hi : i < 2
  · simp [State.buffer, State.eraseUnwritten, entryAt, hi]
  · have hb : s.buffer i = .erased := entryAt_beyond _ _ _ (by omega)
    rw [hb]
    exact (entryAt_beyond _ _ _ (by omega)).trans (ite_self _).symm

theorem State.eraseUnwritten_writingBuffer (s : State) : s.eraseUnwritten.writingBuffer = s.writingBuffer := by
  refine lowest_congr ?_
  simp only [State.eraseUnwritten, Vector.toList_map, List.map_map]
  refine List.map_congr_left fun b _ => ?_
  cases hb : b.isWriting <;> simp [hb]
  rfl

theorem State.plainWrite_eraseUnwritten (s : State) : s.eraseUnwritten.plainWrite = s.plainWrite := by
  have hwork : s.eraseUnwritten.scan.work = s.scan.work := rfl
  simp only [State.plainWrite, s.eraseUnwritten_writingBuffer, hwork]
  refine if_congr Iff.rfl (Option.map_congr fun i hi => ?_) rfl
  rw [s.eraseUnwritten_buffer, if_pos (State.writingBuffer_some hi).2]
  rfl

theorem Reaches.eraseUnwritten (h : Reaches W s t) : Reaches W s t.eraseUnwritten :=
  h.misc { frame := rfl, plain := .inr (.inl t.plainWrite_eraseUnwritten) }

theorem State.plainWrite_idle (s : State) (h : s.scan.work = .page) : s.plainWrite = none := by
  simp [State.plainWrite, h]

theorem Reaches.scanIdle (h : Reaches W s t) : Reaches W s t.scanIdle :=
  (h.scan (p := { ScanPath.reset with drain := t.scan.drain }) (.inr (.inr (State.plainWrite_idle _ rfl)))).dropCore

theorem Reaches.closeCipher (h : Reaches W s t) (hs : s.closesWithin W) {code : ReturnCode} : Reaches W s (t.closeCipher code) := by
  unfold State.closeCipher
  split
  · exact h
  · exact (h.close hs).scanIdle
  · exact (h.close hs).scanIdle

theorem Reaches.failCipher (h : Reaches W s t) (hs : s.closesWithin W) {code : ReturnCode} : Reaches W s (t.failCipher code) := by
  unfold State.failCipher
  split
  · have he : Reaches W s (({ t with scan := { t.scan with failed := some code } } : State).eraseUnwritten.dropCore .scan) :=
      h.scan.eraseUnwritten.dropCore
    simp only []
    split
    · exact he.closeCipher hs
    · exact he
  · exact h

theorem Reaches.cipherSlotLost (h : Reaches W s t) (hs : s.closesWithin W) {k : SlotHandle} : Reaches W s (t.cipherSlotLost k) := by
  unfold State.cipherSlotLost
  split
  · refine Reaches.failCipher ?_ hs
    split
    · exact h
    · split
      · exact h.core
      · exact h
  · exact h

/-- A change of one buffer, band writes being allowed to begin. -/
theorem Reaches.putBuffer (h : Reaches W s t) (hw : W.writes) {i : Nat} {b : Buffer} : Reaches W s (t.putBuffer i b) :=
  h.misc { frame := rfl, plain := .inl hw }

theorem Reaches.startWrite (h : Reaches W s t) (hw : W.writes) : Reaches W s t.startWrite := by
  unfold State.startWrite
  split
  · exact h
  · split
    · exact h
    · exact h.putBuffer hw

theorem Reaches.startSourceRead (h : Reaches W s t) (hw : W.writes) : Reaches W s t.startSourceRead := by
  unfold State.startSourceRead
  split
  · exact h
  · split
    · exact h
    · exact (h.putBuffer hw).scan (.inl hw)

/-! ### Jobs and sessions -/

theorem Reaches.requestHold (h : Reaches W s t) {i : Nat} {p : CipherPath} {n : Nat} {u : State} (e : t.requestHold i p n = some u) :
    Reaches W s u := by
  by_cases hc : t.covers (t.job i).account (t.job i).free n
  · rw [State.requestHold_some hc] at e
    cases e
    exact h.putAcct.putJob
  · rw [State.requestHold_none hc] at e
    cases e

theorem Reaches.quotaStop (h : Reaches W s t) {i : Nat} : Reaches W s (t.quotaStop i) := by
  unfold State.quotaStop
  split
  · exact h.putJob
  · exact h

theorem Reaches.releaseFree (h : Reaches W s t) {i : Nat} : Reaches W s (t.releaseFree i) := h.subReserved.putJob

theorem Reaches.settleHold (h : Reaches W s t) {j : Handle} {p : CipherPath} {d : Bool} {c : AccountCharge} :
    Reaches W s (t.settleHold j p d c) := by
  unfold State.settleHold
  split
  · exact h
  · simp only []
    split
    · exact h.subReserved.putJob.chargeAccount.touchJob.touchHold.releaseFree
    · exact h.subReserved.putJob.chargeAccount.touchJob.touchHold

/-- A lawful slot with keep-minutes is in use, so it has a key. -/
theorem KeySlot.key_of_keep {k : KeySlot} (hl : k.lawful) (hk : k.keep ≠ 0) : k.key.isSome := by
  unfold KeySlot.lawful at hl
  split at hl
  · rw [hl] at hk; exact absurd rfl hk
  · exact hl.1
  · exact hl.1

theorem Reaches.jobEndSlot (h : Reaches W s t) (hs : s.closesWithin W) {k : SlotHandle} : Reaches W s (t.jobEndSlot k) := by
  dsimp only [State.jobEndSlot]
  split
  · exact h.wipeSlot.cipherSlotLost hs
  · rename_i hk
    refine Reaches.cipherSlotLost (h.act ?_) hs
    exact .slot k.idx _ (fun hl => ⟨KeySlot.key_of_keep (k := t.slot k.idx) hl hk, rfl, rfl⟩) (fun e => nomatch e) (.inl rfl)

/-- A run of one operation for each entry of a list. -/
theorem Reaches.foldl {α : Type} {f : State → α → State} (hf : ∀ {t x}, Reaches W s t → Reaches W s (f t x)) (l : List α)
    (h : Reaches W s t) : Reaches W s (l.foldl f t) := by
  induction l generalizing t with
  | nil => exact h
  | cons x rest ih => exact ih (hf h)

theorem Reaches.jobEndSlots (h : Reaches W s t) (hs : s.closesWithin W) {i : Nat} : Reaches W s (t.jobEndSlots i) :=
  (Reaches.foldl (fun h => h.jobEndSlot hs) _ h).putJob

theorem Reaches.closeWaitingPrint (h : Reaches W s t) (hs : s.closesWithin W) {j : Handle} :
    Reaches W s (t.closeWaitingPrint j) := by
  unfold State.closeWaitingPrint
  split
  · split
    · exact (h.close hs).print (.inr rfl)
    · exact h
  · exact h

theorem Reaches.closeWaitingScan (h : Reaches W s t) (hs : s.closesWithin W) {j : Handle} : Reaches W s (t.closeWaitingScan j) := by
  unfold State.closeWaitingScan
  split
  · split
    · exact (h.close hs).scanIdle
    · exact h
  · exact h

theorem Reaches.releaseHoldOf (h : Reaches W s t) {j : Handle} : Reaches W s (t.releaseHoldOf j) := by
  unfold State.releaseHoldOf
  split
  · exact h
  · split
    · exact h.hold
    · exact h

theorem Reaches.freeJob (h : Reaches W s t) {i : Nat} : Reaches W s (t.freeJob i) := h.putJob

theorem Reaches.finishJob (h : Reaches W s t) (hs : s.closesWithin W) {i : Nat} : Reaches W s (t.finishJob i) :=
  (h.releaseFree.jobEndSlots hs).freeJob

theorem Reaches.completeEnd (h : Reaches W s t) (hs : s.closesWithin W) {j : Handle} : Reaches W s (t.completeEnd j).1 := by
  unfold State.completeEnd
  split
  · exact h
  · simp only []
    split
    · exact h.finishJob hs
    · exact h

theorem Reaches.endJobEntry (h : Reaches W s t) (hs : s.closesWithin W) {i : Nat} : Reaches W s (t.endJobEntry i).1 := by
  have hc := (h.closeWaitingPrint hs (j := t.jobHandle i)).closeWaitingScan hs (j := t.jobHandle i)
  unfold State.endJobEntry
  simp only []
  split
  · exact hc.releaseFree.releaseHoldOf.putJob
  · exact (hc.releaseFree.releaseHoldOf.jobEndSlots hs).freeJob

theorem Reaches.endSessionJob (hs : s.closesWithin W) {j : Handle} {acc : State × Nat × Nat} {i : Nat} (h : Reaches W s acc.1) :
    Reaches W s (State.endSessionJob j acc i).1 := by
  unfold State.endSessionJob
  simp only []
  split
  · split
    · exact h.endJobEntry hs
    · exact h.endJobEntry hs
  · exact h

/-- A run of one operation for each entry of a list, where the operation carries counts beside the state. -/
theorem Reaches.foldl_fst {α β : Type} {f : State × β → α → State × β} (hf : ∀ {r x}, Reaches W s r.1 → Reaches W s (f r x).1)
    (l : List α) {r : State × β} (h : Reaches W s r.1) : Reaches W s (l.foldl f r).1 := by
  induction l generalizing r with
  | nil => exact h
  | cons x rest ih => exact ih (hf h)

theorem Reaches.endSession (h : Reaches W s t) (hs : s.closesWithin W) {e : Nat} : Reaches W s (t.endSession e).1 :=
  (Reaches.foldl_fst (f := State.endSessionJob { idx := e, gen := (t.session e).gen }) (fun h => Reaches.endSessionJob hs h) _
    h).putSession.putAcct

end Sys2Proof.Machine
end

