-- ==== Sys2Proof/Proofs/Runs2.lean ====
section
/-! The operations of supplies, print path and scan path as runs of acts. -/

namespace Sys2Proof.Machine

variable {W : Scope} {s t : State}

/-! ### Supplies -/

/-- A cartridge record is replaced by a lawful one, or by one with the values of a lawful one. -/
theorem Reaches.changeCart (h : Reaches W s t) {n : Nat} {c : Cartridge} (hc : (t.cart n).lawful → c.lawful) :
    Reaches W s (t.changeCart n c) := by
  dsimp only [State.changeCart]
  split
  · exact (h.act (.cart n c hc)).raise
  · exact h.act (.cart n c hc)

/-- A record that keeps its values, or loses them, stays lawful. -/
theorem Cartridge.lawful_of_values {c d : Cartridge} (h : d.values = c.values ∨ d.values = none) (hc : c.lawful) : d.lawful := by
  intro v hv
  rcases h with e | e <;> rw [e] at hv
  · exact hc v hv
  · cases hv

theorem frontEntry_lawful {e : KnownCartridge} {l : List KnownCartridge} (h : knownLawful l) : knownLawful (frontEntry e l) := by
  refine ⟨by simp [frontEntry], ?_⟩
  have hn : ((e :: l.filter (fun x => x.id ≠ e.id)).map (·.id)).Nodup := by
    rw [List.map_cons, List.nodup_cons]
    refine ⟨?_, h.2.sublist (List.filter_sublist.map _)⟩
    simp
  exact hn.sublist ((List.take_sublist _ _).map _)

theorem Reaches.listWrite (h : Reaches W s t) {n : Nat} : Reaches W s (t.listWrite n) := by
  dsimp only [State.listWrite]
  split
  · exact h.act (.known _ frontEntry_lawful)
  · exact h

/-- The link changes, its queue staying lawful. -/
theorem Reaches.link (h : Reaches W s t) {l : Link} (hq : W.queue → queueOk t.link.queue → queueOk l.queue) :
    Reaches W s { t with link := l } := h.act (.link l hq)

/-- A request keeps the law of the queue. -/
theorem requestIn_ok {q : List Procedure} {slot : Nat} {kind : ProcedureKind} {waiter : Bool} (hs : 1 ≤ slot ∧ slot ≤ 5)
    (h : queueOk q) : queueOk (requestIn q slot kind waiter) := by
  obtain ⟨hn, hr, ht⟩ := h
  unfold requestIn
  split
  · refine ⟨?_, ?_, ?_⟩
    · convert hn using 1
      rw [List.map_map]
      refine List.map_congr_left fun p _ => ?_
      simp only [Function.comp]
      split <;> rfl
    · intro p hp
      obtain ⟨x, hx, rfl⟩ := List.mem_map.mp hp
      split <;> exact hr x hx
    · intro p hp
      rw [← List.map_tail] at hp
      obtain ⟨x, hx, rfl⟩ := List.mem_map.mp hp
      split <;> exact ht x hx
  · rename_i hany
    have hnew : ∀ p ∈ q, ¬(p.slot = slot ∧ p.kind = kind) := fun p hp e =>
      hany (List.any_eq_true.mpr ⟨p, hp, by simp [e.1, e.2]⟩)
    refine ⟨?_, ?_, ?_⟩
    · rw [List.map_append, List.nodup_append]
      refine ⟨hn, by simp, ?_⟩
      intro a ha b hb e
      obtain ⟨p, hp, rfl⟩ := List.mem_map.mp ha
      simp only [List.map_cons, List.map_nil, List.mem_singleton, Procedure.queued] at hb
      rw [hb] at e
      exact hnew p hp ⟨congrArg Prod.fst e, congrArg Prod.snd e⟩
    · intro p hp
      rcases List.mem_append.mp hp with hp | hp
      · exact hr p hp
      · rw [List.mem_singleton.mp hp]; exact hs
    · intro p hp
      cases q with
      | nil => simp at hp
      | cons x rest =>
        rcases List.mem_append.mp (show p ∈ rest ++ [Procedure.queued slot kind waiter] from hp) with hp | hp
        · exact ht p hp
        · rw [List.mem_singleton.mp hp]; rfl

theorem Reaches.request (h : Reaches W s t) {n : Nat} {k : ProcedureKind} {w : Bool} (hn : W.queue → 1 ≤ n ∧ n ≤ 5) :
    Reaches W s (t.request n k w) := h.link fun hw => requestIn_ok (hn hw)

theorem Reaches.requestCheck (h : Reaches W s t) {n : Nat} {w : Bool} (hn : W.queue → 1 ≤ n ∧ n ≤ 5) :
    Reaches W s (t.requestCheck n w) := by
  unfold State.requestCheck
  split
  · exact h.request hn
  · exact h

theorem Reaches.wantRecord (h : Reaches W s t) {n : Nat} (hn : W.queue → 1 ≤ n ∧ n ≤ 5) : Reaches W s (t.wantRecord n) := by
  unfold State.wantRecord
  split
  · split
    · exact h.act (.cart n _ (Cartridge.lawful_of_values (.inl rfl)))
    · exact h.request hn
  · exact h

/-- A deduction keeps remaining within capacity (R123, R124). -/
theorem CartridgeValues.deducted_lawful {c d : Cartridge} {v : CartridgeValues} (hc : c.lawful) (hv : c.values = some v)
    {permille amount since : Nat} (hd : d.values = some (v.deducted permille amount since)) : d.lawful := by
  intro w hw
  rw [hd] at hw
  cases hw
  exact Nat.le_trans (Nat.sub_le _ _) (hc v hv)

theorem Reaches.deductTrusted (h : Reaches W s t) {n m : Nat} (hn : W.queue → 1 ≤ n ∧ n ≤ 5) : Reaches W s (t.deductTrusted n m) := by
  dsimp only [State.deductTrusted]
  split
  · exact h
  · rename_i v hv
    have hc := h.changeCart (n := n) (c := { t.cart n with values := some (v.deducted t.stored.settings.supply.lowPermille m 1) })
      (fun hl => CartridgeValues.deducted_lawful hl hv rfl)
    split <;> split
    · exact (hc.wantRecord hn).wantRecord hn
    · exact hc.wantRecord hn
    · exact hc.wantRecord hn
    · exact hc

/-- The list after a deduction in place keeps its IDs. -/
theorem deductKnown_lawful {l : List KnownCartridge} {id : BitVec 64} {m : Nat} (h : knownLawful l) :
    knownLawful (l.map (fun e => if e.id = id then e.deducted m else e)) := by
  refine ⟨by simpa using h.1, ?_⟩
  convert h.2 using 1
  rw [List.map_map]
  refine List.map_congr_left fun e _ => ?_
  simp only [Function.comp]
  split <;> rfl

theorem Reaches.deductUntrusted (h : Reaches W s t) {n m : Nat} : Reaches W s (t.deductUntrusted n m) := by
  unfold State.deductUntrusted
  extract_lets c u
  have hu : Reaches W s u := by
    dsimp only [u]
    split
    · exact h
    · rename_i v hv
      exact h.changeCart fun hl => CartridgeValues.deducted_lawful hl hv rfl
  clear_value u
  split
  · exact hu
  · exact .ite (fun _ => hu.act (.known _ deductKnown_lawful)) fun _ => hu

theorem Reaches.deductSlot (h : Reaches W s t) {n m : Nat} (hn : 1 ≤ n ∧ n ≤ 5) : Reaches W s (t.deductSlot n m) := by
  unfold State.deductSlot
  split
  · exact h.deductTrusted fun _ => hn
  · exact h.deductUntrusted

theorem Reaches.deduct (h : Reaches W s t) {c : Bool} {m : PerPlane Nat} : Reaches W s (t.deduct c m) := by
  dsimp only [State.deduct]
  split
  · exact ((((h.deductSlot (by decide)).deductSlot (by decide)).deductSlot (by decide)).deductSlot (by decide)).deductSlot (by decide)
  · exact (h.deductSlot (by decide)).deductSlot (by decide)

theorem State.cartEntry_length (s : State) (n : Nat) : (s.cartEntry n).length = 7 := rfl

theorem Reaches.endCheckWait (h : Reaches W s t) (hs : s.within W) : Reaches W s t.endCheckWait := by
  unfold State.endCheckWait
  split
  · exact h
  · rename_i w hw
    split
    · exact h
    · refine Reaches.misc (Reaches.close ?_ hs.closes) { frame := rfl, wait := fun _ e => nomatch e }
      refine h.writeEntries (n := 7 * 5) ?_ fun x v hx => (h.within hs).wait w hw x v hx
      have hlen : ∀ l : List Nat, (l.map fun n => (t.cartEntry n).length).sum = 7 * l.length := by
        intro l; induction l with
        | nil => rfl
        | cons a l ih => rw [List.map_cons, List.sum_cons, ih, State.cartEntry_length, List.length_cons]; omega
      rw [List.map_map]
      exact (hlen _).trans_le (Nat.mul_le_mul_left 7 (by simp [supplySlots]))

theorem Reaches.countNotChecked (h : Reaches W s t) {n : Nat} : Reaches W s (t.countNotChecked n) := by
  unfold State.countNotChecked
  split
  · exact h
  · rename_i w hw
    exact h.misc { frame := rfl, wait := fun x hx => ⟨w, hw, by cases hx; rfl⟩ }

/-- A part of a lawful queue is lawful, as long as its running procedure stays in front. -/
theorem queueOk_filter {q : List Procedure} (p : Procedure → Bool) (h : queueOk q) : queueOk (q.filter p) := by
  obtain ⟨hn, hr, ht⟩ := h
  refine ⟨hn.sublist (List.filter_sublist.map _), fun x hx => hr x (List.mem_filter.mp hx).1, ?_⟩
  cases q with
  | nil => simp
  | cons a rest =>
    intro x hx
    by_cases ha : p a = true
    · simp only [List.filter_cons, ha, if_true, List.tail_cons] at hx
      exact ht x (List.mem_filter.mp hx).1
    · simp only [List.filter_cons, ha] at hx
      exact ht x (List.mem_filter.mp (List.mem_of_mem_tail hx)).1

theorem Link.cutRunning_queue (l : Link) : l.cutRunning.queue = l.queue := by
  unfold Link.cutRunning
  split <;> rfl

theorem Reaches.removeProcedures (h : Reaches W s t) {n : Nat} : Reaches W s (t.removeProcedures n) := by
  unfold State.removeProcedures
  extract_lets mine u l link
  have hu : Reaches W s u := .ite (fun _ => h.countNotChecked) fun _ => h
  clear_value u
  refine hu.link fun _ hq => ?_
  have e : (if mine.any (fun p => p.running) then link.cutRunning else link).queue = link.queue := by
    rw [apply_ite Link.queue, link.cutRunning_queue, ite_self]
  exact e ▸ queueOk_filter _ hq

theorem Reaches.doorOpened (h : Reaches W s t) {n : Nat} : Reaches W s (t.doorOpened n) := by
  unfold State.doorOpened
  extract_lets u c v
  have hu : Reaches W s u := .ite (fun _ => h.listWrite) fun _ => h
  clear_value u
  have hv : Reaches W s v := hu.changeCart fun hl => Cartridge.lawful_of_values (.inl rfl) hl
  clear_value v
  exact hv.removeProcedures

theorem Reaches.doorEdge (h : Reaches W s t) (hs : s.within W) {n : Nat} : Reaches W s (t.doorEdge n) :=
  (Reaches.foldl (fun h => h.doorOpened) _ h).endCheckWait hs

/-- A run of one operation for each entry of a list that a property of its entries allows. -/
theorem Reaches.foldl_mem {α : Type} {f : State → α → State} {p : α → Prop} (hf : ∀ {t x}, p x → Reaches W s t → Reaches W s (f t x))
    {l : List α} (hl : ∀ x ∈ l, p x) (h : Reaches W s t) : Reaches W s (l.foldl f t) := by
  induction l generalizing t with
  | nil => exact h
  | cons x rest ih => exact ih (fun y hy => hl y (List.mem_cons_of_mem _ hy)) (hf (hl x List.mem_cons_self) h)

/-- CHECKs are requested for a list of supply slots. -/
theorem Reaches.requestChecks (h : Reaches W s t) {l : List Nat} (hl : ∀ n ∈ l, 1 ≤ n ∧ n ≤ 5) :
    Reaches W s (l.foldl (fun s n => s.requestCheck n false) t) :=
  Reaches.foldl_mem (p := fun n => 1 ≤ n ∧ n ≤ 5) (fun hn h => h.requestCheck fun _ => hn) hl h

theorem doorSlots_range (line n : Nat) (h : n ∈ doorSlots line) : 1 ≤ n ∧ n ≤ 5 := by
  unfold doorSlots at h
  split at h
  · simp at h; omega
  · split at h
    · simp at h; omega
    · simp at h

theorem Reaches.doorReturn (h : Reaches W s t) {n : Nat} : Reaches W s (t.doorReturn n) := h.requestChecks (doorSlots_range n)

/-! ### Print path -/

theorem Reaches.printIdle (h : Reaches W s t) : Reaches W s t.printIdle := Reaches.dropCore (h.print (.inr rfl))

theorem Reaches.printRefuse (h : Reaches W s t) (hs : s.closesWithin W) {r : Refused} : Reaches W s (t.printRefuse r) :=
  (h.refuse hs).printIdle

theorem sat64_le {a : Nat} (b : Nat) (h : a < 2 ^ 64) : a ≤ sat64 a b ∧ sat64 a b < 2 ^ 64 := by
  unfold sat64; omega

theorem impressionMeters_le {x : Meters} {o : PrintOutcome} {m : Metered} (h : Meters.lawful x) :
    Meters.le x (impressionMeters x o m) ∧ Meters.lawful (impressionMeters x o m) := by
  obtain ⟨h1, h2, h3, h4, h5⟩ := h
  have t1 := sat64_le m.toner.total h5
  unfold impressionMeters
  split
  · split
    · have c1 := sat64_le 1 h2
      exact ⟨⟨le_rfl, c1.1, le_rfl, le_rfl, t1.1⟩, h1, c1.2, h3, h4, t1.2⟩
    · have c1 := sat64_le 1 h1
      exact ⟨⟨c1.1, le_rfl, le_rfl, le_rfl, t1.1⟩, c1.2, h2, h3, h4, t1.2⟩
  · have c1 := sat64_le 1 h3
    exact ⟨⟨le_rfl, le_rfl, c1.1, le_rfl, t1.1⟩, h1, h2, c1.2, h4, t1.2⟩
  · exact ⟨⟨le_rfl, le_rfl, le_rfl, le_rfl, le_rfl⟩, h1, h2, h3, h4, h5⟩

/-- A settlement in flight changes the arguments of the path only at its end. -/
theorem Reaches.settlePrint (h : Reaches W s t) (hs : s.within W) {o : PrintOutcome} {c : PrintCause} {code : ReturnCode} {w14 : Nat} :
    Reaches W s (t.settlePrint o c code w14) := by
  unfold State.settlePrint
  split
  · rename_i a cap ha hcap
    have hb := (h.within hs).record a ha
    extract_lets m settled deducted metered result r
    have hd : Reaches W s deducted := .ite (fun _ => h.settleHold) fun _ => h.settleHold.deduct
    have hm : Reaches W s metered := .ite (fun _ => hd) fun _ => hd.act (.meters _ impressionMeters_le)
    exact (((hm.writePrintResult hb).completeEnd hs.closes).close hs.closes).printIdle
  · exact h

theorem Reaches.notImaged (h : Reaches W s t) (hs : s.within W) {code : ReturnCode} {c : PrintCause} {w14 : Nat} :
    Reaches W s (t.notImaged code c w14) := h.settlePrint hs

theorem Reaches.spoil (h : Reaches W s t) (hs : s.within W) {c : PrintCause} : Reaches W s (t.spoil c) := by
  have hm : Misc W t { t with engineOut := t.engineOut ++ [EngineMessage.abort t.print.number],
                              print := { t.print with retired := some t.print.number } } := { frame := rfl }
  exact (h.misc hm).dropCore.settlePrint hs

theorem Reaches.bandFails (h : Reaches W s t) (hs : s.within W) {i : Nat} {c : PrintCause} : Reaches W s (t.bandFails i c) := by
  unfold State.bandFails
  split
  · exact h.notImaged hs
  · exact h.spoil hs
  · exact h

theorem Reaches.imagingStart (h : Reaches W s t) (hs : s.within W) {a : PrintArgs} : Reaches W s (t.imagingStart a) := by
  dsimp only [State.imagingStart]
  split
  · exact h.misc { frame := rfl }
  · exact h.notImaged hs

theorem Reaches.bandReady (h : Reaches W s t) (hs : s.within W) {i : Nat} {e : BandEntry} {p : List Byte} :
    Reaches W s (t.bandReady i e p) := by
  dsimp only [State.bandReady]
  split
  · exact h.print
  · split
    · exact Reaches.imagingStart h.print hs
    · exact h.print

theorem Reaches.printWait (h : Reaches W s t) {w : PrintWait} : Reaches W s (t.printWait w) := h.print

theorem neededSlots_range (c : Bool) (n : Nat) (h : n ∈ neededSlots c) : 1 ≤ n ∧ n ≤ 5 := by
  cases c <;> simp [neededSlots] at h <;> omega

theorem Reaches.awaitSupply (h : Reaches W s t) {c : Bool} : Reaches W s (t.awaitSupply c) :=
  (h.requestChecks fun n hn => neededSlots_range c n (List.mem_filter.mp hn).1).printWait

theorem Reaches.printCheck10 (h : Reaches W s t) (hs : s.closesWithin W) {a : PrintArgs} : Reaches W s (t.printCheck10 a) := by
  dsimp only [State.printCheck10]
  split
  · exact h.quotaStop.printRefuse hs
  · rename_i u hu
    exact (h.requestHold hu).admitted.print

theorem Reaches.printAdmit (h : Reaches W s t) (hs : s.closesWithin W) : Reaches W s t.printAdmit := by
  unfold State.printAdmit
  split
  · exact h
  · dsimp only []
    split
    · exact h.touchJob.printRefuse hs
    · split
      · exact h.touchJob.readAccount.printRefuse hs
      · split
        · exact h.touchJob.readAccount.printWait
        · split
          · exact h.touchJob.readAccount.printRefuse hs
          · split
            · exact h.touchJob.readAccount.awaitSupply
            · exact h.touchJob.readAccount.printCheck10 hs

theorem Reaches.renewPrint (h : Reaches W s t) (hs : s.closesWithin W) : Reaches W s t.renewPrint := by
  unfold State.renewPrint
  split
  · exact h.printAdmit hs
  · exact h

theorem Reaches.renewPrintOnSupply (h : Reaches W s t) (hs : s.closesWithin W) {b : State} : Reaches W s (b.renewPrintOnSupply t) := by
  unfold State.renewPrintOnSupply
  split
  · exact h
  · split
    · exact h.renewPrint hs
    · exact h

theorem Reaches.printDeparture (h : Reaches W s t) (hs : s.within W) : Reaches W s t.printDeparture := by
  unfold State.printDeparture
  split
  · exact h
  · exact h.renewPrint hs.closes
  · exact h.notImaged hs
  · exact h.spoil hs
  · exact h.spoil hs

theorem Reaches.printWithdrawal (h : Reaches W s t) (hs : s.within W) : Reaches W s t.printWithdrawal := by
  unfold State.printWithdrawal
  split
  · exact h
  · exact h.renewPrint hs.closes
  · exact h.notImaged hs
  · exact h.spoil hs
  · exact h.spoil hs

end Sys2Proof.Machine
end

