-- ==== Sys2Proof/Proofs/Runs3.lean ====
section
/-! The scan path, the destruction of slots, the withdrawal and the sense watch as runs of acts. -/

namespace Sys2Proof.Machine

variable {W : Scope} {s t : State}

/-! ### Scan path -/

theorem Reaches.writeMeters (h : Reaches W s t) {m : Meters}
    (hm : Meters.lawful t.stored.meters → Meters.le t.stored.meters m ∧ Meters.lawful m) : Reaches W s (t.writeMeters m) :=
  h.act (.meters m hm)

theorem scannedMeters_le {x : Meters} (h : Meters.lawful x) :
    Meters.le x { x with scanned := sat64 x.scanned 1 } ∧ Meters.lawful { x with scanned := sat64 x.scanned 1 } := by
  obtain ⟨h1, h2, h3, h4, h5⟩ := h
  have c := sat64_le 1 h4
  exact ⟨⟨le_rfl, le_rfl, le_rfl, c.1, le_rfl⟩, h1, h2, h3, c.2, h5⟩

theorem Reaches.settleScan (h : Reaches W s t) (hs : s.closesWithin W) {code : ReturnCode} {c : Nat} :
    Reaches W s (t.settleScan code c) := by
  unfold State.settleScan
  split
  · exact h
  · extract_lets completed u m metered r
    have hm : Reaches W s metered := .ite (fun _ => h.settleHold.writeMeters scannedMeters_le) fun _ => h.settleHold
    exact ((hm.completeEnd hs).close hs).scanIdle

theorem Reaches.failPage (h : Reaches W s t) (hs : s.closesWithin W) {code : ReturnCode} {ended : Bool} :
    Reaches W s (t.failPage code ended) := by
  unfold State.failPage
  split
  · extract_lets p u v
    have hu : Reaches W s u := h.scan
    have hv : Reaches W s v := hu.eraseUnwritten.dropCore
    clear_value v
    exact .ite (fun _ => hv.settleScan hs) fun _ => hv
  · exact h

theorem Reaches.settleIfWritten (h : Reaches W s t) (hs : s.closesWithin W) : Reaches W s t.settleIfWritten :=
  .ite (fun _ => h.settleScan hs) fun _ => h

theorem Reaches.bandComplete (h : Reaches W s t) (hs : s.closesWithin W) (hw : W.writes) {i : Nat} {a : ScanArgs} :
    Reaches W s (t.bandComplete i a) :=
  .ite (fun _ => h.failPage hs) fun _ => .ite (fun _ => (h.putBuffer hw).presentScan) fun _ => h.failPage hs

theorem Reaches.lineBuffer (h : Reaches W s t) (hw : W.writes) {u : State} {i : Nat} (e : t.lineBuffer = some (u, i)) :
    Reaches W s u := by
  unfold State.lineBuffer at e
  split at e
  · cases e; exact h
  · split at e
    · cases e
    · cases e; exact (h.putBuffer hw).scan (.inl hw)

theorem Reaches.joinLine (h : Reaches W s t) (hs : s.closesWithin W) (hw : W.writes) {a : ScanArgs} {l : List Byte} :
    Reaches W s (t.joinLine a l) := by
  unfold State.joinLine
  split
  · exact h.failPage hs
  · rename_i u i e
    extract_lets b v taken p x
    have hx : Reaches W s x := ((h.lineBuffer hw e).putBuffer hw).scan (.inl hw)
    clear_value x
    exact .ite (fun _ => hx.bandComplete hs hw) fun _ => hx

theorem Reaches.takeLine (h : Reaches W s t) (hs : s.closesWithin W) (hw : W.writes) {a : ScanArgs} {l : List Byte} :
    Reaches W s (t.takeLine a l) :=
  .ite (fun _ => h.scan) fun _ => .ite (fun _ => h.failPage hs) fun _ => (Reaches.ite (fun _ => h.scan) fun _ => h).joinLine hs hw

theorem Reaches.takePageEnd (h : Reaches W s t) (hs : s.closesWithin W) (hw : W.writes) {a : ScanArgs} :
    Reaches W s (t.takePageEnd a) := by
  unfold State.takePageEnd
  extract_lets p u
  have hu : Reaches W s u := h.scan
  refine .ite (fun _ => hu.failPage hs) fun _ => ?_
  split
  · exact hu.bandComplete hs hw
  · exact hu.settleIfWritten hs

theorem Reaches.scanRefuse (h : Reaches W s t) (hs : s.closesWithin W) {r : Refused} {w : Nat} : Reaches W s (t.scanRefuse r w) :=
  (h.refuse hs).scanIdle

/-- Slots keep their law where state, job, expiry and key stay as they are and the slot is in use. -/
theorem KeySlot.page_lawful {k : KeySlot} {n : Nat} (hf : k.state ≠ .free) (hl : k.lawful) : ({ k with page := n } : KeySlot).lawful := by
  unfold KeySlot.lawful at hl ⊢
  cases hk : k.state with
  | free => exact absurd hk hf
  | live => rw [hk] at hl; exact hl
  | held => rw [hk] at hl; exact hl

theorem State.slot_of_keyGranted {s : State} {k : SlotHandle} {j : Handle} {u : KeyUse} (h : s.keyGranted k j u = true) :
    k.idx < 32 ∧ (s.slot k.idx).state = .live ∧ (s.slot k.idx).gen = k.gen ∧ (s.slot k.idx).job = some j ∧ (s.slot k.idx).holds u = true := by
  unfold State.keyGranted State.slotOf at h
  split at h
  · cases h
  · rename_i i hi
    split at hi
    · rename_i hc
      cases hi
      simp only [Bool.and_eq_true, decide_eq_true_eq] at h
      exact ⟨hc.1, h.1.1, hc.2.2, h.1.2, h.2⟩
    · cases hi

theorem Reaches.takePageNumber (h : Reaches W s t) {k : SlotHandle} (hf : (t.slot k.idx).state ≠ .free) :
    Reaches W s (t.takePageNumber k).1 :=
  h.act (.slot k.idx _ (KeySlot.page_lawful hf) id (.inl rfl))

/-- A hold request leaves the key slots alone. -/
theorem State.requestHold_slots {t u : State} {i : Nat} {p : CipherPath} {n : Nat} (e : t.requestHold i p n = some u) :
    u.slots = t.slots := by
  by_cases hc : t.covers (t.job i).account (t.job i).free n
  · rw [State.requestHold_some hc] at e; cases e; rfl
  · rw [State.requestHold_none hc] at e; cases e

theorem State.admitted_slots (s : State) (j : Handle) : (s.admitted j).slots = s.slots := by
  rw [State.admitted, State.touchHold_frame, State.touchJob_frame]

theorem Reaches.scanCheck8 (h : Reaches W s t) (hs : s.closesWithin W) {a : ScanArgs} (hf : (t.slot a.slot.idx).state ≠ .free) :
    Reaches W s (t.scanCheck8 a) := by
  dsimp only [State.scanCheck8]
  split
  · exact h.quotaStop.scanRefuse hs
  · rename_i u hu
    have hslots : (u.admitted a.job).slots = t.slots := (u.admitted_slots a.job).trans (State.requestHold_slots hu)
    have hf' : ((u.admitted a.job).slot a.slot.idx).state ≠ .free := by rwa [State.slot, hslots]
    exact ((h.requestHold hu).admitted.takePageNumber hf').scan

theorem State.readAccount_slots (s : State) (n : Nat) : (s.readAccount n).slots = s.slots := by rw [State.readAccount_frame]

/-- A slot that passed check 4 of R86 is in use. -/
theorem State.slot_of_scanRefusal36 {s : State} {a : ScanArgs} (h : s.scanRefusal36 a = none) : (s.slot a.slot.idx).state ≠ .free := by
  have hg := firstRefusal_none.mp h (refuseIf (!s.keyGranted a.slot a.job .scan) .badSlot) (by simp)
  have hl := (State.slot_of_keyGranted (by simpa using refuseIf_none.mp hg)).2.1
  rw [hl]
  exact fun e => nomatch e

theorem Reaches.scanAdmit (h : Reaches W s t) (hs : s.closesWithin W) : Reaches W s t.scanAdmit := by
  unfold State.scanAdmit
  split
  · exact h
  · dsimp only []
    split
    · exact h.touchJob.scanRefuse hs
    · split
      · exact h.touchJob.scanRefuse hs
      · split
        · exact h.touchJob.readAccount.scanRefuse hs
        · rename_i hr
          exact .ite (fun _ => h.touchJob.readAccount.scan) fun _ =>
            h.touchJob.readAccount.scanCheck8 hs (State.slot_of_scanRefusal36 hr)

theorem Reaches.renewScan (h : Reaches W s t) (hs : s.closesWithin W) : Reaches W s t.renewScan :=
  .ite (fun _ => h.scanAdmit hs) fun _ => h

theorem Reaches.clearDrain (h : Reaches W s t) (hs : s.closesWithin W) : Reaches W s t.clearDrain :=
  .ite (fun _ => h.scan) fun _ => Reaches.renewScan h.scan hs

theorem Reaches.afterWrite (h : Reaches W s t) (hs : s.closesWithin W) (hw : W.writes) : Reaches W s t.afterWrite := by
  unfold State.afterWrite
  split
  · exact .ite (fun _ => h) fun _ => .ite (fun _ => h.settleScan hs) fun _ => h.closeCipher hs
  · exact .ite (fun _ => (h.startWrite hw).settleIfWritten hs) fun _ =>
      .ite (fun _ => (h.startWrite hw).closeCipher hs) fun _ => (h.startWrite hw).startSourceRead hw

theorem Reaches.bandWritten (h : Reaches W s t) (hs : s.closesWithin W) (hw : W.writes) {i : Nat} : Reaches W s (t.bandWritten i) :=
  ((h.putBuffer hw).scan (.inl hw)).afterWrite hs hw

theorem Reaches.writeFailed (h : Reaches W s t) (hs : s.closesWithin W) (hw : W.writes) {i a : Nat} :
    Reaches W s (t.writeFailed i a) := by
  unfold State.writeFailed
  extract_lets u
  have hu : Reaches W s u := h.captureMemory.putBuffer hw
  clear_value u
  split
  · exact hu.afterWrite hs hw
  · exact .ite (fun _ => hu.failPage hs) fun _ => hu.failCipher hs

/-- A run of bytes is written, each to a value granted. -/
theorem Reaches.writeBytes (h : Reaches W s t) {a : Nat} {l : List Byte}
    (hb : t.mem.wf → ∀ x, (t.writeBytes a l).1.mem.read x = t.mem.read x ∨ W.bytes x ((t.writeBytes a l).1.mem.read x)) :
    Reaches W s (t.writeBytes a l).1 := by
  rw [State.writeBytes_frame]
  exact h.act (.mem _ (State.writeBytes_wf l t a) hb)

/-- What a match on a memory write answers with. -/
theorem Reaches.fst_of_eq {α : Type} {r : State × α} {u : State} {x : α} (h : Reaches W s r.1) (e : r = (u, x)) : Reaches W s u := by
  rwa [e] at h

/-- What the completion of the write under way writes is granted. -/
structure State.writeWithin (t : State) (W : Scope) : Prop where
  data : ∀ i, t.writingBuffer = some i → (t.buffer i).cond = .writingData → t.mem.wf → ∀ x,
    let m := (t.writeBytes (t.destination (t.buffer i).band) (t.buffer i).data).1.mem
    m.read x = t.mem.read x ∨ W.bytes x (m.read x)
  record : ∀ i, t.writingBuffer = some i → (t.buffer i).cond ≠ .writingData → t.mem.wf → ∀ x,
    let m := (t.writeWords ((t.scan.args.map (·.records)).getD 0 + 12 * (t.buffer i).band) (bandRecord (t.buffer i))).1.mem
    m.read x = t.mem.read x ∨ W.bytes x (m.read x)

theorem Reaches.writeDone (h : Reaches W s t) (hs : s.closesWithin W) (hw : W.writes) (hb : t.writeWithin W) :
    Reaches W s t.writeDone := by
  unfold State.writeDone
  split
  · exact h
  · rename_i i hi
    dsimp only []
    split
    · rename_i hd
      have hrun := h.writeBytes (hb.data i hi hd)
      split
      · rename_i e; exact (hrun.fst_of_eq e).writeFailed hs hw
      · rename_i e
        exact .ite (fun _ => (hrun.fst_of_eq e).bandWritten hs hw) fun _ => (hrun.fst_of_eq e).putBuffer hw
    · rename_i hd
      have hrun : Reaches W s (t.writeWords ((t.scan.args.map (·.records)).getD 0 + 12 * (t.buffer i).band)
          (bandRecord (t.buffer i))).1 := by
        rw [State.writeWords_frame]
        exact h.act (.mem _ (State.writeWords_wf _ t _) (hb.record i hi hd))
      split
      · rename_i e; exact (hrun.fst_of_eq e).writeFailed hs hw
      · rename_i e; exact (hrun.fst_of_eq e).bandWritten hs hw

theorem Reaches.scanBandCiphered (h : Reaches W s t) (hs : s.closesWithin W) (hw : W.writes) {i : Nat} {a : ScanArgs} :
    Reaches W s (t.scanBandCiphered i a) := by
  dsimp only [State.scanBandCiphered]
  split
  · split
    · exact h.failCipher hs
    · exact (h.putBuffer hw).startWrite hw
  · exact (h.putBuffer hw).startWrite hw

theorem Reaches.sourceRead (h : Reaches W s t) (hs : s.closesWithin W) (hw : W.writes) {i : Nat} {a : ScanArgs} :
    Reaches W s (t.sourceRead i a) := by
  dsimp only [State.sourceRead]
  split
  · exact h.captureMemory.failCipher hs
  · split
    · exact h.failCipher hs
    · exact (h.putBuffer hw).presentScan.startSourceRead hw

theorem Reaches.scanDeparture (h : Reaches W s t) (hs : s.closesWithin W) : Reaches W s t.scanDeparture := by
  unfold State.scanDeparture
  split
  · exact h.renewScan hs
  · exact .ite (fun _ => h) fun _ => h.failPage hs
  · exact h

theorem Reaches.pageSlotLost (h : Reaches W s t) (hs : s.closesWithin W) {k : SlotHandle} : Reaches W s (t.pageSlotLost k) :=
  .ite (fun _ => h.failPage hs) fun _ => h

/-! ### The withdrawal -/

/-- What a withdrawal of this command may still write of a plaintext write under way is granted: in every state of the command whose
write is this one (R99). -/
def State.plainWithin (s : State) (W : Scope) : Prop :=
  ∀ d data, s.plainWrite = some (d, data) → ∀ u : State, u.env = s.env → u.mem.wf → ∀ x,
    let m := (u.writeBytes d (data.take s.env.stopped)).1.mem
    m.read x = u.mem.read x ∨ W.bytes x (m.read x)

theorem Act.plainWrite (h : Act W s t) (hw : ¬W.writes) : t.plainWrite = s.plainWrite ∨ t.plainWrite = none := by
  cases h with
  | misc h =>
    rcases h.plain with hw' | h
    · exact absurd hw' hw
    · exact h
  | _ => exact .inl rfl

/-- The plaintext write under way stays as it is, or ends. -/
theorem Reaches.plainWrite (h : Reaches W s t) (hw : ¬W.writes) : t.plainWrite = s.plainWrite ∨ t.plainWrite = none := by
  induction h with
  | refl => exact .inl rfl
  | tail _ a ih =>
    rcases a.plainWrite hw with e | e
    · rwa [e]
    · exact .inr e

theorem State.closesWithin.loose (h : s.closesWithin W) : s.closesWithin W.loose := h

theorem State.within.loose (h : s.within W) : s.within W.loose := ⟨h.closes, h.record, h.wait⟩

theorem Reaches.stopPlainWrite (h : Reaches W s t) (hw : ¬W.writes) (hp : s.plainWithin W) : Reaches W.loose s t.stopPlainWrite := by
  unfold State.stopPlainWrite
  split
  · rename_i i hwork hi
    refine Reaches.putBuffer ?_ trivial
    refine h.loose.writeBytes fun hwf => ?_
    have hplain : t.plainWrite = some (t.destination (t.buffer i).band, (t.buffer i).data) := by
      simp [State.plainWrite, hwork, hi]
    rcases h.plainWrite hw with e | e
    · have := hp _ _ (e ▸ hplain) t h.env hwf
      rwa [h.env]
    · rw [e] at hplain; cases hplain
  · exact h.loose

/-- The state a withdrawal's effect on the scan path runs from may write its plaintext as granted. -/
theorem Reaches.scanWithdrawal (h : Reaches W s t) (hs : s.closesWithin W) (hw : ¬W.writes) (hp : s.plainWithin W) :
    Reaches W.loose s t.scanWithdrawal := by
  unfold State.scanWithdrawal
  split
  · exact h.loose
  · exact (h.renewScan hs).loose
  · exact (h.failPage hs).loose
  · extract_lets u
    have hu : Reaches W.loose s u := h.stopPlainWrite hw hp
    clear_value u
    split
    · exact hu.failCipher hs
    · exact .ite (fun _ => hu.closeCipher hs) fun _ => hu

theorem Reaches.failBands (h : Reaches W s t) (hs : s.within W) {l : List Nat} : Reaches W s (t.failBands l) := by
  cases l with
  | nil => exact h
  | cons i rest => exact h.bandFails hs

theorem Reaches.destroySlot (h : Reaches W s t) (hs : s.within W) {i : Nat} : Reaches W s (t.destroySlot i) :=
  ((h.wipeSlot.failBands hs).pageSlotLost hs.closes).cipherSlotLost hs.closes

theorem Reaches.wipeAll (h : Reaches W s t) : Reaches W s t.wipeAll := by
  unfold State.wipeAll
  extract_lets u c
  have hu : Reaches W s u := Reaches.foldl (fun h => .ite (fun _ => h) fun _ => h.wipeSlot) _ h
  clear_value u
  exact hu.core

theorem Reaches.withdraw (h : Reaches W s t) (hs : s.within W) (hw : ¬W.writes) (hp : s.plainWithin W) :
    Reaches W.loose s t.withdraw := by
  unfold State.withdraw
  split
  · rename_i hop
    exact ((h.act (.withdraw hop)).wipeAll.printWithdrawal hs).scanWithdrawal hs.closes hw hp
  · exact h.loose

/-! ### The sense watch -/

theorem Reaches.doorChange (h : Reaches W s t) (hs : s.within W) {old new : BitVec 8} {n : Nat} :
    Reaches W s (t.doorChange old new n) :=
  .ite (fun _ => h.doorEdge hs) fun _ => .ite (fun _ => h.doorReturn) fun _ => h

theorem Reaches.groupChange {W' : Scope} (h : Reaches W s t) (hl : ∀ {u}, Reaches W s u → Reaches W' s u) {old new group : BitVec 8}
    {f : State → State} (hf : ∀ {u}, Reaches W s u → Reaches W' s (f u)) : Reaches W' s (t.groupChange old new group f) :=
  .ite (fun _ => hl h) fun _ => .ite (fun _ => hf h.raise) fun _ => hl h.raise

theorem Reaches.scannerReadyEdge (h : Reaches W s t) {old new : BitVec 8} : Reaches W s (t.scannerReadyEdge old new) :=
  .ite (fun _ => h.scan) fun _ => h

theorem Reaches.engineReadyReturn (h : Reaches W s t) (hs : s.closesWithin W) {old new : BitVec 8} :
    Reaches W s (t.engineReadyReturn old new) := .ite (fun _ => h.renewPrint hs) fun _ => h

theorem Reaches.scannerReadyReturn (h : Reaches W s t) (hs : s.closesWithin W) {old new : BitVec 8} :
    Reaches W s (t.scannerReadyReturn old new) := .ite (fun _ => h.renewScan hs) fun _ => h

theorem Reaches.senseChange (h : Reaches W s t) (hs : s.within W) (hw : ¬W.writes) (hp : s.plainWithin W) {old new : BitVec 8} :
    Reaches W.loose s (t.senseChange old new) := by
  unfold State.senseChange
  extract_lets doors edge engine scanner privacy
  have he : Reaches W s edge := ((h.doorChange hs).doorChange hs).scannerReadyEdge
  have hg : Reaches W s engine := he.groupChange id fun h => h.printDeparture hs
  have hc : Reaches W s scanner := hg.groupChange id fun h => h.scanDeparture hs.closes
  have hv : Reaches W.loose s privacy := hc.groupChange Reaches.loose fun h => h.withdraw hs hw hp
  exact ((hv.engineReadyReturn hs.closes.loose).scannerReadyReturn hs.closes.loose).pumpCore

end Sys2Proof.Machine
end

