-- ==== Sys2Proof/Proofs/Runs4.lean ====
section
/-! The Supply Link, Configure's effects, the engine port and the account tickets' operations as runs of acts. -/

namespace Sys2Proof.Machine

variable {W : Scope} {s t : State}

/-! ### The link's procedures -/

theorem queueOk_tail {q : List Procedure} (h : queueOk q) : queueOk q.tail := by
  obtain ⟨hn, hr, ht⟩ := h
  refine ⟨?_, fun p hp => hr p (List.mem_of_mem_tail hp), fun p hp => ht p (List.mem_of_mem_tail hp)⟩
  rw [List.map_tail]
  exact hn.sublist (List.tail_sublist _)

/-- The head entry changes in its own fields alone. -/
theorem queueOk_head {q : List Procedure} {p p' : Procedure} {rest : List Procedure} (hq : q = p :: rest) (hslot : p'.slot = p.slot)
    (hkind : p'.kind = p.kind) (h : queueOk q) : queueOk (p' :: q.tail) := by
  subst hq
  obtain ⟨hn, hr, ht⟩ := h
  refine ⟨by simpa [hslot, hkind] using hn, fun x hx => ?_, ht⟩
  rcases List.mem_cons.mp hx with rfl | hx
  · rw [hslot]; exact hr p List.mem_cons_self
  · exact hr x (List.mem_cons_of_mem _ hx)

theorem Reaches.putHead (h : Reaches W s t) {p p' : Procedure} {rest : List Procedure} (hq : t.link.queue = p :: rest)
    (hslot : p'.slot = p.slot := by rfl) (hkind : p'.kind = p.kind := by rfl) : Reaches W s (t.putHead p') :=
  h.link fun _ => queueOk_head hq hslot hkind

theorem Reaches.reportWaiter (h : Reaches W s t) {p : Procedure} : Reaches W s (t.reportWaiter p) := by
  unfold State.reportWaiter
  split
  · split
    · exact h
    · rename_i w hw
      exact .ite (fun _ => h.misc { frame := rfl, wait := fun x hx => ⟨w, hw, by cases hx; rfl⟩ }) fun _ => h
  · exact h

theorem Reaches.endProcedure (h : Reaches W s t) {p : Procedure} : Reaches W s (t.endProcedure p) := by
  unfold State.endProcedure
  extract_lets u l
  have hu : Reaches W s u := h.reportWaiter
  clear_value u
  exact hu.link fun _ => queueOk_tail

theorem Reaches.beginTransaction (h : Reaches W s t) {n : Nat} {c : LinkCommand} {l : List Byte} :
    Reaches W s (t.beginTransaction n c l) := h.link fun _ => id

theorem Reaches.checkAbsent (h : Reaches W s t) {p : Procedure} : Reaches W s (t.checkAbsent p) :=
  (h.changeCart fun hl => Cartridge.lawful_of_values (.inr rfl) hl).endProcedure

theorem Reaches.checkWrongKind (h : Reaches W s t) {p : Procedure} {x : Identity} : Reaches W s (t.checkWrongKind p x) :=
  (h.changeCart fun hl => Cartridge.lawful_of_values (.inr rfl) hl).endProcedure

theorem Reaches.checkSilent (h : Reaches W s t) {p : Procedure} {x : Identity} : Reaches W s (t.checkSilent p x) :=
  (h.changeCart fun hl => Cartridge.lawful_of_values (.inr rfl) hl).endProcedure

theorem Reaches.checkProve (h : Reaches W s t) {p : Procedure} {x : Identity} {rest : List Procedure}
    (hq : t.link.queue = p :: rest) : Reaches W s (t.checkProve p x) :=
  (h.putHead hq).beginTransaction

theorem adoptedValues_le (permille : Nat) (x : Identity) (known : Option KnownCartridge) :
    (adoptedValues permille x known).remaining ≤ (adoptedValues permille x known).capacity := by
  cases known <;> exact Nat.min_le_right _ _

theorem Reaches.checkProved (h : Reaches W s t) {p : Procedure} (hp : W.queue → 1 ≤ p.slot ∧ p.slot ≤ 5) {x : Identity} {m : Bool} :
    Reaches W s (t.checkProved p x m) := by
  unfold State.checkProved
  extract_lets set v auth reason u
  have hu : Reaches W s u := h.changeCart fun _ w hw => by
    cases hw
    exact adoptedValues_le _ _ _
  clear_value u
  refine .ite (fun _ => hu.endProcedure) fun _ => ?_
  exact .ite (fun _ => hu.listWrite.endProcedure.wantRecord hp) fun _ => hu.listWrite.endProcedure

theorem Reaches.recordEnds (h : Reaches W s t) {p : Procedure} (hp : W.queue → 1 ≤ p.slot ∧ p.slot ≤ 5) :
    Reaches W s (t.recordEnds p) := by
  have he : Reaches W s ((t.putCart p.slot { t.cart p.slot with recordOwed := false }).endProcedure p) := by
    refine Reaches.endProcedure (h.act ?_)
    exact .cart p.slot _ fun hl => Cartridge.lawful_of_values (.inl rfl) hl
  exact .ite (fun _ => he.wantRecord hp) fun _ => he

theorem Reaches.recordAnswered (h : Reaches W s t) {p : Procedure} (hp : W.queue → 1 ≤ p.slot ∧ p.slot ≤ 5) {r u : Nat} :
    Reaches W s (t.recordAnswered p r u) := by
  unfold State.recordAnswered
  extract_lets permille
  split
  · exact h.recordEnds hp
  · rename_i v hv
    extract_lets r' w changed wanted listed
    have hc : Reaches W s changed := h.changeCart fun hl x hx => by
      cases hx
      exact Nat.le_trans (Nat.min_le_left _ _) (hl v hv)
    have hw : Reaches W s wanted := .ite (fun _ => hc.wantRecord hp) fun _ => hc
    have hl : Reaches W s listed := .ite (fun _ => hw.listWrite) fun _ => hw
    exact hl.recordEnds hp

theorem Reaches.recordUnanswered (h : Reaches W s t) {p : Procedure} (hp : W.queue → 1 ≤ p.slot ∧ p.slot ≤ 5) :
    Reaches W s (t.recordUnanswered p) := by
  have hl : Reaches W s (t.listWrite p.slot) := h.listWrite
  exact (Reaches.ite (fun _ => hl.changeCart fun hc => Cartridge.lawful_of_values (.inr rfl) hc) fun _ => h).recordEnds hp

/-- The running procedure is the head of the queue. -/
theorem State.runningProcedure_some {s : State} {p : Procedure} (h : s.runningProcedure = some p) :
    ∃ rest, s.link.queue = p :: rest ∧ p.running = true := by
  unfold State.runningProcedure at h
  split at h
  · cases h
  · rename_i q rest hq
    split at h
    · cases h; exact ⟨rest, hq, ‹_›⟩
    · cases h

theorem Reaches.transactionEnds (h : Reaches W s t) (hq : W.queue → ∀ p ∈ t.link.queue, 1 ≤ p.slot ∧ p.slot ≤ 5) {n : Nat}
    {r : Option (List Byte)} : Reaches W s (t.transactionEnds n r) := by
  unfold State.transactionEnds
  split
  · exact h.link fun _ => id
  · rename_i p hrun
    obtain ⟨rest, he, -⟩ := State.runningProcedure_some hrun
    have hp : W.queue → 1 ≤ p.slot ∧ p.slot ≤ 5 := fun hw => hq hw p (he ▸ List.mem_cons_self)
    split
    · split
      · exact h.recordUnanswered hp
      · exact h.recordAnswered hp
    · split
      · split
        · exact h.checkSilent
        · exact h.checkProved hp
      · split
        · exact h.checkAbsent
        · exact .ite (fun _ => h.checkProve he) fun _ => h.checkWrongKind

theorem Reaches.attemptEnds (h : Reaches W s t) (hq : W.queue → ∀ p ∈ t.link.queue, 1 ≤ p.slot ∧ p.slot ≤ 5) {x : Transaction}
    {e : AttemptEnd} : Reaches W s (t.attemptEnds x e) := by
  unfold State.attemptEnds
  split
  · exact h.link fun _ => id
  · split
    · exact h.transactionEnds hq
    · exact h.transactionEnds hq
    · exact .ite (fun _ => h.link fun _ => id) fun _ => h.transactionEnds hq

theorem Reaches.responseEnds (h : Reaches W s t) (hq : W.queue → ∀ p ∈ t.link.queue, 1 ≤ p.slot ∧ p.slot ≤ 5)
    {f : Transaction → Option AttemptEnd} : Reaches W s (t.responseEnds f) := by
  unfold State.responseEnds
  split
  · split
    · exact h
    · exact h.attemptEnds hq
  · exact h

theorem State.changeCart_link (s : State) (n : Nat) (c : Cartridge) : (s.changeCart n c).link = s.link := by
  dsimp only [State.changeCart]
  split <;> rfl

theorem State.listWrite_link (s : State) (n : Nat) : (s.listWrite n).link = s.link := by
  dsimp only [State.listWrite]
  split <;> rfl

theorem Reaches.startCheck (h : Reaches W s t) {p : Procedure} {rest : List Procedure} (hq : t.link.queue = p :: rest) :
    Reaches W s (t.startCheck p) := by
  unfold State.startCheck
  extract_lets listed c changed p' drawn headed l started
  have hl : Reaches W s listed := .ite (fun _ => h.listWrite) fun _ => h
  have hc : Reaches W s changed := hl.changeCart fun hc => Cartridge.lawful_of_values (.inl rfl) hc
  have hlink : changed.link = t.link := by
    rw [State.changeCart_link]
    exact (apply_ite State.link _ _ _).trans (by rw [State.listWrite_link, ite_self])
  have hd : Reaches W s drawn := hc.act (.draws _ (Nat.le_succ _))
  have hh : Reaches W s headed := hd.putHead (p := p) (by rw [← hq, ← hlink])
  have hs : Reaches W s started := hh.link fun _ hq => queueOk_filter _ hq
  exact .ite (fun _ => hs.checkAbsent) fun _ => hs.beginTransaction

theorem Reaches.startRecord (h : Reaches W s t) {p : Procedure} (hp : W.queue → 1 ≤ p.slot ∧ p.slot ≤ 5) {rest : List Procedure}
    (hq : t.link.queue = p :: rest) : Reaches W s (t.startRecord p) := by
  unfold State.startRecord
  extract_lets c r u p' headed
  have hh : Reaches W s headed := h.putHead hq
  exact .ite (fun _ => .ite (fun _ => hh.recordUnanswered hp) fun _ => hh.beginTransaction) fun _ => (h.putHead hq).endProcedure

theorem Reaches.startProcedure (h : Reaches W s t) (hq : W.queue → ∀ p ∈ t.link.queue, 1 ≤ p.slot ∧ p.slot ≤ 5) :
    Reaches W s t.startProcedure := by
  unfold State.startProcedure
  split
  · split
    · exact h
    · rename_i p rest he
      split
      · exact h
      · split
        · exact h.startCheck he
        · exact h.startRecord (fun hw => hq hw p (he ▸ List.mem_cons_self)) he
  · exact h

theorem Reaches.lineStuck (h : Reaches W s t) (hq : W.queue → ∀ p ∈ t.link.queue, 1 ≤ p.slot ∧ p.slot ≤ 5) :
    Reaches W s t.lineStuck := by
  unfold State.lineStuck
  split
  · extract_lets x u l v
    have hv : Reaches W s v := h.capture.link fun _ => id
    clear_value x
    split
    · exact hv
    · exact hv.transactionEnds hq
  · exact h

/-! ### Configure's effects -/

theorem Reaches.resupply (h : Reaches W s t) {old new : SupplySettings} {n : Nat} (hn : 1 ≤ n ∧ n ≤ 5) :
    Reaches W s (State.resupply old new t n) := by
  unfold State.resupply
  extract_lets c
  have hvalues : c.values = (t.cart n).values := by
    dsimp only [c, Cartridge.remapped]
    split
    · rfl
    · split <;> split <;> rfl
  have hc : Reaches W s (t.changeCart n c) := h.changeCart fun hl => Cartridge.lawful_of_values (.inl hvalues) hl
  split
  · exact hc
  · rename_i v hv
    refine .ite (fun _ => ?_) fun _ => hc
    extract_lets w changed wanted
    have hg : Reaches W s changed := h.changeCart fun hl x hx => by
      cases hx
      exact hl v (hvalues ▸ hv)
    have hw : Reaches W s wanted := .ite (fun _ => hg.wantRecord fun _ => hn) fun _ => hg
    exact .ite (fun _ => hw.wantRecord fun _ => hn) fun _ => hw

/-! ### The ranges of clamped settings (R44, R45, R128, R145, R178) -/

theorem clamp_range {lo hi : Nat} (v : Nat) (h : lo ≤ hi) : lo ≤ clamp lo hi v ∧ clamp lo hi v ≤ hi := by
  unfold clamp; omega

theorem TierTable.clamped_lawful (t : TierTable) : t.clamped.lawful := by
  unfold TierTable.clamped TierTable.lawful clamp
  dsimp only []
  omega

theorem SizeRates.clamped_lawful (r : SizeRates) : r.clamped.lawful :=
  ⟨Nat.min_le_left _ _, Nat.min_le_left _ _, Nat.min_le_left _ _⟩

theorem Rates.clamped_lawful (r : Rates) : r.clamped.lawful :=
  ⟨r.mono.clamped_lawful, r.colour.clamped_lawful, r.scan.clamped_lawful, r.tierMono.clamped_lawful, r.tierColour.clamped_lawful⟩

theorem PerPlane.get_of {α : Type} (f : Plane → α) (p : Plane) : (PerPlane.of f).get p = f p := by cases p <;> rfl

theorem Curve.clamped_point (t : Curve) (i : Nat) : t.clamped.point i ≤ 4095 := by
  unfold Curve.point entryAt Curve.clamped
  by_cases hi : i < 17
  · simp [hi]
  · simp [hi]

theorem Curves.clamped_lawful (c : Curves) : c.clamped.lawful := by
  refine ⟨fun p i => ?_, fun p => ?_, Nat.min_le_left _ _⟩
  · rw [Curves.clamped, PerPlane.get_of]; exact Curve.clamped_point _ _
  · rw [Curves.clamped, PerPlane.get_of]; exact Nat.min_le_left _ _

theorem SupplySettings.clamped_lawful (x : SupplySettings) : x.clamped.lawful :=
  ⟨Nat.min_le_left _ _, clamp_range _ (by decide), Nat.min_le_left _ _⟩

theorem Timers.clamped_lawful (t : Timers) : t.clamped.lawful :=
  ⟨clamp_range _ (by decide), clamp_range _ (by decide), clamp_range _ (by decide), Nat.min_le_left _ _,
    clamp_range _ (by decide)⟩

/-- Putting a clamped section into a lawful settings area keeps it lawful. -/
theorem Settings.put_clamped_lawful (x : Section) {set : Settings} (h : set.lawful) : (set.put x.clamped).lawful := by
  obtain ⟨hr, hc, ht, hs⟩ := h
  cases x with
  | rates r => exact ⟨r.clamped_lawful, hc, ht, hs⟩
  | curves c => exact ⟨hr, c.clamped_lawful, ht, hs⟩
  | supply x => exact ⟨hr, hc, ht, x.clamped_lawful⟩
  | timers t => exact ⟨hr, hc, t.clamped_lawful, hs⟩
  | sense x => exact ⟨hr, hc, ht, hs⟩

theorem Reaches.putSection (h : Reaches W s t) (hs : s.within W) (hw : ¬W.writes) (hp : s.plainWithin W) {x : Section} :
    Reaches W.loose s (t.putSection x.clamped) := by
  unfold State.putSection
  extract_lets old was st u
  have hu : Reaches W s u := h.act (.settings _ (Settings.put_clamped_lawful x))
  cases x with
  | rates r => exact hu.loose
  | curves c => exact hu.loose
  | timers t => exact hu.loose
  | supply new =>
    refine Reaches.loose (Reaches.foldl_mem (p := fun n => 1 ≤ n ∧ n ≤ 5) (fun hn h => h.resupply hn) ?_ hu)
    intro n hn
    simp only [supplySlots, List.mem_cons, List.not_mem_nil, or_false] at hn
    omega
  | sense x => exact hu.senseChange hs hw hp

/-! ### The engine port and the core -/

theorem Reaches.engineProtocol (h : Reaches W s t) {n : Nat} {e : EngineEvent} : Reaches W s (t.engineProtocol n e) := h.capture

theorem Reaches.engineEvent (h : Reaches W s t) {n : Nat} {e : EngineEvent} {f : State → State}
    (hf : Reaches W s t → Reaches W s (f t)) : Reaches W s (t.engineEvent n e f) :=
  .ite (fun _ => hf h) fun _ => .ite (fun _ => h) fun _ => h.engineProtocol

theorem Reaches.takeDemand (h : Reaches W s t) (hs : s.within W) {p : Plane} : Reaches W s (t.takeDemand p) := by
  unfold State.takeDemand
  split
  · refine .ite (fun _ => h.engineProtocol) fun _ => ?_
    split
    · exact (h.spoil hs).pumpCore
    · split
      · exact (h.spoil hs).pumpCore
      · exact .ite (fun _ => h.misc { frame := rfl }) fun _ => (h.spoil hs).pumpCore
  · exact h

theorem Reaches.takeOutcome (h : Reaches W s t) (hs : s.within W) {d : Bool} : Reaches W s (t.takeOutcome d) :=
  .ite (fun _ => .ite (fun _ => h.settlePrint hs) fun _ => h.engineProtocol.spoil hs) fun _ => h.settlePrint hs

theorem Reaches.bandRead (h : Reaches W s t) (hs : s.within W) {a : PrintArgs} {i : Nat} {e : BandEntry} :
    Reaches W s (t.bandRead a i e) := by
  unfold State.bandRead
  split
  · exact h.captureMemory.bandFails hs
  · exact .ite (fun _ => .ite (fun _ => Reaches.presentPrint h.print) fun _ => h.bandFails hs) fun _ => h.bandReady hs

theorem Reaches.takeBandRead (h : Reaches W s t) (hs : s.within W) {i : Nat} : Reaches W s (t.takeBandRead i) := by
  unfold State.takeBandRead
  split
  · split
    · exact .ite (fun _ => (h.bandRead hs).pumpCore) fun _ => h
    · exact h
  · exact h

theorem Reaches.printBandCiphered (h : Reaches W s t) (hs : s.within W) {i : Nat} : Reaches W s (t.printBandCiphered i) := by
  unfold State.printBandCiphered
  split
  · exact h
  · split
    · exact h.bandFails hs
    · exact h.bandReady hs

theorem Reaches.coreBandEnds (h : Reaches W s t) (hs : s.within W) (hw : W.writes) {b : CoreBand} : Reaches W s (t.coreBandEnds b) := by
  unfold State.coreBandEnds
  extract_lets c u v
  have hu : Reaches W s u := h.core
  refine Reaches.pumpCore (.ite (fun _ => hu) fun _ => ?_)
  split
  · exact hu.printBandCiphered hs
  · split
    · exact hu
    · exact hu.scanBandCiphered hs.closes hw

/-! ### The scanner port and the source reads -/

theorem Reaches.scannerLine (h : Reaches W s t) (hs : s.closesWithin W) (hw : W.writes) {l : List Byte} :
    Reaches W s (t.scannerLine l) := by
  unfold State.scannerLine
  split
  · exact h
  · exact .ite (fun _ => (h.takeLine hs hw).pumpCore) fun _ => h

theorem Reaches.scannerPageEnd (h : Reaches W s t) (hs : s.closesWithin W) (hw : W.writes) : Reaches W s t.scannerPageEnd := by
  unfold State.scannerPageEnd
  refine .ite (fun _ => h.clearDrain hs) fun _ => ?_
  split
  · exact h
  · exact .ite (fun _ => (h.takePageEnd hs hw).pumpCore) fun _ => h

theorem Reaches.scannerError (h : Reaches W s t) (hs : s.closesWithin W) : Reaches W s t.scannerError :=
  .ite (fun _ => h.clearDrain hs) fun _ => .ite (fun _ => (h.failPage hs).pumpCore) fun _ => h

theorem Reaches.takeSourceRead (h : Reaches W s t) (hs : s.closesWithin W) (hw : W.writes) : Reaches W s t.takeSourceRead := by
  unfold State.takeSourceRead
  split
  · exact .ite (fun _ => (h.sourceRead hs hw).pumpCore) fun _ => h
  · exact h

theorem Reaches.beginCipher (h : Reaches W s t) (hw : W.writes) {work : ScanWork} {a : ScanArgs} {page : Nat} {l : List Source}
    {d : List Destination} : Reaches W s (t.beginCipher work a page l d) :=
  Reaches.startSourceRead (h.scan (.inl hw)) hw

end Sys2Proof.Machine
end

