-- ==== Sys2Proof/Proofs/Exec.lean ====
section
/-! What a command can do: a start, a loss of power, or a run of acts with at most one act of the command's own in it. -/

namespace Sys2Proof.Machine

variable {W : Scope} {b s t u v : State} {c : Instr}

/-! ### Scopes of commands -/

/-- The commands in which a withdrawal may stop a plaintext write (R99). -/
def stopsWrite : Instr → Bool
  | .startEnd _ => true
  | .configure _ => true
  | .periodicSelfTestEnd _ _ => true
  | .senseLineEdge _ _ _ => true
  | _ => false

/-- The value a byte takes by the write of a band, or of its record, under way (R90, R97, R99). -/
def State.bandByte (b : State) (c : Instr) (x : Nat) (v : Byte) : Prop :=
  ∃ i, b.writingBuffer = some i ∧
    let y := b.buffer i
    let records := (b.scan.args.map (·.records)).getD 0
    let written (data : List Byte) : Byte := (b.writeBytes (b.destination y.band) data).1.mem.read x
    (c = .bandWriteDone c.env ∧ y.cond = .writingData ∧ v = written y.data) ∨
      (c = .bandWriteDone c.env ∧ y.cond = .writingRecord ∧
        v = (b.writeWords (records + 12 * y.band)
          [BitVec.ofNat 32 (y.band + y.band * 2 ^ 16), BitVec.ofNat 32 y.lines, BitVec.ofNat 32 y.data.length]).1.mem.read x) ∨
      (b.scan.work = .decipher ∧ v = written (y.data.take c.env.stopped))

/-- What a command that begins in a state is granted. -/
def Scope.of (c : Instr) (b : State) : Scope where
  bytes x v := b.mem.wf → b.promised x ∨ b.bandByte c x v
  queue := queueOk b.link.queue
  writes := stopsWrite c = false

theorem State.within_scope (c : Instr) (b : State) : b.within (Scope.of c b) where
  closes n k hk _ _ ha _ := .inl (.inl ⟨n, k, hk, .inl ha⟩)
  record x hx _ _ ha _ := .inl (.inr (.inr (.inl ⟨x, hx, ha⟩)))
  wait w hw _ _ ha _ := .inl (.inr (.inr (.inr ⟨w, hw, ha⟩)))

/-- The result area of a ticket in service is granted. -/
theorem State.area_scope {n : Fin 4} {k : Ticket} (hk : (b.lane n).service = some k) {a : Nat} (v : Byte)
    (ha : byteOf (b.resultArea k).1 (b.resultArea k).2 a) : (Scope.of c b).bytes a v :=
  fun _ => .inl (.inl ⟨n, k, hk, .inr ha⟩)

theorem State.queue_scope : (Scope.of c b).queue → ∀ p ∈ b.link.queue, 1 ≤ p.slot ∧ p.slot ≤ 5 := fun h => h.2.1

/-- A run of bytes stores the same values from whatever memory it begins. -/
theorem State.writeBytes_read (l : List Byte) (a : Nat) (x : Nat) (u w : State) (he : u.env = w.env) (hu : u.mem.wf) (hw : w.mem.wf) :
    (u.writeBytes a l).1.mem.read x = u.mem.read x ∨
      (u.writeBytes a l).1.mem.read x = (w.writeBytes a l).1.mem.read x := by
  induction l generalizing u w a with
  | nil => exact .inl rfl
  | cons y rest ih =>
    simp only [State.writeBytes, he]
    split
    · exact .inl rfl
    · have h := ih (a + 1) (u.setMem (u.mem.write (wrapAddress a) y)) (w.setMem (w.mem.write (wrapAddress a) y)) he
        (Memory.write_wf _ _ _ hu (wrapAddress_lt _)) (Memory.write_wf _ _ _ hw (wrapAddress_lt _))
      rcases h with h | h
      · by_cases hx : x = wrapAddress a
        · rw [h]
          right
          have h' := ih (a + 1) (w.setMem (w.mem.write (wrapAddress a) y)) (u.setMem (u.mem.write (wrapAddress a) y)) he.symm
            (Memory.write_wf _ _ _ hw (wrapAddress_lt _)) (Memory.write_wf _ _ _ hu (wrapAddress_lt _))
          rcases h' with h' | h'
          · rw [h', hx]
            simp [Memory.read_write_same _ _ _ hu, Memory.read_write_same _ _ _ hw]
          · rw [h', h]
        · left
          rw [h]
          exact Memory.read_write_other _ _ _ _ hx
      · exact .inr h

theorem State.plainWithin_scope (he : b.env = c.env) : b.plainWithin (Scope.of c b) := by
  intro d data hp u hu hm x
  unfold State.plainWrite at hp
  split at hp
  · rename_i hwork
    obtain ⟨i, hi, e⟩ := Option.map_eq_some_iff.mp hp
    cases e
    by_cases hwf : b.mem.wf
    · rcases State.writeBytes_read ((b.buffer i).data.take b.env.stopped) (b.destination (b.buffer i).band) x u b hu hm hwf with h | h
      · exact .inl h
      · exact .inr fun _ => .inr ⟨i, hi, .inr (.inr ⟨hwork, by rw [h, he]⟩)⟩
    · exact .inr fun h => absurd h hwf
  · cases hp

theorem State.writeWithin_scope {e : Env} : b.writeWithin (Scope.of (.bandWriteDone e) b) where
  data i hi hd _ _ := .inr fun _ => .inr ⟨i, hi, .inl ⟨rfl, hd, rfl⟩⟩
  record i hi hd _ _ := by
    have hr : (b.buffer i).cond = .writingRecord := by
      have hw := (State.writingBuffer_some hi).2
      simp only [Buffer.isWriting, Bool.or_eq_true, decide_eq_true_eq] at hw
      exact hw.resolve_left hd
    exact .inr fun _ => .inr ⟨i, hi, .inr (.inl ⟨rfl, hr, rfl⟩)⟩

/-! ### Runs -/

/-- The act that is a command's own. -/
inductive Special (c : Instr) : State → State → Prop
  | none {u : State} : Special c u u
  | held {u : State} (hc : c = .resetInputAssert) : Special c u u.holdReset
  | startEnds {u : State} {e : Env} (hc : c = .startEnd e) (hop : u.dev.op = .starting) (op : OpState)
      (ho : op = .running ∨ op = .stopped) : Special c u { u with dev := { u.dev with op, clock := 0 } }
  | lane {u : State} (n : Fin 4) (l : Lane) (hl : (u.lane n).lawful → l.lawful) : Special c u (u.putLane n l)
  | read {u : State} (x : Word) : Special c u { u with readData := x, notice := 0 }
  | enable {u : State} (x : BitVec 13) : Special c u { u with enable := x }
  | levels {u : State} (x : BitVec 8) : Special c u { u with levels := x }
  | cleared {u : State} : Special c u { u with faults := FaultRecord.cleared }
  | opened {u : State} {e : Env} (hc : c = .openSlot e) (hop : u.dev.op = .running) (i : Nat) (k : KeySlot) (hk : k.lawful)
      (hkey : k.key = some (Config.randomSource.key u.draws)) : Special c u { u.putSlot i k with draws := u.draws + 1 }
  | attached {u : State} {e : Env} (hc : c = .attachSlot e) (hop : u.dev.op = .running) (i : Nat) (k : KeySlot)
      (hl : (u.slot i).lawful → k.lawful) (hkey : k.key = (u.slot i).key) : Special c u (u.putSlot i k)
  | printBegins {u : State} (p : PrintPath) : Special c u { u with print := p }
  | checkBegins {u : State} (w : Option CheckWait) : Special c u { u with checkWait := w }
  | tests {u : State} (hop : u.dev.op = .withdrawn) : Special c u { u with core := { u.core with resumeTest := true } }
  | tested {u : State} (x : Core) (hx : x.resumeTest = false) : Special c u { u with core := x }
  | resumed {u : State} {e : Env} (hc : c = .resumeServiceTestEnd e true) (ht : u.core.resumeTest = true) (x : Core)
      (hx : x.resumeTest = false) : Special c u { u with core := x, dev := { u.dev with op := .running } }

/-- A run of acts with at most one act of the command's own in it. -/
def Runs (W : Scope) (c : Instr) (b t : State) : Prop := ∃ u v, Reaches W b u ∧ Special c u v ∧ Reaches W.loose v t

theorem Reaches.runs (h : Reaches W b t) : Runs W c b t := ⟨t, t, h, .none, .refl⟩

theorem Reaches.runs_loose (h : Reaches W.loose b t) : Runs W c b t := ⟨b, b, .refl, .none, h⟩

theorem Reaches.runsTo (h : Reaches W b u) (hc : Special c u v) (h' : Reaches W.loose v t) : Runs W c b t := ⟨u, v, h, hc, h'⟩

theorem Runs.ite {p : Prop} [Decidable p] (hu : p → Runs W c b u) (hv : ¬p → Runs W c b v) : Runs W c b (if p then u else v) := by
  split
  · exact hu ‹_›
  · exact hv ‹_›

/-- The service of a ticket. -/
theorem serve_runs {kind : TicketKind} {w13 : Nat} {body : Ticket → State → State} (hs : b.closesWithin W)
    (hbody : ∀ k, b.serving kind = some k → stateGate b.dev.op kind = none → Reaches W b (b.beginService kind.lane) →
      Runs W c b (body k (b.beginService kind.lane))) : Runs W c b (serve kind w13 body b) := by
  have hb : Reaches W b (b.beginService kind.lane) := Reaches.beginService .refl
  rcases serve_cases kind w13 body b with ⟨-, e⟩ | ⟨k, hk, ⟨code, -, e⟩ | ⟨hg, e⟩⟩ <;> rw [e]
  · exact Reaches.runs .refl
  · exact (hb.close hs).runs
  · exact hbody k hk hg hb

/-- The service of a ticket without an act of its own. -/
theorem serve_reaches {kind : TicketKind} {w13 : Nat} {body : Ticket → State → State} (hs : b.closesWithin W)
    (hbody : ∀ k u, (b.lane kind.lane).service = some k → k.kind = some kind → u.stored = b.stored → Reaches W b u → Reaches W b (body k u)) :
    Runs W c b (serve kind w13 body b) :=
  serve_runs hs fun k hk _ hb =>
    (hbody k _ (State.serving_some hk).2.1 (State.serving_some hk).2.2.2 (by rw [State.beginService_frame]) hb).runs

end Sys2Proof.Machine
end

