-- ==== Sys2Proof/Proofs/Exec2.lean ====
section
/-! Every command as a run of acts with at most one act of its own. -/

namespace Sys2Proof.Machine

variable {b s t u v : State} {c : Instr} {W : Scope}

/-! ### Account and session tickets -/

theorem Reaches.destroyHeldOf (h : Reaches W s t) (hs : s.within W) {n : Nat} : Reaches W s (t.destroyHeldOf n) :=
  Reaches.foldl (fun h => .ite (fun _ => h.destroySlot hs) fun _ => h) _ h

theorem Reaches.setAccountBody (h : Reaches W s t) (hs : s.within W) {k : Ticket} : Reaches W s (setAccountBody k t) := by
  unfold Machine.setAccountBody
  extract_lets n
  refine .ite (fun _ => h.close hs.closes) fun _ => ?_
  split
  · split
    · exact h.close hs.closes
    · refine .ite (fun _ => h.close hs.closes) fun _ => ?_
      exact .ite (fun _ => h.readAccount.close hs.closes) fun _ => h.readAccount.writeRecord.putAcct.close hs.closes
  · refine .ite (fun _ => h.close hs.closes) fun _ => .ite (fun _ => h.close hs.closes) fun _ => ?_
    exact (((h.readAccount.destroyHeldOf hs).writeRecord.putAcct).close hs.closes).pumpCore
  · exact h.close hs.closes

theorem State.accountEntry_length (s : State) (n : Nat) : (s.accountEntry n).length = 13 := rfl

theorem Reaches.writeAccounts {l : List Nat} (h : Reaches W s t) {a : Nat} (hb : ∀ x v, byteOf a (13 * l.length) x → W.bytes x v) :
    Reaches W s (t.writeAccounts a l).1 := by
  induction l generalizing t a with
  | nil => exact h
  | cons n rest ih =>
    simp only [List.length_cons] at hb
    have hw := h.readAccount (n := n) |>.writeWords (a := a) (words := (t.readAccount n).accountEntry n)
      fun x v ⟨i, hi, hx⟩ => hb x v ⟨i, by rw [State.accountEntry_length] at hi; omega, hx⟩
    simp only [State.writeAccounts]
    split
    · rename_i e; exact (hw.fst_of_eq e).captureMemory
    · rename_i e
      refine ih (hw.fst_of_eq e) fun x v ⟨i, hi, hx⟩ => hb x v ⟨52 + i, by omega, ?_⟩
      rw [hx, Nat.add_assoc]

theorem Reaches.readAccountsBody (h : Reaches W s t) (hs : s.closesWithin W) {k : Ticket}
    (hb : ∀ x v, byteOf (k.w 4).toNat (13 * 512) x → W.bytes x v) : Reaches W s (readAccountsBody k t) := by
  unfold Machine.readAccountsBody
  extract_lets first last address capacity
  refine .ite (fun _ => h.close hs) fun hc => Reaches.close (h.writeAccounts fun x v ⟨i, hi, hx⟩ => hb x v ⟨i, ?_, hx⟩) hs
  simp only [List.length_range'] at hi
  omega

theorem Reaches.resetOne {r : State × Nat × Nat} (h : Reaches W s r.1) {n : Nat} : Reaches W s (State.resetOne r n).1 := by
  unfold State.resetOne
  extract_lets u
  have hu : Reaches W s u := h.readAccount
  clear_value u
  split
  · exact hu
  · exact hu
  · exact hu.writeRecord

/-- R9 over a list of accounts, with the answer. -/
def State.resetAll (s : State) (l : List Nat) : State :=
  let r := l.foldl State.resetOne (s, 0, 0)
  r.1.close 0 .ok r.2.1 r.2.2

theorem Reaches.resetAll (h : Reaches W s t) (hs : s.closesWithin W) (l : List Nat) : Reaches W s (t.resetAll l) :=
  (Reaches.foldl_fst (fun h => h.resetOne) l (r := (t, 0, 0)) h).close hs

theorem resetPeriodBody_all {k : Ticket} (h : bits (k.w 2) 15 0 = 0xFFFF) : resetPeriodBody k s = s.resetAll (List.range 512) := by
  unfold resetPeriodBody State.resetAll
  exact if_pos h

/-- R9 of one account. -/
def State.resetAccount (s : State) (n : Nat) : State :=
  if 511 < n then s.close 0 .badTicket 0 0
  else
    let s := s.readAccount n
    match s.seen n with
    | .vacant => s.close 0 .noAccount 0 0
    | .damaged => s.close 0 .accountDamaged 0 0
    | _ => (s.writeRecord n { s.record n with used := 0 }).close 0 .ok 1 0

theorem resetPeriodBody_one {k : Ticket} (h : bits (k.w 2) 15 0 ≠ 0xFFFF) :
    resetPeriodBody k s = s.resetAccount (bits (k.w 2) 15 0) := by
  unfold resetPeriodBody State.resetAccount
  exact if_neg h

theorem Reaches.resetPeriodBody (h : Reaches W s t) (hs : s.closesWithin W) {k : Ticket} : Reaches W s (resetPeriodBody k t) := by
  by_cases hk : bits (k.w 2) 15 0 = 0xFFFF
  · rw [resetPeriodBody_all hk]
    exact h.resetAll hs _
  · rw [resetPeriodBody_one hk]
    unfold State.resetAccount
    extract_lets u
    refine .ite (fun _ => h.close hs) fun _ => ?_
    have hu : Reaches W s u := h.readAccount
    clear_value u
    split
    · exact hu.close hs
    · exact hu.close hs
    · exact hu.writeRecord.close hs

theorem Reaches.openSessionFor (h : Reaches W s t) (hs : s.closesWithin W) {n : Nat} : Reaches W s (t.openSessionFor n) := by
  unfold State.openSessionFor
  split
  · exact h.close hs
  · split
    · exact h.close hs
    · exact h.putSession.putAcct.close hs

theorem Reaches.wrongCredential (h : Reaches W s t) (hs : s.closesWithin W) {n : Nat} : Reaches W s (t.wrongCredential n) := by
  unfold State.wrongCredential
  extract_lets timers r a u locked
  have hl : Reaches W s locked := .ite (fun _ => h.writeRecord.putAcct) fun _ => h.writeRecord
  exact hl.close hs

theorem Reaches.openSessionBody (h : Reaches W s t) (hs : s.closesWithin W) {k : Ticket} : Reaches W s (openSessionBody k t) := by
  unfold Machine.openSessionBody
  extract_lets n length u
  refine .ite (fun _ => h.close hs) fun _ => ?_
  have hu : Reaches W s u := h.readAccount
  clear_value u
  split
  · exact hu.refuse hs
  · refine .ite (fun _ => ?_) fun _ => .ite (fun _ => hu.close hs) fun _ => hu.wrongCredential hs
    exact (Reaches.ite (fun _ => hu.writeRecord) fun _ => hu).openSessionFor hs

theorem Reaches.closeSessionBody (h : Reaches W s t) (hs : s.closesWithin W) {k : Ticket} : Reaches W s (closeSessionBody k t) := by
  unfold Machine.closeSessionBody
  split
  · exact h.close hs
  · exact ((h.endSession hs).close hs).pumpCore

/-! ### Job, hold and slot tickets -/

theorem Reaches.openJobBody (h : Reaches W s t) (hs : s.closesWithin W) {k : Ticket} : Reaches W s (openJobBody k t) := by
  unfold Machine.openJobBody
  split
  · exact h.close hs
  · extract_lets u
    have hu : Reaches W s u := h.touchOptSession.readAccount
    clear_value u
    split
    · exact hu.refuse hs
    · split
      · exact hu.close hs
      · exact hu.putJob.addReserved.close hs

theorem Reaches.resumeJobBody (h : Reaches W s t) (hs : s.closesWithin W) {k : Ticket} : Reaches W s (resumeJobBody k t) := by
  unfold Machine.resumeJobBody
  extract_lets j u
  have hu : Reaches W s u := h.touchJob
  clear_value u
  split
  · exact hu.close hs
  · exact hu.refuse hs
  · dsimp only []
    split
    · exact hu.readAccount.refuse hs
    · exact hu.readAccount.putJob.addReserved.close hs

theorem Reaches.endJobBody (h : Reaches W s t) (hs : s.closesWithin W) {k : Ticket} : Reaches W s (endJobBody k t) := by
  unfold Machine.endJobBody
  extract_lets j u
  have hu : Reaches W s u := h.touchJob
  clear_value u
  split
  · exact hu.close hs
  · exact hu.refuse hs
  · exact ((hu.endJobEntry hs).close hs).pumpCore

theorem Reaches.takeHoldBody (h : Reaches W s t) (hs : s.closesWithin W) {k : Ticket} : Reaches W s (takeHoldBody k t) := by
  unfold Machine.takeHoldBody
  extract_lets j u n v taken
  have hu : Reaches W s u := h.touchJob
  have hv : Reaches W s v := hu.readAccount
  split
  · exact hu.refuse hs
  · split
    · exact hv.refuse hs
    · exact hv.hold.close hs

theorem Reaches.releaseHoldBody (h : Reaches W s t) (hs : s.closesWithin W) {k : Ticket} : Reaches W s (releaseHoldBody k t) := by
  unfold Machine.releaseHoldBody
  extract_lets j u
  have hu : Reaches W s u := h.touchJob
  clear_value u
  split
  · exact hu.refuse hs
  · exact hu.hold.close hs

theorem Reaches.appendSlot (h : Reaches W s t) {i : Nat} {k : SlotHandle} : Reaches W s (t.appendSlot i k) := h.putJob

/-- The device block after activity and the read of an account. -/
theorem State.readAccount_dev (s : State) (n : Nat) : (s.readAccount n).dev = s.dev := by rw [State.readAccount_frame]
theorem State.touchJob_dev (s : State) (j : Handle) : (s.touchJob j).dev = s.dev := by rw [State.touchJob_frame]
theorem State.touchSession_dev (s : State) (j : Handle) : (s.touchSession j).dev = s.dev := by rw [State.touchSession_frame]
theorem State.beginService_dev (s : State) (n : Fin 4) : (s.beginService n).dev = s.dev := by rw [State.beginService_frame]

/-- A part that is up and lets a ticket kind be served that only RUNNING serves is RUNNING. -/
theorem running_of_gate {s : State} {kind : TicketKind} {k : Ticket} (hk : s.serving kind = some k) (hg : stateGate s.dev.op kind = none)
    (hw : stateGate .withdrawn kind ≠ none) (hst : stateGate .stopped kind ≠ none) : s.dev.op = .running := by
  have hup := (State.serving_some hk).1
  cases hop : s.dev.op with
  | running => rfl
  | withdrawn => rw [hop] at hg; exact absurd hg hw
  | stopped => rw [hop] at hg; exact absurd hg hst
  | starting => simp [State.up, hop] at hup

theorem KeySlot.lawful_of_live {k : KeySlot} (hs : k.state = .live) (hk : k.key.isSome = true) (hj : k.job.isSome = true)
    (he : k.expiry = none) : k.lawful := by
  unfold KeySlot.lawful
  rw [hs]
  exact ⟨hk, hj, he⟩

theorem Runs.openSlotEntry {e : Env} (h : Reaches W b t) (hs : b.closesWithin W) (hop : t.dev.op = .running) {i : Nat} {j : Handle}
    {uses : BitVec 4} {keep : Bool} : Runs W (.openSlot e) b (t.openSlotEntry i j uses keep) := by
  let k : KeySlot :=
    { state := .live, gen := (t.slot i).gen, owner := some (t.jobAccount j), job := some j, uses, page := 0
      keep := if keep then t.stored.settings.timers.heldSlotTime else 0, expiry := none
      key := some (Config.randomSource.key t.draws) }
  refine h.runsTo (.opened rfl hop i k (KeySlot.lawful_of_live rfl rfl rfl rfl) rfl) ?_
  refine Reaches.close (Reaches.appendSlot .refl) ?_
  exact h.closesWithin hs

theorem Runs.openSlotBody {e : Env} (h : Reaches W b t) (hs : b.closesWithin W) (hop : t.dev.op = .running) {k : Ticket} :
    Runs W (.openSlot e) b (openSlotBody k t) := by
  unfold Machine.openSlotBody
  extract_lets uses keep j u n v
  have hu : Reaches W b u := h.touchJob
  have hv : Reaches W b v := hu.readAccount
  have hdv : v.dev = t.dev := (u.readAccount_dev n).trans (t.touchJob_dev j)
  refine .ite (fun _ => (h.close hs).runs) fun _ => ?_
  split
  · exact (hu.refuse hs).runs
  · split
    · exact (hv.refuse hs).runs
    · split
      · exact (hv.close hs).runs
      · rename_i i hi
        exact Runs.openSlotEntry hv hs (hdv ▸ hop)

theorem KeySlot.held_attached {k : KeySlot} {j : Handle} (hh : k.state = .held) (hl : k.lawful) :
    ({ k with state := .live, job := some j, expiry := none, keep := 0 } : KeySlot).lawful := by
  unfold KeySlot.lawful at hl
  rw [hh] at hl
  exact ⟨hl.1, rfl, rfl⟩

theorem State.slotOf_some {s : State} {k : SlotHandle} {i : Nat} (h : s.slotOf k = some i) :
    i = k.idx ∧ k.idx < 32 ∧ (s.slot k.idx).state ≠ .free ∧ (s.slot k.idx).gen = k.gen := by
  unfold State.slotOf at h
  split at h
  · rename_i hc; cases h; exact ⟨rfl, hc⟩
  · cases h

/-- R109 check 2: the slot named is HELD. -/
theorem State.held_of_attachable {s : State} {x : SlotHandle}
    (h : ((s.slotOf x).isNone || decide ((s.slot x.idx).state = .live)) = false) : (s.slot x.idx).state = .held := by
  rw [Bool.or_eq_false_iff, decide_eq_false_iff_not, Option.isNone_eq_false_iff, Option.isSome_iff_exists] at h
  obtain ⟨i, hi⟩ := h.1
  have hf := (State.slotOf_some hi).2.2.1
  cases hx : (s.slot x.idx).state with
  | free => exact absurd hx hf
  | live => exact absurd hx h.2
  | held => rfl

theorem State.slot_congr {s t : State} (h : t.slots = s.slots) (i : Nat) : t.slot i = s.slot i := by rw [State.slot, h]; rfl

theorem Runs.attachSlotBody {e : Env} (h : Reaches W b t) (hs : b.closesWithin W) (hop : t.dev.op = .running) {k : Ticket} :
    Runs W (.attachSlot e) b (attachSlotBody k t) := by
  unfold Machine.attachSlotBody
  extract_lets x j session u n v
  have hu : Reaches W b u := h.touchJob.touchSession
  have hv : Reaches W b v := hu.readAccount
  have hdv : v.dev = t.dev := (u.readAccount_dev n).trans ((State.touchSession_dev _ _).trans (t.touchJob_dev j))
  have hsv : v.slot x.idx = u.slot x.idx := State.slot_congr (u.readAccount_slots n) _
  split
  · exact (hu.refuse hs).runs
  · rename_i hr
    have hheld := State.held_of_attachable (refuseIf_none.mp (firstRefusal_none.mp hr _ (List.mem_cons_of_mem _ List.mem_cons_self)))
    split
    · exact (hv.refuse hs).runs
    · refine hv.runsTo (.attached rfl (hdv ▸ hop) x.idx { v.slot x.idx with state := .live, job := some j, expiry := none, keep := 0 }
        (KeySlot.held_attached (hsv ▸ hheld)) rfl) ?_
      refine Reaches.close (Reaches.appendSlot .refl) ?_
      exact hv.closesWithin hs

theorem KeySlot.keep_lawful {k : KeySlot} {m : Nat} (hh : k.state = .live) (hl : k.lawful) : ({ k with keep := m } : KeySlot).lawful := by
  unfold KeySlot.lawful at hl ⊢
  rw [hh] at hl
  simp only [hh]
  exact hl

theorem Reaches.keepSlotBody (h : Reaches W s t) (hs : s.closesWithin W) {k : Ticket} : Reaches W s (keepSlotBody k t) := by
  unfold Machine.keepSlotBody
  extract_lets x j u
  have hu : Reaches W s u := h.touchJob
  clear_value u
  split
  · exact hu.refuse hs
  · rename_i hr
    have hbad := refuseIf_none.mp (firstRefusal_none.mp hr (refuseIf (!u.attachedTo x j) .badSlot) (by simp))
    have hlive : (u.slot x.idx).state = .live := by
      simp only [State.attachedTo, Bool.not_eq_false', Bool.and_eq_true, decide_eq_true_eq] at hbad
      exact hbad.1.2
    refine Reaches.close (hu.act ?_) hs
    exact .slot x.idx _ (KeySlot.keep_lawful hlive) (fun _ => hlive) (.inl rfl)

theorem Reaches.destroySlotBody (h : Reaches W s t) (hs : s.within W) {k : Ticket} : Reaches W s (destroySlotBody k t) := by
  unfold Machine.destroySlotBody
  extract_lets x j session u
  refine .ite (fun _ => h.close hs.closes) fun _ => ?_
  have hu : Reaches W s u := by
    dsimp only [u]
    cases j with
    | none => exact h.touchOptSession
    | some j => exact h.touchJob
  clear_value u
  split
  · exact hu.refuse hs.closes
  · exact ((hu.destroySlot hs).close hs.closes).pumpCore

/-! ### Device Control's tickets -/

theorem Section.words_length (x : Section) : x.words.length ≤ 39 := by cases x <;> simp [Section.words, SizeRates.words, TierTable.words]

theorem Reaches.configureBody (h : Reaches W s t) (hs : s.within W) (hw : ¬W.writes) (hp : s.plainWithin W) {k : Ticket}
    (hb : ∀ x v, byteOf (k.w 4).toNat 39 x → W.bytes x v) : Reaches W.loose s (configureBody k t) := by
  unfold Machine.configureBody
  extract_lets n source result
  split
  · exact (h.close hs.closes).loose
  · refine .ite (fun _ => (h.close hs.closes).loose) fun _ => ?_
    split
    · exact (h.captureMemory.close hs.closes).loose
    · split
      · exact (h.close hs.closes).loose
      · rename_i x _
        refine Reaches.close (Reaches.writeControlResult (h.putSection hs hw hp) ?_) hs.closes.loose
        exact fun y v ⟨i, hi, hy⟩ => hb y v ⟨i, Nat.lt_of_lt_of_le hi (Nat.mul_le_mul_left 4 (Section.words_length _)), hy⟩

theorem flatMap_length {α β : Type} (f : α → List β) (n : Nat) (l : List α) (h : ∀ x, (f x).length = n) :
    (l.flatMap f).length = l.length * n := by
  induction l with
  | nil => simp
  | cons a l ih => rw [List.flatMap_cons, List.length_append, h, ih, List.length_cons, Nat.succ_mul, Nat.add_comm]

/-- Section 12.4: the Status Digest record has 371 words. -/
theorem State.digest_length (s : State) : s.digest.length = 371 := by
  have hhold : s.digestHold.length = 2 := by unfold State.digestHold; split <;> rfl
  have hfaults : s.faults.digest.length = 5 := by unfold FaultRecord.digest; split <;> rfl
  simp only [State.digest, List.length_append, hhold, hfaults, flatMap_length Session.digest 3 _ fun _ => rfl,
    flatMap_length (fun i => (s.job i).digest i) 5 _ fun _ => rfl, flatMap_length s.slotDigest 5 _ fun _ => rfl,
    flatMap_length words64 2 _ fun _ => rfl, Vector.length_toList, List.length_range, List.length_map]
  rfl

theorem Reaches.statusDigestBody (h : Reaches W s t) (hs : s.closesWithin W) {k : Ticket}
    (hb : ∀ x v, byteOf (k.w 2).toNat 371 x → W.bytes x v) : Reaches W s (statusDigestBody k t) := by
  unfold Machine.statusDigestBody
  extract_lets result session u
  refine .ite (fun _ => h.close hs) fun _ => .ite (fun _ => h.close hs) fun _ => ?_
  have hu : Reaches W s u := h.touchOptSession
  clear_value u
  exact (hu.writeControlResult (by rw [State.digest_length]; exact hb)).close hs

theorem Runs.clearFaultsBody (h : Reaches W b t) (hs : b.closesWithin W) {k : Ticket} : Runs W c b (clearFaultsBody k t) := by
  refine h.runsTo .cleared (Reaches.close .refl ?_)
  exact h.closesWithin hs

theorem Runs.resumeServiceBody (h : Reaches W b t) (hs : b.closesWithin W) {k : Ticket} : Runs W c b (resumeServiceBody k t) := by
  refine .ite (fun _ => (h.close hs).runs) fun hop => .ite (fun _ => (h.close hs).runs) fun _ => .ite (fun _ => (h.close hs).runs) fun _ => ?_
  exact h.runsTo (.tests (by simpa using hop)) .refl

/-! ### Print Impression, Scan Page, cipher tickets, lane 3 -/

theorem Runs.printImpressionBody (h : Reaches W b t) (hs : b.closesWithin W) {k : Ticket} : Runs W c b (printImpressionBody k t) := by
  unfold Machine.printImpressionBody
  extract_lets j list count
  refine .ite (fun _ => (h.close hs).runs) fun _ => ?_
  split
  · exact (h.touchJob.captureMemory.close hs).runs
  · dsimp only []
    split
    · exact (h.close hs).runs
    · exact h.runsTo (.printBegins _) (Reaches.printAdmit .refl (h.closesWithin hs))

theorem Reaches.scanPageBody (h : Reaches W s t) (hs : s.closesWithin W) (hw : W.writes) {k : Ticket} :
    Reaches W s (scanPageBody k t) := by
  unfold Machine.scanPageBody
  extract_lets j list count
  refine .ite (fun _ => h.close hs) fun _ => ?_
  split
  · exact h.touchJob.captureMemory.close hs
  · dsimp only []
    split
    · exact h.close hs
    · exact Reaches.scanAdmit (h.scan (.inl hw)) hs

/-- A slot that passed check 3 of R96 is in use. -/
theorem State.slot_of_cipherRefusal {s : State} {a : ScanArgs} {u : KeyUse} (h : s.cipherRefusal a u = none) :
    (s.slot a.slot.idx).state ≠ .free := by
  have hg := firstRefusal_none.mp h (refuseIf (!s.keyGranted a.slot a.job u) .badSlot) (by simp)
  have hl := (State.slot_of_keyGranted (by simpa using refuseIf_none.mp hg)).2.1
  rw [hl]
  exact fun e => nomatch e

theorem Reaches.admitEncipher (h : Reaches W s t) (hs : s.closesWithin W) (hw : W.writes) {a : ScanArgs} {l : List Source}
    {d : List Destination} : Reaches W s (t.admitEncipher a l d) := by
  unfold State.admitEncipher
  extract_lets u v
  have hu : Reaches W s u := h.touchJob
  have hv : Reaches W s v := hu.readAccount
  clear_value v
  split
  · exact hu.refuse hs
  · split
    · exact hv.refuse hs
    · rename_i hr
      have hc := firstRefusal_none.mp hr (v.cipherRefusal a .encipher) (by simp)
      exact (hv.takePageNumber (State.slot_of_cipherRefusal hc)).beginCipher hw

theorem Reaches.encipherBandsBody (h : Reaches W s t) (hs : s.closesWithin W) (hw : W.writes) {k : Ticket} :
    Reaches W s (encipherBandsBody k t) := by
  unfold Machine.encipherBandsBody
  extract_lets j count
  refine .ite (fun _ => h.close hs) fun _ => ?_
  split
  · exact h.touchJob.captureMemory.close hs
  · refine .ite (fun _ => h.close hs) fun _ => ?_
    split
    · exact h.close hs
    · exact h.admitEncipher hs hw

theorem Reaches.admitDecipher (h : Reaches W s t) (hs : s.closesWithin W) (hw : W.writes) {a : ScanArgs} {page : Nat}
    {l : List Source} {d : List Destination} : Reaches W s (t.admitDecipher a page l d) := by
  unfold State.admitDecipher
  extract_lets u v
  have hu : Reaches W s u := h.touchJob
  have hv : Reaches W s v := hu.readAccount
  clear_value v
  split
  · exact hu.refuse hs
  · split
    · exact hv.refuse hs
    · exact hv.beginCipher hw

theorem Reaches.decipherBandsBody (h : Reaches W s t) (hs : s.closesWithin W) (hw : W.writes) {k : Ticket} :
    Reaches W s (decipherBandsBody k t) := by
  unfold Machine.decipherBandsBody
  extract_lets j count page
  refine .ite (fun _ => h.close hs) fun _ => ?_
  split
  · exact h.touchJob.captureMemory.close hs
  · refine .ite (fun _ => h.close hs) fun _ => ?_
    split
    · exact h.close hs
    · exact h.admitDecipher hs hw

theorem slotsOfMask_range (mask n : Nat) (h : n ∈ slotsOfMask mask) : 1 ≤ n ∧ n ≤ 5 := by
  have hm := (List.mem_filter.mp h).1
  simp only [supplySlots, List.mem_cons, List.not_mem_nil, or_false] at hm
  omega

theorem Runs.checkCartridgeBody (h : Reaches W b t) (hs : b.within W) {k : Ticket}
    (hb : ∀ x v, byteOf (k.w 3).toNat (7 * 5) x → W.bytes x v) : Runs W c b (checkCartridgeBody k t) := by
  unfold Machine.checkCartridgeBody
  extract_lets mask result u
  refine .ite (fun _ => (h.close hs.closes).runs) fun _ => ?_
  have ht := h.within hs
  have hu : u.within W.loose := ⟨ht.closes, ht.record, fun w hw x v hx => hb x v (by cases hw; exact hx)⟩
  refine h.runsTo (.checkBegins (some { failed := 0, notChecked := 0, result, capacity := (k.w 4).toNat })) ?_
  refine Reaches.endCheckWait ?_ hu
  exact Reaches.foldl_mem (p := fun n => 1 ≤ n ∧ n ≤ 5)
    (fun hn h => .ite (fun _ => h.countNotChecked) fun _ => h.requestCheck fun _ => hn) (slotsOfMask_range mask) .refl

theorem State.cartridgeEntries_length (s : State) : s.cartridgeEntries.length = 5 + s.stored.known.length := by
  rw [State.cartridgeEntries, List.length_append, List.length_map, List.length_map]
  rfl

theorem Reaches.readCartridgesBody (h : Reaches W s t) (hs : s.closesWithin W) {k : Ticket}
    (hb : ∀ x v, byteOf (k.w 2).toNat (7 * (5 + t.stored.known.length)) x → W.bytes x v) : Reaches W s (readCartridgesBody k t) := by
  unfold Machine.readCartridgesBody
  extract_lets result capacity entries listed r
  refine .ite (fun _ => h.close hs) fun _ => Reaches.close (h.writeEntries (n := 7 * (5 + t.stored.known.length)) ?_ hb) hs
  have hlen : ∀ l : List (List Word), (∀ x ∈ l, x.length = 7) → (l.map List.length).sum = 7 * l.length := by
    intro l hl
    induction l with
    | nil => rfl
    | cons a l ih =>
      rw [List.map_cons, List.sum_cons, ih fun x hx => hl x (List.mem_cons_of_mem _ hx), hl a List.mem_cons_self,
        List.length_cons]
      omega
  have hall : ∀ x ∈ entries, x.length = 7 := by
    intro x hx
    rcases List.mem_append.mp hx with hx | hx
    · obtain ⟨n, -, rfl⟩ := List.mem_map.mp hx; rfl
    · obtain ⟨n, -, rfl⟩ := List.mem_map.mp hx; rfl
  rw [hlen _ fun x hx => hall x (List.mem_of_mem_take hx)]
  exact Nat.mul_le_mul_left 7 ((List.length_take_le' _ _).trans t.cartridgeEntries_length.le)

end Sys2Proof.Machine
end

