-- ==== Sys2Proof/Proofs/Effects.lean ====
section
/-! The effect of each command on the state it begins in: what `exec` runs inside the frame of a command. -/

namespace Sys2Proof.Machine

variable {s t : State} {c : Instr}

/-- A command of the link, with the wait of a Check Cartridge and a waiting print pass looked at after it (R160, R65). -/
def State.linkEffect (b : State) (f : State → State) : State := if b.up then b.renewPrintOnSupply (f b).endCheckWait else b

/-- A command that acts on a part that is up. -/
def State.whenUp (b : State) (f : State → State) : State := if b.up then f b else b

/-- A command that acts on a part that is alive. -/
def State.whenAlive (b : State) (f : State → State) : State := if b.alive then f b else b

/-- The effect of a command other than a loss of power. -/
def effectOf (c : Instr) (b : State) : State :=
  match c with
  | .powerOn _ x => b.powerStart x
  | .resetInputAssert => if b.power then b.holdReset else b
  | .resetInputRelease _ x => if b.power ∧ b.nrst then b.powerStart x else b
  | .restart _ v x => if b.alive ∧ bits v 3 0 = 1 then b.start .restart x else b
  | .startEnd _ => if b.alive ∧ b.dev.op = .starting then b.endStart else b
  | .post v => b.whenAlive fun b => b.takePost v
  | .noticeRead => b.whenAlive fun b => { b with readData := b.notice.setWidth 32, notice := 0 }
  | .noticeEnableWrite v => b.whenAlive fun b => { b with enable := v.setWidth 13 }
  | .registerWriteIgnored _ => b
  | .fetch _ n => b.whenUp fun b => b.takeFetch n
  | .setAccount _ => serve .setAccount 0 setAccountBody b
  | .readAccounts _ => serve .readAccounts 0 readAccountsBody b
  | .resetPeriod _ => serve .resetPeriod 0 resetPeriodBody b
  | .openSession _ => serve .openSession 0 openSessionBody b
  | .closeSession _ => serve .closeSession 0 closeSessionBody b
  | .sessionIdleExpiry _ e => if b.up ∧ b.sessionExpired e then ((b.endSession e).1.raise .timer).pumpCore else b
  | .lockoutExpiry _ n => if b.up ∧ b.lockoutOver n then b.unlock n else b
  | .openJob _ => serve .openJob 0 openJobBody b
  | .resumeJob _ => serve .resumeJob 0 resumeJobBody b
  | .endJob _ => serve .endJob 0 endJobBody b
  | .takeHold _ => serve .takeHold 0 takeHoldBody b
  | .releaseHold _ => serve .releaseHold 0 releaseHoldBody b
  | .engineHoldIdleExpiry _ => if b.up ∧ b.holdExpired then { b with hold := none }.raise .timer else b
  | .openSlot _ => serve .openSlot 0 openSlotBody b
  | .keepSlot _ => serve .keepSlot 0 keepSlotBody b
  | .attachSlot _ => serve .attachSlot 0 attachSlotBody b
  | .destroySlot _ => serve .destroySlot 0 destroySlotBody b
  | .heldSlotExpiry _ i => if b.up ∧ b.slotExpired i then ((b.destroySlot i).raise .timer).pumpCore else b
  | .configure _ => serve .configure 0 configureBody b
  | .statusDigest _ => serve .statusDigest 0 statusDigestBody b
  | .clearFaults _ => serve .clearFaults 0 clearFaultsBody b
  | .resumeService _ => serve .resumeService 0 resumeServiceBody b
  | .resumeServiceTestEnd _ p => if b.up ∧ b.core.resumeTest then (b.resumeTestEnds p).pumpCore else b
  | .printImpression _ => serve .printImpression 0 printImpressionBody b
  | .bandReadDone _ i => b.whenUp fun b => b.takeBandRead i
  | .cipherBandDone _ =>
    match b.core.band with
    | none => b
    | some x => b.whenUp fun b => b.coreBandEnds x
  | .engineDemand _ n p => b.whenAlive fun b => b.engineEvent n.toNat .demand fun b => b.takeDemand p
  | .engineOutcome _ n d =>
    b.whenAlive fun b => b.engineEvent n.toNat (if d then .delivered else .spoiled) fun b => (b.takeOutcome d).pumpCore
  | .scanPage _ => serve .scanPage 0 scanPageBody b
  | .scannerLine _ l => b.whenAlive fun b => b.scannerLine l
  | .scannerPageEnd _ => b.whenAlive State.scannerPageEnd
  | .scannerError _ => b.whenAlive State.scannerError
  | .bandWriteDone _ => b.whenUp fun b => b.writeDone.pumpCore
  | .encipherBands _ => serve .encipherBands 65535 encipherBandsBody b
  | .decipherBands _ => serve .decipherBands 0 decipherBandsBody b
  | .sourceReadDone _ => b.whenUp State.takeSourceRead
  | .periodicSelfTest => if b.up ∧ b.selfTestDue then { b with core := { b.core with periodicTest := true } } else b
  | .periodicSelfTestEnd _ p => if b.up ∧ b.core.periodicTest then b.selfTestEnds p else b
  | .senseLineEdge _ n high => b.whenAlive fun b => b.takeEdge n.val high
  | .checkCartridge _ => serve .checkCartridge 0 checkCartridgeBody b
  | .readCartridges _ => serve .readCartridges 0 readCartridgesBody b
  | .procedureStart _ => b.linkEffect fun b => if b.linkRuns then b.startProcedure else b
  | .attemptSend =>
    match b.link.state, b.link.transaction with
    | .settling, some t => b.whenUp fun b => { b with link := { b.link with state := .request, frame := t.frame } }
    | _, _ => b
  | .requestFrameDone =>
    if b.up ∧ b.link.state = .request then { b with link := { b.link with state := .response, frame := [] } } else b
  | .quietWaitTimeout _ =>
    b.linkEffect fun b =>
      match b.link.state, b.link.transaction with
      | .settling, some t => b.attemptEnds t .fails
      | _, _ => b
  | .responseFrame _ l => b.linkEffect fun b => b.responseEnds (attemptOf l)
  | .responseDeadline _ => b.linkEffect fun b => b.responseEnds fun _ => some .fails
  | .linkLine _ => b.linkEffect State.lineStuck
  | .linkLineRecovered => if b.up ∧ b.link.state = .stuck then { b with link := { b.link with state := .idle } } else b
  | .lossOfPower _ => b

/-- Every command but a loss of power is its effect in the frame of a command. -/
theorem exec_eq_command (s : State) (hc : ∀ n, c ≠ .lossOfPower n) : exec c s = command c.env s (effectOf c) := by
  cases c with
  | lossOfPower n => exact absurd rfl (hc n)
  | _ => rfl

/-- What a command other than a loss of power answers. -/
theorem Answers.eq_effect (h : Answers c s t) (hc : ∀ n, c ≠ .lossOfPower n) : t = (effectOf c (s.begin c.env)).finish :=
  command_eq_next ((exec_eq_command s hc).symm.trans h)

theorem answers_effect (s : State) (hc : ∀ n, c ≠ .lossOfPower n) : Answers c s (effectOf c (s.begin c.env)).finish :=
  exec_eq_command s hc

theorem answers_lossOfPower {n : Nat} : Answers (.lossOfPower n) s t ↔ t = if s.power then s.losePower n else s :=
  ⟨fun h => (Host.Outcome.next.inj h).symm, fun h => h ▸ rfl⟩

end Sys2Proof.Machine
end

