-- ==== Sys2Proof/Proofs/Exec3.lean ====
section
/-! The effect of each command, and the three ways a command can end. -/

namespace Sys2Proof.Machine

variable {b s t u v : State} {c : Instr} {W : Scope}

/-! ### The register window and the fetch -/

theorem Lane.post_lawful {l : Lane} {x : Word} (hx : x.toNat / 64 ≠ 0) (hq : ¬8 ≤ l.queue.length) (hl : l.lawful) :
    ({ l with queue := l.queue ++ [x.toNat / 64 * 64] } : Lane).lawful := by
  refine ⟨by simp only [List.length_append, List.length_singleton]; omega, fun a ha => ?_⟩
  rcases List.mem_append.mp ha with ha | ha
  · exact hl.2 a ha
  · have := x.isLt
    rw [List.mem_singleton.mp ha]
    exact ⟨by omega, by omega, by omega⟩

theorem Runs.takePost {x : Word} : Runs W c b (b.takePost x) := by
  unfold State.takePost
  refine .ite (fun _ => Reaches.refl.raise.runs) fun hd => ?_
  simp only [State.postDropped, Bool.or_eq_true, decide_eq_true_eq, not_or, ge_iff_le] at hd
  exact Reaches.refl.runsTo (.lane _ _ (Lane.post_lawful hd.1.2 hd.2)) .refl

theorem State.putLane_putLane (s : State) (n : Fin 4) (x y : Lane) : (s.putLane n x).putLane n y = s.putLane n y := by
  simp only [State.putLane, Vector.set_set]

theorem Lane.tail_lawful {l : Lane} {a : Nat} {rest : List Nat} (hq : l.queue = a :: rest) (k : Option Ticket) (hl : l.lawful) :
    ({ queue := rest, service := k } : Lane).lawful := by
  rw [Lane.lawful, hq] at hl
  exact ⟨Nat.le_of_succ_le hl.1, fun x hx => hl.2 x (List.mem_cons_of_mem _ hx)⟩

/-- Where a ticket is granted in its lane, its words may be closed or marked ACTIVE. -/
theorem Reaches.markActive (h : Reaches W s t) {n : Fin 4} {k : Ticket} (hk : ∀ a v, k.closingByte a → W.bytes a v) :
    Reaches W s (t.markActive n k) := by
  have hb : ∀ i < 4, ∀ v, W.bytes (wrapAddress (k.address + 60 + i)) v := fun i hi v =>
    hk _ v ⟨8 + i, by omega, by rw [← Nat.add_assoc]⟩
  have hw := h.writeWord (w := closingWord 2 0 t.epoch false false) hb
  unfold State.markActive
  split
  · rename_i e; exact hw.fst_of_eq e
  · rename_i e; exact (hw.fst_of_eq e).captureMemory.leaveService

theorem State.closesWithin_fetched {n : Fin 4} {a : Nat} {rest : List Nat} (hq : (b.lane n).queue = a :: rest) {k : Ticket}
    (hk : k.address = a) : (b.putLane n { queue := rest, service := some k }).closesWithin (Scope.of c b) := by
  intro m k' hk' x v hx
  by_cases hm : n = m
  · subst hm
    rw [State.putLane_lane_same] at hk'
    cases hk'
    exact fun _ => .inl (.inr (.inl ⟨n, a, by rw [hq]; rfl, by rw [← hk]; exact hx⟩))
  · rw [State.putLane_lane_other _ _ _ _ hm] at hk'
    exact (b.within_scope c).closes m k' hk' x v hx

theorem Runs.takeFetch {n : Fin 4} : Runs (Scope.of c b) c b (b.takeFetch n) := by
  unfold State.takeFetch
  split
  · rename_i a rest hs hq
    unfold State.fetchTicket
    split
    · exact Reaches.refl.runsTo (.lane n _ (Lane.tail_lawful hq _)) Reaches.refl.captureMemory.leaveService
    · rename_i words _
      dsimp only []
      rw [State.putLane_putLane, State.putLane_lane_same]
      have hclose : (b.putLane n { queue := rest, service := some { address := a, words, begun := false } }).closesWithin
          (Scope.of c b).loose := State.closesWithin_fetched hq rfl
      have hl := Special.lane (c := c) (u := b) n { queue := rest, service := some { address := a, words, begun := false } }
        (Lane.tail_lawful hq _)
      refine .ite (fun _ => Reaches.refl.runsTo hl Reaches.refl.raise.leaveService) fun _ => ?_
      split
      · exact Reaches.refl.runsTo hl (Reaches.refl.close hclose)
      · refine Reaches.refl.runsTo hl (Reaches.refl.markActive ?_)
        exact hclose n _ (by rw [State.putLane_lane_same])
  · exact Reaches.refl.runs

/-! ### Starts' end, expiries and tests -/

theorem Runs.endStart {e : Env} (hop : b.dev.op = .starting) (he : b.env = e) :
    Runs (Scope.of (.startEnd e) b) (.startEnd e) b b.endStart := by
  have hs := b.within_scope (.startEnd e)
  have hp := State.plainWithin_scope (c := .startEnd e) he
  unfold State.endStart
  refine .ite (fun _ => Reaches.refl.runsTo (.startEnds rfl hop _ (.inr rfl)) .refl) fun _ => ?_
  refine Reaches.refl.runsTo (.startEnds rfl hop _ (.inl rfl)) ?_
  have hc := Reaches.requestChecks (W := Scope.of (.startEnd e) b) (l := supplySlots) (Reaches.refl (s := { b with
    dev := { b.dev with op := .running, clock := 0 } })) (by decide)
  exact .ite (fun _ => hc.withdraw ⟨hs.closes, hs.record, hs.wait⟩ (by simp [Scope.of, stopsWrite]) hp) fun _ => hc.loose

theorem Reaches.unlock (h : Reaches W s t) {n : Nat} : Reaches W s (t.unlock n) := h.writeRecord.putAcct.raise

theorem Runs.resumeTestEnds {e : Env} {p : Bool} (ht : b.core.resumeTest = true) (hs : b.closesWithin W) :
    Runs W (.resumeServiceTestEnd e p) b (b.resumeTestEnds p).pumpCore := by
  let x : Core := { b.core with resumeTest := false, count := 0 }
  have hc : ∀ {u : State} {code : ReturnCode} {w14 : Nat}, u.closesWithin W.loose → Reaches W.loose u (u.close 0 code 0 w14).pumpCore :=
    fun h => (Reaches.refl.close h).pumpCore
  unfold State.resumeTestEnds
  cases p with
  | true =>
    rw [if_pos rfl]
    dsimp only []
    split
    · exact Reaches.refl.runsTo (.tested x rfl) (hc hs)
    · exact Reaches.refl.runsTo (.resumed rfl ht x rfl) (hc hs)
  | false =>
    refine Reaches.refl.runsTo (.tested { b.core with resumeTest := false } rfl) ?_
    refine Reaches.pumpCore (Reaches.close (Reaches.refl.capture) ?_)
    exact hs

theorem Reaches.selfTestEnds (hs : s.within W) (hw : ¬W.writes) (hp : s.plainWithin W) {p : Bool} :
    Reaches W.loose s (s.selfTestEnds p) := by
  have hc : Reaches W s { s with core := { s.core with periodicTest := false, count := 0 } } := Reaches.refl.core
  cases p with
  | true => exact hc.loose.pumpCore
  | false => exact (hc.capture.withdraw hs hw hp).pumpCore

/-- The levels a line's edge leaves. -/
def State.edgeTaken (s : State) (n : Nat) : State := { s with levels := s.levels ^^^ BitVec.twoPow 8 n }

theorem State.takeEdge_eq (s : State) (n : Nat) (high : Bool) :
    s.takeEdge n high =
      if s.levels.getLsbD n = high then s else (s.edgeTaken n).senseChange s.abnormal (s.edgeTaken n).abnormal := rfl

theorem Runs.takeEdge (hs : b.within W) (hw : ¬W.writes) (hp : b.plainWithin W) {n : Nat} {high : Bool} :
    Runs W c b (b.takeEdge n high) := by
  have hu : (b.edgeTaken n).within W := ⟨hs.closes, hs.record, hs.wait⟩
  rw [State.takeEdge_eq]
  exact .ite (fun _ => Reaches.refl.runs) fun _ => Reaches.refl.runsTo (.levels _) (Reaches.senseChange .refl hu hw hp)

/-! ### The Supply Link -/

theorem State.within_linkEffect {f : State → State} (hs : s.within W) (hf : Reaches W s (f s)) : Reaches W s (s.linkEffect f) :=
  .ite (fun _ => (hf.endCheckWait hs).renewPrintOnSupply hs.closes) fun _ => .refl

theorem Reaches.quietWaitTimeout (hq : W.queue → ∀ p ∈ s.link.queue, 1 ≤ p.slot ∧ p.slot ≤ 5) :
    Reaches W s (match s.link.state, s.link.transaction with
      | .settling, some t => s.attemptEnds t .fails
      | _, _ => s) := by
  split
  · exact Reaches.refl.attemptEnds hq
  · exact .refl

/-- The link's state changes while its queue stays. -/
theorem Reaches.linkState (h : Reaches W s t) {l : Link} (hq : l.queue = t.link.queue) : Reaches W s { t with link := l } :=
  h.link fun _ h => hq ▸ h

/-! ### The ways a command can end -/

/-- The commands that begin a start (R171). -/
inductive StartCommand : Instr → StartCause → StartInputs → Prop
  | powerOn (e : Env) (x : StartInputs) : StartCommand (.powerOn e x) .power x
  | release (e : Env) (x : StartInputs) : StartCommand (.resetInputRelease e x) .power x
  | restart (e : Env) (v : Word) (x : StartInputs) : StartCommand (.restart e v x) .restart x

/-- How a command ends: by a loss of power, with a start begun, or after a run of acts. -/
inductive Effect (c : Instr) (s : State) : State → Prop
  | lost (n : Nat) (hc : c = .lossOfPower n) : Effect c s (if s.power then s.losePower n else s)
  | started (cause : StartCause) (x : StartInputs) (hc : StartCommand c cause x) (f : FaultRecord)
      (hf : f = FaultRecord.cleared ∨ f = s.faults) : Effect c s (State.start { s.begin c.env with faults := f } cause x).finish
  | ran (e : State) (h : Runs (Scope.of c (s.begin c.env)) c (s.begin c.env) e) : Effect c s e.finish

theorem State.resultArea_readAccounts (b : State) {k : Ticket} (h : k.kind = some .readAccounts) : b.resultArea k = ((k.w 4).toNat, 13 * 512) := by
  rw [State.resultArea, h]

theorem State.resultArea_configure (b : State) {k : Ticket} (h : k.kind = some .configure) : b.resultArea k = ((k.w 4).toNat, 39) := by
  rw [State.resultArea, h]

theorem State.resultArea_statusDigest (b : State) {k : Ticket} (h : k.kind = some .statusDigest) : b.resultArea k = ((k.w 2).toNat, 371) := by
  rw [State.resultArea, h]

theorem State.resultArea_checkCartridge (b : State) {k : Ticket} (h : k.kind = some .checkCartridge) : b.resultArea k = ((k.w 3).toNat, 7 * 5) := by
  rw [State.resultArea, h]

theorem State.resultArea_readCartridges (b : State) {k : Ticket} (h : k.kind = some .readCartridges) : b.resultArea k = ((k.w 2).toNat, 7 * (5 + b.stored.known.length)) := by
  rw [State.resultArea, h]

/-- The result area of a ticket in service is granted. -/
theorem State.kind_area_scope {k : Ticket} {n : Fin 4} (hk : (b.lane n).service = some k) {a w : Nat} (ha : b.resultArea k = (a, w))
    (x : Nat) (v : Byte) (hx : byteOf a w x) : (Scope.of c b).bytes x v := State.area_scope hk v (ha ▸ hx)

/-- A command other than a loss of power begins a start, or runs acts. -/
theorem effectOf_cases (b : State) (hb : b.env = c.env) (hc : ∀ n, c ≠ .lossOfPower n) :
    (∃ cause x f, StartCommand c cause x ∧ (f = FaultRecord.cleared ∨ f = b.faults) ∧
        effectOf c b = State.start { b with faults := f } cause x) ∨
      Runs (Scope.of c b) c b (effectOf c b) := by
  have hs := b.within_scope c
  have hp := State.plainWithin_scope hb
  cases c with
  | powerOn e x => exact .inl ⟨_, x, _, .powerOn e x, .inl rfl, rfl⟩
  | resetInputRelease e x =>
    by_cases hr : b.power = true ∧ b.nrst = true
    · exact .inl ⟨_, x, _, .release e x, .inl rfl, if_pos hr⟩
    · refine .inr ?_
      rw [show effectOf (.resetInputRelease e x) b = b from if_neg hr]
      exact Reaches.refl.runs
  | restart e v x =>
    by_cases hr : b.alive = true ∧ bits v 3 0 = 1
    · exact .inl ⟨_, x, _, .restart e v x, .inr rfl, if_pos hr⟩
    · refine .inr ?_
      rw [show effectOf (.restart e v x) b = b from if_neg hr]
      exact Reaches.refl.runs
  | lossOfPower n => exact absurd rfl (hc n)
  | resetInputAssert => exact .inr <| .ite (fun _ => Reaches.refl.runsTo (.held rfl) .refl) fun _ => Reaches.refl.runs
  | startEnd e => exact .inr <| .ite (fun hc => Runs.endStart hc.2 hb) fun _ => Reaches.refl.runs
  | post v => exact .inr <| .ite (fun _ => .takePost) fun _ => Reaches.refl.runs
  | noticeRead => exact .inr <| .ite (fun _ => Reaches.refl.runsTo (.read _) .refl) fun _ => Reaches.refl.runs
  | noticeEnableWrite v => exact .inr <| .ite (fun _ => Reaches.refl.runsTo (.enable _) .refl) fun _ => Reaches.refl.runs
  | registerWriteIgnored w => exact .inr <| Reaches.refl.runs
  | fetch e n => exact .inr <| .ite (fun _ => .takeFetch) fun _ => Reaches.refl.runs
  | setAccount e => exact .inr <| serve_reaches hs.closes fun _ _ _ _ _ hu => hu.setAccountBody hs
  | readAccounts e =>
    exact .inr <| serve_reaches hs.closes fun k u hk hkind _ hu =>
      hu.readAccountsBody hs.closes (State.kind_area_scope hk (b.resultArea_readAccounts hkind))
  | resetPeriod e => exact .inr <| serve_reaches hs.closes fun _ _ _ _ _ hu => hu.resetPeriodBody hs.closes
  | openSession e => exact .inr <| serve_reaches hs.closes fun _ _ _ _ _ hu => hu.openSessionBody hs.closes
  | closeSession e => exact .inr <| serve_reaches hs.closes fun _ _ _ _ _ hu => hu.closeSessionBody hs.closes
  | sessionIdleExpiry e i =>
    exact .inr <| (Reaches.ite (fun _ => (Reaches.refl.endSession hs.closes).raise.pumpCore) fun _ => .refl).runs
  | lockoutExpiry e n => exact .inr <| (Reaches.ite (fun _ => Reaches.refl.unlock) fun _ => .refl).runs
  | openJob e => exact .inr <| serve_reaches hs.closes fun _ _ _ _ _ hu => hu.openJobBody hs.closes
  | resumeJob e => exact .inr <| serve_reaches hs.closes fun _ _ _ _ _ hu => hu.resumeJobBody hs.closes
  | endJob e => exact .inr <| serve_reaches hs.closes fun _ _ _ _ _ hu => hu.endJobBody hs.closes
  | takeHold e => exact .inr <| serve_reaches hs.closes fun _ _ _ _ _ hu => hu.takeHoldBody hs.closes
  | releaseHold e => exact .inr <| serve_reaches hs.closes fun _ _ _ _ _ hu => hu.releaseHoldBody hs.closes
  | engineHoldIdleExpiry e =>
    exact .inr <| (Reaches.ite (fun _ => Reaches.refl.hold.raise) fun _ => .refl).runs
  | openSlot e =>
    exact .inr <| serve_runs hs.closes fun k hk hg hu => Runs.openSlotBody hu hs.closes
      ((b.beginService_dev _) ▸ running_of_gate hk hg (by decide) (by decide))
  | keepSlot e => exact .inr <| serve_reaches hs.closes fun _ _ _ _ _ hu => hu.keepSlotBody hs.closes
  | attachSlot e =>
    exact .inr <| serve_runs hs.closes fun k hk hg hu => Runs.attachSlotBody hu hs.closes
      ((b.beginService_dev _) ▸ running_of_gate hk hg (by decide) (by decide))
  | destroySlot e => exact .inr <| serve_reaches hs.closes fun _ _ _ _ _ hu => hu.destroySlotBody hs
  | heldSlotExpiry e i =>
    exact .inr <| (Reaches.ite (fun _ => (Reaches.refl.destroySlot hs).raise.pumpCore) fun _ => .refl).runs
  | configure e =>
    exact .inr <| serve_runs hs.closes fun k hk _ hu =>
      (hu.configureBody hs (by simp [Scope.of, stopsWrite]) hp
        (State.kind_area_scope (State.serving_some hk).2.1 (b.resultArea_configure (State.serving_some hk).2.2.2))).runs_loose
  | statusDigest e =>
    exact .inr <| serve_reaches hs.closes fun k u hk hkind _ hu =>
      hu.statusDigestBody hs.closes (State.kind_area_scope hk (b.resultArea_statusDigest hkind))
  | clearFaults e => exact .inr <| serve_runs hs.closes fun k hk _ hu => Runs.clearFaultsBody hu hs.closes
  | resumeService e => exact .inr <| serve_runs hs.closes fun k hk _ hu => Runs.resumeServiceBody hu hs.closes
  | resumeServiceTestEnd e p =>
    exact .inr <| .ite (fun hc => Runs.resumeTestEnds hc.2 hs.closes) fun _ => Reaches.refl.runs
  | printImpression e =>
    exact .inr <| serve_runs hs.closes fun k hk _ hu => Runs.printImpressionBody hu hs.closes
  | bandReadDone e i => exact .inr <| (Reaches.ite (fun _ => Reaches.refl.takeBandRead hs) fun _ => .refl).runs
  | cipherBandDone e =>
    dsimp only [effectOf]
    refine .inr ?_
    split
    · exact Reaches.refl.runs
    · exact (Reaches.ite (fun _ => Reaches.refl.coreBandEnds hs rfl) fun _ => .refl).runs
  | engineDemand e n p =>
    exact .inr <| (Reaches.ite (fun _ => Reaches.refl.engineEvent fun h => h.takeDemand hs) fun _ => .refl).runs
  | engineOutcome e n d =>
    exact .inr <|
      (Reaches.ite (fun _ => Reaches.refl.engineEvent fun h => (h.takeOutcome hs).pumpCore) fun _ => .refl).runs
  | scanPage e => exact .inr <| serve_reaches hs.closes fun _ _ _ _ _ hu => hu.scanPageBody hs.closes rfl
  | scannerLine e l => exact .inr <| (Reaches.ite (fun _ => Reaches.refl.scannerLine hs.closes rfl) fun _ => .refl).runs
  | scannerPageEnd e =>
    exact .inr <| (Reaches.ite (fun _ => Reaches.refl.scannerPageEnd hs.closes rfl) fun _ => .refl).runs
  | scannerError e => exact .inr <| (Reaches.ite (fun _ => Reaches.refl.scannerError hs.closes) fun _ => .refl).runs
  | bandWriteDone e =>
    exact .inr <|
      (Reaches.ite (fun _ => (Reaches.refl.writeDone hs.closes rfl State.writeWithin_scope).pumpCore) fun _ => .refl).runs
  | encipherBands e =>
    exact .inr <| serve_reaches hs.closes fun _ _ _ _ _ hu => hu.encipherBandsBody hs.closes rfl
  | decipherBands e =>
    exact .inr <| serve_reaches hs.closes fun _ _ _ _ _ hu => hu.decipherBandsBody hs.closes rfl
  | sourceReadDone e =>
    exact .inr <| (Reaches.ite (fun _ => Reaches.refl.takeSourceRead hs.closes rfl) fun _ => .refl).runs
  | periodicSelfTest => exact .inr <| (Reaches.ite (fun _ => Reaches.refl.core) fun _ => .refl).runs
  | periodicSelfTestEnd e p =>
    exact .inr <| .ite (fun _ => (Reaches.selfTestEnds hs (by simp [Scope.of, stopsWrite]) hp).runs_loose)
      fun _ => Reaches.refl.runs
  | senseLineEdge e n high =>
    exact .inr <| .ite (fun _ => Runs.takeEdge hs (by simp [Scope.of, stopsWrite]) hp)
      fun _ => Reaches.refl.runs
  | checkCartridge e =>
    exact .inr <| serve_runs hs.closes fun k hk _ hu => Runs.checkCartridgeBody hu hs
      (State.kind_area_scope (State.serving_some hk).2.1 (b.resultArea_checkCartridge (State.serving_some hk).2.2.2))
  | readCartridges e =>
    exact .inr <| serve_reaches hs.closes fun k u hk hkind hu hr =>
      hr.readCartridgesBody hs.closes (hu ▸ State.kind_area_scope hk (b.resultArea_readCartridges hkind))
  | procedureStart e =>
    refine .inr (State.within_linkEffect hs ?_).runs
    exact .ite (fun _ => Reaches.refl.startProcedure State.queue_scope) fun _ => .refl
  | attemptSend =>
    dsimp only [effectOf]
    refine .inr (Reaches.runs ?_)
    split
    · unfold State.whenUp
      split
      · exact Reaches.refl.linkState rfl
      · exact .refl
    · exact .refl
  | requestFrameDone =>
    dsimp only [effectOf]
    refine .inr (Reaches.runs ?_)
    split
    · exact Reaches.refl.linkState rfl
    · exact .refl
  | quietWaitTimeout e =>
    dsimp only [effectOf]
    exact .inr <|
      (State.within_linkEffect hs (Reaches.quietWaitTimeout State.queue_scope)).runs
  | responseFrame e l =>
    dsimp only [effectOf]
    exact .inr <|
      (State.within_linkEffect hs (Reaches.refl.responseEnds State.queue_scope)).runs
  | responseDeadline e =>
    dsimp only [effectOf]
    exact .inr <|
      (State.within_linkEffect hs (Reaches.refl.responseEnds State.queue_scope)).runs
  | linkLine e =>
    exact .inr <|
      (State.within_linkEffect hs (Reaches.refl.lineStuck State.queue_scope)).runs
  | linkLineRecovered =>
    dsimp only [effectOf]
    refine .inr (Reaches.runs ?_)
    split
    · exact Reaches.refl.linkState rfl
    · exact .refl

/-- Every command ends in one of three ways. -/
theorem exec_effect (h : Answers c s t) : Effect c s t := by
  by_cases hc : ∀ n, c ≠ .lossOfPower n
  · rw [h.eq_effect hc]
    rcases effectOf_cases (s.begin c.env) rfl hc with ⟨cause, x, f, hx, hf, e⟩ | hr
    · rw [e]
      exact .started cause x hx f hf
    · exact .ran _ hr
  · obtain ⟨n, hn⟩ := not_forall_not.mp hc
    subst hn
    rw [answers_lossOfPower.mp h]
    exact .lost n rfl

end Sys2Proof.Machine
end

