-- ==== Sys2Proof/Proofs/Keeps.lean ====
section
/-! The acts of a start, and what it takes for a law to be kept by every step. -/

namespace Sys2Proof.Machine

variable {b s t u v : State} {c : Instr} {W : Scope}

/-! ### The acts of a start -/

/-- The scope of a start, which grants nothing. -/
def Scope.none : Scope := { bytes := fun _ _ => False, queue := True, writes := False }

/-- One act of a start (R171 steps 2 to 7). -/
inductive StartAct : State → State → Prop
  | act {s t : State} (h : Act .none s t) : StartAct s t
  | count {s : State} (n : Nat) : StartAct s (s.store .startCount { s.stored with startCount := n, startCountOk := true })
  | dev {s : State} (d : Device) (ho : d.op = s.dev.op) (he : d.entryTime = s.dev.entryTime) : StartAct s { s with dev := d }
  | levels {s : State} (x : BitVec 8) : StartAct s { s with levels := x }

/-- A run of acts of a start. -/
def StartRuns (s t : State) : Prop := Relation.ReflTransGen StartAct s t

theorem StartRuns.refl : StartRuns s s := Relation.ReflTransGen.refl

theorem StartRuns.tail (h : StartRuns s t) (a : StartAct t u) : StartRuns s u := Relation.ReflTransGen.tail h a

/-- What every act of a start keeps, a run keeps. -/
theorem StartRuns.keeps {P : State → Prop} (h : StartRuns s t) (hp : P s) (hact : ∀ {x y}, StartAct x y → P x → P y) : P t := by
  induction h with
  | refl => exact hp
  | tail _ a ih => exact hact a ih

theorem StartRuns.reaches (h : StartRuns s t) (hr : Reaches .none t u) : StartRuns s u := by
  induction hr with
  | refl => exact h
  | tail _ a ih => exact ih.tail (.act a)

theorem StartRuns.capture (h : StartRuns s t) (k : FaultKind) (l a : Option Nat) (d : Nat) : StartRuns s (t.capture k l a d) :=
  h.reaches Reaches.refl.capture

theorem StartRuns.markStopping (h : StartRuns s t) : StartRuns s t.markStopping := h.tail (.dev _ rfl rfl)

theorem StartRuns.startCounts (h : StartRuns s t) : StartRuns s t.startCounts := (h.tail (.count _)).tail (.dev _ rfl rfl)

theorem StartRuns.startTest (h : StartRuns s t) (p : Bool) : StartRuns s (t.startTest p) := by
  unfold State.startTest
  split
  · exact h
  · exact (h.capture _ _ _ _).markStopping

theorem StartRuns.startMeters (h : StartRuns s t) (p : Bool) : StartRuns s (t.startMeters p) := by
  unfold State.startMeters
  extract_lets u
  have hu : StartRuns s u := by
    dsimp only [u]
    split
    · exact h
    · exact (h.capture _ _ _ _).markStopping
  clear_value u
  split
  · exact hu
  · exact (hu.capture _ _ _ _).markStopping

/-- Section 11.6: the factory settings are lawful. -/
theorem Settings.factory_lawful : Settings.factory.lawful := by
  refine ⟨?_, ⟨fun p i => ?_, fun p => ?_, by decide⟩, ?_, ?_⟩
  · simp [Rates.lawful, SizeRates.lawful, TierTable.lawful, Settings.factory]
  · have hpoint : ∀ i, Curve.point (Vector.ofFn fun i : Fin 17 => min 4095 (256 * i.val)) i ≤ 4095 := by
      intro i
      by_cases hi : i < 17 <;> simp [Curve.point, entryAt, hi]
    cases p <;> exact hpoint i
  · cases p <;> decide
  · simp [Timers.lawful, Settings.factory]
  · simp [SupplySettings.lawful, Settings.factory]

theorem StartRuns.startSettings (h : StartRuns s t) : StartRuns s t.startSettings := by
  unfold State.startSettings
  split
  · exact h
  · exact ((h.tail (.act (.settings .factory fun _ => Settings.factory_lawful))).tail
      (.dev { t.dev with defaulted := true } rfl rfl)).capture _ _ _ _

theorem StartRuns.startList (h : StartRuns s t) : StartRuns s t.startList := by
  unfold State.startList
  split
  · exact h
  · exact (h.tail (.act (.known [] fun _ => ⟨by decide, by decide⟩))).capture _ _ _ _

theorem StartRuns.startAccount (h : StartRuns s t) (n : Nat) : StartRuns s (t.startAccount n) := by
  refine h.reaches ?_
  unfold State.startAccount
  extract_lets u
  have hu : Reaches .none t u := Reaches.readAccount .refl
  clear_value u
  split
  · exact hu.putAcct
  · exact hu

theorem StartRuns.startAccounts (l : List Nat) (h : StartRuns s t) : StartRuns s (l.foldl State.startAccount t) := by
  induction l generalizing t with
  | nil => exact h
  | cons n l ih => exact ih (h.startAccount n)

theorem StartRuns.startLines (h : StartRuns s t) (x : BitVec 8) : StartRuns s (t.startLines x) := (h.startAccounts _).tail (.levels x)

/-- A start is a run of these acts from the state with everything volatile reset. -/
theorem start_runs (s : State) (cause : StartCause) (x : StartInputs) : StartRuns (s.volatileReset cause) (s.start cause x) :=
  (((((StartRuns.refl.startCounts).startTest _).startMeters _).startSettings).startList).startLines _

/-! ### Laws every step keeps -/

/-- What makes a law one that every step keeps: the frame of a command, its acts, a start and a loss of power keep it. -/
structure Kept (P : State → Prop) : Prop where
  /-- the waiting commands play no part -/
  pending : ∀ {s : State} (l : List Instr), P s → P { s with pending := l } := by exact fun _ h => h
  begins : ∀ {s : State} (e : Env), P s → P (s.begin e) := by exact fun _ h => h
  finishes : ∀ {s : State}, P s → P s.finish := by exact fun h => h
  acts : ∀ {W : Scope} {s t : State}, (∃ b, P b ∧ (queueOk b.link.queue → W.queue)) → Act W s t → P s → P t
  special : ∀ {c : Instr} {s t : State}, Special c s t → P s → P t
  resets : ∀ {s : State} (cause : StartCause) (f : FaultRecord), f = FaultRecord.cleared ∨ f = s.faults → P s →
    P (State.volatileReset { s with faults := f } cause)
  count : ∀ {s : State} (n : Nat), P s → P (s.store .startCount { s.stored with startCount := n, startCountOk := true }) := by
    exact fun _ h => h
  device : ∀ {s : State} (d : Device), d.op = s.dev.op → d.entryTime = s.dev.entryTime → P s → P { s with dev := d } := by
    exact fun _ _ _ h => h
  levels : ∀ {s : State} (x : BitVec 8), P s → P { s with levels := x } := by exact fun _ h => h
  lost : ∀ {s : State} (n : Nat), P s → P (s.losePower n)

variable {P : State → Prop}

theorem Kept.reaches (hk : Kept P) (hW : ∃ b, P b ∧ (queueOk b.link.queue → W.queue)) (h : Reaches W s t) (hp : P s) : P t :=
  h.keeps hp (hk.acts hW)

theorem Kept.runs (hk : Kept P) (hp : P b) (h : Runs (Scope.of c b) c b t) : P t := by
  obtain ⟨u, v, hbu, huv, hvt⟩ := h
  have hu := hk.reaches ⟨b, hp, id⟩ hbu hp
  exact hk.reaches ⟨b, hp, id⟩ hvt (hk.special huv hu)

theorem Kept.startAct (hk : Kept P) (h : StartAct s t) (hp : P s) : P t := by
  cases h with
  | act h => exact hk.acts ⟨s, hp, fun _ => trivial⟩ h hp
  | count n => exact hk.count n hp
  | dev d ho he => exact hk.device d ho he hp
  | levels x => exact hk.levels x hp

theorem Kept.start (hk : Kept P) (hp : P s) (cause : StartCause) (x : StartInputs) (f : FaultRecord)
    (hf : f = FaultRecord.cleared ∨ f = s.faults) : P (State.start { s with faults := f } cause x) :=
  (start_runs { s with faults := f } cause x).keeps (hk.resets cause f hf hp) hk.startAct

theorem Kept.effect (hk : Kept P) (hp : P s) (h : Effect c s t) : P t := by
  cases h with
  | lost n hc =>
    split
    · exact hk.lost n hp
    · exact hp
  | started cause x hc f hf => exact hk.finishes (hk.start (hk.begins _ hp) cause x f hf)
  | ran e h => exact hk.finishes (hk.runs (hk.begins _ hp) h)

/-- Such a law is kept by every step. -/
theorem Kept.step (hk : Kept P) (h : Machine.step s = .next t) (hp : P s) : P t := by
  unfold Machine.step at h
  split at h
  · exact Host.Outcome.next.inj h ▸ hp
  · exact hk.effect (hk.pending _ hp) (exec_effect h)

end Sys2Proof.Machine
end

