-- ==== Sys2Proof/Proofs/Laws1.lean ====
section
/-! The laws every step keeps, act by act: memory, stored areas, link, settings, intake, faults, slots. -/

namespace Sys2Proof.Machine

variable {b s t u v : State} {c : Instr} {W : Scope}

/-! ### What is stored, now and at each moment a loss of power may return to -/

/-- A law of the stored areas and the DRAM holds now, before the last command and after each of its writes. -/
def State.durably (Q : Stored → Memory → Prop) (s : State) : Prop :=
  Q s.stored s.mem ∧ Q s.shadow s.shadowMem ∧ ∀ x ∈ s.afterWrites, Q x.1 x.2

/-- What an act keeps for a loss of power was kept before it, or is what the act left. -/
theorem Act.afterWrites (h : Act W s t) {x : Stored × Memory} (hx : x ∈ t.afterWrites) : x ∈ s.afterWrites ∨ x = (t.stored, t.mem) := by
  cases h with
  | record n r => exact State.mem_store_afterWrites hx
  | meters m h => exact State.mem_store_afterWrites hx
  | known l h => exact State.mem_store_afterWrites hx
  | settings y h => exact State.mem_store_afterWrites hx
  | misc h =>
    have e : t.afterWrites = s.afterWrites := by rw [h.frame]
    exact .inl (e ▸ hx)
  | _ => exact .inl hx

theorem Special.durable (h : Special c s t) :
    t.stored = s.stored ∧ t.mem = s.mem ∧ t.shadow = s.shadow ∧ t.shadowMem = s.shadowMem ∧ t.afterWrites = s.afterWrites := by
  cases h <;> exact ⟨rfl, rfl, rfl, rfl, rfl⟩

theorem Stored.decayed {Q : Stored → Memory → Prop} (hdecay : ∀ st d m, Q st m → Q (Stored.decay st d) m) (l : List Decay)
    {st : Stored} {m : Memory} (h : Q st m) : Q (l.foldl Stored.decay st) m := by
  induction l generalizing st with
  | nil => exact h
  | cons d l ih => exact ih (hdecay st d m h)

theorem State.durably_heldAfter {Q : Stored → Memory → Prop} (h : s.durably Q) (n : Nat) : Q (s.heldAfter n).1 (s.heldAfter n).2 := by
  obtain ⟨hnow, hbefore, hwrites⟩ := h
  rcases s.heldAfter_cases n with ⟨-, e⟩ | he | ⟨-, e⟩
  · rw [e]; exact hbefore
  · exact hwrites _ he
  · rw [e]; exact hnow

theorem durably_kept {Q : Stored → Memory → Prop} (hdecay : ∀ st d m, Q st m → Q (Stored.decay st d) m)
    (hstores : ∀ st m l, Q st m → Q st (Memory.storeAll m l)) (hact : ∀ {W s t}, Act W s t → Q s.stored s.mem → Q t.stored t.mem)
    (hcount : ∀ st m n, Q st m → Q { st with startCount := n, startCountOk := true } m) : Kept (State.durably Q) where
  begins e h := ⟨hstores _ _ _ (Stored.decayed hdecay _ h.1), hstores _ _ _ (Stored.decayed hdecay _ h.1), nofun⟩
  acts := fun _ ha h => by
    have hnow := hact ha h.1
    refine ⟨hnow, by rw [ha.shadow, ha.shadowMem]; exact h.2.1, fun x hx => ?_⟩
    rcases ha.afterWrites hx with hx | rfl
    · exact h.2.2 x hx
    · exact hnow
  special := fun hs h => by
    obtain ⟨e1, e2, e3, e4, e5⟩ := hs.durable
    rw [State.durably, e1, e2, e3, e4, e5]
    exact h
  resets := fun _ _ _ h => ⟨h.1, h.2.1, nofun⟩
  count n h := by
    refine ⟨hcount _ _ n h.1, h.2.1, fun x hx => ?_⟩
    rcases State.mem_store_afterWrites hx with hx | rfl
    · exact h.2.2 x hx
    · exact hcount _ _ n h.1
  lost n h := ⟨State.durably_heldAfter h n, h.2.1, nofun⟩

theorem memoryCanonical_kept : Kept State.memoryCanonical :=
  durably_kept (Q := fun _ m => m.wf) (fun _ _ _ h => h) (fun _ m l h => Memory.storeAll_wf m l h)
    (fun ha h => by
      cases ha with
      | mem m hwf _ => exact hwf h
      | misc hm =>
        rw [hm.frame]
        exact h
      | _ => exact h)
    fun _ _ _ h => h

theorem listLawful_kept : Kept State.listLawful :=
  durably_kept (Q := fun st _ => knownLawful st.known) (fun st d _ h => by cases d <;> exact h) (fun _ _ _ h => h)
    (fun ha h => by
      cases ha with
      | known l hl => exact hl h
      | misc hm =>
        rw [hm.frame]
        exact h
      | _ => exact h)
    fun _ _ _ h => h

theorem settingsLawful_kept : Kept State.settingsLawful :=
  durably_kept (Q := fun st _ => st.settings.lawful) (fun st d _ h => by cases d <;> exact h) (fun _ _ _ h => h)
    (fun ha h => by
      cases ha with
      | settings x hx => exact hx h
      | misc hm =>
        rw [hm.frame]
        exact h
      | _ => exact h)
    fun _ _ _ h => h

/-! ### Cartridges and the procedure queue -/

/-- A table of equal entries. -/
theorem entryAt_replicate {α : Type} (n i : Nat) (x : α) : entryAt (Vector.replicate n x) i x = x := by
  by_cases h : i < n <;> simp [entryAt, h]

theorem State.putCart_cart (s : State) (n m : Nat) (x : Cartridge) :
    (s.putCart n x).cart m = if n - 1 = m - 1 ∧ n - 1 < 5 then x else s.cart m := entryAt_putAt ..

/-- A reset cartridge record holds no values. -/
theorem State.cartridgesLawful_reset (h : s.carts = Vector.replicate 5 .reset) : s.cartridgesLawful := fun n => by
  rw [State.cart, h, entryAt_replicate]
  exact nofun

theorem cartridgesLawful_kept : Kept State.cartridgesLawful where
  acts := fun _ ha h => by
    cases ha with
    | cart n c hc =>
      intro m
      rw [State.putCart_cart]
      split
      · exact hc (h n)
      · exact h m
    | misc hm =>
      rw [hm.frame]
      exact h
    | _ => exact h
  special hs h := by cases hs <;> exact h
  resets := fun _ _ _ _ => State.cartridgesLawful_reset rfl
  lost _ _ := State.cartridgesLawful_reset rfl

theorem State.queueLawful_reset (h : s.link.queue = []) : s.queueLawful := by
  rw [State.queueLawful, h]
  exact ⟨List.nodup_nil, nofun, nofun⟩

theorem queueLawful_kept : Kept State.queueLawful where
  acts := fun hW ha h => by
    obtain ⟨b, hb, hq⟩ := hW
    cases ha with
    | link l hl => exact hl (hq hb) h
    | misc hm =>
      rw [hm.frame]
      exact h
    | _ => exact h
  special hs h := by
    cases hs with
    | held => exact State.queueLawful_reset rfl
    | _ => exact h
  resets := fun _ _ _ _ => State.queueLawful_reset rfl
  lost _ _ := State.queueLawful_reset rfl

/-! ### Intake, faults and the entry time -/

theorem Lane.reset_lawful : Lane.reset.lawful := ⟨by decide, nofun⟩

theorem State.intakeLawful_reset (h : s.lanes = Vector.replicate 4 .reset) : s.intakeLawful := fun n => by
  rw [State.lane, h]
  simpa [Vector.get_eq_getElem] using Lane.reset_lawful

theorem State.intakeLawful_putLane {n : Fin 4} {l : Lane} (hl : (s.lane n).lawful → l.lawful) (h : s.intakeLawful) :
    (s.putLane n l).intakeLawful := by
  intro m
  by_cases hm : n = m
  · subst hm
    rw [State.putLane_lane_same]
    exact hl (h n)
  · rw [State.putLane_lane_other _ _ _ _ hm]
    exact h m

theorem intakeLawful_kept : Kept State.intakeLawful where
  acts := fun _ ha h => by
    cases ha with
    | lane n l hq hs => exact State.intakeLawful_putLane (fun hl => by rw [Lane.lawful, hq]; exact hl) h
    | misc hm =>
      rw [hm.frame]
      exact h
    | _ => exact h
  special hs h := by
    cases hs with
    | lane n l hl => exact State.intakeLawful_putLane hl h
    | _ => exact h
  resets := fun _ _ _ _ => State.intakeLawful_reset rfl
  lost _ _ := State.intakeLawful_reset rfl

theorem FaultRecord.cleared_lawful : FaultRecord.cleared.lawful := ⟨fun _ => ⟨rfl, rfl⟩, Nat.zero_le _⟩

theorem FaultRecord.capture_lawful {r : FaultRecord} {f : FirstFault} (h : r.lawful) : (r.capture f).lawful := by
  unfold FaultRecord.capture
  split
  · exact ⟨nofun, h.2⟩
  · rename_i hf
    exact ⟨fun e => absurd e (by simp [hf]), Nat.min_le_left _ _⟩

theorem faultsLawful_kept : Kept fun s => s.faults.lawful where
  acts := fun _ ha h => by
    cases ha with
    | capture k l a d => exact FaultRecord.capture_lawful h
    | misc hm =>
      rw [hm.frame]
      exact h
    | _ => exact h
  special hs h := by
    cases hs with
    | cleared => exact FaultRecord.cleared_lawful
    | _ => exact h
  resets := fun _ f hf h => by
    rcases hf with rfl | rfl
    · exact FaultRecord.cleared_lawful
    · exact h
  lost _ _ := FaultRecord.cleared_lawful

theorem entryRecorded_kept : Kept State.entryRecorded where
  acts := fun _ ha h => by
    cases ha with
    | withdraw => exact fun _ => rfl
    | misc hm =>
      rw [hm.frame]
      exact h
    | _ => exact h
  special hs h := by
    cases hs with
    | startEnds hc hop op ho =>
      intro e
      rcases ho with rfl | rfl <;> cases e
    | resumed => exact nofun
    | _ => exact h
  device d ho he h := by
    intro e
    exact he ▸ h (ho ▸ e)
  resets := fun _ _ _ _ => nofun
  lost _ _ := nofun

/-! ### Key slots and the resume test -/

theorem State.slotsLawful_putSlot {i : Nat} {k : KeySlot} (hk : (s.slot i).lawful → k.lawful) (h : s.slotsLawful) :
    (s.putSlot i k).slotsLawful := by
  intro j
  rw [State.putSlot_slot]
  split
  · exact hk (h i)
  · exact h j

theorem State.slotsLawful_reset (h : s.slots = Vector.replicate 32 (.free 0)) : s.slotsLawful := fun i => by
  rw [State.slot, h, entryAt_replicate]
  exact KeySlot.free_lawful 0

theorem slotsLawful_kept : Kept State.slotsLawful where
  acts := fun _ ha h => by
    cases ha with
    | slot i k hl hs hk => exact State.slotsLawful_putSlot hl h
    | misc hm =>
      rw [hm.frame]
      exact h
    | _ => exact h
  special hs h := by
    cases hs with
    | opened hc hop i k hk hkey => exact State.slotsLawful_putSlot (s := _) (fun _ => hk) h
    | attached hc hop i k hl hkey => exact State.slotsLawful_putSlot hl h
    | _ => exact h
  resets := fun _ _ _ _ => State.slotsLawful_reset rfl
  lost _ _ := State.slotsLawful_reset rfl

theorem testsWithdrawn_kept : Kept State.testsWithdrawn where
  acts := fun _ ha h => by
    cases ha with
    | withdraw => exact fun _ => rfl
    | misc hm =>
      have ht := hm.test
      intro e
      rw [hm.frame]
      exact h (ht ▸ e)
    | _ => exact h
  special hs h := by
    cases hs with
    | startEnds hc hop op ho =>
      intro e
      exact absurd (hop.symm.trans (h e)) (by decide)
    | tests hop => exact fun _ => hop
    | tested x hx => exact fun e => absurd (hx.symm.trans e) (by decide)
    | resumed hc ht x hx => exact fun e => absurd (hx.symm.trans e) (by decide)
    | _ => exact h
  device d ho _ h := by
    intro e
    exact ho.trans (h e)
  resets := fun _ _ _ _ => nofun
  lost _ _ := nofun

end Sys2Proof.Machine
end

