-- ==== Sys2Proof/Proofs/Laws2.lean ====
section
/-! What one command can do to the operating state, to key slots becoming LIVE, to the meters and to the shared DRAM. -/

namespace Sys2Proof.Machine

variable {b s t u v : State} {c : Instr} {W : Scope}

/-! ### Operating states (R170) -/

/-- Acts change the operating state by a withdrawal from RUNNING alone. -/
theorem Act.op (h : Act W s t) : t.dev.op = s.dev.op ∨ (s.dev.op = .running ∧ t.dev.op = .withdrawn) := by
  cases h with
  | withdraw hop => exact .inr ⟨hop, rfl⟩
  | misc hm =>
    rw [hm.frame]
    exact .inl rfl
  | _ => exact .inl rfl

theorem Reaches.op (h : Reaches W s t) : t.dev.op = s.dev.op ∨ (s.dev.op = .running ∧ t.dev.op = .withdrawn) := by
  induction h with
  | refl => exact .inl rfl
  | tail _ a ih =>
    rcases ih with e | ⟨hs, ht⟩
    · rw [← e]
      exact a.op
    · rcases a.op with e | ⟨hr, -⟩
      · exact .inr ⟨hs, e.trans ht⟩
      · exact absurd (hr.symm.trans ht) (by decide)

/-- In a state without RUNNING, acts leave the operating state. -/
theorem Reaches.op_eq (h : Reaches W s t) (ho : s.dev.op ≠ .running) : t.dev.op = s.dev.op :=
  h.op.resolve_right fun hr => ho hr.1

theorem StartRuns.op (h : StartRuns s t) : t.dev.op = .starting ∨ s.dev.op ≠ .starting :=
  h.keeps (P := fun t => t.dev.op = .starting ∨ s.dev.op ≠ .starting) (or_not_of_imp id)
    fun a hp => hp.imp_left fun e => by
      cases a with
      | act ha => exact (ha.op.resolve_right fun hr => absurd (e.symm.trans hr.1) (by decide)).trans e
      | count => exact e
      | dev d ho => exact ho.trans e
      | levels => exact e

theorem State.start_op (s : State) (cause : StartCause) (x : StartInputs) : (s.start cause x).dev.op = .starting :=
  (start_runs s cause x).op.resolve_right fun h => h rfl

theorem State.pumpCore_dev (s : State) : s.pumpCore.dev = s.dev := by rw [State.pumpCore_frame]

theorem State.close_dev (s : State) (n : Fin 4) (code : ReturnCode) (w13 w14 : Nat) (ended truncated : Bool) :
    (s.close n code w13 w14 ended truncated).dev = s.dev := by rw [State.close_frame]

theorem State.resumeTestEnds_op (s : State) : (s.resumeTestEnds true).pumpCore.dev.op = s.dev.op ∨
    (s.resumeTestEnds true).pumpCore.dev.op = .running := by
  rw [State.pumpCore_dev, State.resumeTestEnds, if_pos rfl]
  dsimp only []
  split
  · exact .inl (congrArg Device.op (State.close_dev ..))
  · exact .inr (congrArg Device.op (State.close_dev ..))

/-- R175: at the end of Resume Service's test the part stays as it is or is RUNNING again. -/
theorem resumeTestEnd_op {e : Env} (htest : s.testsWithdrawn) (h : Answers (.resumeServiceTestEnd e true) s t) :
    t.dev.op = s.dev.op ∨ s.dev.op = .withdrawn ∧ t.dev.op = .running := by
  rw [h.eq_effect nofun, State.finish_dev]
  dsimp only [effectOf]
  split
  · rename_i hc
    exact (State.resumeTestEnds_op _).imp_right fun hr => ⟨htest hc.2, hr⟩
  · exact .inl rfl

theorem State.finish_slot (s : State) (i : Nat) : s.finish.slot i = s.slot i := rfl

/-! ### Slots becoming LIVE (R104, R109) -/

theorem Act.live (h : Act W s t) {i : Nat} (hl : (t.slot i).state = .live) : (s.slot i).state = .live := by
  cases h with
  | slot j k _ hs _ =>
    rw [State.putSlot_slot] at hl
    split at hl
    · rename_i e
      exact e.1 ▸ hs hl
    · exact hl
  | misc hm =>
    have e : t.slots = s.slots := by rw [hm.frame]
    rwa [State.slot, e] at hl
  | _ => exact hl

theorem Reaches.live (h : Reaches W s t) {i : Nat} (hl : (t.slot i).state = .live) : (s.slot i).state = .live := by
  induction h with
  | refl => exact hl
  | tail _ a ih => exact ih (a.live hl)

theorem State.reset_slots_not_live (h : s.slots = Vector.replicate 32 (.free 0)) (i : Nat) : (s.slot i).state ≠ .live := by
  rw [State.slot, h, entryAt_replicate]
  exact nofun

theorem StartRuns.live (h : StartRuns s t) {i : Nat} (hl : (t.slot i).state = .live) : (s.slot i).state = .live := by
  induction h with
  | refl => exact hl
  | tail _ a ih =>
    refine ih ?_
    cases a with
    | act ha => exact ha.live hl
    | _ => exact hl

/-! ### Meters (R180) -/

theorem Meters.le_refl (m : Meters) : Meters.le m m := ⟨le_rfl, le_rfl, le_rfl, le_rfl, le_rfl⟩

theorem Meters.le_trans {m n k : Meters} (h : Meters.le m n) (h' : Meters.le n k) : Meters.le m k :=
  ⟨h.1.trans h'.1, h.2.1.trans h'.2.1, h.2.2.1.trans h'.2.2.1, h.2.2.2.1.trans h'.2.2.2.1, h.2.2.2.2.trans h'.2.2.2.2⟩

/-- The lifetime meters have not fallen. -/
def metersRise (m n : Meters) : Prop := Meters.lawful m → Meters.le m n ∧ Meters.lawful n

theorem metersRise_refl (m : Meters) : metersRise m m := fun h => ⟨Meters.le_refl m, h⟩

theorem metersRise.trans {m n k : Meters} (h : metersRise m n) (h' : metersRise n k) : metersRise m k := fun hm =>
  ⟨Meters.le_trans (h hm).1 (h' (h hm).2).1, (h' (h hm).2).2⟩

theorem Act.meters_rise (h : Act W s t) : metersRise s.stored.meters t.stored.meters := by
  cases h with
  | meters m hm => exact hm
  | misc hm =>
    rw [hm.frame]
    exact metersRise_refl _
  | _ => exact metersRise_refl _

theorem Reaches.meters_rise (h : Reaches W s t) : metersRise s.stored.meters t.stored.meters := by
  induction h with
  | refl => exact metersRise_refl _
  | tail _ a ih => exact ih.trans a.meters_rise

theorem StartRuns.meters_rise (h : StartRuns s t) : metersRise s.stored.meters t.stored.meters := by
  induction h with
  | refl => exact metersRise_refl _
  | tail _ a ih =>
    refine ih.trans ?_
    cases a with
    | act ha => exact ha.meters_rise
    | _ => exact metersRise_refl _

/-- Without a decay of the meter area a command begins with what was stored. -/
theorem State.begin_meters (e : Env) (h : ∀ found, Decay.meters found ∉ e.decayed) : (s.begin e).stored.meters = s.stored.meters := by
  have hfold : ∀ (l : List Decay) (st : Stored), (∀ found, Decay.meters found ∉ l) → (l.foldl Stored.decay st).meters = st.meters := by
    intro l
    induction l with
    | nil => exact fun _ _ => rfl
    | cons d l ih =>
      intro st hl
      have hd : (st.decay d).meters = st.meters := by
        cases d with
        | meters found => exact absurd List.mem_cons_self (hl found)
        | _ => rfl
      rw [List.foldl_cons, ih _ fun found hf => hl found (List.mem_cons_of_mem _ hf), hd]
  exact hfold _ _ h

theorem effect_meters_rise (h : Effect c s t) (hc : ∀ n, c ≠ .lossOfPower n) :
    metersRise (s.begin c.env).stored.meters t.stored.meters := by
  cases h with
  | lost n e => exact absurd e (hc n)
  | started cause x _ f _ =>
    rw [State.finish_stored]
    exact (start_runs { s.begin c.env with faults := f } cause x).meters_rise
  | ran e h =>
    obtain ⟨u, v, hbu, huv, hvt⟩ := h
    have huv' : v.stored = u.stored := huv.durable.1
    exact hbu.meters_rise.trans (huv' ▸ hvt.meters_rise)

/-! ### The shared DRAM -/

theorem Act.mem_read (h : Act W s t) (hwf : s.mem.wf) : t.mem.wf ∧ ∀ x, t.mem.read x = s.mem.read x ∨ W.bytes x (t.mem.read x) := by
  cases h with
  | mem m hm hb => exact ⟨hm hwf, hb hwf⟩
  | misc hm =>
    rw [hm.frame]
    exact ⟨hwf, fun _ => .inl rfl⟩
  | _ => exact ⟨hwf, fun _ => .inl rfl⟩

theorem Reaches.mem_read (h : Reaches W s t) (hwf : s.mem.wf) :
    t.mem.wf ∧ ∀ x, t.mem.read x = s.mem.read x ∨ W.bytes x (t.mem.read x) := by
  induction h with
  | refl => exact ⟨hwf, fun _ => .inl rfl⟩
  | tail _ a ih =>
    obtain ⟨hu, hx⟩ := ih
    obtain ⟨ht, hy⟩ := a.mem_read hu
    refine ⟨ht, fun x => ?_⟩
    rcases hy x with e | hb
    · rw [e]
      exact hx x
    · exact .inr hb

theorem StartRuns.mem_eq (h : StartRuns s t) (hwf : s.mem.wf) : t.mem.wf ∧ ∀ x, t.mem.read x = s.mem.read x := by
  induction h with
  | refl => exact ⟨hwf, fun _ => rfl⟩
  | tail _ a ih =>
    obtain ⟨hu, hx⟩ := ih
    cases a with
    | act ha =>
      obtain ⟨ht, hy⟩ := ha.mem_read hu
      exact ⟨ht, fun x => ((hy x).resolve_right id).trans (hx x)⟩
    | _ => exact ⟨hu, hx⟩

/-- R100, R161, R163: a byte of memory a command changes is promised, or is one of the band or record being written. -/
theorem effect_mem_read (h : Effect c s t) (hc : ∀ n, c ≠ .lossOfPower n) (hwf : s.mem.wf) (x : Nat) :
    t.mem.read x = (s.begin c.env).mem.read x ∨ (s.begin c.env).promised x ∨ (s.begin c.env).bandByte c x (t.mem.read x) := by
  have hb : (s.begin c.env).mem.wf := Memory.storeAll_wf _ _ hwf
  cases h with
  | lost n e => exact absurd e (hc n)
  | started cause y _ f _ =>
    rw [State.finish_mem]
    exact .inl ((start_runs { s.begin c.env with faults := f } cause y).mem_eq hb |>.2 x)
  | ran e h =>
    obtain ⟨u, v, hbu, huv, hvt⟩ := h
    obtain ⟨hu, hux⟩ := hbu.mem_read hb
    have hv : v.mem = u.mem := huv.durable.2.1
    obtain ⟨-, htx⟩ := hvt.mem_read (hv ▸ hu)
    rcases htx x with e | hg
    · refine (hux x).imp (fun e' => e.trans (hv ▸ e')) fun hg => ?_
      have hg := hg hb
      rw [hv] at e
      rwa [State.finish, e]
    · exact .inr (hg hb)

/-! ### The waiting commands -/

theorem Special.pending (h : Special c s t) : t.pending = s.pending := by cases h <;> rfl

theorem StartRuns.pending (h : StartRuns s t) : t.pending = s.pending := by
  induction h with
  | refl => rfl
  | tail _ a ih =>
    rw [← ih]
    cases a with
    | act ha => exact ha.pending
    | _ => rfl

/-- A command leaves the commands that wait behind it, and the environment calm. -/
theorem effect_leaves (h : Effect c s t) (he : s.env = .calm) : t.pending = s.pending ∧ t.env = .calm := by
  cases h with
  | lost n hc =>
    split
    · exact ⟨rfl, he⟩
    · exact ⟨rfl, he⟩
  | started cause x hc f hf =>
    rw [State.finish_pending]
    exact ⟨(start_runs { s.begin c.env with faults := f } cause x).pending, rfl⟩
  | ran e hr =>
    obtain ⟨u, v, hbu, huv, hvt⟩ := hr
    exact ⟨hvt.pending.trans (huv.pending.trans hbu.pending), rfl⟩

end Sys2Proof.Machine
end

