-- ==== Sys2Proof/Proofs/P1.lean ====
section
/-! The obligations settled by what every command is made of. -/

namespace Sys2Proof.Proofs

open Sys2Proof.Machine

/-- Settles O2: every command answers its effect in the frame of a command, or the loss of power. -/
theorem everyCommandCompletes : Obligations.EveryCommandCompletes := by
  intro c s he
  have hanswer : ∃ t, Answers c s t := by
    by_cases hc : ∀ n, c ≠ .lossOfPower n
    · exact ⟨_, answers_effect s hc⟩
    · obtain ⟨n, rfl⟩ := not_forall_not.mp hc
      exact ⟨_, rfl⟩
  obtain ⟨t, ht⟩ := hanswer
  exact ⟨t, ht, effect_leaves (exec_effect ht) he⟩

/-- Settles O54: memory changes by writes of bytes alone, each of which keeps the canonical form. -/
theorem stepKeepsMemoryCanonical : Obligations.StepKeepsMemoryCanonical := fun _ _ h hs => memoryCanonical_kept.step hs h

/-- Settles O55, act by act; every command is a run of acts, a start or a loss of power. -/
theorem stepKeepsSupplyLaws : Obligations.StepKeepsSupplyLaws := fun _ _ h =>
  ⟨listLawful_kept.step h, cartridgesLawful_kept.step h, queueLawful_kept.step h⟩

/-- Settles O56, act by act; every command is a run of acts, a start or a loss of power. -/
theorem stepKeepsDeviceLaws : Obligations.StepKeepsDeviceLaws := fun _ _ h =>
  ⟨settingsLawful_kept.step h, intakeLawful_kept.step h, faultsLawful_kept.step h, entryRecorded_kept.step h⟩

/-- Settles O58: of the acts, a withdrawal alone changes the operating state; the rest are the acts of START_END and of a passed test. -/
theorem operatingStateTransitions : Obligations.OperatingStateTransitions := by
  intro c s t htest h
  have heffect := exec_effect h
  cases heffect with
  | lost n hc =>
    by_cases hp : s.power = true
    · rw [if_pos hp]
      exact .inr (.inl ⟨rfl, .inr (.inr (.inr ⟨n, hc⟩))⟩)
    · rw [if_neg hp]
      exact .inl rfl
  | started cause x hc f hf =>
    rw [State.finish_dev]
    refine .inr (.inl ⟨State.start_op _ _ _, ?_⟩)
    cases hc with
    | powerOn e => exact .inl ⟨e, x, rfl⟩
    | release e => exact .inr (.inl ⟨e, x, rfl⟩)
    | restart e v => exact .inr (.inr (.inl ⟨e, v, x, rfl⟩))
  | ran e hr =>
    obtain ⟨u, v, hbu, huv, hvt⟩ := hr
    have hb : (s.begin c.env).dev.op = s.dev.op := rfl
    have hplain : v.dev.op = u.dev.op → e.dev.op = s.dev.op ∨ (s.dev.op = .running ∧ e.dev.op = .withdrawn) := by
      intro hv
      rcases hbu.op with hu | ⟨hr, hu⟩
      · rcases hvt.op with he | ⟨hr, he⟩
        · exact .inl (he.trans (hv.trans (hu.trans hb)))
        · exact .inr ⟨hb ▸ hu ▸ hv ▸ hr, he⟩
      · have hne : v.dev.op ≠ .running := by rw [hv, hu]; decide
        exact .inr ⟨hr, (hvt.op_eq hne).trans (hv.trans hu)⟩
    cases huv with
    | startEnds hc hop op ho =>
      refine .inr (.inr (.inl ⟨?_, _, hc⟩))
      rcases hbu.op with hu | ⟨-, hu⟩
      · exact hu.symm.trans hop
      · exact absurd (hop.symm.trans hu) (by decide)
    | resumed hc ht x hx =>
      subst hc
      exact (resumeTestEnd_op htest h).imp_right fun h => .inr (.inr (.inr ⟨h.1, h.2, _, rfl⟩))
    | _ => exact (hplain rfl).imp_right fun h => .inr (.inr (.inl h))

/-- Settles O59: no act makes a slot LIVE that was not; Open Slot's and Attach Slot's own acts are those of a RUNNING part. -/
theorem slotsBecomeLiveByTicket : Obligations.SlotsBecomeLiveByTicket := by
  intro c s t i h hl
  have heffect := exec_effect h
  cases heffect with
  | lost n hc =>
    split at hl
    · exact absurd hl (State.reset_slots_not_live rfl i)
    · exact .inl hl
  | started cause x hc f hf =>
    rw [State.finish_slot] at hl
    exact absurd ((start_runs { s.begin c.env with faults := f } cause x).live hl) (State.reset_slots_not_live rfl i)
  | ran e hr =>
    obtain ⟨u, v, hbu, huv, hvt⟩ := hr
    have hv : (v.slot i).state = .live := hvt.live hl
    have hrunning : u.dev.op = .running → s.dev.op = .running := by
      intro hu
      rcases hbu.op with e | ⟨-, e⟩
      · exact e.symm.trans hu
      · exact absurd (hu.symm.trans e) (by decide)
    cases huv with
    | opened hc hop j k hk hkey => exact .inr ⟨hrunning hop, _, .inl hc⟩
    | attached hc hop j k hl hkey => exact .inr ⟨hrunning hop, _, .inr hc⟩
    | _ => exact .inl (hbu.live hv)

/-- Settles O60: the acts that write the meter area raise the meters. -/
theorem metersNeverDecrease : Obligations.MetersNeverDecrease := by
  intro c s t hc h
  have hrise := effect_meters_rise (exec_effect h) hc
  refine ⟨hrise, fun hd hs => ?_⟩
  rw [State.begin_meters c.env hd] at hrise
  exact (hrise hs).1

end Sys2Proof.Proofs
end

