-- ==== Sys2Proof/Proofs/Arith.lean ====
section
/-! The check byte (R136) and the ranges of metering (R47 to R55). -/

namespace Sys2Proof.Machine

/-! ### The check byte -/

/-- The shift of the check register, undone. -/
def crcUnshift (r : Byte) : Byte := if r.getLsbD 0 then ((r ^^^ 0x07) >>> 1) ||| 0x80 else r >>> 1

theorem crcUnshift_crcShift : ∀ r : Byte, crcUnshift (crcShift r) = r := by decide

theorem crcShift_injective : Function.Injective crcShift := Function.LeftInverse.injective crcUnshift_crcShift

theorem crcByte_injective {r r' b b' : Byte} (h : crcByte r b = crcByte r' b') : r ^^^ b = r' ^^^ b' :=
  crcShift_injective (crcShift_injective (crcShift_injective (crcShift_injective (crcShift_injective
    (crcShift_injective (crcShift_injective (crcShift_injective h)))))))

theorem crcByte_self (r : Byte) : crcByte r r = 0 := by
  unfold crcByte
  rw [BitVec.xor_self]
  decide

theorem xor_left_cancel {r b b' : Byte} (h : r ^^^ b = r ^^^ b') : b = b' := by
  have := congrArg (r ^^^ ·) h
  simpa [← BitVec.xor_assoc] using this

/-- Two registers that a run of bytes leaves equal were equal before it. -/
theorem foldl_crcByte_injective {r r' : Byte} (l : List Byte) (h : l.foldl crcByte r = l.foldl crcByte r') : r = r' := by
  induction l generalizing r r' with
  | nil => exact h
  | cons b l ih =>
    have hb := crcByte_injective (ih h)
    rw [BitVec.xor_comm r, BitVec.xor_comm r'] at hb
    exact xor_left_cancel hb

/-- One byte altered leaves another register. -/
theorem crc8_set_ne {l : List Byte} {i : Nat} {b : Byte} (hi : i < l.length) (hb : b ≠ l.getD i 0) : crc8 (l.set i b) ≠ crc8 l := by
  have hl : l = l.take i ++ l.getD i 0 :: l.drop (i + 1) := by
    rw [List.getD_eq_getElem _ _ hi, List.getElem_cons_drop, List.take_append_drop]
  intro h
  rw [List.set_eq_take_append_cons_drop, if_pos hi] at h
  conv at h => rhs; rw [hl]
  rw [crc8, crc8, List.foldl_append, List.foldl_append, List.foldl_cons, List.foldl_cons] at h
  exact hb (xor_left_cancel (crcByte_injective (foldl_crcByte_injective _ h)))

/-! ### Metering -/

theorem weight_le {t : Curve} (h : ∀ i, t.point i ≤ 4095) (level : Nat) : weight t level ≤ 4095 := by
  unfold weight
  dsimp only []
  have hf : level % 16 < 16 := Nat.mod_lt _ (by decide)
  have h1 : t.point (level / 16) * (16 - level % 16) ≤ 4095 * (16 - level % 16) := Nat.mul_le_mul_right _ (h _)
  have h2 : t.point (level / 16 + 1) * (level % 16) ≤ 4095 * (level % 16) := Nat.mul_le_mul_right _ (h _)
  omega

theorem coverageOf_le {sum pixels lines : Nat} (h : sum ≤ pixels * lines * 4095) : coverageOf sum pixels lines ≤ 10000 := by
  unfold coverageOf
  split
  · exact Nat.zero_le _
  · exact Nat.div_le_of_le_mul (Nat.mul_le_mul_right _ h)

theorem chargeOf_mono {r m m' : Nat} (h : m ≤ m') : chargeOf r m ≤ chargeOf r m' := by
  have hm : r * m ≤ r * m' := Nat.mul_le_mul_left _ h
  unfold chargeOf
  omega

theorem TierTable.mult_le_max (t : TierTable) (tier : Nat) : t.mult tier ≤ t.maxMult := by
  unfold TierTable.mult TierTable.maxMult
  split <;> omega

theorem PrintCapture.hold_le (c : PrintCapture) (declared : Bool) : c.hold declared ≤ 65535 := by
  unfold PrintCapture.hold chargeOf
  dsimp only []
  split <;> omega

/-- R54, R55: the charge of a delivered page is one of those whose largest is held. -/
theorem meter_charge_le (c : PrintCapture) (declared : Bool) (pixels : Nat) (sums counts : PerPlane Nat) (delivered : Bool) :
    (meter c declared pixels sums counts delivered).charge ≤ c.hold declared := by
  have hmono : ∀ tier, chargeOf c.rateMono (c.tierMono.mult tier) ≤ chargeOf c.rateMono c.tierMono.maxMult :=
    fun tier => chargeOf_mono (c.tierMono.mult_le_max tier)
  have hcolour : ∀ tier, chargeOf c.rateColour (c.tierColour.mult tier) ≤ chargeOf c.rateColour c.tierColour.maxMult :=
    fun tier => chargeOf_mono (c.tierColour.mult_le_max tier)
  have hhold : chargeOf c.rateMono c.tierMono.maxMult ≤ c.hold declared := by
    unfold PrintCapture.hold
    dsimp only []
    split
    · exact Nat.le_max_left _ _
    · exact Nat.le_refl _
  unfold meter
  dsimp only []
  cases delivered with
  | false => exact Nat.zero_le _
  | true =>
    rw [if_pos rfl]
    split
    · rename_i hb
      have hd : declared = true := (Bool.and_eq_true_iff.mp hb).1
      refine (hcolour _).trans ?_
      rw [hd, PrintCapture.hold, if_pos rfl]
      exact Nat.le_max_right _ _
    · exact (hmono _).trans hhold

/-! ### Bands under the core -/

/-- A band with other tag bytes than its own is refused. -/
theorem decipherBand_other_tag {key : BitVec 256} {nonce : Config.Nonce} {plain tag : List Byte} (hl : tag.length = 16)
    (ht : tag ≠ tagBytes (Config.cipherCore.tag key nonce plain)) :
    decipherBand key nonce (Config.cipherCore.cipher key nonce plain ++ tag) = none := by
  rw [decipherBand_append _ _ _ _ hl, Config.cipherCore.plain_cipher, if_neg (Ne.symm ht)]

/-- A band with one byte altered, of its ciphertext or of its tag, is refused. -/
theorem decipherBand_set {key : BitVec 256} {nonce : Config.Nonce} {plain : List Byte} {i : Nat} {x : Byte}
    (hi : i < plain.length + 16) (hx : x ≠ (encipherBand key nonce plain).getD i 0) :
    decipherBand key nonce ((encipherBand key nonce plain).set i x) = none := by
  let c := Config.cipherCore.cipher key nonce plain
  let tag := tagBytes (Config.cipherCore.tag key nonce plain)
  have hc : c.length = plain.length := Config.cipherCore.cipher_length ..
  have htag : tag.length = 16 := tagBytes_length _
  change x ≠ (c ++ tag).getD i 0 at hx
  change decipherBand key nonce ((c ++ tag).set i x) = none
  rw [List.set_append]
  split
  · rename_i hlt
    rw [List.getD_append _ _ _ _ hlt] at hx
    rw [decipherBand_append _ _ _ _ htag, if_neg]
    intro h
    have h := tagBytes_injective h
    refine Config.cipherCore.tag_altered key nonce c i x hlt hx ?_
    rw [h, Config.cipherCore.plain_cipher]
  · rename_i hge
    have hge := Nat.le_of_not_lt hge
    rw [List.getD_append_right _ _ _ _ hge] at hx
    refine decipherBand_other_tag (by rw [List.length_set, htag]) fun h => hx ?_
    have hj : i - c.length < tag.length := by omega
    have hset : (tag.set (i - c.length) x).getD (i - c.length) 0 = x := by
      rw [List.getD_eq_getElem _ _ (by rwa [List.length_set]), List.getElem_set_self]
    rw [h] at hset
    exact hset.symm

end Sys2Proof.Machine

namespace Sys2Proof.Proofs

open Sys2Proof.Machine

/-- Settles O1: the two branches of the step. -/
theorem stepTakesFrontCommand : Obligations.StepTakesFrontCommand :=
  ⟨fun c rest s h => by unfold step; rw [h], fun s h => by unfold step; rw [h]⟩

/-- Settles O50: a step of the register is a bijection of register and byte, so a wrong byte stays visible to the end. -/
theorem checkByteDetectsErrors : Obligations.CheckByteDetectsErrors := by
  intro bytes
  have hresidue : crc8 (bytes ++ [crc8 bytes]) = 0 := by
    rw [crc8, List.foldl_append]
    exact crcByte_self _
  refine ⟨hresidue, fun i e hi he h => ?_⟩
  refine crc8_set_ne (l := bytes ++ [crc8 bytes]) (by simpa using hi) ?_ (h.trans hresidue.symm)
  intro hx
  have := congrArg ((bytes ++ [crc8 bytes]).getD i 0 ^^^ ·) hx
  simp only [← BitVec.xor_assoc, BitVec.xor_self, BitVec.zero_xor] at this
  exact he this

/-- Settles O51 from the laws of the core: what separates nonces, keys and altered bytes separates tags. -/
theorem decipherInvertsEncipher : Obligations.DecipherInvertsEncipher := by
  refine ⟨fun key nonce plain tag => ⟨?_, ?_, fun hl ht => ?_, fun key' nonce' hn => ?_, fun i x hi hx => ?_⟩,
    fun d e nonce nonce' plain hd he hne => ?_⟩
  · rw [encipherBand, decipherBand_append _ _ _ _ (tagBytes_length _), Config.cipherCore.plain_cipher, if_pos rfl]
  · rw [encipherBand, List.length_append, Config.cipherCore.cipher_length, tagBytes_length]
  · exact decipherBand_other_tag hl ht
  · by_contra h
    obtain ⟨out, hout⟩ := Option.ne_none_iff_exists'.mp h
    obtain ⟨q, hq⟩ := tag_of_match hout
    exact hn (Config.cipherCore.tag_nonce _ _ _ _ _ _ hq)
  · exact decipherBand_set hi hx
  · by_contra h
    obtain ⟨out, hout⟩ := Option.ne_none_iff_exists'.mp h
    obtain ⟨q, hq⟩ := tag_of_match hout
    exact hne (Config.secrets.tag_key _ _ _ _ _ _ he hd hq).symm

/-- Settles O52. -/
theorem meteringStaysInRange : Obligations.MeteringStaysInRange :=
  ⟨fun t level _ => weight_le (Curve.clamped_point t) level, fun _ _ _ => coverageOf_le,
    fun c declared pixels sums counts delivered =>
      ⟨meter_charge_le c declared pixels sums counts delivered, c.hold_le declared, fun h => by rw [h]; rfl, fun h => by rw [h]; rfl⟩⟩

/-- Settles O53: every law of a reset table, path and store. -/
theorem resetIsLawful : Obligations.ResetIsLawful := by
  have hjob : ∀ i, State.reset.job i = .freed 0 := fun i => entryAt_replicate 32 i _
  have hslot : ∀ i, State.reset.slot i = .free 0 := fun i => entryAt_replicate 32 i _
  have hlane : ∀ n : Fin 4, State.reset.lane n = .reset := by decide
  have hbuffer : ∀ i, State.reset.buffer i = .erased := fun i => entryAt_replicate 2 i _
  have hrecord : ∀ n, State.reset.record n = .vacant := fun n => entryAt_replicate 512 n _
  have hacct : ∀ n, State.reset.acct n = .reset := fun n => entryAt_replicate 512 n _
  have hquota : Stored.factory.quotaKept := fun n _ _ _ => by
    have : entryAt Stored.factory.accounts n .vacant = .vacant := entryAt_replicate 512 n _
    rw [this]
    exact Nat.le_refl _
  refine ⟨⟨Memory.empty_wf, Memory.empty_wf, nofun⟩, State.intakeLawful_reset rfl,
    ⟨⟨by decide, by decide⟩, ⟨by decide, by decide⟩, nofun⟩, State.cartridgesLawful_reset rfl, State.queueLawful_reset rfl,
    ⟨Settings.factory_lawful, Settings.factory_lawful, nofun⟩, FaultRecord.cleared_lawful, nofun, State.slotsLawful_reset rfl,
    fun _ => ⟨rfl, rfl, rfl, rfl, rfl, rfl, fun n => by rw [hlane]; rfl⟩, nofun, ⟨⟨?_, ?_⟩, ⟨?_, hquota, nofun⟩, fun _ => ⟨?_, ?_⟩⟩,
    ⟨?_, ?_, ?_⟩, ⟨fun i => i.val, ?_, ?_⟩, fun _ => ⟨rfl, rfl⟩, ⟨?_, ?_, nofun, nofun, nofun, nofun⟩⟩
  · intro n _
    have hfree : (Job.freed 0).reservedFor n = 0 := if_neg fun h => h.1 rfl
    rw [hacct]
    simp [State.reset, hfree, AccountVolatile.reset]
  · intro i
    rw [hjob]
    exact ⟨fun _ => rfl, fun _ => rfl⟩
  · intro n _ _
    rw [hacct, hrecord]
    exact Nat.le_refl _
  · refine ⟨fun h => absurd rfl h, fun h => ?_, fun i h => ?_⟩
    · rcases h with h | h | h <;> cases h
    · rw [hjob] at h
      cases h
  · refine ⟨fun h => absurd rfl h, nofun, fun i h => ?_, nofun, nofun, fun _ => ⟨fun i _ => ?_, rfl, nofun⟩⟩
    · rw [hjob] at h
      cases h
    · rw [hbuffer]
      rfl
  · intro i _ h
    rw [hslot] at h
    cases h
  · intro j h hh
    rw [hjob] at hh
    cases hh
  · intro j
    rw [hjob]
    exact ⟨List.nodup_nil, Nat.zero_le _⟩
  · intro i key h
    rw [hslot] at h
    cases h
  · intro i j hij h
    exact fun _ e => hij (Fin.ext e)
  · intro i _ h
    rw [hbuffer] at h
    cases h
  · intro i _ h
    rw [hbuffer] at h
    rcases h with h | h <;> cases h

end Sys2Proof.Proofs
end

