-- ==== Sys2Proof/Proofs/Window.lean ====
section
/-! The register window, the fetch (R157, R159), and a close whose words may fail (R161). -/

namespace Sys2Proof.Machine

variable {s t u b : State} {c : Instr}

/-! ### Answers as effects -/

theorem answers_iff (hc : ∀ n, c ≠ .lossOfPower n) : Answers c s t ↔ t = (effectOf c (s.begin c.env)).finish :=
  ⟨fun h => h.eq_effect hc, fun h => h ▸ answers_effect s hc⟩

theorem State.whenAlive_of (s : State) (h : s.alive = true) (f : State → State) : s.whenAlive f = f s := if_pos h

theorem State.whenUp_of (s : State) (h : s.up = true) (f : State → State) : s.whenUp f = f s := if_pos h

/-! ### Post -/

/-- R157: the three causes of a drop. -/
theorem State.postDropped_iff (s : State) (v : Word) (lane : Fin 4) :
    s.postDropped v lane = true ↔ v.toNat / 4 % 16 ≠ 0 ∨ v.toNat / 64 = 0 ∨ 8 ≤ (s.lane lane).queue.length := by
  simp [State.postDropped, bits, Nat.shiftRight_eq_div_pow, or_assoc]

theorem postLane_eq {v : Word} {lane : Fin 4} (h : lane.val = v.toNat % 4) : postLane v = lane := Fin.ext h.symm

/-! ### Closes -/

theorem State.writeTicketWord_eq (s : State) (lane : Fin 4) (a : Nat) (w : Word) : s.writeTicketWord lane a w = s.wordClosed lane a w := by
  rw [State.wordClosed]
  rcases s.writeTicketWord_cases lane a w with ⟨h, e⟩ | ⟨h, e⟩
  · rw [e, if_pos h]
  · rw [e, if_neg (by simp [h])]
    rfl

theorem State.wordClosed_setLanes (L : Vector Lane 4) (lane : Fin 4) (a : Nat) (w : Word) :
    (s.setLanes L).wordClosed lane a w = (s.wordClosed lane a w).setLanes L := by
  unfold State.wordClosed
  have he : (s.setLanes L).env = s.env := rfl
  rw [he]
  split <;> rfl

theorem State.wordClosed_lanes (lane : Fin 4) (a : Nat) (w : Word) : (s.wordClosed lane a w).lanes = s.lanes := by
  unfold State.wordClosed
  split <;> rfl

/-- The three words of a closing ticket, each stored or captured. -/
def State.wordsClosed (s : State) (lane : Fin 4) (a : Nat) (code : ReturnCode) (w13 w14 : Nat) : State :=
  ((s.wordClosed lane (a + 52) (BitVec.ofNat 32 w13)).wordClosed lane (a + 56) (BitVec.ofNat 32 w14)).wordClosed
    lane (a + 60) (closingWord 3 code.code s.epoch false false)

theorem State.wordsClosed_lanes (s : State) (lane : Fin 4) (a : Nat) (code : ReturnCode) (w13 w14 : Nat) :
    (s.wordsClosed lane a code w13 w14).lanes = s.lanes := by
  rw [State.wordsClosed, State.wordClosed_lanes, State.wordClosed_lanes, State.wordClosed_lanes]

theorem State.wordsClosed_setLanes (s : State) (L : Vector Lane 4) (lane : Fin 4) (a : Nat) (code : ReturnCode) (w13 w14 : Nat) :
    (s.setLanes L).wordsClosed lane a code w13 w14 = (s.wordsClosed lane a code w13 w14).setLanes L := by
  rw [State.wordsClosed, State.wordClosed_setLanes, State.wordClosed_setLanes, State.wordClosed_setLanes]
  rfl

/-- What is left once the words are closed. -/
theorem State.closedAnyhow_eq (s : State) (lane : Fin 4) (k : Ticket) (code : ReturnCode) (w13 w14 : Nat) :
    s.closedAnyhow lane k code w13 w14 =
      (((s.wordsClosed lane k.address code w13 w14).raise (.closed lane)).setLanes
        (s.lanes.set lane { s.lane lane with service := none })).finish := by
  have hl := s.wordsClosed_lanes lane k.address code w13 w14
  have hunfold : s.closedAnyhow lane k code w13 w14 =
      (((s.wordsClosed lane k.address code w13 w14).raise (.closed lane)).setLanes
        ((s.wordsClosed lane k.address code w13 w14).lanes.set lane
          { (s.wordsClosed lane k.address code w13 w14).lane lane with service := none })).finish := by
    unfold State.closedAnyhow
    dsimp only []
    rw [← State.wordsClosed]
    generalize s.wordsClosed lane k.address code w13 w14 = c
    rfl
  rw [hunfold, State.lane, hl]
  rfl

theorem State.wordClosed_epoch (lane : Fin 4) (a : Nat) (w : Word) : (s.wordClosed lane a w).epoch = s.epoch := by
  unfold State.wordClosed
  split <;> rfl

theorem State.closeWords_eq (s : State) (lane : Fin 4) (a : Nat) (code : ReturnCode) (w13 w14 : Nat) :
    s.closeWords lane a code w13 w14 false false = s.wordsClosed lane a code w13 w14 := by
  simp only [State.closeWords, State.wordsClosed, State.writeTicketWord_eq, State.wordClosed_epoch]

/-- R161: a close, whatever writes of the ticket's words fail. -/
theorem State.close_anyhow {lane : Fin 4} {k : Ticket} (h : (s.lane lane).service = some k) (code : ReturnCode) (w13 w14 : Nat) :
    (s.close lane code w13 w14).finish = s.closedAnyhow lane k code w13 w14 := by
  have hl := s.wordsClosed_lanes lane k.address code w13 w14
  rw [State.closedAnyhow_eq, State.close, h]
  simp only [State.closeWords_eq]
  rw [State.lane, ← hl]
  generalize s.wordsClosed lane k.address code w13 w14 = c
  rfl

/-- What the lane held in service plays no part in what a close leaves. -/
theorem State.closedAnyhow_putLane (s : State) (lane : Fin 4) (l : Lane) (k : Ticket) (code : ReturnCode) (w13 w14 : Nat)
    (hq : l.queue = (s.lane lane).queue) :
    (s.putLane lane l).closedAnyhow lane k code w13 w14 = s.closedAnyhow lane k code w13 w14 := by
  have hp : s.putLane lane l = s.setLanes (s.lanes.set lane l) := rfl
  have hl : ({ l with service := none } : Lane) = { s.lane lane with service := none } := congrArg (Lane.mk · none) hq
  rw [State.closedAnyhow_eq, State.closedAnyhow_eq, State.putLane_lane_same, hl, hp, State.wordsClosed_setLanes]
  have hset : (s.lanes.set lane l).set lane { queue := (s.lane lane).queue, service := none } =
      s.lanes.set lane { queue := (s.lane lane).queue, service := none } := Vector.set_set ..
  exact congrArg (fun L => (((s.wordsClosed lane k.address code w13 w14).raise (.closed lane)).setLanes L).finish) hset

theorem State.answered_putLane (s : State) (lane : Fin 4) (l : Lane) (k : Ticket) (code : ReturnCode) (w13 w14 : Nat)
    (hq : l.queue = (s.lane lane).queue) :
    (s.putLane lane l).answered lane k code w13 w14 = s.answered lane k code w13 w14 := by
  have hl : ({ l with service := none } : Lane) = { s.lane lane with service := none } := congrArg (Lane.mk · none) hq
  have hset : (s.putLane lane l).answered lane k code w13 w14 =
      (s.answered lane k code w13 w14).setLanes ((s.lanes.set lane l).set lane { (s.putLane lane l).lane lane with service := none }) := rfl
  rw [hset, State.putLane_lane_same, hl, Vector.set_set]
  rfl

/-! ### The fetch -/

variable {lane : Fin 4} {a : Nat} {rest : List Nat}

/-- R159: a lane without a ticket in service takes the head of its queue. -/
theorem State.takeFetch_some (h : s.lane lane = { queue := a :: rest, service := none }) :
    s.takeFetch lane = (s.putLane lane { queue := rest, service := none }).fetchTicket lane a := by
  unfold State.takeFetch
  rw [h]

theorem State.fetchTicket_unread {e : Nat} (h : s.readWords a 16 = .error e) :
    s.fetchTicket lane a = (s.captureMemory .memoryRead lane.val e).leaveService lane := by
  unfold State.fetchTicket
  rw [h]

/-- R159: a ticket that has been read is stale, refused, or marked ACTIVE. -/
theorem State.fetchTicket_read {ws : List Word} (h : s.readWords a 16 = .ok ws) {k : Ticket} (hk : k = { address := a, words := ws, begun := false })
    {taken : State} (ht : taken = s.putLane lane { s.lane lane with service := some k }) :
    (bits (k.w 15) 1 0 ≠ 1 → s.fetchTicket lane a = (taken.raise .stale).leaveService lane) ∧
      (bits (k.w 15) 1 0 = 1 → ∀ d, k.fetchRefusal lane = some d → s.fetchTicket lane a = taken.close lane .badTicket 0 d) ∧
      (bits (k.w 15) 1 0 = 1 → k.fetchRefusal lane = none → s.fetchTicket lane a = taken.markActive lane k) := by
  subst hk ht
  unfold State.fetchTicket
  rw [h]
  dsimp only []
  refine ⟨fun hstale => if_pos hstale, fun hfresh d hd => ?_, fun hfresh hd => ?_⟩
  · rw [if_neg (not_not.mpr hfresh), hd]
  · rw [if_neg (not_not.mpr hfresh), hd]

/-- A lane set and then left. -/
theorem State.leaveService_eq {v : State} {L : Vector Lane 4} {l : Lane} (h : v.lanes = L.set lane l) :
    v.leaveService lane = v.setLanes (L.set lane { l with service := none }) := by
  have hl : v.lane lane = l := by
    rw [State.lane, h]
    simp [Vector.get_eq_getElem]
  have hset : v.lanes.set lane { l with service := none } = L.set lane { l with service := none } := by
    rw [h]
    exact Vector.set_set ..
  rw [State.leaveService, hl]
  exact congrArg v.setLanes hset

/-- R156, R159: a ticket to be marked ACTIVE. -/
theorem State.markActive_cases (s : State) (lane : Fin 4) (k : Ticket) :
    s.markActive lane k =
      if wordFails s.env.badWrites (k.address + 60) = true then
        (s.captureMemory .memoryWrite lane.val (wrapAddress (k.address + 60))).leaveService lane
      else s.setMem (s.mem.putWord (k.address + 60) (closingWord 2 0 s.epoch false false)) := by
  unfold State.markActive
  rcases s.writeWord_cases (k.address + 60) (closingWord 2 0 s.epoch false false) with ⟨h, e⟩ | ⟨h, e⟩
  · rw [e, if_pos h]
  · rw [e, if_neg (by simp [h])]

theorem Ticket.fetchRefusal_unknown {k : Ticket} (h : k.kind = none) (lane : Fin 4) : k.fetchRefusal lane = some 1 := by
  rw [Ticket.fetchRefusal, h]

theorem Ticket.fetchRefusal_known {k : Ticket} {kind : TicketKind} (h : k.kind = some kind) (lane : Fin 4) :
    k.fetchRefusal lane = if kind.lane ≠ lane ∨ k.echo ≠ lane.val then some 2 else none := by
  rw [Ticket.fetchRefusal, h]

end Sys2Proof.Machine

namespace Sys2Proof.Proofs

open Sys2Proof.Machine

/-- Settles O3: a post to a part that is held is lost; to one that is alive it is dropped or joins the queue. -/
theorem postQueuesOrDrops : Obligations.PostQueuesOrDrops := by
  intro v s lane hlane
  refine ⟨fun halive => ?_, fun halive => ?_⟩
  · rw [answers_iff (c := .post v) nofun]
    exact congrArg State.finish (if_neg (by simp [halive]) : effectOf (.post v) (s.begin .calm) = s.begin .calm).symm
  · have heffect : effectOf (.post v) (s.begin .calm) = (s.begin .calm).takePost v := if_pos halive
    split
    · rename_i hdrop
      have hd : (s.begin .calm).postDropped v lane = true := (State.postDropped_iff _ _ _).mpr hdrop
      rw [answers_iff (c := .post v) nofun]
      have : (s.begin .calm).takePost v = (s.begin .calm).raise (.dropped lane) := by
        unfold State.takePost
        rw [postLane_eq hlane, if_pos hd]
      exact congrArg State.finish (heffect.trans this).symm
    · rename_i hdrop
      have hd : ¬(s.begin .calm).postDropped v lane = true := fun h => hdrop ((State.postDropped_iff _ _ _).mp h)
      rw [answers_iff (c := .post v) nofun]
      have : (s.begin .calm).takePost v = (s.begin .calm).putLane lane
          { s.lane lane with queue := (s.lane lane).queue ++ [v.toNat / 64 * 64] } := by
        unfold State.takePost
        rw [postLane_eq hlane, if_neg hd]
        rfl
      rw [Nat.mul_comm 64]
      exact congrArg State.finish (heffect.trans this).symm

/-- Settles O7: the fetch takes the head of the queue, and ends as the words read and the writes made say. -/
theorem fetchEndings : Obligations.FetchEndings := by
  intro env lane s a rest hup hlane b idle
  let u := b.putLane lane { queue := rest, service := none }
  have heffect : effectOf (.fetch env lane) b = u.fetchTicket lane a := (if_pos hup).trans (State.takeFetch_some hlane)
  have hanswer : ∀ t, (u.fetchTicket lane a).finish = t → Answers (.fetch env lane) s t := fun t h =>
    (answers_iff (c := .fetch env lane) nofun).mpr (h ▸ congrArg State.finish heffect.symm)
  have hread : u.readWords a 16 = b.readWords a 16 := State.setLanes_at_readWords ..
  have hu : u.lane lane = { queue := rest, service := none } := State.putLane_lane_same ..
  refine ⟨fun e he => hanswer _ ?_, ?_⟩
  · rw [State.fetchTicket_unread (hread.trans he), State.leaveService_eq (L := b.lanes) rfl]
    rfl
  intro ws hws k
  let taken := u.putLane lane { u.lane lane with service := some k }
  have htaken : taken = b.putLane lane { queue := rest, service := some k } := by
    rw [show taken = u.putLane lane { u.lane lane with service := some k } from rfl, hu]
    exact State.putLane_putLane ..
  have hservice : (taken.lane lane).service = some k := by rw [htaken, State.putLane_lane_same]
  obtain ⟨hstale, hrefused, hactive⟩ := State.fetchTicket_read (lane := lane) (hread.trans hws) (k := k) rfl (taken := taken) rfl
  have hclosed : ∀ d, bits (k.w 15) 1 0 = 1 → k.fetchRefusal lane = some d →
      Answers (.fetch env lane) s (State.closedAnyhow { b with lanes := idle } lane k .badTicket 0 d) ∧
        (b.closesFreely k → Answers (.fetch env lane) s (State.answered { b with lanes := idle } lane k .badTicket 0 d)) := by
    intro d h hd
    refine ⟨hanswer _ ?_, fun hfree => hanswer _ ?_⟩
    · rw [hrefused h d hd, State.close_anyhow hservice]
      exact State.closedAnyhow_putLane u lane _ k .badTicket 0 d rfl
    · rw [hrefused h d hd, State.close_answered hservice hfree]
      exact State.answered_putLane u lane _ k .badTicket 0 d rfl
  refine ⟨fun h => hanswer _ ?_, fun h hunknown => hclosed 1 h (Ticket.fetchRefusal_unknown hunknown lane),
    fun h kind hkind hbad => hclosed 2 h ?_, fun h kind hkind hl hecho => ?_⟩
  · rw [hstale h, htaken, State.leaveService_eq (L := b.lanes) rfl]
    rfl
  · rw [Ticket.fetchRefusal_known hkind, if_pos hbad]
  · have hnone : k.fetchRefusal lane = none := by
      rw [Ticket.fetchRefusal_known hkind, if_neg (not_or.mpr ⟨not_not.mpr hl, not_not.mpr hecho⟩)]
    have hmark := hactive h hnone
    rw [State.markActive_cases, htaken] at hmark
    split
    · rename_i hfails
      refine hanswer _ ?_
      rw [hmark.trans (if_pos hfails), State.leaveService_eq (L := b.lanes) rfl]
      rfl
    · rename_i hfails
      refine hanswer _ ?_
      rw [hmark.trans (if_neg hfails)]
      rfl

end Sys2Proof.Proofs
end

