-- ==== Sys2Proof/Proofs/Starts.lean ====
section
/-! Starts, their ends, and the resets (R171, R181, R182, R1): O8 to O11. -/

namespace Sys2Proof.Machine

variable {s b t u : State} {cause : StartCause} {d : Device} {st : Stored} {acc : Vector AccountVolatile 512}
  {aw : List (Stored × Memory)} {l : List FirstFault}

/-! ### The state partway through a start -/

/-- A part whose start began from `b` and has captured `l`. -/
def startingWith (b : State) (cause : StartCause) (d : Device) (st : Stored) (acc : Vector AccountVolatile 512)
    (aw : List (Stored × Memory)) (l : List FirstFault) : State :=
  { b.volatileReset cause with
    dev := d, stored := st, accounts := acc, afterWrites := aw, faults := l.foldl FaultRecord.capture b.faults
    notice := if l = [] then 0 else Cause.fault.mask }

theorem startingWith_capture (hd : d.op = .starting) (kind : FaultKind) (n : Nat) :
    (startingWith b cause d st acc aw l).capture kind none none n = startingWith b cause d st acc aw (l ++ [startFault kind n]) := by
  have ht : (startingWith b cause d st acc aw l).faultTime = 0 := if_pos hd
  have hm : (if l = [] then (0 : BitVec 13) else Cause.fault.mask) ||| Cause.fault.mask =
      if l ++ [startFault kind n] = [] then 0 else Cause.fault.mask := by
    rw [if_neg (List.append_ne_nil_of_right_ne_nil _ (List.cons_ne_nil _ _))]
    split <;> simp
  have hf : (l.foldl FaultRecord.capture b.faults).capture (startFault kind n) =
      (l ++ [startFault kind n]).foldl FaultRecord.capture b.faults := by
    rw [List.foldl_append]
    rfl
  rw [State.capture, ht]
  unfold startingWith
  rw [← hm, ← hf]
  rfl

/-- Step 2. -/
theorem startingWith_counts (b : State) (cause : StartCause) :
    ∃ aw, (b.volatileReset cause).startCounts =
      startingWith b cause { State.reset.dev with cause, startCount := (b.stored.startCount + 1) % 2 ^ 32 }
        { b.stored with startCount := (b.stored.startCount + 1) % 2 ^ 32, startCountOk := true } State.reset.accounts aw [] :=
  ⟨_, rfl⟩

/-- A failing check that marks the start as stopping. -/
theorem startingWith_stops (hd : d.op = .starting) (kind : FaultKind) (n : Nat) :
    ((startingWith b cause d st acc aw l).capture kind none none n).markStopping =
      startingWith b cause { d with stopping := true } st acc aw (l ++ [startFault kind n]) := by
  rw [startingWith_capture hd]
  rfl

/-- Step 3. -/
theorem startingWith_test (hd : d.op = .starting) (p : Bool) :
    (startingWith b cause d st acc aw l).startTest p =
      startingWith b cause { d with stopping := d.stopping || !p } st acc aw (l ++ if p then [] else [startFault .cipherCheck 0]) := by
  cases p
  · simpa [State.startTest] using startingWith_stops hd .cipherCheck 0
  · simp [State.startTest]

/-- Step 4. -/
theorem startingWith_meters (hd : d.op = .starting) (p : Bool) :
    (startingWith b cause d st acc aw l).startMeters p =
      startingWith b cause { d with stopping := d.stopping || !st.metersOk || !p } st acc aw
        ((l ++ if st.metersOk then [] else [startFault .storeMeters 1]) ++ if p then [] else [startFault .storeMeters 2]) := by
  have harea : (startingWith b cause d st acc aw l).stored.metersOk = st.metersOk := rfl
  have hstops := startingWith_stops (b := b) (cause := cause) (st := st) (acc := acc) (aw := aw) (l := l) hd .storeMeters 1
  unfold State.startMeters
  rw [harea]
  cases st.metersOk <;> cases p
  · simpa [hstops] using startingWith_stops (d := { d with stopping := true }) (l := l ++ [startFault .storeMeters 1])
      (b := b) (cause := cause) (st := st) (acc := acc) (aw := aw) hd .storeMeters 2
  · simpa using hstops
  · simpa using startingWith_stops hd .storeMeters 2
  · simp

/-- Step 5. -/
theorem startingWith_settings (hd : d.op = .starting) :
    ∃ aw', (startingWith b cause d st acc aw l).startSettings =
      startingWith b cause { d with defaulted := d.defaulted || !st.settingsOk }
        { st with settings := if st.settingsOk then st.settings else .factory, settingsOk := true } acc aw'
        (l ++ if st.settingsOk then [] else [startFault .storeSettings 0]) := by
  have harea : (startingWith b cause d st acc aw l).stored.settingsOk = st.settingsOk := rfl
  unfold State.startSettings
  rw [harea]
  cases hok : st.settingsOk
  · let st' : Stored := { st with settings := .factory, settingsOk := true }
    let aw' := ((startingWith b cause d st acc aw l).store .settings st').afterWrites
    refine ⟨aw', ?_⟩
    have h := startingWith_capture (b := b) (cause := cause) (d := { d with defaulted := true }) (st := st') (acc := acc)
      (aw := aw') (l := l) hd .storeSettings 0
    simp only [Bool.not_false, Bool.or_true, Bool.false_eq_true, if_false]
    exact h
  · have hst : ({ st with settingsOk := true } : Stored) = st := by rw [← hok]
    refine ⟨aw, ?_⟩
    simp only [Bool.not_true, Bool.or_false, if_true, List.append_nil, hst]

/-- Step 6. -/
theorem startingWith_list (hd : d.op = .starting) :
    ∃ aw', (startingWith b cause d st acc aw l).startList =
      startingWith b cause d { st with known := if st.knownOk then st.known else [], knownOk := true } acc aw'
        (l ++ if st.knownOk then [] else [startFault .storeList 0]) := by
  have harea : (startingWith b cause d st acc aw l).stored.knownOk = st.knownOk := rfl
  unfold State.startList
  rw [harea]
  cases hok : st.knownOk
  · let st' : Stored := { st with known := [], knownOk := true }
    let aw' := ((startingWith b cause d st acc aw l).store .knownList st').afterWrites
    refine ⟨aw', ?_⟩
    have h := startingWith_capture (b := b) (cause := cause) (d := d) (st := st') (acc := acc) (aw := aw') (l := l) hd .storeList 0
    simp only [Bool.false_eq_true, if_false]
    exact h
  · exact ⟨aw, by simp [← hok]⟩

/-! ### The accounts (step 7) -/

/-- R2, R13: what a start leaves of an account other than 0 whose record is `r`. -/
def startedAccount (r : AccountRecord) (period : Nat) : AccountVolatile :=
  { reserved := 0, session := none, damaged := !r.checkOk
    lockoutEnd := if r.checkOk = true ∧ r.state = .locked ∧ period ≠ 0 then some period else none }

theorem startingWith_account (hd : d.op = .starting) {n : Nat} (hn : n ≠ 0) (h512 : n < 512) (hacc : entryAt acc n .reset = .reset) :
    (startingWith b cause d st acc aw l).startAccount n =
      startingWith b cause d st (putAt acc n (startedAccount (entryAt st.accounts n .vacant) st.settings.timers.lockoutPeriod)) aw
        (l ++ if (entryAt st.accounts n .vacant).checkOk then [] else [startFault .storeRecord n]) := by
  let x := startingWith b cause d st acc aw l
  have hrecord : x.record n = entryAt st.accounts n .vacant := rfl
  have hacct : x.acct n = .reset := hacc
  unfold State.startAccount
  cases hok : (entryAt st.accounts n .vacant).checkOk
  · let acc' := putAt acc n { AccountVolatile.reset with damaged := true }
    have hread : x.readAccount n = startingWith b cause d st acc' aw (l ++ [startFault .storeRecord n]) := by
      have hx : x.readAccount n = (x.putAcct n { x.acct n with damaged := true }).capture .storeRecord none none n := by
        unfold State.readAccount
        rw [hrecord, hok, hacct, if_neg (by decide), if_neg hn, if_neg (by decide)]
      rw [hx, hacct]
      exact startingWith_capture hd .storeRecord n
    have hseen : (x.readAccount n).seen n = .damaged := by
      have hdam : ((x.readAccount n).acct n).damaged = true := by
        rw [hread]
        exact congrArg AccountVolatile.damaged (entryAt_putAt_same acc n _ .reset h512)
      rw [State.seen, if_neg hn, if_pos hdam]
    have hval : startedAccount (entryAt st.accounts n .vacant) st.settings.timers.lockoutPeriod =
        { AccountVolatile.reset with damaged := true } := by simp [startedAccount, hok, AccountVolatile.reset]
    rw [hval]
    exact (if_neg (by rw [hseen]; decide)).trans hread
  · have hread : x.readAccount n = x := State.readAccount_ok hok
    have hl : l ++ (if true = true then [] else [startFault FaultKind.storeRecord n]) = l := by simp
    have hseen : x.seen n = .locked ↔ (entryAt st.accounts n .vacant).state = .locked := by
      have hdam : ¬(x.acct n).damaged = true := by rw [hacct]; decide
      rw [State.seen, if_neg hn, if_neg hdam, hrecord]
      cases (entryAt st.accounts n .vacant).state <;> decide
    rw [hl]
    show (let s := x.readAccount n; if s.seen n = .locked then _ else s) = _
    rw [hread]
    by_cases hlocked : (entryAt st.accounts n .vacant).state = .locked
    · refine (if_pos (hseen.mpr hlocked)).trans ?_
      rw [hacct]
      have hval : startedAccount (entryAt st.accounts n .vacant) st.settings.timers.lockoutPeriod =
          { AccountVolatile.reset with
            lockoutEnd := if st.settings.timers.lockoutPeriod = 0 then none else some st.settings.timers.lockoutPeriod } := by
        by_cases hp : st.settings.timers.lockoutPeriod = 0 <;> simp [startedAccount, hok, hlocked, hp, AccountVolatile.reset]
      rw [hval]
      rfl
    · refine (if_neg fun h => hlocked (hseen.mp h)).trans ?_
      have hval : startedAccount (entryAt st.accounts n .vacant) st.settings.timers.lockoutPeriod = entryAt acc n .reset := by
        rw [hacc]
        simp [startedAccount, hok, hlocked, AccountVolatile.reset]
      rw [hval, putAt_entryAt]

/-- R171 step 7: a start reads accounts in turn. -/
theorem startingWith_accounts (hd : d.op = .starting) (ns : List Nat) (hns : ns.Nodup) (hn : ∀ n ∈ ns, n ≠ 0 ∧ n < 512)
    (hacc : ∀ n ∈ ns, entryAt acc n .reset = .reset) :
    ∃ acc', ns.foldl State.startAccount (startingWith b cause d st acc aw l) =
        startingWith b cause d st acc' aw
          (l ++ (ns.filter fun n => !(entryAt st.accounts n .vacant).checkOk).map (startFault .storeRecord)) ∧
      ∀ n, entryAt acc' n .reset = if n ∈ ns then
        startedAccount (entryAt st.accounts n .vacant) st.settings.timers.lockoutPeriod else entryAt acc n .reset := by
  induction ns generalizing acc l with
  | nil => exact ⟨acc, by simp, fun n => by simp⟩
  | cons m ns ih =>
    obtain ⟨hm, hns⟩ := List.nodup_cons.mp hns
    have hm0 := hn m List.mem_cons_self
    rw [List.foldl_cons, startingWith_account hd hm0.1 hm0.2 (hacc m List.mem_cons_self)]
    have hother : ∀ n, n ≠ m → ∀ x : AccountVolatile, entryAt (putAt acc m x) n .reset = entryAt acc n .reset :=
      fun n hne x => entryAt_putAt_other acc m n x .reset hne.symm
    obtain ⟨acc', hfold, hacc'⟩ := ih hns (fun n h => hn n (List.mem_cons_of_mem _ h)) (fun n h =>
      (hother n (fun e => hm (e ▸ h)) _).trans (hacc n (List.mem_cons_of_mem _ h)))
    refine ⟨acc', hfold.trans ?_, fun n => (hacc' n).trans ?_⟩
    · cases hok : (entryAt st.accounts m .vacant).checkOk <;> simp [hok]
    · by_cases hnm : n = m
      · subst hnm
        rw [if_neg hm, if_pos List.mem_cons_self, entryAt_putAt_same _ _ _ _ hm0.2]
      · rw [hother n hnm]
        simp [hnm]

/-! ### A whole start -/

theorem range_accounts : ∀ n, n ∈ List.range' 1 511 ↔ n ≠ 0 ∧ n < 512 := by
  intro n
  rw [List.mem_range'_1]
  omega

/-- The device a start leaves. -/
def startedDevice (b : State) (cause : StartCause) (x : StartInputs) : Device :=
  { op := .starting, stopping := !x.testPasses || !b.stored.metersOk || !b.stored.startCountOk, cause
    startCount := (b.stored.startCount + 1) % 2 ^ 32, defaulted := !b.stored.settingsOk, clock := 0, entryTime := none }

/-- The stored areas a start leaves. -/
def startedStored (b : State) : Stored :=
  { b.stored with
    startCount := (b.stored.startCount + 1) % 2 ^ 32, startCountOk := true
    settings := if b.stored.settingsOk then b.stored.settings else .factory, settingsOk := true
    known := if b.stored.knownOk then b.stored.known else [], knownOk := true }

/-- R171 steps 1 to 6: the state the accounts are read in. -/
def State.startChecked (b : State) (cause : StartCause) (x : StartInputs) : State :=
  (((((b.volatileReset cause).startCounts).startTest x.testPasses).startMeters b.stored.startCountOk).startSettings).startList

theorem State.start_eq (b : State) (cause : StartCause) (x : StartInputs) :
    b.start cause x = (b.startChecked cause x).startLines x.levels := rfl

/-- What a start captures before the accounts. -/
def areaFailures (b : State) (x : StartInputs) : List FirstFault :=
  (if x.testPasses then [] else [startFault .cipherCheck 0]) ++
    (if b.stored.metersOk then [] else [startFault .storeMeters 1]) ++
    (if b.stored.startCountOk then [] else [startFault .storeMeters 2]) ++
    (if b.stored.settingsOk then [] else [startFault .storeSettings 0]) ++
    (if b.stored.knownOk then [] else [startFault .storeList 0])

theorem State.startChecked_eq (b : State) (cause : StartCause) (x : StartInputs) :
    ∃ aw, b.startChecked cause x =
      startingWith b cause (startedDevice b cause x) (startedStored b) State.reset.accounts aw (areaFailures b x) := by
  obtain ⟨aw, hcounts⟩ := startingWith_counts b cause
  unfold State.startChecked
  rw [hcounts, startingWith_test rfl, startingWith_meters rfl]
  obtain ⟨aw', hset⟩ := startingWith_settings (b := b) (cause := cause) (acc := State.reset.accounts) (aw := aw)
    (d := { State.reset.dev with
      cause, startCount := (b.stored.startCount + 1) % 2 ^ 32
      stopping := State.reset.dev.stopping || !x.testPasses || !b.stored.metersOk || !b.stored.startCountOk })
    (st := { b.stored with startCount := (b.stored.startCount + 1) % 2 ^ 32, startCountOk := true })
    (l := (([] ++ if x.testPasses then [] else [startFault .cipherCheck 0]) ++
      if b.stored.metersOk then [] else [startFault .storeMeters 1]) ++
      if b.stored.startCountOk then [] else [startFault .storeMeters 2]) rfl
  rw [hset]
  obtain ⟨aw'', hlist⟩ := startingWith_list (b := b) (cause := cause) (acc := State.reset.accounts) (aw := aw')
    (d := startedDevice b cause x)
    (st := { b.stored with
      startCount := (b.stored.startCount + 1) % 2 ^ 32, startCountOk := true
      settings := if b.stored.settingsOk then b.stored.settings else .factory, settingsOk := true })
    (l := ((([] ++ if x.testPasses then [] else [startFault .cipherCheck 0]) ++
      if b.stored.metersOk then [] else [startFault .storeMeters 1]) ++
      if b.stored.startCountOk then [] else [startFault .storeMeters 2]) ++
      if b.stored.settingsOk then [] else [startFault .storeSettings 0]) rfl
  exact ⟨aw'', hlist⟩

/-- R171 steps 1 to 7. -/
theorem State.start_startingWith (b : State) (cause : StartCause) (x : StartInputs) :
    ∃ aw acc, b.start cause x =
        { startingWith b cause (startedDevice b cause x) (startedStored b) acc aw (startFailures b x) with levels := x.levels } ∧
      ∀ n, entryAt acc n .reset = if n ≠ 0 ∧ n < 512 then
        startedAccount (b.record n) (startedStored b).settings.timers.lockoutPeriod else .reset := by
  obtain ⟨aw, hchecked⟩ := b.startChecked_eq cause x
  have hreset : ∀ n, entryAt State.reset.accounts n AccountVolatile.reset = AccountVolatile.reset := fun n =>
    entryAt_replicate 512 n AccountVolatile.reset
  obtain ⟨acc, hfold, hacc⟩ := startingWith_accounts (b := b) (cause := cause) (d := startedDevice b cause x)
    (st := startedStored b) (acc := State.reset.accounts) (aw := aw) (l := areaFailures b x) rfl (List.range' 1 511)
    List.nodup_range' (fun n h => (range_accounts n).mp h) (fun n _ => hreset n)
  refine ⟨aw, acc, ?_, fun n => ?_⟩
  · rw [State.start_eq, hchecked, State.startLines, hfold]
    rfl
  · simp only [hacc n, range_accounts, hreset]
    rfl

theorem startFailures_eq (b : State) (x : StartInputs) :
    startFailures b x =
      areaFailures b x ++ ((List.range' 1 511).filter fun n => !(b.record n).checkOk).map (startFault .storeRecord) := rfl

/-- R20, R2, R13: an account after a start. -/
theorem State.start_acct (b : State) (cause : StartCause) (x : StartInputs) {n : Nat} (hn : n ≠ 0) (h : n < 512) :
    ((b.start cause x).finish).acct n = startedAccount (b.record n) (startedStored b).settings.timers.lockoutPeriod := by
  obtain ⟨aw, acc, hstart, hacc⟩ := b.start_startingWith cause x
  rw [hstart]
  exact (hacc n).trans (if_pos ⟨hn, h⟩)

/-- R171: what a start leaves, the command's frame taken off. -/
theorem State.started (b : State) (x : StartInputs) (cause : StartCause) (f : FaultRecord)
    (hf : f = if cause = .power then .cleared else b.faults) :
    Started b (State.start { b with faults := f } cause x).finish cause x := by
  obtain ⟨aw, acc, hstart, hacc⟩ := State.start_startingWith { b with faults := f } cause x
  rw [hstart]
  refine ⟨rfl, rfl, ⟨rfl, rfl⟩, ⟨rfl, rfl⟩, ⟨rfl, rfl⟩, ⟨rfl, rfl⟩, rfl, fun n h => ?_, ?_, rfl⟩
  · refine (hacc n).trans ?_
    by_cases hn : n = 0
    · subst hn
      rw [if_neg (fun h => h.1 rfl)]
      simp [AccountVolatile.reset]
    · rw [if_pos ⟨hn, h⟩]
      simp only [startedAccount, decide_true, Bool.true_and, ne_eq, hn, not_false_eq_true, true_and]
      rfl
  · rw [← hf]
    rfl

/-- The checks of steps 3 to 6, in order: whether each passes, and what its failure captures. -/
def startChecks (b : State) (x : StartInputs) : List (Bool × FaultKind × Nat) :=
  [ (x.testPasses, .cipherCheck, 0), (b.stored.metersOk, .storeMeters, 1), (b.stored.startCountOk, .storeMeters, 2),
    (b.stored.settingsOk, .storeSettings, 0), (b.stored.knownOk, .storeList, 0) ]

theorem areaFailures_eq (b : State) (x : StartInputs) :
    areaFailures b x = ((startChecks b x).filter fun f => f.1 = false).map fun f => startFault f.2.1 f.2.2 := by
  unfold areaFailures startChecks
  generalize x.testPasses = p1
  generalize b.stored.metersOk = p2
  generalize b.stored.startCountOk = p3
  generalize b.stored.settingsOk = p4
  generalize b.stored.knownOk = p5
  revert p1 p2 p3 p4 p5
  decide

/-- R176: once a fault is first, it stays first. -/
theorem FaultRecord.captures_first (l : List FirstFault) (r : FaultRecord) (f : FirstFault) (h : r.first = some f) :
    (l.foldl FaultRecord.capture r).first = some f := by
  induction l generalizing r with
  | nil => exact h
  | cons g l ih =>
    refine ih (r.capture g) ?_
    simp only [FaultRecord.capture, h]

theorem FaultRecord.captures_cleared (l : List FirstFault) : (l.foldl FaultRecord.capture .cleared).first = l.head? := by
  cases l with
  | nil => rfl
  | cons f l => exact FaultRecord.captures_first l _ f rfl

theorem startFailures_find_some {x : StartInputs} {f : Bool × FaultKind × Nat}
    (h : (startChecks b x).find? (fun f => f.1 = false) = some f) : (startFailures b x).head? = some (startFault f.2.1 f.2.2) := by
  rw [startFailures_eq, areaFailures_eq]
  rw [← List.head?_filter] at h
  obtain ⟨l, hl⟩ := List.head?_eq_some_iff.mp h
  rw [hl]
  rfl

theorem startFailures_find_none {x : StartInputs} (h : (startChecks b x).find? (fun f => f.1 = false) = none)
    (hr : ∀ n, 1 ≤ n → n < 512 → (b.record n).checkOk = true) : startFailures b x = [] := by
  have hrec : ((List.range' 1 511).filter fun n => !(b.record n).checkOk) = [] := by
    refine List.filter_eq_nil_iff.mpr fun n hn => ?_
    have hm := (range_accounts n).mp hn
    simp [hr n (Nat.pos_of_ne_zero hm.1) hm.2]
  rw [startFailures_eq, areaFailures_eq, List.filter_eq_nil_iff.mpr (List.find?_eq_none.mp h), hrec]
  rfl

end Sys2Proof.Machine

namespace Sys2Proof.Proofs

open Sys2Proof.Machine

/-- Settles O8: each of the three commands begins a start, from the fault record its cause leaves. -/
theorem startsBegin : Obligations.StartsBegin := by
  intro env x s b
  have hpower : Started b (b.powerStart x).finish .power x := b.started x .power .cleared rfl
  refine ⟨⟨_, answers_effect s nofun, hpower⟩, fun hp hn => ⟨_, answers_effect s nofun, ?_⟩,
    fun v ha hv => ⟨_, answers_effect s nofun, ?_⟩, fun v hv => ?_⟩
  · have heffect : effectOf (.resetInputRelease env x) b = b.powerStart x := if_pos ⟨hp, hn⟩
    exact heffect ▸ hpower
  · have heffect : effectOf (.restart env v x) b = b.start .restart x := if_pos ⟨ha, by simpa [bits] using hv⟩
    exact heffect ▸ b.started x .restart b.faults rfl
  · have heffect : effectOf (.restart env v x) b = b := if_neg fun h => hv (by simpa [bits] using h.2)
    exact (answers_iff (c := .restart env v x) nofun).mpr (congrArg State.finish heffect).symm

/-- Settles O9: the first failing check is the first fault captured, and every account is read. -/
theorem startChecksStoredAreas : Obligations.StartChecksStoredAreas := by
  refine ⟨fun env x s t h => ?_, fun env x s t n h h1 h512 => ?_⟩
  · have ht := h.eq_effect (c := .powerOn env x) nofun
    have hstarted : Started (s.begin env) t .power x := ht ▸ (s.begin env).started x .power .cleared rfl
    have hfaults := hstarted.faults
    have hnotice := hstarted.notice
    rw [if_pos rfl] at hfaults
    intro b failing
    have hfailing : failing = startChecks b x := rfl
    clear_value failing
    subst hfailing
    split
    · rename_i f hf
      have hhead := startFailures_find_some hf
      refine ⟨?_, hnotice.trans (if_neg fun e => ?_)⟩
      · rw [hfaults, FaultRecord.captures_cleared, hhead]
        rfl
      · rw [e] at hhead
        cases hhead
    · rename_i hnone
      intro hr
      have hnil := startFailures_find_none hnone hr
      rw [hnil] at hfaults hnotice
      exact ⟨hfaults, hnotice⟩
  · have ht := h.eq_effect (c := .powerOn env x) nofun
    have hstarted : Started (s.begin env) t .power x := ht ▸ (s.begin env).started x .power .cleared rfl
    have hn : n ≠ 0 := by omega
    have hacct := hstarted.accounts n h512
    simpa [hn] using hacct

end Sys2Proof.Proofs
end

