-- ==== Sys2Proof/Proofs/Wipe.lean ====
section
/-! Slots destroyed (R111, R114), and the end of a start, the reset input and a loss of power: O10, O11. -/

namespace Sys2Proof.Machine

variable {s t u b : State}

/-! ### A slot destroyed -/

/-- Slots, jobs' lists of slots and the core's bands alone have changed. -/
structure SlotsMoved (s t : State) : Prop where
  frame : t = { s with slots := t.slots, jobs := t.jobs, core := t.core }
  jobs : ∀ i, t.job i = { s.job i with slots := (t.job i).slots }
  core : ∃ x, t.core = { s.core with band := x }

theorem SlotsMoved.refl (s : State) : SlotsMoved s s := ⟨rfl, fun _ => rfl, s.core.band, rfl⟩

theorem SlotsMoved.trans (h : SlotsMoved s t) (h' : SlotsMoved t u) : SlotsMoved s u := by
  obtain ⟨x, hx⟩ := h'.core
  obtain ⟨y, hy⟩ := h.core
  refine ⟨?_, fun i => ?_, x, ?_⟩
  · rw [h'.frame, h.frame]
  · rw [h'.jobs i, h.jobs i]
  · rw [hx, hy]

theorem SlotsMoved.eq (h : SlotsMoved s t) :
    ∃ slots jobs x, t = { s with slots := slots, jobs := jobs, core := { s.core with band := x } } := by
  obtain ⟨x, hx⟩ := h.core
  exact ⟨t.slots, t.jobs, x, h.frame.trans (by rw [hx])⟩

/-- The core emptied after slots have been destroyed. -/
theorem SlotsMoved.emptied (h : SlotsMoved s u) (t : State)
    (ht : t = { u with core := { u.core with band := none, printQueue := [], scanWaiting := none } }) :
    t = { s with
      slots := t.slots, jobs := t.jobs, core := { s.core with band := none, printQueue := [], scanWaiting := none } } := by
  obtain ⟨slots, jobs, x, rfl⟩ := h.eq
  rw [ht]

theorem State.detachSlot_moved (s : State) (j : Option Handle) (h : SlotHandle) : SlotsMoved s (s.detachSlot j h) := by
  cases j with
  | none => exact .refl s
  | some j =>
    refine ⟨rfl, fun i => ?_, s.core.band, rfl⟩
    simp only [State.detachSlot, State.putJob_job]
    split
    · rename_i hi
      rw [← hi.1]
    · rfl

theorem State.stopCore_moved (s : State) (h : SlotHandle) : SlotsMoved s (s.stopCore h) := by
  unfold State.stopCore
  split
  · exact .refl s
  · split
    · exact ⟨rfl, fun _ => rfl, none, rfl⟩
    · exact .refl s

theorem State.wipeSlot_moved (s : State) (i : Nat) : SlotsMoved s (s.wipeSlot i) := by
  let u := s.putSlot i (.free (((s.slot i).gen + 1) % 65536))
  have hu : SlotsMoved s u := ⟨rfl, fun _ => rfl, s.core.band, rfl⟩
  exact (hu.trans (u.detachSlot_moved (s.slot i).job { idx := i, gen := (s.slot i).gen })).trans (State.stopCore_moved _ _)

theorem State.stopCore_slots (s : State) (h : SlotHandle) : (s.stopCore h).slots = s.slots := by
  unfold State.stopCore
  split
  · rfl
  · split <;> rfl

theorem State.detachSlot_slots (s : State) (j : Option Handle) (h : SlotHandle) : (s.detachSlot j h).slots = s.slots := by
  cases j <;> rfl

theorem State.wipeSlot_slots (s : State) (i : Nat) :
    (s.wipeSlot i).slots = putAt s.slots i (.free (((s.slot i).gen + 1) % 65536)) := by
  rw [State.wipeSlot, State.stopCore_slots, State.detachSlot_slots]
  rfl

/-- R111: the slot is FREE under its next generation; the others stay. -/
theorem State.wipeSlot_slot (s : State) (i j : Nat) :
    (s.wipeSlot i).slot j = if i = j ∧ i < 32 then .free (((s.slot i).gen + 1) % 65536) else s.slot j := by
  rw [State.slot, State.wipeSlot_slots]
  exact entryAt_putAt ..

/-! ### Every slot destroyed -/

theorem State.wipeUsed_moved (s : State) (i : Nat) : SlotsMoved s (s.wipeUsed i) := by
  unfold State.wipeUsed
  split
  · exact .refl s
  · exact s.wipeSlot_moved i

theorem wipeUsed_fold_moved (l : List Nat) (s : State) : SlotsMoved s (l.foldl State.wipeUsed s) := by
  induction l generalizing s with
  | nil => exact .refl s
  | cons i l ih => exact (s.wipeUsed_moved i).trans (ih _)

theorem State.wipeUsed_slot (s : State) (i j : Nat) :
    (s.wipeUsed i).slot j = s.slot j ∨ (i = j ∧ i < 32 ∧ (s.slot i).state ≠ .free ∧ (s.wipeUsed i).slot j = .free (((s.slot i).gen + 1) % 65536)) := by
  unfold State.wipeUsed
  split
  · exact .inl rfl
  · rename_i hused
    rw [State.wipeSlot_slot]
    split
    · rename_i h
      exact .inr ⟨h.1, h.2, hused, rfl⟩
    · exact .inl rfl

theorem State.wipeUsed_free (s : State) (i : Nat) : ((s.wipeUsed i).slot i).state = .free := by
  unfold State.wipeUsed
  split
  · assumption
  · rw [State.wipeSlot_slot]
    split
    · rfl
    · rename_i h
      rw [State.slot, entryAt_beyond _ _ _ (Nat.le_of_not_lt fun hi => h ⟨rfl, hi⟩)]
      rfl

/-- A slot that is FREE stays so while slots are destroyed. -/
theorem State.wipeUsed_keeps_free (s : State) (i : Nat) {j : Nat} (h : (s.slot j).state = .free) : ((s.wipeUsed i).slot j).state = .free := by
  rcases s.wipeUsed_slot i j with e | ⟨-, -, -, e⟩
  · rw [e, h]
  · rw [e]
    rfl

theorem wipeUsed_fold_free (l : List Nat) (s : State) {j : Nat} (h : j ∈ l ∨ (s.slot j).state = .free) :
    ((l.foldl State.wipeUsed s).slot j).state = .free := by
  induction l generalizing s with
  | nil => exact h.resolve_left (List.not_mem_nil)
  | cons i l ih =>
    refine ih _ ?_
    rcases h with h | h
    · rcases List.mem_cons.mp h with rfl | h
      · exact .inr (s.wipeUsed_free _)
      · exact .inl h
    · exact .inr (s.wipeUsed_keeps_free i h)

/-- R114: every slot is FREE, the core is empty, and a job's list of slots alone has changed of the jobs. -/
theorem State.wipeAll_spec (s : State) :
    s.wipeAll = { s with
        slots := s.wipeAll.slots, jobs := s.wipeAll.jobs
        core := { s.core with band := none, printQueue := [], scanWaiting := none } } ∧
      (∀ i, (s.wipeAll.slot i).state = .free) ∧ ∀ i, s.wipeAll.job i = { s.job i with slots := (s.wipeAll.job i).slots } := by
  have hm := wipeUsed_fold_moved (List.range 32) s
  have hfree : ∀ i, (((List.range 32).foldl State.wipeUsed s).slot i).state = .free := by
    refine fun i => wipeUsed_fold_free (List.range 32) s (j := i) ?_
    by_cases hi : i < 32
    · exact .inl (List.mem_range.mpr hi)
    · right
      rw [State.slot, entryAt_beyond _ _ _ (Nat.le_of_not_lt hi)]
      rfl
  unfold State.wipeAll
  generalize (List.range 32).foldl State.wipeUsed s = u at hm hfree ⊢
  exact ⟨hm.emptied _ rfl, hfree, hm.jobs⟩

/-! ### CHECKs requested in turn -/

/-- R141: a request for a slot that has none queued joins the tail. -/
theorem requestIn_new {q : List Procedure} {n : Nat} (h : ∀ p ∈ q, p.slot ≠ n) (kind : ProcedureKind) (w : Bool) :
    requestIn q n kind w = q ++ [.queued n kind w] := by
  have hany : q.any (fun p => p.slot = n && p.kind = kind) = false := by
    rw [List.any_eq_false]
    intro p hp
    simp [h p hp]
  simp [requestIn, hany]

/-- R117, R141: CHECKs requested of slots that have none queued, in RUNNING or WITHDRAWN. -/
theorem requestChecks_eq (l : List Nat) (w : Bool) (hop : s.dev.op = .running ∨ s.dev.op = .withdrawn) (hl : l.Nodup)
    (hq : ∀ n ∈ l, ∀ p ∈ s.link.queue, p.slot ≠ n) :
    l.foldl (fun s n => s.requestCheck n w) s =
      { s with link := { s.link with
        queue := s.link.queue ++ (l.filter fun n => !s.lineAbnormal (doorLine n)).map fun n => .queued n .check w } } := by
  induction l generalizing s with
  | nil => simp
  | cons n l ih =>
    obtain ⟨hn, hl⟩ := List.nodup_cons.mp hl
    rw [List.foldl_cons]
    cases habnormal : s.lineAbnormal (doorLine n) with
    | true =>
      have hnone : s.requestCheck n w = s := if_neg fun h => by simp [habnormal] at h
      rw [hnone, ih hop hl fun m hm => hq m (List.mem_cons_of_mem _ hm)]
      simp [habnormal]
    | false =>
      have hjoin : s.requestCheck n w = { s with link := { s.link with queue := s.link.queue ++ [.queued n .check w] } } := by
        refine (if_pos ⟨hop, habnormal⟩).trans ?_
        rw [State.request, requestIn_new (hq n List.mem_cons_self)]
      have hq' : ∀ m ∈ l, ∀ p ∈ s.link.queue ++ [Procedure.queued n .check w], p.slot ≠ m := by
        intro m hm p hp
        rcases List.mem_append.mp hp with hp | hp
        · exact hq m (List.mem_cons_of_mem _ hm) p hp
        · rw [List.mem_singleton.mp hp]
          exact fun e : n = m => hn (e ▸ hm)
      rw [hjoin]
      refine (ih (s := { s with link := { s.link with queue := s.link.queue ++ [.queued n .check w] } }) hop hl hq').trans ?_
      have hline : ∀ m, State.lineAbnormal { s with link := { s.link with queue := s.link.queue ++ [.queued n .check w] } } m =
          s.lineAbnormal m := fun _ => rfl
      simp only [hline, List.filter_cons, habnormal, Bool.not_false, if_true, List.map_cons, List.append_assoc, List.singleton_append]

end Sys2Proof.Machine

namespace Sys2Proof.Proofs

open Sys2Proof.Machine

/-- Settles O10: a start ends as it is marked, with the CHECKs requested, and a withdrawal of a part at rest wipes its slots. -/
theorem startEnds : Obligations.StartEnds := by
  intro env s halive hop b checks
  have heffect : effectOf (.startEnd env) b = b.endStart := if_pos ⟨halive, hop⟩
  have hanswer : ∀ t, b.endStart.finish = t → Answers (.startEnd env) s t := fun t h =>
    (answers_iff (c := .startEnd env) nofun).mpr (h ▸ congrArg State.finish heffect.symm)
  let running : State := { b with dev := { b.dev with op := .running, clock := 0 } }
  have hchecks : b.link.queue = [] → supplySlots.foldl (fun s n => s.requestCheck n false) running = { running with link := checks } := by
    intro hq
    have h := requestChecks_eq (s := running) supplySlots false (.inl rfl) (by decide) (by
      intro n _ p hp
      rw [show running.link.queue = [] from hq] at hp
      exact absurd hp (List.not_mem_nil))
    rw [h, show running.link.queue = [] from hq]
    rfl
  have hruns : s.dev.stopping = false → b.link.queue = [] →
      b.endStart = if b.privacyDeparted = true then State.withdraw { running with link := checks } else { running with link := checks } := by
    intro hstop hq
    unfold State.endStart
    rw [if_neg (by rw [show b.dev.stopping = false from hstop]; decide)]
    show (let t := supplySlots.foldl (fun s n => s.requestCheck n false) running
      if t.privacyDeparted then t.withdraw else t) = _
    rw [hchecks hq]
    rfl
  refine ⟨fun hstop => hanswer _ ?_, fun hstop hpriv hq => hanswer _ ?_, fun hstop hpriv hrests => ?_⟩
  · rw [State.endStart, if_pos (show b.dev.stopping = true from hstop)]
    rfl
  · rw [hruns hstop hq, if_neg (by simp [hpriv])]
    rfl
  · obtain ⟨hprint, hscan, hqueue, -⟩ := hrests hop
    let withdrawn : State := { running with link := checks, dev := { b.dev with op := .withdrawn, clock := 0, entryTime := some 0 } }
    have hw : State.withdraw { running with link := checks } = withdrawn.wipeAll := by
      obtain ⟨hframe, -, -⟩ := withdrawn.wipeAll_spec
      have hp : withdrawn.wipeAll.print.state = .idle := by rw [hframe]; exact hprint
      have hs : withdrawn.wipeAll.scan.state = .idle := by rw [hframe]; exact hscan
      have h1 : withdrawn.wipeAll.printWithdrawal = withdrawn.wipeAll := by rw [State.printWithdrawal, hp]
      have h2 : withdrawn.wipeAll.scanWithdrawal = withdrawn.wipeAll := by rw [State.scanWithdrawal, hs]
      refine (if_pos rfl).trans ?_
      show (withdrawn.wipeAll.printWithdrawal).scanWithdrawal = _
      rw [h1, h2]
    obtain ⟨hframe, hfree, hjobs⟩ := withdrawn.wipeAll_spec
    have hend : b.endStart = withdrawn.wipeAll := by rw [hruns hstop hqueue, if_pos hpriv, hw]
    generalize withdrawn.wipeAll = t at hend hframe hfree hjobs
    refine ⟨t.finish, hanswer _ (by rw [hend]), ?_, hfree, hjobs⟩
    rw [hframe]
    rfl

/-- Settles O11: the reset input holds the part; a loss of power leaves what stood at its moment. -/
theorem resetInputAndLossOfPower : Obligations.ResetInputAndLossOfPower := by
  refine ⟨fun s hp => ?_, fun writes s hp => ?_, fun s area st hp hw hne => ?_⟩
  · have heffect : effectOf .resetInputAssert (s.begin .calm) = (s.begin .calm).holdReset := if_pos hp
    exact (answers_iff (c := .resetInputAssert) nofun).mpr (congrArg State.finish heffect).symm
  · intro moments
    have hlost : Answers (.lossOfPower writes) s (s.losePower writes) := answers_lossOfPower.mpr (if_pos hp).symm
    have hheld : s.heldAfter writes = if h : writes < moments.length then moments[writes] else (s.stored, s.mem) := by
      cases writes with
      | zero => rfl
      | succ n =>
        by_cases hn : n < s.afterWrites.length <;> simp [State.heldAfter, moments, hn]
    exact ⟨_, hlost, rfl, hheld⟩
  · intro t
    have ht : t.afterWrites = [(st, s.mem)] := by
      refine (if_neg (by rw [hne]; decide)).trans ?_
      rw [hw]
      rfl
    have hlost : ∀ n, Answers (.lossOfPower n) t (t.losePower n) := fun n => answers_lossOfPower.mpr (if_pos hp).symm
    refine ⟨_, _, _, hlost 0, hlost 1, hlost 2, rfl, rfl, ?_, ?_, ?_, ?_⟩ <;>
      simp only [State.losePower, State.heldAfter, ht] <;> rfl

end Sys2Proof.Proofs
end

