-- ==== Sys2Proof/Proofs/Tickets.lean ====
section
/-! Tickets of sessions, jobs and the engine hold that end in their close: O15, O18, O19, O21, O23, O24. -/

namespace Sys2Proof.Machine

variable {s u v : State} {env : Env} {k : Ticket} {n i : Nat}

/-! ### Checks that pass -/

theorem lowest_eq {α : Type} {n : Nat} {v : Vector α n} {p : α → Bool} {i : Nat} (d : α) (hi : i < n)
    (hp : p (entryAt v i d) = true) (hbefore : ∀ j < i, p (entryAt v j d) = false) : lowest v p = some i := by
  rw [lowest, List.findIdx?_eq_some_iff_getElem]
  have hentry : ∀ j (h : j < n), entryAt v j d = v[j] := fun j h => by simp [entryAt, h]
  refine ⟨by simpa using hi, by simpa [hentry i hi] using hp, fun j hj => ?_⟩
  simpa [hentry j (Nat.lt_trans hj hi)] using hbefore j hj

theorem firstRefusal_cons_none (l : List (Option Refused)) : firstRefusal (none :: l) = firstRefusal l := by
  simp [firstRefusal]

theorem firstRefusal_cons_some (r : Refused) (l : List (Option Refused)) : firstRefusal (some r :: l) = some r := rfl

theorem firstRefusal_nil : firstRefusal [] = none := rfl

/-- Figure 6: an ACTIVE account passes the checks of its state. -/
theorem State.accountCheck_active (h : s.seen n = .active) (left : Nat) : s.accountCheck n left = none := by
  simp [State.accountCheck, h, refuseIf, firstRefusal]

theorem State.accountRefusal_active (h : s.seen n = .active) : s.accountRefusal n = none := State.accountCheck_active h _

theorem State.jobRefusal_opened {h : Handle} (hj : s.jobOf h = some i) (ho : (s.job i).state = .opened) (b : Bool) :
    s.jobRefusal h b = none := by
  rw [State.jobRefusal, hj]
  simp only [ho]

theorem State.jobOf_idx {h : Handle} (hj : s.jobOf h = some i) : h.idx = i ∧ i < 32 ∧ (s.job i).state ≠ .free ∧ (s.job i).gen = h.gen := by
  unfold State.jobOf at hj
  split at hj
  · rename_i hc
    cases hj
    exact ⟨rfl, hc⟩
  · cases hj

theorem State.jobRefusal_unended {h : Handle} (hj : s.jobOf h = some i) (ho : (s.job i).state ≠ .ending) :
    s.jobRefusal h false = none := by
  rw [State.jobRefusal, hj]
  have hf := (State.jobOf_idx hj).2.2.1
  cases hs : (s.job i).state <;> simp_all

theorem State.jobAccount_eq {h : Handle} (hj : s.jobOf h = some i) : s.jobAccount h = (s.job i).account := by
  rw [State.jobAccount, (State.jobOf_idx hj).1]

/-! ### Records written -/

/-- R1: a record put back as it was is no write. -/
theorem State.putRecord_same (s : State) (n : Nat) : s.putRecord n (s.record n) = s := by
  have hst : ({ s.stored with accounts := putAt s.stored.accounts n (s.record n) } : Stored) = s.stored := by
    rw [State.record, putAt_entryAt]
  rw [State.putRecord, hst, State.store]
  have hsame : s.stored.same s.stored (.account n) = true := by simp [Stored.same]
  rw [if_pos hsame]

theorem State.writeRecord_ok {r : AccountRecord} (h : r.checkOk = true) : s.writeRecord n r = s.putRecord n r := by
  rw [State.writeRecord, ← h]

/-! ### Answers of tickets whose close is followed by the core's next band -/

/-- A close changes nothing the core looks at. -/
theorem State.close_core (s : State) (lane : Fin 4) (code : ReturnCode) (w13 w14 : Nat) (e t : Bool) :
    (s.close lane code w13 w14 e t).core = s.core := by
  rw [State.close_frame]

theorem Serves.answers_pumped {kind : TicketKind} (h : Serves env s kind k) (gateW13 : Nat)
    {body : Ticket → State → State} {code : ReturnCode} {w13 w14 : Nat} {ended truncated : Bool}
    (hl : v.lanes = (s.begin env).lanes) (he : v.env = env) (hc : v.coreSettled)
    (hb : ∀ L, body k ((s.begin env).setLanes L) = ((v.setLanes L).close kind.lane code w13 w14 ended truncated).pumpCore) :
    command env s (serve kind gateW13 body) = .next (v.answered kind.lane k code w13 w14 ended truncated) := by
  refine h.answers gateW13 hl he fun L => (hb L).trans (State.pumpCore_settled ?_)
  unfold State.coreSettled
  rw [State.close_core]
  exact hc

/-! ### Open Session (R15) -/

/-- R15: an account whose state lets a session be opened. -/
theorem State.openSessionRefusal_active (h : u.seen n = .active) : u.openSessionRefusal n = none := by
  simp [State.openSessionRefusal, h, refuseIf, firstRefusal]

theorem State.openSessionRefusal_locked (h : u.seen n = .locked) :
    u.openSessionRefusal n = some { code := .accountLocked, w14 := u.lockoutLeft n } := by
  simp [State.openSessionRefusal, h, refuseIf, firstRefusal]

theorem openSessionBody_refused (h : bits (k.w 2) 15 0 ≤ 511) (hl : bits (k.w 2) 23 16 ≤ 16) (hn : n = bits (k.w 2) 15 0)
    (hok : (u.record n).checkOk = true) {r : Refused} (hr : u.openSessionRefusal n = some r) : openSessionBody k u = u.refuse 0 r := by
  subst hn
  unfold openSessionBody
  rw [if_neg (by omega)]
  dsimp only []
  rw [State.readAccount_ok hok, hr]

theorem openSessionBody_passed (h : bits (k.w 2) 15 0 ≤ 511) (hl : bits (k.w 2) 23 16 ≤ 16) (hn : n = bits (k.w 2) 15 0)
    (hok : (u.record n).checkOk = true) (hr : u.openSessionRefusal n = none) :
    openSessionBody k u =
      if u.credentialMatches n (credentialBytes k 3 (bits (k.w 2) 23 16)) then
        (if n ≠ 0 ∧ (u.record n).failed ≠ 0 then u.writeRecord n { u.record n with failed := 0 } else u).openSessionFor n
      else if n = 0 then u.close 0 .badCredential 0 (u.record 0).failed
      else u.wrongCredential n := by
  subst hn
  unfold openSessionBody
  rw [if_neg (by omega)]
  dsimp only []
  rw [State.readAccount_ok hok, hr]

/-- R15: the counter of failures cleared. -/
theorem State.failuresCleared (hok : (u.record n).checkOk = true) :
    (if n ≠ 0 ∧ (u.record n).failed ≠ 0 then u.writeRecord n { u.record n with failed := 0 } else u) =
      u.putRecord n { u.record n with failed := if n = 0 then (u.record n).failed else 0 } := by
  by_cases hn : n = 0
  · rw [if_neg fun h => h.1 hn, if_pos hn]
    exact (u.putRecord_same n).symm
  · rw [if_neg hn]
    by_cases hf : (u.record n).failed = 0
    · rw [if_neg fun h => h.2 hf]
      have hr : ({ u.record n with failed := 0 } : AccountRecord) = u.record n := by rw [← hf]
      rw [hr, State.putRecord_same]
    · rw [if_pos ⟨hn, hf⟩, State.writeRecord_ok (r := { u.record n with failed := 0 }) hok]

theorem State.openSessionFor_opens {e : Nat} (hs : (u.acct n).session = none) (he : e < 8) (hfree : (u.session e).isOpen = false)
    (hlow : ∀ i < e, (u.session i).isOpen = true) :
    u.openSessionFor n =
      ((u.putSession e { isOpen := true, gen := (u.session e).gen, account := n, opened := u.dev.clock, last := u.dev.clock }).putAcct n
        { u.acct n with session := some { idx := e, gen := (u.session e).gen } }).close 0 .ok
          (Handle.field { idx := e, gen := (u.session e).gen }) 0 := by
  have hlowest : lowest u.sessions (fun x => !x.isOpen) = some e := by
    refine lowest_eq (.free 0) he ?_ fun j hj => ?_
    · rw [show entryAt u.sessions e (.free 0) = u.session e from rfl, hfree]
      rfl
    · rw [show entryAt u.sessions j (.free 0) = u.session j from rfl, hlow j hj]
      rfl
  unfold State.openSessionFor
  rw [hs]
  dsimp only []
  rw [hlowest]
  rfl

theorem credentialBytes_isEmpty (k : Ticket) (i length : Nat) : (credentialBytes k i length).isEmpty = decide (length = 0) := by
  cases length <;> simp [credentialBytes, List.range_succ]

/-- R11: the credential presented matches the stored one. -/
theorem State.credentialMatches_of {length : Nat}
    (h : if n ≠ 0 ∧ (u.record n).credential ≠ none then
        length ≠ 0 ∧ (u.record n).credential = some (Config.keyedDigest.digest (credentialBytes k 3 length))
      else length = 0) : u.credentialMatches n (credentialBytes k 3 length) = true := by
  unfold State.credentialMatches
  by_cases hn : n = 0
  · rw [if_neg fun hc => hc.1 hn] at h
    simp [hn, credentialBytes_isEmpty, h]
  · cases hcred : (u.record n).credential with
    | none =>
      rw [if_neg fun hc => hc.2 hcred] at h
      simp [hn, credentialBytes_isEmpty, h]
    | some d =>
      rw [if_pos ⟨hn, by simp [hcred]⟩, hcred] at h
      obtain ⟨hlen, hd⟩ := h
      simp [hn, credentialBytes_isEmpty, hlen, Option.some.inj hd]

/-- R12: what a wrong credential leaves. -/
theorem State.wrongCredential_eq (hok : (u.record n).checkOk = true) :
    u.wrongCredential n =
      if u.stored.settings.timers.failureLimit ≤ min 15 ((u.record n).failed + 1) then
        ((u.putRecord n { u.record n with failed := min 15 ((u.record n).failed + 1), state := .locked }).putAcct n
          { u.acct n with
            lockoutEnd := if u.stored.settings.timers.lockoutPeriod = 0 then none
              else some (u.dev.clock + u.stored.settings.timers.lockoutPeriod) }).close 0 .badCredential 0
                (min 15 ((u.record n).failed + 1))
      else (u.putRecord n { u.record n with failed := min 15 ((u.record n).failed + 1) }).close 0 .badCredential 0
        (min 15 ((u.record n).failed + 1)) := by
  let r := (u.record n).wrong u.stored.settings.timers.failureLimit
  have hw : u.writeRecord n r = u.putRecord n r := State.writeRecord_ok hok
  unfold State.wrongCredential
  dsimp only []
  rw [hw]
  by_cases h : u.stored.settings.timers.failureLimit ≤ min 15 ((u.record n).failed + 1)
  · have hr : r = { u.record n with failed := min 15 ((u.record n).failed + 1), state := .locked } :=
      congrArg (fun x => ({ u.record n with failed := min 15 ((u.record n).failed + 1), state := x } : AccountRecord)) (if_pos h)
    rw [if_pos h, hr]
    exact congrArg (fun x : State => x.close 0 .badCredential 0 (min 15 ((u.record n).failed + 1))) (if_pos h)
  · have hr : r = { u.record n with failed := min 15 ((u.record n).failed + 1) } :=
      congrArg (fun x => ({ u.record n with failed := min 15 ((u.record n).failed + 1), state := x } : AccountRecord)) (if_neg h)
    rw [if_neg h, hr]
    exact congrArg (fun x : State => x.close 0 .badCredential 0 (min 15 ((u.record n).failed + 1))) (if_neg h)

theorem State.lockoutLeft_locked (h : u.seen n = .locked) :
    u.lockoutLeft n = (match (u.acct n).lockoutEnd with | none => 0 | some e => max 1 (e - u.dev.clock)) := by
  unfold State.lockoutLeft
  cases (u.acct n).lockoutEnd with
  | none => rfl
  | some e => exact if_pos h

/-! ### Open Job and Resume Job (R23, R24, R32) -/

theorem State.grantOf_available (s : State) (n units : Nat) :
    grantOf units (s.available n) =
      if s.unlimited n = true then units else min units ((s.record n).quota - (s.record n).used - (s.acct n).reserved) := by
  unfold State.available
  by_cases h : s.unlimited n = true
  · rw [if_pos h, if_pos h]
    rfl
  · rw [if_neg h, if_neg h]
    rfl

theorem State.openJobRefusal_none {a : OpenJobArgs} (hseen : u.seen a.account = .active)
    (hown : u.needsSession a.account = true ∨ a.session ≠ none → u.ownSession a.session a.account = true)
    (hscan : a.kind ≠ .print → u.mayScan a.account = true) (hfree : u.freeEntry.isSome = true) : u.openJobRefusal a = none := by
  have hacct := State.accountRefusal_active hseen
  have hneeds : (u.needsSession a.account && !u.ownSession a.session a.account) = false := by
    cases h : u.needsSession a.account
    · rfl
    · rw [hown (.inl h)]
      rfl
  have hnamed : (a.session.isSome && !u.ownSession a.session a.account) = false := by
    cases h : a.session
    · rfl
    · rw [← h, hown (.inr (by simp [h]))]
      simp
  have hmay : ¬(¬a.kind = .print ∧ u.mayScan a.account = false) := fun h => by simp [hscan h.1] at h
  have hentry : u.freeEntry.isNone = false := by simpa using hfree
  simp [State.openJobRefusal, firstRefusal_cons_none, firstRefusal_nil, refuseIf, hacct, hneeds, hnamed, hmay, hentry, hseen]

theorem State.freeEntry_eq (hi : i < 32) (hfree : (u.job i).state = .free) (hlow : ∀ j < i, (u.job j).state ≠ .free) :
    u.freeEntry = some i :=
  lowest_eq (.freed 0) hi (decide_eq_true hfree) fun j hj => decide_eq_false (hlow j hj)

theorem openJobBody_opens {a : OpenJobArgs} (ha : OpenJobArgs.ofTicket k = some a) (hv : v = u.touchOptSession a.session)
    (hok : (v.record a.account).checkOk = true) (href : v.openJobRefusal a = none) (hfree : v.freeEntry = some i) :
    openJobBody k u = v.openJobEntry a i := by
  subst hv
  unfold openJobBody
  rw [ha]
  dsimp only []
  rw [State.readAccount_ok hok, href, hfree]

theorem resumeJobBody_grants {h : Handle} (hh : h = Handle.ofField (k.w 2)) (hv : v = u.touchJob h) (hj : v.jobOf h = some i)
    (hstate : (v.job i).state ≠ .ending) (hok : (v.record (v.job i).account).checkOk = true)
    (hseen : v.seen (v.job i).account = .active) :
    resumeJobBody k u =
      ((v.putJob i { v.job i with
          state := .opened, free := (v.job i).free + v.resumeGrant (v.job i) (k.w 3).toNat }).addReserved (v.job i).account
        (v.resumeGrant (v.job i) (k.w 3).toNat)).close 0 .ok (v.resumeGrant (v.job i) (k.w 3).toNat)
        ((v.job i).free + v.resumeGrant (v.job i) (k.w 3).toNat) := by
  subst hh hv
  unfold resumeJobBody
  dsimp only []
  rw [hj, State.jobRefusal_unended hj hstate]
  dsimp only []
  rw [State.readAccount_ok hok, State.accountRefusal_active hseen]

/-! ### The engine hold (R37 to R39) -/

theorem State.heldByOther_own {h : Handle} (ho : ∀ e, u.hold = some e → e.owner = h) : u.heldByOther h = none := by
  unfold State.heldByOther
  cases hh : u.hold with
  | none => rfl
  | some e => simp [refuseIf, ho e hh]

theorem State.heldByOther_other {h : Handle} {e : EngineHold} (hh : u.hold = some e) (ho : e.owner ≠ h) :
    u.heldByOther h = some { code := .heldByOther, w14 := e.account } := by
  simp [State.heldByOther, hh, refuseIf, ho]

theorem takeHoldBody_checked {h : Handle} (hh : h = Handle.ofField (k.w 2)) (hv : v = u.touchJob h) (hj : v.jobOf h = some i)
    (hstate : (v.job i).state = .opened) (hkind : (v.job i).kind ≠ .scan)
    (hok : (v.record (v.job i).account).checkOk = true) (hseen : v.seen (v.job i).account = .active) :
    (∀ e, v.hold = some e → e.owner ≠ h → takeHoldBody k u = v.close 0 .heldByOther 0 e.account) ∧
      ((∀ e, v.hold = some e → e.owner = h) → takeHoldBody k u =
        State.close { v with hold := some { owner := h, account := (v.job i).account, last := v.dev.clock } } 0 .ok
          (flagBit v.hold.isNone) 0) := by
  subst hh hv
  generalize hvdef : u.touchJob (Handle.ofField (k.w 2)) = v at *
  have hkind' : v.jobKind (Handle.ofField (k.w 2)) ≠ .scan := by rw [State.jobKind, (State.jobOf_idx hj).1]; exact hkind
  have hchecks : firstRefusal [v.jobRefusal (Handle.ofField (k.w 2)) true,
      refuseIf (v.jobKind (Handle.ofField (k.w 2)) = .scan) .notPermitted] = none := by
    rw [State.jobRefusal_opened hj hstate]
    simp [firstRefusal_cons_none, firstRefusal_nil, refuseIf, hkind']
  have hbody : ∀ r, v.heldByOther (Handle.ofField (k.w 2)) = r → takeHoldBody k u =
      match r with
      | some r => v.refuse 0 r
      | none => State.close { v with hold := some { owner := Handle.ofField (k.w 2), account := (v.job i).account, last := v.dev.clock } }
          0 .ok (flagBit v.hold.isNone) 0 := by
    intro r hr
    unfold takeHoldBody
    dsimp only []
    rw [hvdef, hchecks]
    dsimp only []
    rw [State.jobAccount_eq hj, State.readAccount_ok hok, State.accountCheck_active hseen, firstRefusal_cons_none, hr]
    cases r <;> rfl
  exact ⟨fun e he ho => hbody _ (State.heldByOther_other he ho), fun ho => hbody _ (State.heldByOther_own ho)⟩

theorem releaseHoldBody_checked {h : Handle} (hh : h = Handle.ofField (k.w 2)) (hv : v = u.touchJob h) (hj : v.jobOf h = some i)
    (hstate : (v.job i).state = .opened) :
    (∀ e, v.hold = some e → e.owner ≠ h → releaseHoldBody k u = v.close 0 .heldByOther 0 e.account) ∧
      ((∀ e, v.hold = some e → e.owner = h) → releaseHoldBody k u = State.close { v with hold := none } 0 .ok (flagBit v.hold.isSome) 0) := by
  subst hh hv
  generalize hvdef : u.touchJob (Handle.ofField (k.w 2)) = v at *
  have hbody : ∀ r, v.heldByOther (Handle.ofField (k.w 2)) = r → releaseHoldBody k u =
      match r with
      | some r => v.refuse 0 r
      | none => State.close { v with hold := none } 0 .ok (flagBit v.hold.isSome) 0 := by
    intro r hr
    unfold releaseHoldBody
    dsimp only []
    rw [hvdef, State.jobRefusal_opened hj hstate, firstRefusal_cons_none, hr]
    cases r <;> rfl
  exact ⟨fun e he ho => hbody _ (State.heldByOther_other he ho), fun ho => hbody _ (State.heldByOther_own ho)⟩

/-! ### Key slot tickets (R104, R107, R109) -/

theorem State.listFull_none {h : Handle} (hj : u.jobOf h = some i) (hlen : (u.job i).slots.length < 4) : u.listFull h = none := by
  rw [State.listFull, (State.jobOf_idx hj).1, refuseIf_none]
  simpa using hlen

theorem State.freeSlot_eq (hi : i < 32) (hfree : (u.slot i).state = .free) (hlow : ∀ j < i, (u.slot j).state ≠ .free) :
    u.freeSlot = some i :=
  lowest_eq (.free 0) hi (decide_eq_true hfree) fun j hj => decide_eq_false (hlow j hj)

theorem openSlotBody_opens {h : Handle} {j : Nat} (hh : h = Handle.ofField (k.w 2)) (hv : v = u.touchJob h)
    (huses : BitVec.ofNat 4 (bits (k.w 3) 3 0) ≠ 0) (hkeep : bits (k.w 3) 9 8 ≤ 1) (hj : v.jobOf h = some i)
    (hstate : (v.job i).state = .opened) (hok : (v.record (v.job i).account).checkOk = true)
    (hseen : v.seen (v.job i).account = .active) (hlen : (v.job i).slots.length < 4) (hfree : v.freeSlot = some j) :
    openSlotBody k u = v.openSlotEntry j h (BitVec.ofNat 4 (bits (k.w 3) 3 0)) (bits (k.w 3) 9 8 = 1) := by
  subst hh hv
  unfold openSlotBody
  rw [if_neg (not_or.mpr ⟨huses, by omega⟩)]
  dsimp only []
  rw [State.jobRefusal_opened hj hstate]
  dsimp only []
  rw [State.jobAccount_eq hj, State.readAccount_ok hok, State.accountRefusal_active hseen, State.listFull_none hj hlen]
  simp only [firstRefusal_cons_none, firstRefusal_nil, hfree]

theorem State.openSlotEntry_eq {h : Handle} {j : Nat} (hj : u.jobOf h = some i) (uses : BitVec 4) (keep : Bool) :
    u.openSlotEntry j h uses keep =
      State.close
        { (u.putSlot j
            { state := .live, gen := (u.slot j).gen, owner := some (u.job i).account, job := some h, uses, page := 0
              keep := if keep = true then u.stored.settings.timers.heldSlotTime else 0, expiry := none
              key := some (Config.randomSource.key u.draws) }).putJob i
            { u.job i with slots := (u.job i).slots ++ [{ idx := j, gen := (u.slot j).gen }] } with draws := u.draws + 1 }
        0 .ok (SlotHandle.word { idx := j, gen := (u.slot j).gen })
        (if keep = true then u.stored.settings.timers.heldSlotTime else 0) := by
  unfold State.openSlotEntry
  rw [State.jobAccount_eq hj, (State.jobOf_idx hj).1]
  rfl

theorem State.attachSlotEntry_eq {job : Handle} {h : SlotHandle} (hj : u.jobOf job = some i) :
    u.attachSlotEntry h job =
      ((u.putSlot h.idx { u.slot h.idx with state := .live, job := some job, expiry := none, keep := 0 }).putJob i
        { u.job i with slots := (u.job i).slots ++ [h] }).close 0 .ok (u.slot h.idx).page (u.slot h.idx).uses.toNat := by
  unfold State.attachSlotEntry
  rw [(State.jobOf_idx hj).1]
  rfl

theorem keepSlotBody_keeps {h : SlotHandle} {job : Handle} (hh : h = SlotHandle.ofWord (k.w 2)) (hjob : job = Handle.ofField (k.w 3))
    (hv : v = u.touchJob job) (hj : v.jobOf job = some i) (hstate : (v.job i).state ≠ .ending)
    (hatt : v.attachedTo h job = true) :
    keepSlotBody k u =
      (v.putSlot h.idx { v.slot h.idx with keep := min 4320 (bits (k.w 4) 15 0) }).close 0 .ok (min 4320 (bits (k.w 4) 15 0)) 0 := by
  subst hh hjob hv
  unfold keepSlotBody
  dsimp only []
  rw [State.jobRefusal_unended hj hstate, hatt]
  rfl

theorem State.sessionRefusal_own {session : Handle} {h : SlotHandle} (hs : u.sessionAccount session = some n)
    (ho : (u.slot h.idx).owner = some n) : u.sessionRefusal session h = none := by
  rw [State.sessionRefusal, hs]
  simp [refuseIf, ho]

theorem State.ownerRefusal_own {job : Handle} {h : SlotHandle} (hj : u.jobOf job = some i)
    (ho : (u.slot h.idx).owner = some (u.job i).account) : u.ownerRefusal job h = none := by
  rw [State.ownerRefusal, State.jobAccount_eq hj]
  simp [refuseIf, ho]

theorem attachSlotBody_attaches {h : SlotHandle} {job session : Handle} (hh : h = SlotHandle.ofWord (k.w 2))
    (hjob : job = Handle.ofField (k.w 3)) (hsession : session = Handle.ofField (k.w 4))
    (hv : v = (u.touchJob job).touchSession session) (hj : v.jobOf job = some i) (hstate : (v.job i).state = .opened)
    (hslot : v.slotOf h = some h.idx) (hheld : (v.slot h.idx).state = .held)
    (hacct : v.sessionAccount session = some (v.job i).account) (howner : (v.slot h.idx).owner = some (v.job i).account)
    (hok : (v.record (v.job i).account).checkOk = true) (hseen : v.seen (v.job i).account = .active)
    (hlen : (v.job i).slots.length < 4) : attachSlotBody k u = v.attachSlotEntry h job := by
  subst hh hjob hsession
  unfold attachSlotBody
  dsimp only []
  rw [← hv]
  have hslotok : refuseIf ((v.slotOf (SlotHandle.ofWord (k.w 2))).isNone ||
      decide ((v.slot (SlotHandle.ofWord (k.w 2)).idx).state = .live)) .badSlot = none := by
    rw [hslot, hheld]
    rfl
  rw [State.jobRefusal_opened hj hstate, hslotok, State.sessionRefusal_own hacct howner, State.ownerRefusal_own hj howner]
  simp only [firstRefusal_cons_none, firstRefusal_nil]
  rw [State.jobAccount_eq hj, State.readAccount_ok hok, State.accountRefusal_active hseen, State.listFull_none hj hlen]
  simp only [firstRefusal_cons_none, firstRefusal_nil]

/-- R111: a table entry written twice. -/
theorem State.touchJob_lanes (s : State) (h : Handle) : (s.touchJob h).lanes = s.lanes := by rw [State.touchJob_frame]

theorem State.touchJob_env (s : State) (h : Handle) : (s.touchJob h).env = s.env := by rw [State.touchJob_frame]

theorem State.touchSession_lanes (s : State) (h : Handle) : (s.touchSession h).lanes = s.lanes := by rw [State.touchSession_frame]

theorem State.touchSession_env (s : State) (h : Handle) : (s.touchSession h).env = s.env := by rw [State.touchSession_frame]

theorem State.touchOptSession_lanes (s : State) (h : Option Handle) : (s.touchOptSession h).lanes = s.lanes := by
  rw [State.touchOptSession_frame]

theorem State.touchOptSession_env (s : State) (h : Option Handle) : (s.touchOptSession h).env = s.env := by
  rw [State.touchOptSession_frame]

end Sys2Proof.Machine

namespace Sys2Proof.Proofs

open Sys2Proof.Machine

/-- Settles O15: the checks of Open Session in turn, then the entry opened or the failure counted. -/
theorem openSessionAnswers : Obligations.OpenSessionAnswers := by
  refine ⟨?_, ?_⟩
  · intro env s k n length e hserves hn hlength hle hlen b hok hactive hcred hsession he hfree hlow h
    subst hlength
    refine hserves.answers 0 rfl rfl fun L => ?_
    let u := b.setLanes L
    have hpassed := openSessionBody_passed (u := u) (hn ▸ hle) hlen hn hok (State.openSessionRefusal_active hactive)
    refine (hpassed.trans (if_pos (State.credentialMatches_of (u := u) hcred))).trans ?_
    rw [State.failuresCleared (u := u) hok]
    exact State.openSessionFor_opens hsession he hfree hlow
  · intro env s k n length hserves hn hlength h1 hle hlen b timers hok
    subst hlength
    refine ⟨fun hlocked => ?_, ?_⟩
    · refine hserves.answers 0 rfl rfl fun L => ?_
      let u := b.setLanes L
      refine (openSessionBody_refused (u := u) (hn ▸ hle) hlen hn hok (State.openSessionRefusal_locked hlocked)).trans ?_
      have hleft := State.lockoutLeft_locked (u := u) hlocked
      exact congrArg (u.close 0 .accountLocked 0) hleft
    · intro hactive hwrong failed
      have hbody : ∀ L, openSessionBody k (b.setLanes L) = (b.setLanes L).wrongCredential n := fun L => by
        have hpassed := openSessionBody_passed (u := b.setLanes L) (hn ▸ hle) hlen hn hok (State.openSessionRefusal_active hactive)
        have hmatch : ¬(b.setLanes L).credentialMatches n (credentialBytes k 3 (bits (k.w 2) 23 16)) = true := by
          rw [State.setLanes_at_credentialMatches, hwrong]
          decide
        exact (hpassed.trans (if_neg hmatch)).trans (if_neg (by omega))
      split
      · rename_i hlimit
        refine hserves.answers 0 rfl rfl fun L => ?_
        exact (hbody L).trans ((State.wrongCredential_eq (u := b.setLanes L) hok).trans (if_pos hlimit))
      · rename_i hlimit
        refine hserves.answers 0 rfl rfl fun L => ?_
        exact (hbody L).trans ((State.wrongCredential_eq (u := b.setLanes L) hok).trans (if_neg hlimit))

/-- Settles O18: the checks pass, and the units granted are reserved. -/
theorem jobGrants : Obligations.JobGrants := by
  refine ⟨?_, ?_⟩
  · intro env s k a i hserves ha b n hok hactive hown hscan hi hfree hlow grant h
    have hentry : b.freeEntry = some i := State.freeEntry_eq hi hfree hlow
    have href : b.openJobRefusal a = none := State.openJobRefusal_none hactive hown hscan (by rw [hentry]; rfl)
    have hgrant : grantOf a.units (b.available n) = grant := b.grantOf_available n a.units
    refine hserves.answers 0 (State.touchOptSession_lanes _ _) (State.touchOptSession_env _ _) fun L => ?_
    refine (openJobBody_opens (v := b.setLanes L) ha (State.setLanes_touchOptSession ..).symm hok href hentry).trans ?_
    rw [← hgrant]
    rfl
  · intro env s k i hserves h b j n hj hstate hok hactive units grant
    have hgrant : b.resumeGrant j units = grant := by
      rw [State.resumeGrant, b.grantOf_available]
    refine hserves.answers 0 (State.touchJob_lanes _ _) (State.touchJob_env _ _) fun L => ?_
    refine (resumeJobBody_grants (v := b.setLanes L) rfl (State.setLanes_touchJob ..).symm hj hstate hok hactive).trans ?_
    rw [← hgrant]
    rfl

/-- Settles O21: an engine hold of another job refuses, else the hold is taken or released. -/
theorem engineHoldTickets : Obligations.EngineHoldTickets := by
  intro env s k i h b n own hj hstate
  have hl : b.lanes = (s.begin env).lanes := State.touchJob_lanes (s.begin env) h
  have he : b.env = env := State.touchJob_env (s.begin env) h
  have hv : ∀ L, b.setLanes L = ((s.begin env).setLanes L).touchJob h := fun L => (State.setLanes_touchJob ..).symm
  refine ⟨fun hserves hkind hok hactive => ?_, fun hserves => ?_⟩
  · have hchecked := fun L => takeHoldBody_checked (u := (s.begin env).setLanes L) (v := b.setLanes L) rfl (hv L) hj hstate hkind
      hok hactive
    clear_value b
    refine ⟨fun ho => ?_, fun e hhold ho => ?_⟩
    · have hflag : flagBit b.hold.isNone = if b.hold = none then 1 else 0 := by cases b.hold <;> rfl
      rw [← hflag]
      exact hserves.answers 0 (v := { b with hold := some { owner := h, account := n, last := b.dev.clock } }) hl he fun L =>
        (hchecked L).2 ho
    · exact hserves.answers 0 (v := b) hl he fun L => (hchecked L).1 e hhold ho
  · have hchecked := fun L => releaseHoldBody_checked (u := (s.begin env).setLanes L) (v := b.setLanes L) rfl (hv L) hj hstate
    clear_value b
    refine ⟨fun ho => ?_, fun e hhold ho => ?_⟩
    · have hflag : flagBit b.hold.isSome = if b.hold = none then 0 else 1 := by cases b.hold <;> rfl
      rw [← hflag]
      exact hserves.answers 0 (v := { b with hold := none }) hl he fun L => (hchecked L).2 ho
    · exact hserves.answers 0 (v := b) hl he fun L => (hchecked L).1 e hhold ho

/-- Settles O23: the lowest FREE slot is opened with the next draw's key, which no earlier draw gave. -/
theorem openSlotDrawsKey : Obligations.OpenSlotDrawsKey := by
  intro env s k i j hserves h b uses n huses hkeep hj hstate hok hactive hlen hj32 hfree hlow minutes gen key
  refine ⟨hserves.answers 0 (State.touchJob_lanes _ _) (State.touchJob_env _ _) fun L => ?_, fun hd d hlt heq => ?_⟩
  · refine (openSlotBody_opens (v := b.setLanes L) rfl (State.setLanes_touchJob ..).symm huses hkeep hj hstate hok hactive hlen
      (State.freeSlot_eq (u := b) hj32 hfree hlow)).trans ?_
    refine (State.openSlotEntry_eq (u := b.setLanes L) hj uses _).trans ?_
    have hminutes : (if decide (bits (k.w 3) 9 8 = 1) = true then (b.setLanes L).stored.settings.timers.heldSlotTime else 0) =
        minutes := by simp only [decide_eq_true_eq]; rfl
    rw [hminutes]
    rfl
  · exact absurd (Config.randomSource.key_fresh d b.draws (Nat.lt_trans hlt hd) hd heq) (Nat.ne_of_lt hlt)

/-- Settles O24: the slot's minutes are set, or the slot is attached to the job. -/
theorem keepAndAttachSlot : Obligations.KeepAndAttachSlot := by
  intro env s k i h job session
  refine ⟨?_, ?_⟩
  · intro hserves b hj hstate hslot hlive hjob minutes
    have hatt : ∀ L, (b.setLanes L).attachedTo h job = true := fun L => by
      simp [State.attachedTo, hslot, hlive, hjob]
    exact hserves.answers 0 (State.touchJob_lanes _ _) (State.touchJob_env _ _) fun L =>
      keepSlotBody_keeps (v := b.setLanes L) rfl rfl (State.setLanes_touchJob ..).symm hj hstate (hatt L)
  · intro hserves b n hj hstate hslot hheld hacct howner hok hactive hlen
    have hv : ∀ L, b.setLanes L = (((s.begin env).setLanes L).touchJob job).touchSession session := fun L => by
      rw [State.setLanes_touchJob, State.setLanes_touchSession]
    refine hserves.answers 0 ((State.touchSession_lanes _ _).trans (State.touchJob_lanes _ _))
      ((State.touchSession_env _ _).trans (State.touchJob_env _ _)) fun L => ?_
    refine (attachSlotBody_attaches (v := b.setLanes L) rfl rfl rfl (hv L) hj hstate hslot hheld hacct howner hok hactive hlen).trans ?_
    exact State.attachSlotEntry_eq (u := b.setLanes L) hj

end Sys2Proof.Proofs
end

