-- ==== Sys2Proof/Proofs/JobEnds.lean ====
section
/-! The end of a job and what it does to its slots (R33 to R35, R108): O19, O20. -/

namespace Sys2Proof.Machine

variable {s u v : State} {env : Env} {k : Ticket} {n i : Nat}

/-! ### Entries written twice -/

theorem putAt_putAt {α : Type} {n : Nat} (v : Vector α n) (i : Nat) (x y : α) : putAt (putAt v i x) i y = putAt v i y := by
  unfold putAt
  ext j hj
  simp only [Vector.getElem_setIfInBounds]
  split <;> rfl

theorem State.putJob_putJob (s : State) (i : Nat) (x y : Job) : (s.putJob i x).putJob i y = s.putJob i y := by
  rw [State.putJob, State.putJob_jobs, putAt_putAt]
  rfl

theorem State.putJob_same (s : State) (i : Nat) : s.putJob i (s.job i) = s := by rw [State.putJob, State.job, putAt_entryAt]

theorem State.putJob_job_same (s : State) (x : Job) (h : i < 32) : (s.putJob i x).job i = x := by
  rw [State.putJob_job, if_pos ⟨rfl, h⟩]

theorem State.putJob_job_other (s : State) (x : Job) {j : Nat} (h : i ≠ j) : (s.putJob i x).job j = s.job j := by
  rw [State.putJob_job, if_neg fun hc => h hc.1]

theorem State.jobHandle_eq {h : Handle} (hj : s.jobOf h = some i) : s.jobHandle i = h := by
  obtain ⟨hidx, -, -, hgen⟩ := State.jobOf_idx hj
  rw [State.jobHandle, hgen, ← hidx]

/-! ### The parts of a job's end -/

theorem State.closeWaitingPrint_none (h : Handle) (hp : s.print.state ≠ .waiting) : s.closeWaitingPrint h = s := by
  unfold State.closeWaitingPrint
  split
  · rename_i hw _
    exact absurd hw hp
  · rfl

theorem State.closeWaitingScan_none (h : Handle) (hp : s.scan.state ≠ .waiting) : s.closeWaitingScan h = s := by
  unfold State.closeWaitingScan
  split
  · rename_i hw _
    exact absurd hw hp
  · rfl

theorem State.releaseHoldOf_eq (s : State) (h : Handle) :
    s.releaseHoldOf h = { s with hold := if s.hold.map (·.owner) = some h then none else s.hold } := by
  unfold State.releaseHoldOf
  cases hh : s.hold with
  | none => simp [← hh]
  | some e =>
    by_cases ho : e.owner = h
    · simp [ho]
    · have hnone : (if (some e).map (fun x : EngineHold => x.owner) = some h then none else some e) = s.hold := by simp [ho, hh]
      rw [hnone]
      exact if_neg ho

/-- R33 step 2. -/
theorem State.releaseFree_eq (s : State) (i : Nat) :
    s.releaseFree i =
      (s.putAcct (s.job i).account { s.acct (s.job i).account with
        reserved := (s.acct (s.job i).account).reserved - (s.job i).free }).putJob i { s.job i with free := 0 } := rfl

theorem State.jobEndSlots_nil (h : (s.job i).slots = []) : s.jobEndSlots i = s := by
  unfold State.jobEndSlots
  rw [h]
  have hj : ({ s.job i with slots := [] } : Job) = s.job i := by rw [← h]
  exact (congrArg (s.putJob i) hj).trans (s.putJob_same i)

/-- R33 steps 2 and 3: what a job's end leaves before its slots. -/
def State.jobReleased (s : State) (i : Nat) : State := (s.releaseFree i).releaseHoldOf (s.jobHandle i)

theorem State.jobReleased_eq (s : State) (i : Nat) :
    s.jobReleased i =
      { (s.putAcct (s.job i).account { s.acct (s.job i).account with
          reserved := (s.acct (s.job i).account).reserved - (s.job i).free }).putJob i { s.job i with free := 0 } with
        hold := if s.hold.map (·.owner) = some (s.jobHandle i) then none else s.hold } := by
  rw [State.jobReleased, State.releaseHoldOf_eq, State.releaseFree_eq]
  rfl

/-- Accounts, jobs and the engine hold alone change. -/
theorem State.jobReleased_frame (s : State) (i : Nat) :
    ∃ accounts jobs hold, s.jobReleased i = { s with accounts := accounts, jobs := jobs, hold := hold } :=
  ⟨_, _, _, s.jobReleased_eq i⟩

theorem State.jobReleased_job (s : State) (hi : i < 32) : (s.jobReleased i).job i = { s.job i with free := 0 } := by
  rw [State.jobReleased_eq]
  exact State.putJob_job_same _ _ hi

/-- R33, R34: the two ends of a job for which no page waits in admission. -/
theorem State.endJobEntry_unwaited (hp : s.print.state ≠ .waiting) (hsc : s.scan.state ≠ .waiting) (hi : i < 32) :
    s.endJobEntry i =
      if (s.job i).printFlight = true ∨ (s.job i).scanFlight = true then
        ((s.jobReleased i).putJob i { s.job i with state := .ending, free := 0 }, false)
      else (((s.jobReleased i).jobEndSlots i).freeJob i, true) := by
  unfold State.endJobEntry
  dsimp only []
  rw [State.closeWaitingPrint_none _ hp, State.closeWaitingScan_none _ hsc]
  split
  · have hj := s.jobReleased_job hi
    rw [State.jobReleased] at hj ⊢
    rw [hj]
  · rfl

theorem endJobBody_ends {h : Handle} (hh : h = Handle.ofField (k.w 2)) (hv : v = u.touchJob h) (hj : v.jobOf h = some i)
    (hstate : (v.job i).state ≠ .ending) :
    endJobBody k u =
      ((v.endJobEntry i).1.close 0 (if (v.endJobEntry i).2 then .ok else .deferred) (v.job i).total (v.job i).charged
        (v.endJobEntry i).2).pumpCore := by
  subst hh hv
  unfold endJobBody
  dsimp only []
  rw [hj, State.jobRefusal_unended hj hstate]

/-! ### The core's next band -/

/-- R84: which band the core takes depends on the core and the two paths. -/
theorem State.pumpCore_core_congr (hc : s.core = u.core) (hp : s.print = u.print) (hs : s.scan = u.scan) :
    s.pumpCore.core = u.pumpCore.core := by
  have hslot : ∀ i, s.bandSlot i = u.bandSlot i := fun i => by rw [State.bandSlot, State.bandSlot, hp]
  have hscan : s.scanSlot = u.scanSlot := by rw [State.scanSlot, State.scanSlot, hs]
  have hnext : ∀ i, s.nextScanBand i = u.nextScanBand i := fun i => by rw [State.nextScanBand, State.nextScanBand, hs]
  unfold State.pumpCore
  rw [hc]
  split
  · split
    · exact hc
    · split
      · exact hc
      · rw [hslot]
    · split
      · exact hc
      · rw [hscan, hnext]
  · exact hc

theorem State.close_print (s : State) (lane : Fin 4) (code : ReturnCode) (w13 w14 : Nat) (e t : Bool) :
    (s.close lane code w13 w14 e t).print = s.print := by
  rw [State.close_frame]

theorem State.close_scan (s : State) (lane : Fin 4) (code : ReturnCode) (w13 w14 : Nat) (e t : Bool) :
    (s.close lane code w13 w14 e t).scan = s.scan := by
  rw [State.close_frame]

theorem State.close_pumpCore (s : State) (lane : Fin 4) (code : ReturnCode) (w13 w14 : Nat) (e t : Bool) :
    (s.close lane code w13 w14 e t).pumpCore = { s.close lane code w13 w14 e t with core := s.pumpCore.core } := by
  rw [State.pumpCore_frame, State.pumpCore_core_congr (u := s) (State.close_core ..) (State.close_print ..) (State.close_scan ..)]

/-- The answer of a ticket whose close is followed by the core's next band. -/
theorem Serves.answers_core {kind : TicketKind} (h : Serves env s kind k) (gateW13 : Nat)
    {body : Ticket → State → State} {code : ReturnCode} {w13 w14 : Nat} {ended truncated : Bool}
    (hl : v.lanes = (s.begin env).lanes) (he : v.env = env)
    (hb : ∀ L, body k ((s.begin env).setLanes L) = ((v.setLanes L).close kind.lane code w13 w14 ended truncated).pumpCore) :
    command env s (serve kind gateW13 body) =
      .next { v.answered kind.lane k code w13 w14 ended truncated with core := v.pumpCore.core } := by
  have hs := (State.serving_some h.1).2.1
  rw [command_next, serve_body h, State.beginService_setLanes, hb, State.close_pumpCore]
  have hclose := State.close_served (b := s.begin env) (u := v.setLanes ((s.begin env).beginService kind.lane).lanes) hs h.2.2 rfl
    (by simp [he]) code w13 w14 ended truncated
  have hcore : (v.setLanes ((s.begin env).beginService kind.lane).lanes).pumpCore.core = v.pumpCore.core :=
    State.pumpCore_core_congr rfl rfl rfl
  rw [hcore]
  have hfinish := congrArg (fun x : State => { x with core := v.pumpCore.core }) hclose
  rw [← hl] at hfinish
  exact congrArg Host.Outcome.next hfinish

/-- The answer of a ticket, followed from the state its service begins in. -/
theorem Serves.closes_core {kind : TicketKind} (h : Serves env s kind k) (gateW13 : Nat)
    {body : Ticket → State → State} {code : ReturnCode} {w13 w14 : Nat} {ended truncated : Bool} {b : State}
    (hbegun : b = (s.begin env).beginService kind.lane) (hl : v.lanes = b.lanes) (he : v.env = env)
    (hb : body k b = (v.close kind.lane code w13 w14 ended truncated).pumpCore) :
    command env s (serve kind gateW13 body) =
      .next { State.answered { v with lanes := (s.begin env).lanes } kind.lane k code w13 w14 ended truncated with
        core := v.pumpCore.core } := by
  subst hbegun
  have hs := (State.serving_some h.1).2.1
  rw [command_next, serve_body h, hb, State.close_pumpCore]
  have hclose := State.close_served (b := s.begin env) (u := v) hs h.2.2 hl he code w13 w14 ended truncated
  exact congrArg (fun x : State => Host.Outcome.next { x with core := v.pumpCore.core }) hclose

/-- The frame of an answer from the frame of the state answered. -/
theorem State.answered_of_frame {b x : State} {L : Vector Lane 4} {lane : Fin 4} {code : ReturnCode} {w13 w14 : Nat} {e t : Bool} {c : Core}
    (hx : x = { b with
      accounts := x.accounts, jobs := x.jobs, slots := x.slots, hold := x.hold, core := x.core, lanes := x.lanes })
    {y : State} (hy : y = { State.answered { x with lanes := L } lane k code w13 w14 e t with core := c } := by rfl) :
    y = { b with
      accounts := y.accounts, jobs := y.jobs, slots := y.slots, hold := y.hold, core := y.core, lanes := y.lanes,
      mem := y.mem, notice := y.notice, env := .calm } := by
  subst hy
  rw [hx]
  rfl

/-- A close leaves every byte outside W13, W14 and the closing word alone. -/
theorem State.answered_read_other (s : State) (lane : Fin 4) (code : ReturnCode) (w13 w14 : Nat) (e t : Bool) {a : Nat}
    (ha : ¬k.closingByte a) : (s.answered lane k code w13 w14 e t).mem.read a = s.mem.read a := by
  have hb : ∀ j i, j + i < 12 → a ≠ wrapAddress (k.address + (52 + j) + i) := fun j i hi h =>
    ha ⟨j + i, hi, by rw [h]; congr 1; omega⟩
  refine (Memory.read_putWord_other _ _ _ _ fun i hi => hb 8 i (by omega)).trans ?_
  refine (Memory.read_putWord_other _ _ _ _ fun i hi => hb 4 i (by omega)).trans ?_
  exact Memory.read_putWord_other _ _ _ _ fun i hi => hb 0 i (by omega)

/-! ### The slots of a job that has ended (R108) -/

theorem State.cipherSlotLost_none (h : SlotHandle) (hs : s.scan.state ≠ .ciphering) : s.cipherSlotLost h = s :=
  if_neg fun hc => hs hc.1

/-- R108: one slot at its job's end, no cipher ticket in service. -/
theorem State.jobEndSlot_spec (hs : s.scan.state ≠ .ciphering) (h : SlotHandle) :
    SlotsMoved s (s.jobEndSlot h) ∧
      ∀ n, (s.jobEndSlot h).slot n = if h.idx = n ∧ h.idx < 32 then (s.slot n).afterJob s.dev.clock else s.slot n := by
  unfold State.jobEndSlot
  dsimp only []
  by_cases hk : (s.slot h.idx).keep = 0
  · have hm := s.wipeSlot_moved h.idx
    have hscan : (s.wipeSlot h.idx).scan.state ≠ .ciphering := by
      rw [hm.frame]
      exact hs
    rw [if_pos hk, State.cipherSlotLost_none _ hscan]
    refine ⟨hm, fun n => ?_⟩
    rw [State.wipeSlot_slot]
    split
    · rename_i hn
      rw [← hn.1, KeySlot.afterJob, if_pos hk]
    · rfl
  · let u := s.putSlot h.idx { s.slot h.idx with state := .held, job := none, expiry := some (s.dev.clock + (s.slot h.idx).keep * 60) }
    have hu : u.cipherSlotLost h = u := State.cipherSlotLost_none h hs
    rw [if_neg hk]
    refine ⟨hu.symm ▸ ⟨rfl, fun _ => rfl, s.core.band, rfl⟩, fun n => ?_⟩
    refine (congrArg (fun x : State => x.slot n) hu).trans ((State.putSlot_slot ..).trans ?_)
    split
    · rename_i hn
      rw [← hn.1, KeySlot.afterJob, if_neg hk]
    · rfl

/-- R108: the slots of a list of handles, each named once. -/
theorem jobEndSlot_fold (l : List SlotHandle) (hs : s.scan.state ≠ .ciphering) (hl : (l.map (·.idx)).Nodup) (h32 : ∀ x ∈ l, x.idx < 32) :
    SlotsMoved s (l.foldl State.jobEndSlot s) ∧
      ∀ n, (l.foldl State.jobEndSlot s).slot n = if n ∈ l.map (·.idx) then (s.slot n).afterJob s.dev.clock else s.slot n := by
  induction l generalizing s with
  | nil => exact ⟨.refl s, fun n => by simp⟩
  | cons h l ih =>
    obtain ⟨hnot, hl⟩ := List.nodup_cons.mp hl
    obtain ⟨hm, hslot⟩ := State.jobEndSlot_spec hs h
    have hscan : (s.jobEndSlot h).scan.state ≠ .ciphering := by
      rw [hm.frame]
      exact hs
    have hclock : (s.jobEndSlot h).dev = s.dev := by rw [hm.frame]
    obtain ⟨hm', hslot'⟩ := ih hscan hl fun x hx => h32 x (List.mem_cons_of_mem _ hx)
    refine ⟨hm.trans hm', fun n => (hslot' n).trans ?_⟩
    rw [hclock, hslot n]
    have h32h := h32 h List.mem_cons_self
    by_cases hn : h.idx = n
    · subst hn
      simp [hnot, h32h]
    · have hne : n ≠ h.idx := fun e => hn e.symm
      simp [hn, hne]

/-- R108: the slots of job i at its end; its list is then empty. -/
theorem State.jobEndSlots_spec (hs : s.scan.state ≠ .ciphering) (hl : ((s.job i).slots.map (·.idx)).Nodup)
    (h32 : ∀ x ∈ (s.job i).slots, x.idx < 32) :
    SlotsMoved s (s.jobEndSlots i) ∧
      ∀ n, (s.jobEndSlots i).slot n = if n ∈ (s.job i).slots.map (·.idx) then (s.slot n).afterJob s.dev.clock else s.slot n := by
  unfold State.jobEndSlots
  obtain ⟨hm, hslot⟩ := jobEndSlot_fold (s.job i).slots hs hl h32
  generalize (s.job i).slots.foldl State.jobEndSlot s = u at hm hslot ⊢
  refine ⟨hm.trans ⟨rfl, fun j => ?_, u.core.band, rfl⟩, hslot⟩
  show (u.putJob i { u.job i with slots := [] }).job j = _
  rw [State.putJob_job]
  split
  · rename_i hj
    rw [← hj.1]
  · rfl

end Sys2Proof.Machine

namespace Sys2Proof.Proofs

open Sys2Proof.Machine

/-- Settles O19: with no slots to leave, the job's units return and its entry is freed, or it is ENDING. -/
theorem endJobEndsOrDefers : Obligations.EndJobEndsOrDefers := by
  intro env s k i hserves h b j hj hstate hslots hprint hscan hcore released hold
  have hi : i < 32 := (State.jobOf_idx hj).2.1
  have hl : b.lanes = (s.begin env).lanes := State.touchJob_lanes (s.begin env) h
  have he : b.env = env := State.touchJob_env (s.begin env) h
  have hb : b.coreSettled := by
    have hcoreb : b.core = s.core := by
      rw [show b = (s.begin env).touchJob h from rfl, State.touchJob_frame]
      rfl
    rw [State.coreSettled, hcoreb]
    exact hcore
  have hbody : ∀ L, endJobBody k ((s.begin env).setLanes L) =
      (((b.setLanes L).endJobEntry i).1.close 0 (if ((b.setLanes L).endJobEntry i).2 then .ok else .deferred) j.total j.charged
        ((b.setLanes L).endJobEntry i).2).pumpCore :=
    fun L => endJobBody_ends (v := b.setLanes L) rfl (State.setLanes_touchJob ..).symm hj hstate
  have hentry := fun L => State.endJobEntry_unwaited (s := b.setLanes L) hprint hscan hi
  have hreleased : ∀ L, (b.setLanes L).jobReleased i = State.setLanes { released.putJob i { j with free := 0 } with hold } L := by
    intro L
    rw [State.jobReleased_eq]
    have hhandle : (b.setLanes L).jobHandle i = h := State.jobHandle_eq (s := b.setLanes L) hj
    rw [hhandle]
    rfl
  clear_value b
  split
  · rename_i hflight
    refine hserves.answers_pumped 0 (v := { released.putJob i { j with state := .ending, free := 0 } with hold }) hl he hb fun L => ?_
    rw [hbody, (hentry L).trans (if_pos hflight), hreleased]
    have hput := State.putJob_putJob (State.setLanes { released with hold } L) i { j with free := 0 } { j with state := .ending, free := 0 }
    exact congrArg (fun x : State => (x.close 0 .deferred j.total j.charged false).pumpCore) hput
  · rename_i hflight
    refine hserves.answers_pumped 0 (v := { released.putJob i (.freed ((j.gen + 1) % 256)) with hold }) hl he hb fun L => ?_
    rw [hbody, (hentry L).trans (if_neg hflight), hreleased]
    have hnil : ((State.setLanes { released.putJob i { j with free := 0 } with hold } L).job i).slots = [] := by
      have hjob := State.putJob_job_same released { j with free := 0 } hi
      exact (congrArg Job.slots hjob).trans hslots
    rw [State.jobEndSlots_nil hnil]
    have hgen : ((State.setLanes { released.putJob i { j with free := 0 } with hold } L).job i).gen = j.gen := by
      have hjob := State.putJob_job_same released { j with free := 0 } hi
      exact (congrArg Job.gen hjob).trans rfl
    have hfree : (State.setLanes { released.putJob i { j with free := 0 } with hold } L).freeJob i =
        State.setLanes { released.putJob i (.freed ((j.gen + 1) % 256)) with hold } L := by
      rw [State.freeJob, hgen]
      exact State.putJob_putJob (State.setLanes { released with hold } L) i { j with free := 0 } _
    exact congrArg (fun x : State => (x.close 0 .ok j.total j.charged true).pumpCore) hfree

/-- Settles O20: the job's end leaves each of its slots HELD or destroyed, and no other. -/
theorem endJobLeavesHeldSlots : Obligations.EndJobLeavesHeldSlots := by
  intro env s k i hserves h b j hj hstate hpf hsf hprint hscan hnodup h32
  have hi : i < 32 := (State.jobOf_idx hj).2.1
  let L := ((s.begin env).beginService 0).lanes
  have hbegun : b.setLanes L = ((s.begin env).beginService 0).touchJob h := by
    rw [State.beginService_setLanes, State.setLanes_touchJob]
  have hentry : (b.setLanes L).endJobEntry i = ((((b.setLanes L).jobReleased i).jobEndSlots i).freeJob i, true) := by
    refine (State.endJobEntry_unwaited (s := b.setLanes L) hprint ?_ hi).trans (if_neg ?_)
    · exact fun hc => absurd (hscan.symm.trans hc) (by decide)
    · exact fun hc => hc.elim (fun h1 => absurd (hpf.symm.trans h1) (by decide)) fun h1 => absurd (hsf.symm.trans h1) (by decide)
  have hbody := endJobBody_ends (k := k) (u := (s.begin env).beginService 0) rfl hbegun hj hstate
  rw [hentry] at hbody
  obtain ⟨accounts, jobs, hold, hu⟩ := (b.setLanes L).jobReleased_frame i
  have hjob : ((b.setLanes L).jobReleased i).job i = { j with free := 0 } := (b.setLanes L).jobReleased_job hi
  generalize (b.setLanes L).jobReleased i = u at hu hjob hbody
  have hsl : (u.job i).slots = j.slots := by rw [hjob]
  have hus : u.scan.state ≠ .ciphering := fun hc => by
    rw [hu] at hc
    exact absurd (hscan.symm.trans hc) (by decide)
  obtain ⟨hmoved, hslots⟩ := State.jobEndSlots_spec hus (hsl ▸ hnodup) (hsl ▸ h32)
  rw [hsl] at hslots
  generalize u.jobEndSlots i = w at hmoved hslots hbody
  obtain ⟨slots, jobs', x, hw⟩ := hmoved.eq
  rw [hu] at hw
  have hlw : (w.freeJob i).lanes = ((s.begin env).beginService 0).lanes := by rw [hw]; rfl
  have hew : (w.freeJob i).env = env := by rw [hw]; exact State.touchJob_env (s.begin env) h
  have hanswer := hserves.closes_core 0 rfl hlw hew hbody
  refine ⟨_, hanswer, ?_, ?_, fun y hy => ?_, fun n => (hslots n).trans ?_⟩
  · exact congrArg Job.state (State.putJob_job_same w _ hi)
  · have hx : w.freeJob i = { b with
        accounts := (w.freeJob i).accounts, jobs := (w.freeJob i).jobs, slots := (w.freeJob i).slots
        hold := (w.freeJob i).hold, core := (w.freeJob i).core, lanes := (w.freeJob i).lanes } := by
      rw [hw]
      rfl
    exact State.answered_of_frame hx
  · refine Eq.trans (State.answered_read_other { w.freeJob i with lanes := (s.begin env).lanes } 0 _ _ _ _ _ hy) ?_
    rw [hw]
    rfl
  · rw [hu]
    rfl

end Sys2Proof.Proofs
end

