-- ==== Sys2Proof/Proofs/Device.lean ====
section
/-! Device Control's tickets and tests: O28, O29. -/

namespace Sys2Proof.Machine

variable {s u v b : State} {env : Env} {k : Ticket} {n i : Nat}

/-! ### Resume Service (R175) -/

/-- A close from a state reached by a command other than a ticket's service. -/
theorem State.close_of_service {x : State} {lane : Fin 4} (hl : x.lanes = b.lanes) (he : x.env = b.env) (hs : (b.lane lane).service = some k)
    (hw : b.closesFreely k) (code : ReturnCode) (w13 w14 : Nat) (e t : Bool) :
    (x.close lane code w13 w14 e t).finish = x.answered lane k code w13 w14 e t := by
  refine State.close_answered ?_ ?_ code w13 w14 e t
  · rw [State.lane, hl]
    exact hs
  · rw [State.closesFreely, he]
    exact hw

/-- The service of Resume Service, by the first of its checks that fails. -/
theorem resumeServiceBody_cases (k : Ticket) (u : State) :
    (u.dev.op ≠ .withdrawn → resumeServiceBody k u = u.close 0 .badState 0 1) ∧
      (u.dev.op = .withdrawn → u.dwelled < 2 → resumeServiceBody k u = u.close 0 .dwell 0 (2 - u.dwelled)) ∧
      (u.dev.op = .withdrawn → 2 ≤ u.dwelled → u.privacyDeparted = true → resumeServiceBody k u = u.close 0 .badState 0 2) ∧
      (u.dev.op = .withdrawn → 2 ≤ u.dwelled → u.privacyDeparted = false →
        resumeServiceBody k u = { u with core := { u.core with resumeTest := true } }) := by
  have hdwell : Config.dwellSeconds = 2 := rfl
  unfold resumeServiceBody
  rw [hdwell]
  refine ⟨fun h => if_pos h, fun h hd => ?_, fun h hd hp => ?_, fun h hd hp => ?_⟩
  · rw [if_neg (not_not.mpr h), if_pos hd]
  · rw [if_neg (not_not.mpr h), if_neg (Nat.not_lt.mpr hd), if_pos hp]
  · rw [if_neg (not_not.mpr h), if_neg (Nat.not_lt.mpr hd), if_neg (by rw [hp]; decide)]

theorem State.resumeTestEnds_normal (h : b.privacyDeparted = false) :
    b.resumeTestEnds true =
      State.close { b with core := { b.core with resumeTest := false, count := 0 }, dev := { b.dev with op := .running } } 0 .ok 0 0 := by
  have hd : ¬State.privacyDeparted { b with core := { b.core with resumeTest := false, count := 0 } } = true := fun hc =>
    absurd (h.symm.trans hc) (by decide)
  unfold State.resumeTestEnds
  rw [if_pos rfl]
  exact if_neg hd

theorem State.resumeTestEnds_departed (h : b.privacyDeparted = true) :
    b.resumeTestEnds true =
      State.close { b with core := { b.core with resumeTest := false, count := 0 } } 0 .badState 0 2 := by
  have hd : State.privacyDeparted { b with core := { b.core with resumeTest := false, count := 0 } } = true := h
  unfold State.resumeTestEnds
  rw [if_pos rfl]
  exact if_pos hd

/-! ### Results written (R163) -/

theorem wordFails_nil (a : Nat) : wordFails [] a = false := rfl

/-- Words written where no write fails. -/
theorem State.writeWords_ok (ws : List Word) (s : State) (a : Nat) (h : s.env.badWrites = []) :
    s.writeWords a ws = ({ s with mem := s.mem.putWords a ws }, none) := by
  induction ws generalizing s a with
  | nil => rfl
  | cons w ws ih =>
    have hw : s.writeWord a w = (s.setMem (s.mem.putWord a w), none) := by
      rcases s.writeWord_cases a w with ⟨hf, -⟩ | ⟨-, e⟩
      · rw [h] at hf
        cases hf
      · exact e
    rw [State.writeWords, hw]
    exact ih (s.setMem (s.mem.putWord a w)) (a + 4) h

theorem State.writeControlResult_ok (s : State) (a : Nat) (ws : List Word) (h : s.env.badWrites = []) :
    s.writeControlResult a ws = { s with mem := s.mem.putWords a ws } := by
  rw [State.writeControlResult, State.writeWords_ok ws s a h]

/-! ### Status Digest and Clear Faults (R177, R179) -/

theorem State.setLanes_digest (s : State) (L : Vector Lane 4) : (s.setLanes L).digest = s.digest := by
  unfold State.digest State.digestHead State.digestHold State.slotDigest State.digestLines
  rfl

theorem statusDigestBody_reports {session : Option Handle} (hs : session = Handle.optOfField (k.w 3)) (ha : areaOk (k.w 2).toNat = true)
    (hopen : ∀ h, session = some h → (u.sessionOf h).isSome) (hv : v = u.touchOptSession session) (hw : v.env.badWrites = []) :
    statusDigestBody k u = State.close { v with mem := v.mem.putWords (k.w 2).toNat v.digest } 0 .ok v.dev.clock v.epoch := by
  subst hs hv
  have hnamed : ¬((Handle.optOfField (k.w 3)).isSome ∧ ((Handle.optOfField (k.w 3)).bind u.sessionOf).isNone) := by
    rintro ⟨h1, h2⟩
    cases hf : Handle.optOfField (k.w 3) with
    | none => simp [hf] at h1
    | some h =>
      have := hopen h hf
      rw [hf, Option.bind_some] at h2
      rw [Option.isNone_iff_eq_none.mp h2] at this
      cases this
  unfold statusDigestBody
  dsimp only []
  rw [if_neg (by rw [ha]; decide), if_neg hnamed]
  generalize u.touchOptSession (Handle.optOfField (k.w 3)) = v at hw ⊢
  rw [State.writeControlResult_ok v _ _ hw]

theorem clearFaultsBody_eq (k : Ticket) (u : State) :
    clearFaultsBody k u = State.close { u with faults := { first := none, again := 0, later := 0 } } 0 .ok
      (u.faults.first.elim 0 fun f => f.kind.code) u.faults.later := rfl

end Sys2Proof.Machine

namespace Sys2Proof.Proofs

open Sys2Proof.Machine

/-- Settles O29: the checks of Resume Service in turn, and the three ends of its test. -/
theorem resumeServiceDwellsAndTests : Obligations.ResumeServiceDwellsAndTests := by
  intro env s k b since
  refine ⟨fun hserves => ?_, ?_⟩
  · have hcases := fun L => resumeServiceBody_cases k (b.setLanes L)
    refine ⟨fun h => ?_, fun h hd => ?_, fun h hd hp => ?_, fun h hd hp => ?_⟩
    · exact hserves.answers 0 rfl rfl fun L => (hcases L).1 h
    · exact hserves.answers 0 rfl rfl fun L => (hcases L).2.1 h hd
    · exact hserves.answers 0 rfl rfl fun L => (hcases L).2.2.1 h hd hp
    · exact hserves.begun 0 (v := { b with core := { b.core with resumeTest := true } }) rfl fun L => (hcases L).2.2.2 h hd hp
  · intro hup htest hservice hfree hq hw ended
    have hanswer : ∀ p t, (((b.resumeTestEnds p).pumpCore).finish) = t → Answers (.resumeServiceTestEnd env p) s t := fun p t h =>
      (answers_iff (c := .resumeServiceTestEnd env p) nofun).mpr (h ▸ congrArg State.finish (if_pos ⟨hup, htest⟩).symm)
    have hsettled : ∀ (x : State), x.core.printQueue = [] → x.core.scanWaiting = none → x.pumpCore = x := fun x h1 h2 =>
      State.pumpCore_settled fun _ => ⟨h1, h2⟩
    have hclosed : ∀ (x : State) code w14, x.lanes = b.lanes → x.env = b.env → x.core.printQueue = [] → x.core.scanWaiting = none →
        ((x.close 0 code 0 w14).pumpCore).finish = x.answered 0 k code 0 w14 := fun x code w14 hl he h1 h2 => by
      rw [hsettled _ (by rw [State.close_core]; exact h1) (by rw [State.close_core]; exact h2)]
      exact State.close_of_service hl he hservice hfree code 0 w14 false false
    refine ⟨fun hp => hanswer true _ ?_, fun hp => hanswer true _ ?_, hanswer false _ ?_⟩
    · refine Eq.trans ?_ (hclosed _ .ok 0 rfl rfl hq hw)
      exact congrArg (fun x : State => x.pumpCore.finish) (State.resumeTestEnds_normal hp)
    · refine Eq.trans ?_ (hclosed _ .badState 2 rfl rfl hq hw)
      exact congrArg (fun x : State => x.pumpCore.finish) (State.resumeTestEnds_departed hp)
    · have hop : b.dev.op ≠ .starting := by
        have := (Bool.and_eq_true _ _ ▸ hup : s.alive = true ∧ _).2
        exact of_decide_eq_true this
      have htime : b.faultTime = b.dev.clock := if_neg hop
      rw [← htime]
      exact hclosed (ended.capture .cipherCheck none none 2) .badState 3 rfl rfl hq hw

/-- Settles O28: the digest is written and the faults cleared; a close whose words fail goes on to its end. -/
theorem digestAndClearFaults : Obligations.DigestAndClearFaults := by
  intro env s k
  have hfirst : ∀ f : FaultRecord, (f.first.elim 0 fun f => f.kind.code) =
      (match f.first with | none => 0 | some f => f.kind.code) := fun f => by cases f.first <;> rfl
  refine ⟨?_, ?_, ?_⟩
  · intro hserves ha hw session b hopen
    have hl : b.lanes = (s.begin env).lanes := State.touchOptSession_lanes _ _
    have he : b.env = env := State.touchOptSession_env _ _
    have hbody : ∀ L, statusDigestBody k ((s.begin env).setLanes L) =
        State.close { b.setLanes L with mem := b.mem.putWords (k.w 2).toNat b.digest } 0 .ok b.dev.clock (b.dev.startCount % 256) :=
      fun L => by
        have h := statusDigestBody_reports (u := (s.begin env).setLanes L) (v := b.setLanes L) rfl ha hopen
          (State.setLanes_touchOptSession ..).symm ((congrArg Env.badWrites he).trans hw)
        rw [State.setLanes_digest] at h
        exact h
    clear_value b
    generalize b.digest = d at hbody ⊢
    exact hserves.answers 0 (v := { b with mem := b.mem.putWords (k.w 2).toNat d }) hl he hbody
  · intro hserves b
    have hanswer := hserves.answers 0 (body := clearFaultsBody) (v := { b with faults := { first := none, again := 0, later := 0 } })
      (w13 := b.faults.first.elim 0 fun f => f.kind.code) (w14 := b.faults.later) rfl rfl fun L => clearFaultsBody_eq k (b.setLanes L)
    rw [hfirst] at hanswer
    exact hanswer
  · intro hserving hgate b
    obtain ⟨-, hservice, -, -⟩ := State.serving_some hserving
    have hserve : serve .clearFaults 0 clearFaultsBody b = clearFaultsBody k (b.beginService 0) := by
      rcases serve_cases .clearFaults 0 clearFaultsBody b with ⟨hn, -⟩ | ⟨k', hk, ⟨code, hc, -⟩ | ⟨-, e⟩⟩
      · exact absurd (hserving.symm.trans hn) (by simp)
      · exact absurd (hgate.symm.trans hc) (by simp)
      · rw [Option.some.inj (hserving.symm.trans hk)]
        exact e
    let u : State := { b with faults := { first := none, again := 0, later := 0 } }
    let w13 := b.faults.first.elim 0 fun f => f.kind.code
    have hbegun : clearFaultsBody k (b.beginService 0) =
        (u.putLane 0 { b.lane 0 with service := some { k with begun := true } }).close 0 .ok w13 b.faults.later := by
      rw [show b.beginService 0 = _ from State.beginService_some hservice]
      rfl
    have hclose := State.close_anyhow (s := u.putLane 0 { b.lane 0 with service := some { k with begun := true } }) (lane := 0)
      (k := { k with begun := true }) (by rw [State.putLane_lane_same]) .ok w13 b.faults.later
    have hanswer : Answers (.clearFaults env) s
        (u.closedAnyhow 0 k .ok (b.faults.first.elim 0 fun f => f.kind.code) b.faults.later) := by
      refine (answers_iff (c := .clearFaults env) nofun).mpr ?_
      refine Eq.trans ?_ (congrArg State.finish (hserve.trans hbegun)).symm
      refine Eq.trans ?_ hclose.symm
      exact (State.closedAnyhow_putLane u 0 { b.lane 0 with service := some { k with begun := true } } { k with begun := true } .ok w13
        b.faults.later rfl).symm
    rw [hfirst] at hanswer
    exact hanswer

end Sys2Proof.Proofs
end

