-- ==== Sys2Proof/Proofs/Begin.lean ====
section
/-! Cipher tickets begin (R96, R98): O41. -/

namespace Sys2Proof.Machine

variable {s u v b : State} {env : Env} {k : Ticket} {n i : Nat}

/-! ### Sources read (R97, R99) -/

theorem State.startSourceRead_busy (h : (s.bufferIn .filling).isSome = true ∨ s.scan.sources.length ≤ s.scan.begun) :
    s.startSourceRead = s := if_pos h

theorem State.startSourceRead_full (h : s.bufferIn .free = none) : s.startSourceRead = s := by
  unfold State.startSourceRead
  rw [h]
  exact ite_self _

theorem State.startSourceRead_begins (h : s.bufferIn .filling = none) (hb : s.scan.begun < s.scan.sources.length)
    (hf : s.bufferIn .free = some i) :
    s.startSourceRead =
      { s with scan := { s.scan with
        internal := putAt s.scan.internal i { cond := .filling, band := s.scan.begun, lines := 0, data := [] }
        begun := s.scan.begun + 1 } } := by
  unfold State.startSourceRead
  rw [if_neg (not_or.mpr ⟨by rw [h]; decide, Nat.not_le.mpr hb⟩), hf]
  rfl

/-- R97, R99: the first source begins to be read. -/
theorem State.beginCipher_eq (s : State) (work : ScanWork) (a : ScanArgs) (page : Nat) {sources : List Source}
    (buffers : List Destination) (h : sources ≠ []) :
    s.beginCipher work a page sources buffers =
      { s with scan := { ScanPath.reset with
          state := .ciphering, work, args := some a, page, sources, buffers, drain := s.scan.drain, begun := 1
          internal := putAt (Vector.replicate 2 Buffer.erased) 0 { cond := .filling, band := 0, lines := 0, data := [] } } } := by
  have hnone : lowest (Vector.replicate 2 Buffer.erased) (fun b => b.cond = .filling) = none := by decide
  have hfree : lowest (Vector.replicate 2 Buffer.erased) (fun b => b.cond = .free) = some 0 := by decide
  exact State.startSourceRead_begins hnone (List.length_pos_iff.mpr h) hfree

/-! ### The lists of a cipher ticket -/

theorem State.setLanes_readCipherLists (s : State) (L : Vector Lane 4) (count a d : Nat) :
    (s.setLanes L).readCipherLists count a d = s.readCipherLists count a d := by
  unfold State.readCipherLists
  rw [State.setLanes_at_readWords]
  split
  · rfl
  · rw [State.setLanes_at_readWords]

theorem State.readCipherLists_length {count a d : Nat} {sources : List Source} {buffers : List Destination}
    (h : s.readCipherLists count a d = .ok (sources, buffers)) : sources.length = count := by
  unfold State.readCipherLists at h
  split at h
  · cases h
  · split at h
    · cases h
    · cases h
      simp [listEntries]

theorem State.cipherRefusal_granted {a : ScanArgs} {use : KeyUse} (hj : u.jobOf a.job = some i)
    (hseen : u.seen (u.job i).account = .active) (hg : u.keyGranted a.slot a.job use = true) : u.cipherRefusal a use = none := by
  rw [State.cipherRefusal, State.jobAccount_eq hj, State.accountRefusal_active hseen, hg]
  rfl

theorem State.admitEncipher_begins {a : ScanArgs} {sources : List Source} {buffers : List Destination} (hv : v = u.touchJob a.job)
    (hj : v.jobOf a.job = some i) (hstate : (v.job i).state ≠ .ending) (hok : (v.record (v.job i).account).checkOk = true)
    (hseen : v.seen (v.job i).account = .active) (hg : v.keyGranted a.slot a.job .encipher = true)
    (hpage : (v.slot a.slot.idx).page < 65535) :
    u.admitEncipher a sources buffers =
      (v.putSlot a.slot.idx { v.slot a.slot.idx with page := (v.slot a.slot.idx).page + 1 }).beginCipher .encipher a
        (v.slot a.slot.idx).page sources buffers := by
  subst hv
  unfold State.admitEncipher
  dsimp only []
  rw [State.jobRefusal_unended hj hstate]
  dsimp only []
  have hroom : refuseIf (decide ((u.touchJob a.job).slot a.slot.idx |>.page |> (· ≥ 65535))) .slotExhausted = none := by
    rw [refuseIf_none]
    exact decide_eq_false (Nat.not_le.mpr hpage)
  rw [State.jobAccount_eq hj, State.readAccount_ok hok, State.cipherRefusal_granted hj hseen hg, hroom]
  rfl

theorem State.admitDecipher_begins {a : ScanArgs} {page : Nat} {sources : List Source} {buffers : List Destination}
    (hv : v = u.touchJob a.job) (hj : v.jobOf a.job = some i) (hstate : (v.job i).state ≠ .ending)
    (hok : (v.record (v.job i).account).checkOk = true) (hseen : v.seen (v.job i).account = .active)
    (hg : v.keyGranted a.slot a.job .decipher = true) (hauth : v.authorised a.job a.slot = true) :
    u.admitDecipher a page sources buffers = v.beginCipher .decipher a page sources buffers := by
  subst hv
  unfold State.admitDecipher
  dsimp only []
  rw [State.jobRefusal_unended hj hstate]
  dsimp only []
  rw [State.jobAccount_eq hj, State.readAccount_ok hok, State.cipherRefusal_granted hj hseen hg, hauth]
  rfl

theorem findIdx?_faultless {α : Type} {l : List α} {p : α → Bool} (h : ∀ x ∈ l, p x = false) : l.findIdx? p = none :=
  List.findIdx?_eq_none_iff.mpr h

theorem cipherListsOk_of {count a d : Nat} (h1 : 1 ≤ count) (h64 : count ≤ 64) (ha : areaOk a = true) (hd : areaOk d = true) :
    cipherListsOk count a d = true := by
  simp [cipherListsOk, h1, h64, ha, hd]

theorem encipherBandsBody_admits {sources : List Source} {buffers : List Destination}
    (hargs : cipherListsOk (k.w 5).toNat (k.w 6).toNat (k.w 7).toNat = true)
    (hlists : u.readCipherLists (k.w 5).toNat (k.w 6).toNat (k.w 7).toNat = .ok (sources, buffers)) (hrec : areaOk (k.w 8).toNat = true)
    (hpairs : ∀ x ∈ sources.zip buffers, encipherFaulty x = false) :
    encipherBandsBody k u = u.admitEncipher (ScanArgs.ofCipherTicket k (k.w 8).toNat) sources buffers := by
  unfold encipherBandsBody
  dsimp only []
  rw [if_neg (by rw [hargs]; decide), hlists]
  dsimp only []
  rw [if_neg (by rw [hrec]; decide), findIdx?_faultless hpairs]

theorem decipherBandsBody_admits {sources : List Source} {buffers : List Destination}
    (hargs : cipherListsOk (k.w 5).toNat (k.w 6).toNat (k.w 7).toNat = true)
    (hlists : u.readCipherLists (k.w 5).toNat (k.w 6).toNat (k.w 7).toNat = .ok (sources, buffers)) (hpage : (k.w 4).toNat ≤ 65535)
    (hpairs : ∀ x ∈ sources.zip buffers, decipherFaulty x = false) :
    decipherBandsBody k u = u.admitDecipher (ScanArgs.ofCipherTicket k 0) (k.w 4).toNat sources buffers := by
  unfold decipherBandsBody
  dsimp only []
  rw [if_neg (by rw [hargs]; decide), hlists]
  dsimp only []
  rw [if_neg (Nat.not_lt.mpr hpage), findIdx?_faultless hpairs]

end Sys2Proof.Machine

namespace Sys2Proof.Proofs

open Sys2Proof.Machine

/-- Settles O41: a valid cipher ticket passes its checks and begins to read its first source. -/
theorem cipherTicketsBegin : Obligations.CipherTicketsBegin := by
  intro env s k sources buffers i count job slot b n first h1 h64 ha hd hlists hj hstate hok hactive
  have hl : b.lanes = (s.begin env).lanes := State.touchJob_lanes _ _
  have hsources : sources ≠ [] := fun h => by
    have := State.readCipherLists_length hlists
    rw [h] at this
    exact absurd this (by rw [List.length_nil]; omega)
  have hargs := cipherListsOk_of h1 h64 ha hd
  refine ⟨fun hserves hrec hpairs hg hpage => ?_, fun hserves hpage hpairs hg hauth => ?_⟩
  · refine hserves.begun 65535 (v := { b.putSlot slot.idx { b.slot slot.idx with page := (b.slot slot.idx).page + 1 } with
        scan :=
          { ScanPath.reset with
            state := .ciphering, work := .encipher, args := some (ScanArgs.ofCipherTicket k (k.w 8).toNat)
            page := (b.slot slot.idx).page, sources, buffers, drain := b.scan.drain, begun := 1, internal := first } }) hl fun L => ?_
    have hlistsL := (State.setLanes_readCipherLists (s.begin env) L _ _ _).trans hlists
    refine (encipherBandsBody_admits hargs hlistsL hrec hpairs).trans ?_
    refine (State.admitEncipher_begins (a := ScanArgs.ofCipherTicket k (k.w 8).toNat) (v := b.setLanes L) (State.setLanes_touchJob ..).symm hj hstate hok hactive hg hpage).trans ?_
    exact State.beginCipher_eq _ _ _ _ _ hsources
  · refine hserves.begun 0 (v := { b with
        scan :=
          { ScanPath.reset with
            state := .ciphering, work := .decipher, args := some (ScanArgs.ofCipherTicket k 0)
            page := (k.w 4).toNat, sources, buffers, drain := b.scan.drain, begun := 1, internal := first } }) hl fun L => ?_
    have hlistsL := (State.setLanes_readCipherLists (s.begin env) L _ _ _).trans hlists
    refine (decipherBandsBody_admits hargs hlistsL hpage hpairs).trans ?_
    refine (State.admitDecipher_begins (a := ScanArgs.ofCipherTicket k 0) (v := b.setLanes L) (State.setLanes_touchJob ..).symm hj hstate hok hactive hg hauth).trans ?_
    exact State.beginCipher_eq _ _ _ _ _ hsources

end Sys2Proof.Proofs
end

