-- ==== Sys2Proof/Proofs/Accounts.lean ====
section
/-! Account tickets (R5 to R10): O12, O13. -/

namespace Sys2Proof.Machine

variable {s u v b : State} {env : Env} {k : Ticket} {n i : Nat}

/-! ### Words written in runs -/

theorem State.setLanes_writeWords (ws : List Word) (s : State) (L : Vector Lane 4) (a : Nat) :
    (s.setLanes L).writeWords a ws = ((s.writeWords a ws).1.setLanes L, (s.writeWords a ws).2) := by
  induction ws generalizing s a with
  | nil => rfl
  | cons w ws ih =>
    have hw : (s.setLanes L).writeWord a w = ((s.writeWord a w).1.setLanes L, (s.writeWord a w).2) := by
      rcases s.writeWord_cases a w with ⟨hf, e⟩ | ⟨hf, e⟩ <;>
        rcases (s.setLanes L).writeWord_cases a w with ⟨hf', e'⟩ | ⟨hf', e'⟩ <;> rw [e, e']
      · exact absurd (hf.symm.trans hf') (by decide)
      · exact absurd (hf.symm.trans hf') (by decide)
      · rfl
    rw [State.writeWords, State.writeWords, hw]
    rcases s.writeWord a w with ⟨s', _ | e⟩
    · exact ih s' (a + 4)
    · rfl

/-- Words of which every one can be written. -/
theorem State.writeWords_append {xs ys : List Word} {a : Nat} (h : s.writeWords a (xs ++ ys) = (u, none)) :
    ∃ v, s.writeWords a xs = (v, none) ∧ v.writeWords (a + 4 * xs.length) ys = (u, none) := by
  induction xs generalizing s a with
  | nil => exact ⟨s, rfl, h⟩
  | cons x xs ih =>
    rw [List.cons_append, State.writeWords] at h
    rw [State.writeWords]
    rcases hx : s.writeWord a x with ⟨s', _ | e⟩
    · rw [hx] at h
      obtain ⟨v, hv, hy⟩ := ih h
      refine ⟨v, hv, ?_⟩
      rw [List.length_cons, show a + 4 * (xs.length + 1) = a + 4 + 4 * xs.length by omega]
      exact hy
    · rw [hx] at h
      cases h

/-! ### Read Accounts (R10) -/

theorem State.accountEntry_congr (h : u = { s with mem := u.mem }) (n : Nat) : u.accountEntry n = s.accountEntry n := by
  rw [h]
  rfl

theorem State.writeAccounts_cons (hok : (s.record n).checkOk = true) (a : Nat) (l : List Nat) :
    (∀ v bad, s.writeWords a (s.accountEntry n) = (v, some bad) →
        s.writeAccounts a (n :: l) = (v.captureMemory .memoryWrite 0 bad, 0, true)) ∧
      ∀ v, s.writeWords a (s.accountEntry n) = (v, none) →
        s.writeAccounts a (n :: l) = ((v.writeAccounts (a + 52) l).1, (v.writeAccounts (a + 52) l).2.1 + 1, (v.writeAccounts (a + 52) l).2.2) := by
  refine ⟨fun v bad h => ?_, fun v h => ?_⟩ <;>
  · rw [State.writeAccounts, State.readAccount_ok hok]
    dsimp only []
    rw [h]

/-- R10: entries of which every one can be written. -/
theorem State.writeAccounts_whole (l : List Nat) {a : Nat} (hok : ∀ n ∈ l, (s.record n).checkOk = true)
    (h : s.writeWords a (l.flatMap s.accountEntry) = (u, none)) : s.writeAccounts a l = (u, l.length, false) := by
  induction l generalizing s a with
  | nil =>
    cases h
    rfl
  | cons n l ih =>
    rw [List.flatMap_cons] at h
    obtain ⟨v, hv, hrest⟩ := State.writeWords_append h
    have hvs : v = { s with mem := v.mem } := by
      have := State.writeWords_frame (s.accountEntry n) s a
      rw [hv] at this
      exact this
    rw [State.accountEntry_length] at hrest
    rw [← (funext (State.accountEntry_congr hvs) : v.accountEntry = s.accountEntry)] at hrest
    rw [(State.writeAccounts_cons (hok n List.mem_cons_self) a l).2 v hv]
    rw [ih (fun m hm => by rw [hvs]; exact hok m (List.mem_cons_of_mem _ hm)) hrest]
    rfl

/-- R163: the entry at which a write fails ends the entries. -/
theorem State.writeAccounts_broken (l rest : List Nat) {a bad : Nat} (hok : ∀ m ∈ l ++ [n], (s.record m).checkOk = true)
    (h : s.writeWords a (l.flatMap s.accountEntry) = (u, none))
    (hbad : u.writeWords (a + 52 * l.length) (s.accountEntry n) = (v, some bad)) :
    s.writeAccounts a (l ++ n :: rest) = (v.captureMemory .memoryWrite 0 bad, l.length, true) := by
  induction l generalizing s a with
  | nil =>
    cases h
    exact (State.writeAccounts_cons (hok n (by simp)) a rest).1 v bad hbad
  | cons m l ih =>
    rw [List.flatMap_cons] at h
    obtain ⟨w, hw, hrest⟩ := State.writeWords_append h
    have hws : w = { s with mem := w.mem } := by
      have := State.writeWords_frame (s.accountEntry m) s a
      rw [hw] at this
      exact this
    rw [State.accountEntry_length] at hrest
    rw [← (funext (State.accountEntry_congr hws) : w.accountEntry = s.accountEntry)] at hrest
    rw [List.length_cons, show a + 52 * (l.length + 1) = a + 4 * 13 + 52 * l.length by omega,
      ← State.accountEntry_congr hws] at hbad
    have hih := ih (s := w) (a := a + 4 * 13) (fun x hx => by rw [hws]; exact hok x (List.mem_cons_of_mem _ hx)) hrest hbad
    rw [List.cons_append, (State.writeAccounts_cons (hok m (by simp)) a _).2 w hw, hih]
    rfl

theorem range'_split {first whole count : Nat} (h : whole < count) :
    List.range' first count = List.range' first whole ++ (first + whole) :: List.range' (first + whole + 1) (count - whole - 1) := by
  have hrest : count = whole + ((count - whole - 1) + 1) := by omega
  conv_lhs => rw [hrest, ← List.range'_append_1, List.range'_succ]

theorem readAccountsBody_writes (h : (k.w 2).toNat ≤ (k.w 3).toNat) (hl : (k.w 3).toNat ≤ 511) (ha : areaOk (k.w 4).toNat = true)
    {count written : Nat} {failed : Bool} (hc : count = (k.w 3).toNat - (k.w 2).toNat + 1)
    (hw : u.writeAccounts (k.w 4).toNat (List.range' (k.w 2).toNat (min count (k.w 5).toNat)) = (v, written, failed)) :
    readAccountsBody k u = v.close 0 .ok written 0 false (failed || decide ((k.w 5).toNat < count)) := by
  subst hc
  unfold readAccountsBody
  dsimp only []
  rw [if_neg (not_or.mpr ⟨Nat.not_lt.mpr h, not_or.mpr ⟨Nat.not_lt.mpr hl, by rw [ha]; decide⟩⟩), hw]

end Sys2Proof.Machine

namespace Sys2Proof.Proofs

open Sys2Proof.Machine

/-- Settles O13: entries are written in turn up to the last that fits, or the first whose write fails. -/
theorem readAccountsWritesEntries : Obligations.ReadAccountsWritesEntries := by
  intro env s k first last address capacity hserves hfirst hlast haddress hcapacity hle h511 hne hal b hok count
  subst hfirst hlast haddress hcapacity
  have harea : areaOk (k.w 4).toNat = true := by simp [areaOk, hne, hal]
  have hentries : ∀ m, m ∈ List.range' (k.w 2).toNat (min count (k.w 5).toNat) → (b.record m).checkOk = true := fun m hm => by
    rw [List.mem_range'_1] at hm
    exact hok m hm.1 (by omega)
  refine ⟨fun hw => ?_, fun whole bad u v hwhole hu hv => ?_⟩
  · refine hserves.answers 0 rfl rfl fun L => ?_
    have hwords := State.writeWords_ok ((List.range' (k.w 2).toNat (min count (k.w 5).toNat)).flatMap b.accountEntry) (b.setLanes L)
      (k.w 4).toNat hw
    have hwritten := State.writeAccounts_whole (s := b.setLanes L) _ hentries hwords
    rw [List.length_range'] at hwritten
    have hbody := readAccountsBody_writes (u := b.setLanes L) hle h511 harea rfl hwritten
    rw [Bool.false_or] at hbody
    exact hbody
  · have hus : u = { b with mem := u.mem } := by
      have := State.writeWords_frame ((List.range' (k.w 2).toNat whole).flatMap b.accountEntry) b (k.w 4).toNat
      rw [hu] at this
      exact this
    have hvs : v = { u with mem := v.mem } := by
      have := State.writeWords_frame (b.accountEntry ((k.w 2).toNat + whole)) u ((k.w 4).toNat + 52 * whole)
      rw [hv] at this
      exact this
    have hl : v.lanes = b.lanes := by rw [hvs, hus]
    have he : v.env = env := by rw [hvs, hus]; rfl
    refine hserves.answers 0 (v := v.captureMemory .memoryWrite 0 bad) hl he fun L => ?_
    have hsplit := range'_split (first := (k.w 2).toNat) hwhole
    have hbroken := State.writeAccounts_broken (s := b.setLanes L) (u := u.setLanes L) (v := v.setLanes L) (a := (k.w 4).toNat)
      (bad := bad) (n := (k.w 2).toNat + whole) (List.range' (k.w 2).toNat whole)
      (List.range' ((k.w 2).toNat + whole + 1) (min count (k.w 5).toNat - whole - 1))
      (fun m hm => hentries m (by rw [hsplit]; simp only [List.mem_append, List.mem_cons, List.not_mem_nil, or_false] at hm ⊢; tauto))
      (by rw [State.setLanes_writeWords]; exact congrArg (fun r : State × Option Nat => (r.1.setLanes L, r.2)) hu)
      (by rw [State.setLanes_writeWords, List.length_range']; exact congrArg (fun r : State × Option Nat => (r.1.setLanes L, r.2)) hv)
    rw [← hsplit, List.length_range'] at hbroken
    have hbody := readAccountsBody_writes (u := b.setLanes L) hle h511 harea rfl hbroken
    rw [Bool.true_or] at hbody
    exact hbody

end Sys2Proof.Proofs
end

