-- ==== Sys2Proof/Proofs/Destroy.lean ====
section
/-! Slots destroyed with no work of the paths under them (R111, R113, section 6.4.1), and Set Account: O12. -/

namespace Sys2Proof.Machine

variable {s u v b : State} {env : Env} {k : Ticket} {n i : Nat}

/-! ### A slot destroyed -/

theorem State.detachSlot_core (s : State) (j : Option Handle) (h : SlotHandle) : (s.detachSlot j h).core = s.core := by
  cases j <;> rfl

/-- R84: the core without a band under a slot's key. -/
theorem State.stopCore_eq (s : State) (h : SlotHandle) :
    s.stopCore h = { s with core := { s.core with band := s.core.band.filter (fun x => x.slot ≠ h) } } := by
  unfold State.stopCore
  cases hc : s.core.band with
  | none =>
    show s = { s with core := { s.core with band := none } }
    rw [← hc]
  | some c =>
    dsimp only []
    split
    · rename_i hs
      simp [Option.filter, hs]
    · rename_i hs
      simp [Option.filter, hs, ← hc]

/-- R111: what the destruction of a slot leaves, with the work of the paths left alone. -/
theorem State.wipeSlot_eq (s : State) (i : Nat) : s.wipeSlot i = s.slotGone { idx := i, gen := (s.slot i).gen } := by
  rw [State.wipeSlot, State.stopCore_eq, State.detachSlot_core]
  rfl

theorem State.printBandsUnder_eq (s : State) (h : SlotHandle) : s.printBandsUnder h = s.bandsAtCore h := by
  unfold State.printBandsUnder State.bandsAtCore
  cases hc : s.core.band with
  | none => rfl
  | some c =>
    dsimp only []
    by_cases hp : c.path = .print ∧ c.orphan = false ∧ c.slot = h
    · rw [if_pos hp]
      simp [Option.filter, hp.1, hp.2.1, hp.2.2]
    · rw [if_neg hp]
      by_cases h1 : c.path = .print <;> by_cases h2 : c.orphan = false <;> by_cases h3 : c.slot = h <;>
        simp_all [Option.filter]

theorem State.noWorkUnder.bands {h : SlotHandle} (hn : s.noWorkUnder h) : s.printBandsUnder h = [] := by
  rw [State.printBandsUnder_eq, State.bandsAtCore, List.filter_eq_nil_iff.mpr fun i hi => by simpa using hn.2.1 i hi, List.append_nil]
  cases hc : s.core.band with
  | none => rfl
  | some c => simp [Option.filter, hn.1 c hc]

/-- The paths with no work under a slot are left alone by its destruction. -/
theorem State.pathsLost_none {h : SlotHandle} (hn : s.noWorkUnder h) : (s.pageSlotLost h).cipherSlotLost h = s := by
  have hpage : s.pageSlotLost h = s := if_neg fun hc => (hn.2.2 hc.2.1).1 hc.1
  rw [hpage]
  refine if_neg fun hc => ?_
  obtain ⟨b, hb, hcond⟩ := List.any_eq_true.mp hc.2.2.2
  obtain ⟨i, hi, rfl⟩ := List.getElem_of_mem hb
  have hi2 : i < 2 := by simpa using hi
  refine (hn.2.2 hc.2.2.1).2 hc.1 i hi2 ?_
  simpa [State.buffer, entryAt, hi2] using hcond

/-- R111: the destruction of a slot with no work under it. -/
theorem State.destroySlot_unworked (hn : s.noWorkUnder { idx := i, gen := (s.slot i).gen }) :
    s.destroySlot i = s.slotGone { idx := i, gen := (s.slot i).gen } := by
  have hw := s.wipeSlot_moved i
  have hscan : (s.wipeSlot i).scan = s.scan := by rw [hw.frame]
  have hgone : (s.wipeSlot i).noWorkUnder { idx := i, gen := (s.slot i).gen } := by
    refine ⟨fun c hc => ?_, ?_, ?_⟩
    · rw [State.wipeSlot_eq] at hc
      exact fun he => by simpa [he] using (Option.filter_eq_some_iff.mp hc).2
    · obtain ⟨slots, jobs, x, he⟩ := hw.eq
      rw [he]
      exact hn.2.1
    · obtain ⟨slots, jobs, x, he⟩ := hw.eq
      rw [he]
      exact hn.2.2
  rw [State.destroySlot, hn.bands]
  exact (State.pathsLost_none hgone).trans (s.wipeSlot_eq i)

/-- A slot attached to no job, with no work under it. -/
theorem State.destroySlot_unattached (hn : s.noWorkUnder { idx := i, gen := (s.slot i).gen }) (hj : (s.slot i).job = none) :
    s.destroySlot i = s.putSlot i (.free (((s.slot i).gen + 1) % 65536)) := by
  have hband : s.core.band.filter (fun x => x.slot ≠ { idx := i, gen := (s.slot i).gen }) = s.core.band := by
    cases hc : s.core.band with
    | none => rfl
    | some c => simp [Option.filter, hn.1 c hc]
  rw [State.destroySlot_unworked hn, State.slotGone]
  dsimp only []
  rw [hj, hband]
  rfl

/-! ### Each HELD slot of an owner (R7) -/

/-- A HELD slot of an owner. -/
abbrev KeySlot.heldBy (x : KeySlot) (n : Nat) : Prop := x.state = .held ∧ x.owner = some n

theorem KeySlot.lawful.unattached {x : KeySlot} (h : x.lawful) (hs : x.state = .held) : x.job = none := by
  cases x
  simp_all [KeySlot.lawful]

/-- R7: the HELD slots of an owner among those of a list, with no work under any. -/
theorem destroyHeldOf_fold (l : List Nat) (hl : l.Nodup) (h32 : ∀ i ∈ l, i < 32) (hlawful : s.slotsLawful)
    (hwork : ∀ i ∈ l, (s.slot i).heldBy n → s.noWorkUnder { idx := i, gen := (s.slot i).gen }) :
    ∃ slots, l.foldl (fun s i => if (s.slot i).state = .held ∧ (s.slot i).owner = some n then s.destroySlot i else s) s =
        { s with slots } ∧
      ∀ i, entryAt slots i (.free 0) =
        if i ∈ l ∧ (s.slot i).heldBy n then .free (((s.slot i).gen + 1) % 65536) else s.slot i := by
  induction l generalizing s with
  | nil => exact ⟨s.slots, rfl, fun i => (if_neg fun h => List.not_mem_nil h.1).symm⟩
  | cons x l ih =>
    obtain ⟨hx, hl⟩ := List.nodup_cons.mp hl
    have hother : ∀ i ∈ l, x ≠ i := fun i hi e => hx (e ▸ hi)
    have h32x := h32 x List.mem_cons_self
    by_cases hheld : (s.slot x).heldBy n
    · have hd := State.destroySlot_unattached (hwork x List.mem_cons_self hheld) ((hlawful x).unattached hheld.1)
      have hslot : ∀ i, (s.putSlot x (.free (((s.slot x).gen + 1) % 65536))).slot i =
          if x = i ∧ x < 32 then .free (((s.slot x).gen + 1) % 65536) else s.slot i := fun i => State.putSlot_slot ..
      obtain ⟨slots, he, hslots⟩ := ih (s := s.putSlot x (.free (((s.slot x).gen + 1) % 65536))) hl
        (fun i hi => h32 i (List.mem_cons_of_mem _ hi))
        (fun i => by
          rw [hslot i]
          split
          · exact KeySlot.free_lawful _
          · exact hlawful i)
        (fun i hi => by
          rw [hslot i, if_neg fun h => hother i hi h.1]
          exact hwork i (List.mem_cons_of_mem _ hi))
      refine ⟨slots, ?_, fun i => (hslots i).trans ?_⟩
      · rw [List.foldl_cons, if_pos hheld, hd]
        exact he
      · rw [hslot i]
        by_cases hi : x = i
        · subst hi
          simp [hx, h32x, hheld]
        · have hne : i ≠ x := fun e => hi e.symm
          simp [hi, hne]
    · obtain ⟨slots, he, hslots⟩ := ih hl (fun i hi => h32 i (List.mem_cons_of_mem _ hi)) hlawful
        fun i hi => hwork i (List.mem_cons_of_mem _ hi)
      refine ⟨slots, ?_, fun i => (hslots i).trans ?_⟩
      · rw [List.foldl_cons, if_neg hheld]
        exact he
      · by_cases hi : i = x
        · subst hi
          simp [hx, hheld]
        · simp [hi]

theorem eq_of_entryAt {α : Type} {m : Nat} {v w : Vector α m} (d : α) (h : ∀ i, entryAt v i d = entryAt w i d) : v = w := by
  ext i hi
  simpa [entryAt, hi] using h i

/-- R7: each HELD slot of an owner is destroyed; nothing else changes. -/
theorem State.destroyHeldOf_spec (hlawful : s.slotsLawful)
    (hwork : ∀ i < 32, (s.slot i).heldBy n → s.noWorkUnder { idx := i, gen := (s.slot i).gen }) :
    ∃ slots, s.destroyHeldOf n = { s with slots } ∧
      ∀ i, entryAt slots i (.free 0) = if (s.slot i).heldBy n then .free (((s.slot i).gen + 1) % 65536) else s.slot i := by
  obtain ⟨slots, he, hslots⟩ := destroyHeldOf_fold (n := n) (List.range 32) List.nodup_range (fun i hi => List.mem_range.mp hi) hlawful
    fun i hi => hwork i (List.mem_range.mp hi)
  refine ⟨slots, he, fun i => (hslots i).trans ?_⟩
  by_cases hi : i < 32
  · simp [hi]
  · have hfree : ¬(s.slot i).heldBy n := fun h => by
      rw [State.slot, entryAt_beyond _ _ _ (Nat.le_of_not_lt hi)] at h
      exact absurd h.1 (by decide)
    simp [hi, hfree]

/-! ### Set Account (R5) -/

/-- R2, R3: the read of an account at the start of a ticket. -/
theorem State.readAccount_found (s : State) (n : Nat) : s.readAccount n = s.found n := by
  unfold State.readAccount State.found
  by_cases hok : (s.record n).checkOk = true
  · rw [if_pos hok, if_pos hok]
  · rw [if_neg hok, if_neg hok]
    by_cases h0 : n = 0
    · subst h0
      rw [if_pos rfl, if_pos rfl]
      by_cases hz : s.zeroCaptured = true
      · exact (if_pos hz).trans ((if_pos hz).trans rfl).symm
      · exact (if_neg hz).trans ((if_neg hz).trans rfl).symm
    · rw [if_neg h0, if_neg h0]
      split <;> rfl

theorem State.found_lanes (s : State) (n : Nat) : (s.found n).lanes = s.lanes := by
  rw [← State.readAccount_found, State.readAccount_frame]

theorem State.found_env (s : State) (n : Nat) : (s.found n).env = s.env := by
  rw [← State.readAccount_found, State.readAccount_frame]

theorem State.setLanes_found (L : Vector Lane 4) : (s.setLanes L).found n = (s.found n).setLanes L := by
  rw [← State.readAccount_found, ← State.readAccount_found, State.setLanes_readAccount]

/-- R5 checks 1 and 2. -/
theorem setAccountBody_badTicket
    (h : 511 < bits (k.w 2) 15 0 ∨ (bits (k.w 2) 23 16 ≠ 1 ∧ bits (k.w 2) 23 16 ≠ 2) ∨
      (bits (k.w 2) 23 16 = 1 ∧ WriteArgs.ofTicket k = none)) : setAccountBody k u = u.close 0 .badTicket 0 0 := by
  unfold setAccountBody
  dsimp only []
  split
  · rfl
  · rename_i h511
    split
    · rename_i h1
      split
      · rfl
      · rename_i a ha
        rw [ha] at h
        exact absurd h (by simp [h511, h1])
    · rename_i h2
      exact absurd h (by simp [h511, h2])
    · rfl

theorem setAccountBody_zero (h511 : bits (k.w 2) 15 0 ≤ 511) (hop : bits (k.w 2) 23 16 = 1 ∨ bits (k.w 2) 23 16 = 2)
    (hw : bits (k.w 2) 23 16 = 1 → WriteArgs.ofTicket k ≠ none) (h0 : bits (k.w 2) 15 0 = 0) :
    setAccountBody k u = u.close 0 .notPermitted 0 0 := by
  unfold setAccountBody
  rw [if_neg (Nat.not_lt.mpr h511)]
  rcases hop with h1 | h2
  · obtain ⟨a, ha⟩ := Option.ne_none_iff_exists'.mp (hw h1)
    rw [h1, ha]
    exact if_pos h0
  · rw [h2]
    exact if_pos h0

theorem setAccountBody_write {a : WriteArgs} (hn : n = bits (k.w 2) 15 0) (h1 : 1 ≤ n) (h511 : n ≤ 511)
    (hop : bits (k.w 2) 23 16 = 1) (ha : WriteArgs.ofTicket k = some a) : setAccountBody k u = u.setAccountWrite n a := by
  subst hn
  unfold setAccountBody
  rw [if_neg (Nat.not_lt.mpr h511), hop, ha]
  exact if_neg (by omega)

theorem setAccountBody_vacate (hn : n = bits (k.w 2) 15 0) (h1 : 1 ≤ n) (h511 : n ≤ 511)
    (hop : bits (k.w 2) 23 16 = 2) : setAccountBody k u = u.setAccountVacate n := by
  subst hn
  unfold setAccountBody
  rw [if_neg (Nat.not_lt.mpr h511), hop]
  exact if_neg (by omega)

/-- R6: the quota in effect is the ticket's, but never below what is used and reserved. -/
theorem State.quotaInEffect_eq (s : State) (n : Nat) (a : WriteArgs) :
    s.quotaInEffect n a = if a.unlimited = true then a.quota else max a.quota (s.committed n) := by
  unfold State.quotaInEffect
  cases a.unlimited
  · simp only [true_and, Bool.false_eq_true, if_false]
    split <;> omega
  · rfl

theorem WriteArgs.digest_eq (a : WriteArgs) (old : Option Nat) :
    a.digest old = if a.action = 0 then old else if a.action = 1 then some (Config.keyedDigest.digest a.credential) else none := by
  unfold WriteArgs.digest
  split
  · rename_i h
    rw [if_pos h]
  · rename_i h
    rw [if_neg (by omega), if_pos h]
  · rename_i h0 h1
    rw [if_neg h0, if_neg h1]

/-- R6: the record a WRITE starts from. -/
theorem State.writeBase_eq (s : State) (n : Nat) :
    s.writeBase n = if (s.acct n).damaged = true ∨ (s.record n).state = .vacant then AccountRecord.vacant else s.record n := by
  unfold State.writeBase State.freshAccount
  simp only [Bool.or_eq_true, decide_eq_true_eq]

/-- R5 check 3. -/
theorem State.accountInUse_iff (s : State) (n : Nat) :
    s.accountInUse n = true ↔
      (s.acct n).session.isSome = true ∨ ∃ i < 32, (s.job i).state ≠ .free ∧ (s.job i).account = n := by
  unfold State.accountInUse
  rw [Bool.or_eq_true, List.any_eq_true]
  refine or_congr_right ⟨fun ⟨j, hj, h⟩ => ?_, fun ⟨i, hi, h⟩ => ?_⟩
  · obtain ⟨i, hi, rfl⟩ := List.getElem_of_mem hj
    have hi32 : i < 32 := by simpa using hi
    refine ⟨i, hi32, ?_⟩
    simpa [State.job, entryAt, hi32] using h
  · refine ⟨s.jobs[i], Vector.mem_toList_iff.mpr (Vector.getElem_mem hi), ?_⟩
    simpa [State.job, entryAt, hi] using h

/-- R7: VACATE of an account that is not in use. -/
theorem State.setAccountVacate_unused (hused : s.accountInUse n = false) {slots : Vector KeySlot 32}
    (hs : (s.found n).destroyHeldOf n = { s.found n with slots }) :
    s.setAccountVacate n =
      (({ ((s.found n).putRecord n .vacant).putAcct n { (s.found n).acct n with damaged := false, lockoutEnd := none } with slots }).close
        0 .ok 0 0).pumpCore := by
  unfold State.setAccountVacate State.vacateAccount
  rw [if_neg (by rw [hused]; exact Bool.false_ne_true), State.readAccount_found, hs]
  rfl

end Sys2Proof.Machine

namespace Sys2Proof.Proofs

open Sys2Proof.Machine

/-- Settles O12: the checks in order, then the record written, or the account vacated and the HELD slots it owns destroyed. -/
theorem setAccountAnswers : Obligations.SetAccountAnswers := by
  refine ⟨fun env s k hserves => ?_, ?_, ?_⟩
  · intro b n operation malformed
    refine ⟨fun hm => ?_, fun hm h0 => ?_⟩
    · exact hserves.answers 0 (v := b) rfl rfl fun L => setAccountBody_badTicket hm
    · obtain ⟨h511, hrest⟩ := not_or.mp hm
      obtain ⟨hop, hw⟩ := not_or.mp hrest
      refine hserves.answers 0 (v := b) rfl rfl fun L => setAccountBody_zero (Nat.not_lt.mp h511) ?_ (fun h1 hn => hw ⟨h1, hn⟩) h0
      by_contra hno
      exact hop ⟨fun h => hno (.inl h), fun h => hno (.inr h)⟩
  · intro env s k a n hserves hn h1 h511 hop ha b base committed quota
    have hl : b.lanes = (s.begin env).lanes := State.found_lanes _ _
    have he : b.env = env := State.found_env _ _
    have hbody : ∀ L, setAccountBody k ((s.begin env).setLanes L) = _ := fun L =>
      setAccountBody_write (u := (s.begin env).setLanes L) hn h1 h511 hop ha
    have hread : ∀ L, ((s.begin env).setLanes L).readAccount n = b.setLanes L := fun L => by
      rw [State.readAccount_found, State.setLanes_found]
    have hbase : b.writeBase n = base := State.writeBase_eq b n
    have hquota : b.quotaInEffect n a = quota := by
      rw [State.quotaInEffect_eq, State.committed, hbase]
    split
    · rename_i hfull
      refine hserves.answers 0 (v := b) hl he fun L => (hbody L).trans ?_
      unfold State.setAccountWrite
      rw [hread L]
      refine if_pos ⟨hfull.1, ?_⟩
      show 2 ^ 32 - 1 < (b.writeBase n).used + (b.acct n).reserved
      rw [hbase]
      have := hfull.2
      omega
    · rename_i hfits
      refine hserves.answers 0 (v := (b.putRecord n _).putAcct n _) hl he fun L => (hbody L).trans ?_
      unfold State.setAccountWrite
      rw [hread L]
      refine (if_neg ?_).trans ?_
      · intro hc
        refine hfits ⟨hc.1, ?_⟩
        have h2 : 2 ^ 32 - 1 < (b.writeBase n).used + (b.acct n).reserved := hc.2
        rw [hbase] at h2
        show 2 ^ 32 ≤ base.used + (b.acct n).reserved
        omega
      · show ((b.setLanes L).writeAccount n a).close 0 .ok (b.quotaInEffect n a) a.state.code = _
        rw [hquota, State.writeAccount]
        rw [State.writeRecord_ok (show ((b.setLanes L).writtenRecord n a).checkOk = true from rfl)]
        show State.close ((State.putRecord (b.setLanes L) n (b.writtenRecord n a)).putAcct n { b.acct n with
            damaged := false, lockoutEnd := if (b.writeBase n).state = .locked ∧ a.state = .locked then (b.acct n).lockoutEnd else none })
          0 .ok quota a.state.code = _
        rw [State.writtenRecord, hquota, WriteArgs.digest_eq, hbase]
        rfl
  · intro env s k n hserves hn h1 h511 hop b used taken
    have hbody : ∀ L, setAccountBody k ((s.begin env).setLanes L) = _ := fun L =>
      setAccountBody_vacate (u := (s.begin env).setLanes L) hn h1 h511 hop
    have huse : b.accountInUse n = true ↔ used := State.accountInUse_iff b n
    refine ⟨fun hused => ?_, fun hused hlawful hcore hwork => ?_⟩
    · exact hserves.answers 0 (v := b) rfl rfl fun L => (hbody L).trans (if_pos (huse.mpr hused))
    · intro c
      have hunused : b.accountInUse n = false := by
        rw [← Bool.not_eq_true]
        exact fun h => hused (huse.mp h)
      have hframe := b.readAccount_frame n
      rw [State.readAccount_found] at hframe
      change c = _ at hframe
      obtain ⟨slots, hslots, hslot⟩ := State.destroyHeldOf_spec (s := c) (n := n)
        (by rw [hframe]; exact hlawful) (by rw [hframe]; exact hwork)
      refine ⟨_, hserves.answers_pumped 0
        (v := { (c.putRecord n .vacant).putAcct n { c.acct n with damaged := false, lockoutEnd := none } with slots })
        (State.found_lanes _ _) (State.found_env _ _) ?_ ?_, rfl, ?_⟩
      · have hcoreC : c.core = s.core := by
          rw [hframe]
          rfl
        show c.coreSettled
        rw [State.coreSettled, hcoreC]
        exact hcore
      · intro L
        have hcL : (b.setLanes L).found n = c.setLanes L := State.setLanes_found L
        obtain ⟨slots', hslots', hslot'⟩ := State.destroyHeldOf_spec (s := c.setLanes L) (n := n)
          (by rw [hframe]; exact hlawful) (by rw [hframe]; exact hwork)
        have hsame : slots' = slots := eq_of_entryAt (.free 0) fun i => (hslot' i).trans (hslot i).symm
        have hd : ((b.setLanes L).found n).destroyHeldOf n = { (b.setLanes L).found n with slots } := by
          rw [hcL, hslots', hsame]
        refine (hbody L).trans ((State.setAccountVacate_unused (s := b.setLanes L) hunused hd).trans ?_)
        rw [hcL]
        rfl
      · have hsb : ∀ i, c.slot i = b.slot i := fun i => by
          rw [hframe]
          rfl
        intro i
        refine ⟨fun ht => ?_, fun ht => ?_⟩
        · refine (hslot i).trans ((if_pos ?_).trans ?_)
          · rw [hsb i]
            exact ht
          · rw [hsb i]
        · refine (hslot i).trans ((if_neg ?_).trans (hsb i))
          rw [hsb i]
          exact ht

end Sys2Proof.Proofs
end

