-- ==== Sys2Proof/Proofs/Period.lean ====
section
/-! Reset Period (R9), also broken off by a loss of power: O14. -/

namespace Sys2Proof.Machine

variable {s t u v b : State} {env : Env} {k : Ticket} {n i m : Nat}

/-! ### An account as its read leaves it, from what is stored of it -/

/-- R2, R3: the record after its read: account 0's is written afresh where its check value fails. -/
def foundRecord (n : Nat) (r : AccountRecord) : AccountRecord := if n = 0 ∧ r.checkOk = false then { r.zeroed with checkOk := true } else r

/-- R2: the volatile part after the read: another account's is marked where its record's check value fails. -/
def foundAcct (n : Nat) (r : AccountRecord) (a : AccountVolatile) : AccountVolatile :=
  if n ≠ 0 ∧ r.checkOk = false then { a with damaged := true } else a

/-- R2, R3, R4: the state checks see. -/
def seenAs (n : Nat) (r : AccountRecord) (a : AccountVolatile) : SeenState :=
  if n = 0 then .active
  else if a.damaged then .damaged
  else
    match r.state with
    | .vacant => .vacant
    | .active => .active
    | .suspended => .suspended
    | .locked => .locked

/-- R9: ALL leaves a vacant and a damaged account alone. -/
def SeenState.kept (x : SeenState) : Bool := x = .vacant || x = .damaged

/-- R9: the record ALL leaves of an account that has been read. -/
def resetRecord (x : SeenState) (r : AccountRecord) : AccountRecord := if x.kept = true then r else { r with used := 0 }

/-- R2, R3, R176: the read of a record captures its failure. -/
def State.foundFails (s : State) (n : Nat) : Bool := !(s.record n).checkOk && (if n = 0 then !s.zeroCaptured else !(s.acct n).damaged)

theorem State.seen_eq (s : State) (n : Nat) : s.seen n = seenAs n (s.record n) (s.acct n) := rfl

theorem State.zeroCaptured_again (h : u.zeroCaptured = true) : { u with zeroCaptured := true } = u := by rw [← h]

/-- R2, R3, R176: what the read of an account leaves. -/
theorem State.found_eq (s : State) (n : Nat) : s.found n =
    { s with
      stored := { s.stored with accounts := putAt s.stored.accounts n (foundRecord n (s.record n)) }
      accounts := putAt s.accounts n (foundAcct n (s.record n) (s.acct n))
      zeroCaptured := s.zeroCaptured || (decide (n = 0) && !(s.record n).checkOk)
      faults := if s.foundFails n = true then
        s.faults.capture { kind := .storeRecord, lane := none, address := none, time := s.faultTime, detail := n } else s.faults
      notice := if s.foundFails n = true then s.notice ||| Cause.fault.mask else s.notice
      afterWrites := (s.found n).afterWrites } := by
  have hrec : putAt s.stored.accounts n (s.record n) = s.stored.accounts := putAt_entryAt ..
  have hacct : putAt s.accounts n (s.acct n) = s.accounts := putAt_entryAt ..
  cases hok : (s.record n).checkOk
  · by_cases h0 : n = 0
    · subst h0
      have hr : foundRecord 0 (s.record 0) = { (s.record 0).zeroed with checkOk := true } := if_pos ⟨rfl, hok⟩
      have ha : foundAcct 0 (s.record 0) (s.acct 0) = s.acct 0 := if_neg fun h => h.1 rfl
      cases hz : s.zeroCaptured
      · have hf : s.foundFails 0 = true := by simp [State.foundFails, hok, hz]
        rw [hr, ha, hf, hacct]
        simp only [State.found, hok, hz]
        rfl
      · have hf : s.foundFails 0 = false := by simp [State.foundFails, hok, hz]
        have he : s.found 0 = s.putRecord 0 { (s.record 0).zeroed with checkOk := true } := by
          simp only [State.found, hok, hz]
          rfl
        rw [hr, ha, hf, hacct, he, Bool.true_or]
        exact (State.zeroCaptured_again (u := s.putRecord 0 { (s.record 0).zeroed with checkOk := true }) hz).symm
    · have hr : foundRecord n (s.record n) = s.record n := if_neg fun h => h0 h.1
      have ha : foundAcct n (s.record n) (s.acct n) = { s.acct n with damaged := true } := if_pos ⟨h0, hok⟩
      rw [hr, ha, hrec]
      cases hd : (s.acct n).damaged
      · have hf : s.foundFails n = true := by simp [State.foundFails, hok, hd, h0]
        rw [hf]
        simp [State.found, hok, h0, hd]
      · have hf : s.foundFails n = false := by simp [State.foundFails, hok, hd, h0]
        have hsame : ({ s.acct n with damaged := true } : AccountVolatile) = s.acct n := by rw [← hd]
        rw [hf, hsame, hacct]
        simp [State.found, hok, h0, hd]
  · have hr : foundRecord n (s.record n) = s.record n := if_neg fun h => by rw [hok] at h; exact absurd h.2 (by decide)
    have ha : foundAcct n (s.record n) (s.acct n) = s.acct n := if_neg fun h => by rw [hok] at h; exact absurd h.2 (by decide)
    have hf : s.foundFails n = false := by simp [State.foundFails, hok]
    rw [hr, ha, hf, hrec, hacct]
    simp [State.found, hok]

/-! ### One account of ALL -/

/-- One durable write at most was made, of another state of the stored areas. -/
def State.Wrote (u t : State) : Prop :=
  t.mem = u.mem ∧ t.shadow = u.shadow ∧ t.shadowMem = u.shadowMem ∧
    ((t.stored = u.stored ∧ t.afterWrites = u.afterWrites) ∨ t.afterWrites = u.afterWrites ++ [(t.stored, t.mem)])

theorem State.Wrote.refl (u : State) : u.Wrote u := ⟨rfl, rfl, rfl, .inl ⟨rfl, rfl⟩⟩

theorem State.putRecord_wrote (s : State) (r : AccountRecord) (hn : n < 512) : s.Wrote (s.putRecord n r) := by
  refine ⟨rfl, rfl, rfl, ?_⟩
  rcases s.store_afterWrites_cases (.account n) { s.stored with accounts := putAt s.stored.accounts n r } with ⟨hsame, e⟩ | ⟨-, e⟩
  · have hr : r = entryAt s.stored.accounts n .vacant := by
      simpa [Stored.same, entryAt_putAt, hn] using hsame
    refine .inl ⟨?_, e⟩
    show ({ s.stored with accounts := putAt s.stored.accounts n r } : Stored) = s.stored
    rw [hr, putAt_entryAt]
  · exact .inr e

theorem State.found_ok (h : (s.record n).checkOk = true) : s.found n = s := if_pos h

theorem State.found_wrote (s : State) (n : Nat) : s.Wrote (s.found n) := by
  unfold State.found
  dsimp only []
  split
  · exact .refl s
  · split
    · have hw := s.putRecord_wrote (n := 0)
        { s.record 0 with used := 0, mono := 0, colour := 0, spoiled := 0, scanned := 0, checkOk := true } (by decide)
      split
      · exact hw
      · exact hw
    · split <;> exact .refl s

theorem State.found_record (s : State) (hn : n < 512) : (s.found n).record n = foundRecord n (s.record n) := by
  rw [s.found_eq n]
  exact entryAt_putAt_same _ _ _ _ hn

theorem State.found_acct (s : State) (hn : n < 512) : (s.found n).acct n = foundAcct n (s.record n) (s.acct n) := by
  rw [s.found_eq n]
  exact entryAt_putAt_same _ _ _ _ hn

theorem State.found_seen (s : State) (hn : n < 512) :
    (s.found n).seen n = seenAs n (foundRecord n (s.record n)) (foundAcct n (s.record n) (s.acct n)) := by
  rw [State.seen_eq, s.found_record hn, s.found_acct hn]

/-- R2: a record whose check value fails is that of an account ALL leaves alone, or account 0's, which its read writes afresh. -/
theorem State.found_checkOk (s : State) (hn : n < 512) (h : ((s.found n).seen n).kept = false) : ((s.found n).record n).checkOk = true := by
  rw [s.found_record hn]
  rw [s.found_seen hn] at h
  unfold foundRecord foundAcct seenAs at *
  by_cases h0 : n = 0
  · subst h0
    cases hok : (s.record 0).checkOk <;> simp [hok]
  · rw [if_neg fun h => h0 h.1]
    by_contra hok
    have hdamaged : (if n ≠ 0 ∧ (s.record n).checkOk = false then { s.acct n with damaged := true } else s.acct n).damaged = true := by
      rw [if_pos ⟨h0, by simpa using hok⟩]
    rw [if_neg h0, if_pos hdamaged] at h
    exact absurd h (by decide)

theorem State.resetOne_kept (s : State) (x y : Nat) (h : ((s.found n).seen n).kept = true) :
    State.resetOne (s, x, y) n = (s.found n, x, y + (if (s.found n).seen n = .damaged then 1 else 0)) := by
  unfold State.resetOne
  dsimp only []
  rw [State.readAccount_found]
  generalize s.found n = f at h ⊢
  cases hs : f.seen n <;> rw [hs] at h
  · rfl
  · exact absurd h (by decide)
  · exact absurd h (by decide)
  · exact absurd h (by decide)
  · rfl

theorem State.resetOne_reset (s : State) (x y : Nat) (h : ((s.found n).seen n).kept = false) :
    State.resetOne (s, x, y) n = ((s.found n).writeRecord n { (s.found n).record n with used := 0 }, x + 1, y) := by
  unfold State.resetOne
  dsimp only []
  rw [State.readAccount_found]
  generalize s.found n = f at h ⊢
  cases hs : f.seen n with
  | vacant | damaged =>
    rw [hs] at h
    exact absurd h (by decide)
  | active | suspended | locked => rfl

/-- R9: what ALL leaves of one account, with whether it was written and whether it is damaged. -/
theorem State.resetOne_eq (s : State) (x y : Nat) (hn : n < 512) :
    ∃ t, State.resetOne (s, x, y) n =
        (t, x + (if ((s.found n).seen n).kept = true then 0 else 1), y + (if (s.found n).seen n = .damaged then 1 else 0)) ∧
      s.Wrote t ∧
      t = { s.found n with
        stored := { s.stored with
          accounts := putAt s.stored.accounts n (resetRecord ((s.found n).seen n) ((s.found n).record n)) }
        afterWrites := t.afterWrites } := by
  have hstored : (s.found n).stored = { s.stored with accounts := putAt s.stored.accounts n ((s.found n).record n) } := by
    rw [s.found_record hn, s.found_eq n]
  cases hk : ((s.found n).seen n).kept
  · have hok := s.found_checkOk hn hk
    have hnd : (s.found n).seen n ≠ .damaged := fun e => by rw [e] at hk; exact absurd hk (by decide)
    refine ⟨(s.found n).putRecord n { (s.found n).record n with used := 0 }, ?_, ?_, ?_⟩
    · rw [s.resetOne_reset x y hk, State.writeRecord_ok (show ({ (s.found n).record n with used := 0 } : AccountRecord).checkOk = true from hok)]
      simp [hnd]
    · cases hs : (s.record n).checkOk
      · have h0 : n = 0 := by
          by_contra h0
          rw [s.found_record hn, foundRecord, if_neg fun h => h0 h.1, hs] at hok
          exact absurd hok (by decide)
        have hsame : ({ (s.found n).record n with used := 0 } : AccountRecord) = (s.found n).record n := by
          rw [s.found_record hn, foundRecord, if_pos ⟨h0, hs⟩]
          rfl
        rw [hsame, State.putRecord_same]
        exact s.found_wrote n
      · rw [State.found_ok hs]
        exact s.putRecord_wrote _ hn
    · have hr : resetRecord ((s.found n).seen n) ((s.found n).record n) = { (s.found n).record n with used := 0 } := by
        rw [resetRecord, if_neg (by rw [hk]; exact Bool.false_ne_true)]
      rw [hr]
      have hst : ((s.found n).putRecord n { (s.found n).record n with used := 0 }).stored =
          { s.stored with accounts := putAt s.stored.accounts n { (s.found n).record n with used := 0 } } := by
        show ({ (s.found n).stored with
          accounts := putAt (s.found n).stored.accounts n { (s.found n).record n with used := 0 } } : Stored) = _
        rw [hstored]
        dsimp only []
        rw [putAt_putAt]
      rw [← hst]
      rfl
  · refine ⟨s.found n, ?_, s.found_wrote n, ?_⟩
    · rw [s.resetOne_kept x y hk]
      simp
    · rw [resetRecord, if_pos hk, ← hstored]

/-! ### The accounts up to one -/

/-- R9: ALL, after the accounts below one, with its counts. -/
def State.resetBelow (b : State) (m : Nat) : State × Nat × Nat := (List.range m).foldl State.resetOne (b, 0, 0)

theorem State.resetBelow_succ (b : State) (m : Nat) : b.resetBelow (m + 1) = State.resetOne (b.resetBelow m) m := by
  rw [State.resetBelow, List.range_succ, List.foldl_append]
  rfl

/-- R176: the failing records read below an account. -/
def State.failsBelow (b : State) (m : Nat) : List FirstFault :=
  ((List.range m).filter b.foundFails).map fun n =>
    { kind := .storeRecord, lane := none, address := none, time := b.faultTime, detail := n }

/-- What ALL has left when the accounts below m have been taken. -/
structure ResetBelow (b : State) (m : Nat) (t : State) : Prop where
  frame : t = { b with
    stored := { b.stored with accounts := t.stored.accounts }, accounts := t.accounts, afterWrites := t.afterWrites
    zeroCaptured := b.zeroCaptured || (decide (0 < m) && !(b.record 0).checkOk)
    faults := (b.failsBelow m).foldl .capture b.faults
    notice := if b.failsBelow m = [] then b.notice else b.notice ||| Cause.fault.mask }
  acct : ∀ a, t.acct a = if a < m then (b.found a).acct a else b.acct a
  record : ∀ a, t.record a = if a < m then resetRecord ((b.found a).seen a) ((b.found a).record a) else b.record a

/-- R9: the counts of ALL below an account. -/
def State.countsBelow (b : State) (m : Nat) : Nat × Nat :=
  (((List.range m).filter fun n => !((b.found n).seen n).kept).length, ((List.range m).filter fun n => (b.found n).seen n = .damaged).length)

theorem State.resetBelow_spec (b : State) (m : Nat) (hm : m ≤ 512) :
    ResetBelow b m (b.resetBelow m).1 ∧ (b.resetBelow m).2 = b.countsBelow m := by
  induction m with
  | zero =>
    refine ⟨⟨?_, fun a => rfl, fun a => rfl⟩, rfl⟩
    show b = { b with zeroCaptured := b.zeroCaptured || false }
    rw [Bool.or_false]
  | succ m ih =>
    obtain ⟨h, hcounts⟩ := ih (by omega)
    have hm512 : m < 512 := by omega
    rw [State.resetBelow_succ]
    generalize b.resetBelow m = r at h hcounts ⊢
    obtain ⟨u, x, y⟩ := r
    obtain ⟨hx, hy⟩ := Prod.mk.inj hcounts
    replace h : ResetBelow b m u := h
    obtain ⟨t, he, -, ht⟩ := u.resetOne_eq x y hm512
    have hrec : u.record m = b.record m := (h.record m).trans (if_neg (Nat.lt_irrefl m))
    have hacct : u.acct m = b.acct m := (h.acct m).trans (if_neg (Nat.lt_irrefl m))
    have hseen : (u.found m).seen m = (b.found m).seen m := by
      rw [u.found_seen hm512, b.found_seen hm512, hrec, hacct]
    have hfound : (u.found m).record m = (b.found m).record m := by
      rw [u.found_record hm512, b.found_record hm512, hrec]
    have hfails : u.foundFails m = b.foundFails m := by
      unfold State.foundFails
      rw [hrec, hacct]
      by_cases h0 : m = 0
      · subst h0
        have hz : u.zeroCaptured = b.zeroCaptured := (congrArg State.zeroCaptured h.frame).trans (Bool.or_false _)
        rw [hz]
      · rw [if_neg h0, if_neg h0]
    have hfailsBelow : b.failsBelow (m + 1) = b.failsBelow m ++ if b.foundFails m = true then
        [{ kind := .storeRecord, lane := none, address := none, time := b.faultTime, detail := m }] else [] := by
      rw [State.failsBelow, List.range_succ, List.filter_append, List.map_append]
      cases hf : b.foundFails m <;> simp [State.failsBelow, hf]
    rw [he]
    refine ⟨⟨?_, fun a => ?_, fun a => ?_⟩, ?_⟩
    · have htime : u.faultTime = b.faultTime := (congrArg State.faultTime h.frame).trans rfl
      have hfound_eq := u.found_eq m
      have hz : t.zeroCaptured = (b.zeroCaptured || (decide (0 < m + 1) && !(b.record 0).checkOk)) := by
        rw [ht, hfound_eq]
        show (u.zeroCaptured || (decide (m = 0) && !(u.record m).checkOk)) = _
        rw [congrArg State.zeroCaptured h.frame, hrec]
        show ((b.zeroCaptured || (decide (0 < m) && !(b.record 0).checkOk)) || _) = _
        by_cases h0 : m = 0
        · subst h0
          simp
        · simp [h0, Nat.pos_of_ne_zero h0]
      have hfaults : t.faults = (b.failsBelow (m + 1)).foldl .capture b.faults := by
        rw [ht, hfound_eq]
        show (if u.foundFails m = true then u.faults.capture _ else u.faults) = _
        rw [hfails, hfailsBelow, List.foldl_append, congrArg State.faults h.frame, htime]
        split <;> rfl
      have hnotice : t.notice = if b.failsBelow (m + 1) = [] then b.notice else b.notice ||| Cause.fault.mask := by
        rw [ht, hfound_eq]
        show (if u.foundFails m = true then u.notice ||| Cause.fault.mask else u.notice) = _
        rw [hfails, hfailsBelow, congrArg State.notice h.frame]
        dsimp only []
        cases b.foundFails m
        · simp
        · by_cases hb : b.failsBelow m = [] <;> simp [hb, BitVec.or_assoc]
      have hframe : t = { b with
          stored := { b.stored with accounts := t.stored.accounts }, accounts := t.accounts, afterWrites := t.afterWrites
          zeroCaptured := t.zeroCaptured, faults := t.faults, notice := t.notice } := by
        obtain ⟨A, C, W, Z, F, N, hu⟩ : ∃ A C W Z F N, u = { b with
            stored := { b.stored with accounts := A }, accounts := C, afterWrites := W, zeroCaptured := Z, faults := F, notice := N } :=
          ⟨_, _, _, _, _, _, h.frame⟩
        obtain ⟨A', C', W', Z', F', N', hf⟩ : ∃ A C W Z F N, u.found m = { u with
            stored := A, accounts := C, zeroCaptured := Z, faults := F, notice := N, afterWrites := W } :=
          ⟨_, _, _, _, _, _, hfound_eq⟩
        rw [hf] at ht
        generalize putAt u.stored.accounts m _ = A'' at ht
        rw [hu] at ht
        rw [ht]
      rw [← hz, ← hfaults, ← hnotice]
      exact hframe
    · have ha : t.acct a = (u.found m).acct a := (congrArg (fun x : State => x.acct a) ht).trans rfl
      rw [ha]
      have hother : (u.found m).acct a = if m = a ∧ m < 512 then foundAcct m (u.record m) (u.acct m) else u.acct a := by
        rw [u.found_eq m]
        exact entryAt_putAt ..
      rw [hother, hrec, hacct, ← b.found_acct hm512, h.acct a]
      by_cases hma : m = a
      · subst hma
        simp [hm512]
      · rw [if_neg fun hc => hma hc.1]
        by_cases ham : a < m
        · rw [if_pos ham, if_pos (by omega)]
        · rw [if_neg ham, if_neg (by omega)]
    · have ha : t.record a = entryAt (putAt u.stored.accounts m (resetRecord ((u.found m).seen m) ((u.found m).record m))) a .vacant :=
        congrArg (fun x : State => x.record a) ht
      rw [ha, entryAt_putAt, hseen, hfound]
      by_cases hma : m = a
      · subst hma
        rw [if_pos ⟨rfl, hm512⟩, if_pos (Nat.lt_succ_self m)]
      · rw [if_neg fun hc => hma hc.1]
        refine (h.record a).trans ?_
        by_cases ham : a < m
        · rw [if_pos ham, if_pos (by omega)]
        · rw [if_neg ham, if_neg (by omega)]
    · rw [hseen]
      rw [hx, hy]
      simp only [State.countsBelow, List.range_succ, List.filter_append, List.length_append]
      simp only [List.filter_cons, List.filter_nil]
      cases (b.found m).seen m <;> rfl

/-! ### A loss of power partway -/

/-- What the stored areas and the DRAM are found as, by the number of writes made. -/
def State.moments (s : State) : List (Stored × Memory) := (s.shadow, s.shadowMem) :: s.afterWrites

theorem State.heldAfter_eq (s : State) (n : Nat) : s.heldAfter n = (s.moments[n]?).getD (s.stored, s.mem) := by
  cases n <;> rfl

/-- The moments of a command after a durable write at most. -/
theorem State.Wrote.moments (h : u.Wrote t) (hlast : u.moments.getLast? = some (u.stored, u.mem)) :
    t.moments.getLast? = some (t.stored, t.mem) ∧ (t.moments = u.moments ∨ t.moments = u.moments ++ [(t.stored, t.mem)]) := by
  obtain ⟨hmem, hsh, hshm, ⟨hst, haw⟩ | haw⟩ := h
  · have he : t.moments = u.moments := by rw [State.moments, State.moments, hsh, hshm, haw]
    exact ⟨by rw [he, hlast, hst, hmem], .inl he⟩
  · have he : t.moments = u.moments ++ [(t.stored, t.mem)] := by
      rw [State.moments, State.moments, hsh, hshm, haw]
      rfl
    exact ⟨by rw [he]; exact List.getLast?_concat .., .inr he⟩

/-- R1, R9: each moment of ALL is that after the accounts below some account, and each such moment is kept. -/
theorem State.resetBelow_moments (b : State) (hb : b.moments = [(b.stored, b.mem)]) (m : Nat) (hm : m ≤ 512) :
    (b.resetBelow m).1.moments.getLast? = some ((b.resetBelow m).1.stored, (b.resetBelow m).1.mem) ∧
      (∀ x ∈ (b.resetBelow m).1.moments, ∃ j ≤ m, x = ((b.resetBelow j).1.stored, (b.resetBelow j).1.mem)) ∧
      ∀ j ≤ m, ∃ w : Nat, (b.resetBelow m).1.moments[w]? = some ((b.resetBelow j).1.stored, (b.resetBelow j).1.mem) := by
  induction m with
  | zero =>
    refine ⟨by show b.moments.getLast? = _; rw [hb]; rfl, fun x hx => ⟨0, Nat.le_refl 0, ?_⟩, fun j hj => ⟨0, ?_⟩⟩
    · have hx' : x ∈ b.moments := hx
      rw [hb] at hx'
      exact List.mem_singleton.mp hx'
    · rw [Nat.le_zero.mp hj]
      show b.moments[0]? = _
      rw [hb]
      rfl
  | succ m ih =>
    obtain ⟨hlast, hall, hkept⟩ := ih (by omega)
    obtain ⟨t, he, hwrote, -⟩ := (b.resetBelow m).1.resetOne_eq (b.resetBelow m).2.1 (b.resetBelow m).2.2 (show m < 512 by omega)
    have ht : (b.resetBelow (m + 1)).1 = t := by
      rw [State.resetBelow_succ]
      exact congrArg Prod.fst he
    obtain ⟨hlast', hmoments⟩ := hwrote.moments hlast
    rw [← ht] at hlast' hmoments
    refine ⟨hlast', fun x hx => ?_, fun j hj => ?_⟩
    · rcases hmoments with e | e <;> rw [e] at hx
      · obtain ⟨j, hj, e⟩ := hall x hx
        exact ⟨j, by omega, e⟩
      · rcases List.mem_append.mp hx with hx | hx
        · obtain ⟨j, hj, e⟩ := hall x hx
          exact ⟨j, by omega, e⟩
        · exact ⟨m + 1, Nat.le_refl _, List.mem_singleton.mp hx⟩
    · rcases Nat.lt_or_ge m j with hmj | hmj
      · obtain rfl : j = m + 1 := by omega
        refine ⟨(b.resetBelow (m + 1)).1.moments.length - 1, ?_⟩
        rw [← List.getLast?_eq_getElem?]
        exact hlast'
      · obtain ⟨w, hw⟩ := hkept j hmj
        refine ⟨w, ?_⟩
        rcases hmoments with e | e <;> rw [e]
        · exact hw
        · rw [List.getElem?_append_left (List.getElem?_eq_some_iff.mp hw).1]
          exact hw

/-! ### The body of Reset Period -/

theorem State.setLanes_resetOne (L : Vector Lane 4) (s : State) (x y n : Nat) :
    State.resetOne (s.setLanes L, x, y) n = ((State.resetOne (s, x, y) n).1.setLanes L, (State.resetOne (s, x, y) n).2) := by
  have hr : (s.setLanes L).readAccount n = (s.readAccount n).setLanes L := State.setLanes_readAccount ..
  unfold State.resetOne
  dsimp only []
  rw [hr]
  generalize s.readAccount n = f
  show (match f.seen n with
    | .vacant => (f.setLanes L, x, y)
    | .damaged => (f.setLanes L, x, y + 1)
    | _ => ((f.setLanes L).writeRecord n { f.record n with used := 0 }, x + 1, y)) = _
  cases f.seen n <;> rfl

theorem State.setLanes_resetBelow (L : Vector Lane 4) (b : State) (m : Nat) :
    (b.setLanes L).resetBelow m = ((b.resetBelow m).1.setLanes L, (b.resetBelow m).2) := by
  induction m with
  | zero => rfl
  | succ m ih => rw [State.resetBelow_succ, State.resetBelow_succ, ih, State.setLanes_resetOne]

theorem State.resetAll_eq (u : State) (L : Vector Lane 4) (m : Nat) :
    (u.setLanes L).resetAll (List.range m) =
      ((u.resetBelow m).1.setLanes L).close 0 .ok (u.resetBelow m).2.1 (u.resetBelow m).2.2 := by
  unfold State.resetAll
  have h := State.setLanes_resetBelow L u m
  rw [State.resetBelow] at h
  dsimp only []
  rw [h]

/-- R9: one account, refused as vacant. -/
theorem State.resetAccount_vacant (hn : n ≤ 511) (hv : u.found n = v) (hs : v.seen n = .vacant) :
    u.resetAccount n = v.close 0 .noAccount 0 0 := by
  unfold State.resetAccount
  rw [if_neg (by omega), State.readAccount_found, hv]
  dsimp only []
  rw [hs]

/-- R9: one account, refused as damaged. -/
theorem State.resetAccount_damaged (hn : n ≤ 511) (hv : u.found n = v) (hs : v.seen n = .damaged) :
    u.resetAccount n = v.close 0 .accountDamaged 0 0 := by
  unfold State.resetAccount
  rw [if_neg (by omega), State.readAccount_found, hv]
  dsimp only []
  rw [hs]

/-- R9: one account, its used reset. -/
theorem State.resetAccount_resets (hn : n ≤ 511) (hv : u.found n = v) (hs : (v.seen n).kept = false) :
    u.resetAccount n = (v.writeRecord n { v.record n with used := 0 }).close 0 .ok 1 0 := by
  unfold State.resetAccount
  rw [if_neg (by omega), State.readAccount_found, hv]
  dsimp only []
  cases hx : v.seen n with
  | vacant | damaged =>
    rw [hx] at hs
    exact absurd hs (by decide)
  | active | suspended | locked => rfl

theorem State.answered_power (s : State) (lane : Fin 4) (code : ReturnCode) (w13 w14 : Nat) (e t : Bool) :
    (s.answered lane k code w13 w14 e t).power = s.power := rfl

theorem State.answered_moments (s : State) (lane : Fin 4) (code : ReturnCode) (w13 w14 : Nat) (e t : Bool) :
    (s.answered lane k code w13 w14 e t).moments = s.moments := rfl

/-- A ticket is in service with power present. -/
theorem Serves.power {kind : TicketKind} (h : Serves env s kind k) : (s.begin env).power = true := by
  have hup := (State.serving_some h.1).1
  simp only [State.up, State.alive, Bool.and_eq_true] at hup
  exact hup.1.1

theorem State.countsBelow_eq (b : State) (m : Nat) {seen : Nat → SeenState} {kept : Nat → Bool}
    (hs : ∀ n, seen n = (b.found n).seen n) (hk : ∀ n, kept n = (seen n).kept) :
    b.countsBelow m = (((List.range m).filter fun n => !kept n).length, ((List.range m).filter fun n => seen n = .damaged).length) := by
  simp only [State.countsBelow, hk, hs]

/-- R9, R176: what ALL changes beside the records and marks. -/
theorem ResetBelow.all (h : ResetBelow b m t) (hm : 0 < m) {failing : List Nat}
    (hf : failing = (List.range m).filter (fun n => !(b.record n).checkOk && (if n = 0 then !b.zeroCaptured else !(b.acct n).damaged))) :
    t = { b with
      stored := { b.stored with accounts := t.stored.accounts }, accounts := t.accounts, afterWrites := t.afterWrites
      zeroCaptured := b.zeroCaptured || !(b.record 0).checkOk
      faults := (failing.map (fun n =>
        { kind := .storeRecord, lane := none, address := none, time := b.faultTime, detail := n })).foldl .capture b.faults
      notice := if failing = [] then b.notice else b.notice ||| Cause.fault.mask } := by
  have he : b.failsBelow m = failing.map (fun n =>
      { kind := .storeRecord, lane := none, address := none, time := b.faultTime, detail := n }) := by
    rw [hf]
    rfl
  have hnil : b.failsBelow m = [] ↔ failing = [] := by rw [he, List.map_eq_nil_iff]
  have hframe := h.frame
  rw [show decide (0 < m) = true from decide_eq_true hm, Bool.true_and] at hframe
  rw [← he]
  simp only [← hnil]
  exact hframe

/-- R1, R9: a loss of power partway through ALL, the ticket not closed yet, or after it. -/
theorem State.resetBelow_lost {N : Nat} {done : State}
    (hbelow : ∀ m ≤ N, ResetBelow b m (b.resetBelow m).1) (hr : ResetBelow b N u)
    (hmoments : ∀ x ∈ u.moments, ∃ j ≤ N, x = ((b.resetBelow j).1.stored, (b.resetBelow j).1.mem))
    (hkept : ∀ j ≤ N, ∃ w : Nat, u.moments[w]? = some ((b.resetBelow j).1.stored, (b.resetBelow j).1.mem))
    (hdone : done.moments = u.moments) (hpower : done.power = true) :
    let reached (m : Nat) (v : State) : Prop := v.mem = b.mem ∧ ∀ a < N, v.record a = if a < m then u.record a else b.record a
    (∀ writes v, Answers (.lossOfPower writes) done v →
      (v.stored = done.stored ∧ v.mem = done.mem) ∨ ∃ m ≤ N, reached m v) ∧
    ∀ m ≤ N, ∃ writes v, Answers (.lossOfPower writes) done v ∧ reached m v := by
  intro reached
  have hreached : ∀ j ≤ N, ∀ v : State, v.mem = b.mem → v.stored = (b.resetBelow j).1.stored → reached j v := by
    intro j hj v hvm hvs
    refine ⟨hvm, fun a ha => ?_⟩
    have hva : v.record a = (b.resetBelow j).1.record a := congrArg (fun x : Stored => entryAt x.accounts a .vacant) hvs
    refine hva.trans (((hbelow j hj).record a).trans ?_)
    split
    · exact ((hr.record a).trans (if_pos ha)).symm
    · rfl
  have hmemBelow : ∀ j ≤ N, (b.resetBelow j).1.mem = b.mem := fun j hj =>
    (congrArg State.mem (hbelow j hj).frame).trans rfl
  have hlost : ∀ writes v, Answers (.lossOfPower writes) done v ↔ v = done.losePower writes := fun writes v =>
    answers_lossOfPower.trans (by rw [if_pos hpower])
  have hheld : ∀ writes, done.heldAfter writes = (u.moments[writes]?).getD (done.stored, done.mem) := fun writes => by
    rw [State.heldAfter_eq, hdone]
  refine ⟨fun writes v hv => ?_, fun m hm => ?_⟩
  · rw [(hlost writes v).mp hv]
    rcases hm : u.moments[writes]? with _ | x
    · left
      show (done.heldAfter writes).1 = _ ∧ (done.heldAfter writes).2 = _
      rw [hheld, hm]
      exact ⟨rfl, rfl⟩
    · obtain ⟨j, hj, hx⟩ := hmoments x (List.mem_of_getElem? hm)
      right
      have hx' : done.heldAfter writes = x := by rw [hheld, hm, Option.getD_some]
      refine ⟨j, hj, hreached j hj _ ?_ ?_⟩
      · show (done.heldAfter writes).2 = _
        rw [hx', hx]
        exact hmemBelow j hj
      · show (done.heldAfter writes).1 = _
        rw [hx', hx]
  · obtain ⟨w, hw⟩ := hkept m hm
    refine ⟨w, done.losePower w, (hlost w _).mpr rfl, hreached m hm _ ?_ ?_⟩
    · show (done.heldAfter w).2 = _
      rw [hheld, hw]
      exact hmemBelow m hm
    · show (done.heldAfter w).1 = _
      rw [hheld, hw]
      rfl

end Sys2Proof.Machine

namespace Sys2Proof.Proofs

open Sys2Proof.Machine

/-- Settles O14: one account; ALL by the accounts below each; a loss of power by the moments of ALL. -/
theorem resetPeriodAnswers : Obligations.ResetPeriodAnswers := by
  intro env s k n hserves hn
  refine ⟨fun h511 => ?_, fun h511 hall => ?_, fun hall => ?_⟩
  · intro b
    have hbody : ∀ L, resetPeriodBody k ((s.begin env).setLanes L) = ((s.begin env).setLanes L).resetAccount n := fun L => by
      rw [resetPeriodBody_one (show bits (k.w 2) 15 0 ≠ 0xFFFF by omega), ← hn]
    have hread : ∀ L, ((s.begin env).setLanes L).found n = b.setLanes L := fun L => State.setLanes_found L
    have hl : b.lanes = (s.begin env).lanes := State.found_lanes _ _
    have he : b.env = env := State.found_env _ _
    refine ⟨fun hs => ?_, fun hs => ?_, fun hv hd => ?_, fun h0 hbad => ?_⟩
    · exact hserves.answers 0 (v := b) hl he fun L => (hbody L).trans (State.resetAccount_vacant h511 (hread L) hs)
    · exact hserves.answers 0 (v := b) hl he fun L => (hbody L).trans (State.resetAccount_damaged h511 (hread L) hs)
    · have hk : (b.seen n).kept = false := by
        cases hx : b.seen n <;> simp_all [SeenState.kept]
      have hok : (b.record n).checkOk = true := State.found_checkOk _ (by omega) hk
      refine hserves.answers 0 (v := b.putRecord n { b.record n with used := 0 }) hl he fun L =>
        (hbody L).trans ((State.resetAccount_resets h511 (hread L) hk).trans ?_)
      rw [State.writeRecord_ok (show ({ (b.setLanes L).record n with used := 0 } : AccountRecord).checkOk = true from hok)]
      rfl
    · have hdamaged : (b.acct n).damaged = true := by
        rw [State.found_acct _ (by omega), foundAcct, if_pos ⟨h0, hbad⟩]
      rw [State.seen_eq, seenAs, if_neg h0, if_pos hdamaged]
  · refine hserves.answers 0 (v := s.begin env) rfl rfl fun L => ?_
    rw [resetPeriodBody_one (show bits (k.w 2) 15 0 ≠ 0xFFFF by omega), ← hn]
    exact if_pos h511
  · intro b seen kept failing
    have hpower : b.power = true := hserves.power
    obtain ⟨hr, hcounts⟩ := b.resetBelow_spec 512 (Nat.le_refl _)
    obtain ⟨hlast, hmoments, hkept⟩ := b.resetBelow_moments rfl 512 (Nat.le_refl _)
    have hbelow : ∀ m ≤ 512, ResetBelow b m (b.resetBelow m).1 := fun m hm => (b.resetBelow_spec m hm).1
    have hbody : ∀ L, resetPeriodBody k (b.setLanes L) = _ := fun L =>
      (resetPeriodBody_all (hn.symm.trans hall)).trans (b.resetAll_eq L 512)
    rw [hcounts, b.countsBelow_eq 512 (seen := seen) (kept := kept) (fun _ => rfl) (fun _ => rfl)] at hbody
    generalize hu : (b.resetBelow 512).1 = u at hr hlast hmoments hkept hbody
    have hup : u.power = true := (congrArg State.power hr.frame).trans hpower
    have hl : u.lanes = b.lanes := (congrArg State.lanes hr.frame).trans rfl
    have he : u.env = env := (congrArg State.env hr.frame).trans rfl
    have hmem : u.mem = b.mem := (congrArg State.mem hr.frame).trans rfl
    have hall := hr.all (show 0 < 512 by omega) (failing := failing) (Eq.refl failing)
    generalize ((List.range 512).filter fun n => !kept n).length = written at hbody ⊢
    generalize ((List.range 512).filter fun n => seen n = .damaged).length = skipped at hbody ⊢
    refine ⟨u, hserves.answers 0 (v := u) hl he hbody, hall, fun m hm => ?_, ?_⟩
    · exact ⟨(hr.acct m).trans (if_pos hm), (hr.record m).trans (if_pos hm)⟩
    · exact State.resetBelow_lost hbelow hr hmoments hkept (u.answered_moments 0 .ok written skipped false false)
        ((u.answered_power 0 .ok written skipped false false).trans hup)

end Sys2Proof.Proofs
end

