-- ==== Sys2Proof/Proofs/Sessions.lean ====
section
/-! The end of a session (R16 to R18) and the timed expiries (R13, R17, R40): O16, O17. -/

namespace Sys2Proof.Machine

variable {s t u v b : State} {env : Env} {k : Ticket} {n i m : Nat}

/-! ### What the end of work changes -/

/-- Tickets of other lanes than 0 have closed: lane 0 is as it was, and of memory the closing words of tickets in service alone have
changed. -/
structure Closings (s t : State) : Prop where
  lanes : ∀ n, (t.lane n).service = (s.lane n).service ∨ (t.lane n).service = none
  lane0 : t.lane 0 = s.lane 0
  mem : ∀ x, (∀ n p, (s.lane n).service = some p → ¬p.closingByte x) → t.mem.read x = s.mem.read x
  wf : s.mem.wf → t.mem.wf

theorem Closings.refl (s : State) : Closings s s := ⟨fun _ => .inl rfl, rfl, fun _ _ => rfl, id⟩

theorem Closings.trans (h : Closings s t) (h' : Closings t u) : Closings s u := by
  refine ⟨fun n => ?_, h'.lane0.trans h.lane0, fun x hx => (h'.mem x ?_).trans (h.mem x hx), fun hs => h'.wf (h.wf hs)⟩
  · rcases h'.lanes n with e | e
    · rw [e]
      exact h.lanes n
    · exact .inr e
  · intro n p hp
    rcases h.lanes n with e | e
    · exact hx n p (e.symm.trans hp)
    · rw [e] at hp
      cases hp

/-- Work of the paths has ended and slots have left their jobs: the accounts, the stored areas and the jobs but for their lists of slots
are as they were. -/
structure WorkMoved (s t : State) : Prop extends Closings s t where
  frame : t = { s with
    slots := t.slots, jobs := t.jobs, print := t.print, scan := t.scan, core := t.core, lanes := t.lanes, mem := t.mem
    notice := t.notice, faults := t.faults }
  jobs : ∀ i, t.job i = { s.job i with slots := (t.job i).slots }
  slots : ∀ i, (s.job i).slots = [] → (t.job i).slots = []

theorem WorkMoved.refl (s : State) : WorkMoved s s := ⟨.refl s, rfl, fun _ => rfl, fun _ => id⟩

theorem WorkMoved.trans (h : WorkMoved s t) (h' : WorkMoved t u) : WorkMoved s u := by
  refine ⟨h.toClosings.trans h'.toClosings, ?_, fun i => ?_, fun i hi => h'.slots i (h.slots i hi)⟩
  · rw [h'.frame, h.frame]
  · rw [h'.jobs i, h.jobs i]

/-- Slots, jobs' lists of slots and the paths' own state alone have changed. -/
theorem WorkMoved.of_frame {slots : Vector KeySlot 32} {jobs : Vector Job 32} {print : PrintPath} {scan : ScanPath} {core : Core}
    (ht : t = { s with slots := slots, jobs := jobs, print := print, scan := scan, core := core })
    (hj : ∀ i, t.job i = { s.job i with slots := (t.job i).slots }) (hn : ∀ i, (s.job i).slots = [] → (t.job i).slots = []) :
    WorkMoved s t := by
  subst ht
  exact ⟨⟨fun _ => .inl rfl, rfl, fun _ _ => rfl, id⟩, rfl, hj, hn⟩

/-- The jobs are as they were. -/
theorem WorkMoved.of_paths {slots : Vector KeySlot 32} {print : PrintPath} {scan : ScanPath} {core : Core}
    (ht : t = { s with slots := slots, print := print, scan := scan, core := core }) : WorkMoved s t := by
  subst ht
  exact ⟨⟨fun _ => .inl rfl, rfl, fun _ _ => rfl, id⟩, rfl, fun _ => rfl, fun _ => id⟩

theorem State.wipeSlot_work (s : State) (i : Nat) : WorkMoved s (s.wipeSlot i) := by
  have h := s.wipeSlot_moved i
  obtain ⟨slots, jobs, x, ht⟩ := h.eq
  refine .of_frame ht h.jobs fun j hj => ?_
  rw [State.wipeSlot_eq]
  let h : SlotHandle := { idx := i, gen := (s.slot i).gen }
  show (((s.putSlot i (.free (((s.slot i).gen + 1) % 65536))).detachSlot (s.slot i).job h).job j).slots = []
  cases (s.slot i).job with
  | none => exact hj
  | some x =>
    show ((s.putJob x.idx { s.job x.idx with slots := (s.job x.idx).slots.filter (· ≠ h) }).job j).slots = []
    rw [State.putJob_job]
    split
    · rename_i hx
      dsimp only []
      rw [hx.1, hj, List.filter_nil]
    · exact hj

theorem State.close_lane_other (s : State) {lane n : Fin 4} (hn : lane ≠ n) (code : ReturnCode) (w13 w14 : Nat) (e t : Bool) :
    (s.close lane code w13 w14 e t).lane n = s.lane n := by
  cases hs : (s.lane lane).service with
  | none => rw [State.close_idle _ _ _ _ _ _ _ hs]
  | some p =>
    unfold State.close
    rw [hs]
    dsimp only []
    rw [State.closeWords_frame]
    exact State.putLane_lane_other _ _ _ _ hn

theorem State.close_lane_same (s : State) (lane : Fin 4) (code : ReturnCode) (w13 w14 : Nat) (e t : Bool) :
    ((s.close lane code w13 w14 e t).lane lane).service = none := by
  cases hs : (s.lane lane).service with
  | none =>
    rw [State.close_idle _ _ _ _ _ _ _ hs]
    exact hs
  | some p =>
    unfold State.close
    rw [hs]
    exact congrArg Lane.service (State.putLane_lane_same _ _ _)

/-- R161: a ticket of another lane than 0 closes. -/
theorem State.close_moved (s : State) {lane : Fin 4} (hn : lane ≠ 0) (code : ReturnCode) (w13 w14 : Nat) (e t : Bool) :
    WorkMoved s (s.close lane code w13 w14 e t) where
  frame := by
    rw [State.close_frame]
  jobs i := by
    rw [State.close_frame]
    rfl
  slots i hi := by
    rw [State.close_frame]
    exact hi
  lanes n := by
    by_cases h : lane = n
    · subst h
      exact .inr (s.close_lane_same _ code w13 w14 e t)
    · rw [s.close_lane_other h]
      exact .inl rfl
  lane0 := s.close_lane_other hn code w13 w14 e t
  mem x hx := by
    cases hs : (s.lane lane).service with
    | none => rw [State.close_idle _ _ _ _ _ _ _ hs]
    | some p => exact State.close_read_other hs _ _ _ _ _ _ (hx lane p hs)
  wf h := s.close_wf lane code w13 w14 e t h

theorem State.dropCore_moved (s : State) (p : CipherPath) : WorkMoved s (s.dropCore p) := by
  cases p
  · exact .of_paths (slots := s.slots) (print := s.print) (scan := s.scan) rfl
  · exact .of_paths (slots := s.slots) (print := s.print) (scan := s.scan) rfl

theorem State.scanIdle_moved (s : State) : WorkMoved s s.scanIdle :=
  (WorkMoved.of_paths (t := { s with scan := { ScanPath.reset with drain := s.scan.drain } }) rfl).trans
    (State.dropCore_moved _ _)

theorem State.closeWaitingPrint_moved (s : State) (h : Handle) : WorkMoved s (s.closeWaitingPrint h) := by
  unfold State.closeWaitingPrint
  split
  · split
    · exact (s.close_moved (by decide) _ _ _ _ _).trans (.of_paths rfl)
    · exact .refl s
  · exact .refl s

theorem State.closeWaitingScan_moved (s : State) (h : Handle) : WorkMoved s (s.closeWaitingScan h) := by
  unfold State.closeWaitingScan
  split
  · split
    · exact (s.close_moved (by decide) _ _ _ _ _).trans (State.scanIdle_moved _)
    · exact .refl s
  · exact .refl s

theorem State.closeCipher_moved (s : State) (code : ReturnCode) : WorkMoved s (s.closeCipher code) := by
  unfold State.closeCipher
  split
  · exact .refl s
  · exact (s.close_moved (by decide) _ _ _ _ _).trans (State.scanIdle_moved _)
  · exact (s.close_moved (by decide) _ _ _ _ _).trans (State.scanIdle_moved _)

theorem State.failCipher_moved (s : State) (code : ReturnCode) : WorkMoved s (s.failCipher code) := by
  unfold State.failCipher
  split
  · have he : WorkMoved s (State.eraseUnwritten { s with scan := { s.scan with failed := some code } }) := .of_paths rfl
    have h : WorkMoved s ((State.eraseUnwritten { s with scan := { s.scan with failed := some code } }).dropCore .scan) :=
      he.trans (State.dropCore_moved _ _)
    dsimp only []
    split
    · exact h.trans (State.closeCipher_moved _ _)
    · exact h
  · exact .refl s

theorem State.cipherSlotLost_moved (s : State) (h : SlotHandle) : WorkMoved s (s.cipherSlotLost h) := by
  unfold State.cipherSlotLost
  split
  · dsimp only []
    split
    · exact s.failCipher_moved _
    · split
      · exact (WorkMoved.of_paths (t := { s with core := { s.core with band := none } }) rfl).trans
          (State.failCipher_moved _ _)
      · exact s.failCipher_moved _
  · exact .refl s

theorem State.jobEndSlot_moved (s : State) (h : SlotHandle) : WorkMoved s (s.jobEndSlot h) := by
  unfold State.jobEndSlot
  dsimp only []
  split
  · exact (s.wipeSlot_work _).trans (State.cipherSlotLost_moved _ _)
  · exact (WorkMoved.of_paths rfl).trans (State.cipherSlotLost_moved _ _)

theorem WorkMoved.foldl {α : Type} {f : State → α → State} (hf : ∀ s x, WorkMoved s (f s x)) (l : List α) (s : State) :
    WorkMoved s (l.foldl f s) := by
  induction l generalizing s with
  | nil => exact .refl s
  | cons x l ih => exact (hf s x).trans (ih _)

theorem State.jobEndSlots_moved (s : State) (i : Nat) : WorkMoved s (s.jobEndSlots i) := by
  unfold State.jobEndSlots
  have h := WorkMoved.foldl State.jobEndSlot_moved (s.job i).slots s
  generalize (s.job i).slots.foldl State.jobEndSlot s = u at h ⊢
  refine h.trans (.of_frame (slots := u.slots) (print := u.print) (scan := u.scan) (core := u.core) rfl (fun j => ?_) fun j hj => ?_)
  · show (u.putJob i { u.job i with slots := [] }).job j = _
    rw [State.putJob_job]
    split
    · rename_i hj
      rw [← hj.1]
    · rfl
  · show ((u.putJob i { u.job i with slots := [] }).job j).slots = []
    rw [State.putJob_job]
    split
    · rfl
    · exact hj

theorem State.pumpCore_moved (s : State) : WorkMoved s s.pumpCore := by
  have h := s.pumpCore_frame
  exact .of_paths h

/-! ### The end of one job of a session (R33, R34) -/

/-- R33, R34: a job after its end: ENDING with a page in flight, otherwise FREE. -/
def Job.over (j : Job) (slots : List SlotHandle) : Job :=
  if j.flying = true then { j with state := .ending, free := 0, slots } else .freed ((j.gen + 1) % 256)

/-- What the end of job i leaves. -/
structure JobOver (s t : State) (i : Nat) : Prop extends Closings s t where
  frame : t = { s with
    slots := t.slots, jobs := t.jobs, print := t.print, scan := t.scan, core := t.core, lanes := t.lanes, mem := t.mem
    notice := t.notice, faults := t.faults, accounts := t.accounts, hold := t.hold }
  jobs : ∀ j, t.job j = if j = i then (s.job i).over (t.job i).slots else { s.job j with slots := (t.job j).slots }
  slots : ∀ j, j ≠ i → (s.job j).slots = [] → (t.job j).slots = []
  accounts : t.accounts = putAt s.accounts (s.job i).account
    { s.acct (s.job i).account with reserved := (s.acct (s.job i).account).reserved - (s.job i).free }
  hold : t.hold = if s.hold.map (·.owner) = some (s.jobHandle i) then none else s.hold

theorem State.endJobEntry_over (s : State) (hi : i < 32) :
    JobOver s (s.endJobEntry i).1 i ∧ (s.endJobEntry i).2 = !(s.job i).flying := by
  have hmoved := (s.closeWaitingPrint_moved (s.jobHandle i)).trans (State.closeWaitingScan_moved _ (s.jobHandle i))
  unfold State.endJobEntry
  dsimp only []
  generalize (s.closeWaitingPrint (s.jobHandle i)).closeWaitingScan (s.jobHandle i) = u at hmoved ⊢
  have hhandle : u.jobHandle i = s.jobHandle i := by
    rw [State.jobHandle, State.jobHandle, hmoved.jobs i]
  have hrel : (u.releaseFree i).releaseHoldOf (s.jobHandle i) = u.jobReleased i := by rw [State.jobReleased, hhandle]
  have hfly : ((u.job i).printFlight = true ∨ (u.job i).scanFlight = true) ↔ (s.job i).flying = true := by
    rw [hmoved.jobs i, Job.flying, Bool.or_eq_true]
  have hreleased := u.jobReleased_eq i
  have hjob := u.jobReleased_job hi
  have hacc : (u.jobReleased i).accounts = putAt s.accounts (s.job i).account
      { s.acct (s.job i).account with reserved := (s.acct (s.job i).account).reserved - (s.job i).free } := by
    rw [hreleased, hmoved.jobs i, hmoved.frame]
    rfl
  have hhold : (u.jobReleased i).hold = if s.hold.map (·.owner) = some (s.jobHandle i) then none else s.hold := by
    rw [hreleased, hhandle, hmoved.frame]
  have hother : ∀ j, j ≠ i → (u.jobReleased i).job j = u.job j := fun j hj => by
    rw [hreleased]
    exact State.putJob_job_other _ _ (Ne.symm hj)
  have hclosings : Closings u (u.jobReleased i) := by
    rw [hreleased]
    exact ⟨fun _ => .inl rfl, rfl, fun _ _ => rfl, id⟩
  obtain ⟨accounts, jobs, hold, hframe⟩ := u.jobReleased_frame i
  rw [hrel]
  generalize u.jobReleased i = w at hreleased hjob hacc hhold hother hclosings hframe ⊢
  have hset : ({ w.job i with state := .ending } : Job) = { u.job i with state := .ending, free := 0 } := by rw [hjob]
  by_cases hf : (s.job i).flying = true
  · rw [if_pos (hfly.mpr hf), hf]
    refine ⟨⟨?_, ?_, fun j => ?_, fun j hj hn => ?_, hacc, hhold⟩, rfl⟩
    · exact (hmoved.toClosings.trans hclosings).trans ⟨fun _ => .inl rfl, rfl, fun _ _ => rfl, id⟩
    · dsimp only []
      rw [hframe, hmoved.frame]
      rfl
    · by_cases hj : j = i
      · subst hj
        rw [if_pos rfl, Job.over, if_pos hf]
        dsimp only []
        rw [State.putJob_job_same _ _ hi, hset, hmoved.jobs j]
      · rw [if_neg hj]
        have hput : (w.putJob i { w.job i with state := .ending }).job j = u.job j :=
          (State.putJob_job_other _ _ (Ne.symm hj)).trans (hother j hj)
        dsimp only []
        rw [hput, hmoved.jobs j]
    · have hput : (w.putJob i { w.job i with state := .ending }).job j = u.job j :=
        (State.putJob_job_other _ _ (Ne.symm hj)).trans (hother j hj)
      dsimp only []
      rw [hput]
      exact hmoved.slots j hn
  · have hf' : (s.job i).flying = false := by simpa using hf
    rw [if_neg fun h => hf (hfly.mp h), hf']
    have hends := w.jobEndSlots_moved i
    generalize w.jobEndSlots i = x at hends ⊢
    refine ⟨⟨?_, ?_, fun j => ?_, fun j hj hn => ?_, ?_, ?_⟩, rfl⟩
    · exact ((hmoved.toClosings.trans hclosings).trans hends.toClosings).trans ⟨fun _ => .inl rfl, rfl, fun _ _ => rfl, id⟩
    · dsimp only []
      rw [State.freeJob, hends.frame, hframe, hmoved.frame]
      rfl
    · by_cases hj : j = i
      · subst hj
        rw [if_pos rfl, Job.over, if_neg hf]
        dsimp only []
        rw [State.freeJob, State.putJob_job_same _ _ hi, hends.jobs j, hjob, hmoved.jobs j]
      · rw [if_neg hj]
        have hput : (x.freeJob i).job j = x.job j := State.putJob_job_other _ _ (Ne.symm hj)
        dsimp only []
        rw [hput, hends.jobs j, hother j hj, hmoved.jobs j]
    · have hput : (x.freeJob i).job j = x.job j := State.putJob_job_other _ _ (Ne.symm hj)
      dsimp only []
      rw [hput]
      refine hends.slots j ?_
      rw [hother j hj]
      exact hmoved.slots j hn
    · show x.accounts = _
      rw [hends.frame]
      exact hacc
    · show x.hold = _
      rw [hends.frame]
      exact hhold

/-! ### The jobs of a session (R18) -/

/-- R18: the free reservations that the jobs below an index, opened with a session, return to an account. -/
def State.freedBelow (b : State) (h : Handle) (m n : Nat) : Nat :=
  (((List.range m).filter (fun i => b.openUnder h i && (b.job i).account = n)).map (fun i => (b.job i).free)).sum

/-- R16: the jobs below an index, opened with a session, that have ended, and those gone to ENDING. -/
def State.endedBelow (b : State) (h : Handle) (m : Nat) : Nat × Nat :=
  ((((List.range m).filter (b.openUnder h)).filter (fun i => !(b.job i).flying)).length,
    (((List.range m).filter (b.openUnder h)).filter (fun i => (b.job i).flying)).length)

/-- What the end of a session has left when its jobs below m have ended. -/
structure JobsOver (b : State) (h : Handle) (m : Nat) (t : State) : Prop extends Closings b t where
  frame : t = { b with
    slots := t.slots, jobs := t.jobs, print := t.print, scan := t.scan, core := t.core, lanes := t.lanes, mem := t.mem
    notice := t.notice, faults := t.faults, accounts := t.accounts, hold := t.hold }
  jobs : ∀ i, t.job i =
    if i < m ∧ b.openUnder h i = true then (b.job i).over (t.job i).slots else { b.job i with slots := (t.job i).slots }
  acct : ∀ n < 512, t.acct n = { b.acct n with reserved := (b.acct n).reserved - b.freedBelow h m n }
  hold : t.hold =
    match b.hold with
    | none => none
    | some x => if (List.range m).any (fun i => b.openUnder h i && x.owner = b.jobHandle i) = true then none else some x

theorem State.openUnder_eq (b : State) (h : Handle) (i : Nat) :
    b.openUnder h i = true ↔ (b.job i).state ≠ .free ∧ (b.job i).state ≠ .ending ∧ (b.job i).session = some h := by
  unfold State.openUnder
  cases (b.job i).state <;> simp

theorem State.freedBelow_succ (b : State) (h : Handle) (m n : Nat) :
    b.freedBelow h (m + 1) n = b.freedBelow h m n + if b.openUnder h m = true ∧ (b.job m).account = n then (b.job m).free else 0 := by
  simp only [State.freedBelow, List.range_succ, List.filter_append, List.map_append, List.sum_append, List.filter_cons, List.filter_nil,
    Bool.and_eq_true, decide_eq_true_eq]
  split
  · simp
  · simp

theorem State.endedBelow_succ (b : State) (h : Handle) (m : Nat) :
    b.endedBelow h (m + 1) =
      if b.openUnder h m = true then
        if (b.job m).flying = true then ((b.endedBelow h m).1, (b.endedBelow h m).2 + 1)
        else ((b.endedBelow h m).1 + 1, (b.endedBelow h m).2)
      else b.endedBelow h m := by
  simp only [State.endedBelow, List.range_succ, List.filter_append, List.filter_cons, List.filter_nil]
  cases b.openUnder h m
  · simp
  · cases hf : (b.job m).flying <;> simp [hf]

/-- The jobs below m + 1 when the job at m was not opened with the session. -/
theorem JobsOver.skip {h : Handle} (hu : JobsOver b h m u) (ho : b.openUnder h m = false) : JobsOver b h (m + 1) u where
  toClosings := hu.toClosings
  frame := hu.frame
  jobs i := by
    refine (hu.jobs i).trans (if_congr (and_congr_left fun hi => ⟨fun h => by omega, fun h => ?_⟩) rfl rfl)
    rcases Nat.lt_succ_iff_lt_or_eq.mp h with h | rfl
    · exact h
    · rw [ho] at hi
      cases hi
  acct n hn := by
    rw [State.freedBelow_succ, ho, if_neg (fun h => Bool.false_ne_true h.1)]
    exact hu.acct n hn
  hold := by
    simp only [List.range_succ, List.any_append, List.any_cons, List.any_nil, ho, Bool.false_and, Bool.or_false]
    exact hu.hold

/-- The jobs below m + 1 when the job at m was opened with the session and has ended. -/
theorem JobsOver.take {h : Handle} (hu : JobsOver b h m u) (ho : b.openUnder h m = true) (ht : JobOver u t m) :
    JobsOver b h (m + 1) t := by
  have hjob : u.job m = { b.job m with slots := (u.job m).slots } :=
    (hu.jobs m).trans (if_neg fun hc => Nat.lt_irrefl m hc.1)
  have hhandle : u.jobHandle m = b.jobHandle m := by rw [State.jobHandle, State.jobHandle, hjob]
  refine ⟨hu.toClosings.trans ht.toClosings, ?_, fun i => ?_, fun n hn => ?_, ?_⟩
  · rw [ht.frame, hu.frame]
  · rw [ht.jobs i]
    by_cases hi : i = m
    · subst hi
      have hover : ∀ slots, (u.job i).over slots = (b.job i).over slots := fun slots => by
        rw [hjob]
        rfl
      rw [if_pos rfl, if_pos ⟨Nat.lt_succ_self i, ho⟩, hover]
      unfold Job.over
      split <;> rfl
    · rw [if_neg hi, hu.jobs i]
      by_cases hc : i < m ∧ b.openUnder h i = true
      · rw [if_pos hc, if_pos ⟨by omega, hc.2⟩]
        cases hf : (b.job i).flying
        · have hfreed : ∀ slots, (b.job i).over slots = .freed (((b.job i).gen + 1) % 256) := fun slots => by
            rw [Job.over, if_neg (by rw [hf]; exact Bool.false_ne_true)]
          have hnil : (t.job i).slots = [] := ht.slots i hi (by rw [hu.jobs i, if_pos hc, hfreed]; rfl)
          rw [hnil, hfreed, hfreed]
          rfl
        · unfold Job.over
          rw [if_pos hf, if_pos hf]
      · rw [if_neg hc, if_neg fun hc' => hc ⟨by omega, hc'.2⟩]
  · have hacct : t.acct n = entryAt t.accounts n .reset := rfl
    rw [hacct, ht.accounts, entryAt_putAt, State.freedBelow_succ]
    have hun := hu.acct n hn
    by_cases hacc : (u.job m).account = n
    · have hbacc : (b.job m).account = n := by
        rw [hjob] at hacc
        exact hacc
      have hfree : (u.job m).free = (b.job m).free := by rw [hjob]
      rw [if_pos ⟨hacc, hacc ▸ hn⟩, if_pos ⟨ho, hbacc⟩, hacc, hun, hfree, Nat.sub_sub]
    · have hbacc : (b.job m).account ≠ n := fun e => hacc (by rw [hjob]; exact e)
      rw [if_neg fun hc => hacc hc.1, if_neg fun hc => hbacc hc.2]
      exact hun
  · rw [ht.hold, hhandle, hu.hold]
    simp only [List.range_succ, List.any_append, List.any_cons, List.any_nil, ho, Bool.true_and, Bool.or_false]
    cases b.hold with
    | none => rfl
    | some x =>
      dsimp only []
      split
      · rename_i hany
        simp [hany]
      · rename_i hany
        by_cases hx : x.owner = b.jobHandle m <;> simp [hany, hx]

theorem State.sessionJobs_over (b : State) (h : Handle) (m : Nat) (hm : m ≤ 32) :
    JobsOver b h m ((List.range m).foldl (State.endSessionJob h) (b, 0, 0)).1 ∧
      ((List.range m).foldl (State.endSessionJob h) (b, 0, 0)).2 = b.endedBelow h m := by
  induction m with
  | zero =>
    refine ⟨⟨.refl b, rfl, fun i => rfl, fun n _ => rfl, ?_⟩, rfl⟩
    show b.hold = _
    cases b.hold <;> rfl
  | succ m ih =>
    obtain ⟨hu, hcounts⟩ := ih (by omega)
    rw [List.range_succ, List.foldl_append]
    generalize (List.range m).foldl (State.endSessionJob h) (b, 0, 0) = r at hu hcounts ⊢
    obtain ⟨u, x, y⟩ := r
    replace hu : JobsOver b h m u := hu
    obtain ⟨hx, hy⟩ := Prod.mk.inj hcounts
    have hjob : u.job m = { b.job m with slots := (u.job m).slots } :=
      (hu.jobs m).trans (if_neg fun hc => Nat.lt_irrefl m hc.1)
    have hcond : ((u.job m).state ≠ .free ∧ (u.job m).state ≠ .ending ∧ (u.job m).session = some h) ↔ b.openUnder h m = true := by
      rw [hjob, State.openUnder_eq]
    show JobsOver b h (m + 1) (State.endSessionJob h (u, x, y) m).1 ∧ (State.endSessionJob h (u, x, y) m).2 = _
    have hstep : State.endSessionJob h (u, x, y) m = if b.openUnder h m = true then
        (if (u.endJobEntry m).2 = true then ((u.endJobEntry m).1, x + 1, y) else ((u.endJobEntry m).1, x, y + 1)) else (u, x, y) := by
      unfold State.endSessionJob
      dsimp only []
      simp only [hcond]
    rw [hstep, State.endedBelow_succ, ← hcounts]
    cases ho : b.openUnder h m
    · exact ⟨hu.skip ho, rfl⟩
    · obtain ⟨ht, hflag⟩ := u.endJobEntry_over (show m < 32 by omega)
      have hfly : (u.job m).flying = (b.job m).flying := by
        rw [hjob]
        rfl
      rw [hflag, hfly]
      cases (b.job m).flying
      · exact ⟨hu.take ho ht, rfl⟩
      · exact ⟨hu.take ho ht, rfl⟩

/-! ### The end of a session (R18) -/

theorem State.openUnder_beyond (b : State) (h : Handle) (hi : ¬i < 32) : b.openUnder h i = false := by
  rw [← Bool.not_eq_true, State.openUnder_eq, State.job, entryAt_beyond _ _ _ (Nat.le_of_not_lt hi)]
  exact fun hc => hc.1 rfl

/-- R18: the session's jobs have ended, its entry is FREE and its account has no session; nothing else has changed but work of the
paths that waited for the jobs or ended with their slots. -/
theorem State.endSession_spec (b : State) {e : Nat} (he : e < 8) :
    SessionEnded b (b.endSession e).1 e ∧ Closings b (b.endSession e).1 ∧
      (b.endSession e).2 = b.endedBelow { idx := e, gen := (b.session e).gen } 32 ∧
      (b.endSession e).1 = { b with
        sessions := (b.endSession e).1.sessions, accounts := (b.endSession e).1.accounts, jobs := (b.endSession e).1.jobs
        hold := (b.endSession e).1.hold, slots := (b.endSession e).1.slots, print := (b.endSession e).1.print
        scan := (b.endSession e).1.scan, core := (b.endSession e).1.core, lanes := (b.endSession e).1.lanes
        mem := (b.endSession e).1.mem, notice := (b.endSession e).1.notice, faults := (b.endSession e).1.faults } := by
  obtain ⟨hu, hcounts⟩ := b.sessionJobs_over { idx := e, gen := (b.session e).gen } 32 (Nat.le_refl _)
  unfold State.endSession
  dsimp only []
  generalize (List.range 32).foldl (State.endSessionJob { idx := e, gen := (b.session e).gen }) (b, 0, 0) = r at hu hcounts ⊢
  obtain ⟨u, counts⟩ := r
  replace hu : JobsOver b { idx := e, gen := (b.session e).gen } 32 u := hu
  have hsession : ∀ i, u.session i = b.session i := fun i => by
    rw [hu.frame]
    rfl
  refine ⟨⟨?_, fun i hi => ?_, fun i => ?_, fun n hn => ?_, ?_⟩, ⟨hu.lanes, hu.lane0, hu.mem, hu.wf⟩, hcounts, ?_⟩
  · exact (State.putSession_session (s := u) ..).trans (if_pos ⟨rfl, he⟩)
  · exact ((State.putSession_session (s := u) ..).trans (if_neg fun hc => hi hc.1.symm)).trans (hsession i)
  · refine (hu.jobs i).trans ?_
    show _ = if b.openUnder _ i = false then { b.job i with slots := (u.job i).slots } else _
    by_cases ho : b.openUnder { idx := e, gen := (b.session e).gen } i = true
    · have hi : i < 32 := by
        by_contra hi
        rw [State.openUnder_beyond b _ hi] at ho
        cases ho
      rw [if_pos ⟨hi, ho⟩, if_neg (by rw [ho]; decide)]
      rfl
    · rw [if_neg fun hc => ho hc.2, if_pos (by simpa using ho)]
  · have hacct : ∀ j, (u.putSession e (.free (((b.session e).gen + 1) % 256))).acct j = u.acct j := fun j => rfl
    refine (State.putAcct_acct ..).trans ?_
    rw [hacct, hacct]
    have hun := hu.acct n hn
    by_cases hacc : (b.session e).account = n
    · rw [if_pos ⟨hacc, hacc ▸ hn⟩, if_pos hacc.symm, hacc, hun]
      rfl
    · rw [if_neg fun hc => hacc hc.1, if_neg fun hc => hacc hc.symm, hun]
      rfl
  · exact hu.hold
  · rw [hu.frame]
    rfl

/-! ### A ticket's own words after its close -/

theorem Memory.word_putWord_other (m : Memory) (x a : Nat) (w : Word) (h : ∀ i < 4, ∀ j < 4, wrapAddress (x + i) ≠ wrapAddress (a + j)) :
    (m.putWord a w).word x = m.word x := by
  have hr : ∀ i < 4, (m.putWord a w).read (wrapAddress (x + i)) = m.read (wrapAddress (x + i)) := fun i hi =>
    Memory.read_putWord_other _ _ _ _ (h i hi)
  unfold Memory.word
  rw [hr 1 (by decide), hr 2 (by decide), hr 3 (by decide), show (m.putWord a w).read (wrapAddress x) = _ from hr 0 (by decide)]
  rfl

theorem wrapAddress_ne {a x y : Nat} (h : x < y) (hy : y < x + 2 ^ 32) : wrapAddress (a + x) ≠ wrapAddress (a + y) := by
  unfold wrapAddress
  omega

/-- R161: W13, W14 and the closing word as an answer leaves them. -/
theorem State.answered_words (s : State) (lane : Fin 4) (k : Ticket) (code : ReturnCode) (w13 w14 : Nat) (e t : Bool) (hw : s.mem.wf) :
    (s.answered lane k code w13 w14 e t).mem.word (k.address + 52) = BitVec.ofNat 32 w13 ∧
      (s.answered lane k code w13 w14 e t).mem.word (k.address + 56) = BitVec.ofNat 32 w14 ∧
      (s.answered lane k code w13 w14 e t).mem.word (k.address + 60) = closingWord 3 code.code s.epoch e t := by
  have hfar : ∀ x y, x + 4 ≤ y → y ≤ 60 → ∀ i < 4, ∀ j < 4, wrapAddress (k.address + x + i) ≠ wrapAddress (k.address + y + j) := by
    intro x y hxy hy i hi j hj
    rw [Nat.add_assoc, Nat.add_assoc]
    exact wrapAddress_ne (by omega) (by omega)
  have h1 := Memory.putWord_wf s.mem (k.address + 52) (BitVec.ofNat 32 w13) hw
  have h2 := Memory.putWord_wf _ (k.address + 56) (BitVec.ofNat 32 w14) h1
  refine ⟨?_, ?_, Memory.word_putWord_same _ _ _ h2⟩
  · refine (Memory.word_putWord_other _ _ _ _ (hfar 52 60 (by omega) (by omega))).trans ?_
    refine (Memory.word_putWord_other _ _ _ _ (hfar 52 56 (by omega) (by omega))).trans ?_
    exact Memory.word_putWord_same _ _ _ hw
  · refine (Memory.word_putWord_other _ _ _ _ (hfar 56 60 (by omega) (by omega))).trans ?_
    exact Memory.word_putWord_same _ _ _ h1

theorem State.closesFreely_of_env (he : s.env = u.env) (h : u.closesFreely k) : s.closesFreely k := by
  unfold State.closesFreely
  rw [he]
  exact h

/-- The answer of a ticket whose own lane is as its service began it; tickets of other lanes may have closed meanwhile. -/
theorem Serves.closes_lane {kind : TicketKind} (h : Serves env s kind k) (gateW13 : Nat)
    {body : Ticket → State → State} {code : ReturnCode} {w13 w14 : Nat} {ended truncated : Bool}
    (hl : v.lane kind.lane = ((s.begin env).beginService kind.lane).lane kind.lane) (he : v.env = env)
    (hb : body k ((s.begin env).beginService kind.lane) = (v.close kind.lane code w13 w14 ended truncated).pumpCore) :
    command env s (serve kind gateW13 body) =
      .next { v.answered kind.lane k code w13 w14 ended truncated with core := v.pumpCore.core } := by
  have hs := (State.serving_some h.1).2.1
  have hlane : (v.lane kind.lane).service = some { k with begun := true } := by
    rw [hl, State.beginService_some hs, State.putLane_lane_same]
  rw [command_next, serve_body h, hb, State.close_pumpCore]
  have hclose := State.close_answered hlane (State.closesFreely_of_env (u := s.begin env) he h.2.2) code w13 w14 ended truncated
  exact congrArg (fun x : State => Host.Outcome.next { x with core := v.pumpCore.core }) hclose

/-- R164: a cause that has been set. -/
theorem Cause.or_mask (x : BitVec 13) (c : Cause) : (x ||| c.mask).getLsbD c.bit = true := by
  have hc : c.bit < 13 := by cases c <;> simp [Cause.bit] <;> omega
  rw [BitVec.getLsbD_or, Cause.mask, BitVec.getLsbD_twoPow]
  simp [hc]

theorem State.sessionOf_some {h : Handle} {e : Nat} (hs : b.sessionOf h = some e) :
    e < 8 ∧ (b.session e).isOpen = true ∧ h = { idx := e, gen := (b.session e).gen } := by
  unfold State.sessionOf at hs
  split at hs
  · rename_i hc
    obtain rfl := Option.some.inj hs
    obtain ⟨h8, hopen, hgen⟩ := hc
    refine ⟨h8, hopen, ?_⟩
    rw [hgen]
  · cases hs

/-- An open session entry is one of the eight. -/
theorem State.session_open {e : Nat} (h : (b.session e).isOpen = true) : e < 8 := by
  by_contra he
  rw [State.session, entryAt_beyond _ _ _ (Nat.le_of_not_lt he)] at h
  cases h

/-- The service of a ticket begun: its lane alone has changed, and the ticket's address not. -/
theorem State.beginService_closing {lane : Fin 4} {p : Ticket} {x : Nat} (hx : ∀ n p, (b.lane n).service = some p → ¬p.closingByte x)
    {n : Fin 4} (hp : ((b.beginService lane).lane n).service = some p) : ¬p.closingByte x := by
  cases hs : (b.lane lane).service with
  | none =>
    rw [State.beginService, hs] at hp
    exact hx n p hp
  | some k =>
    rw [State.beginService_some hs] at hp
    by_cases hn : lane = n
    · subst hn
      rw [State.putLane_lane_same] at hp
      obtain rfl := Option.some.inj hp
      exact hx lane k hs
    · rw [State.putLane_lane_other _ _ _ _ hn] at hp
      exact hx n p hp

/-- R18: the session's end in the states a claim compares it with. -/
theorem SessionEnded.congr {b' t' : State} {e : Nat} (h : SessionEnded b t e)
    (hb : b'.sessions = b.sessions ∧ b'.jobs = b.jobs ∧ b'.accounts = b.accounts ∧ b'.hold = b.hold)
    (ht : t'.sessions = t.sessions ∧ t'.jobs = t.jobs ∧ t'.accounts = t.accounts ∧ t'.hold = t.hold) : SessionEnded b' t' e := by
  obtain ⟨hb1, hb2, hb3, hb4⟩ := hb
  obtain ⟨ht1, ht2, ht3, ht4⟩ := ht
  unfold SessionEnded State.openUnder State.jobHandle State.session State.job State.acct at *
  rw [hb1, hb2, hb3, hb4, ht1, ht2, ht3, ht4]
  exact h

/-- R17: a page of a job opened with the session is in flight. -/
theorem State.sessionInFlight_iff (b : State) (e : Nat) : b.sessionInFlight e = true ↔
    ∃ i < 32, (b.job i).state ≠ .free ∧ (b.job i).session = some { idx := e, gen := (b.session e).gen } ∧ (b.job i).flying = true := by
  unfold State.sessionInFlight
  rw [List.any_eq_true]
  refine ⟨fun ⟨j, hj, h⟩ => ?_, fun ⟨i, hi, h⟩ => ?_⟩
  · obtain ⟨i, hi, rfl⟩ := List.getElem_of_mem hj
    have hi32 : i < 32 := by simpa using hi
    refine ⟨i, hi32, ?_⟩
    simpa [State.job, entryAt, hi32, Job.flying, and_assoc] using h
  · refine ⟨b.jobs[i], Vector.mem_toList_iff.mpr (Vector.getElem_mem hi), ?_⟩
    simpa [State.job, entryAt, hi, Job.flying, and_assoc] using h

/-- R17: the idle expiry of a session is due. -/
theorem State.sessionExpired_iff (b : State) (e : Nat) : b.sessionExpired e = true ↔
    (b.session e).isOpen = true ∧ b.sessionInFlight e = false ∧
      b.stored.settings.timers.sessionIdle ≤ b.dev.clock - (b.session e).last := by
  unfold State.sessionExpired
  rw [Bool.and_eq_true, Bool.and_eq_true, Bool.not_eq_true', decide_eq_true_eq, and_assoc]

/-- R18: no job was opened with the session. -/
theorem State.endSession_alone {e : Nat}
    (h : ∀ i, (b.job i).state ≠ .free → (b.job i).session ≠ some { idx := e, gen := (b.session e).gen }) :
    (b.endSession e).1 = (b.putSession e (.free (((b.session e).gen + 1) % 256))).putAcct (b.session e).account
      { b.acct (b.session e).account with session := none } := by
  have hfold : ∀ l : List Nat, l.foldl (State.endSessionJob { idx := e, gen := (b.session e).gen }) (b, 0, 0) = (b, 0, 0) := fun l => by
    induction l with
    | nil => rfl
    | cons i l ih =>
      rw [List.foldl_cons, show State.endSessionJob { idx := e, gen := (b.session e).gen } (b, 0, 0) i = (b, 0, 0) from
        if_neg fun hc => h i hc.1 hc.2.2, ih]
  rw [State.endSession, hfold]
  rfl

/-- R13: a lockout that is over or not yet. -/
theorem State.lockoutOver_iff {e : Nat} (hs : b.seen n = .locked) (he : (b.acct n).lockoutEnd = some e) :
    b.lockoutOver n = true ↔ e ≤ b.dev.clock := by
  unfold State.lockoutOver
  rw [hs, he]
  simp

/-- R40: the engine hold's idle expiry. -/
theorem State.holdExpired_iff {e : EngineHold} (hh : b.hold = some e) :
    b.holdExpired = true ↔
      (¬∃ i, b.jobOf e.owner = some i ∧ ((b.job i).printFlight = true ∨ (b.job i).scanFlight = true)) ∧
        b.stored.settings.timers.holdIdle ≤ b.dev.clock - e.last := by
  unfold State.holdExpired State.holdInFlight
  rw [hh]
  dsimp only []
  cases hj : b.jobOf e.owner with
  | none => simp
  | some i => simp

theorem State.pumpCore_fields (s : State) : s.pumpCore.sessions = s.sessions ∧ s.pumpCore.jobs = s.jobs ∧
    s.pumpCore.accounts = s.accounts ∧ s.pumpCore.hold = s.hold := by
  rw [State.pumpCore_frame]
  exact ⟨rfl, rfl, rfl, rfl⟩

theorem State.answered_lane_same (s : State) (lane : Fin 4) (code : ReturnCode) (w13 w14 : Nat) (e t : Bool) :
    ((s.answered lane k code w13 w14 e t).lane lane).service = none := by
  simp [State.answered, State.lane, Vector.get_eq_getElem]

end Sys2Proof.Machine

namespace Sys2Proof.Proofs

open Sys2Proof.Machine

/-- Settles O16: the session ends on the state its ticket's service begins in, and the ticket closes with the numbers. -/
theorem closeSessionEndsJobs : Obligations.CloseSessionEndsJobs := by
  intro env s k e hwf hserves b h mine hs
  obtain ⟨he, hopen, hh⟩ := State.sessionOf_some hs
  obtain ⟨hended, hclosings, hcounts, hframe⟩ := (b.beginService 0).endSession_spec he
  have hbegun := State.beginService_setLanes b 0
  have hservice := (State.serving_some hserves.1).2.1
  have hbody : closeSessionBody k (b.beginService 0) =
      (((b.beginService 0).endSession e).1.close 0 .ok ((b.beginService 0).endSession e).2.1 ((b.beginService 0).endSession e).2.2).pumpCore := by
    unfold closeSessionBody
    rw [show (b.beginService 0).sessionOf (Handle.ofField (k.w 2)) = some e by rw [hbegun]; exact hs]
  have hcnt : ((b.beginService 0).endSession e).2 =
      ((mine.filter (fun i => !(b.job i).flying)).length, (mine.filter (fun i => (b.job i).flying)).length) := by
    refine hcounts.trans ?_
    have hmine : mine = (List.range 32).filter (b.openUnder { idx := e, gen := (b.session e).gen }) := by rw [← hh]
    rw [hmine, hbegun]
    rfl
  rw [hcnt] at hbody
  generalize ((b.beginService 0).endSession e).1 = v at hended hclosings hframe hbody
  have hv : v.env = env := by
    rw [hframe, hbegun]
    rfl
  have hanswer := hserves.closes_lane 0 hclosings.lane0 hv hbody
  have hvwf : v.mem.wf := hclosings.wf (by
    rw [hbegun]
    exact Memory.storeAll_wf _ _ hwf.1)
  have hwords := v.answered_words 0 k .ok (mine.filter (fun i => !(b.job i).flying)).length
    (mine.filter (fun i => (b.job i).flying)).length false false hvwf
  refine ⟨_, hanswer, ?_, ?_, fun x hx => ?_, ?_, Cause.or_mask _ _, hwords.1, hwords.2.1, ?_⟩
  · refine hended.congr ?_ ⟨rfl, rfl, rfl, rfl⟩
    rw [hbegun]
    exact ⟨rfl, rfl, rfl, rfl⟩
  · have hx := hframe
    rw [hbegun] at hx
    rw [State.answered, hx]
    rfl
  · have hk : ¬k.closingByte x := hx 0 k hservice
    refine (State.answered_read_other v 0 _ _ _ _ _ hk).trans ((hclosings.mem x fun n p hp => State.beginService_closing hx hp).trans ?_)
    rw [hbegun]
    rfl
  · exact State.answered_lane_same (k := k) v 0 .ok 0 0 false false
  · have hepoch : v.epoch = b.epoch := by
      rw [hframe, hbegun]
      rfl
    rw [← hepoch]
    exact hwords.2.2

/-- Settles O17: each expiry is due or not; the session's jobs end as Close Session ends them. -/
theorem timedExpiries : Obligations.TimedExpiries := by
  refine ⟨?_, ?_, ?_, ?_⟩
  · intro env s e hup hcore b hno
    have hupb : b.up = true := hup
    split
    · rename_i hdue
      refine (answers_iff (c := .sessionIdleExpiry env e) nofun).mpr ?_
      have hflight : b.sessionInFlight e = false := by
        rw [← Bool.not_eq_true, State.sessionInFlight_iff]
        exact fun ⟨i, _, hf, hs, _⟩ => hno i hf hs
      have hexp : b.sessionExpired e = true := (b.sessionExpired_iff e).mpr ⟨hdue.1, hflight, hdue.2⟩
      show _ = State.finish (if b.up ∧ b.sessionExpired e then ((b.endSession e).1.raise .timer).pumpCore else b)
      have hsettled : State.coreSettled (State.raise ((b.putSession e (.free (((b.session e).gen + 1) % 256))).putAcct
          (b.session e).account { b.acct (b.session e).account with session := none }) .timer) := hcore
      rw [if_pos ⟨hupb, hexp⟩, State.endSession_alone hno, State.pumpCore_settled hsettled]
      rfl
    · rename_i hnot
      refine (answers_iff (c := .sessionIdleExpiry env e) nofun).mpr ?_
      exact (congrArg State.finish (if_neg fun hc => hnot
        ⟨((b.sessionExpired_iff e).mp hc.2).1, ((b.sessionExpired_iff e).mp hc.2).2.2⟩)).symm
  · intro env s e hup b h inFlight idle
    have hupb : b.up = true := hup
    have hflight : b.sessionInFlight e = true ↔ inFlight := b.sessionInFlight_iff e
    refine ⟨fun hopen hno hidle => ?_, fun hnot => ?_⟩
    · have hexp : b.sessionExpired e = true := (b.sessionExpired_iff e).mpr
        ⟨hopen, by rw [← Bool.not_eq_true, hflight]; exact hno, hidle⟩
      obtain ⟨hended, hclosings, -, hframe⟩ := b.endSession_spec (State.session_open hopen)
      have hanswer := (answers_iff (c := .sessionIdleExpiry env e) (s := s) nofun).mpr rfl
      have heffect : effectOf (.sessionIdleExpiry env e) (s.begin env) = ((b.endSession e).1.raise .timer).pumpCore :=
        if_pos ⟨hupb, hexp⟩
      rw [show (Instr.sessionIdleExpiry env e).env = env from rfl, heffect] at hanswer
      generalize (b.endSession e).1 = v at hended hclosings hframe hanswer
      have hpump := (v.raise .timer).pumpCore_frame
      rw [hpump] at hanswer
      refine ⟨_, hanswer, hended.congr ⟨rfl, rfl, rfl, rfl⟩ ⟨rfl, rfl, rfl, rfl⟩, Cause.or_mask _ _, ?_, hclosings.mem⟩
      generalize (v.raise .timer).pumpCore.core = core
      rw [hframe]
      rfl
    · refine (answers_iff (c := .sessionIdleExpiry env e) nofun).mpr ?_
      refine (congrArg State.finish (if_neg fun hc => ?_)).symm
      obtain ⟨hopen, hno, hidle⟩ := (b.sessionExpired_iff e).mp hc.2
      rcases hnot with h | h | h
      · rw [h] at hopen
        cases hopen
      · rw [hflight.mpr h] at hno
        cases hno
      · exact h hidle
  · intro env s n e hup b hok hs he
    have hupb : b.up = true := hup
    have hover := b.lockoutOver_iff hs he
    split
    · rename_i hdue
      refine (answers_iff (c := .lockoutExpiry env n) nofun).mpr ?_
      show _ = State.finish (if b.up ∧ b.lockoutOver n then b.unlock n else b)
      rw [if_pos ⟨hupb, hover.mpr hdue⟩, State.unlock,
        State.writeRecord_ok (show ({ b.record n with state := .active, failed := 0 } : AccountRecord).checkOk = true from hok)]
      rfl
    · rename_i hnot
      exact (answers_iff (c := .lockoutExpiry env n) nofun).mpr
        (congrArg State.finish (if_neg fun hc => hnot (hover.mp hc.2))).symm
  · intro env s e hup hh b inFlight
    have hupb : b.up = true := hup
    have hexp := State.holdExpired_iff (b := b) hh
    refine ⟨fun hno hidle => ?_, fun hnot => ?_⟩
    · refine (answers_iff (c := .engineHoldIdleExpiry env) nofun).mpr ?_
      show _ = State.finish (if b.up ∧ b.holdExpired then { b with hold := none }.raise .timer else b)
      rw [if_pos ⟨hupb, hexp.mpr ⟨hno, hidle⟩⟩]
      rfl
    · refine (answers_iff (c := .engineHoldIdleExpiry env) nofun).mpr (congrArg State.finish (if_neg fun hc => ?_)).symm
      obtain ⟨hno, hidle⟩ := hexp.mp hc.2
      rcases hnot with h | h
      · exact hno h
      · omega

end Sys2Proof.Proofs
end

