-- ==== Sys2Proof/Proofs/Settle.lean ====
section
/-! The settlement of a page: its hold, its account's record, and the end of a job that was ENDING (R29, R30, R33, R35). -/

namespace Sys2Proof.Machine

variable {s t u v b : State} {env : Env} {k : Ticket} {n i m : Nat}

/-! ### The stored part of a settlement (R30) -/

theorem sat32_zero (a : Nat) : sat32 a 0 ≤ a := by unfold sat32; omega

/-- What a settlement with a charge leaves of account n: its stored record, and what the read of the record does. -/
structure AccountCharged (s t : State) (n : Nat) (c : AccountCharge) : Prop where
  frame : t = { s with
    stored := { s.stored with accounts := t.stored.accounts }, accounts := t.accounts, faults := t.faults, notice := t.notice
    zeroCaptured := t.zeroCaptured, afterWrites := t.afterWrites }
  acct : ∀ x, t.acct x = { s.acct x with damaged := (t.acct x).damaged }
  other : ∀ x, x ≠ n → t.record x = s.record x ∧ t.acct x = s.acct x
  used : c.charge = 0 → (t.record n).used ≤ (s.record n).used
  ok : (s.record n).checkOk = true → (t.faults = s.faults ∧ t.zeroCaptured = s.zeroCaptured) ∧ t.accounts = s.accounts
  charged : n < 512 → (s.record n).checkOk = true → (s.acct n).damaged = false → t.record n = (s.record n).charge c
  kept : c.charge = 0 → (s.record n).checkOk = true → (s.record n).used < 2 ^ 32 → (t.record n).used = (s.record n).used

theorem foundAcct_eq (n : Nat) (r : AccountRecord) (a : AccountVolatile) :
    foundAcct n r a = { a with damaged := (foundAcct n r a).damaged } := by
  unfold foundAcct
  split <;> rfl

theorem foundRecord_used (n : Nat) (r : AccountRecord) : (foundRecord n r).used ≤ r.used := by
  unfold foundRecord
  split
  · exact Nat.zero_le _
  · exact Nat.le_refl _

/-- What the read of an account leaves of each account. -/
theorem State.found_accounts (s : State) (n x : Nat) :
    (s.found n).acct x = (if n = x ∧ n < 512 then foundAcct n (s.record n) (s.acct n) else s.acct x) ∧
      (s.found n).record x = if n = x ∧ n < 512 then foundRecord n (s.record n) else s.record x := by
  rw [s.found_eq n]
  exact ⟨entryAt_putAt .., entryAt_putAt ..⟩

theorem State.chargeAccount_charged (s : State) (n : Nat) (c : AccountCharge) : AccountCharged s (s.chargeAccount n c) n c := by
  have hfound : ∀ x, (s.found n).acct x = { s.acct x with damaged := ((s.found n).acct x).damaged } := fun x => by
    rw [(s.found_accounts n x).1]
    split
    · rename_i h
      rw [← h.1]
      exact foundAcct_eq ..
    · rfl
  have hother : ∀ x, x ≠ n → (s.found n).record x = s.record x ∧ (s.found n).acct x = s.acct x := fun x hx =>
    ⟨(s.found_accounts n x).2.trans (if_neg fun h => hx h.1.symm), (s.found_accounts n x).1.trans (if_neg fun h => hx h.1.symm)⟩
  have hused : ((s.found n).record n).used ≤ (s.record n).used := by
    rw [(s.found_accounts n n).2]
    split
    · exact foundRecord_used ..
    · exact Nat.le_refl _
  have hfeq := s.found_eq n
  have hframe : s.found n = { s with
      stored := { s.stored with accounts := (s.found n).stored.accounts }, accounts := (s.found n).accounts
      faults := (s.found n).faults, notice := (s.found n).notice, zeroCaptured := (s.found n).zeroCaptured
      afterWrites := (s.found n).afterWrites } := by
    rw [hfeq]
  have hok : (s.record n).checkOk = true → s.found n = s := State.found_ok
  unfold State.chargeAccount
  rw [State.readAccount_found]
  dsimp only []
  generalize s.found n = f at hfound hother hused hframe hok ⊢
  split
  · rename_i hd
    refine ⟨hframe, hfound, hother, fun _ => hused, fun h => by rw [hok h]; exact ⟨⟨rfl, rfl⟩, rfl⟩, fun hn h hnd => ?_,
      fun _ h _ => by rw [hok h]⟩
    rw [hok h] at hd
    unfold State.seen at hd
    split at hd
    · cases hd
    · rw [if_neg (by rw [hnd]; exact Bool.false_ne_true)] at hd
      split at hd <;> cases hd
  · have hrec : ∀ x, (f.writeRecord n ((f.record n).charge c)).record x =
        if n = x ∧ n < 512 then { (f.record n).charge c with checkOk := true } else f.record x := fun x => State.writeRecord_record ..
    refine ⟨?_, hfound, fun x hx => ⟨((hrec x).trans (if_neg fun h => hx h.1.symm)).trans (hother x hx).1, (hother x hx).2⟩, fun hc => ?_,
      fun h => by rw [hok h]; exact ⟨⟨rfl, rfl⟩, rfl⟩, fun hn h hnd => ?_, fun hc h hlt => ?_⟩
    · rw [hframe]
      rfl
    · rw [hrec n]
      split
      · refine Nat.le_trans ?_ hused
        show sat32 (f.record n).used c.charge ≤ _
        rw [hc]
        exact sat32_zero _
      · exact hused
    · rw [hrec n, if_pos ⟨rfl, hn⟩, hok h]
      unfold AccountRecord.charge
      rw [← h]
    · rw [hrec n, hok h]
      split
      · show min ((s.record n).used + c.charge) (2 ^ 32 - 1) = _
        rw [hc]
        omega
      · rfl

/-! ### The hold of a page returned (R29) -/

/-- R29, R35: the free reservation that an ENDING job hands back as its page is settled. -/
def Job.handsBack (j : Job) (free : Nat) : Nat := if j.state = .ending then free else 0

/-- R29, R35: the job of a page as its settlement leaves it. -/
def Job.pageSettled (j : Job) (p : CipherPath) (c : Nat) (delivered : Bool) : Job :=
  { j.settled p c delivered with free := (j.settled p c delivered).free - j.handsBack (j.settled p c delivered).free }

/-- What the settlement of a page of job i with a charge leaves of its job, its account and its hold. -/
structure PageCharged (s t : State) (i : Nat) (p : CipherPath) (delivered : Bool) (c : AccountCharge) : Prop where
  frame : t = { s with
    stored := { s.stored with accounts := t.stored.accounts }, accounts := t.accounts, jobs := t.jobs, sessions := t.sessions
    hold := t.hold, faults := t.faults, notice := t.notice, zeroCaptured := t.zeroCaptured, afterWrites := t.afterWrites }
  jobs : ∀ x, t.job x = if x = i then (s.job i).pageSettled p c.charge delivered else s.job x
  reserved : (t.acct (s.job i).account).reserved = (s.acct (s.job i).account).reserved - c.charge -
    (s.job i).handsBack ((s.job i).settled p c.charge delivered).free
  other : ∀ x, x ≠ (s.job i).account → t.record x = s.record x ∧ t.acct x = s.acct x
  used : c.charge = 0 → (t.record (s.job i).account).used ≤ (s.record (s.job i).account).used
  ok : (s.record (s.job i).account).checkOk = true → (t.faults = s.faults ∧ t.zeroCaptured = s.zeroCaptured) ∧
    t.acct (s.job i).account = { s.acct (s.job i).account with reserved := (t.acct (s.job i).account).reserved }
  charged : (s.job i).account < 512 → (s.record (s.job i).account).checkOk = true → (s.acct (s.job i).account).damaged = false →
    t.record (s.job i).account = (s.record (s.job i).account).charge c
  kept : c.charge = 0 → (s.record (s.job i).account).checkOk = true → (s.record (s.job i).account).used < 2 ^ 32 →
    (t.record (s.job i).account).used = (s.record (s.job i).account).used

theorem Job.settled_state (j : Job) (p : CipherPath) (c : Nat) (d : Bool) :
    (j.settled p c d).state = j.state ∧ (j.settled p c d).account = j.account := by
  cases p <;> exact ⟨rfl, rfl⟩

theorem State.subReserved_acct (s : State) (n amount x : Nat) :
    (s.subReserved n amount).acct x =
      if x = n then { s.acct n with reserved := (s.acct n).reserved - amount } else s.acct x := by
  unfold State.subReserved
  rw [State.putAcct_acct]
  by_cases hx : x = n
  · subst hx
    rw [if_pos rfl]
    by_cases h512 : x < 512
    · rw [if_pos ⟨rfl, h512⟩]
    · rw [if_neg fun h => h512 h.2, State.acct, entryAt_beyond _ _ _ (Nat.le_of_not_lt h512)]
      simp [AccountVolatile.reset]
  · rw [if_neg hx, if_neg fun h => hx h.1.symm]

theorem State.settleHold_charged {h : Handle} (hj : s.jobOf h = some i) (p : CipherPath) (delivered : Bool) (c : AccountCharge) :
    PageCharged s (s.settleHold h p delivered c) i p delivered c := by
  have hi : i < 32 := (State.jobOf_idx hj).2.1
  unfold State.settleHold
  rw [hj]
  dsimp only []
  have hujob : ∀ x, ((s.subReserved (s.job i).account c.charge).putJob i ((s.job i).settled p c.charge delivered)).job x =
      if x = i then (s.job i).settled p c.charge delivered else s.job x := fun x => by
    rw [State.putJob_job]
    by_cases hx : x = i
    · rw [if_pos hx, if_pos ⟨hx.symm, hi⟩]
    · rw [if_neg hx, if_neg fun h => hx h.1.symm]
      rfl
  have huacct : ∀ x, ((s.subReserved (s.job i).account c.charge).putJob i ((s.job i).settled p c.charge delivered)).acct x =
      if x = (s.job i).account then
        { s.acct (s.job i).account with reserved := (s.acct (s.job i).account).reserved - c.charge } else s.acct x := fun x =>
    s.subReserved_acct (s.job i).account c.charge x
  have hu : ∃ accounts jobs, (s.subReserved (s.job i).account c.charge).putJob i ((s.job i).settled p c.charge delivered) =
      { s with accounts := accounts, jobs := jobs } := ⟨_, _, rfl⟩
  generalize (s.subReserved (s.job i).account c.charge).putJob i ((s.job i).settled p c.charge delivered) = u at hujob huacct hu ⊢
  obtain ⟨accounts, jobs, hu⟩ := hu
  have hurec : ∀ x, u.record x = s.record x := fun x => by
    rw [hu]
    rfl
  have hcharged := u.chargeAccount_charged (s.job i).account c
  generalize u.chargeAccount (s.job i).account c = v at hcharged ⊢
  obtain ⟨sessions, hold, hw⟩ : ∃ sessions hold, (v.touchJob h).touchHold h = { v with sessions := sessions, hold := hold } :=
    ⟨_, _, (State.touchHold_frame _ h).trans (by rw [State.touchJob_frame])⟩
  rw [hw]
  generalize hweq : ({ v with sessions := sessions, hold := hold } : State) = w
  have hwjob : ∀ x, w.job x = if x = i then (s.job i).settled p c.charge delivered else s.job x := fun x => by
    rw [← hujob x, ← hweq, hcharged.frame]
    rfl
  have hwacct : ∀ x, w.acct x = v.acct x := fun x => by rw [← hweq]; rfl
  have hwrec : ∀ x, w.record x = v.record x := fun x => by rw [← hweq]; rfl
  have hwframe : w = { s with
      stored := { s.stored with accounts := w.stored.accounts }, accounts := w.accounts, jobs := w.jobs, sessions := w.sessions
      hold := w.hold, faults := w.faults, notice := w.notice, zeroCaptured := w.zeroCaptured, afterWrites := w.afterWrites } := by
    rw [← hweq, hcharged.frame, hu]
  have hwaccn : (w.acct (s.job i).account).reserved = (s.acct (s.job i).account).reserved - c.charge := by
    rw [hwacct, hcharged.acct, huacct, if_pos rfl]
  have hother : ∀ x, x ≠ (s.job i).account → w.record x = s.record x ∧ w.acct x = s.acct x := fun x hx =>
    ⟨((hwrec x).trans (hcharged.other x hx).1).trans (hurec x),
      ((hwacct x).trans (hcharged.other x hx).2).trans ((huacct x).trans (if_neg hx))⟩
  have hused : c.charge = 0 → (w.record (s.job i).account).used ≤ (s.record (s.job i).account).used := fun hc => by
    rw [hwrec, ← hurec]
    exact hcharged.used hc
  have hok : (s.record (s.job i).account).checkOk = true → (w.faults = s.faults ∧ w.zeroCaptured = s.zeroCaptured) ∧
      w.acct (s.job i).account = { s.acct (s.job i).account with reserved := (w.acct (s.job i).account).reserved } := fun hr => by
    obtain ⟨⟨hf, hz⟩, ha⟩ := hcharged.ok (by rw [hurec]; exact hr)
    refine ⟨⟨?_, ?_⟩, ?_⟩
    · rw [← hweq]
      refine hf.trans ?_
      rw [hu]
    · rw [← hweq]
      refine hz.trans ?_
      rw [hu]
    · rw [hwaccn, hwacct, State.acct, ha]
      exact (huacct _).trans (if_pos rfl)
  have hrecord : (s.job i).account < 512 → (s.record (s.job i).account).checkOk = true → (s.acct (s.job i).account).damaged = false →
      w.record (s.job i).account = (s.record (s.job i).account).charge c := fun hn hr hd => by
    rw [hwrec, ← hurec]
    refine hcharged.charged hn (by rw [hurec]; exact hr) ?_
    rw [huacct, if_pos rfl]
    exact hd
  have hkept : c.charge = 0 → (s.record (s.job i).account).checkOk = true → (s.record (s.job i).account).used < 2 ^ 32 →
      (w.record (s.job i).account).used = (s.record (s.job i).account).used := fun hc hr hlt => by
    rw [hwrec, ← hurec]
    exact hcharged.kept hc (by rw [hurec]; exact hr) (by rw [hurec]; exact hlt)
  have hwi : w.job i = (s.job i).settled p c.charge delivered := (hwjob i).trans (if_pos rfl)
  obtain ⟨hstate, haccount⟩ := (s.job i).settled_state p c.charge delivered
  by_cases he : (s.job i).state = .ending
  · rw [if_pos (by rw [hwi, hstate]; exact he)]
    have hback : (s.job i).handsBack ((s.job i).settled p c.charge delivered).free = ((s.job i).settled p c.charge delivered).free :=
      if_pos he
    have hsettled : ({ (s.job i).settled p c.charge delivered with free := 0 } : Job) = (s.job i).pageSettled p c.charge delivered := by
      rw [Job.pageSettled, hback, Nat.sub_self]
    have hracct : ∀ x, (w.releaseFree i).acct x = if x = (s.job i).account then
        { w.acct (s.job i).account with
          reserved := (w.acct (s.job i).account).reserved - ((s.job i).settled p c.charge delivered).free } else w.acct x := fun x => by
      have h1 : (w.releaseFree i).acct x = (w.subReserved (w.job i).account (w.job i).free).acct x := rfl
      rw [h1, State.subReserved_acct, hwi, haccount]
    have hrjob : ∀ x, (w.releaseFree i).job x = if x = i then (s.job i).pageSettled p c.charge delivered else s.job x := fun x => by
      refine (State.putJob_job ..).trans ?_
      by_cases hx : x = i
      · rw [if_pos hx, if_pos ⟨hx.symm, hi⟩, hwi, hsettled]
      · rw [if_neg hx, if_neg fun h => hx h.1.symm]
        exact (hwjob x).trans (if_neg hx)
    refine ⟨?_, hrjob, ?_, fun x hx => ⟨(hother x hx).1, (hracct x).trans ((if_neg hx).trans (hother x hx).2)⟩, hused,
      fun hr => ⟨(hok hr).1, ?_⟩, hrecord, hkept⟩
    · rw [State.releaseFree_eq, hwframe]
      rfl
    · rw [hracct, if_pos rfl, hwaccn, hback]
    · rw [hracct, if_pos rfl, (hok hr).2]
  · rw [if_neg (by rw [hwi, hstate]; exact he)]
    have hback : (s.job i).handsBack ((s.job i).settled p c.charge delivered).free = 0 := if_neg he
    have hsettled : (s.job i).settled p c.charge delivered = (s.job i).pageSettled p c.charge delivered := by
      rw [Job.pageSettled, hback, Nat.sub_zero]
    refine ⟨hwframe, fun x => (hwjob x).trans (by rw [hsettled]), ?_, hother, hused, hok, hrecord, hkept⟩
    rw [hwaccn, hback, Nat.sub_zero]

/-! ### The end of a job that was ENDING (R35) -/

/-- R33 step 2, with nothing left to return. -/
theorem State.releaseFree_none (h : (s.job i).free = 0) : s.releaseFree i = s := by
  have hjob : ({ s.job i with free := 0 } : Job) = s.job i := by rw [← h]
  have hacct : s.putAcct (s.job i).account { s.acct (s.job i).account with
      reserved := (s.acct (s.job i).account).reserved - (s.job i).free } = s := by
    rw [h, Nat.sub_zero, State.putAcct]
    have hsame : putAt s.accounts (s.job i).account (s.acct (s.job i).account) = s.accounts := putAt_entryAt ..
    exact (congrArg (fun a => { s with accounts := a }) hsame).trans rfl
  rw [State.releaseFree_eq, hacct, hjob, State.putJob_same]

/-- R35: no page of an ENDING job is in flight. -/
def Job.complete (j : Job) : Bool := j.state = .ending && !j.printFlight && !j.scanFlight

/-- What the completion of a job's end leaves, where it has ended and where it has not. -/
structure EndCompleted (s t : State) (i : Nat) : Prop where
  same : (s.job i).complete = false → t = s
  frame : ∃ slots jobs x, t = { s with slots := slots, jobs := jobs, core := { s.core with band := x } }
  job : t.job i = if (s.job i).complete = true then .freed (((s.job i).gen + 1) % 256) else s.job i
  slots : (s.job i).complete = true → ((s.job i).slots.map (·.idx)).Nodup → (∀ x ∈ (s.job i).slots, x.idx < 32) →
    ∀ n, t.slot n = if n ∈ (s.job i).slots.map (·.idx) then (s.slot n).afterJob s.dev.clock else s.slot n

/-- R108: the slots of a list of handles, whatever they are, with no cipher ticket in service. -/
theorem jobEndSlot_fold_moved (l : List SlotHandle) (hs : s.scan.state ≠ .ciphering) : SlotsMoved s (l.foldl State.jobEndSlot s) := by
  induction l generalizing s with
  | nil => exact .refl s
  | cons h l ih =>
    have hm := (State.jobEndSlot_spec hs h).1
    have hscan : (s.jobEndSlot h).scan.state ≠ .ciphering := by
      rw [hm.frame]
      exact hs
    exact hm.trans (ih hscan)

theorem State.jobEndSlots_slotsMoved (hs : s.scan.state ≠ .ciphering) : SlotsMoved s (s.jobEndSlots i) := by
  unfold State.jobEndSlots
  have hm := jobEndSlot_fold_moved (s.job i).slots hs
  generalize (s.job i).slots.foldl State.jobEndSlot s = u at hm ⊢
  refine hm.trans ⟨rfl, fun j => ?_, u.core.band, rfl⟩
  show (u.putJob i { u.job i with slots := [] }).job j = _
  rw [State.putJob_job]
  split
  · rename_i hj
    rw [← hj.1]
  · rfl

theorem State.completeEnd_completed {h : Handle} (hj : s.jobOf h = some i) (hfree : (s.job i).state = .ending → (s.job i).free = 0)
    (hscan : (s.job i).state = .ending → s.scan.state ≠ .ciphering) :
    EndCompleted s (s.completeEnd h).1 i ∧ (s.completeEnd h).2 = (s.job i).complete := by
  have hi : i < 32 := (State.jobOf_idx hj).2.1
  unfold State.completeEnd
  rw [hj]
  dsimp only []
  cases hc : (s.job i).complete
  · have hnot : ¬((s.job i).state = .ending ∧ (s.job i).printFlight = false ∧ (s.job i).scanFlight = false) := by
      intro ⟨h1, h2, h3⟩
      rw [Job.complete, h1, h2, h3] at hc
      exact absurd hc (by decide)
    rw [if_neg hnot]
    refine ⟨⟨fun _ => rfl, ⟨s.slots, s.jobs, s.core.band, rfl⟩, ?_, fun h => ?_⟩, rfl⟩
    · rw [hc]
      rfl
    · rw [hc] at h
      cases h
  · have hends : (s.job i).state = .ending ∧ (s.job i).printFlight = false ∧ (s.job i).scanFlight = false := by
      simpa [Job.complete, and_assoc] using hc
    rw [if_pos hends]
    have hsc := hscan hends.1
    unfold State.finishJob
    rw [State.releaseFree_none (hfree hends.1)]
    have hm : SlotsMoved s (s.jobEndSlots i) := State.jobEndSlots_slotsMoved hsc
    refine ⟨⟨fun h => ?_, ?_, ?_, fun _ hl h32 n => ?_⟩, rfl⟩
    · rw [hc] at h
      cases h
    · obtain ⟨slots, jobs, x, he⟩ := hm.eq
      rw [he]
      exact ⟨slots, _, x, rfl⟩
    · rw [hc, if_pos rfl]
      refine (State.putJob_job_same _ _ hi).trans ?_
      rw [hm.jobs i]
    · exact (State.jobEndSlots_spec hsc hl h32).2 n

/-! ### A page settled (R29, R35) -/

theorem Job.pageSettled_complete (j : Job) (c : Nat) (d : Bool) :
    (j.pageSettled .print c d).complete = (j.state = .ending && !j.scanFlight) ∧
      (j.pageSettled .scan c d).complete = (j.state = .ending && !j.printFlight) := by
  unfold Job.complete Job.pageSettled Job.settled
  constructor
  · simp
  · simp

theorem Job.pageSettled_free (j : Job) (p : CipherPath) (c : Nat) (d : Bool) (h : (j.pageSettled p c d).state = .ending) :
    (j.pageSettled p c d).free = 0 := by
  have hstate : (j.pageSettled p c d).state = j.state := (j.settled_state p c d).1
  rw [hstate] at h
  show (j.settled p c d).free - j.handsBack (j.settled p c d).free = 0
  rw [Job.handsBack, if_pos h, Nat.sub_self]

/-- R29, R35: the job, its account's reserved and its slots, from the charge of its page and the completion of its end; what lies between
leaves jobs, accounts and slots alone. -/
theorem State.jobSettled_of {p : CipherPath} {d : Bool} {c : AccountCharge} {w x t : State} {settled : Job → Job}
    (hc : PageCharged b v i p d c) (hw : ∃ stored carts link mem notice afterWrites faults, w = { v with
      stored := stored, carts := carts, link := link, mem := mem, notice := notice, afterWrites := afterWrites, faults := faults })
    (hx : EndCompleted w x i) (ht : t.jobs = x.jobs ∧ t.accounts = x.accounts ∧ t.slots = x.slots)
    (hs : ∀ j : Job, j.pageSettled p c.charge d =
      settled { j with free := j.free + (j.holdOf p - c.charge) - j.handsBack (j.free + (j.holdOf p - c.charge)) }) :
    b.jobSettled t i ((b.job i).holdOf p) c.charge ((b.job i).pageSettled p c.charge d).complete settled := by
  obtain ⟨stored, carts, link, mem, notice, afterWrites, faults, hw⟩ := hw
  obtain ⟨htj, hta, hts⟩ := ht
  have htjob : ∀ y, t.job y = x.job y := fun y => by rw [State.job, htj]; rfl
  have htslot : ∀ y, t.slot y = x.slot y := fun y => by rw [State.slot, hts]; rfl
  have hwjob : ∀ y, w.job y = v.job y := fun y => by rw [hw]; rfl
  have hwi : w.job i = (b.job i).pageSettled p c.charge d := (hwjob i).trans ((hc.jobs i).trans (if_pos rfl))
  have hxacc : x.accounts = v.accounts := by
    obtain ⟨slots, jobs, band, he⟩ := hx.frame
    rw [he, hw]
  have hfree : ((b.job i).settled p c.charge d).free = (b.job i).free + ((b.job i).holdOf p - c.charge) := by cases p <;> rfl
  have hwslots : w.slots = b.slots := by rw [hw, hc.frame]
  have hwdev : w.dev = b.dev := by rw [hw, hc.frame]
  refine ⟨?_, ?_, fun hend => ⟨?_, fun y hy => ?_⟩, fun hend hl h32 n => ?_⟩
  · rw [htjob, hx.job, hwi]
    split
    · have hgen : ((b.job i).pageSettled p c.charge d).gen = (b.job i).gen := by cases p <;> rfl
      rw [hgen]
    · exact hs (b.job i)
  · have hr := hc.reserved
    rw [hfree] at hr
    show (entryAt t.accounts _ _).reserved = _
    rw [hta, hxacc]
    exact hr
  · rw [hts, hx.same (by rw [hwi]; exact hend), hwslots]
  · rw [htjob, hx.same (by rw [hwi]; exact hend), hwjob, hc.jobs, if_neg hy]
  · have hlist : (w.job i).slots = (b.job i).slots := by
      rw [hwi]
      cases p <;> rfl
    have hslot := hx.slots (by rw [hwi]; exact hend) (by rw [hlist]; exact hl) (by rw [hlist]; exact h32) n
    rw [hlist] at hslot
    rw [htslot, hslot, hwdev, State.slot, hwslots]
    rfl

/-! ### A close whose words can be written -/

/-- R161: the close of a ticket in service whose words can be written. -/
theorem State.close_ok {lane : Fin 4} (h : (s.lane lane).service = some k) (hw : s.closesFreely k) (code : ReturnCode)
    (w13 w14 : Nat) (e t : Bool) :
    s.close lane code w13 w14 e t = { s.answered lane k code w13 w14 e t with env := s.env } := by
  unfold State.close
  rw [h]
  dsimp only []
  rw [State.closeWords_ok hw]
  rfl

theorem State.closesFreely_of_nil (h : s.env.badWrites = []) : s.closesFreely k := by
  unfold State.closesFreely
  rw [h]
  exact ⟨rfl, rfl, rfl⟩

end Sys2Proof.Machine
end

