-- ==== Sys2Proof/Proofs/Impressions.lean ====
section
/-! The end of an impression (R70, R73, R74, R78 to R80). -/

namespace Sys2Proof.Machine

variable {s t u v b : State} {env : Env} {k : Ticket} {n i m : Nat} {a : PrintArgs} {cap : PrintCapture}

/-! ### The steps of a settlement -/

theorem State.jobOf_congr {h : Handle} (hj : s.jobOf h = some i) (hg : (u.job i).gen = (s.job i).gen)
    (hs : (u.job i).state = (s.job i).state) : u.jobOf h = some i := by
  obtain ⟨hidx, hi, hfree, hgen⟩ := State.jobOf_idx hj
  subst hidx
  unfold State.jobOf
  exact if_pos ⟨hi, by rw [hs]; exact hfree, hg.trans hgen⟩

theorem State.writePrintResult_ok (h : s.env.badWrites = []) (x : Nat) (ws : List Word) :
    s.writePrintResult x ws = { s with mem := s.mem.putWords x ws } := by
  unfold State.writePrintResult
  rw [State.writeWords_ok ws s x h]

/-- R124: the cartridges, their list and the requests that a deduction makes alone change. -/
structure Deducted (s t : State) : Prop where
  frame : ∃ known knownOk carts link notice afterWrites, t = { s with
    stored := { s.stored with known := known, knownOk := knownOk }, carts := carts, link := link, notice := notice
    afterWrites := afterWrites }

theorem Deducted.refl (s : State) : Deducted s s := ⟨_, _, _, _, _, _, rfl⟩

theorem Deducted.trans (h : Deducted s t) (h' : Deducted t u) : Deducted s u := by
  obtain ⟨known, knownOk, carts, link, notice, afterWrites, ht⟩ := h.frame
  obtain ⟨known', knownOk', carts', link', notice', afterWrites', hu⟩ := h'.frame
  refine ⟨known', knownOk', carts', link', notice', afterWrites', ?_⟩
  rw [hu, ht]

theorem State.changeCart_deducted (s : State) (n : Nat) (c : Cartridge) : Deducted s (s.changeCart n c) := by
  unfold State.changeCart
  dsimp only []
  split
  · exact ⟨_, _, _, _, _, _, rfl⟩
  · exact ⟨_, _, _, _, _, _, rfl⟩

theorem State.wantRecord_deducted (s : State) (n : Nat) : Deducted s (s.wantRecord n) := by
  unfold State.wantRecord
  split
  · split
    · exact ⟨_, _, _, _, _, _, rfl⟩
    · exact ⟨_, _, _, _, _, _, rfl⟩
  · exact .refl s

theorem State.writeKnown_deducted (s : State) (l : List KnownCartridge) : Deducted s (s.writeKnown l) := ⟨_, _, _, _, _, _, rfl⟩

theorem State.deductTrusted_deducted (s : State) (n amount : Nat) : Deducted s (s.deductTrusted n amount) := by
  unfold State.deductTrusted
  dsimp only []
  split
  · exact .refl s
  · rename_i v _
    have hc := s.changeCart_deducted n { s.cart n with values := some (v.deducted s.stored.settings.supply.lowPermille amount 1) }
    generalize s.changeCart n _ = u at hc ⊢
    refine hc.trans ?_
    split
    · split
      · exact (u.wantRecord_deducted n).trans (State.wantRecord_deducted _ n)
      · exact u.wantRecord_deducted n
    · split
      · exact u.wantRecord_deducted n
      · exact .refl u

theorem State.deductUntrusted_deducted (s : State) (n amount : Nat) : Deducted s (s.deductUntrusted n amount) := by
  have hknown : ∀ u : State, Deducted s u → Deducted s
      (match (s.cart n).id with
      | none => u
      | some id =>
        if (u.knownEntry id).isSome then
          u.writeKnown (u.stored.known.map (fun e => if e.id = id then e.deducted amount else e))
        else u) := fun u hu => by
    split
    · exact hu
    · split
      · exact hu.trans (u.writeKnown_deducted _)
      · exact hu
  unfold State.deductUntrusted
  dsimp only []
  cases (s.cart n).values with
  | none => exact hknown _ (.refl s)
  | some v => exact hknown _ (s.changeCart_deducted n _)

theorem State.deductSlot_deducted (s : State) (n amount : Nat) : Deducted s (s.deductSlot n amount) := by
  unfold State.deductSlot
  split
  · exact s.deductTrusted_deducted n amount
  · exact s.deductUntrusted_deducted n amount

theorem State.deduct_deducted (s : State) (colour : Bool) (toner : PerPlane Nat) : Deducted s (s.deduct colour toner) := by
  unfold State.deduct
  dsimp only []
  split
  · exact ((((s.deductSlot_deducted 1 _).trans (State.deductSlot_deducted _ 2 _)).trans (State.deductSlot_deducted _ 3 _)).trans
      (State.deductSlot_deducted _ 4 _)).trans (State.deductSlot_deducted _ 5 1)
  · exact (s.deductSlot_deducted 4 _).trans (State.deductSlot_deducted _ 5 1)

/-! ### The settlement of an impression (R78) -/

/-- R30, R79: what the settlement of an impression adds to account and meters, from its metering. -/
def State.metered (s : State) (a : PrintArgs) (cap : PrintCapture) (o : PrintOutcome) : Metered :=
  meter cap a.colour a.pixels s.print.sums s.print.counts (o = .delivered)

/-- R78 step 3 and 4: the cartridges' deductions and the lifetime meters, of an impression that was imaged. -/
def State.supplied (v : State) (colour : Bool) (o : PrintOutcome) (m : Metered) : State :=
  if o = .notImaged then v else (v.deduct colour m.toner).writeMeters (impressionMeters (v.deduct colour m.toner).stored.meters o m)

/-- R78: the result record written. -/
def State.recorded (v : State) (address : Nat) (result : List Word) : State := { v with mem := v.mem.putWords address result }

theorem State.supplied_frame (v : State) (colour : Bool) (o : PrintOutcome) (m : Metered) :
    ∃ known knownOk meters metersOk carts link notice afterWrites, v.supplied colour o m = { v with
      stored := { v.stored with known := known, knownOk := knownOk, meters := meters, metersOk := metersOk }, carts := carts
      link := link, notice := notice, afterWrites := afterWrites } := by
  unfold State.supplied
  split
  · exact ⟨_, _, _, _, _, _, _, _, rfl⟩
  · obtain ⟨known, knownOk, carts, link, notice, afterWrites, hu⟩ := (v.deduct_deducted colour m.toner).frame
    rw [hu]
    exact ⟨_, _, _, _, _, _, _, _, rfl⟩

/-- R78: the steps of the settlement of the impression in flight. -/
theorem State.settlePrint_steps (h : s.impression a cap i k) (o : PrintOutcome) (cause : PrintCause) (code : ReturnCode) (w14 : Nat) :
    ∃ v x, PageCharged s v i .print (o = .delivered) (printCharge o (s.metered a cap o)) ∧
      EndCompleted ((v.supplied a.colour o (s.metered a cap o)).recorded a.result
        (printResult o cause s.print.number (s.metered a cap o) s.print.counts)) x i ∧
      s.settlePrint o cause code w14 = State.printIdle { x.answered 2 k code (s.metered a cap o).charge w14
        ((s.job i).state = .ending && !(s.job i).scanFlight) with env := s.env } := by
  obtain ⟨hargs, hcap, hj, hending, hlane, hbad⟩ := h
  have hv := State.settleHold_charged hj .print (o = .delivered) (printCharge o (s.metered a cap o))
  unfold State.settlePrint
  rw [hargs, hcap]
  dsimp only []
  rw [show meter cap a.colour a.pixels s.print.sums s.print.counts (o = .delivered) = s.metered a cap o from rfl]
  generalize s.metered a cap o = m at hv ⊢
  generalize s.settleHold a.job .print (o = .delivered) (printCharge o m) = v at hv ⊢
  have hw : (if o = .notImaged then (if o = .notImaged then v else v.deduct a.colour m.toner) else
      (if o = .notImaged then v else v.deduct a.colour m.toner).writeMeters
        (impressionMeters (if o = .notImaged then v else v.deduct a.colour m.toner).stored.meters o m)) = v.supplied a.colour o m := by
    unfold State.supplied
    split <;> rfl
  rw [hw]
  obtain ⟨known, knownOk, meters, metersOk, carts, link, notice, afterWrites, hs⟩ := v.supplied_frame a.colour o m
  generalize hweq : v.supplied a.colour o m = w at hs ⊢
  have hwenv : w.env = s.env := by rw [hs, hv.frame]
  have hwprint : w.print = s.print := by rw [hs, hv.frame]
  have hresult : ∀ ws, w.writePrintResult a.result ws = w.recorded a.result ws := fun ws =>
    State.writePrintResult_ok (by rw [hwenv]; exact hbad) _ _
  rw [hwprint, hresult]
  have hrframe : ∃ mem, w.recorded a.result (printResult o cause s.print.number m s.print.counts) = { w with mem := mem } := ⟨_, rfl⟩
  generalize hreq : w.recorded a.result (printResult o cause s.print.number m s.print.counts) = r at hrframe ⊢
  obtain ⟨mem, hr⟩ := hrframe
  have hrjob : r.job i = (s.job i).pageSettled .print (printCharge o m).charge (o = .delivered) := by
    refine Eq.trans ?_ ((hv.jobs i).trans (if_pos rfl))
    rw [hr, hs]
    rfl
  have hrscan : r.scan = s.scan := by rw [hr, hs, hv.frame]
  have hrlanes : r.lanes = s.lanes := by rw [hr, hs, hv.frame]
  have hrenv : r.env = s.env := by rw [hr, hs, hv.frame]
  have hstate : (r.job i).state = (s.job i).state := by rw [hrjob]; exact (Job.settled_state ..).1
  have hgen : (r.job i).gen = (s.job i).gen := by rw [hrjob]; rfl
  have hrj : r.jobOf a.job = some i := State.jobOf_congr hj hgen hstate
  obtain ⟨hx, hflag⟩ := State.completeEnd_completed hrj
    (fun h => by rw [hrjob] at h ⊢; exact Job.pageSettled_free _ _ _ _ h)
    (fun h => by rw [hrscan]; exact hending (hstate.symm.trans h))
  rw [hrjob, (Job.pageSettled_complete _ _ _).1] at hflag
  rw [hflag]
  generalize (r.completeEnd a.job).1 = x at hx ⊢
  refine ⟨v, x, hv, by rw [hweq, hreq]; exact hx, ?_⟩
  obtain ⟨slots, jobs, band, hframe⟩ := hx.frame
  have hxenv : x.env = s.env := by
    rw [hframe]
    exact hrenv
  have hxlane : (x.lane 2).service = some k := by
    rw [State.lane, show x.lanes = s.lanes by rw [hframe]; exact hrlanes]
    exact hlane
  rw [State.close_ok hxlane (State.closesFreely_of_nil (by rw [hxenv]; exact hbad)), hxenv]

/-! ### An impression that was not imaged (R70) -/

/-- R50 to R52: nothing sent meters as nothing. -/
theorem meter_zero (cap : PrintCapture) (declared : Bool) (pixels : Nat) :
    let m := meter cap declared pixels ⟨0, 0, 0, 0⟩ ⟨0, 0, 0, 0⟩ false
    m.charge = 0 ∧ m.colour = false ∧ m.coverage = ⟨0, 0, 0, 0⟩ ∧ m.toner = ⟨0, 0, 0, 0⟩ := by
  have hcov : coverageOf 0 pixels 0 = 0 := if_pos (Nat.mul_zero _)
  have htoner : ∀ d, tonerOf 0 d = 0 := fun d => by simp [tonerOf]
  have hc : (PerPlane.of fun p => coverageOf ((⟨0, 0, 0, 0⟩ : PerPlane Nat).get p) pixels ((⟨0, 0, 0, 0⟩ : PerPlane Nat).get p)) = ⟨0, 0, 0, 0⟩ := by
    simp [PerPlane.of, PerPlane.get, hcov]
  refine ⟨rfl, ?_, hc, ?_⟩
  · show billedColour declared cap.curves.floor (PerPlane.of _) = false
    rw [hc]
    simp [billedColour]
  · show (PerPlane.of fun p => tonerOf _ _) = _
    simp [PerPlane.of, PerPlane.get, htoner]

theorem printResult_notImaged (cap : PrintCapture) (declared : Bool) (pixels number : Nat) (cause : PrintCause) :
    printResult .notImaged cause number (meter cap declared pixels ⟨0, 0, 0, 0⟩ ⟨0, 0, 0, 0⟩ false) ⟨0, 0, 0, 0⟩ =
      BitVec.ofNat 32 (3 + cause.code * 2 ^ 8 + 2 ^ 16) :: List.replicate 9 0 := by
  obtain ⟨h1, h2, h3, h4⟩ := meter_zero cap declared pixels
  unfold printResult
  rw [h1, h2, h3, h4]
  simp [PrintOutcome.code, List.replicate]

/-- The band of the core after the print path has discarded what it holds. -/
theorem Core.orphaned_print (c : Core) {x : CoreBand} (h : c.orphaned .print = some x) (hp : x.path = .print) : x.orphan = true := by
  unfold Core.orphaned at h
  cases hb : c.band with
  | none =>
    rw [hb] at h
    cases h
  | some y =>
    rw [hb] at h
    dsimp only [] at h
    split at h
    · rw [← Option.some.inj h]
    · rename_i hy
      exact absurd (Option.some.inj h ▸ hp) hy

/-- R29, R35: the job and the account of an impression settled. -/
theorem State.impressionSettled_of {d : Bool} {c : AccountCharge} {w x : State} (hv : PageCharged s v i .print d c)
    (hw : ∃ stored carts link mem notice afterWrites faults, w = { v with
      stored := stored, carts := carts, link := link, mem := mem, notice := notice, afterWrites := afterWrites, faults := faults })
    (hx : EndCompleted w x i) (ht : t.jobs = x.jobs ∧ t.accounts = x.accounts ∧ t.slots = x.slots) :
    s.impressionSettled t i c.charge d := by
  have hends : ((s.job i).pageSettled .print c.charge d).complete = s.printEndsJob i := (Job.pageSettled_complete ..).1
  unfold State.impressionSettled
  rw [← hends]
  exact State.jobSettled_of hv hw hx ht fun j => rfl

/-- R78: the ticket answered and the path at rest. -/
theorem State.printEnded_eq (x : State) (code : ReturnCode) (w13 w14 : Nat) (e : Bool) (env : Env) :
    (State.printIdle { x.answered 2 k code w13 w14 e with env := env }).finish =
      { x with
        mem := ((x.mem.putWord (k.address + 52) (BitVec.ofNat 32 w13)).putWord (k.address + 56) (BitVec.ofNat 32 w14)).putWord
          (k.address + 60) (closingWord 3 code.code x.epoch e false)
        notice := x.notice ||| (Cause.closed 2).mask, lanes := x.lanes.set 2 { x.lane 2 with service := none }
        core := { x.core with printQueue := [], band := x.core.orphaned .print }, print := x.print.ended, env := .calm } := rfl

/-- R78: what the settlement of an impression that was not imaged has left before its ticket closes. -/
theorem PageCharged.ended {d : Bool} {c : AccountCharge} {address : Nat} {ws : List Word} {x : State} (hv : PageCharged s v i .print d c)
    (hx : EndCompleted (v.recorded address ws) x i) :
    ∃ mem accountsStored accounts jobs sessions hold slots faults notice zero writes band, mem = s.mem.putWords address ws ∧ x = { s with
      mem := mem, stored := { s.stored with accounts := accountsStored }, accounts := accounts, jobs := jobs
      sessions := sessions, hold := hold, slots := slots, faults := faults, notice := notice, zeroCaptured := zero
      afterWrites := writes, core := { s.core with band := band } } := by
  obtain ⟨slots, jobs, band, hx⟩ := hx.frame
  refine ⟨s.mem.putWords address ws, v.stored.accounts, v.accounts, jobs, v.sessions, v.hold, slots, v.faults, v.notice, v.zeroCaptured,
    v.afterWrites, band, rfl, ?_⟩
  rw [hx, hv.frame]
  rfl

theorem EndCompleted.recorded {address : Nat} {ws : List Word} {x : State} (hx : EndCompleted (v.recorded address ws) x i) :
    x.stored = v.stored ∧ x.faults = v.faults ∧ x.notice = v.notice ∧ x.carts = v.carts ∧ x.epoch = v.epoch := by
  obtain ⟨slots, jobs, band, hx⟩ := hx.frame
  rw [hx]
  exact ⟨rfl, rfl, rfl, rfl, rfl⟩

/-- R70, R78: the impression in flight ends before imaging start. -/
theorem State.notImaged_spec (h : s.impression a cap i k) (hsums : s.print.sums = ⟨0, 0, 0, 0⟩) (hcounts : s.print.counts = ⟨0, 0, 0, 0⟩)
    (code : ReturnCode) (cause : PrintCause) (w14 : Nat) : NotImaged s (s.notImaged code cause w14).finish a i k code cause w14 := by
  obtain ⟨v, x, hv, hx, hsteps⟩ := s.settlePrint_steps h .notImaged cause code w14
  have hm : s.metered a cap .notImaged = meter cap a.colour a.pixels ⟨0, 0, 0, 0⟩ ⟨0, 0, 0, 0⟩ false := by
    rw [State.metered, hsums, hcounts]
    rfl
  rw [hm] at hv hx hsteps
  rw [hcounts, printResult_notImaged] at hx
  rw [(meter_zero cap a.colour a.pixels).1] at hsteps
  have hsupplied : ∀ m, v.supplied a.colour .notImaged m = v := fun m => if_pos rfl
  rw [hsupplied] at hx
  rw [State.notImaged, hsteps, State.printEnded_eq]
  have hsettled : ∀ t : State, t.jobs = x.jobs ∧ t.accounts = x.accounts ∧ t.slots = x.slots → s.impressionSettled t i 0 false :=
    fun t ht => State.impressionSettled_of hv ⟨_, _, _, _, _, _, _, rfl⟩ hx ht
  obtain ⟨hstored, hfaults, -, -, hepoch⟩ := hx.recorded
  have hvepoch : v.epoch = s.epoch := by
    rw [hv.frame]
    rfl
  rw [hepoch, hvepoch]
  have hended := hv.ended hx
  generalize hM : Memory.putWord _ (k.address + 60) _ = M
  refine ⟨?_, Cause.or_mask x.notice (.closed 2), rfl, fun c hc hp => Core.orphaned_print x.core hc hp, hsettled _ ⟨rfl, rfl, rfl⟩,
    ?_, fun hok => ?_⟩
  · obtain ⟨mem, A, B, J, S, H, SL, F, N, Z, W, band', hmem, he⟩ := hended
    rw [he] at hM ⊢
    rw [show BitVec.ofNat 32 0 = (0 : Word) from rfl] at hM
    dsimp only [] at hM
    rw [hmem] at hM
    have hM' : (((s.mem.putWords a.result (BitVec.ofNat 32 (3 + cause.code * 2 ^ 8 + 2 ^ 16) :: List.replicate 9 0)).putWord
        (k.address + 52) 0).putWord (k.address + 56) (BitVec.ofNat 32 w14)).putWord (k.address + 60)
          (closingWord 3 code.code s.epoch (s.printEndsJob i) false) = M := hM
    rw [hM']
    rfl
  · show (entryAt x.stored.accounts (s.job i).account .vacant).used ≤ _
    rw [hstored]
    exact hv.used rfl
  · show x.faults = _
    exact hfaults.trans (hv.ok hok).1.1

/-! ### An impression that was imaged (R78, R79) -/

/-- R78: the impression in flight has been settled after imaging start; v is the state its account's charge has left. -/
structure ImpressionEnded (s v t : State) (a : PrintArgs) (i : Nat) (k : Ticket) (o : PrintOutcome) (m : Metered) (mem : Memory) :
    Prop where
  charged : PageCharged s v i .print (o = .delivered) (printCharge o m)
  frame : t = { s with
    mem := mem, notice := t.notice, lanes := s.lanes.set 2 { s.lane 2 with service := none }, stored := t.stored
    accounts := t.accounts, jobs := t.jobs, sessions := t.sessions, hold := t.hold, slots := t.slots, carts := t.carts, link := t.link
    core := t.core, faults := t.faults, zeroCaptured := t.zeroCaptured, print := s.print.ended, afterWrites := t.afterWrites
    env := .calm }
  closed : t.notice.getLsbD (Cause.closed 2).bit = true
  queue : t.core.printQueue = []
  band : ∀ c, t.core.band = some c → c.path = .print → c.orphan = true
  settled : s.impressionSettled t i (printCharge o m).charge (o = .delivered)
  accounts : t.stored.accounts = v.stored.accounts ∧ t.accounts = v.accounts ∧ t.faults = v.faults ∧ t.zeroCaptured = v.zeroCaptured
  meters : t.stored.meters = impressionMeters s.stored.meters o m
  carts : t.carts = (v.deduct a.colour m.toner).carts

/-- R78: the words a settlement of an impression stores: its result record, W13, W14 and the closing word. -/
def settledWords (mem : Memory) (address : Nat) (result : List Word) (k : Ticket) (w13 w14 closing : Word) : Memory :=
  (((mem.putWords address result).putWord (k.address + 52) w13).putWord (k.address + 56) w14).putWord (k.address + 60) closing

/-- What the settlement of an impression that was imaged has left before its ticket closes. -/
theorem PageCharged.imaged {d : Bool} {c : AccountCharge} {o : PrintOutcome} {m : Metered} {colour : Bool} {address : Nat}
    {ws : List Word} {x : State} (hv : PageCharged s v i .print d c) (ho : o ≠ .notImaged)
    (hx : EndCompleted ((v.supplied colour o m).recorded address ws) x i) :
    ∃ mem stored accounts jobs sessions hold slots faults notice zero writes carts link band, mem = s.mem.putWords address ws ∧
      (stored.accounts = v.stored.accounts ∧ accounts = v.accounts ∧ faults = v.faults ∧ zero = v.zeroCaptured) ∧
      stored.meters = impressionMeters s.stored.meters o m ∧ carts = (v.deduct colour m.toner).carts ∧
      x = { s with
        mem := mem, stored := stored, accounts := accounts, jobs := jobs, sessions := sessions, hold := hold, slots := slots
        faults := faults, notice := notice, zeroCaptured := zero, afterWrites := writes, carts := carts, link := link
        core := { s.core with band := band } } := by
  obtain ⟨slots, jobs, band, hx⟩ := hx.frame
  have hs : v.supplied colour o m = (v.deduct colour m.toner).writeMeters
      (impressionMeters (v.deduct colour m.toner).stored.meters o m) := if_neg ho
  rw [hs] at hx
  obtain ⟨known, knownOk, carts, link, notice, writes, hd⟩ := (v.deduct_deducted colour m.toner).frame
  rw [hd] at hx ⊢
  have hmeters : v.stored.meters = s.stored.meters := by rw [hv.frame]
  refine ⟨s.mem.putWords address ws, x.stored, v.accounts, jobs, v.sessions, v.hold, slots, v.faults, notice, v.zeroCaptured,
    x.afterWrites, carts, link, band, rfl, ⟨?_, rfl, rfl, rfl⟩, ?_, rfl, ?_⟩
  · rw [hx]
    rfl
  · rw [hx, ← hmeters]
    rfl
  · rw [hx, hv.frame]
    rfl

theorem State.impression.imaged (h : s.impression a cap i k) {o : PrintOutcome} (ho : o ≠ .notImaged) (cause : PrintCause) (code : ReturnCode)
    (w14 : Nat) {m : Metered} (hm : m = s.metered a cap o) :
    ∃ v, ImpressionEnded s v (s.settlePrint o cause code w14).finish a i k o m
      (settledWords s.mem a.result (printResult o cause s.print.number m s.print.counts) k (BitVec.ofNat 32 m.charge)
        (BitVec.ofNat 32 w14) (closingWord 3 code.code s.epoch (s.printEndsJob i) false)) := by
  obtain ⟨v, x, hv, hx, hsteps⟩ := s.settlePrint_steps h o cause code w14
  rw [← hm] at hv hx hsteps
  generalize printResult o cause s.print.number m s.print.counts = ws at hx ⊢
  rw [hsteps, State.printEnded_eq]
  have hsettled : ∀ t : State, t.jobs = x.jobs ∧ t.accounts = x.accounts ∧ t.slots = x.slots →
      s.impressionSettled t i (printCharge o m).charge (o = .delivered) := fun t ht => by
    obtain ⟨known, knownOk, meters, metersOk, carts, link, notice, writes, hs⟩ := v.supplied_frame a.colour o m
    refine State.impressionSettled_of hv ⟨{ v.stored with known := known, knownOk := knownOk, meters := meters, metersOk := metersOk },
      carts, link, v.mem.putWords a.result ws, notice, writes, v.faults, ?_⟩ hx ht
    rw [State.recorded, hs]
  obtain ⟨mem, ST, B, J, S, H, SL, F, N, Z, W, C, L, band, hmem, hacc, hmeters, hcarts, he⟩ := hv.imaged ho hx
  have hepoch : x.epoch = s.epoch := by
    rw [he]
    rfl
  rw [hepoch]
  rw [he] at hsettled ⊢
  rw [settledWords, ← hmem]
  generalize hM : Memory.putWord _ (k.address + 60) _ = M
  have hM' : ((mem.putWord (k.address + 52) (BitVec.ofNat 32 m.charge)).putWord (k.address + 56) (BitVec.ofNat 32 w14)).putWord
      (k.address + 60) (closingWord 3 code.code s.epoch (s.printEndsJob i) false) = M := hM
  rw [hM']
  refine ⟨v, hv, ?_, Cause.or_mask N (.closed 2), rfl, fun c hc hp => Core.orphaned_print { s.core with band := band } hc hp,
    hsettled _ ⟨rfl, rfl, rfl⟩, hacc, hmeters, hcarts⟩
  rfl

/-- R74: an abort told to the engine, or none, before the settlement. -/
def State.aborted (s : State) (abort : Bool) (core : Core) : State :=
  { s with
    engineOut := s.engineOut ++ (if abort = true then [EngineMessage.abort s.print.number] else [])
    print := { s.print with retired := if abort = true then some s.print.number else s.print.retired }, core := core }

theorem State.aborted_false (s : State) : s.aborted false s.core = s := by
  unfold State.aborted
  rw [if_neg Bool.false_ne_true, if_neg Bool.false_ne_true, List.append_nil]

theorem State.spoil_eq (s : State) (cause : PrintCause) :
    s.spoil cause = (s.aborted true { s.core with printQueue := [], band := s.core.orphaned .print }).settlePrint .spoiled cause .spoiled
      cause.code := rfl

/-- R74, R78, R79: the settlement SPOILED, with or without an abort. -/
theorem State.spoiledEnd_spec (h : s.impression a cap i k) (cause : PrintCause) (abort : Bool) (core : Core) :
    SpoiledEnd s (((s.aborted abort core).settlePrint .spoiled cause .spoiled cause.code).finish) a cap i k cause abort := by
  have h' : (s.aborted abort core).impression a cap i k := h
  obtain ⟨v, he⟩ := h'.imaged (o := .spoiled) (by decide) cause .spoiled cause.code rfl
  obtain ⟨hcharged, hframe, hclosed, hqueue, hband, hsettled, ⟨hstored, haccounts, hfaults, -⟩, hmeters, -⟩ := he
  generalize (State.settlePrint _ _ _ _ _).finish = t at hframe hclosed hqueue hband hsettled hstored haccounts hfaults hmeters ⊢
  have hrecord : ∀ x, t.record x = v.record x := fun x => congrArg (fun y => entryAt y x AccountRecord.vacant) hstored
  refine ⟨hframe, hclosed, hqueue, hband, hsettled, ?_, fun hn hok hd => ⟨hfaults.trans (hcharged.ok hok).1.1, ?_⟩, hmeters⟩
  · exact (congrArg AccountRecord.used (hrecord _)).trans_le (hcharged.used rfl)
  · have hr := (hrecord _).trans (hcharged.charged hn hok hd)
    exact ⟨congrArg AccountRecord.spoiled hr, congrArg AccountRecord.toner hr⟩

/-- R74: the part spoils the impression. -/
theorem State.spoil_spec (h : s.impression a cap i k) (cause : PrintCause) : SpoiledEnd s (s.spoil cause).finish a cap i k cause true := by
  rw [State.spoil_eq]
  exact State.spoiledEnd_spec h cause true _

/-- R73: the engine has spoiled the impression. -/
theorem State.spoiled_spec (h : s.impression a cap i k) (cause : PrintCause) :
    SpoiledEnd s (s.settlePrint .spoiled cause .spoiled cause.code).finish a cap i k cause false := by
  have hs := State.spoiledEnd_spec h cause false s.core
  rw [State.aborted_false] at hs
  exact hs

/-! ### The core's next band after an impression has ended -/

/-- With no print band waiting, the core takes none. -/
theorem State.pumpCore_print (hq : s.core.printQueue = []) (hb : ∀ c, s.core.band = some c → c.path = .print → c.orphan = true) :
    s.pumpCore.core.printQueue = [] ∧ ∀ c, s.pumpCore.core.band = some c → c.path = .print → c.orphan = true := by
  rcases s.pumpCore_cases with ⟨-, x, rest, hcons, -⟩ | ⟨-, x, -, h⟩ | ⟨-, h⟩
  · rw [hq] at hcons
    cases hcons
  · rw [h]
    refine ⟨hq, fun c hc hp => ?_⟩
    rw [← Option.some.inj hc] at hp
    cases hp
  · rw [h]
    exact ⟨hq, hb⟩

theorem NotImaged.with_core {code : ReturnCode} {cause : PrintCause} {w14 : Nat} {core : Core} (h : NotImaged s t a i k code cause w14)
    (hq : core.printQueue = []) (hb : ∀ c, core.band = some c → c.path = .print → c.orphan = true) :
    NotImaged s { t with core := core } a i k code cause w14 := by
  obtain ⟨hframe, hclosed, -, -, hsettled, hused, hok⟩ := h
  refine ⟨?_, hclosed, hq, hb, hsettled, hused, hok⟩
  dsimp only []
  rw [hframe]

theorem SpoiledEnd.with_core {cause : PrintCause} {abort : Bool} {core : Core} (h : SpoiledEnd s t a cap i k cause abort)
    (hq : core.printQueue = []) (hb : ∀ c, core.band = some c → c.path = .print → c.orphan = true) :
    SpoiledEnd s { t with core := core } a cap i k cause abort := by
  obtain ⟨hframe, hclosed, -, -, hsettled, hused, hok, hmeters⟩ := h
  refine ⟨?_, hclosed, hq, hb, hsettled, hused, hok, hmeters⟩
  dsimp only []
  rw [hframe]

theorem NotImaged.pumped {code : ReturnCode} {cause : PrintCause} {w14 : Nat} (h : NotImaged s u.finish a i k code cause w14) :
    NotImaged s u.pumpCore.finish a i k code cause w14 := by
  obtain ⟨hq, hb⟩ := State.pumpCore_print (s := u) h.2.2.1 h.2.2.2.1
  rw [State.pumpCore_frame]
  exact h.with_core hq hb

theorem SpoiledEnd.pumped {cause : PrintCause} {abort : Bool} (h : SpoiledEnd s u.finish a cap i k cause abort) :
    SpoiledEnd s u.pumpCore.finish a cap i k cause abort := by
  obtain ⟨hq, hb⟩ := State.pumpCore_print (s := u) h.2.2.1 h.2.2.2.1
  rw [State.pumpCore_frame]
  exact h.with_core hq hb

end Sys2Proof.Machine
end

