-- ==== Sys2Proof/Proofs/Engine.lean ====
section
/-! The engine port (R71 to R74, R78): O34, O35, O36. -/

namespace Sys2Proof.Machine

variable {s t u v b : State} {env : Env} {k : Ticket} {n i m : Nat} {a : PrintArgs} {cap : PrintCapture}

/-! ### Causes that stay set -/

/-- A scope that grants every byte and every write. -/
def Scope.any : Scope := ⟨fun _ _ => True, False, True⟩

theorem State.within_any (s : State) : s.within Scope.any :=
  ⟨fun _ _ _ _ _ _ => trivial, fun _ _ _ _ _ => trivial, fun _ _ _ _ _ => trivial⟩

/-! ### Engine events by their number (R71) -/

theorem State.engineEvent_own {e : EngineEvent} {f : State → State} (hs : s.print.state = .imaging ∨ s.print.state = .imaged)
    (hn : s.print.number = n) : s.engineEvent n e f = f s := by
  unfold State.engineEvent State.inFlightNumber
  rw [if_pos hs, hn]
  exact if_pos rfl

theorem State.engineEvent_foreign {e : EngineEvent} {f : State → State}
    (h : ¬((s.print.state = .imaging ∨ s.print.state = .imaged) ∧ s.print.number = n)) :
    s.engineEvent n e f = if s.print.retired = some n then s else s.engineProtocol n e := by
  unfold State.engineEvent State.inFlightNumber
  refine if_neg fun hc => h ?_
  split at hc
  · rename_i hs
    exact ⟨hs, Option.some.inj hc⟩
  · cases hc

theorem effectOf_engineDemand (env : Env) (number : BitVec 8) (p : Plane) (h : b.alive = true) :
    effectOf (.engineDemand env number p) b = b.engineEvent number.toNat .demand fun b => b.takeDemand p := if_pos h

theorem effectOf_engineOutcome (env : Env) (number : BitVec 8) (d : Bool) (h : b.alive = true) :
    effectOf (.engineOutcome env number d) b =
      b.engineEvent number.toNat (if d then .delivered else .spoiled) fun b => (b.takeOutcome d).pumpCore := if_pos h

/-! ### A demand (R72) -/

/-- A demand for a plane outside the page, or for more lines than it has. -/
theorem State.takeDemand_bad {p : Plane} (ha : s.print.args = some a) (hc : s.print.capture = some cap)
    (h : p ∉ planeSet a.colour ∨ a.lines ≤ s.print.position.get p) : s.takeDemand p = s.engineProtocol s.print.number .demand := by
  unfold State.takeDemand
  rw [ha, hc]
  exact if_pos h

/-- A demand for the next line of a plane, in band i. -/
theorem State.takeDemand_band {p : Plane} {e : BandEntry} (ha : s.print.args = some a) (hc : s.print.capture = some cap)
    (hp : p ∈ planeSet a.colour) (hl : s.print.position.get p < a.lines) (hb : bandAt s.print.table p (s.print.position.get p) = some i)
    (he : s.print.table[i]? = some e) :
    s.takeDemand p = if e.cond = .ready then s.sendLine a (cap.curves.curve.get p) p i e else (s.spoil .underrun).pumpCore := by
  unfold State.takeDemand
  rw [ha, hc]
  dsimp only []
  rw [if_neg (by simp [hp, hl]), hb]
  dsimp only []
  rw [he]

theorem bandAt_plane {table : List BandEntry} {p : Plane} {line : Nat} {e : BandEntry} (hb : bandAt table p line = some i)
    (he : table[i]? = some e) : e.plane = p := by
  obtain ⟨hi, hp, -⟩ := List.findIdx?_eq_some_iff_getElem.mp hb
  rw [List.getElem?_eq_getElem hi] at he
  rw [Option.some.inj he] at hp
  simp only [Bool.and_eq_true, decide_eq_true_eq] at hp
  exact hp.1

theorem allSent_iff (a : PrintArgs) (position : PerPlane Nat) :
    allSent a position = true ↔ ∀ q ∈ planeSet a.colour, a.lines ≤ position.get q := by
  unfold allSent
  rw [List.all_eq_true]
  simp only [decide_eq_true_eq]

/-! ### An outcome (R73) -/

theorem State.takeOutcome_delivered (h : s.print.state = .imaged) : s.takeOutcome true = s.settlePrint .delivered .none .ok 0 := by
  unfold State.takeOutcome
  rw [if_pos rfl, if_pos h]

theorem State.takeOutcome_early (h : s.print.state ≠ .imaged) :
    s.takeOutcome true = (s.engineProtocol s.print.number .delivered).spoil .protocol := by
  unfold State.takeOutcome
  rw [if_pos rfl, if_neg h]

theorem State.takeOutcome_spoiled (s : State) : s.takeOutcome false = s.settlePrint .spoiled .jam .spoiled PrintCause.jam.code := rfl

/-! ### The cartridges a settlement deducts from (R124) -/

theorem State.changeCart_cart (s : State) (n m : Nat) (c : Cartridge) :
    (s.changeCart n c).cart m = if n - 1 = m - 1 ∧ n - 1 < 5 then c else s.cart m := by
  unfold State.changeCart
  dsimp only []
  split
  · exact State.putCart_cart ..
  · exact State.putCart_cart ..

/-- R126: a RECORD wanted changes the RECORD-owed mark of the slot's own record at most. -/
theorem State.wantRecord_cart (s : State) (n m : Nat) :
    (n - 1 ≠ m - 1 → (s.wantRecord n).cart m = s.cart m) ∧ ((s.wantRecord n).cart m).values = (s.cart m).values := by
  unfold State.wantRecord
  split
  · split
    · rw [State.putCart_cart]
      refine ⟨fun h => if_neg fun hc => h hc.1, ?_⟩
      split
      · rename_i h
        rw [State.cart, h.1]
        rfl
      · rfl
    · exact ⟨fun _ => rfl, rfl⟩
  · exact ⟨fun _ => rfl, rfl⟩

/-- R124: one slot deducted from: no other slot's record changes, and a trusted record's values go down by the amount. -/
structure SlotDeducted (s t : State) (n amount : Nat) : Prop where
  other : ∀ m, n - 1 ≠ m - 1 → t.cart m = s.cart m
  own : n - 1 < 5 → (s.cart n).trusted = true → ∀ v, (s.cart n).values = some v →
    ∃ w, (t.cart n).values = some w ∧ w.remaining = v.remaining - amount ∧ w.useCount = sat32 v.useCount 1

/-- R126: a RECORD wanted, where a condition calls for one. -/
theorem State.wantRecord_if_cart (s : State) (c : Prop) [Decidable c] (n m : Nat) :
    (n - 1 ≠ m - 1 → (if c then s.wantRecord n else s).cart m = s.cart m) ∧
      ((if c then s.wantRecord n else s).cart m).values = (s.cart m).values := by
  split
  · exact s.wantRecord_cart n m
  · exact ⟨fun _ => rfl, rfl⟩

theorem State.deductTrusted_slot (s : State) (n amount : Nat) : SlotDeducted s (s.deductTrusted n amount) n amount := by
  unfold State.deductTrusted
  dsimp only []
  split
  · rename_i hnone
    exact ⟨fun m _ => rfl, fun _ _ v hv => by rw [hnone] at hv; cases hv⟩
  · rename_i v hv
    have hcart := fun m => s.changeCart_cart n m { s.cart n with values := some (v.deducted s.stored.settings.supply.lowPermille amount 1) }
    generalize hw : v.deducted s.stored.settings.supply.lowPermille amount 1 = w at hcart ⊢
    generalize s.changeCart n { s.cart n with values := some w } = u at hcart ⊢
    have hfirst := u.wantRecord_if_cart (w.level ≠ v.level) n
    generalize (if w.level ≠ v.level then u.wantRecord n else u) = u' at hfirst ⊢
    have hsecond := u'.wantRecord_if_cart (s.stored.settings.supply.writeBack ≤ w.sinceWrite) n
    refine ⟨fun m h => ?_, fun h5 _ v' hv' => ⟨w, ?_, ?_⟩⟩
    · rw [(hsecond m).1 h, (hfirst m).1 h, hcart, if_neg fun hc => h hc.1]
    · rw [(hsecond n).2, (hfirst n).2, hcart, if_pos ⟨rfl, h5⟩]
    · rw [hv] at hv'
      rw [← Option.some.inj hv', ← hw]
      exact ⟨rfl, rfl⟩

theorem State.deductUntrusted_other (s : State) (n amount m : Nat) (h : n - 1 ≠ m - 1) :
    (s.deductUntrusted n amount).cart m = s.cart m := by
  have hchanged : ∀ c, (s.changeCart n c).cart m = s.cart m := fun c => (s.changeCart_cart n m c).trans (if_neg fun hc => h hc.1)
  have hlisted : ∀ (u : State) (c : Prop) [Decidable c] l, u.cart m = s.cart m → (if c then u.writeKnown l else u).cart m = s.cart m :=
    fun u c _ l hu => by
      split
      · exact hu
      · exact hu
  unfold State.deductUntrusted
  dsimp only []
  cases (s.cart n).values with
  | none =>
    cases (s.cart n).id with
    | none => rfl
    | some id => exact hlisted s _ _ rfl
  | some v =>
    cases (s.cart n).id with
    | none => exact hchanged _
    | some id => exact hlisted _ _ _ (hchanged _)

theorem State.deductSlot_slot (s : State) (n amount : Nat) : SlotDeducted s (s.deductSlot n amount) n amount := by
  unfold State.deductSlot
  split
  · exact s.deductTrusted_slot n amount
  · rename_i ht
    exact ⟨fun m => s.deductUntrusted_other n amount m, fun _ h => absurd h ht⟩

/-- R124: the slots of an impression with what each gives. -/
def deductions (colour : Bool) (toner : PerPlane Nat) : List (Nat × Nat) :=
  (if colour = true then [(1, toner.c), (2, toner.m), (3, toner.y)] else []) ++ [(4, toner.k), (5, 1)]

theorem State.deduct_eq (s : State) (colour : Bool) (toner : PerPlane Nat) :
    s.deduct colour toner = (deductions colour toner).foldl (fun u x => u.deductSlot x.1 x.2) s := by
  unfold State.deduct deductions
  cases colour with
  | false => simp only [Bool.false_eq_true, if_false, List.nil_append, List.foldl_cons, List.foldl_nil]
  | true => simp only [if_true, List.cons_append, List.nil_append, List.foldl_cons, List.foldl_nil]

/-- Deductions from distinct slots each leave the others as they were. -/
theorem State.deductSlots_cart (l : List (Nat × Nat)) (hnodup : (l.map (·.1 - 1)).Nodup) (s : State) :
    (∀ m, m - 1 ∉ l.map (·.1 - 1) → (l.foldl (fun u x => u.deductSlot x.1 x.2) s).cart m = s.cart m) ∧
      ∀ x ∈ l, x.1 - 1 < 5 → (s.cart x.1).trusted = true → ∀ v, (s.cart x.1).values = some v →
        ∃ w, ((l.foldl (fun u x => u.deductSlot x.1 x.2) s).cart x.1).values = some w ∧ w.remaining = v.remaining - x.2 ∧
          w.useCount = sat32 v.useCount 1 := by
  induction l generalizing s with
  | nil => exact ⟨fun m _ => rfl, fun x hx => absurd hx List.not_mem_nil⟩
  | cons y l ih =>
    obtain ⟨hy, hl⟩ := List.nodup_cons.mp hnodup
    obtain ⟨hother, hown⟩ := s.deductSlot_slot y.1 y.2
    obtain ⟨ihother, ihown⟩ := ih hl (s.deductSlot y.1 y.2)
    refine ⟨fun m hm => ?_, fun x hx h5 ht v hv => ?_⟩
    · obtain ⟨hm, hml⟩ := not_or.mp fun h => hm (List.mem_cons.mpr h)
      exact (ihother m hml).trans (hother m fun h => hm h.symm)
    · rcases List.mem_cons.mp hx with rfl | hx
      · obtain ⟨w, hw, hrest⟩ := hown h5 ht v hv
        exact ⟨w, (congrArg Cartridge.values (ihother _ hy)).trans hw, hrest⟩
      · have hxy : (s.deductSlot y.1 y.2).cart x.1 = s.cart x.1 :=
          hother x.1 fun h => hy (List.mem_map.mpr ⟨x, hx, h.symm⟩)
        exact ihown x hx h5 (hxy.symm ▸ ht) v (hxy.symm ▸ hv)

theorem State.deduct_cart (s : State) (colour : Bool) (toner : PerPlane Nat) :
    (∀ m, m - 1 ∉ (deductions colour toner).map (·.1 - 1) → (s.deduct colour toner).cart m = s.cart m) ∧
      ∀ x ∈ deductions colour toner, ∀ v, (s.cart x.1).trusted = true → (s.cart x.1).values = some v →
        ∃ w, ((s.deduct colour toner).cart x.1).values = some w ∧ w.remaining = v.remaining - x.2 ∧
          w.useCount = sat32 v.useCount 1 := by
  have hnodup : ((deductions colour toner).map (·.1 - 1)).Nodup := by
    cases colour with
    | false => exact (by decide : [3, 4].Nodup)
    | true => exact (by decide : [0, 1, 2, 3, 4].Nodup)
  have hslots : ∀ x ∈ deductions colour toner, x.1 - 1 < 5 := by
    cases colour with
    | false => simp [deductions]
    | true => simp [deductions]
  obtain ⟨hother, hown⟩ := State.deductSlots_cart (deductions colour toner) hnodup s
  rw [State.deduct_eq]
  exact ⟨hother, fun x hx v ht hv => hown x hx (hslots x hx) ht v hv⟩

end Sys2Proof.Machine

namespace Sys2Proof.Proofs

open Sys2Proof.Machine

/-- Settles O34: a demand by the impression's number sends its line or is captured; a foreign number is discarded or captured. -/
theorem engineDemandSendsLine : Obligations.EngineDemandSendsLine := by
  intro env s number p halive b
  have hb : b.alive = true := halive
  refine ⟨fun a cap i e hs hn ha hc hp => ?_, ?_⟩
  · intro line hl hband he hready n bytes position
    refine (answers_iff (c := .engineDemand env number p) nofun).mpr ?_
    have heffect : effectOf (.engineDemand env number p) (s.begin env) = b.sendLine a (cap.curves.curve.get p) p i e :=
      (effectOf_engineDemand env number p hb).trans ((State.engineEvent_own (s := b) (.inl hs) hn).trans
        ((State.takeDemand_band (s := b) ha hc hp hl hband he).trans (if_pos hready)))
    rw [show (Instr.engineDemand env number p).env = env from rfl, heffect]
    have hstate : (if allSent a position = true then PrintState.imaged else b.print.state) =
        if ∀ q ∈ planeSet a.colour, a.lines ≤ position.get q then .imaged else .imaging := by
      rw [show b.print.state = .imaging from hs]
      exact if_congr (allSent_iff a position) rfl rfl
    have htable : tableAfterLine s.print.table i e line =
        if line + 1 = e.first + e.lines then beginRead p (s.print.table.set i { e with cond := .sent, data := [] })
        else s.print.table := by
      rw [tableAfterLine, bandAt_plane hband he]
    rw [← hstate, ← htable]
    rfl
  · intro captured own
    have hcaptured : ∀ kind e, EngineEvent.code e = kind → captured kind = (b.engineProtocol number.toNat e).finish := fun kind e he => by
      rw [← he]
      rfl
    refine ⟨fun a cap hown ha hc hbad => ?_, fun c kind hc hnot => ?_⟩
    · refine (answers_iff (c := .engineDemand env number p) nofun).mpr ((hcaptured 1 .demand rfl).trans (congrArg State.finish ?_))
      refine Eq.symm ((effectOf_engineDemand env number p hb).trans ((State.engineEvent_own (s := b) hown.1 hown.2).trans
        ((State.takeDemand_bad (s := b) ha hc hbad).trans ?_)))
      rw [show b.print.number = number.toNat from hown.2]
    · have hforeign : ∀ (e : EngineEvent) (f : State → State),
          (s.print.retired = some number.toNat → b.engineEvent number.toNat e f = b) ∧
            (s.print.retired ≠ some number.toNat → b.engineEvent number.toNat e f = b.engineProtocol number.toNat e) := fun e f =>
        ⟨fun h => (State.engineEvent_foreign (s := b) hnot).trans (if_pos h),
          fun h => (State.engineEvent_foreign (s := b) hnot).trans (if_neg h)⟩
      obtain ⟨e, f, henv, hcode, heffect⟩ : ∃ e f, c.env = env ∧ EngineEvent.code e = kind ∧
          effectOf c b = b.engineEvent number.toNat e f := by
        simp only [List.mem_cons, Prod.mk.injEq, List.not_mem_nil, or_false] at hc
        rcases hc with ⟨rfl, rfl⟩ | ⟨rfl, rfl⟩ | ⟨rfl, rfl⟩
        · exact ⟨.demand, _, rfl, rfl, effectOf_engineDemand env number p hb⟩
        · exact ⟨.delivered, _, rfl, rfl, effectOf_engineOutcome env number true hb⟩
        · exact ⟨.spoiled, _, rfl, rfl, effectOf_engineOutcome env number false hb⟩
      have hc' : ∀ w, c ≠ .lossOfPower w := by
        rintro w rfl
        simp at hc
      refine ⟨fun h => (answers_iff hc').mpr ?_, fun h => (answers_iff hc').mpr ?_⟩
      · rw [henv, heffect, (hforeign e f).1 h]
        rfl
      · rw [henv, heffect, (hforeign e f).2 h]
        exact hcaptured kind e hcode

/-- Settles O36: SPOILED, an early DELIVERED and an underrun each settle the impression without a charge. -/
theorem spoiledImpressionIsFree : Obligations.SpoiledImpressionIsFree := by
  intro env s number a cap i k halive hn b himp
  have hb : b.alive = true := halive
  refine ⟨fun hs => ?_, fun hs => ⟨?_, ?_⟩⟩
  · have hanswer := (answers_iff (c := .engineOutcome env number false) (s := s) nofun).mpr rfl
    have heffect : effectOf (.engineOutcome env number false) (s.begin env) =
        (b.settlePrint .spoiled .jam .spoiled PrintCause.jam.code).pumpCore :=
      (effectOf_engineOutcome env number false hb).trans (State.engineEvent_own (s := b) hs hn)
    rw [show (Instr.engineOutcome env number false).env = env from rfl, heffect] at hanswer
    exact ⟨_, hanswer, (State.spoiled_spec himp .jam).pumped⟩
  · have hanswer := (answers_iff (c := .engineOutcome env number true) (s := s) nofun).mpr rfl
    have hearly : b.takeOutcome true = (b.engineProtocol number.toNat .delivered).spoil .protocol := by
      rw [← hn]
      exact State.takeOutcome_early (s := b) (fun h => by rw [show b.print.state = .imaging from hs] at h; cases h)
    have heffect : effectOf (.engineOutcome env number true) (s.begin env) =
        ((b.engineProtocol number.toNat .delivered).spoil .protocol).pumpCore :=
      (effectOf_engineOutcome env number true hb).trans ((State.engineEvent_own (s := b) (.inl hs) hn).trans (congrArg State.pumpCore hearly))
    rw [show (Instr.engineOutcome env number true).env = env from rfl, heffect] at hanswer
    have hnotice : (b.engineProtocol number.toNat .delivered).notice.getLsbD Cause.fault.bit = true := Cause.or_mask _ _
    exact ⟨_, hanswer, (Reaches.refl.spoil (State.within_any _)).pumpCore.notice hnotice,
      (State.spoil_spec (s := b.engineProtocol number.toNat .delivered) himp .protocol).pumped⟩
  · intro p x e hp hl hband he hcond
    have hanswer := (answers_iff (c := .engineDemand env number p) (s := s) nofun).mpr rfl
    have hdemand : b.takeDemand p = (b.spoil .underrun).pumpCore :=
      (State.takeDemand_band (s := b) himp.1 himp.2.1 hp hl hband he).trans (if_neg hcond)
    have heffect : effectOf (.engineDemand env number p) (s.begin env) = (b.spoil .underrun).pumpCore :=
      (effectOf_engineDemand env number p hb).trans ((State.engineEvent_own (s := b) (.inl hs) hn).trans hdemand)
    rw [show (Instr.engineDemand env number p).env = env from rfl, heffect] at hanswer
    exact ⟨_, hanswer, (State.spoil_spec himp .underrun).pumped⟩

/-- Settles O35, by the settlement of an impression that was imaged (`State.impression.imaged`), with DELIVERED. -/
theorem deliveredImpressionSettles : Obligations.DeliveredImpressionSettles := by
  intro env s number a cap i k halive hs hn b j n himp hn512 hrec hdam m meters one
  have hb : b.alive = true := halive
  have hanswer := (answers_iff (c := .engineOutcome env number true) (s := s) nofun).mpr rfl
  have heffect : effectOf (.engineOutcome env number true) (s.begin env) = (b.settlePrint .delivered .none .ok 0).pumpCore :=
    (effectOf_engineOutcome env number true hb).trans
      ((State.engineEvent_own (s := b) (.inr hs) hn).trans (congrArg State.pumpCore (State.takeOutcome_delivered (s := b) hs)))
  rw [show (Instr.engineOutcome env number true).env = env from rfl, heffect, State.pumpCore_frame] at hanswer
  obtain ⟨v, hended⟩ := himp.imaged (o := .delivered) (by decide) .none .ok 0 (m := m) rfl
  obtain ⟨hcharged, hframe, hclosed, -, -, hsettled, ⟨hstored, haccounts, hfaults, hzero⟩, hmeters, hcarts⟩ := hended
  generalize b.settlePrint .delivered .none .ok 0 = u at hanswer hframe hclosed hsettled hstored haccounts hfaults hzero hmeters hcarts
  obtain ⟨⟨hvfaults, hvzero⟩, hvacct⟩ := hcharged.ok hrec
  have hrecord : ∀ x, u.finish.record x = v.record x := fun x => congrArg (fun y => entryAt y x AccountRecord.vacant) hstored
  have hacct : ∀ x, u.finish.acct x = v.acct x := fun x => congrArg (fun y => entryAt y x AccountVolatile.reset) haccounts
  have hcart : ∀ x, u.finish.cart x = (v.deduct a.colour m.toner).cart x := fun x =>
    congrArg (fun y => entryAt y (x - 1) Cartridge.reset) hcarts
  have hvcart : ∀ x, v.cart x = b.cart x := fun x => by
    rw [hcharged.frame]
    rfl
  obtain ⟨hothers, hused⟩ := v.deduct_cart a.colour m.toner
  refine ⟨{ u.finish with core := u.pumpCore.core }, hanswer, ?_, hclosed, ?_, hsettled, ?_, fun hc => ?_, fun hc => ?_, fun x hx w ht hw => ?_, fun hc slot hslot => ?_, fun x hx => ?_⟩
  · have hf : u.finish.faults = b.faults := hfaults.trans hvfaults
    have hz : u.finish.zeroCaptured = b.zeroCaptured := hzero.trans hvzero
    have hmem : settledWords b.mem a.result (printResult .delivered .none b.print.number m b.print.counts) k (BitVec.ofNat 32 m.charge)
        (BitVec.ofNat 32 0) (closingWord 3 ReturnCode.ok.code b.epoch (b.printEndsJob i) false) =
        (((b.mem.putWords a.result (printResult .delivered .none number.toNat m s.print.counts)).putWord (k.address + 52)
          (BitVec.ofNat 32 m.charge)).putWord (k.address + 56) 0).putWord (k.address + 60)
            (closingWord 3 0 b.epoch (b.printEndsJob i) false) := by
      rw [settledWords, show b.print.number = number.toNat from hn, show BitVec.ofNat 32 0 = 0 from rfl]
      rfl
    rw [hmem] at hframe
    generalize Memory.putWord _ (k.address + 60) _ = M at hframe ⊢
    generalize u.pumpCore.core = core
    generalize u.finish = w at hframe hf hz
    dsimp only []
    rw [hf, hz] at hframe
    rw [hframe]
  · show u.finish.acct n = { b.acct n with reserved := (u.finish.acct n).reserved }
    rw [hacct]
    exact hvacct
  · refine (hrecord n).trans ((hcharged.charged hn512 hrec hdam).trans ?_)
    show (b.record n).charge (printCharge .delivered m) = _
    unfold AccountRecord.charge
    cases hcolour : m.colour with
    | false => simp [printCharge, one, hcolour, sat32, sat64]
    | true => simp [printCharge, one, hcolour, sat32, sat64]
  · exact hmeters.trans (if_pos hc)
  · exact hmeters.trans (if_neg (by rw [hc]; exact Bool.false_ne_true))
  · have hown := hused x hx w (by rw [hvcart]; exact ht) (by rw [hvcart]; exact hw)
    rw [← hcart] at hown
    exact hown
  · refine (hcart slot).trans ((hothers slot ?_).trans (hvcart slot))
    rw [hc]
    simp only [List.mem_cons, List.not_mem_nil, or_false] at hslot
    rcases hslot with rfl | rfl | rfl
    · exact (by decide : 0 ∉ [3, 4])
    · exact (by decide : 1 ∉ [3, 4])
    · exact (by decide : 2 ∉ [3, 4])
  · exact ⟨(hrecord x).trans (hcharged.other x hx).1, (hacct x).trans (hcharged.other x hx).2⟩

end Sys2Proof.Proofs
end

