-- ==== Sys2Proof/Proofs/Ruins.lean ====
section
/-! Slots destroyed by ticket or expiry, and a destruction that ends an impression (R110 to R113): O25. -/

namespace Sys2Proof.Machine

variable {s u v b : State} {env : Env} {k p : Ticket} {n i j x : Nat} {a : PrintArgs} {cap : PrintCapture} {h : SlotHandle}

/-! ### The checks of Destroy Slot (R112) -/

theorem destroySlotBody_bySession {session : Handle} (hjob : Handle.optOfField (k.w 3) = none)
    (hsession : Handle.optOfField (k.w 4) = some session) (hslot : (u.touchSession session).slotOf (SlotHandle.ofWord (k.w 2)) = some n)
    (haccount : (u.touchSession session).sessionAccount session = some x)
    (howner : ((u.touchSession session).slot (SlotHandle.ofWord (k.w 2)).idx).owner = some x) :
    destroySlotBody k u = ((((u.touchSession session).destroySlot (SlotHandle.ofWord (k.w 2)).idx).close 0 .ok
      ((u.touchSession session).slot (SlotHandle.ofWord (k.w 2)).idx).state.code
      ((u.touchSession session).slot (SlotHandle.ofWord (k.w 2)).idx).page)).pumpCore := by
  have hrefusal : (u.touchSession session).destroyRefusal (SlotHandle.ofWord (k.w 2)) none (some session) = none := by
    simp [State.destroyRefusal, firstRefusal, refuseIf, hslot, State.sessionRefusal, haccount, howner]
  unfold destroySlotBody
  rw [hjob, hsession]
  show (match (u.touchSession session).destroyRefusal (SlotHandle.ofWord (k.w 2)) none (some session) with
    | some r => (u.touchSession session).refuse 0 r
    | none => _) = _
  rw [hrefusal]
  rfl

theorem destroySlotBody_byJob {job : Handle} (hjob : Handle.optOfField (k.w 3) = some job)
    (hsession : Handle.optOfField (k.w 4) = none) (hslot : (u.touchJob job).slotOf (SlotHandle.ofWord (k.w 2)) = some n)
    (hj : (u.touchJob job).jobOf job = some i) (hending : ((u.touchJob job).job i).state ≠ .ending)
    (howner : ((u.touchJob job).slot (SlotHandle.ofWord (k.w 2)).idx).owner = some ((u.touchJob job).job i).account) :
    destroySlotBody k u = ((((u.touchJob job).destroySlot (SlotHandle.ofWord (k.w 2)).idx).close 0 .ok
      ((u.touchJob job).slot (SlotHandle.ofWord (k.w 2)).idx).state.code
      ((u.touchJob job).slot (SlotHandle.ofWord (k.w 2)).idx).page)).pumpCore := by
  obtain rfl := (State.jobOf_idx hj).1
  have hjobOk : (u.touchJob job).jobRefusal job false = none := by
    unfold State.jobRefusal
    rw [hj]
    cases hs : ((u.touchJob job).job job.idx).state with
    | ending => exact absurd hs hending
    | free | opened | quotaStopped => simp [hs]
  have hrefusal : (u.touchJob job).destroyRefusal (SlotHandle.ofWord (k.w 2)) (some job) none = none := by
    simp [State.destroyRefusal, firstRefusal, refuseIf, hslot, hjobOk, State.ownerRefusal, State.jobAccount, howner]
  unfold destroySlotBody
  rw [hjob, hsession]
  show (match (u.touchJob job).destroyRefusal (SlotHandle.ofWord (k.w 2)) (some job) none with
    | some r => (u.touchJob job).refuse 0 r
    | none => _) = _
  rw [hrefusal]

/-! ### A destruction that ends an impression (R113) -/

theorem State.settlePrint_env (himp : s.impression a cap i k) (o : PrintOutcome) (cause : PrintCause) (code : ReturnCode) (w14 : Nat) :
    (s.settlePrint o cause code w14).env = s.env := by
  obtain ⟨v, x, -, -, hsteps⟩ := s.settlePrint_steps himp o cause code w14
  rw [hsteps]
  rfl

theorem State.spoil_env (himp : s.impression a cap i k) (cause : PrintCause) : (s.spoil cause).env = s.env := by
  rw [State.spoil_eq]
  have haborted : (s.aborted true { s.core with printQueue := [], band := s.core.orphaned .print }).impression a cap i k := himp
  exact State.settlePrint_env haborted _ _ _ _

/-- The paths rest, so that a destruction leaves the scan path alone. -/
theorem State.pathsLost_idle (hs : s.scan.state = .idle) : (s.pageSlotLost h).cipherSlotLost h = s := by
  have hpage : s.pageSlotLost h = s := if_neg fun hc => by rw [hs] at hc; cases hc.1
  rw [hpage]
  exact if_neg fun hc => by rw [hs] at hc; cases hc.1

/-- R113: the first print band under a destroyed slot ends the impression. -/
theorem State.destroySlot_band (hband : (s.bandsAtCore { idx := i, gen := (s.slot i).gen }).head? = some x) :
    s.destroySlot i = (((s.slotGone { idx := i, gen := (s.slot i).gen }).bandFails x .cipher).pageSlotLost
      { idx := i, gen := (s.slot i).gen }).cipherSlotLost { idx := i, gen := (s.slot i).gen } := by
  obtain ⟨rest, hrest⟩ := List.head?_eq_some_iff.mp hband
  unfold State.destroySlot
  dsimp only []
  rw [State.printBandsUnder_eq, hrest, State.wipeSlot_eq]
  rfl

/-- The state in which a ticket has closed, beside the ticket of another lane that closed before it. -/
theorem State.answered_beside {lane m : Fin 4} (hne : m ≠ lane) {L : Vector Lane 4} {y z : Lane} {code : ReturnCode} {w13 w14 : Nat}
    {ended truncated : Bool} (hy : { y with service := none } = { L[lane] with service := none })
    (hv : v.lanes = (L.set lane y).set m z) :
    v.answered lane k code w13 w14 ended truncated =
      State.answered { v.finish with lanes := L.set m z } lane k code w13 w14 ended truncated := by
  have hlanes : v.lanes.set lane { v.lane lane with service := none } =
      (L.set m z).set lane { (L.set m z)[lane] with service := none } := by
    have hmn : m.val ≠ lane.val := fun e => hne (Fin.ext e)
    rw [State.lane, hv, Vector.get_eq_getElem]
    ext q hq
    simp only [Vector.getElem_set]
    by_cases hl : lane.val = q
    · subst hl
      simpa [hmn] using hy
    · simp [hl]
  unfold State.answered
  rw [hlanes]
  rfl

/-- What an impression's end leaves does not depend on the other lanes. -/
theorem NotImaged.setLanes {L : Vector Lane 4} {code : ReturnCode} {cause : PrintCause} {w14 : Nat} {t : State}
    (hn : NotImaged (s.setLanes L) t a i k code cause w14) :
    NotImaged s { t with lanes := s.lanes.set 2 { s.lane 2 with service := none } } a i k code cause w14 := by
  obtain ⟨hframe, hrest⟩ := hn
  refine ⟨?_, hrest⟩
  have hepoch : (s.setLanes L).epoch = s.epoch := rfl
  have hends : (s.setLanes L).printEndsJob i = s.printEndsJob i := rfl
  dsimp only [State.setLanes_mem] at hframe ⊢
  rw [hepoch, hends] at hframe
  generalize Memory.putWord _ (k.address + 60) _ = M at hframe ⊢
  rw [hframe]
  rfl

theorem SpoiledEnd.setLanes {L : Vector Lane 4} {cause : PrintCause} {abort : Bool} {t : State}
    (hn : SpoiledEnd (s.setLanes L) t a cap i k cause abort) :
    SpoiledEnd s { t with lanes := s.lanes.set 2 { s.lane 2 with service := none } } a cap i k cause abort := by
  obtain ⟨hframe, hrest⟩ := hn
  refine ⟨?_, hrest⟩
  have hepoch : (s.setLanes L).epoch = s.epoch := rfl
  have hends : (s.setLanes L).printEndsJob i = s.printEndsJob i := rfl
  dsimp only [State.setLanes_mem, State.setLanes_print] at hframe ⊢
  rw [hepoch, hends] at hframe
  generalize meter cap a.colour a.pixels s.print.sums s.print.counts false = m at hframe ⊢
  generalize Memory.putWord _ (k.address + 60) _ = M at hframe ⊢
  rw [hframe]
  rfl

/-- R112: Destroy Slot by the owner's session closes, beside the ticket of another lane that the destruction has ended. -/
theorem destroySlot_beside {session : Handle} {m : Fin 4} {z : Lane} (hserves : Serves env s .destroySlot k)
    (hjob : Handle.optOfField (k.w 3) = none) (hsession : Handle.optOfField (k.w 4) = some session)
    (hb : b = (s.begin env).touchSession session) (hh : h = SlotHandle.ofWord (k.w 2)) (hslot : b.slotOf h = some n)
    (haccount : b.sessionAccount session = some x) (howner : (b.slot h.idx).owner = some x) (hm : m ≠ 0)
    (hv : (b.setLanes ((s.begin env).beginService 0).lanes).destroySlot h.idx = v)
    (hl : v.lanes = ((s.begin env).beginService 0).lanes.set m z) (he : v.env = env) :
    Answers (.destroySlot env) s
      { State.answered { v.finish with lanes := b.lanes.set m z } 0 k .ok (b.slot h.idx).state.code (b.slot h.idx).page with
        core := v.pumpCore.core } := by
  subst hb hh
  have hs : ((s.begin env).lane 0).service = some k := (State.serving_some hserves.1).2.1
  have hbody : destroySlotBody k ((s.begin env).beginService 0) = (v.close 0 .ok
      (((s.begin env).touchSession session).slot (SlotHandle.ofWord (k.w 2)).idx).state.code
      (((s.begin env).touchSession session).slot (SlotHandle.ofWord (k.w 2)).idx).page).pumpCore := by
    rw [← hv]
    generalize hL : ((s.begin env).beginService 0).lanes = L
    have hbody := destroySlotBody_bySession (k := k) (u := (s.begin env).setLanes L) (n := n) (x := x) hjob hsession
    rw [State.setLanes_touchSession] at hbody
    rw [State.beginService_setLanes, hL]
    exact hbody hslot haccount howner
  have hbegun : ((s.begin env).beginService 0).lanes =
      (s.begin env).lanes.set 0 { (s.begin env).lane 0 with service := some { k with begun := true } } := by
    rw [State.beginService_some hs]
    rfl
  have hlane : v.lane 0 = ((s.begin env).beginService 0).lane 0 := by
    have h0 : m.val ≠ 0 := fun e => hm (Fin.ext e)
    rw [State.lane, hl]
    simp [Vector.get_eq_getElem, h0, State.lane]
  have hbeside : v.lanes = ((s.begin env).lanes.set 0 { (s.begin env).lane 0 with service := some { k with begun := true } }).set m z := by
    rw [hl, hbegun]
  rw [show ((s.begin env).touchSession session).lanes = (s.begin env).lanes from State.touchSession_lanes ..]
  exact (hserves.closes_lane 0 hlane he hbody).trans
    (congrArg (fun y : State => Host.Outcome.next { y with core := v.pumpCore.core }) (State.answered_beside (y := { (s.begin env).lane 0 with service := some { k with begun := true } }) hm rfl hbeside))

end Sys2Proof.Machine

namespace Sys2Proof.Machine

variable {s b : State} {h : SlotHandle}

/-- The core keeps a band that is under another slot's key. -/
theorem State.noWorkUnder.core (hn : b.noWorkUnder h) : (b.slotGone h).core = b.core := by
  have hband : b.core.band.filter (fun x => x.slot ≠ h) = b.core.band := by
    cases hc : b.core.band with
    | none => rfl
    | some c => simp [Option.filter, hn.1 c hc]
  unfold State.slotGone
  dsimp only []
  rw [hband]

theorem State.noWorkUnder.settled (hn : b.noWorkUnder h) (hs : s.coreSettled) (hc : b.core = s.core) : (b.slotGone h).coreSettled := by
  unfold State.coreSettled
  rw [hn.core, hc]
  exact hs

theorem State.slotGone_setLanes (b : State) (h : SlotHandle) (L : Vector Lane 4) : (b.setLanes L).slotGone h = (b.slotGone h).setLanes L := by
  unfold State.slotGone
  cases hj : (b.slot h.idx).job with
  | none =>
    rw [show ((b.setLanes L).slot h.idx).job = none from hj]
    rfl
  | some j =>
    rw [show ((b.setLanes L).slot h.idx).job = some j from hj]
    rfl

/-- R111: the destruction of the slot a handle names, with no work under it. -/
theorem State.destroySlot_handle (hslot : b.slotOf h = some h.idx) (hn : b.noWorkUnder h) : b.destroySlot h.idx = b.slotGone h := by
  have hh : h = { idx := h.idx, gen := (b.slot h.idx).gen } := by
    obtain ⟨-, -, -, hgen⟩ := State.slotOf_some hslot
    rw [hgen]
  have hd := State.destroySlot_unworked (s := b) (i := h.idx) (hh ▸ hn)
  rw [← hh] at hd
  exact hd

/-- R113: the destruction of the slot a handle names, with a print band under it and the scan path at rest. -/
theorem State.destroySlot_impression {x : Nat} (hslot : b.slotOf h = some h.idx) (hband : (b.bandsAtCore h).head? = some x)
    (hv : ((b.slotGone h).bandFails x .cipher).scan.state = .idle) : b.destroySlot h.idx = (b.slotGone h).bandFails x .cipher := by
  have hh : h = { idx := h.idx, gen := (b.slot h.idx).gen } := by
    obtain ⟨-, -, -, hgen⟩ := State.slotOf_some hslot
    rw [hgen]
  have hd := State.destroySlot_band (s := b) (i := h.idx) (x := x) (hh ▸ hband)
  rw [← hh] at hd
  exact hd.trans (State.pathsLost_idle hv)

theorem State.slotGone_lanes (b : State) (h : SlotHandle) :
    (b.slotGone h).lanes = b.lanes ∧ (b.slotGone h).env = b.env ∧ (b.slotGone h).scan = b.scan ∧ (b.slotGone h).print = b.print := by
  unfold State.slotGone
  cases (b.slot h.idx).job with
  | none => exact ⟨rfl, rfl, rfl, rfl⟩
  | some j => exact ⟨rfl, rfl, rfl, rfl⟩

theorem State.beginService_lane_other {lane m : Fin 4} (hm : m ≠ lane) : (s.beginService lane).lane m = s.lane m := by
  have hne : lane.val ≠ m.val := fun e => hm (Fin.ext e.symm)
  cases hs : (s.lane lane).service with
  | none => simp [State.beginService, hs]
  | some k =>
    rw [State.beginService_some hs]
    simp [State.lane, State.putLane, Vector.get_eq_getElem, hne]

end Sys2Proof.Machine

namespace Sys2Proof.Proofs

open Sys2Proof.Machine

/-- Settles O25: a slot with no work under it goes alone; a print band under it ends the impression, beside the ticket. -/
theorem slotsAreDestroyed : Obligations.SlotsAreDestroyed := by
  refine ⟨fun env s k i n hcore => ⟨fun session hserves hjob hsession hslot haccount howner hwork => ?_,
    fun job hserves hjob hsession hslot hj hending hn howner hwork => ?_, fun e hup hlawful hheld he hwork => ?_⟩,
    fun env s k p session n x j a cap hserves hjob hsession hslot haccount howner hscan hband himp => ?_⟩
  · have hgone := State.slotGone_lanes ((s.begin env).touchSession session) (SlotHandle.ofWord (k.w 2))
    refine hserves.answers_pumped 0 (v := ((s.begin env).touchSession session).slotGone (SlotHandle.ofWord (k.w 2)))
      (hgone.1.trans (State.touchSession_lanes ..)) (hgone.2.1.trans (State.touchSession_env ..))
      (hwork.settled hcore (by rw [State.touchSession_frame]; rfl)) fun L => ?_
    have hbody := destroySlotBody_bySession (k := k) (u := (s.begin env).setLanes L) (n := (SlotHandle.ofWord (k.w 2)).idx) (x := n) hjob hsession
    rw [State.setLanes_touchSession] at hbody
    refine (hbody hslot haccount howner).trans ?_
    rw [State.destroySlot_handle (b := ((s.begin env).touchSession session).setLanes L) hslot hwork, State.slotGone_setLanes]
    rfl
  · have hgone := State.slotGone_lanes ((s.begin env).touchJob job) (SlotHandle.ofWord (k.w 2))
    refine hserves.answers_pumped 0 (v := ((s.begin env).touchJob job).slotGone (SlotHandle.ofWord (k.w 2)))
      (hgone.1.trans (State.touchJob_lanes ..)) (hgone.2.1.trans (State.touchJob_env ..))
      (hwork.settled hcore (by rw [State.touchJob_frame]; rfl)) fun L => ?_
    have hbody := destroySlotBody_byJob (k := k) (u := (s.begin env).setLanes L) (n := (SlotHandle.ofWord (k.w 2)).idx) (i := i) hjob hsession
    rw [State.setLanes_touchJob] at hbody
    refine (hbody hslot hj hending (howner.trans (congrArg some hn.symm))).trans ?_
    rw [State.destroySlot_handle (b := ((s.begin env).touchJob job).setLanes L) hslot hwork, State.slotGone_setLanes]
    rfl
  · have hupb : (s.begin env).up = true := hup
    have hdue : (s.begin env).slotExpired i = true ↔ e ≤ (s.begin env).dev.clock := by
      unfold State.slotExpired
      rw [show ((s.begin env).slot i).state = .held from hheld, show ((s.begin env).slot i).expiry = some e from he]
      simp
    have hdestroyed := State.destroySlot_unattached (s := s.begin env) hwork ((hlawful i).unattached hheld)
    intro b
    split
    · rename_i hle
      refine (answers_iff (c := .heldSlotExpiry env i) nofun).mpr ?_
      show _ = State.finish (if b.up ∧ b.slotExpired i then ((b.destroySlot i).raise .timer).pumpCore else b)
      rw [if_pos ⟨hupb, hdue.mpr hle⟩, hdestroyed, State.pumpCore_settled]
      · rfl
      · exact hcore
    · rename_i hnot
      exact (answers_iff (c := .heldSlotExpiry env i) nofun).mpr
        (congrArg State.finish (if_neg fun hc => hnot (hdue.mp hc.2))).symm
  · generalize hb : (s.begin env).touchSession session = b at hslot haccount howner hscan hband himp ⊢
    generalize hh : SlotHandle.ofWord (k.w 2) = h at hslot howner hband himp ⊢
    have hframe := State.touchSession_frame (s.begin env) session
    have hbenv : b.env = env := by rw [← hb, hframe]; rfl
    have hblanes : b.lanes = (s.begin env).lanes := by rw [← hb, hframe]
    obtain ⟨L, hL⟩ : ∃ L, L = ((s.begin env).beginService 0).lanes := ⟨_, rfl⟩
    have hL2 : ((b.slotGone h).setLanes L).lane 2 = (b.slotGone h).lane 2 := by
      rw [State.lane, State.lane, (State.slotGone_lanes b h).1, hblanes, hL]
      exact State.beginService_lane_other (by decide)
    have himp' : ((b.slotGone h).setLanes L).impression a cap j p := by
      obtain ⟨hargs, hcap, hj, hend, hserv, hbad⟩ := himp
      exact ⟨hargs, hcap, hj, hend, (congrArg Lane.service hL2).trans hserv, hbad⟩
    have hends : ∀ v : State, ((b.slotGone h).setLanes L).bandFails x .cipher = v → v.finish.scan = (b.slotGone h).scan →
        v.finish.lanes = L.set 2 { ((b.slotGone h).setLanes L).lane 2 with service := none } → v.env = env →
        ∃ t, Answers (.destroySlot env) s t ∧ t = { State.answered
          { v.finish with lanes := (b.slotGone h).lanes.set 2 { (b.slotGone h).lane 2 with service := none } } 0 k .ok
            (b.slot h.idx).state.code (b.slot h.idx).page with core := t.core } := by
      intro v hv hvscan hvlanes hvenv
      have hdestroyed : (b.setLanes ((s.begin env).beginService 0).lanes).destroySlot h.idx = v := by
        rw [← hL, State.destroySlot_impression (b := b.setLanes L) hslot hband, State.slotGone_setLanes, hv]
        rw [State.slotGone_setLanes, hv]
        exact (congrArg ScanPath.state hvscan).trans ((congrArg ScanPath.state (State.slotGone_lanes b h).2.2.1).trans hscan)
      have hanswer := destroySlot_beside (m := 2) hserves hjob hsession hb.symm hh.symm hslot haccount howner (by decide) hdestroyed
        (z := { ((b.slotGone h).setLanes L).lane 2 with service := none }) (hvlanes.trans (by rw [hL]; rfl)) hvenv
      rw [hL2, ← (State.slotGone_lanes b h).1] at hanswer
      exact ⟨_, hanswer, rfl⟩
    have hgenv : ((b.slotGone h).setLanes L).env = env := (State.slotGone_lanes b h).2.1.trans hbenv
    have hgprint : ((b.slotGone h).setLanes L).print = b.print := (State.slotGone_lanes b h).2.2.2
    refine ⟨fun hprep hsums hcounts => ?_, fun himaging => ?_⟩
    · have hn := State.notImaged_spec himp' ((congrArg PrintPath.sums hgprint).trans hsums) ((congrArg PrintPath.counts hgprint).trans hcounts) .cipherFail .cipher x
      obtain ⟨t, hanswer, ht⟩ := hends (((b.slotGone h).setLanes L).notImaged .cipherFail .cipher x) (by
        unfold State.bandFails
        rw [show ((b.slotGone h).setLanes L).print.state = .preparing from (congrArg PrintPath.state hgprint).trans hprep]
        rfl) ((congrArg State.scan hn.1).trans rfl) ((congrArg State.lanes hn.1).trans rfl) ((State.settlePrint_env himp' ..).trans hgenv)
      exact ⟨t, _, hanswer, hn.setLanes, ht⟩
    · have hn := State.spoil_spec himp' .cipher
      obtain ⟨t, hanswer, ht⟩ := hends (((b.slotGone h).setLanes L).spoil .cipher) (by
        unfold State.bandFails
        rw [show ((b.slotGone h).setLanes L).print.state = .imaging from (congrArg PrintPath.state hgprint).trans himaging]) ((congrArg State.scan hn.1).trans rfl)
          ((congrArg State.lanes hn.1).trans rfl) ((State.spoil_env himp' .cipher).trans hgenv)
      exact ⟨t, _, hanswer, hn.setLanes, ht⟩

end Sys2Proof.Proofs
end

