-- ==== Sys2Proof/Proofs/PrintBands.lean ====
section
/-! The read of a print band and its end in the core (R67 to R70, R73, R84): O32. -/

namespace Sys2Proof.Machine

variable {s b : State} {env : Env} {k : Ticket} {n i j : Nat} {a : PrintArgs} {cap : PrintCapture} {e : BandEntry} {h : SlotHandle}

/-! ### Masks of slots -/

theorem neededSlots_sublist (colour : Bool) (p : Nat → Bool) : (neededSlots colour).filter p ∈ [1, 2, 3, 4, 5].sublists := by
  refine List.mem_sublists.mpr (List.filter_sublist.trans ?_)
  cases colour with
  | false => exact (by decide : List.Sublist [4, 5] [1, 2, 3, 4, 5])
  | true => exact List.Sublist.refl _

/-- Figure 54: the mask of distinct slots is the sum of their bits. -/
theorem slotMask_sum {l : List Nat} (hl : l ∈ [1, 2, 3, 4, 5].sublists) : slotMask l = (l.map fun m => 2 ^ (m - 1)).sum := by
  revert l
  decide

/-! ### What a band's end leaves -/

theorem effectOf_bandReadDone (env : Env) (hup : b.up = true) : effectOf (.bandReadDone env i) b = b.takeBandRead i := if_pos hup

theorem State.takeBandRead_reads (hs : s.print.state = .preparing ∨ s.print.state = .imaging) (ha : s.print.args = some a)
    (he : s.print.table[i]? = some e) (hr : e.cond = .reading) (hc : s.atCore i = false) :
    s.takeBandRead i = (s.bandRead a i e).pumpCore := by
  unfold State.takeBandRead
  rw [if_pos hs, ha, he]
  exact if_pos ⟨hr, hc⟩

/-- An impression's end discards its band table. -/
theorem NotImaged.table {table : List BandEntry} {code : ReturnCode} {cause : PrintCause} {w14 : Nat} {t : State}
    (hn : NotImaged { s with print := { s.print with table := table } } t a i k code cause w14) : NotImaged s t a i k code cause w14 := by
  obtain ⟨hframe, hrest⟩ := hn
  refine ⟨?_, hrest⟩
  have hepoch : ({ s with print := { s.print with table := table } } : State).epoch = s.epoch := rfl
  have hends : ({ s with print := { s.print with table := table } } : State).printEndsJob i = s.printEndsJob i := rfl
  dsimp only [] at hframe ⊢
  rw [hepoch, hends] at hframe
  generalize Memory.putWord _ (k.address + 60) _ = M at hframe ⊢
  rw [hframe]
  rfl

theorem State.bandFails_preparing (himp : s.impression a cap j k) (hs : s.print.state = .preparing) (hsums : s.print.sums = ⟨0, 0, 0, 0⟩)
    (hcounts : s.print.counts = ⟨0, 0, 0, 0⟩) (i : Nat) (cause : PrintCause) :
    NotImaged s (s.bandFails i cause).finish a j k (if cause = .memory then .memoryFault else .cipherFail) cause i := by
  unfold State.bandFails
  rw [hs]
  exact State.notImaged_spec himp hsums hcounts _ cause i

theorem State.bandFails_imaging (himp : s.impression a cap j k) (hs : s.print.state = .imaging) (i : Nat) (cause : PrintCause) :
    SpoiledEnd s (s.bandFails i cause).finish a cap j k cause true := by
  unfold State.bandFails
  rw [hs]
  exact State.spoil_spec himp cause

/-- A refused band's read or decipherment ends the impression, whose work leaves the core. -/
theorem answers_bandFails {c : Instr} (hc : ∀ w, c ≠ .lossOfPower w) {v : State} (himp : v.impression a cap j k) {cause : PrintCause}
    (heffect : effectOf c (s.begin c.env) = (v.bandFails i cause).pumpCore) :
    (v.print.state = .preparing → v.print.sums = ⟨0, 0, 0, 0⟩ → v.print.counts = ⟨0, 0, 0, 0⟩ →
      ∃ t, Answers c s t ∧ NotImaged v t a j k (if cause = .memory then .memoryFault else .cipherFail) cause i) ∧
    (v.print.state = .imaging → ∃ t, Answers c s t ∧ SpoiledEnd v t a cap j k cause true) := by
  have hanswer := (answers_iff (s := s) hc).mpr rfl
  rw [heffect] at hanswer
  exact ⟨fun hs hsums hcounts => ⟨_, hanswer, (State.bandFails_preparing himp hs hsums hcounts i cause).pumped⟩,
    fun hs => ⟨_, hanswer, (State.bandFails_imaging himp hs i cause).pumped⟩⟩

/-- R84: a core that can take a band takes the one presented, with none waiting before it. -/
theorem State.presentPrint_pumped (hs : s.coreSettled) (i : Nat) :
    (s.presentPrint i).pumpCore = { s with core :=
      if s.core.canTake = true then
        { s.core with band := some { path := .print, idx := i, slot := s.bandSlot i, orphan := false }, lastServed := .print }
      else { s.core with printQueue := s.core.printQueue ++ [i] } } := by
  by_cases hc : s.core.canTake = true
  · obtain ⟨hq, hw⟩ := hs hc
    unfold State.pumpCore
    have hnext : (s.presentPrint i).core.nextPath = some .print := by
      simp [State.presentPrint, Core.nextPath, hq, hw]
    rw [if_pos (show (s.presentPrint i).core.canTake = true from hc), hnext, if_pos hc]
    simp only [State.presentPrint, hq, List.nil_append]
    rfl
  · rw [if_neg hc]
    exact if_neg hc

end Sys2Proof.Machine

namespace Sys2Proof.Proofs

open Sys2Proof.Machine

/-- Settles O32, by what the read's end leaves in each of its cases. -/
theorem bandReadDone : Obligations.BandReadDone := by
  refine ⟨fun env s a i e data hup ha he hr henc hat hcore => ?_, fun env s a i e data hup hs ha he hr henc hat => ?_,
    fun env s a cap i j e k address hup he hr hat => ?_⟩
  · intro b table bad hread
    have hb : b.up = true := hup
    have hready : (s.print.state = .preparing ∨ s.print.state = .imaging) → effectOf (.bandReadDone env i) b = (b.bandReady i e data).pumpCore :=
      fun hs => by
        rw [effectOf_bandReadDone env hb, State.takeBandRead_reads (s := b) hs ha he hr hat]
        unfold State.bandRead
        rw [hread]
        exact congrArg State.pumpCore (if_neg (by rw [henc]; exact Bool.false_ne_true))
    have hbandReady : b.bandReady i e data = if s.print.state = .preparing ∧ rowZeroReady a.colour table = true then
        State.imagingStart { b with print := { b.print with table } } a else { b with print := { b.print with table } } := by
      unfold State.bandReady
      dsimp only []
      rw [show b.print.args = some a from ha]
      rfl
    rw [hbandReady] at hready
    have hpump : ∀ v : State, v.core = b.core → v.pumpCore = v := fun v hv => State.pumpCore_settled (by
      unfold State.coreSettled
      rw [hv]
      exact hcore)
    have hanswer := (answers_iff (c := .bandReadDone env i) (s := s) nofun).mpr rfl
    rw [show (Instr.bandReadDone env i).env = env from rfl] at hanswer
    refine ⟨fun hs => ?_, fun hs hrow => ?_, fun hs hrow hbad => ?_, fun cap j k hs hrow hbad himp hsums hcounts => ?_⟩
    · rw [hready (.inr hs), if_neg (fun h => by rw [hs] at h; cases h.1), hpump] at hanswer
      · exact hanswer
      · rfl
    · rw [hready (.inl hs), if_neg (fun h => by rw [hrow] at h; cases h.2), hpump] at hanswer
      · exact hanswer
      · rfl
    · intro number
      have hstart : State.imagingStart { b with print := { b.print with table } } a =
          { b with print := { b.print with table, state := .imaging, number }
                   engineOut := [EngineMessage.start number a.colour a.pixels a.lines] } := if_pos hbad
      rw [hready (.inl hs), if_pos ⟨hs, hrow⟩, hstart, hpump] at hanswer
      · exact hanswer
      · rfl
    · have hmask : slotMask bad = (bad.map (fun m => 2 ^ (m - 1))).sum := slotMask_sum (neededSlots_sublist a.colour _)
      have hstart : State.imagingStart { b with print := { b.print with table } } a =
          State.notImaged { b with print := { b.print with table } } .supply .supply (slotMask bad) := if_neg hbad
      rw [hmask] at hstart
      generalize (bad.map (fun m => 2 ^ (m - 1))).sum = mask at hstart ⊢
      rw [hready (.inl hs), if_pos ⟨hs, hrow⟩, hstart] at hanswer
      have himp' : State.impression { b with print := { b.print with table } } a cap j k := himp
      exact ⟨_, hanswer, (State.notImaged_spec himp' hsums hcounts .supply .supply mask).pumped.table⟩
  · intro b hread
    have hb : b.up = true := hup
    have heffect : effectOf (.bandReadDone env i) b = (b.bandRead a i e).pumpCore := by
      rw [effectOf_bandReadDone env hb, State.takeBandRead_reads (s := b) hs ha he hr hat]
    have hbandRead : b.bandRead a i e = if b.keyGranted e.slot a.job .print = true then
        State.presentPrint { b with print := { b.print with table := b.print.table.set i { e with data } } } i
      else b.bandFails i .cipher := by
      unfold State.bandRead
      rw [hread]
      exact if_pos henc
    rw [hbandRead] at heffect
    refine ⟨fun hkey hcore => ?_, fun cap j k hkey himp => ?_⟩
    · have hanswer := (answers_iff (c := .bandReadDone env i) (s := s) nofun).mpr rfl
      rw [show (Instr.bandReadDone env i).env = env from rfl, heffect, if_pos hkey,
        State.presentPrint_pumped (s := { b with print := { b.print with table := b.print.table.set i { e with data } } }) hcore] at hanswer
      have hi : i < b.print.table.length := (List.getElem?_eq_some_iff.mp he).1
      have hslot : State.bandSlot { b with print := { b.print with table := b.print.table.set i { e with data } } } i = e.slot := by
        unfold State.bandSlot
        dsimp only []
        rw [List.getElem?_set_self hi]
      rw [hslot] at hanswer
      exact hanswer
    · rw [if_neg (by rw [hkey]; exact Bool.false_ne_true)] at heffect
      exact answers_bandFails (c := .bandReadDone env i) nofun himp heffect
  · intro b c himp hread
    have hb : b.up = true := hup
    have hfails : b.bandRead a i e = c.bandFails i .memory := by
      unfold State.bandRead
      rw [hread]
    have hends : s.print.state = .preparing ∨ s.print.state = .imaging →
        effectOf (.bandReadDone env i) b = (c.bandFails i .memory).pumpCore := fun hs => by
      rw [effectOf_bandReadDone env hb, State.takeBandRead_reads (s := b) hs himp.1 he hr hat, hfails]
    have himp' : c.impression a cap j k := himp
    exact ⟨fun hs => (answers_bandFails (c := .bandReadDone env i) nofun himp' (hends (.inl hs))).1 hs,
      fun hs => (answers_bandFails (c := .bandReadDone env i) nofun himp' (hends (.inr hs))).2 hs⟩

end Sys2Proof.Proofs
end

