-- ==== Sys2Proof/Proofs/Pages.lean ====
section
/-! The settlement and the failure of a scan page, and the end of a cipher ticket (R92, R93, R97, R99). -/

namespace Sys2Proof.Machine

variable {s u v b t : State} {env : Env} {k : Ticket} {n i j : Nat} {a : ScanArgs} {code : ReturnCode} {charge : Nat}

/-! ### A scan page settled (R92, R93) -/

/-- R92: the lifetime meter of scanned pages, of a page that is charged. -/
def State.scanCounted (v : State) (code : ReturnCode) : State :=
  if code = .ok then v.writeMeters { v.stored.meters with scanned := sat64 v.stored.meters.scanned 1 } else v

/-- R30: what the settlement of a scan page charges to its account. -/
def scanCharge (code : ReturnCode) (charge : Nat) : AccountCharge := { charge, scanned := if code = .ok then 1 else 0 }

theorem State.scanCounted_frame (v : State) (code : ReturnCode) : ∃ meters metersOk writes, v.scanCounted code =
    { v with stored := { v.stored with meters := meters, metersOk := metersOk }, afterWrites := writes } := by
  unfold State.scanCounted
  split
  · exact ⟨_, _, _, rfl⟩
  · exact ⟨_, _, _, rfl⟩

/-- The settlement of a page, step by step: its account charged, its meter counted, its job's end completed, its ticket closed. -/
theorem State.settleScan_steps (h : s.scanPage a i k) (hs : s.scan.state ≠ .ciphering) (code : ReturnCode) (charge : Nat) :
    ∃ v x, PageCharged s v i .scan false (scanCharge code charge) ∧ EndCompleted (v.scanCounted code) x i ∧
      s.settleScan code charge = State.scanIdle { x.answered 1 k code s.scan.page s.scan.written (s.scanEndsJob i) s.scan.truncation with
        env := s.env } := by
  obtain ⟨hargs, hj, hlane, hfree⟩ := h
  have hv := State.settleHold_charged hj .scan false (scanCharge code charge)
  have hcharge : (if decide (code = .ok) = true then 1 else 0) = (scanCharge code charge).scanned := by
    simp [scanCharge]
  unfold State.settleScan
  rw [hargs]
  dsimp only []
  rw [hcharge]
  change PageCharged s (s.settleHold a.job .scan false { charge, scanned := (scanCharge code charge).scanned }) i _ _ _ at hv
  generalize s.settleHold a.job .scan false { charge, scanned := (scanCharge code charge).scanned } = v at hv ⊢
  have hw : (if decide (code = .ok) = true then v.writeMeters { v.stored.meters with scanned := sat64 v.stored.meters.scanned 1 } else v) =
      v.scanCounted code := by
    unfold State.scanCounted
    simp only [decide_eq_true_eq]
  rw [hw]
  obtain ⟨meters, metersOk, writes, hr⟩ := v.scanCounted_frame code
  generalize hweq : v.scanCounted code = r at hr ⊢
  have hrjob : r.job i = (s.job i).pageSettled .scan charge false := by
    refine Eq.trans ?_ ((hv.jobs i).trans (if_pos rfl))
    rw [hr]
    rfl
  have hrscan : r.scan = s.scan := by rw [hr, hv.frame]
  have hrlanes : r.lanes = s.lanes := by rw [hr, hv.frame]
  have hrenv : r.env = s.env := by rw [hr, hv.frame]
  have hstate : (r.job i).state = (s.job i).state := by rw [hrjob]; exact (Job.settled_state ..).1
  have hgen : (r.job i).gen = (s.job i).gen := by rw [hrjob]; rfl
  have hrj : r.jobOf a.job = some i := State.jobOf_congr hj hgen hstate
  obtain ⟨hx, hflag⟩ := State.completeEnd_completed hrj
    (fun h => by rw [hrjob] at h ⊢; exact Job.pageSettled_free _ _ _ _ h) (fun _ => by rw [hrscan]; exact hs)
  rw [hrjob, (Job.pageSettled_complete _ _ _).2] at hflag
  rw [hflag, hrscan]
  generalize (r.completeEnd a.job).1 = x at hx ⊢
  refine ⟨v, x, hv, by rw [hweq]; exact hx, ?_⟩
  obtain ⟨slots, jobs, band, hframe⟩ := hx.frame
  have hxenv : x.env = s.env := by
    rw [hframe]
    exact hrenv
  have hxlane : (x.lane 1).service = some k := by
    rw [State.lane, show x.lanes = s.lanes by rw [hframe]; exact hrlanes]
    exact hlane
  have hxfree : x.closesFreely k := by
    unfold State.closesFreely
    rw [hxenv]
    exact hfree
  rw [State.close_ok hxlane hxfree, hxenv]
  rfl

/-- The band of the core after the scan path has discarded what it holds. -/
theorem Core.orphaned_scan (c : Core) {x : CoreBand} (h : c.orphaned .scan = some x) (hp : x.path = .scan) : x.orphan = true := by
  unfold Core.orphaned at h
  cases hb : c.band with
  | none =>
    rw [hb] at h
    cases h
  | some y =>
    rw [hb] at h
    dsimp only [] at h
    split at h
    · rw [← Option.some.inj h]
    · rename_i hy
      exact absurd (Option.some.inj h ▸ hp) hy

/-- R92, R93: the ticket answered and the path at rest. -/
theorem State.scanEnded_eq (x : State) (code : ReturnCode) (w13 w14 : Nat) (e tr : Bool) (env : Env) :
    (State.scanIdle { x.answered 1 k code w13 w14 e tr with env := env }).finish =
      { x with
        mem := ((x.mem.putWord (k.address + 52) (BitVec.ofNat 32 w13)).putWord (k.address + 56) (BitVec.ofNat 32 w14)).putWord
          (k.address + 60) (closingWord 3 code.code x.epoch e tr)
        notice := x.notice ||| (Cause.closed 1).mask, lanes := x.lanes.set 1 { x.lane 1 with service := none }
        core := { x.core with scanWaiting := none, band := x.core.orphaned .scan }, scan := { ScanPath.reset with drain := x.scan.drain }
        env := .calm } := rfl

/-- What the settlement of a page leaves, with the charge of its account. -/
structure PageEnds (s v t : State) (i : Nat) (k : Ticket) (code : ReturnCode) (charge : Nat) : Prop where
  charged : PageCharged s v i .scan false (scanCharge code charge)
  ended : PageEnded s t i k code s.scan.drain charge
  stored : t.stored = (v.scanCounted code).stored
  faults : t.faults = v.faults
  accounts : t.accounts = v.accounts

theorem State.settleScan_ends (h : s.scanPage a i k) (hs : s.scan.state ≠ .ciphering) (code : ReturnCode) (charge : Nat) :
    ∃ v, PageEnds s v (s.settleScan code charge).finish i k code charge := by
  obtain ⟨v, x, hv, hx, hsteps⟩ := State.settleScan_steps h hs code charge
  rw [hsteps, State.scanEnded_eq]
  obtain ⟨meters, metersOk, writes, hcounted⟩ := v.scanCounted_frame code
  have hsettled : ∀ t : State, t.jobs = x.jobs ∧ t.accounts = x.accounts ∧ t.slots = x.slots →
      s.jobSettled t i (s.job i).scanHold charge (s.scanEndsJob i) (fun j =>
        { j with scanHold := 0, scanFlight := false, total := min (j.total + charge) (2 ^ 32 - 1) }) := fun t ht => by
    have hends : ((s.job i).pageSettled .scan charge false).complete = s.scanEndsJob i := (Job.pageSettled_complete ..).2
    rw [← hends]
    exact State.jobSettled_of hv ⟨{ v.stored with meters := meters, metersOk := metersOk }, v.carts, v.link, v.mem, v.notice, writes,
      v.faults, hcounted⟩ hx ht fun j => rfl
  obtain ⟨slots, jobs, band, hframe⟩ := hx.frame
  obtain ⟨ST, hST⟩ : ∃ ST, ST = (v.scanCounted code).stored := ⟨_, rfl⟩
  have he : x = { s with
      stored := ST, accounts := v.accounts, jobs := jobs, sessions := v.sessions, hold := v.hold, slots := slots, faults := v.faults
      notice := v.notice, zeroCaptured := v.zeroCaptured, afterWrites := x.afterWrites, core := { s.core with band := band } } := by
    rw [hST, hframe, hcounted, hv.frame]
  have hepoch : x.epoch = s.epoch := by
    rw [he]
    rfl
  rw [hepoch]
  generalize x.afterWrites = W at he
  rw [he] at hsettled ⊢
  generalize hM : Memory.putWord _ (k.address + 60) _ = M
  have hM' : ((s.mem.putWord (k.address + 52) (BitVec.ofNat 32 s.scan.page)).putWord (k.address + 56)
      (BitVec.ofNat 32 s.scan.written)).putWord (k.address + 60)
      (closingWord 3 code.code s.epoch (s.scanEndsJob i) s.scan.truncation) = M := hM
  refine ⟨v, hv, ⟨?_, Cause.or_mask v.notice (.closed 1), rfl, fun c hc hp => Core.orphaned_scan { s.core with band := band } hc hp,
    hsettled _ ⟨rfl, rfl, rfl⟩⟩, hST, rfl, rfl⟩
  rw [hM']
  rfl


/-- R93: a page that has failed is settled without a charge. -/
theorem State.settleScan_failed (h : s.scanPage a i k) (hs : s.scan.state ≠ .ciphering) (hc : code ≠ .ok) :
    PageFailed s (s.settleScan code 0).finish i k code s.scan.drain := by
  obtain ⟨v, hcharged, hended, hstored, hfaults, haccounts⟩ := State.settleScan_ends h hs code 0
  generalize (s.settleScan code 0).finish = t at hended hstored hfaults haccounts ⊢
  have hcounted : v.scanCounted code = v := if_neg hc
  rw [hcounted] at hstored
  refine ⟨hended, ?_, ?_, fun hok => hfaults.trans (hcharged.ok hok).1.1⟩
  · rw [hstored, hcharged.frame]
  · show (entryAt t.stored.accounts _ AccountRecord.vacant).used ≤ _
    rw [hstored]
    exact hcharged.used rfl

/-- R92: a page all of whose bands are written is settled with its charge. -/
theorem State.settleScan_settled (h : s.scanPage a i k) (hs : s.scan.state ≠ .ciphering) (hcharge : charge = s.scan.capture.getD 0) :
    PageSettled s (s.settleScan .ok charge).finish i k := by
  obtain ⟨v, hcharged, hended, hstored, hfaults, haccounts⟩ := State.settleScan_ends h hs .ok charge
  subst hcharge
  generalize (s.settleScan .ok (s.scan.capture.getD 0)).finish = t at hended hstored hfaults haccounts ⊢
  have hrecord : ∀ x, t.record x = v.record x := fun x =>
    congrArg (fun y => entryAt y x AccountRecord.vacant) ((congrArg Stored.accounts hstored).trans rfl)
  refine ⟨hended, ?_, fun hn hok hd => ?_, fun x hx => (hrecord x).trans (hcharged.other x hx).1⟩
  · rw [hstored]
    have hcounted : v.scanCounted .ok = v.writeMeters { v.stored.meters with scanned := sat64 v.stored.meters.scanned 1 } := if_pos rfl
    rw [hcounted, hcharged.frame]
    rfl
  · have hr := (hrecord _).trans (hcharged.charged hn hok hd)
    exact ⟨hfaults.trans (hcharged.ok hok).1.1, congrArg AccountRecord.used hr, congrArg AccountRecord.scanned hr⟩

/-! ### What does not depend on the path's other fields -/

/-- A page's end depends on the path's page number, its bands written and its truncation mark, and on nothing of the core. -/
theorem PageEnded.of_paths {σ : ScanPath} {κ : Core} {drain : Bool} (hpage : σ.page = s.scan.page) (hwritten : σ.written = s.scan.written)
    (htr : σ.truncation = s.scan.truncation) (h : PageEnded { s with scan := σ, core := κ } t i k code drain charge) :
    PageEnded s t i k code drain charge := by
  obtain ⟨hframe, hrest⟩ := h
  refine ⟨?_, hrest⟩
  have hepoch : ({ s with scan := σ, core := κ } : State).epoch = s.epoch := rfl
  have hends : ({ s with scan := σ, core := κ } : State).scanEndsJob i = s.scanEndsJob i := rfl
  dsimp only [] at hframe ⊢
  rw [hepoch, hends, hpage, hwritten, htr] at hframe
  generalize Memory.putWord _ (k.address + 60) _ = M at hframe ⊢
  rw [hframe]
  rfl

theorem PageFailed.of_paths {σ : ScanPath} {κ : Core} {drain : Bool} (hpage : σ.page = s.scan.page) (hwritten : σ.written = s.scan.written)
    (htr : σ.truncation = s.scan.truncation) (h : PageFailed { s with scan := σ, core := κ } t i k code drain) :
    PageFailed s t i k code drain :=
  ⟨h.1.of_paths hpage hwritten htr, h.2⟩

theorem PageEnded.with_core {κ : Core} {drain : Bool} (h : PageEnded s t i k code drain charge) (hw : κ.scanWaiting = none)
    (hb : ∀ x, κ.band = some x → x.path = .scan → x.orphan = true) : PageEnded s { t with core := κ } i k code drain charge := by
  obtain ⟨hframe, hclosed, -, -, hsettled⟩ := h
  refine ⟨?_, hclosed, hw, hb, hsettled⟩
  dsimp only []
  rw [hframe]

/-- A core with no band of the scan path waiting takes none. -/
theorem State.pumpCore_scan (hw : s.core.scanWaiting = none) (hb : ∀ c, s.core.band = some c → c.path = .scan → c.orphan = true) :
    s.pumpCore.core.scanWaiting = none ∧ (∀ c, s.pumpCore.core.band = some c → c.path = .scan → c.orphan = true) ∧
      s.pumpCore.core.count = s.core.count := by
  rcases s.pumpCore_cases with ⟨-, x, rest, -, h⟩ | ⟨-, x, hcons, -⟩ | ⟨-, h⟩
  · rw [h]
    refine ⟨hw, fun c hc hp => ?_, rfl⟩
    rw [← Option.some.inj hc] at hp
    cases hp
  · rw [hw] at hcons
    cases hcons
  · rw [h]
    exact ⟨hw, hb, rfl⟩

theorem PageEnded.pumped {drain : Bool} (h : PageEnded s u.finish i k code drain charge) :
    PageEnded s u.pumpCore.finish i k code drain charge := by
  obtain ⟨hw, hb, -⟩ := State.pumpCore_scan (s := u) h.2.2.1 h.2.2.2.1
  rw [State.pumpCore_frame]
  exact h.with_core hw hb

theorem PageFailed.pumped {drain : Bool} (h : PageFailed s u.finish i k code drain) : PageFailed s u.pumpCore.finish i k code drain := by
  have hended := h.1.pumped
  rw [State.pumpCore_frame] at hended ⊢
  exact ⟨hended, h.2⟩

theorem PageSettled.pumped (h : PageSettled s u.finish i k) : PageSettled s u.pumpCore.finish i k := by
  have hended := h.1.pumped
  rw [State.pumpCore_frame] at hended ⊢
  exact ⟨hended, h.2⟩

/-! ### The failure of a page (R93, R94) -/

/-- R93, R94: the page marked as failed, its bands not WRITING erased, its work out of the core. -/
def State.pageFailing (s : State) (code : ReturnCode) (drain : Bool) : State :=
  { s with
    scan := { s.scan with
      failed := some code, drain, internal := s.scan.internal.map (fun b => if b.isWriting then b else .erased) }
    core := { s.core with scanWaiting := none, band := s.core.orphaned .scan } }

theorem State.failPage_eq (hs : s.scan.state = .scanning) (hf : s.scan.failed = none) (code : ReturnCode) (ended : Bool) :
    s.failPage code ended = if s.writingBuffer.isNone = true then
        (s.pageFailing code (s.scan.drain || !(s.scan.pageEnd || ended))).settleScan code 0
      else s.pageFailing code (s.scan.drain || !(s.scan.pageEnd || ended)) := by
  have hwriting : (s.pageFailing code (s.scan.drain || !(s.scan.pageEnd || ended))).writingBuffer = s.writingBuffer :=
    s.eraseUnwritten_writingBuffer
  rw [← hwriting]
  exact if_pos ⟨hs, hf⟩

/-- R93: with no band WRITING the failed page is settled at once. -/
theorem State.failPage_failed (h : s.scanPage a i k) (hs : s.scan.state = .scanning) (hf : s.scan.failed = none)
    (hw : s.writingBuffer = none) (hc : code ≠ .ok) (ended : Bool) :
    PageFailed s (s.failPage code ended).finish i k code (s.scan.drain || !(s.scan.pageEnd || ended)) := by
  rw [State.failPage_eq hs hf, if_pos (by rw [hw]; rfl)]
  have hpage : (s.pageFailing code (s.scan.drain || !(s.scan.pageEnd || ended))).scanPage a i k := h
  have hscan : (s.pageFailing code (s.scan.drain || !(s.scan.pageEnd || ended))).scan.state ≠ .ciphering := fun hcip => by
    have hcip' : s.scan.state = .ciphering := hcip
    rw [hs] at hcip'
    cases hcip'
  exact (State.settleScan_failed hpage hscan hc).of_paths rfl rfl rfl


/-! ### The end of a cipher ticket (R97, R99) -/

theorem State.closeCipher_eq (hw : s.scan.work ≠ .page) (code : ReturnCode) :
    s.closeCipher code = (s.close 1 code (if s.scan.work = .encipher then s.scan.page else s.scan.written)
      (if s.scan.work = .decipher ∧ code = .ok then 0 else s.scan.written)).scanIdle := by
  unfold State.closeCipher
  cases hwork : s.scan.work with
  | page => exact absurd hwork hw
  | encipher => rfl
  | decipher =>
    have hcode : (if (ScanWork.decipher = .decipher ∧ code = .ok) then 0 else s.scan.written) = if code = .ok then 0 else s.scan.written :=
      if_congr (and_iff_right rfl) rfl rfl
    rw [hcode]
    rfl

/-- R97, R99: the ticket of lane 1 closes with what its work counts. -/
theorem State.closeCipher_ended (hl : (s.lane 1).service = some k) (hfree : s.closesFreely k) (hw : s.scan.work ≠ .page)
    (code : ReturnCode) : CipherEnded s (s.closeCipher code).finish k code := by
  rw [State.closeCipher_eq hw, State.close_ok hl hfree]
  exact ⟨rfl, rfl, fun c hc hp => Core.orphaned_scan s.core hc hp, rfl⟩

/-- A cipher ticket's end depends on the path's work, page number, bands written and drain mark, and on the core's count. -/
theorem CipherEnded.of_paths {σ : ScanPath} {κ : Core} (hwork : σ.work = s.scan.work) (hpage : σ.page = s.scan.page)
    (hwritten : σ.written = s.scan.written) (hdrain : σ.drain = s.scan.drain) (hcount : κ.count = s.core.count)
    (h : CipherEnded { s with scan := σ, core := κ } t k code) : CipherEnded s t k code := by
  obtain ⟨hframe, hwait, hband, hc⟩ := h
  refine ⟨?_, hwait, hband, hc.trans hcount⟩
  dsimp only [] at hframe ⊢
  rw [hwork, hpage, hwritten, hdrain] at hframe
  generalize (if s.scan.work = .encipher then s.scan.page else s.scan.written) = w13 at hframe ⊢
  generalize (if s.scan.work = .decipher ∧ code = .ok then 0 else s.scan.written) = w14 at hframe ⊢
  unfold State.answered at hframe ⊢
  have hepoch : ({ s with scan := σ, core := κ } : State).epoch = s.epoch := rfl
  rw [hepoch] at hframe
  dsimp only [] at hframe ⊢
  generalize Memory.putWord _ (k.address + 60) _ = M at hframe ⊢
  rw [hframe]
  rfl

theorem CipherEnded.with_core {κ : Core} (h : CipherEnded s t k code) (hw : κ.scanWaiting = none)
    (hb : ∀ x, κ.band = some x → x.path = .scan → x.orphan = true) (hc : κ.count = t.core.count) :
    CipherEnded s { t with core := κ } k code := by
  obtain ⟨hframe, -, -, hcount⟩ := h
  refine ⟨?_, hw, hb, hc.trans hcount⟩
  generalize State.answered _ _ _ _ _ _ = x at hframe ⊢
  dsimp only []
  rw [hframe]

theorem CipherEnded.pumped (h : CipherEnded s u.finish k code) : CipherEnded s u.pumpCore.finish k code := by
  obtain ⟨hwait, hband, hcount⟩ := State.pumpCore_scan (s := u) h.2.1 h.2.2.1
  rw [State.pumpCore_frame]
  exact h.with_core hwait hband hcount

theorem State.failCipher_eq (hs : s.scan.state = .ciphering) (hf : s.scan.failed = none) (code : ReturnCode) :
    s.failCipher code = if s.writingBuffer.isNone = true then (s.pageFailing code s.scan.drain).closeCipher code
      else s.pageFailing code s.scan.drain := by
  have hwriting : (s.pageFailing code s.scan.drain).writingBuffer = s.writingBuffer := s.eraseUnwritten_writingBuffer
  rw [← hwriting]
  exact if_pos ⟨hs, hf⟩

theorem State.pageFailing_buffer (s : State) (code : ReturnCode) (drain : Bool) (i : Nat) :
    (s.pageFailing code drain).buffer i = if (s.buffer i).isWriting = true then s.buffer i else .erased :=
  s.eraseUnwritten_buffer i

/-- R97, R99: the first failure of a cipher ticket. -/
theorem State.failCipher_fails (hl : (s.lane 1).service = some k) (hfree : s.closesFreely k) (hw : s.scan.work ≠ .page)
    (hs : s.scan.state = .ciphering) (hf : s.scan.failed = none) (code : ReturnCode) : CipherFails s (s.failCipher code).finish k code := by
  rw [State.failCipher_eq hs hf]
  refine ⟨fun hnone => ?_, fun hsome => ?_⟩
  · rw [if_pos (by rw [hnone]; rfl)]
    have hended := State.closeCipher_ended (s := s.pageFailing code s.scan.drain) hl hfree hw code
    exact hended.of_paths rfl rfl rfl rfl rfl
  · rw [if_neg (by cases h : s.writingBuffer with | none => rw [h] at hsome; cases hsome | some i => exact Bool.false_ne_true)]
    exact ⟨rfl, fun i _ => s.pageFailing_buffer code s.scan.drain i, rfl, fun c hc hp => Core.orphaned_scan s.core hc hp, rfl⟩

theorem CipherFails.with_core {κ : Core} (h : CipherFails s t k code) (hw : κ.scanWaiting = none)
    (hb : ∀ x, κ.band = some x → x.path = .scan → x.orphan = true) (hc : κ.count = t.core.count) :
    CipherFails s { t with core := κ } k code := by
  refine ⟨fun hnone => (h.1 hnone).with_core hw hb hc, fun hsome => ?_⟩
  obtain ⟨hframe, hbuffers, -, -, hcount⟩ := h.2 hsome
  refine ⟨?_, hbuffers, hw, hb, hc.trans hcount⟩
  dsimp only []
  rw [hframe]

theorem CipherFails.pumped (h : CipherFails s u.finish k code) : CipherFails s u.pumpCore.finish k code := by
  have hpath : u.core.scanWaiting = none ∧ ∀ c, u.core.band = some c → c.path = .scan → c.orphan = true := by
    cases hw : s.writingBuffer with
    | none => exact ⟨(h.1 hw).2.1, (h.1 hw).2.2.1⟩
    | some i =>
      obtain ⟨-, -, hwait, hband, -⟩ := h.2 (by rw [hw]; rfl)
      exact ⟨hwait, hband⟩
  obtain ⟨hwait, hband, hcount⟩ := State.pumpCore_scan (s := u) hpath.1 hpath.2
  rw [State.pumpCore_frame]
  exact h.with_core hwait hband hcount

end Sys2Proof.Machine
end

