-- ==== Sys2Proof/Proofs/BandEnds.lean ====
section
/-! The end of a band in the core and of a source read (R68, R83, R84, R90, R97, R99): O33, O42. -/

namespace Sys2Proof.Machine

variable {s u v b t : State} {env : Env} {k : Ticket} {n i j : Nat} {code : ReturnCode}

/-! ### The two internal buffers -/

theorem lowest_none_iff {α : Type} {n : Nat} {v : Vector α n} {p : α → Bool} (d : α) :
    lowest v p = none ↔ ∀ i < n, p (entryAt v i d) = false := by
  refine ⟨fun h i hi => lowest_none h hi d, fun h => ?_⟩
  rw [lowest, List.findIdx?_eq_none_iff]
  intro x hx
  obtain ⟨i, hi, rfl⟩ := List.getElem_of_mem hx
  have hn : i < n := by simpa using hi
  simpa [entryAt, hn] using h i hn

/-- The only entry that passes a test is the lowest. -/
theorem lowest_only {α : Type} {n : Nat} {v : Vector α n} {p : α → Bool} {i : Nat} (d : α) (hi : i < n)
    (hp : p (entryAt v i d) = true) (hother : ∀ j < n, j ≠ i → p (entryAt v j d) = false) : lowest v p = some i :=
  lowest_eq d hi hp fun j hj => hother j (Nat.lt_trans hj hi) (Nat.ne_of_lt hj)

/-- A buffer other than i is the other one. -/
theorem other_buffer (hi : i < 2) (hj : j < 2) (h : j ≠ i) : j = 1 - i := by omega

theorem State.putBuffer_same (hi : i < 2) (x : Buffer) : (s.putBuffer i x).buffer i = x := by
  rw [State.putBuffer_buffer, if_pos ⟨rfl, hi⟩]

theorem State.putBuffer_other (h : i ≠ j) (x : Buffer) : (s.putBuffer i x).buffer j = s.buffer j := by
  rw [State.putBuffer_buffer, if_neg fun hc => h hc.1]

/-- R90: a band that is whole for its write goes to be written, or waits while the other is being written. -/
theorem State.startWrite_ciphered (hi : i < 2) (x : Buffer) (ho : (s.buffer (1 - i)).cond ≠ .ciphered) :
    (s.putBuffer i { x with cond := .ciphered }).startWrite =
      s.putBuffer i { x with cond := if (s.buffer (1 - i)).isWriting = true then .ciphered else .writingData } := by
  have hne : i ≠ 1 - i := by omega
  have hsame := State.putBuffer_same (s := s) hi { x with cond := .ciphered }
  have hother := State.putBuffer_other (s := s) hne { x with cond := .ciphered }
  unfold State.startWrite
  by_cases hw : (s.buffer (1 - i)).isWriting = true
  · have hsome : (s.putBuffer i { x with cond := .ciphered }).writingBuffer = some (1 - i) := by
      refine lowest_only .erased (by omega) (by rw [← State.buffer, hother]; exact hw) fun j hj hji => ?_
      obtain rfl : j = i := by omega
      rw [← State.buffer, hsame]
      rfl
    rw [hsome, if_pos hw]
    rfl
  · have hnone : (s.putBuffer i { x with cond := .ciphered }).writingBuffer = none := by
      refine (lowest_none_iff .erased).mpr fun j hj => ?_
      by_cases hji : j = i
      · subst hji
        rw [← State.buffer, hsame]
        rfl
      · obtain rfl := other_buffer hi hj hji
        rw [← State.buffer, hother]
        exact Bool.eq_false_iff.mpr hw
    have hciphered : (s.putBuffer i { x with cond := .ciphered }).bufferIn .ciphered = some i := by
      refine lowest_only .erased hi (by rw [← State.buffer, hsame]; rfl) fun j hj hji => ?_
      obtain rfl := other_buffer hi hj hji
      rw [← State.buffer, hother]
      exact decide_eq_false ho
    rw [hnone, hciphered, if_neg hw]
    show State.putBuffer _ i { (s.putBuffer i { x with cond := .ciphered }).buffer i with cond := .writingData } = _
    rw [hsame]
    unfold State.putBuffer
    dsimp only []
    rw [putAt_putAt]

/-! ### The core's count (R174) -/

/-- With nothing waiting for it the core takes nothing. -/
theorem State.pumpCore_unasked (hp : s.core.printQueue = []) (hs : s.core.scanWaiting = none) : s.pumpCore = s :=
  State.pumpCore_settled fun _ => ⟨hp, hs⟩

theorem State.pumpCore_count (s : State) : s.pumpCore.core.count = s.core.count := by
  rcases s.pumpCore_cases with ⟨-, x, rest, -, h⟩ | ⟨-, x, -, h⟩ | ⟨-, h⟩
  · rw [h]
  · rw [h]
  · rw [h]

theorem State.settlePrint_count {a : PrintArgs} {cap : PrintCapture} (himp : s.impression a cap i k) (o : PrintOutcome)
    (cause : PrintCause) (code : ReturnCode) (w14 : Nat) : (s.settlePrint o cause code w14).core.count = s.core.count := by
  obtain ⟨v, x, hv, hx, hsteps⟩ := s.settlePrint_steps himp o cause code w14
  obtain ⟨slots, jobs, band, hframe⟩ := hx.frame
  obtain ⟨known, knownOk, meters, metersOk, carts, link, notice, writes, hsupplied⟩ :=
    v.supplied_frame a.colour o (s.metered a cap o)
  have hcount : x.core.count = s.core.count := by
    rw [hframe, State.recorded, hsupplied, hv.frame]
  rw [hsteps]
  exact hcount

theorem State.bandFails_count {a : PrintArgs} {cap : PrintCapture} (himp : s.impression a cap i k) (n : Nat) (cause : PrintCause) :
    (s.bandFails n cause).core.count = s.core.count := by
  unfold State.bandFails
  cases s.print.state with
  | idle | waiting | imaged => rfl
  | preparing => exact State.settlePrint_count himp ..
  | imaging =>
    have haborted : (s.aborted true { s.core with printQueue := [], band := s.core.orphaned .print }).impression a cap i k := himp
    show (s.spoil cause).core.count = s.core.count
    rw [State.spoil_eq]
    exact State.settlePrint_count haborted ..

/-- R68: in IMAGING a band becomes READY, and that is all. -/
theorem State.bandReady_imaging (hs : s.print.state = .imaging) (i : Nat) (e : BandEntry) (plain : List Byte) :
    s.bandReady i e plain = { s with print := { s.print with table := s.print.table.set i { e with cond := .ready, data := plain } } } := by
  unfold State.bandReady
  dsimp only []
  split
  · rfl
  · exact if_neg fun h => by
      rw [hs] at h
      cases h.1

/-! ### The end of a band in the core -/

/-- R84, R174: the core free, one band more counted. -/
def State.coreCounted (b : State) : State := { b with core := { b.core with band := none, count := b.core.count + 1 } }

theorem effectOf_cipherBandDone (env : Env) {c : CoreBand} (hup : b.up = true) (hc : b.core.band = some c) (ho : c.orphan = false) :
    effectOf (.cipherBandDone env) b = (match c.path with
      | .print => b.coreCounted.printBandCiphered c.idx
      | .scan =>
        match b.scan.args with
        | none => b.coreCounted
        | some a => b.coreCounted.scanBandCiphered c.idx a).pumpCore := by
  unfold effectOf
  rw [hc]
  show b.whenUp (fun b => b.coreBandEnds c) = _
  rw [b.whenUp_of hup]
  unfold State.coreBandEnds
  rw [ho]
  rfl

/-! ### A band presented to the core by the scan path (R84) -/

theorem State.scanSlot_of {a : ScanArgs} (ha : s.scan.args = some a) : s.scanSlot = a.slot := by
  unfold State.scanSlot
  rw [ha]

/-- R84: a core that can take a band takes the one presented; otherwise it waits, unless one waits already. -/
theorem State.presentScan_pumped (hs : s.coreSettled) (hother : ∀ m < 2, m ≠ i → (s.buffer m).cond ≠ .ciphering) :
    (s.presentScan i).pumpCore = { s with core :=
      if s.core.canTake = true then
        { s.core with band := some { path := .scan, idx := i, slot := s.scanSlot, orphan := false }, lastServed := .scan }
      else { s.core with scanWaiting := s.core.scanWaiting.or (some i) } } := by
  by_cases hc : s.core.canTake = true
  · obtain ⟨hq, hw⟩ := hs hc
    have hnext : (s.presentScan i).core.nextPath = some .scan := by
      simp [State.presentScan, Core.nextPath, hq, hw]
    have hlast : (s.presentScan i).nextScanBand i = none := by
      refine (lowest_none_iff .erased).mpr fun m hm => ?_
      show decide ((entryAt (putAt s.scan.internal i .erased) m .erased).cond = .ciphering) = false
      rw [entryAt_putAt]
      split
      · rfl
      · rename_i h
        exact decide_eq_false (hother m hm fun hmi => h ⟨hmi.symm, by omega⟩)
    unfold State.pumpCore
    rw [if_pos (show (s.presentScan i).core.canTake = true from hc), hnext, if_pos hc]
    simp only [State.presentScan, hw, Option.none_or]
    rw [show ({ s with core := { s.core with scanWaiting := some i } } : State).nextScanBand i = none by
      rw [← hlast]
      rfl]
    rw [← hw]
    rfl
  · rw [if_neg hc]
    exact if_neg hc

/-! ### The end of a source read (R97, R99) -/

theorem effectOf_sourceReadDone (env : Env) (hup : b.up = true) : effectOf (.sourceReadDone env) b = b.takeSourceRead := b.whenUp_of hup _

/-- R98 check 4, R105: nothing refuses a band's key. -/
theorem State.sourceRefusal_none {a : ScanArgs}
    (h : (s.scan.work = .encipher ∧ s.keyGranted a.slot a.job .encipher = true) ∨
      (s.scan.work = .decipher ∧ s.keyGranted a.slot a.job .decipher = true ∧ s.authorised a.job a.slot = true)) :
    s.sourceRefusal a = none := by
  unfold State.sourceRefusal
  rcases h with ⟨hw, hk⟩ | ⟨hw, hk, ha⟩
  · rw [hw]
    exact if_pos hk
  · rw [hw]
    exact (if_pos hk).trans (if_pos ha)

theorem State.takeSourceRead_reads {a : ScanArgs} (ha : s.scan.args = some a) (hfill : s.bufferIn .filling = some i)
    (hs : s.scan.state = .ciphering) (hf : s.scan.failed = none) : s.takeSourceRead = (s.sourceRead i a).pumpCore := by
  unfold State.takeSourceRead
  rw [ha, hfill]
  exact if_pos ⟨hs, hf⟩

/-- R97, R99: the band read is presented, and the next source begins to be read in the other buffer. -/
theorem State.presentScan_reads {x : Buffer} (hx : x.cond = .ciphering) (h1 : (s.buffer 1).cond = .free)
    (hb : s.scan.begun < s.scan.sources.length) :
    ((s.putBuffer 0 x).presentScan 0).startSourceRead = State.presentScan { s with scan := { s.scan with
      internal := putAt (putAt s.scan.internal 0 x) 1 { cond := .filling, band := s.scan.begun, lines := 0, data := [] }
      begun := s.scan.begun + 1 } } 0 := by
  have hbuffer0 : ((s.putBuffer 0 x).presentScan 0).buffer 0 = x := State.putBuffer_same (by decide) x
  have hbuffer1 : ((s.putBuffer 0 x).presentScan 0).buffer 1 = s.buffer 1 := State.putBuffer_other (by decide) x
  refine State.startSourceRead_begins ((lowest_none_iff .erased).mpr fun m hm => ?_) hb
    (lowest_only (i := 1) .erased (by decide) ?_ fun m hm hne => ?_)
  · rw [← State.buffer]
    rcases (by omega : m = 0 ∨ m = 1) with rfl | rfl
    · rw [hbuffer0, hx]
      rfl
    · rw [hbuffer1, h1]
      rfl
  · rw [← State.buffer, hbuffer1, h1]
    rfl
  · obtain rfl : m = 0 := by omega
    rw [← State.buffer, hbuffer0, hx]
    rfl

end Sys2Proof.Machine

namespace Sys2Proof.Proofs

open Sys2Proof.Machine

/-- Settles O33, by the path of the band that ends and the comparison of its tag. -/
theorem cipherBandDone : Obligations.CipherBandDone := by
  refine ⟨fun env s a c e plain hup hc hpath horphan hs ha he hq hw hmatch => ?_,
    fun env s a cap c e j k hup hc hpath horphan he hmismatch => ?_,
    fun env s a c hup hc hpath horphan hidx ha hcond => ?_⟩
  · intro b
    have hb : b.up = true := hup
    have hanswer := (answers_iff (c := .cipherBandDone env) (s := s) nofun).mpr rfl
    have hready : b.coreCounted.printBandCiphered c.idx =
        { b.coreCounted with print := { b.print with table := b.print.table.set c.idx { e with cond := .ready, data := plain } } } := by
      unfold State.printBandCiphered
      rw [show b.coreCounted.print.table[c.idx]? = some e from he]
      dsimp only []
      rw [show decipherBand (b.coreCounted.slotKey e.slot) (nonceOf e.slot e.page e.index) e.data = some plain from hmatch]
      exact State.bandReady_imaging (s := b.coreCounted) hs c.idx e plain
    rw [show (Instr.cipherBandDone env).env = env from rfl, effectOf_cipherBandDone env hb hc horphan, hpath] at hanswer
    dsimp only [] at hanswer
    rw [hready, State.pumpCore_unasked] at hanswer
    · exact hanswer
    · exact hq
    · exact hw
  · intro b counted himp
    have hb : b.up = true := hup
    have hfails : b.coreCounted.printBandCiphered c.idx = counted.bandFails c.idx .cipher := by
      unfold State.printBandCiphered
      rw [show b.coreCounted.print.table[c.idx]? = some e from he]
      dsimp only []
      rw [show decipherBand (b.coreCounted.slotKey e.slot) (nonceOf e.slot e.page e.index) e.data = none from hmismatch]
      rfl
    have heffect : effectOf (.cipherBandDone env) b = (counted.bandFails c.idx .cipher).pumpCore := by
      rw [effectOf_cipherBandDone env hb hc horphan, hpath]
      exact congrArg State.pumpCore hfails
    have himp' : counted.impression a cap j k := himp
    have hcount : (counted.bandFails c.idx .cipher).pumpCore.finish.core.count = b.core.count + 1 :=
      (State.pumpCore_count _).trans (State.bandFails_count himp' c.idx .cipher)
    have hanswer := (answers_iff (c := .cipherBandDone env) (s := s) nofun).mpr rfl
    rw [show (Instr.cipherBandDone env).env = env from rfl, heffect] at hanswer
    exact ⟨fun hs hsums hcounts => ⟨_, hanswer, hcount, (State.bandFails_preparing himp' hs hsums hcounts c.idx .cipher).pumped⟩,
      fun hs => ⟨_, hanswer, hcount, (State.bandFails_imaging himp' hs c.idx .cipher).pumped⟩⟩
  · intro b x other nonce key counted out
    have hb : b.up = true := hup
    have heffect : effectOf (.cipherBandDone env) b = (counted.scanBandCiphered c.idx a).pumpCore := by
      rw [effectOf_cipherBandDone env hb hc horphan, hpath]
      dsimp only []
      rw [show b.scan.args = some a from ha]
      rfl
    have hanswer := (answers_iff (c := .cipherBandDone env) (s := s) nofun).mpr rfl
    rw [show (Instr.cipherBandDone env).env = env from rfl, heffect] at hanswer
    refine ⟨fun hother hq hw => ?_, fun hwork hs hf src k hsrc hmismatch hl hfree => ?_⟩
    · have hout : ∀ data, ((counted.putBuffer c.idx { x with cond := .ciphered, data }).startWrite).pumpCore.finish = out data := fun data => by
        rw [State.startWrite_ciphered (s := counted) hidx { x with data } hother, State.pumpCore_unasked]
        · rfl
        · exact hq
        · exact hw
      refine ⟨fun hwork => ?_, fun hwork src plain hsrc hmatch => ?_⟩
      · have hciphered : counted.scanBandCiphered c.idx a =
            (counted.putBuffer c.idx { x with cond := .ciphered, data := encipherBand key (nonce x.band) x.data }).startWrite := by
          unfold State.scanBandCiphered
          dsimp only []
          cases hk : counted.scan.work with
          | decipher => exact absurd hk hwork
          | page => rfl
          | encipher => rfl
        rw [hciphered, hout] at hanswer
        exact hanswer
      · have hciphered : counted.scanBandCiphered c.idx a =
            (counted.putBuffer c.idx { x with cond := .ciphered, data := plain }).startWrite := by
          unfold State.scanBandCiphered
          dsimp only []
          rw [show counted.scan.work = .decipher from hwork]
          dsimp only []
          rw [show counted.scan.sources[(counted.buffer c.idx).band]? = some src from hsrc]
          show (match decipherBand key (nonce src.extra) x.data with
            | none => counted.failCipher .cipherFail
            | some p => (counted.putBuffer c.idx { counted.buffer c.idx with cond := .ciphered, data := p }).startWrite) = _
          rw [hmatch]
          rfl
        rw [hciphered, hout] at hanswer
        exact hanswer
    · have hfails : counted.scanBandCiphered c.idx a = counted.failCipher .cipherFail := by
        unfold State.scanBandCiphered
        dsimp only []
        rw [show counted.scan.work = .decipher from hwork]
        dsimp only []
        rw [show counted.scan.sources[(counted.buffer c.idx).band]? = some src from hsrc]
        show (match decipherBand key (nonce src.extra) x.data with
          | none => counted.failCipher .cipherFail
          | some p => (counted.putBuffer c.idx { counted.buffer c.idx with cond := .ciphered, data := p }).startWrite) = _
        rw [hmismatch]
      rw [hfails] at hanswer
      have hwork' : counted.scan.work ≠ .page := fun h => by
        rw [show counted.scan.work = .decipher from hwork] at h
        cases h
      exact ⟨_, hanswer, (State.failCipher_fails (s := counted) hl hfree hwork' hs hf .cipherFail).pumped⟩

/-- Settles O42, by what the read gives and what the key request answers. -/
theorem sourceReadPresentsBand : Obligations.SourceReadPresentsBand := by
  refine ⟨fun env s a src data hup hs hf ha h0 h1 hsrc hbegun hq hw hband hper hres hcount => ?_,
    fun env s a src i k hup hs hwork hf ha hfill hsrc => ?_⟩
  · intro b hread hgranted lines
    have hb : b.up = true := hup
    have hfill : b.bufferIn .filling = some 0 := by
      refine lowest_only .erased (by decide) (decide_eq_true h0) fun m hm hne => ?_
      obtain rfl : m = 1 := by omega
      refine decide_eq_false fun h => ?_
      rw [show entryAt b.scan.internal 1 .erased = s.buffer 1 from rfl, h1] at h
      cases h
    have hpresented : b.sourceRead 0 a = State.presentScan { b with scan := { b.scan with
        internal := putAt (putAt b.scan.internal 0 { s.buffer 0 with cond := .ciphering, lines, data }) 1
          { cond := .filling, band := s.scan.begun, lines := 0, data := [] }
        begun := s.scan.begun + 1 } } 0 := by
      unfold State.sourceRead
      dsimp only []
      rw [show b.scan.sources[(b.buffer 0).band]? = some src from hsrc, Option.getD_some, hread]
      dsimp only []
      rw [State.sourceRefusal_none (s := b) hgranted]
      exact State.presentScan_reads (s := b) rfl h1 hbegun
    have hcan : b.core.canTake = true := by
      simp [Core.canTake, show b.core.band = none from hband, show b.core.periodicTest = false from hper,
        show b.core.resumeTest = false from hres, Config.cipherTestBands, show b.core.count < 4096 from hcount]
    have hanswer := (answers_iff (c := .sourceReadDone env) (s := s) nofun).mpr rfl
    rw [show (Instr.sourceReadDone env).env = env from rfl, effectOf_sourceReadDone env hb,
      State.takeSourceRead_reads (s := b) ha hfill hs hf, hpresented, State.presentScan_pumped, if_pos] at hanswer
    · rw [State.scanSlot_of (a := a)] at hanswer
      · exact hanswer
      · exact ha
    · exact hcan
    · exact fun _ => ⟨hq, hw⟩
    · intro m hm hne
      obtain rfl : m = 1 := by omega
      show (entryAt (putAt _ 1 _) 1 Buffer.erased).cond ≠ .ciphering
      rw [entryAt_putAt_same _ _ _ _ (by decide)]
      nofun
  · intro b hl hfree
    have hb : b.up = true := hup
    have hread : effectOf (.sourceReadDone env) b = (b.sourceRead i a).pumpCore :=
      (effectOf_sourceReadDone env hb).trans (State.takeSourceRead_reads (s := b) ha hfill hs hf)
    have hends : ∀ (c : State) (code : ReturnCode), c.lanes = b.lanes ∧ c.env = b.env ∧ c.scan = b.scan →
        b.sourceRead i a = c.failCipher code → ∃ t, Answers (.sourceReadDone env) s t ∧ CipherFails c t k code := by
      intro c code ⟨hcl, hce, hcs⟩ hc
      have hanswer := (answers_iff (c := .sourceReadDone env) (s := s) nofun).mpr rfl
      rw [show (Instr.sourceReadDone env).env = env from rfl, hread, hc] at hanswer
      refine ⟨_, hanswer, (State.failCipher_fails ?_ ?_ ?_ ?_ ?_ code).pumped⟩
      · rw [State.lane, hcl]
        exact hl
      · exact State.closesFreely_of_env hce hfree
      · rw [hcs]
        exact hwork
      · rw [hcs]
        exact hs
      · rw [hcs]
        exact hf
    have hfails : ∀ data code, b.readBytes src.address src.length = .ok data → b.sourceRefusal a = some code →
        b.sourceRead i a = b.failCipher code := fun data code hd hc => by
      unfold State.sourceRead
      dsimp only []
      rw [show b.scan.sources[(b.buffer i).band]? = some src from hsrc, Option.getD_some, hd]
      dsimp only []
      rw [hc]
    refine ⟨fun bad hbad => hends _ _ ⟨rfl, rfl, rfl⟩ ?_, fun data hd => ⟨fun hkey => ?_, fun hdec hkey hauth => ?_⟩⟩
    · unfold State.sourceRead
      dsimp only []
      rw [show b.scan.sources[(b.buffer i).band]? = some src from hsrc, Option.getD_some, hbad]
    · refine hends b _ ⟨rfl, rfl, rfl⟩ (hfails data .badSlot hd ?_)
      unfold State.sourceRefusal
      cases hw : b.scan.work with
      | page => exact absurd hw hwork
      | encipher =>
        rw [show s.scan.work = .encipher from hw] at hkey
        exact if_neg (by rw [show b.keyGranted a.slot a.job .encipher = false from hkey]; exact Bool.false_ne_true)
      | decipher =>
        rw [show s.scan.work = .decipher from hw] at hkey
        exact if_neg (by rw [show b.keyGranted a.slot a.job .decipher = false from hkey]; exact Bool.false_ne_true)
    · refine hends b _ ⟨rfl, rfl, rfl⟩ (hfails data .notPermitted hd ?_)
      unfold State.sourceRefusal
      rw [show b.scan.work = .decipher from hdec]
      exact (if_pos hkey).trans (if_neg (by rw [hauth]; exact Bool.false_ne_true))

end Sys2Proof.Proofs
end

