-- ==== Sys2Proof/Proofs/Scanner.lean ====
section
/-! The scanner's lines, page ends and error reports (R89 to R94): O38, O39. -/

namespace Sys2Proof.Machine

variable {s u v b t : State} {env : Env} {k : Ticket} {n i j : Nat} {code : ReturnCode} {a : ScanArgs} {line bytes : List Byte}

/-! ### The scanner's events by the state of the path (R89, R92, R94) -/

theorem effectOf_scannerLine (env : Env) (bytes : List Byte) (h : b.alive = true) : effectOf (.scannerLine env bytes) b = b.scannerLine bytes :=
  b.whenAlive_of h fun b => b.scannerLine bytes

theorem effectOf_scannerPageEnd (env : Env) (h : b.alive = true) : effectOf (.scannerPageEnd env) b = b.scannerPageEnd :=
  b.whenAlive_of h _

theorem effectOf_scannerError (env : Env) (h : b.alive = true) : effectOf (.scannerError env) b = b.scannerError :=
  b.whenAlive_of h _

theorem State.takesScanner_iff : s.takesScanner = true ↔ s.scan.state = .scanning ∧ s.scan.failed = none ∧ s.scan.pageEnd = false := by
  simp [State.takesScanner, and_assoc]

theorem State.scannerLine_discarded (h : s.scan.drain = true ∨ s.takesScanner = false) (bytes : List Byte) : s.scannerLine bytes = s := by
  unfold State.scannerLine
  split
  · rfl
  · exact if_neg fun hc => by
      rcases h with h | h
      · rw [hc.1] at h
        cases h
      · rw [hc.2] at h
        cases h

theorem State.scannerLine_taken (hd : s.scan.drain = false) (ht : s.takesScanner = true) (ha : s.scan.args = some a) (bytes : List Byte) :
    s.scannerLine bytes = (s.takeLine a bytes).pumpCore := by
  unfold State.scannerLine
  rw [ha]
  exact if_pos ⟨hd, ht⟩

/-! ### A line joins its band (R89) -/

/-- R89: the buffer that a line joins, the band in it and the bands begun: the one FILLING, or a FREE one for the next band. -/
def State.lineJoins (s : State) (i begun : Nat) (x : Buffer) : Prop :=
  (s.bufferIn .filling = some i ∧ x = s.buffer i ∧ begun = s.scan.begun) ∨
    (s.bufferIn .filling = none ∧ s.bufferIn .free = some i ∧
      x = { cond := .filling, band := s.scan.begun, lines := 0, data := [] } ∧ begun = s.scan.begun + 1)

/-- R89: the path with a line joined. -/
def State.lineJoined (s : State) (a : ScanArgs) (i begun : Nat) (y : Buffer) : State :=
  { s with scan := { s.scan with
    internal := putAt s.scan.internal i y, taken := s.scan.taken + 1, begun, lineLimit := decide (a.maxLines ≤ s.scan.taken + 1) } }

theorem State.lineJoins.filling {begun : Nat} {x : Buffer} (h : s.lineJoins i begun x) : i < 2 ∧ x.cond = .filling := by
  rcases h with ⟨hf, rfl, -⟩ | ⟨-, hf, rfl, -⟩
  · obtain ⟨hi, hc⟩ := lowest_some hf .erased
    exact ⟨hi, of_decide_eq_true hc⟩
  · exact ⟨(lowest_some hf .erased).1, rfl⟩

theorem State.joinLine_joins {begun : Nat} {x : Buffer} (h : s.lineJoins i begun x) (a : ScanArgs) (line : List Byte) :
    s.joinLine a line =
      if a.bandLines ≤ x.lines + 1 ∨ a.maxLines ≤ s.scan.taken + 1 then
        (s.lineJoined a i begun { x with lines := x.lines + 1, data := x.data ++ line }).bandComplete i a
      else s.lineJoined a i begun { x with lines := x.lines + 1, data := x.data ++ line } := by
  obtain ⟨hi, -⟩ := h.filling
  unfold State.joinLine
  rcases h with ⟨hf, rfl, rfl⟩ | ⟨hn, hf, rfl, rfl⟩
  · have hbuffer : s.lineBuffer = some (s, i) := by
      unfold State.lineBuffer
      rw [hf]
    rw [hbuffer]
    rfl
  · obtain ⟨w, hw⟩ : ∃ w : State, w = { s with scan := { s.scan with
        internal := putAt s.scan.internal i { cond := .filling, band := s.scan.begun, lines := 0, data := [] }
        begun := s.scan.begun + 1 } } := ⟨_, rfl⟩
    have hbegun : s.lineBuffer = some (w, i) := by
      unfold State.lineBuffer
      rw [hn, hf, hw]
      rfl
    have hbuffer : w.buffer i = { cond := .filling, band := s.scan.begun, lines := 0, data := [] } := by
      rw [hw]
      exact State.putBuffer_same (s := s) hi _
    have hput : ∀ y, w.putBuffer i y = { s with scan := { s.scan with
        internal := putAt s.scan.internal i y, begun := s.scan.begun + 1 } } := fun y => by
      rw [hw, State.putBuffer]
      dsimp only []
      rw [putAt_putAt]
    rw [hbegun]
    dsimp only []
    rw [hbuffer, hput]
    rfl

/-- R89: a line not short and within the limit joins its band, cut to the line length. -/
theorem State.takeLine_joins (hl : s.scan.lineLimit = false) (hlong : a.lineBytes ≤ bytes.length) :
    s.takeLine a bytes = State.joinLine { s with scan := { s.scan with
      truncation := s.scan.truncation || decide (a.lineBytes < bytes.length) } } a (bytes.take a.lineBytes) := by
  unfold State.takeLine
  rw [if_neg (by rw [hl]; exact Bool.false_ne_true), if_neg (Nat.not_lt.mpr hlong)]
  dsimp only []
  split
  · rename_i h
    rw [decide_eq_true h, Bool.or_true]
  · rename_i h
    rw [decide_eq_false h, Bool.or_false]

theorem State.joinLine_overrun (hn : s.bufferIn .filling = none) (hf : s.bufferIn .free = none) (a : ScanArgs) (line : List Byte) :
    s.joinLine a line = s.failPage .scanOverrun false := by
  unfold State.joinLine State.lineBuffer
  rw [hn, hf]

/-! ### A band complete (R90, R91) -/

theorem State.bandComplete_full {x : Buffer} (hx : s.buffer i = x) (hb : s.scan.buffers.length ≤ x.band) :
    s.bandComplete i a = s.failPage .scanOverrun false := by
  unfold State.bandComplete
  dsimp only []
  rw [hx]
  exact if_pos hb

theorem State.bandComplete_presented {x : Buffer} (hx : s.buffer i = x) (hb : x.band < s.scan.buffers.length)
    (hk : s.keyGranted a.slot a.job .scan = true) : s.bandComplete i a = (s.putBuffer i { x with cond := .ciphering }).presentScan i := by
  unfold State.bandComplete
  dsimp only []
  rw [hx]
  exact (if_neg (Nat.not_le.mpr hb)).trans (if_pos hk)

theorem State.bandComplete_refused {x : Buffer} (hx : s.buffer i = x) (hb : x.band < s.scan.buffers.length)
    (hk : s.keyGranted a.slot a.job .scan = false) : s.bandComplete i a = s.failPage .scanInterrupted false := by
  unfold State.bandComplete
  dsimp only []
  rw [hx]
  exact (if_neg (Nat.not_le.mpr hb)).trans (if_neg (by rw [hk]; exact Bool.false_ne_true))

/-- R90: the other buffer is the one WRITING, if any is. -/
theorem State.putBuffer_writing {x : Buffer} (hw : s.writingBuffer = none) (hx : x.isWriting = false) :
    (s.putBuffer i x).writingBuffer = none := by
  refine (lowest_none_iff .erased).mpr fun m hm => ?_
  rw [← State.buffer, State.putBuffer_buffer]
  split
  · exact hx
  · exact (lowest_none_iff .erased).mp hw m hm

/-- R93, R94: a page failed while a band is WRITING takes nothing for the core. -/
theorem State.pageFailing_settled (hcore : s.coreSettled) (code : ReturnCode) (drain : Bool) : (s.pageFailing code drain).coreSettled := by
  intro hc
  have hband : s.core.band = none := by
    have hnone : s.core.orphaned .scan = none := by
      simp only [Core.canTake, State.pageFailing, Bool.and_eq_true, Option.isNone_iff_eq_none] at hc
      exact hc.1.1.1
    unfold Core.orphaned at hnone
    cases hb : s.core.band with
    | none => rfl
    | some c =>
      rw [hb] at hnone
      dsimp only [] at hnone
      split at hnone
      · cases hnone
      · cases hnone
  have hcan : s.core.canTake = true := by
    simp only [Core.canTake, State.pageFailing, Bool.and_eq_true] at hc ⊢
    refine ⟨⟨⟨?_, hc.1.1.2⟩, hc.1.2⟩, hc.2⟩
    rw [hband]
    rfl
  exact ⟨(hcore hcan).1, rfl⟩

theorem Core.orphaned_map (c : Core) (p : CipherPath) : c.orphaned p = c.band.map (fun x => if x.path = p then { x with orphan := true } else x) := by
  unfold Core.orphaned
  cases c.band with
  | none => rfl
  | some x =>
    dsimp only [Option.map]
    split
    · rfl
    · rfl

theorem State.lineJoined_put {begun : Nat} (s : State) (a : ScanArgs) (i : Nat) (y z : Buffer) :
    (s.lineJoined a i begun y).putBuffer i z = s.lineJoined a i begun z := by
  unfold State.lineJoined State.putBuffer
  dsimp only []
  rw [putAt_putAt]

/-! ### The failure of a page by the scanner -/

/-- R93: the page failed by an event of the scanner, whatever the event has changed of the path before. -/
theorem answers_failPage {c : Instr} (hc : ∀ w, c ≠ .lossOfPower w) {σ : ScanPath} {ended drain : Bool} (h : b.scanPage a i k)
    (hs : σ.state = .scanning) (hf : σ.failed = none) (hargs : σ.args = b.scan.args)
    (hw : State.writingBuffer { b with scan := σ } = none) (hcode : code ≠ .ok) (hpage : σ.page = b.scan.page)
    (hwritten : σ.written = b.scan.written) (htr : σ.truncation = b.scan.truncation)
    (hdrain : drain = (σ.drain || !(σ.pageEnd || ended)))
    (heffect : effectOf c (s.begin c.env) = (State.failPage { b with scan := σ } code ended).pumpCore) :
    ∃ t, Answers c s t ∧ PageFailed b t i k code drain := by
  have hanswer := (answers_iff (s := s) hc).mpr rfl
  rw [heffect] at hanswer
  obtain ⟨ha, hj, hl, hfree⟩ := h
  have hpage' : State.scanPage { b with scan := σ } a i k := ⟨hargs.trans ha, hj, hl, hfree⟩
  refine ⟨_, hanswer, ?_⟩
  rw [hdrain]
  exact ((State.failPage_failed hpage' hs hf hw hcode ended).of_paths (κ := b.core) hpage hwritten htr).pumped

/-! ### The page end (R92) -/

theorem State.scannerPageEnd_taken (hd : s.scan.drain = false) (ht : s.takesScanner = true) (ha : s.scan.args = some a) :
    s.scannerPageEnd = (s.takePageEnd a).pumpCore := by
  unfold State.scannerPageEnd
  rw [if_neg (by rw [hd]; exact Bool.false_ne_true), ha]
  exact if_pos ht

theorem State.scannerError_taken (hd : s.scan.drain = false) (ht : s.takesScanner = true) :
    s.scannerError = (s.failPage .scanFault true).pumpCore :=
  (if_neg (by rw [hd]; exact Bool.false_ne_true)).trans (if_pos ht)

/-- R94: the drain mark cleared, with no page waiting for it. -/
theorem State.clearDrain_alone (hs : s.scan.state ≠ .waiting) : s.clearDrain = { s with scan := { s.scan with drain := false } } := by
  have hrenew : State.renewScan { s with scan := { s.scan with drain := false } } = { s with scan := { s.scan with drain := false } } := if_neg hs
  unfold State.clearDrain
  dsimp only []
  rw [hrenew, ite_self]

theorem State.scannerPageEnd_discarded (hd : s.scan.drain = false) (ht : s.takesScanner = false) : s.scannerPageEnd = s := by
  unfold State.scannerPageEnd
  rw [if_neg (by rw [hd]; exact Bool.false_ne_true), ht]
  cases s.scan.args with
  | none => rfl
  | some a => rfl

theorem State.scannerError_discarded (hd : s.scan.drain = false) (ht : s.takesScanner = false) : s.scannerError = s :=
  (if_neg (by rw [hd]; exact Bool.false_ne_true)).trans (if_neg (by rw [ht]; exact Bool.false_ne_true))

/-- R92: the page end marked as taken. -/
def State.pageEnded (s : State) : State := { s with scan := { s.scan with pageEnd := true } }

theorem State.takePageEnd_empty (h : s.scan.taken = 0) : s.takePageEnd a = s.pageEnded.failPage .scanFault true := if_pos h

theorem State.takePageEnd_filling (h : 0 < s.scan.taken) (hf : s.bufferIn .filling = some i) :
    s.takePageEnd a = s.pageEnded.bandComplete i a := by
  refine (if_neg (Nat.pos_iff_ne_zero.mp h)).trans ?_
  show (match s.bufferIn .filling with
    | some i => s.pageEnded.bandComplete i a
    | none => s.pageEnded.settleIfWritten) = _
  rw [hf]

theorem State.takePageEnd_written (h : 0 < s.scan.taken) (hf : s.bufferIn .filling = none) :
    s.takePageEnd a = s.pageEnded.settleIfWritten := by
  refine (if_neg (Nat.pos_iff_ne_zero.mp h)).trans ?_
  show (match s.bufferIn .filling with
    | some i => s.pageEnded.bandComplete i a
    | none => s.pageEnded.settleIfWritten) = _
  rw [hf]

theorem PageSettled.of_paths {σ : ScanPath} {κ : Core} (hpage : σ.page = s.scan.page) (hwritten : σ.written = s.scan.written)
    (htr : σ.truncation = s.scan.truncation) (hdrain : σ.drain = s.scan.drain) (hcap : σ.capture = s.scan.capture)
    (h : PageSettled { s with scan := σ, core := κ } t i k) : PageSettled s t i k := by
  obtain ⟨hended, hrest⟩ := h
  dsimp only [] at hended hrest
  rw [hdrain, hcap] at hended
  rw [hcap] at hrest
  exact ⟨hended.of_paths hpage hwritten htr, hrest⟩

/-- R92: all of a page's buffers are FREE. -/
theorem State.allFree_iff (s : State) : s.scan.internal.toList.all (fun b => b.cond = .free) = true ↔ ∀ n < 2, (s.buffer n).cond = .free := by
  rw [List.all_eq_true]
  refine ⟨fun h n hn => of_decide_eq_true (h _ ?_), fun h b hb => ?_⟩
  · simp [State.buffer, entryAt, hn]
  · obtain ⟨m, hm, rfl⟩ := List.getElem_of_mem hb
    have hm2 : m < 2 := by simpa using hm
    exact decide_eq_true (by simpa [State.buffer, entryAt, hm2] using h m hm2)

end Sys2Proof.Machine

namespace Sys2Proof.Proofs

open Sys2Proof.Machine

/-- Settles O38, by the buffer that the line joins and whether it completes its band. -/
theorem scannerLineJoinsBand : Obligations.ScannerLineJoinsBand := by
  intro env s bytes halive b
  have hb : b.alive = true := halive
  have hanswer := (answers_iff (c := .scannerLine env bytes) (s := s) nofun).mpr rfl
  rw [show (Instr.scannerLine env bytes).env = env from rfl, effectOf_scannerLine env bytes hb] at hanswer
  refine ⟨fun hdis => ?_, fun a hd ht ha => ?_⟩
  · rw [State.scannerLine_discarded (s := b) hdis bytes] at hanswer
    exact hanswer
  intro line cut taken last
  obtain ⟨hs, hf, hend⟩ := State.takesScanner_iff.mp ht
  have htaken : effectOf (.scannerLine env bytes) b = (b.takeLine a bytes).pumpCore :=
    (effectOf_scannerLine env bytes hb).trans (State.scannerLine_taken (s := b) hd ht ha bytes)
  rw [State.scannerLine_taken (s := b) hd ht ha bytes] at hanswer
  have hdrain : true = (s.scan.drain || !(s.scan.pageEnd || false)) := by rw [hd, hend]; rfl
  refine ⟨fun hlimit hcore => ?_, fun hlimit hshort j k hpage hw => ?_, fun hlimit hlong => ?_⟩
  · rw [show b.takeLine a bytes = { b with scan := { b.scan with truncation := true } } from if_pos hlimit, State.pumpCore_settled] at hanswer
    · exact hanswer
    · exact hcore
  · have hfail : b.takeLine a bytes = b.failPage .scanFault false :=
      (if_neg (by rw [show b.scan.lineLimit = false from hlimit]; exact Bool.false_ne_true)).trans (if_pos hshort)
    exact answers_failPage (c := .scannerLine env bytes) (σ := b.scan) nofun hpage hs hf rfl hw (by decide) rfl rfl rfl hdrain
      (htaken.trans (congrArg State.pumpCore hfail))
  · have hjoin : b.takeLine a bytes = cut.joinLine a line := State.takeLine_joins (s := b) hlimit hlong
    rw [hjoin] at htaken hanswer
    refine ⟨fun i begun x hx => ?_, fun hnf hnn => ⟨fun j k hpage hw => ?_, fun i hw hcore => ?_⟩⟩
    · intro y joined
      have hx' : cut.lineJoins i begun x := hx
      obtain ⟨hi, hxfill⟩ := hx'.filling
      have hbuffer : (cut.lineJoined a i begun y).buffer i = y := State.putBuffer_same (s := cut) hi y
      rw [State.joinLine_joins hx'] at htaken hanswer
      change effectOf _ b = (if a.bandLines ≤ y.lines ∨ a.maxLines ≤ taken then
        (cut.lineJoined a i begun y).bandComplete i a else cut.lineJoined a i begun y).pumpCore at htaken
      change Answers _ s (if a.bandLines ≤ y.lines ∨ a.maxLines ≤ taken then
        (cut.lineJoined a i begun y).bandComplete i a else cut.lineJoined a i begun y).pumpCore.finish at hanswer
      refine ⟨fun hlines hlast hcore => ?_, fun hcomplete => ?_⟩
      · rw [if_neg fun h => h.elim (fun h => absurd h (Nat.not_le.mpr hlines)) (fun h => of_decide_eq_false hlast h),
          State.pumpCore_settled] at hanswer
        · exact hanswer
        · exact hcore
      · have hdone : a.bandLines ≤ y.lines ∨ a.maxLines ≤ taken := hcomplete.imp_right of_decide_eq_true
        rw [if_pos hdone] at htaken hanswer
        refine ⟨fun hband hkey hcore hother => ?_, fun j k hpage hw => ?_⟩
        · rw [State.bandComplete_presented hbuffer hband hkey, State.lineJoined_put, State.presentScan_pumped] at hanswer
          · rw [State.scanSlot_of (a := a)] at hanswer
            · exact hanswer
            · exact ha
          · exact hcore
          · intro m hm hne
            rw [show (cut.lineJoined a i begun { y with cond := .ciphering }).buffer m = s.buffer m from
              State.putBuffer_other (s := cut) (fun h => hne h.symm) _]
            exact hother m hm hne
        · have hwriting : (cut.lineJoined a i begun y).writingBuffer = none :=
            State.putBuffer_writing (s := cut) hw (by rw [Buffer.isWriting, show y.cond = .filling from hxfill]; rfl)
          refine ⟨fun hfull => ?_, fun hband hkey => ?_⟩
          · rw [State.bandComplete_full hbuffer hfull] at htaken
            exact answers_failPage (c := .scannerLine env bytes) (σ := (cut.lineJoined a i begun y).scan) (b := cut) nofun hpage hs hf rfl
              hwriting (by decide) rfl rfl rfl hdrain htaken
          · rw [State.bandComplete_refused hbuffer hband hkey] at htaken
            exact answers_failPage (c := .scannerLine env bytes) (σ := (cut.lineJoined a i begun y).scan) (b := cut) nofun hpage hs hf rfl
              hwriting (by decide) rfl rfl rfl hdrain htaken
    · exact answers_failPage (c := .scannerLine env bytes) (σ := cut.scan) (b := cut) nofun hpage hs hf rfl hw (by decide) rfl rfl rfl hdrain
        (htaken.trans (congrArg State.pumpCore (State.joinLine_overrun (s := cut) hnf hnn a line)))
    · rw [State.joinLine_overrun (s := cut) hnf hnn a line, State.failPage_eq (s := cut) hs hf,
        if_neg (by rw [show cut.writingBuffer = some i from hw]; exact Bool.false_ne_true), State.pumpCore_settled] at hanswer
      · refine ⟨_, hanswer, ?_, fun m _ => State.pageFailing_buffer cut .scanOverrun _ m, Core.orphaned_map b.core .scan⟩
        rw [← show true = (cut.scan.drain || !(cut.scan.pageEnd || false)) from hdrain]
        rfl
      · exact State.pageFailing_settled (s := cut) hcore _ _

/-- Settles O39, by the state of the path when the scanner's page end or error report arrives. -/
theorem scannerEndsPage : Obligations.ScannerEndsPage := by
  intro env s halive b
  have hb : b.alive = true := halive
  have hpageEnd := (answers_iff (c := .scannerPageEnd env) (s := s) nofun).mpr rfl
  rw [show (Instr.scannerPageEnd env).env = env from rfl, effectOf_scannerPageEnd env hb] at hpageEnd
  have herror := (answers_iff (c := .scannerError env) (s := s) nofun).mpr rfl
  rw [show (Instr.scannerError env).env = env from rfl, effectOf_scannerError env hb] at herror
  refine ⟨fun hd hs => ?_, fun hd ht => ?_, fun a hd ht ha => ?_⟩
  · have hcleared := State.clearDrain_alone (s := b) hs
    rw [show b.scannerPageEnd = b.clearDrain from if_pos hd, hcleared] at hpageEnd
    rw [show b.scannerError = b.clearDrain from if_pos hd, hcleared] at herror
    exact ⟨herror, hpageEnd⟩
  · rw [State.scannerPageEnd_discarded (s := b) hd ht] at hpageEnd
    rw [State.scannerError_discarded (s := b) hd ht] at herror
    refine ⟨herror, hpageEnd, fun bytes => ?_⟩
    have hline := (answers_iff (c := .scannerLine env bytes) (s := s) nofun).mpr rfl
    rw [show (Instr.scannerLine env bytes).env = env from rfl, effectOf_scannerLine env bytes hb,
      State.scannerLine_discarded (s := b) (.inr ht) bytes] at hline
    exact hline
  intro ended full
  obtain ⟨hs, hf, hend⟩ := State.takesScanner_iff.mp ht
  have htaken : effectOf (.scannerPageEnd env) b = (b.takePageEnd a).pumpCore :=
    (effectOf_scannerPageEnd env hb).trans (State.scannerPageEnd_taken (s := b) hd ht ha)
  rw [State.scannerPageEnd_taken (s := b) hd ht ha] at hpageEnd
  have hdrain : ∀ p e : Bool, (p || e) = true → false = (s.scan.drain || !(p || e)) := fun p e h => by rw [hd, h]; rfl
  refine ⟨fun i k hpage => ⟨fun hlines hfree => ?_, fun hw => ⟨fun hnone => ?_, ?_, fun m hlines hfill => ⟨fun hfull => ?_, fun hband hkey => ?_⟩⟩⟩,
    fun hlines hcore => ⟨fun m hfill hband hkey hother => ?_, fun hfill hnot => ?_⟩⟩
  · have hnofill : b.bufferIn .filling = none := (lowest_none_iff .erased).mpr fun m hm => decide_eq_false (by
      rw [show (entryAt b.scan.internal m .erased).cond = .free from hfree m hm]
      decide)
    have hsettle : b.takePageEnd a = b.pageEnded.settleScan .ok (b.pageEnded.scan.capture.getD 0) :=
      (State.takePageEnd_written (s := b) hlines hnofill).trans (if_pos ⟨hs, hf, rfl, (State.allFree_iff b.pageEnded).mpr hfree⟩)
    rw [hsettle] at hpageEnd
    have hpage' : b.pageEnded.scanPage a i k := hpage
    have hscan : b.pageEnded.scan.state ≠ .ciphering := fun h => by
      rw [show b.pageEnded.scan.state = .scanning from hs] at h
      cases h
    exact ⟨_, hpageEnd, ((State.settleScan_settled hpage' hscan rfl).of_paths rfl rfl rfl rfl rfl).pumped⟩
  · exact answers_failPage (c := .scannerPageEnd env) (σ := ended.scan) nofun hpage hs hf rfl hw (by decide) rfl rfl rfl
      (hdrain true true rfl) (htaken.trans (congrArg State.pumpCore (State.takePageEnd_empty (s := b) hnone)))
  · exact answers_failPage (c := .scannerError env) (σ := b.scan) nofun hpage hs hf rfl hw (by decide) rfl rfl rfl
      (hdrain s.scan.pageEnd true (Bool.or_true _)) ((effectOf_scannerError env hb).trans (State.scannerError_taken (s := b) hd ht))
  · rw [State.takePageEnd_filling (s := b) hlines hfill, State.bandComplete_full (s := b.pageEnded) rfl hfull] at htaken
    exact answers_failPage (c := .scannerPageEnd env) (σ := ended.scan) nofun hpage hs hf rfl hw (by decide) rfl rfl rfl
      (hdrain true false rfl) htaken
  · rw [State.takePageEnd_filling (s := b) hlines hfill, State.bandComplete_refused (s := b.pageEnded) rfl hband hkey] at htaken
    exact answers_failPage (c := .scannerPageEnd env) (σ := ended.scan) nofun hpage hs hf rfl hw (by decide) rfl rfl rfl
      (hdrain true false rfl) htaken
  · rw [State.takePageEnd_filling (s := b) hlines hfill, State.bandComplete_presented (s := b.pageEnded) rfl hband hkey,
      State.presentScan_pumped] at hpageEnd
    · rw [State.scanSlot_of (a := a)] at hpageEnd
      · exact hpageEnd
      · exact ha
    · exact hcore
    · intro n hn hne
      rw [State.putBuffer_other (fun h => hne h.symm)]
      exact hother n hn hne
  · obtain ⟨n, hn, hcond⟩ := hnot
    have hkeep : b.pageEnded.settleIfWritten = b.pageEnded :=
      if_neg fun h => hcond ((State.allFree_iff b.pageEnded).mp h.2.2.2 n hn)
    rw [State.takePageEnd_written (s := b) hlines hfill, hkeep, State.pumpCore_settled] at hpageEnd
    · exact hpageEnd
    · exact hcore

end Sys2Proof.Proofs
end

