-- ==== Sys2Proof/Proofs/BandWrites.lean ====
section
/-! The end of a band's write and of its record's (R90, R92, R93, R97, R99): O40. -/

namespace Sys2Proof.Machine

variable {s u v b t : State} {env : Env} {k : Ticket} {n i j : Nat} {code : ReturnCode} {a : ScanArgs}

/-! ### The buffer whose write has ended -/

/-- A test that neither an erased buffer nor the other one passes finds none. -/
theorem State.buffers_none (hi : i < 2) (p : Buffer → Bool) (h : p (u.buffer i) = false) (ho : p (u.buffer (1 - i)) = false) :
    lowest u.scan.internal p = none := by
  refine (lowest_none_iff .erased).mpr fun m hm => ?_
  rw [← State.buffer]
  by_cases hm' : m = i
  · rw [hm']
    exact h
  · rw [other_buffer hi hm hm']
    exact ho

/-- A test that one buffer alone passes finds it. -/
theorem State.buffers_one (hi : i < 2) (p : Buffer → Bool) (h : p (u.buffer i) = true) (ho : p (u.buffer (1 - i)) = false) :
    lowest u.scan.internal p = some i := by
  refine lowest_only .erased hi h fun m hm hne => ?_
  rw [← State.buffer, other_buffer hi hm hne]
  exact ho

/-- R90: the other band's write begins if it waits for it. -/
def State.nextWrite (u : State) (i : Nat) : State :=
  { u with scan := { u.scan with
    internal :=
      if (u.buffer (1 - i)).cond = .ciphered then putAt u.scan.internal (1 - i) { u.buffer (1 - i) with cond := .writingData }
      else u.scan.internal } }

theorem State.startWrite_next (hi : i < 2) (he : u.buffer i = .erased) (ho : (u.buffer (1 - i)).isWriting = false) :
    u.startWrite = u.nextWrite i := by
  have hnone : u.writingBuffer = none := State.buffers_none hi Buffer.isWriting (by rw [he]; rfl) ho
  unfold State.startWrite State.nextWrite
  rw [hnone]
  by_cases hc : (u.buffer (1 - i)).cond = .ciphered
  · have hone : u.bufferIn .ciphered = some (1 - i) := by
      have hii : 1 - (1 - i) = i := by omega
      refine State.buffers_one (i := 1 - i) (by omega) _ (decide_eq_true hc) ?_
      rw [hii, he]
      rfl
    rw [hone, if_pos hc]
    rfl
  · have hno : u.bufferIn .ciphered = none := State.buffers_none hi _ (by rw [he]; rfl) (decide_eq_false hc)
    rw [hno, if_neg hc]
    rfl

theorem State.nextWrite_other (hi : i < 2) : (u.nextWrite i).buffer (1 - i) =
    if (u.buffer (1 - i)).cond = .ciphered then { u.buffer (1 - i) with cond := .writingData } else u.buffer (1 - i) := by
  have h : 1 - i < 2 := by omega
  show entryAt (if (u.buffer (1 - i)).cond = .ciphered then putAt u.scan.internal (1 - i) { u.buffer (1 - i) with cond := .writingData }
    else u.scan.internal) (1 - i) .erased = _
  split
  · exact entryAt_putAt_same _ _ _ _ h
  · rfl

theorem State.nextWrite_own (hi : i < 2) : (u.nextWrite i).buffer i = u.buffer i := by
  show entryAt (if (u.buffer (1 - i)).cond = .ciphered then putAt u.scan.internal (1 - i) { u.buffer (1 - i) with cond := .writingData }
    else u.scan.internal) i .erased = _
  split
  · exact entryAt_putAt_other _ _ _ _ _ (by omega)
  · rfl

/-! ### What follows a write (R92, R93, R97, R99) -/

/-- The work of the path goes on after a band is whole, or has failed: with the state a write leaves, no band WRITING. -/
theorem State.afterWrite_failed (hi : i < 2) (he : u.buffer i = .erased) (ho : (u.buffer (1 - i)).isWriting = false)
    (hf : u.scan.failed = some code) :
    u.afterWrite = if u.scan.work = .page then u.settleScan code 0 else u.closeCipher code := by
  have hnone : u.writingBuffer = none := State.buffers_none hi Buffer.isWriting (by rw [he]; rfl) ho
  unfold State.afterWrite
  rw [hf]
  dsimp only []
  rw [hnone]
  rfl

theorem State.afterWrite_next (hi : i < 2) (he : u.buffer i = .erased) (ho : (u.buffer (1 - i)).isWriting = false)
    (hf : u.scan.failed = none) :
    u.afterWrite = if u.scan.work = .page then (u.nextWrite i).settleIfWritten
      else if u.scan.sources.length ≤ u.scan.written then (u.nextWrite i).closeCipher .ok else (u.nextWrite i).startSourceRead := by
  unfold State.afterWrite
  rw [hf]
  dsimp only []
  rw [State.startWrite_next hi he ho]
  rfl

/-! ### The write that ends -/

/-- R90, R97: the words or bytes of a band's write, of data or of its record. -/
def State.bandWrite (s : State) (address records : Nat) (x : Buffer) : State × Option Nat :=
  if x.cond = .writingData then s.writeBytes address x.data else s.writeWords (records + 12 * x.band) (bandRecord x)

theorem State.bandWrite_frame (s : State) (address records : Nat) (x : Buffer) :
    ∃ M, (s.bandWrite address records x).1 = { s with mem := M } := by
  unfold State.bandWrite
  split
  · exact ⟨_, State.writeBytes_frame ..⟩
  · exact ⟨_, State.writeWords_frame ..⟩

theorem State.writeDone_eq {d : Destination} (ha : s.scan.args = some a) (hw : s.writingBuffer = some i)
    (hd : s.scan.buffers[(s.buffer i).band]? = some d) :
    s.writeDone = match s.bandWrite d.address a.records (s.buffer i) with
      | (w, some bad) => w.writeFailed i bad
      | (w, none) =>
        if (s.buffer i).cond = .writingData ∧ s.scan.work ≠ .decipher then w.putBuffer i { s.buffer i with cond := .writingRecord }
        else w.bandWritten i := by
  have hdest : s.destination (s.buffer i).band = d.address := by
    unfold State.destination
    rw [hd]
  unfold State.writeDone State.bandWrite
  rw [hw]
  dsimp only []
  rw [hdest, ha]
  by_cases hc : (s.buffer i).cond = .writingData
  · rw [if_pos hc, if_pos hc]
    have hframe := State.writeBytes_frame (s.buffer i).data s d.address
    generalize s.writeBytes d.address (s.buffer i).data = r at hframe
    obtain ⟨w, bad⟩ := r
    have hwork : w.scan.work = s.scan.work := by rw [show w = { s with mem := w.mem } from hframe]
    cases bad with
    | some bad => rfl
    | none =>
      dsimp only []
      rw [hwork]
      by_cases hdec : s.scan.work = .decipher
      · rw [if_pos hdec, if_neg fun h => h.2 hdec]
      · rw [if_neg hdec, if_pos ⟨hc, hdec⟩]
  · rw [if_neg hc, if_neg hc]
    show (match s.writeWords (a.records + 12 * (s.buffer i).band) (bandRecord (s.buffer i)) with
      | (s, some bad) => s.writeFailed i bad
      | (s, none) => s.bandWritten i) = _
    generalize s.writeWords (a.records + 12 * (s.buffer i).band) (bandRecord (s.buffer i)) = r
    obtain ⟨w, bad⟩ := r
    cases bad with
    | some bad => rfl
    | none => exact (if_neg fun h => hc h.1).symm

/-- R90, R97: a band whole in memory, its buffer erased. -/
def State.bandWhole (w : State) (i : Nat) : State :=
  { w with scan := { w.scan with internal := putAt w.scan.internal i .erased, written := w.scan.written + 1 } }

/-- R163: a band whose write has failed, its buffer erased. -/
def State.bandLost (w : State) (i bad : Nat) : State := (w.captureMemory .memoryWrite 1 bad).putBuffer i .erased

/-- What the completion of a write does, by what it wrote. -/
theorem bandWriteDone_answers {d : Destination} {w : State} {r : Option Nat} (hup : s.up = true)
    (ha : s.scan.args = some a) (hw : s.writingBuffer = some i) (hd : s.scan.buffers[(s.buffer i).band]? = some d)
    (hwrite : (s.begin env).bandWrite d.address a.records (s.buffer i) = (w, r)) :
    (r = none → (s.buffer i).cond = .writingData → s.scan.work ≠ .decipher →
      Answers (.bandWriteDone env) s (w.putBuffer i { s.buffer i with cond := .writingRecord }).pumpCore.finish) ∧
    (r = none → ((s.buffer i).cond ≠ .writingData ∨ s.scan.work = .decipher) →
      Answers (.bandWriteDone env) s (w.bandWhole i).afterWrite.pumpCore.finish) ∧
    ∀ bad, r = some bad → Answers (.bandWriteDone env) s (w.writeFailed i bad).pumpCore.finish := by
  have hb : (s.begin env).up = true := hup
  have hanswer := (answers_iff (c := .bandWriteDone env) (s := s) nofun).mpr rfl
  have heffect : effectOf (.bandWriteDone env) (s.begin env) = (s.begin env).writeDone.pumpCore :=
    (s.begin env).whenUp_of hb fun b => b.writeDone.pumpCore
  have hdone := State.writeDone_eq (s := s.begin env) ha hw hd
  rw [show (s.begin env).buffer i = s.buffer i from rfl, hwrite] at hdone
  rw [show (Instr.bandWriteDone env).env = env from rfl, heffect, hdone] at hanswer
  refine ⟨fun hr hc hk => ?_, fun hr hk => ?_, fun bad hr => ?_⟩
  · subst hr
    dsimp only [] at hanswer
    rw [if_pos] at hanswer
    · exact hanswer
    · exact ⟨hc, hk⟩
  · subst hr
    dsimp only [] at hanswer
    rw [if_neg] at hanswer
    · exact hanswer
    · exact fun h => hk.elim (fun hc => hc h.1) fun hdec => h.2 hdec
  · subst hr
    exact hanswer

theorem State.writeFailed_first {w : State} {bad : Nat} (hf : w.scan.failed = none) :
    w.writeFailed i bad =
      if w.scan.work = .page then (w.bandLost i bad).failPage .memoryFault false else (w.bandLost i bad).failCipher .memoryFault := by
  unfold State.writeFailed
  dsimp only []
  rw [show ((w.captureMemory .memoryWrite 1 bad).putBuffer i .erased).scan.failed = none from hf]
  rfl

theorem State.writeFailed_again {w : State} {bad : Nat} (hf : w.scan.failed = some code) : w.writeFailed i bad = (w.bandLost i bad).afterWrite := by
  unfold State.writeFailed
  dsimp only []
  rw [show ((w.captureMemory .memoryWrite 1 bad).putBuffer i .erased).scan.failed = some code from hf]
  rfl

/-- R97, R99: the next source read, beside the next write. -/
theorem State.nextWrite_reads (hi : i < 2) (he : u.buffer i = .erased) (hother : (u.buffer (1 - i)).cond ≠ .free) :
    (u.nextWrite i).startSourceRead = { u with scan :=
      if (u.buffer (1 - i)).cond = .filling ∨ u.scan.sources.length ≤ u.scan.begun then (u.nextWrite i).scan
      else { (u.nextWrite i).scan with
        internal := putAt (u.nextWrite i).scan.internal i { cond := .filling, band := u.scan.begun, lines := 0, data := [] }
        begun := u.scan.begun + 1 } } := by
  have hown := State.nextWrite_own (u := u) hi
  have hnext := State.nextWrite_other (u := u) hi
  rw [he] at hown
  split
  · rename_i h
    refine State.startSourceRead_busy (h.imp_left fun hfill => ?_)
    have hone : (u.nextWrite i).bufferIn .filling = some (1 - i) := by
      have hii : 1 - (1 - i) = i := by omega
      refine State.buffers_one (i := 1 - i) (by omega) _ ?_ ?_
      · rw [hnext, if_neg (by rw [hfill]; decide)]
        exact decide_eq_true hfill
      · rw [hii, hown]
        rfl
    rw [hone]
    rfl
  · rename_i h
    obtain ⟨hfill, hbegun⟩ := not_or.mp h
    have hcond : ((u.nextWrite i).buffer (1 - i)).cond ≠ .filling ∧ ((u.nextWrite i).buffer (1 - i)).cond ≠ .free := by
      rw [hnext]
      split
      · exact ⟨nofun, nofun⟩
      · exact ⟨hfill, hother⟩
    exact State.startSourceRead_begins (State.buffers_none hi _ (by rw [hown]; rfl) (decide_eq_false hcond.1)) (Nat.lt_of_not_le hbegun)
      (State.buffers_one hi _ (by rw [hown]; rfl) (decide_eq_false hcond.2))

end Sys2Proof.Machine

namespace Sys2Proof.Proofs

open Sys2Proof.Machine

/-- Settles O40, by the write's end and what its work has still to do. -/
theorem bandWriteWritesBandThenRecord : Obligations.BandWriteWritesBandThenRecord := by
  intro env s a i d hup ha hwriting b x other data write
  have hi : i < 2 := (State.writingBuffer_some hwriting).1
  have hwrite : b.bandWrite d.address a.records x = write := by
    show _ = if decide (x.cond = .writingData) = true then _ else _
    simp only [decide_eq_true_eq]
    rfl
  obtain ⟨M, hM⟩ := b.bandWrite_frame d.address a.records x
  rw [hwrite] at hM
  clear_value write
  obtain ⟨w, r⟩ := write
  obtain rfl : w = { b with mem := M } := hM
  intro erased whole faulty next isWhole hd ho
  obtain ⟨hrecord, hwhole, hfailed⟩ := bandWriteDone_answers hup ha hwriting hd hwrite
  have hisWhole : isWhole → Answers (.bandWriteDone env) s whole.afterWrite.pumpCore.finish := fun h =>
    hwhole h.1 (h.2.imp_left of_decide_eq_false)
  have hwholeOwn : whole.buffer i = .erased := State.putBuffer_same (s := { b with mem := M }) hi _
  have hwholeOther : whole.buffer (1 - i) = other := State.putBuffer_other (s := { b with mem := M }) (by omega) _
  have hnext : whole.nextWrite i = { whole with scan := { whole.scan with internal := next } } := by
    unfold State.nextWrite
    rw [hwholeOther]
  have hlost : ∀ bad, State.bandLost { b with mem := M } i bad = faulty bad := fun _ => rfl
  have hlostOwn : ∀ bad, (faulty bad).buffer i = .erased := fun bad => State.putBuffer_same (s := { b with mem := M }) hi _
  have hlostOther : ∀ bad, (faulty bad).buffer (1 - i) = other := fun bad =>
    State.putBuffer_other (s := { b with mem := M }) (by omega) _
  have hlostWriting : ∀ bad, (faulty bad).writingBuffer = none := fun bad =>
    State.buffers_none hi Buffer.isWriting (by rw [hlostOwn]; rfl) (by rw [hlostOther]; exact ho)
  have hcipher : ∀ c : State, c.scan.state = s.scan.state → s.scan.state = .scanning → c.scan.state ≠ .ciphering := fun c hc hs h => by
    rw [hc, hs] at h
    cases h
  have hcode : s.scan.failed ≠ some .ok → ∀ {code}, s.scan.failed = some code → code ≠ .ok := fun hok _ hf hc => hok (hc ▸ hf)
  refine ⟨fun hr hdata hwork hcore => ?_, fun hw hf hwork hmore hcore => ?_, fun hw hf hwork hmore hother hcore => ?_,
    fun j k hpage hs hwork hok => ⟨fun hw hf hend hfree => ?_, fun code hw hf => ?_, fun bad hr => ⟨fun hf => ?_, fun code hf => ?_⟩⟩,
    fun k hl hfree hs hwork => ⟨fun hw hf hlast => ?_, fun code hw hf => ?_, fun bad hr => ⟨fun hf => ?_, fun code hf => ?_⟩⟩⟩
  · have h := hrecord hr (of_decide_eq_true hdata) hwork
    rw [State.pumpCore_settled] at h
    · exact h
    · exact hcore
  · have h := hisWhole hw
    have hkeep : (whole.nextWrite i).settleIfWritten = whole.nextWrite i := if_neg fun ⟨_, _, hend, hall⟩ => by
      rcases hmore with hmore | hmore
      · rw [show s.scan.pageEnd = true from hend] at hmore
        cases hmore
      · have hfree := (State.allFree_iff _).mp hall (1 - i) (by omega)
        rw [State.nextWrite_other hi, hwholeOther] at hfree
        split at hfree
        · cases hfree
        · exact hmore hfree
    rw [State.afterWrite_next hi hwholeOwn (hwholeOther ▸ ho) hf, if_pos, hkeep, hnext, State.pumpCore_settled] at h
    · exact h
    · exact hcore
    · exact hwork
  · have h := hisWhole hw
    have hreads := State.nextWrite_reads hi hwholeOwn (by rw [hwholeOther]; exact hother)
    rw [hwholeOther, hnext] at hreads
    rw [State.afterWrite_next hi hwholeOwn (hwholeOther ▸ ho) hf, if_neg, if_neg, hnext, hreads, State.pumpCore_settled] at h
    · exact h
    · exact hcore
    · exact Nat.not_le.mpr hmore
    · exact hwork
  · have h := hisWhole hw
    have hall : ∀ m < 2, ((whole.nextWrite i).buffer m).cond = .free := fun m hm => by
      by_cases hmi : m = i
      · rw [hmi, State.nextWrite_own hi, hwholeOwn]
        rfl
      · rw [other_buffer hi hm hmi, State.nextWrite_other hi, hwholeOther, if_neg (by rw [hfree]; decide)]
        exact hfree
    have hsettle : (whole.nextWrite i).settleIfWritten = (whole.nextWrite i).settleScan .ok ((whole.nextWrite i).scan.capture.getD 0) :=
      if_pos ⟨hs, hf, hend, (State.allFree_iff _).mpr hall⟩
    rw [State.afterWrite_next hi hwholeOwn (hwholeOther ▸ ho) hf, if_pos, hsettle] at h
    · have hpage' : (whole.nextWrite i).scanPage a j k := hpage
      exact ⟨_, h, ((State.settleScan_settled hpage' (hcipher (whole.nextWrite i) rfl hs) rfl).of_paths (σ := (whole.nextWrite i).scan) (κ := whole.core) rfl rfl rfl rfl rfl).pumped⟩
    · exact hwork
  · have h := hisWhole hw
    rw [State.afterWrite_failed hi hwholeOwn (hwholeOther ▸ ho) hf, if_pos] at h
    · exact ⟨_, h, (State.settleScan_failed (s := whole) hpage (hcipher whole rfl hs) (hcode hok hf)).pumped⟩
    · exact hwork
  · have h := hfailed bad hr
    rw [State.writeFailed_first, if_pos] at h
    · have hfails := State.failPage_failed (s := faulty bad) (code := .memoryFault) hpage hs hf (hlostWriting bad) (by decide) false
      rw [Bool.or_false] at hfails
      exact ⟨_, h, hfails.pumped⟩
    · exact hwork
    · exact hf
  · have h := hfailed bad hr
    rw [State.writeFailed_again, hlost, State.afterWrite_failed hi (hlostOwn bad) ((hlostOther bad).symm ▸ ho) hf, if_pos] at h
    · exact ⟨_, h, (State.settleScan_failed (s := faulty bad) hpage (hcipher (faulty bad) rfl hs) (hcode hok hf)).pumped⟩
    · exact hwork
    · exact hf
  · have h := hisWhole hw
    rw [State.afterWrite_next hi hwholeOwn (hwholeOther ▸ ho) hf, if_neg, if_pos] at h
    · exact ⟨_, h, ((State.closeCipher_ended (s := whole.nextWrite i) hl hfree hwork .ok).of_paths (σ := (whole.nextWrite i).scan) (κ := whole.core) rfl rfl rfl rfl rfl).pumped⟩
    · exact hlast
    · exact hwork
  · have h := hisWhole hw
    rw [State.afterWrite_failed hi hwholeOwn (hwholeOther ▸ ho) hf, if_neg] at h
    · exact ⟨_, h, (State.closeCipher_ended (s := whole) hl hfree hwork code).pumped⟩
    · exact hwork
  · have h := hfailed bad hr
    rw [State.writeFailed_first, if_neg] at h
    · exact ⟨_, h, ((State.failCipher_fails (s := faulty bad) hl hfree hwork hs hf .memoryFault).pumped.1 (hlostWriting bad))⟩
    · exact hwork
    · exact hf
  · have h := hfailed bad hr
    rw [State.writeFailed_again, hlost, State.afterWrite_failed hi (hlostOwn bad) ((hlostOther bad).symm ▸ ho) hf, if_neg] at h
    · exact ⟨_, h, (State.closeCipher_ended (s := faulty bad) hl hfree hwork code).pumped⟩
    · exact hwork
    · exact hf

end Sys2Proof.Proofs
end

