-- ==== Sys2Proof/Proofs/SlotLosses.lean ====
section
/-! The destruction of the slot of a scan page or of a cipher ticket (R93, R95, R97, R99, section 6.4.1): O26. -/

namespace Sys2Proof.Machine

variable {s u v b t : State} {env : Env} {k p : Ticket} {n i j : Nat} {code : ReturnCode} {a : ScanArgs} {h : SlotHandle} {charge : Nat}

/-! ### The environment is kept by the ends of the scan path's work -/

theorem State.settleScan_env (hpage : s.scanPage a i k) (hs : s.scan.state ≠ .ciphering) (code : ReturnCode) (charge : Nat) :
    (s.settleScan code charge).env = s.env := by
  obtain ⟨v, x, -, -, hsteps⟩ := State.settleScan_steps hpage hs code charge
  rw [hsteps]
  rfl

theorem State.failPage_env (hpage : s.scanPage a i k) (code : ReturnCode) (ended : Bool) : (s.failPage code ended).env = s.env := by
  by_cases hs : s.scan.state = .scanning ∧ s.scan.failed = none
  · rw [State.failPage_eq hs.1 hs.2]
    split
    · have hpage' : (s.pageFailing code (s.scan.drain || !(s.scan.pageEnd || ended))).scanPage a i k := hpage
      exact State.settleScan_env hpage' (fun h => by rw [show s.scan.state = .ciphering from h] at hs; cases hs.1) code 0
    · rfl
  · exact congrArg State.env (if_neg hs)

theorem State.failCipher_env (hl : (s.lane 1).service = some k) (hfree : s.closesFreely k) (hw : s.scan.work ≠ .page) (code : ReturnCode) :
    (s.failCipher code).env = s.env := by
  by_cases hs : s.scan.state = .ciphering ∧ s.scan.failed = none
  · rw [State.failCipher_eq hs.1 hs.2]
    split
    · have hl' : ((s.pageFailing code s.scan.drain).lane 1).service = some k := hl
      have hfree' : (s.pageFailing code s.scan.drain).closesFreely k := hfree
      rw [State.closeCipher_eq (s := s.pageFailing code s.scan.drain) hw, State.close_ok hl' hfree']
      rfl
    · rfl
  · exact congrArg State.env (if_neg hs)

/-! ### What does not depend on the other lanes -/

theorem PageEnded.setLanes {L : Vector Lane 4} {drain : Bool} (hp : PageEnded (s.setLanes L) t i k code drain charge) :
    PageEnded s { t with lanes := s.lanes.set 1 { s.lane 1 with service := none } } i k code drain charge := by
  obtain ⟨hframe, hrest⟩ := hp
  refine ⟨?_, hrest⟩
  have hepoch : (s.setLanes L).epoch = s.epoch := rfl
  have hends : (s.setLanes L).scanEndsJob i = s.scanEndsJob i := rfl
  dsimp only [State.setLanes_mem, State.setLanes_scan] at hframe ⊢
  rw [hepoch, hends] at hframe
  generalize Memory.putWord _ (k.address + 60) _ = M at hframe ⊢
  rw [hframe]
  rfl

theorem CipherEnded.setLanes {L : Vector Lane 4} (hc : CipherEnded (s.setLanes L) t k code) :
    CipherEnded s { t with lanes := s.lanes.set 1 { s.lane 1 with service := none } } k code := by
  obtain ⟨hframe, hrest⟩ := hc
  refine ⟨?_, hrest⟩
  have hepoch : (s.setLanes L).epoch = s.epoch := rfl
  change t = { (s.setLanes L).answered 1 k code (if s.scan.work = .encipher then s.scan.page else s.scan.written)
      (if s.scan.work = .decipher ∧ code = .ok then 0 else s.scan.written) with
    scan := { ScanPath.reset with drain := s.scan.drain }, core := t.core } at hframe
  generalize (if s.scan.work = .encipher then s.scan.page else s.scan.written) = w13 at hframe ⊢
  generalize (if s.scan.work = .decipher ∧ code = .ok then 0 else s.scan.written) = w14 at hframe ⊢
  unfold State.answered at hframe ⊢
  dsimp only [State.setLanes_mem] at hframe ⊢
  rw [hepoch] at hframe
  generalize Memory.putWord _ (k.address + 60) _ = M at hframe ⊢
  rw [hframe]
  rfl

/-- What the first failure of a cipher ticket leaves does not depend on the band in the core. -/
theorem CipherFails.of_core {κ : Core} (hcount : κ.count = s.core.count) (hc : CipherFails { s with core := κ } t k code) :
    CipherFails s t k code := by
  refine ⟨fun hn => (hc.1 hn).of_paths (σ := s.scan) rfl rfl rfl rfl hcount, fun hsome => ?_⟩
  obtain ⟨hframe, hbuffers, hwait, hband, hk⟩ := hc.2 hsome
  exact ⟨hframe, hbuffers, hwait, hband, hk.trans hcount⟩


theorem PageFailed.setLanes {L : Vector Lane 4} {drain : Bool} (hp : PageFailed (s.setLanes L) t i k code drain) :
    PageFailed s { t with lanes := s.lanes.set 1 { s.lane 1 with service := none } } i k code drain :=
  ⟨hp.1.setLanes, hp.2⟩

/-! ### A destruction that ends the scan path's work -/

theorem State.destroySlot_unbanded (hslot : b.slotOf h = some h.idx) (hb : b.bandsAtCore h = []) :
    b.destroySlot h.idx = ((b.slotGone h).pageSlotLost h).cipherSlotLost h := by
  have hh : h = { idx := h.idx, gen := (b.slot h.idx).gen } := by
    obtain ⟨-, -, -, hgen⟩ := State.slotOf_some hslot
    rw [hgen]
  unfold State.destroySlot
  dsimp only []
  rw [← hh, State.printBandsUnder_eq, hb, State.wipeSlot_eq, ← hh]
  rfl

theorem State.slotGone_wipe (hslot : b.slotOf h = some h.idx) : b.slotGone h = b.wipeSlot h.idx := by
  have hh : h = { idx := h.idx, gen := (b.slot h.idx).gen } := by
    obtain ⟨-, -, -, hgen⟩ := State.slotOf_some hslot
    rw [hgen]
  rw [State.wipeSlot_eq, ← hh]

/-- R93, R95: the page under a destroyed slot fails. -/
theorem State.destroySlot_page (hslot : b.slotOf h = some h.idx) (hb : b.bandsAtCore h = []) (hs : b.scan.state = .scanning)
    (hargs : b.scan.args = some a) (ha : a.slot = h) (hend : b.scan.pageEnd = false)
    (hidle : ((b.slotGone h).failPage .scanInterrupted false).scan.state = .idle) :
    b.destroySlot h.idx = (b.slotGone h).failPage .scanInterrupted false := by
  have hscan : (b.slotGone h).scan = b.scan := (State.slotGone_lanes b h).2.2.1
  have hlost : (b.slotGone h).pageSlotLost h = (b.slotGone h).failPage .scanInterrupted false := by
    refine if_pos ⟨?_, ?_, fun hc => ?_⟩
    · rw [hscan]
      exact hs
    · rw [State.scanSlot_of (a := a) (by rw [hscan]; exact hargs), ha]
    · rw [hscan, hend] at hc
      exact absurd hc.1 Bool.false_ne_true
  rw [State.destroySlot_unbanded hslot hb, hlost]
  exact if_neg fun hc => by
    rw [hidle] at hc
    cases hc.1

/-- R97, R99: the cipher ticket under a destroyed slot ends, its band in the core stopped. -/
theorem State.destroySlot_cipher (hslot : b.slotOf h = some h.idx) (hb : b.bandsAtCore h = []) (hs : b.scan.state = .ciphering)
    (hf : b.scan.failed = none) (hh : b.scanSlot = h) (hc : ∃ i < 2, (b.buffer i).cond = .ciphering) :
    ∃ band, b.destroySlot h.idx = State.failCipher { b.slotGone h with core := { (b.slotGone h).core with band := band } } .badSlot := by
  have hscan : (b.slotGone h).scan = b.scan := (State.slotGone_lanes b h).2.2.1
  have hpage : (b.slotGone h).pageSlotLost h = b.slotGone h := if_neg fun h1 => by
    rw [hscan, hs] at h1
    cases h1.1
  have hany : (b.slotGone h).scan.internal.toList.any (fun x => x.cond = .ciphering) = true := by
    obtain ⟨i, hi, hcond⟩ := hc
    rw [hscan, List.any_eq_true]
    refine ⟨b.buffer i, ?_, decide_eq_true hcond⟩
    simp [State.buffer, entryAt, hi]
  have hslot' : (b.slotGone h).scanSlot = h := by
    unfold State.scanSlot
    rw [hscan]
    exact hh
  rw [State.destroySlot_unbanded hslot hb, hpage]
  unfold State.cipherSlotLost
  rw [if_pos ⟨by rw [hscan]; exact hs, by rw [hscan]; exact hf, hslot', hany⟩]
  dsimp only []
  split
  · exact ⟨(b.slotGone h).core.band, rfl⟩
  · split
    · exact ⟨none, rfl⟩
    · exact ⟨(b.slotGone h).core.band, rfl⟩

end Sys2Proof.Machine

namespace Sys2Proof.Machine

variable {s b t : State} {env : Env} {k p : Ticket} {i : Nat} {code : ReturnCode} {a : ScanArgs} {h : SlotHandle}

/-- R93: a failed page keeps what its account had used. -/
theorem State.failPage_kept (hpage : s.scanPage a i k) (hs : s.scan.state = .scanning) (hf : s.scan.failed = none)
    (hw : s.writingBuffer = none) (code : ReturnCode) (ended : Bool) (hok : (s.record (s.job i).account).checkOk = true)
    (hlt : (s.record (s.job i).account).used < 2 ^ 32) (hc : code ≠ .ok) :
    ((s.failPage code ended).finish.record (s.job i).account).used = (s.record (s.job i).account).used := by
  rw [State.failPage_eq hs hf, if_pos (by rw [hw]; rfl)]
  have hpage' : (s.pageFailing code (s.scan.drain || !(s.scan.pageEnd || ended))).scanPage a i k := hpage
  have hscan : (s.pageFailing code (s.scan.drain || !(s.scan.pageEnd || ended))).scan.state ≠ .ciphering := fun h => by
    rw [show s.scan.state = .ciphering from h] at hs
    cases hs
  obtain ⟨v, hcharged, -, hstored, -, -⟩ := State.settleScan_ends hpage' hscan code 0
  rw [show v.scanCounted code = v from if_neg hc] at hstored
  have hrecord := congrArg (fun y => (entryAt y (s.job i).account AccountRecord.vacant).used) (congrArg Stored.accounts hstored)
  exact hrecord.trans (hcharged.kept rfl hok hlt)

theorem Memory.word_congr {m m' : Memory} {x : Nat} (h : ∀ i < 4, m.read (wrapAddress (x + i)) = m'.read (wrapAddress (x + i))) :
    m.word x = m'.word x := by
  unfold Memory.word
  rw [h 1 (by decide), h 2 (by decide), h 3 (by decide), show m.read (wrapAddress x) = m'.read (wrapAddress x) from h 0 (by decide)]

/-- The closing words of a ticket stay as another ticket, with other words, closes. -/
theorem State.answered_apart (s : State) (lane : Fin 4) (k : Ticket) (code : ReturnCode) (w13 w14 : Nat)
    (h : ∀ x, p.closingByte x → ¬k.closingByte x) {d : Nat} (hd : 52 ≤ d) (hd' : d + 4 ≤ 64) :
    (s.answered lane k code w13 w14).mem.word (p.address + d) = s.mem.word (p.address + d) :=
  Memory.word_congr fun i hi => State.answered_read_other _ _ _ _ _ _ _ (h _ ⟨d - 52 + i, by omega, by
    congr 1
    omega⟩)

/-- With no slot of its own to lose, a job keeps what it has but its list. -/
theorem State.slotGone_job (hslot : b.slotOf h = some h.idx) (i : Nat) :
    (b.slotGone h).job i = { b.job i with slots := ((b.slotGone h).job i).slots } := by
  rw [State.slotGone_wipe hslot]
  exact (b.wipeSlot_moved h.idx).jobs i

theorem State.slotGone_slot (hslot : b.slotOf h = some h.idx) : (b.slotGone h).slot h.idx = .free (((b.slot h.idx).gen + 1) % 65536) := by
  rw [State.slotGone_wipe hslot, State.wipeSlot_slot]
  exact if_pos ⟨rfl, (State.slotOf_some hslot).2.1⟩

theorem State.slotGone_frame (hslot : b.slotOf h = some h.idx) :
    b.slotGone h = { b with slots := (b.slotGone h).slots, jobs := (b.slotGone h).jobs, core := (b.slotGone h).core } := by
  rw [State.slotGone_wipe hslot]
  exact (b.wipeSlot_moved h.idx).frame

end Sys2Proof.Machine

namespace Sys2Proof.Proofs

open Sys2Proof.Machine

/-- Settles O26: the page fails, or the cipher ticket ends, beside the Destroy Slot. -/
theorem destroySlotFailsScan : Obligations.DestroySlotFailsScan := by
  refine ⟨fun env s k session n i a p hcanon hserves hjob hsession hslot haccount howner hs hwork hf hend hargs ha hw hq hcore hl hj
    hopen hfree hapart => ?_,
    fun env s k p session n hserves hjob hsession hslot haccount howner hs hf hwork hscan hcip hl hfree hcore hq => ?_⟩
  · generalize hb : (s.begin env).touchSession session = b at *
    generalize hh : SlotHandle.ofWord (k.w 2) = h at *
    have hframe := State.touchSession_frame (s.begin env) session
    have hbenv : b.env = env := by rw [← hb, hframe]; rfl
    have hblanes : b.lanes = (s.begin env).lanes := by rw [← hb, hframe]
    have hbmem : b.mem.wf := by
      rw [← hb, hframe]
      exact Memory.storeAll_wf _ env.stores hcanon.1
    obtain ⟨L, hL⟩ : ∃ L, L = ((s.begin env).beginService 0).lanes := ⟨_, rfl⟩
    obtain ⟨hglanes, hgenv, hgscan, -⟩ := State.slotGone_lanes b h
    have hgframe := State.slotGone_frame hslot
    have hgjob := State.slotGone_job hslot i
    have hgslot := State.slotGone_slot hslot
    generalize hg : b.slotGone h = g at *
    have hL1 : (g.setLanes L).lane 1 = g.lane 1 := by
      rw [State.lane, State.lane, hglanes, hblanes, hL]
      exact State.beginService_lane_other (by decide)
    have hgj : g.jobOf a.job = some i := State.jobOf_congr hj (by rw [hgjob]) (by rw [hgjob])
    have hpage : (g.setLanes L).scanPage a i p := by
      refine ⟨?_, hgj, ?_, State.closesFreely_of_env (u := b) hgenv hfree⟩
      · exact (congrArg ScanPath.args hgscan).trans hargs
      · rw [hL1, State.lane, hglanes]
        exact hl
    have hgs : (g.setLanes L).scan.state = .scanning := (congrArg ScanPath.state hgscan).trans hs
    have hgf : (g.setLanes L).scan.failed = none := (congrArg ScanPath.failed hgscan).trans hf
    have hgw : (g.setLanes L).writingBuffer = none := by
      show lowest g.scan.internal _ = none
      rw [hgscan]
      exact hw
    have hfailed := State.failPage_failed hpage hgs hgf hgw (code := .scanInterrupted) (by decide) false
    have hkept := fun h1 h2 => State.failPage_kept hpage hgs hgf hgw .scanInterrupted false h1 h2 (by decide)
    have hdrain : ((g.setLanes L).scan.drain || !((g.setLanes L).scan.pageEnd || false)) = true := by
      rw [show (g.setLanes L).scan.pageEnd = false from (congrArg ScanPath.pageEnd hgscan).trans hend]
      exact Bool.or_true _
    rw [hdrain] at hfailed
    have hvenv := State.failPage_env hpage .scanInterrupted false
    have hidle : ((g.setLanes L).failPage .scanInterrupted false).scan.state = .idle :=
      (congrArg (fun y : State => y.scan.state) hfailed.1.1).trans rfl
    have hbands : (b.setLanes L).bandsAtCore h = [] := by
      show (b.core.band.filter _).toList.map _ ++ b.core.printQueue.filter _ = []
      rw [hcore, hq]
      rfl
    have hdestroyed : (b.setLanes L).destroySlot h.idx = (g.setLanes L).failPage .scanInterrupted false := by
      have hgone : (b.setLanes L).slotGone h = g.setLanes L := by rw [State.slotGone_setLanes, hg]
      rw [← hgone]
      exact State.destroySlot_page (b := b.setLanes L) hslot hbands hs hargs ha hend (by rw [hgone]; exact hidle)
    rw [hL] at hdestroyed hL1 hfailed hkept hvenv
    have hvlanes := (congrArg State.lanes hfailed.1.1).trans rfl
    have hanswer := destroySlot_beside (m := 1) hserves hjob hsession hb.symm hh.symm hslot haccount howner (by decide) hdestroyed
      hvlanes (hvenv.trans (hgenv.trans hbenv))
    have hw1 := hfailed.setLanes
    rw [hL1] at hanswer
    rw [← hglanes] at hanswer
    generalize hveq : (g.setLanes ((s.begin env).beginService 0).lanes).failPage .scanInterrupted false = v at hanswer hw1 hkept
    have hwused : (g.record (g.job i).account).checkOk = true → (g.record (g.job i).account).used < 2 ^ 32 →
        (State.record { v.finish with lanes := g.lanes.set 1 { g.lane 1 with service := none } } (g.job i).account).used =
          (g.record (g.job i).account).used := hkept
    change Answers _ _ { State.answered { v.finish with lanes := g.lanes.set 1 { g.lane 1 with service := none } } 0 k .ok
      (b.slot h.idx).state.code (b.slot h.idx).page with core := v.pumpCore.core } at hanswer
    generalize ({ v.finish with lanes := g.lanes.set 1 { g.lane 1 with service := none } } : State) = w at hanswer hw1 hwused
    obtain ⟨⟨hwframe, hwclosed, -, -, hwjob, hwreserved, hwslots, -⟩, hwstored, hwle, -⟩ := hw1
    have hends : g.scanEndsJob i = false := by
      unfold State.scanEndsJob
      rw [hgjob]
      show (decide ((b.job i).state = .ending) && _) = false
      rw [hopen]
      rfl
    rw [hends] at hwframe hwjob hwslots
    have hnotending : (g.job i).state ≠ .ending := by
      rw [hgjob]
      show (b.job i).state ≠ .ending
      rw [hopen]
      decide
    have hgacc : (g.job i).account = (b.job i).account := by rw [hgjob]
    have hgacct : ∀ x, g.acct x = b.acct x := fun x => by
      rw [hgframe]
      rfl
    have hgrecord : ∀ x, g.record x = b.record x := fun x => by
      rw [hgframe]
      rfl
    have hmem : w.mem = (g.answered 1 p .scanInterrupted g.scan.page g.scan.written false g.scan.truncation).mem :=
      (congrArg State.mem hwframe).trans rfl
    have hgmem : g.mem = b.mem := by rw [hgframe]
    obtain ⟨hword1, hword2, hword3⟩ := State.answered_words g 1 p .scanInterrupted g.scan.page g.scan.written false g.scan.truncation
      (by rw [hgmem]; exact hbmem)
    rw [← hmem] at hword1 hword2 hword3
    have hjobw : w.job i = { g.job i with
        scanHold := 0, scanFlight := false, free := (g.job i).free + (g.job i).scanHold - 0
        total := min (g.job i).total (2 ^ 32 - 1) } := by
      refine hwjob.trans ((if_neg Bool.false_ne_true).trans ?_)
      rw [if_neg hnotending]
      rfl
    rw [hgjob] at hjobw
    have hapart52 : ∀ d, 52 ≤ d → d + 4 ≤ 64 → (w.answered 0 k .ok (b.slot h.idx).state.code (b.slot h.idx).page).mem.word (p.address + d) =
        w.mem.word (p.address + d) := fun d hd hd' => State.answered_apart w 0 k _ _ _ hapart hd hd'
    have hgepoch : g.epoch = b.epoch := by
      rw [hgframe]
      rfl
    generalize hcore' : v.pumpCore.core = κ at hanswer
    refine ⟨{ w.answered 0 k .ok (b.slot h.idx).state.code (b.slot h.idx).page with core := κ }, hanswer, ?_, fun x hkx hpx => ?_,
      congrArg State.scan hwframe, ?_, ?_, ?_, ?_, Cause.or_mask _ _, ?_, ?_, ?_, ?_, (hapart52 52 (by omega) (by omega)).trans ?_,
      (hapart52 56 (by omega) (by omega)).trans ?_, (hapart52 60 (by omega) (by omega)).trans ?_, ?_, ?_, ?_⟩
    · rw [hgframe] at hwframe
      unfold State.answered
      generalize Memory.putWord _ (k.address + 60) _ = M
      generalize Vector.set w.lanes _ _ _ = lanes
      dsimp only [] at hwframe ⊢
      rw [hwframe]
    · refine (State.answered_read_other w 0 _ _ _ _ _ hkx).trans ?_
      rw [hmem]
      exact (State.answered_read_other g 1 _ _ _ _ _ hpx).trans (by rw [hgmem])
    · have hslots := congrArg (fun y => entryAt y h.idx (KeySlot.free 0)) (hwslots rfl).1
      exact hslots.trans hgslot
    · have hlane : w.lanes[1] = { g.lane 1 with service := none } := by
        rw [congrArg State.lanes hwframe]
        exact Vector.getElem_set_self _
      show (Vector.get (w.lanes.set 0 _) 1).service = none
      rw [Vector.get_eq_getElem]
      refine (congrArg Lane.service (Vector.getElem_set_ne _ _ (by decide))).trans ?_
      exact congrArg Lane.service hlane
    · show (Vector.get (w.lanes.set 0 _) 0).service = none
      rw [Vector.get_eq_getElem]
      exact congrArg Lane.service (Vector.getElem_set_self _)
    · show (w.notice ||| (Cause.closed 0).mask).getLsbD (Cause.closed 1).bit = true
      rw [BitVec.getLsbD_or, hwclosed, Bool.true_or]
    · exact (congrArg Job.scanFlight hjobw).trans rfl
    · exact (congrArg Job.scanHold hjobw).trans rfl
    · exact (congrArg Job.free hjobw).trans rfl
    · exact (congrArg Job.total hjobw).trans rfl
    · rw [hword1, hgscan]
    · rw [hword2, hgscan]
    · rw [hword3, hgscan, hgepoch]
      rfl
    · rw [if_neg hnotending, hgacc, hgacct] at hwreserved
      exact hwreserved
    · rw [hgacc, hgrecord] at hwle
      exact hwle
    · rw [hgacc, hgrecord] at hwused
      exact hwused
  · generalize hb : (s.begin env).touchSession session = b at *
    generalize hh : SlotHandle.ofWord (k.w 2) = h at *
    have hframe := State.touchSession_frame (s.begin env) session
    have hbenv : b.env = env := by rw [← hb, hframe]; rfl
    have hblanes : b.lanes = (s.begin env).lanes := by rw [← hb, hframe]
    obtain ⟨L, hL⟩ : ∃ L, L = ((s.begin env).beginService 0).lanes := ⟨_, rfl⟩
    obtain ⟨hglanes, hgenv, hgscan, -⟩ := State.slotGone_lanes b h
    have hbands : (b.setLanes L).bandsAtCore h = [] := by
      have hnone : b.core.band.filter (fun c => c.path = .print && !c.orphan && c.slot = h) = none :=
        Option.filter_eq_none_iff.mpr fun c hc => by simp [hcore c hc]
      show (b.core.band.filter (fun c => c.path = .print && !c.orphan && c.slot = h)).toList.map _ ++ b.core.printQueue.filter _ = []
      rw [hnone, List.filter_eq_nil_iff.mpr]
      · rfl
      · exact fun i hi h' => hq i hi (of_decide_eq_true h')
    obtain ⟨band, hdestroyed⟩ := State.destroySlot_cipher (b := b.setLanes L) hslot hbands hs hf hscan hcip
    rw [State.slotGone_setLanes] at hdestroyed
    generalize hg : b.slotGone h = g at *
    have hL1 : (g.setLanes L).lane 1 = g.lane 1 := by
      rw [State.lane, State.lane, hglanes, hblanes, hL]
      exact State.beginService_lane_other (by decide)
    have hcl : (State.lane { g.setLanes L with core := { (g.setLanes L).core with band := band } } 1).service = some p := by
      show ((g.setLanes L).lane 1).service = some p
      rw [hL1, State.lane, hglanes]
      exact hl
    have hcfree : State.closesFreely { g.setLanes L with core := { (g.setLanes L).core with band := band } } p :=
      State.closesFreely_of_env (u := b) hgenv hfree
    have hcwork : (g.setLanes L).scan.work ≠ .page := by
      rw [State.setLanes_scan, hgscan]
      exact hwork
    have hfails := State.failCipher_fails hcl hcfree hcwork ((congrArg ScanPath.state hgscan).trans hs)
      ((congrArg ScanPath.failed hgscan).trans hf) .badSlot
    have hfails := hfails.of_core (s := g.setLanes L) rfl
    have hvenv := State.failCipher_env hcl hcfree hcwork .badSlot
    rw [← hdestroyed] at hfails hvenv
    generalize hveq : (b.setLanes L).destroySlot h.idx = v at hfails hvenv
    rw [hL] at hveq
    have hanswers : ∀ z, v.lanes = L.set 1 z → ∃ t, Answers (.destroySlot env) s t ∧ t = { State.answered
        { v.finish with lanes := g.lanes.set 1 z } 0 k .ok (b.slot h.idx).state.code (b.slot h.idx).page with core := t.core } := fun z hz => by
      have hanswer := destroySlot_beside (m := 1) hserves hjob hsession hb.symm hh.symm hslot haccount howner (by decide) hveq
        (hz.trans (by rw [hL]; rfl)) (hvenv.trans (hgenv.trans hbenv))
      rw [hglanes]
      exact ⟨_, hanswer, rfl⟩
    cases hwriting : (g.setLanes L).writingBuffer with
    | none =>
      have hended := hfails.1 hwriting
      obtain ⟨t, hanswer, ht⟩ := hanswers { (g.setLanes L).lane 1 with service := none } ((congrArg State.lanes hended.1).trans rfl)
      rw [hL1] at ht
      have hsome : g.writingBuffer.isSome = true → False := fun h' => by
        rw [show g.writingBuffer = none from hwriting] at h'
        cases h'
      exact ⟨t, _, hanswer, ⟨fun _ => hended.setLanes, fun h' => (hsome h').elim⟩, ht⟩
    | some i =>
      obtain ⟨hvframe, hvbuffers, hvwait, hvband, hvcount⟩ := hfails.2 (by rw [hwriting]; rfl)
      have hsame : L.set 1 ((g.setLanes L).lane 1) = L := Vector.set_getElem_self _
      obtain ⟨t, hanswer, ht⟩ := hanswers ((g.setLanes L).lane 1) (((congrArg State.lanes hvframe).trans rfl).trans hsame.symm)
      have hgsame : g.lanes.set 1 (g.lane 1) = g.lanes := Vector.set_getElem_self _
      rw [hL1, hgsame] at ht
      refine ⟨t, { v.finish with lanes := g.lanes }, hanswer, ⟨fun h' => ?_, fun _ => ⟨?_, hvbuffers, hvwait, hvband, hvcount⟩⟩, ht⟩
      · rw [show g.writingBuffer = some i from hwriting] at h'
        cases h'
      · generalize v.finish = w at hvframe
        dsimp only [] at hvframe ⊢
        rw [hvframe]
        rfl

end Sys2Proof.Proofs
end

