-- ==== Sys2Proof/Proofs/WorkEnds.lean ====
section
/-! What the ends of work leave unchanged, from whatever state: the draws made, a waiting Check Cartridge, an empty core and FREE slots. -/

namespace Sys2Proof.Machine

variable {s t u : State} {n i j : Nat} {code : ReturnCode} {a : ScanArgs} {h : SlotHandle}

/-- R114: the cipher core holds no band and none waits for it. -/
def Core.isEmpty (c : Core) : Prop := c.band = none ∧ c.printQueue = [] ∧ c.scanWaiting = none

/-- A slot is FREE with nothing in it (R111). -/
def KeySlot.isFree (k : KeySlot) : Prop := k = .free k.gen

/-- The ends of work of the paths: they neither draw a key, nor touch a waiting Check Cartridge, nor give the core a band, nor put
anything into a FREE slot. -/
structure WorkEnds (s t : State) : Prop where
  frame : t = { s with
    faults := t.faults, stored := t.stored, accounts := t.accounts, zeroCaptured := t.zeroCaptured, sessions := t.sessions, jobs := t.jobs
    hold := t.hold, print := t.print, engineOut := t.engineOut, scan := t.scan, core := t.core, slots := t.slots, carts := t.carts
    link := t.link, lanes := t.lanes, notice := t.notice, mem := t.mem, afterWrites := t.afterWrites } := by rfl
  core : s.core.isEmpty → t.core.isEmpty := by exact id
  slots : ∀ x, (s.slot x).isFree → (t.slot x).isFree := by exact fun _ h => h
  count : t.core.count = s.core.count := by rfl

theorem WorkEnds.refl : WorkEnds s s := {}

theorem WorkEnds.trans (h : WorkEnds s t) (h' : WorkEnds t u) : WorkEnds s u where
  frame := by rw [h'.frame, h.frame]
  core := h'.core ∘ h.core
  slots x := h'.slots x ∘ h.slots x
  count := h'.count.trans h.count

theorem WorkEnds.ite {p : Prop} [Decidable p] {v : State} (hu : p → WorkEnds s u) (hv : ¬p → WorkEnds s v) :
    WorkEnds s (if p then u else v) := by
  split
  · exact hu ‹_›
  · exact hv ‹_›

theorem WorkEnds.foldl {α : Type} {f : State → α → State} (hf : ∀ t x, WorkEnds t (f t x)) (l : List α) (s : State) :
    WorkEnds s (l.foldl f s) := by
  induction l generalizing s with
  | nil => exact .refl
  | cons x l ih => exact (hf s x).trans (ih _)

/-! ### Accounts, activity and tickets -/

theorem State.touchJob_ends (s : State) (x : Handle) : WorkEnds s (s.touchJob x) := by rw [s.touchJob_frame x]; exact {}

theorem State.touchHold_ends (s : State) (x : Handle) : WorkEnds s (s.touchHold x) := by rw [s.touchHold_frame x]; exact {}

theorem State.readAccount_ends (s : State) (n : Nat) : WorkEnds s (s.readAccount n) := by rw [s.readAccount_frame n]; exact {}

theorem State.chargeAccount_ends (s : State) (n : Nat) (c : AccountCharge) : WorkEnds s (s.chargeAccount n c) :=
  (s.readAccount_ends n).trans (.ite (fun _ => .refl) fun _ => {})

theorem State.close_ends (s : State) (lane : Fin 4) (code : ReturnCode) (w13 w14 : Nat) (ended truncated : Bool) :
    WorkEnds s (s.close lane code w13 w14 ended truncated) := by rw [s.close_frame]; exact {}

theorem Core.isEmpty.dropped {c : Core} (h : c.isEmpty) (p : CipherPath) : c.orphaned p = none := by
  unfold Core.orphaned
  rw [h.1]

theorem State.dropCore_ends (s : State) (p : CipherPath) : WorkEnds s (s.dropCore p) := by
  cases p with
  | print => exact { core := fun h => ⟨h.dropped _, rfl, h.2.2⟩ }
  | scan => exact { core := fun h => ⟨h.dropped _, h.2.1, rfl⟩ }

theorem State.printIdle_ends (s : State) : WorkEnds s s.printIdle := WorkEnds.trans {} (State.dropCore_ends _ _)

theorem State.scanIdle_ends (s : State) : WorkEnds s s.scanIdle := WorkEnds.trans {} (State.dropCore_ends _ _)

/-! ### Cipher tickets -/

theorem State.closeCipher_ends (s : State) (code : ReturnCode) : WorkEnds s (s.closeCipher code) := by
  unfold State.closeCipher
  cases s.scan.work with
  | page => exact .refl
  | encipher => exact (s.close_ends ..).trans (State.scanIdle_ends _)
  | decipher => exact (s.close_ends ..).trans (State.scanIdle_ends _)

theorem State.failCipher_ends (s : State) (code : ReturnCode) : WorkEnds s (s.failCipher code) := by
  refine .ite (fun _ => ?_) fun _ => .refl
  have hdrop : WorkEnds s ((State.eraseUnwritten { s with scan := { s.scan with failed := some code } }).dropCore .scan) :=
    WorkEnds.trans {} (State.dropCore_ends _ _)
  exact .ite (fun _ => hdrop.trans (State.closeCipher_ends _ _)) fun _ => hdrop

theorem State.cipherSlotLost_ends (s : State) (h : SlotHandle) : WorkEnds s (s.cipherSlotLost h) := by
  refine .ite (fun _ => ?_) fun _ => .refl
  refine WorkEnds.trans ?_ (State.failCipher_ends _ _)
  split
  · exact .refl
  · exact .ite (fun _ => { core := fun h => ⟨rfl, h.2⟩ }) fun _ => .refl

/-! ### Slots and jobs -/

theorem State.stopCore_ends (s : State) (h : SlotHandle) : WorkEnds s (s.stopCore h) := by
  unfold State.stopCore
  split
  · exact .refl
  · exact .ite (fun _ => { core := fun h => ⟨rfl, h.2⟩ }) fun _ => .refl

theorem State.detachSlot_ends (s : State) (x : Option Handle) (h : SlotHandle) : WorkEnds s (s.detachSlot x h) := by
  cases x with
  | none => exact .refl
  | some j => exact {}

theorem State.putSlot_ends (s : State) (i : Nat) (k : KeySlot) (hk : (s.slot i).isFree → k.isFree) : WorkEnds s (s.putSlot i k) where
  slots x hx := by
    rw [s.putSlot_slot]
    split
    · rename_i e
      exact hk (e.1 ▸ hx)
    · exact hx

theorem State.wipeSlot_ends (s : State) (i : Nat) : WorkEnds s (s.wipeSlot i) :=
  ((s.putSlot_ends i (.free (((s.slot i).gen + 1) % 65536)) fun _ => rfl).trans (State.detachSlot_ends ..)).trans (State.stopCore_ends ..)

theorem State.jobEndSlot_ends (s : State) (h : SlotHandle) : WorkEnds s (s.jobEndSlot h) := by
  refine .ite (fun _ => (s.wipeSlot_ends _).trans (State.cipherSlotLost_ends _ _)) fun hkeep => ?_
  refine (s.putSlot_ends _ _ fun hfree => absurd ?_ hkeep).trans (State.cipherSlotLost_ends _ _)
  rw [hfree]
  rfl

theorem State.jobEndSlots_ends (s : State) (i : Nat) : WorkEnds s (s.jobEndSlots i) :=
  (WorkEnds.foldl State.jobEndSlot_ends (s.job i).slots s).trans {}

theorem State.finishJob_ends (s : State) (i : Nat) : WorkEnds s (s.finishJob i) := by
  have hrelease : WorkEnds s (s.releaseFree i) := {}
  exact (hrelease.trans (State.jobEndSlots_ends _ i)).trans {}

theorem State.completeEnd_ends (s : State) (x : Handle) : WorkEnds s (s.completeEnd x).1 := by
  unfold State.completeEnd
  split
  · exact .refl
  · dsimp only []
    split
    · exact s.finishJob_ends _
    · exact .refl

theorem State.settleHold_ends (s : State) (x : Handle) (p : CipherPath) (d : Bool) (c : AccountCharge) :
    WorkEnds s (s.settleHold x p d c) := by
  unfold State.settleHold
  split
  · exact .refl
  · rename_i i _
    dsimp only []
    have hput : WorkEnds s ((s.subReserved (s.job i).account c.charge).putJob i ((s.job i).settled p c.charge d)) := {}
    have hcharged := ((hput.trans (State.chargeAccount_ends _ (s.job i).account c)).trans (State.touchJob_ends _ x)).trans
      (State.touchHold_ends _ x)
    exact .ite (fun _ => hcharged.trans {}) fun _ => hcharged

/-! ### The print path -/

theorem State.deduct_ends (s : State) (colour : Bool) (toner : PerPlane Nat) : WorkEnds s (s.deduct colour toner) := by
  obtain ⟨known, knownOk, carts, link, notice, afterWrites, hframe⟩ := (s.deduct_deducted colour toner).frame
  rw [hframe]
  exact {}

theorem State.writePrintResult_ends (s : State) (x : Nat) (ws : List Word) : WorkEnds s (s.writePrintResult x ws) := by
  have hframe := s.writeWords_frame ws x
  unfold State.writePrintResult
  split
  · rename_i v hv
    rw [hv] at hframe
    dsimp only [] at hframe
    rw [hframe]
    exact {}
  · rename_i v bad hv
    rw [hv] at hframe
    dsimp only [] at hframe
    rw [hframe]
    exact {}

theorem State.settlePrint_ends (s : State) (o : PrintOutcome) (cause : PrintCause) (code : ReturnCode) (w14 : Nat) :
    WorkEnds s (s.settlePrint o cause code w14) := by
  unfold State.settlePrint
  split
  · dsimp only []
    refine WorkEnds.trans ?_ (State.printIdle_ends _)
    refine WorkEnds.trans ?_ (State.close_ends ..)
    refine WorkEnds.trans ?_ (State.completeEnd_ends _ _)
    refine WorkEnds.trans ?_ (State.writePrintResult_ends ..)
    have hdeduct : ∀ (v : State) (colour : Bool) (toner : PerPlane Nat), WorkEnds s v →
        WorkEnds s (if o = .notImaged then v else v.deduct colour toner) := fun v colour toner hv =>
      .ite (fun _ => hv) fun _ => hv.trans (v.deduct_ends _ _)
    exact .ite (fun _ => hdeduct _ _ _ (s.settleHold_ends ..)) fun _ => (hdeduct _ _ _ (s.settleHold_ends ..)).trans {}
  · exact .refl

theorem State.spoil_ends (s : State) (cause : PrintCause) : WorkEnds s (s.spoil cause) :=
  WorkEnds.trans (WorkEnds.trans {} (State.dropCore_ends _ _)) (State.settlePrint_ends ..)

/-- R62: out of RUNNING a pass refuses the ticket. -/
theorem State.renewPrint_ends (s : State) (hop : s.dev.op = .withdrawn) : WorkEnds s s.renewPrint := by
  refine .ite (fun _ => ?_) fun _ => .refl
  unfold State.printAdmit
  split
  · exact .refl
  · rename_i x _
    have hrefused : (s.touchJob x.job).printRefusal12 x = some { code := .withdrawn, w14 := 0 } := by
      have hdev : (s.touchJob x.job).dev.op = .withdrawn := by rw [s.touchJob_frame]; exact hop
      simp [State.printRefusal12, firstRefusal, State.runningRefusal, hdev]
    dsimp only []
    rw [hrefused]
    exact ((s.touchJob_ends _).trans (State.close_ends ..)).trans (State.printIdle_ends _)

theorem State.printWithdrawal_ends (s : State) (hop : s.dev.op = .withdrawn) : WorkEnds s s.printWithdrawal := by
  unfold State.printWithdrawal
  cases s.print.state with
  | idle => exact .refl
  | waiting => exact s.renewPrint_ends hop
  | preparing => exact s.settlePrint_ends ..
  | imaging => exact s.spoil_ends _
  | imaged => exact s.spoil_ends _

/-! ### The scan path -/

theorem State.settleScan_ends_work (s : State) (code : ReturnCode) (charge : Nat) : WorkEnds s (s.settleScan code charge) := by
  unfold State.settleScan
  split
  · exact .refl
  · dsimp only []
    refine WorkEnds.trans ?_ (State.scanIdle_ends _)
    refine WorkEnds.trans ?_ (State.close_ends ..)
    refine WorkEnds.trans ?_ (State.completeEnd_ends _ _)
    exact .ite (fun _ => (s.settleHold_ends ..).trans {}) fun _ => s.settleHold_ends ..

theorem State.failPage_ends (s : State) (code : ReturnCode) (ended : Bool) : WorkEnds s (s.failPage code ended) := by
  refine .ite (fun _ => ?_) fun _ => .refl
  have hdrop : WorkEnds s ((State.eraseUnwritten { s with scan := { s.scan with
      failed := some code, drain := s.scan.drain || !(s.scan.pageEnd || ended) } }).dropCore .scan) :=
    WorkEnds.trans {} (State.dropCore_ends _ _)
  exact .ite (fun _ => hdrop.trans (State.settleScan_ends_work _ _ _)) fun _ => hdrop

/-- R86: out of RUNNING a pass refuses the ticket. -/
theorem State.renewScan_ends (s : State) (hop : s.dev.op = .withdrawn) : WorkEnds s s.renewScan := by
  refine .ite (fun _ => ?_) fun _ => .refl
  unfold State.scanAdmit
  split
  · exact .refl
  · rename_i x _
    have hrefused : (s.touchJob x.job).runningRefusal = some { code := .withdrawn, w14 := 0 } := by
      have hdev : (s.touchJob x.job).dev.op = .withdrawn := by rw [s.touchJob_frame]; exact hop
      simp [State.runningRefusal, hdev]
    dsimp only []
    rw [hrefused]
    exact ((s.touchJob_ends _).trans (State.close_ends ..)).trans (State.scanIdle_ends _)

theorem State.stopPlainWrite_ends (s : State) : WorkEnds s s.stopPlainWrite := by
  unfold State.stopPlainWrite
  split
  · dsimp only []
    rw [State.writeBytes_frame]
    exact {}
  · exact .refl

theorem State.scanWithdrawal_ends (s : State) (hop : s.dev.op = .withdrawn) : WorkEnds s s.scanWithdrawal := by
  unfold State.scanWithdrawal
  cases s.scan.state with
  | idle => exact .refl
  | waiting => exact s.renewScan_ends hop
  | scanning => exact s.failPage_ends _ _
  | ciphering =>
    dsimp only []
    split
    · exact s.stopPlainWrite_ends.trans (State.failCipher_ends _ _)
    · exact .ite (fun _ => s.stopPlainWrite_ends.trans (State.closeCipher_ends _ _)) fun _ => s.stopPlainWrite_ends

end Sys2Proof.Machine
end

