-- ==== Sys2Proof/Proofs/Privacy.lean ====
section
/-! An edge of a sense line (R147, R148), and that of the PRIVACY line (R173, R114): O43. -/

namespace Sys2Proof.Machine

variable {s u v b t : State} {env : Env} {k : Ticket} {n m i : Nat} {code : ReturnCode} {a : ScanArgs}

/-! ### Edges of lines -/

/-- A decay leaves the settings in effect as they are: it takes their check value alone. -/
theorem State.begin_settings (s : State) (env : Env) : (s.begin env).stored.settings = s.stored.settings :=
  Stored.decayed (Q := fun st _ => st.settings = s.stored.settings) (m := s.mem) (fun st d _ h => by cases d <;> exact h) env.decayed rfl

theorem State.begin_lineAbnormal (s : State) (env : Env) (n : Nat) : (s.begin env).lineAbnormal n = s.lineAbnormal n := by
  unfold State.lineAbnormal
  rw [s.begin_settings]
  rfl

theorem State.edgeTaken_level (s : State) (n m : Nat) (hm : m < 8) :
    (s.edgeTaken n).levels.getLsbD m = (s.levels.getLsbD m ^^ decide (n = m)) := by
  simp [State.edgeTaken, hm, eq_comm]

/-- R147: the taken edge makes the line abnormal or normal when the line is watched, and no other line. -/
theorem State.edgeTaken_abnormal (s : State) (n m : Nat) (hm : m < 8) : (s.edgeTaken n).abnormal.getLsbD m =
    (s.abnormal.getLsbD m ^^ (decide (n = m) && s.stored.settings.sense.watch.getLsbD m)) := by
  have hlevel := s.edgeTaken_level n m hm
  simp only [State.abnormal, abnormalLines, BitVec.getLsbD_and, BitVec.getLsbD_xor, hlevel]
  rw [show (s.edgeTaken n).stored = s.stored from rfl]
  cases s.stored.settings.sense.watch.getLsbD m <;> cases s.levels.getLsbD m <;>
    cases s.stored.settings.sense.normalHigh.getLsbD m <;> cases decide (n = m) <;> rfl

theorem departed_engine (x : BitVec 8) : departed engineLines x = (x.getLsbD 0 || x.getLsbD 1 || x.getLsbD 2) := by
  revert x; decide

theorem departed_scanner (x : BitVec 8) : departed scannerLines x = x.getLsbD 3 := by revert x; decide

theorem departed_privacy (x : BitVec 8) : departed privacyLines x = x.getLsbD 4 := by revert x; decide

theorem wentAbnormal_same {old new : BitVec 8} (h : new.getLsbD n = old.getLsbD n) : wentAbnormal old new n = false := by
  unfold wentAbnormal
  rw [h]
  cases old.getLsbD n <;> rfl

theorem returned_same {old new : BitVec 8} (h : new.getLsbD n = old.getLsbD n) : returned old new n = false := by
  unfold returned
  rw [h]
  cases old.getLsbD n <;> rfl

theorem State.doorChange_same {old new : BitVec 8} (h : new.getLsbD n = old.getLsbD n) : s.doorChange old new n = s := by
  unfold State.doorChange
  rw [wentAbnormal_same h, returned_same h]
  rfl

theorem State.groupChange_same {old new group : BitVec 8} {f : State → State} (h : departed group old = departed group new) :
    s.groupChange old new group f = s := if_pos h

theorem State.scannerReadyEdge_same {old new : BitVec 8} (h : new.getLsbD 6 = old.getLsbD 6) : s.scannerReadyEdge old new = s := by
  unfold State.scannerReadyEdge
  rw [wentAbnormal_same h]
  rfl

theorem State.engineReadyReturn_same {old new : BitVec 8} (h5 : new.getLsbD 5 = old.getLsbD 5) (h7 : new.getLsbD 7 = old.getLsbD 7) :
    s.engineReadyReturn old new = s := by
  unfold State.engineReadyReturn
  rw [returned_same h5, returned_same h7]
  rfl

theorem State.scannerReadyReturn_same {old new : BitVec 8} (h : new.getLsbD 6 = old.getLsbD 6) : s.scannerReadyReturn old new = s := by
  unfold State.scannerReadyReturn
  rw [returned_same h]
  rfl

/-- R148: an edge that makes S4 abnormal withdraws the part. -/
theorem State.senseChange_privacy {old new : BitVec 8} (hsame : ∀ m < 8, m ≠ 4 → new.getLsbD m = old.getLsbD m)
    (hold : old.getLsbD 4 = false) (hnew : new.getLsbD 4 = true) : s.senseChange old new = (s.raise .sense).withdraw.pumpCore := by
  have h0 := hsame 0 (by decide) (by decide)
  have h1 := hsame 1 (by decide) (by decide)
  have h2 := hsame 2 (by decide) (by decide)
  have h3 := hsame 3 (by decide) (by decide)
  have h6 := hsame 6 (by decide) (by decide)
  have hengine : departed engineLines old = departed engineLines new := by rw [departed_engine, departed_engine, h0, h1, h2]
  have hscanner : departed scannerLines old = departed scannerLines new := by rw [departed_scanner, departed_scanner, h3]
  unfold State.senseChange
  dsimp only []
  rw [State.doorChange_same h0, State.doorChange_same h1, State.scannerReadyEdge_same h6,
    State.groupChange_same hengine, State.groupChange_same hscanner,
    State.engineReadyReturn_same (hsame 5 (by decide) (by decide)) (hsame 7 (by decide) (by decide)), State.scannerReadyReturn_same h6]
  refine congrArg State.pumpCore ?_
  unfold State.groupChange
  rw [departed_privacy, departed_privacy, hold, hnew]
  rfl

theorem effectOf_senseLineEdge (ha : s.alive = true) (line : Fin 8) (high : Bool) :
    effectOf (.senseLineEdge env line high) (s.begin env) = (s.begin env).takeEdge line.val high :=
  (s.begin env).whenAlive_of ha fun b => b.takeEdge line.val high

/-! ### The withdrawal (R173, R114) -/

/-- R114: a slot destroyed in a withdrawal holds nothing. -/
theorem State.wipeAll_isFree (h : s.slotsLawful) (i : Nat) : (s.wipeAll.slot i).isFree := by
  have hreach : Reaches ⟨fun _ _ => True, True, True⟩ s s.wipeAll := Reaches.refl.wipeAll
  have hlawful : s.wipeAll.slotsLawful := hreach.keeps h fun hact hx => slotsLawful_kept.acts ⟨_, hx, fun _ => trivial⟩ hact hx
  have hslot := hlawful i
  unfold KeySlot.lawful at hslot
  rw [s.wipeAll_spec.2.1 i] at hslot
  exact hslot

/-- R173, R170: the part in WITHDRAWN, with its entry time. -/
def State.markWithdrawn (s : State) : State := { s with dev := { s.dev with op := .withdrawn, entryTime := some s.dev.clock } }

theorem State.withdraw_eq (hop : s.dev.op = .running) : s.withdraw = s.markWithdrawn.wipeAll.printWithdrawal.scanWithdrawal := if_pos hop

theorem State.wipeAll_empty (s : State) : s.wipeAll.core.isEmpty := ⟨rfl, rfl, rfl⟩

/-- R173, R114: a withdrawal ends the work of the paths and leaves neither a key nor a band at the core. -/
theorem State.withdraw_ends (hop : s.dev.op = .running) : WorkEnds s.markWithdrawn.wipeAll s.withdraw := by
  have hdev : ∀ x : State, WorkEnds s.markWithdrawn.wipeAll x → x.dev.op = .withdrawn := fun x hx => by
    rw [hx.frame, (State.wipeAll_spec _).1]
    rfl
  rw [State.withdraw_eq hop]
  have hprint := State.printWithdrawal_ends s.markWithdrawn.wipeAll (hdev _ .refl)
  exact hprint.trans (State.scanWithdrawal_ends _ (hdev _ hprint))

/-- The scope of a withdrawal. -/
def Scope.still : Scope := ⟨fun _ _ => True, False, False⟩

/-- R164: a cause that is set when a withdrawal begins stays set. -/
theorem State.withdraw_notice (s : State) {i : Nat} (hi : s.notice.getLsbD i = true) : s.withdraw.notice.getLsbD i = true :=
  (Reaches.refl.withdraw (W := Scope.still) ⟨fun _ _ _ _ _ _ => trivial, fun _ _ _ _ _ => trivial, fun _ _ _ _ _ => trivial⟩ id
    fun _ _ _ _ _ _ _ => .inr trivial).notice hi

theorem State.writeBytes_mem (l : List Byte) (s u : State) (x : Nat) (hm : s.mem = u.mem) (he : s.env = u.env) :
    (s.writeBytes x l).1.mem = (u.writeBytes x l).1.mem := by
  induction l generalizing s u x with
  | nil => exact hm
  | cons y l ih =>
    simp only [State.writeBytes, he]
    split
    · exact hm
    · exact ih _ _ _ (congrArg (fun m => Memory.write m (wrapAddress x) y) hm) he

/-- R99: a withdrawal stops a plaintext write under way: the bytes already written stay, the band is erased. -/
theorem State.stopPlainWrite_some (h : s.writingBuffer = some i) (hw : s.scan.work = .decipher) : s.stopPlainWrite =
    { s with
      mem := (s.writeBytes (s.destination (s.buffer i).band) ((s.buffer i).data.take s.env.stopped)).1.mem
      scan := { s.scan with internal := putAt s.scan.internal i .erased } } := by
  unfold State.stopPlainWrite
  rw [hw, h]
  dsimp only []
  rw [State.writeBytes_frame]
  rfl

theorem State.stopPlainWrite_none (h : s.scan.work = .decipher → s.writingBuffer = none) : s.stopPlainWrite = s := by
  unfold State.stopPlainWrite
  split
  · rename_i hw hi
    rw [h hw] at hi
    cases hi
  · rfl

end Sys2Proof.Machine

namespace Sys2Proof.Proofs

open Sys2Proof.Machine

/-- Settles O43: a PRIVACY departure withdraws the part. -/
theorem privacyEdgeWithdraws : Obligations.PrivacyEdgeWithdraws := by
  intro env s line high halive b
  have hanswer := (answers_iff (c := .senseLineEdge env line high) (s := s) nofun).mpr rfl
  rw [show (Instr.senseLineEdge env line high).env = env from rfl, effectOf_senseLineEdge halive, State.takeEdge_eq] at hanswer
  refine ⟨fun hsame => ?_, fun hline hlevel hnormal hwatch hop hslots => ?_⟩
  · rw [if_pos (show (s.begin env).levels.getLsbD line.val = high from hsame)] at hanswer
    exact hanswer
  subst hline
  rw [if_neg (show (s.begin env).levels.getLsbD (4 : Fin 8).val ≠ high from hlevel)] at hanswer
  have hold : b.abnormal.getLsbD 4 = false := (s.begin_lineAbnormal env 4).trans hnormal
  have hnew : (b.edgeTaken 4).abnormal.getLsbD 4 = true := by
    rw [State.edgeTaken_abnormal _ _ _ (by decide), hold, show b.stored.settings = s.stored.settings from s.begin_settings env, hwatch]
    rfl
  have hother : ∀ m < 8, m ≠ 4 → (b.edgeTaken 4).abnormal.getLsbD m = b.abnormal.getLsbD m := fun m hm hne => by
    rw [State.edgeTaken_abnormal _ _ _ hm, decide_eq_false (Ne.symm hne), Bool.false_and, Bool.xor_false]
  have htaken : (b.edgeTaken 4).levels.getLsbD 4 = high := by
    rw [State.edgeTaken_level _ _ _ (by decide)]
    have hb : b.levels.getLsbD 4 ≠ high := hlevel
    revert hb
    cases b.levels.getLsbD 4 <;> cases high <;> decide
  rw [show (s.begin env).edgeTaken (4 : Fin 8).val = b.edgeTaken 4 from rfl, show (s.begin env).abnormal = b.abnormal from rfl,
    State.senseChange_privacy hother hold hnew] at hanswer
  have hrun : ((b.edgeTaken 4).raise .sense).dev.op = .running := hop
  have hnotice : ((b.edgeTaken 4).raise .sense).notice.getLsbD Cause.sense.bit = true := by
    simp only [State.raise, Cause.mask, BitVec.getLsbD_or, BitVec.getLsbD_twoPow]
    simp [show Cause.sense.bit < 13 by decide]
  have hset := State.withdraw_notice _ hnotice
  have hends := State.withdraw_ends hrun
  have hscanned := State.withdraw_eq hrun
  have hlawful : ((b.edgeTaken 4).raise .sense).markWithdrawn.slotsLawful := hslots
  have hfree := State.wipeAll_isFree hlawful
  obtain ⟨hwipe, -, hjobs⟩ := ((b.edgeTaken 4).raise .sense).markWithdrawn.wipeAll_spec
  generalize ((b.edgeTaken 4).raise .sense).withdraw = w at hanswer hset hends hscanned
  have hempty : w.core.isEmpty := hends.core (State.wipeAll_empty _)
  refine ⟨?_, fun hidle hfailed a k hargs hlane hcloses => ?_⟩
  · have hpump : w.pumpCore = w := State.pumpCore_settled fun _ => hempty.2
    rw [hpump] at hanswer
    refine ⟨w.finish, hanswer, ?_, ?_, ?_, fun i => ?_, hempty.1, hempty.2.1, hempty.2.2, hset⟩
    · rw [hends.frame, hwipe]
      rfl
    · rw [hends.frame, hwipe]
      rfl
    · rw [hends.frame, hwipe]
      exact htaken
    · have hi : (w.slot i).isFree := hends.slots i (hfree i)
      rw [show w.finish.slot i = w.slot i from rfl, hi]
      exact ⟨rfl, rfl⟩
  · generalize ((b.edgeTaken 4).raise .sense).markWithdrawn.wipeAll = c at hscanned hwipe hjobs
    have hprint : c.printWithdrawal = c := by
      have hidle' : c.print.state = .idle := by rw [hwipe]; exact hidle
      rw [State.printWithdrawal, hidle']
    rw [hprint] at hscanned
    have hscan : c.scan = b.scan := by rw [hwipe]; rfl
    have henv : c.env = b.env := by rw [hwipe]; rfl
    have hmem : c.mem = b.mem := by rw [hwipe]; rfl
    have hservice : (c.lane 1).service = some k := by rw [hwipe]; exact hlane
    have hcloses' : c.closesFreely k := State.closesFreely_of_env henv hcloses
    refine ⟨fun i hstate hj hnone => ?_, fun hstate hwork => ?_⟩
    · have hjc : c.jobOf a.job = some i := State.jobOf_congr hj (by rw [hjobs]; rfl) (by rw [hjobs]; rfl)
      have hpage : c.scanPage a i k := ⟨by rw [hscan]; exact hargs, hjc, hservice, hcloses'⟩
      have hfail := State.failPage_failed (code := .withdrawn) hpage (by rw [hscan]; exact hstate) (by rw [hscan]; exact hfailed)
        (by rw [State.writingBuffer, hscan]; exact hnone) nofun false
      have hw : w = c.failPage .withdrawn false := by
        rw [hscanned, State.scanWithdrawal, hscan, show b.scan.state = .scanning from hstate]
      rw [hw] at hanswer
      refine ⟨_, c, hanswer, ?_, hmem, hscan, ?_⟩
      · rw [hwipe]
        rfl
      · rw [hscan, Bool.or_false] at hfail
        exact hfail.pumped
    · by_cases hplain : s.scan.work = .decipher ∧ s.writingBuffer.isSome = true
      · obtain ⟨hdecipher, hsome⟩ := hplain
        obtain ⟨i, hi⟩ := Option.isSome_iff_exists.mp hsome
        have hstop := State.stopPlainWrite_some (s := c) (i := i) (by rw [State.writingBuffer, hscan]; exact hi)
          (by rw [hscan]; exact hdecipher)
        have hwritten : (c.writeBytes (c.destination (c.buffer i).band) ((c.buffer i).data.take c.env.stopped)).1.mem =
            (b.writeBytes (s.destination (s.buffer i).band) ((s.buffer i).data.take env.stopped)).1.mem := by
          rw [State.destination, State.buffer, hscan, henv]
          exact State.writeBytes_mem _ _ _ _ hmem henv
        rw [hwritten] at hstop
        have hw : w = c.stopPlainWrite.failCipher .withdrawn := by
          rw [hscanned, State.scanWithdrawal, hscan, show b.scan.state = .ciphering from hstate, hstop]
          dsimp only []
          rw [hscan, show b.scan.failed = none from hfailed]
        have hfails := State.failCipher_fails (s := c.stopPlainWrite) (k := k) (by rw [hstop]; exact hservice)
          (State.closesFreely_of_env (by rw [hstop]) hcloses') (by rw [hstop, hscan]; exact hwork)
          (by rw [hstop, hscan]; exact hstate) (by rw [hstop, hscan]; exact hfailed) .withdrawn
        rw [hw] at hanswer
        refine ⟨_, c.stopPlainWrite, hanswer, ?_, hfails.pumped, ?_⟩
        · rw [hstop, hwipe]
          rfl
        · rw [hdecipher, hi, hstop]
          exact ⟨rfl, by rw [hscan]⟩
      · have hstop : c.stopPlainWrite = c := State.stopPlainWrite_none fun hd => by
          rw [State.writingBuffer, hscan]
          exact Option.not_isSome_iff_eq_none.mp fun hsome => hplain ⟨by rw [hscan] at hd; exact hd, hsome⟩
        have hw : w = c.failCipher .withdrawn := by
          rw [hscanned, State.scanWithdrawal, hscan, show b.scan.state = .ciphering from hstate]
          dsimp only []
          rw [hstop, hscan, show b.scan.failed = none from hfailed]
        have hfails := State.failCipher_fails (s := c) (k := k) hservice hcloses' (by rw [hscan]; exact hwork)
          (by rw [hscan]; exact hstate) (by rw [hscan]; exact hfailed) .withdrawn
        rw [hw] at hanswer
        refine ⟨_, c, hanswer, ?_, hfails.pumped, ?_⟩
        · rw [hwipe]
          rfl
        · split
          · rename_i i hd hi
            exact absurd ⟨hd, by rw [hi]; rfl⟩ hplain
          · exact ⟨hmem, hscan⟩

end Sys2Proof.Proofs
end

