-- ==== Sys2Proof/Proofs/Admission.lean ====
section
/-! The admission of pages (R62 to R66, R86 to R88): activity taken once, tickets that wait or are refused, and the edges that take a
waiting one's checks again. -/

namespace Sys2Proof.Machine

variable {s u v x b t : State} {env : Env} {k : Ticket} {n m i w13 w14 : Nat} {code : ReturnCode} {h : Handle} {e tr : Bool}

/-! ### Activity taken again changes nothing (R17) -/

theorem State.touchSession_twice (u : State) (h : Handle) : (u.touchSession h).touchSession h = u.touchSession h := by
  cases ho : u.sessionOf h with
  | none =>
    have hu : u.touchSession h = u := by rw [State.touchSession, ho]
    rw [hu, hu]
  | some i =>
    obtain ⟨rfl, hi, hopen, hgen⟩ : h.idx = i ∧ h.idx < 8 ∧ (u.session h.idx).isOpen = true ∧ (u.session h.idx).gen = h.gen := by
      unfold State.sessionOf at ho
      split at ho
      · rename_i hc
        exact ⟨Option.some.inj ho, hc⟩
      · cases ho
    have hu : u.touchSession h = u.putSession h.idx { u.session h.idx with last := u.dev.clock } := by rw [State.touchSession, ho]
    have hsession : (u.touchSession h).session h.idx = { u.session h.idx with last := u.dev.clock } := by
      rw [hu, State.putSession_session, if_pos ⟨rfl, hi⟩]
    have ho' : (u.touchSession h).sessionOf h = some h.idx := by
      rw [State.sessionOf, hsession]
      exact if_pos ⟨hi, hopen, hgen⟩
    have hclock : (u.touchSession h).dev = u.dev := by rw [State.touchSession_frame]
    rw [State.touchSession, ho']
    dsimp only []
    rw [hsession, hclock, ← hsession]
    exact congrArg (fun x => { u.touchSession h with sessions := x }) (putAt_entryAt ..)

theorem State.touchOptSession_twice (u : State) (h : Option Handle) : (u.touchOptSession h).touchOptSession h = u.touchOptSession h := by
  cases h with
  | none => rfl
  | some h => exact u.touchSession_twice h

/-- Activity looks at sessions, the clock and the job alone. -/
theorem State.touchOptSession_sessions (h : Option Handle) (hs : x.sessions = v.sessions) (hd : x.dev = v.dev) :
    (x.touchOptSession h).sessions = (v.touchOptSession h).sessions := by
  cases h with
  | none => exact hs
  | some h =>
    have hsession : ∀ j, x.session j = v.session j := fun j => by rw [State.session, State.session, hs]
    have ho : x.sessionOf h = v.sessionOf h := by rw [State.sessionOf, State.sessionOf, hsession]
    unfold State.touchOptSession State.touchSession
    dsimp only []
    rw [ho]
    split
    · exact hs
    · rw [State.putSession_sessions, State.putSession_sessions, hs, hsession, hd]

theorem State.touchJob_sessions (h : Handle) (hj : x.jobs = v.jobs) (hs : x.sessions = v.sessions) (hd : x.dev = v.dev) :
    (x.touchJob h).sessions = (v.touchJob h).sessions := by
  have hjob : ∀ j, x.job j = v.job j := fun j => by rw [State.job, State.job, hj]
  have ho : x.jobOf h = v.jobOf h := by rw [State.jobOf, State.jobOf, hjob]
  unfold State.touchJob
  rw [ho]
  split
  · exact hs
  · rw [hjob]
    exact State.touchOptSession_sessions _ hs hd

theorem State.touchJob_like (h : Handle) (hj : x.jobs = v.jobs) (hs : x.sessions = v.sessions) (hd : x.dev = v.dev) :
    x.touchJob h = { x with sessions := (v.touchJob h).sessions } := by
  rw [x.touchJob_frame, State.touchJob_sessions h hj hs hd]

/-- R17: where the job's activity stands recorded, recording it again changes nothing. -/
theorem State.touchJob_recorded (hv : v.touchJob h = v) (hj : v.jobOf h = some i) (hj' : x.jobOf h = some i)
    (hjob : (x.job i).session = (v.job i).session) (hs : x.sessions = v.sessions) (hd : x.dev = v.dev) : x.touchJob h = x := by
  have hsessions : (x.touchJob h).sessions = x.sessions := by
    have hrec := congrArg State.sessions hv
    unfold State.touchJob at hrec ⊢
    rw [hj] at hrec
    rw [hj']
    dsimp only [] at hrec ⊢
    rw [hjob, State.touchOptSession_sessions _ hs hd, hrec, hs]
  rw [State.touchJob_frame, hsessions]

theorem State.touchJob_twice (u : State) (h : Handle) : (u.touchJob h).touchJob h = u.touchJob h := by
  cases hj : u.jobOf h with
  | none =>
    have hu : u.touchJob h = u := by rw [State.touchJob, hj]
    rw [hu, hu]
  | some i =>
    have hu : u.touchJob h = u.touchOptSession (u.job i).session := by rw [State.touchJob, hj]
    have hframe := u.touchJob_frame h
    have hj' : (u.touchJob h).jobOf h = some i := by rw [hframe]; exact hj
    have hjob : ((u.touchJob h).job i).session = (u.job i).session := by rw [hframe]; rfl
    rw [State.touchJob, hj']
    dsimp only []
    rw [hjob, hu]
    exact u.touchOptSession_twice _

/-- R8: the available units of an account without UNLIMITED. -/
theorem State.available_limited (h : v.unlimited n = false) :
    (v.available n).getD 0 = (v.record n).quota - (v.record n).used - (v.acct n).reserved := by
  unfold State.available
  rw [if_neg (by rw [h]; exact Bool.false_ne_true)]
  rfl

/-! ### Tickets closed as their path goes to rest -/

/-- The answer of a ticket whose close is followed by a change of what a close does not look at. -/
theorem Serves.answers_then {kind : TicketKind} (h : Serves env s kind k) (gateW13 : Nat) {body : Ticket → State → State}
    (f : State → State) (hf : ∀ x, (f x).finish = f x.finish) (hl : v.lanes = (s.begin env).lanes) (he : v.env = env)
    (hb : ∀ L, body k ((s.begin env).setLanes L) = f ((v.setLanes L).close kind.lane code w13 w14 e tr)) :
    command env s (serve kind gateW13 body) = .next (f (v.answered kind.lane k code w13 w14 e tr)) := by
  have hs := (State.serving_some h.1).2.1
  rw [command_next, serve_body h, State.beginService_setLanes, hb, hf]
  have hclose := State.close_served (b := s.begin env) (u := v.setLanes ((s.begin env).beginService kind.lane).lanes) hs h.2.2 rfl
    (by simp [he]) code w13 w14 e tr
  rw [hclose, ← hl]
  rfl

theorem Core.orphaned_idle {c : Core} (h : c.band = none) (p : CipherPath) : c.orphaned p = c.band := by
  unfold Core.orphaned
  rw [h]

/-- R86: a scan ticket refused or closed with nothing at the core leaves the path at rest. -/
theorem State.scanIdle_answered (hb : x.core.band = none) (lane : Fin 4) : (x.answered lane k code w13 w14 e tr).scanIdle =
    State.answered { x with scan := { ScanPath.reset with drain := x.scan.drain }, core := { x.core with scanWaiting := none } } lane k
      code w13 w14 e tr := by
  unfold State.scanIdle State.dropCore State.answered
  dsimp only []
  rw [Core.orphaned_idle hb]
  rfl

theorem State.scanIdle_reset (hb : x.core.band = none) (hd : x.scan.drain = false) (lane : Fin 4) :
    (x.answered lane k code w13 w14 e tr).scanIdle =
      State.answered { x with scan := .reset, core := { x.core with scanWaiting := none } } lane k code w13 w14 e tr := by
  rw [State.scanIdle_answered hb, hd]
  rfl

/-- R62: a print ticket refused or closed with nothing at the core leaves the path at rest. -/
theorem State.printIdle_answered (hb : x.core.band = none) (lane : Fin 4) : (x.answered lane k code w13 w14 e tr).printIdle =
    State.answered { x with print := x.print.ended, core := { x.core with printQueue := [] } } lane k code w13 w14 e tr := by
  unfold State.printIdle State.dropCore State.answered
  dsimp only []
  rw [Core.orphaned_idle hb]
  rfl

/-- R86, R161: the refusal of a waiting scan ticket with nothing at the core. -/
theorem State.refused_scan (hk : (x.lane 1).service = some k) (hw : x.closesFreely k) (hb : x.core.band = none)
    (hq : x.core.printQueue = []) :
    ((x.close 1 code w13 w14 e tr).scanIdle.pumpCore).finish =
      State.answered { x with scan := { ScanPath.reset with drain := x.scan.drain }, core := { x.core with scanWaiting := none } } 1 k code
        w13 w14 e tr := by
  rw [State.close_ok hk hw, State.pumpCore_settled]
  · exact (show _ = (x.answered 1 k code w13 w14 e tr).scanIdle from rfl).trans (State.scanIdle_answered hb 1)
  · exact fun _ => ⟨hq, rfl⟩

/-- R62, R161: the refusal of a print ticket with no band in the core. -/
theorem State.closed_print (hk : (x.lane 2).service = some k) (hw : x.closesFreely k) (hb : x.core.band = none) :
    (x.close 2 code w13 w14 e tr).printIdle.finish =
      State.answered { x with print := x.print.ended, core := { x.core with printQueue := [] } } 2 k code w13 w14 e tr := by
  rw [State.close_ok hk hw]
  exact (show _ = (x.answered 2 k code w13 w14 e tr).printIdle from rfl).trans (State.printIdle_answered hb 2)

/-- R62, R161: the refusal of a waiting print ticket with nothing at the core. -/
theorem State.refused_print (hk : (x.lane 2).service = some k) (hw : x.closesFreely k) (hb : x.core.band = none)
    (hq : x.core.scanWaiting = none) :
    ((x.close 2 code w13 w14 e tr).printIdle.pumpCore).finish =
      State.answered { x with print := x.print.ended, core := { x.core with printQueue := [] } } 2 k code w13 w14 e tr := by
  rw [State.pumpCore_settled, State.closed_print hk hw hb]
  rw [State.close_ok hk hw]
  exact fun _ => ⟨rfl, hq⟩

/-! ### The edges that take a waiting ticket's checks again (R66, R87) -/

/-- R87: an edge that makes S3 abnormal is a SCANNER departure. -/
theorem State.senseChange_scanner {old new : BitVec 8} (hsame : ∀ m < 8, m ≠ 3 → new.getLsbD m = old.getLsbD m)
    (hold : old.getLsbD 3 = false) (hnew : new.getLsbD 3 = true) : s.senseChange old new = (s.raise .sense).scanDeparture.pumpCore := by
  have h0 := hsame 0 (by decide) (by decide)
  have h1 := hsame 1 (by decide) (by decide)
  have h2 := hsame 2 (by decide) (by decide)
  have h4 := hsame 4 (by decide) (by decide)
  have h6 := hsame 6 (by decide) (by decide)
  have hengine : departed engineLines old = departed engineLines new := by rw [departed_engine, departed_engine, h0, h1, h2]
  have hprivacy : departed privacyLines old = departed privacyLines new := by rw [departed_privacy, departed_privacy, h4]
  unfold State.senseChange
  dsimp only []
  rw [State.doorChange_same h0, State.doorChange_same h1, State.scannerReadyEdge_same h6, State.groupChange_same hengine,
    State.groupChange_same hprivacy, State.engineReadyReturn_same (hsame 5 (by decide) (by decide)) (hsame 7 (by decide) (by decide)),
    State.scannerReadyReturn_same h6]
  refine congrArg State.pumpCore ?_
  unfold State.groupChange
  rw [departed_scanner, departed_scanner, hold, hnew]
  rfl

/-- R66: an edge that makes S2 abnormal, with the doors closed, is an ENGINE departure. -/
theorem State.senseChange_engine {old new : BitVec 8} (hsame : ∀ m < 8, m ≠ 2 → new.getLsbD m = old.getLsbD m)
    (h0' : old.getLsbD 0 = false) (h1' : old.getLsbD 1 = false) (hold : old.getLsbD 2 = false) (hnew : new.getLsbD 2 = true) :
    s.senseChange old new = (s.raise .sense).printDeparture.pumpCore := by
  have h0 := hsame 0 (by decide) (by decide)
  have h1 := hsame 1 (by decide) (by decide)
  have h3 := hsame 3 (by decide) (by decide)
  have h4 := hsame 4 (by decide) (by decide)
  have h6 := hsame 6 (by decide) (by decide)
  have hscanner : departed scannerLines old = departed scannerLines new := by rw [departed_scanner, departed_scanner, h3]
  have hprivacy : departed privacyLines old = departed privacyLines new := by rw [departed_privacy, departed_privacy, h4]
  unfold State.senseChange
  dsimp only []
  rw [State.doorChange_same h0, State.doorChange_same h1, State.scannerReadyEdge_same h6, State.groupChange_same hscanner,
    State.groupChange_same hprivacy, State.engineReadyReturn_same (hsame 5 (by decide) (by decide)) (hsame 7 (by decide) (by decide)),
    State.scannerReadyReturn_same h6]
  refine congrArg State.pumpCore ?_
  unfold State.groupChange
  rw [departed_engine, departed_engine, h0', h1', hold, hnew, Bool.or_true]
  rfl

/-- R152: an edge of a ready line departs from no group. -/
theorem State.senseChange_ready {old new : BitVec 8} (hsame : ∀ m < 5, new.getLsbD m = old.getLsbD m)
    (h6 : wentAbnormal old new 6 = false) :
    s.senseChange old new = ((s.engineReadyReturn old new).scannerReadyReturn old new).pumpCore := by
  have h0 := hsame 0 (by decide)
  have h1 := hsame 1 (by decide)
  have hengine : departed engineLines old = departed engineLines new := by
    rw [departed_engine, departed_engine, h0, h1, hsame 2 (by decide)]
  have hscanner : departed scannerLines old = departed scannerLines new := by
    rw [departed_scanner, departed_scanner, hsame 3 (by decide)]
  have hprivacy : departed privacyLines old = departed privacyLines new := by
    rw [departed_privacy, departed_privacy, hsame 4 (by decide)]
  have hedge : s.scannerReadyEdge old new = s := by rw [State.scannerReadyEdge, h6]; rfl
  unfold State.senseChange
  dsimp only []
  rw [State.doorChange_same h0, State.doorChange_same h1, hedge, State.groupChange_same hengine, State.groupChange_same hscanner,
    State.groupChange_same hprivacy]

/-- R147: what an edge of a watched line does, its level being a new one. -/
theorem answers_senseLineEdge {line : Fin 8} {high : Bool} (ha : s.alive = true) (hlevel : s.levels.getLsbD line.val ≠ high) :
    Answers (.senseLineEdge env line high) s
      (((s.begin env).edgeTaken line.val).senseChange (s.begin env).abnormal ((s.begin env).edgeTaken line.val).abnormal).finish := by
  have hanswer := (answers_iff (c := .senseLineEdge env line high) (s := s) nofun).mpr rfl
  rw [show (Instr.senseLineEdge env line high).env = env from rfl, effectOf_senseLineEdge ha, State.takeEdge_eq,
    if_neg (show (s.begin env).levels.getLsbD line.val ≠ high from hlevel)] at hanswer
  exact hanswer

theorem State.edgeTaken_other (s : State) (hm : m < 8) (hne : m ≠ n) : (s.edgeTaken n).abnormal.getLsbD m = s.abnormal.getLsbD m := by
  rw [State.edgeTaken_abnormal _ _ _ hm, decide_eq_false (Ne.symm hne), Bool.false_and, Bool.xor_false]

theorem State.edgeTaken_watched (s : State) (hn : n < 8) (hw : s.stored.settings.sense.watch.getLsbD n = true) :
    (s.edgeTaken n).abnormal.getLsbD n = !s.abnormal.getLsbD n := by
  rw [State.edgeTaken_abnormal _ _ _ hn, hw, decide_eq_true rfl]
  simp

/-- Activity and the lines do not look at one another. -/
theorem State.touchJob_edge (u : State) (n : Nat) (h : Handle) : (u.edgeTaken n).touchJob h = (u.touchJob h).edgeTaken n := by
  refine (State.touchJob_like (x := u.edgeTaken n) (v := u) h rfl rfl rfl).trans ?_
  rw [u.touchJob_frame]
  rfl

theorem State.touchHold_edge (u : State) (n : Nat) (h : Handle) : (u.edgeTaken n).touchHold h = (u.touchHold h).edgeTaken n := by
  unfold State.touchHold
  rw [show (u.edgeTaken n).hold = u.hold from rfl]
  split
  · rfl
  · split <;> rfl

theorem State.touchJob_lineAbnormal (u : State) (h : Handle) (n : Nat) : (u.touchJob h).lineAbnormal n = u.lineAbnormal n := by
  rw [u.touchJob_frame]
  rfl

theorem State.touchJob_abnormal (u : State) (h : Handle) : (u.touchJob h).abnormal = u.abnormal := by
  rw [u.touchJob_frame]
  rfl

theorem State.touchJob_raise (u : State) (c : Cause) (h : Handle) : (u.raise c).touchJob h = (u.touchJob h).raise c := by
  refine (State.touchJob_like (x := u.raise c) (v := u) h rfl rfl rfl).trans ?_
  rw [u.touchJob_frame]
  rfl

end Sys2Proof.Machine
end

