-- ==== Sys2Proof/Proofs/ScanAdmission.lean ====
section
/-! The admission of a scan page (R85 to R88): O37. -/

namespace Sys2Proof.Machine

variable {s u v x b t : State} {env : Env} {k : Ticket} {n m i w13 w14 : Nat} {code : ReturnCode} {a : ScanArgs}

/-! ### A pass through the checks (R86) -/

theorem State.runningRefusal_none (h : v.dev.op = .running) : v.runningRefusal = none := by rw [State.runningRefusal, h]

/-- R86 checks 1 to 5: the job may scan under the slot; of the lines nothing is said. -/
def State.scanLicensed (v : State) (a : ScanArgs) (i : Nat) : Prop :=
  v.dev.op = .running ∧ v.jobOf a.job = some i ∧ (v.job i).state = .opened ∧ (v.job i).kind ≠ .print ∧
    (v.record (v.job i).account).checkOk = true ∧ v.seen (v.job i).account = .active ∧ v.mayScan (v.job i).account = true ∧
    v.keyGranted a.slot a.job .scan = true ∧ (v.slot a.slot.idx).page < 65535

theorem State.scanAllowed.licensed (h : v.scanAllowed a i) : v.scanLicensed a i := by
  obtain ⟨hop, hj, hopen, hkind, hok, hseen, hscan, hkey, hpage, -⟩ := h
  exact ⟨hop, hj, hopen, hkind, hok, hseen, hscan, hkey, hpage⟩

theorem State.scanRefusal36_eq (h : v.scanLicensed a i) : v.scanRefusal36 a = refuseIf (v.lineAbnormal 3) .scanInterrupted := by
  obtain ⟨-, hj, -, -, -, hseen, hscan, hkey, hpage⟩ := h
  unfold State.scanRefusal36
  rw [State.jobAccount_eq hj]
  dsimp only []
  rw [State.accountRefusal_active hseen, hscan, hkey, firstRefusal_cons_none, show decide ((v.slot a.slot.idx).page ≥ 65535) = false from
    decide_eq_false (Nat.not_le.mpr hpage), State.scannerDeparted]
  cases v.lineAbnormal 3 <;> rfl

/-- R86: the pass of a licensed ticket turns on the scanner's lines alone. -/
theorem State.scanAdmit_licensed (hargs : u.scan.args = some a) (hv : v = u.touchJob a.job) (h : v.scanLicensed a i) :
    u.scanAdmit =
      match refuseIf (v.lineAbnormal 3) .scanInterrupted with
      | some r => v.scanRefuse r 65535
      | none => if v.lineAbnormal 6 ∨ v.scan.drain then { v with scan := { v.scan with state := .waiting } } else v.scanCheck8 a := by
  subst hv
  have h36 := State.scanRefusal36_eq h
  obtain ⟨hop, hj, hopen, hkind, hok, -⟩ := h
  have hkind' : decide ((u.touchJob a.job).jobKind a.job = .print) = false := by
    rw [State.jobKind, (State.jobOf_idx hj).1]
    exact decide_eq_false hkind
  unfold State.scanAdmit
  rw [hargs]
  dsimp only []
  rw [State.runningRefusal_none hop, State.jobRefusal_opened hj hopen, hkind', firstRefusal_cons_none]
  dsimp only [refuseIf]
  rw [if_neg Bool.false_ne_true, firstRefusal_cons_none, firstRefusal_nil]
  dsimp only []
  rw [State.jobAccount_eq hj, State.readAccount_ok hok, h36]
  cases (u.touchJob a.job).lineAbnormal 3 <;> rfl

/-- R86 checks 1 to 6: the pass goes on with S6 and the drain mark. -/
theorem State.scanAdmit_checked (hargs : u.scan.args = some a) (hv : v = u.touchJob a.job) (h : v.scanAllowed a i) :
    u.scanAdmit =
      if v.lineAbnormal 6 ∨ v.scan.drain then { v with scan := { v.scan with state := .waiting } } else v.scanCheck8 a := by
  obtain ⟨-, -, -, -, -, -, -, -, -, hline⟩ := id h
  rw [State.scanAdmit_licensed hargs hv h.licensed, hline]
  rfl

/-- R88: check 8 with a rate that is covered. -/
theorem State.scanCheck8_covered (hactive : v.touchJob a.job = v) (hj : v.jobOf a.job = some i)
    (hc : v.covers (v.job i).account (v.job i).free (v.stored.settings.rates.scan.of a.size)) : v.scanCheck8 a = v.scanAdmitted a i := by
  unfold State.scanCheck8
  dsimp only []
  rw [(State.jobOf_idx hj).1, State.requestHold_some hc]
  dsimp only []
  have hjob : ((v.topUp i (v.stored.settings.rates.scan.of a.size) fun j => j.withHold .scan (v.stored.settings.rates.scan.of a.size)).job
      i) = { v.job i with
        free := (v.job i).free - v.stored.settings.rates.scan.of a.size
        scanHold := v.stored.settings.rates.scan.of a.size, scanFlight := true } := by
    rw [State.topUp, State.putJob_job, if_pos ⟨rfl, (State.jobOf_idx hj).2.1⟩]
    rfl
  have hrecorded := State.touchJob_recorded (x := v.topUp i (v.stored.settings.rates.scan.of a.size) fun j =>
    j.withHold .scan (v.stored.settings.rates.scan.of a.size)) hactive hj (State.jobOf_congr hj (by rw [hjob]) (by rw [hjob]))
    (by rw [hjob]) rfl rfl
  rw [State.admitted, hrecorded]
  have htop : (v.topUp i (v.stored.settings.rates.scan.of a.size) fun j => j.withHold .scan (v.stored.settings.rates.scan.of a.size)) =
      v.topUp i (v.stored.settings.rates.scan.of a.size) fun j =>
        { j with scanHold := v.stored.settings.rates.scan.of a.size, scanFlight := true } := rfl
  rw [htop]
  unfold State.scanAdmitted State.takePageNumber
  dsimp only []
  have hslots : ∀ j, ((v.topUp i (v.stored.settings.rates.scan.of a.size) fun j =>
      { j with scanHold := v.stored.settings.rates.scan.of a.size, scanFlight := true }).touchHold a.job).slot j = v.slot j := fun j => by
    rw [State.touchHold_frame]
    rfl
  rw [hslots]
  generalize hw : ((v.topUp i (v.stored.settings.rates.scan.of a.size) fun j =>
      { j with scanHold := v.stored.settings.rates.scan.of a.size, scanFlight := true }).touchHold a.job) = w
  have hscan : w.scan = v.scan := by
    rw [← hw, State.touchHold_frame]
    rfl
  rw [show (w.putSlot a.slot.idx { v.slot a.slot.idx with page := (v.slot a.slot.idx).page + 1 }).scan = w.scan from rfl, hscan]

/-- R27: check 8 with a rate that is not covered. -/
theorem State.scanCheck8_refused (hj : v.jobOf a.job = some i) (hopen : (v.job i).state = .opened)
    (hc : ¬v.covers (v.job i).account (v.job i).free (v.stored.settings.rates.scan.of a.size)) :
    v.scanCheck8 a = ((v.putJob i { v.job i with state := .quotaStopped }).close 1 .noQuota 65535
      ((v.record (v.job i).account).quota - (v.record (v.job i).account).used - (v.acct (v.job i).account).reserved)).scanIdle := by
  have hlimited : v.unlimited (v.job i).account = false := Bool.eq_false_iff.mpr fun h => hc (.inl h)
  unfold State.scanCheck8
  dsimp only []
  rw [(State.jobOf_idx hj).1, State.requestHold_none hc]
  dsimp only []
  rw [State.jobAccount_eq hj, State.available_limited hlimited, State.quotaStop, if_pos hopen]
  rfl

theorem State.touchJob_scan (u : State) (σ : ScanPath) (h : Handle) :
    State.touchJob { u with scan := σ } h = { u.touchJob h with scan := σ } := by
  refine (State.touchJob_like (x := { u with scan := σ }) (v := u) h rfl rfl rfl).trans ?_
  rw [u.touchJob_frame]

theorem State.touchJob_holding (u : State) (L : Vector Lane 4) (σ : ScanPath) (h : Handle) :
    State.touchJob { u.setLanes L with scan := σ } h = State.setLanes { u.touchJob h with scan := σ } L :=
  (State.setLanes_touchJob { u with scan := σ } L h).trans (congrArg (State.setLanes · L) (u.touchJob_scan σ h))

/-- R85: a valid ticket takes its pass with its arguments and its buffer table held. -/
theorem scanPageBody_admits {buffers : List Destination} {ws : List Word} (h1 : 1 ≤ (k.w 9).toNat) (h64 : (k.w 9).toNat ≤ 64)
    (hl : areaOk (k.w 8).toNat = true) (ha : ScanArgs.ofTicket k = some a) (hr : u.readWords (k.w 8).toNat (2 * (k.w 9).toNat) = .ok ws)
    (hb : buffers = (listEntries ws 2 (k.w 9).toNat).map Destination.ofWords)
    (hroom : ∀ x ∈ buffers, a.bandLines * a.lineBytes + 16 ≤ x.capacity) :
    scanPageBody k u =
      { u with scan := { ScanPath.reset with drain := u.scan.drain, work := .page, args := some a, buffers } }.scanAdmit := by
  subst hb
  unfold scanPageBody
  dsimp only []
  rw [if_neg (by simp [hl]; omega), hr]
  dsimp only []
  have hfault : scanFault (ScanArgs.ofTicket k) ((listEntries ws 2 (k.w 9).toNat).map Destination.ofWords) = none := by
    rw [ha]
    exact findIdx?_faultless fun x hx => decide_eq_false (Nat.not_lt.mpr (hroom x hx))
  rw [hfault, ha]

/-- R17: the pass of a waiting ticket is activity. -/
theorem State.renewScan_touched (hw : u.scan.state = .waiting) : u.renewScan = u.scanAdmit := if_pos hw

/-- R87: a wait whose scanner is ready and whose rate is covered ends in the admission. -/
theorem State.renewScan_admits (hw : u.scan.state = .waiting) (hargs : u.scan.args = some a) (hv : v = u.touchJob a.job)
    (h : v.scanLicensed a i) (h3 : v.lineAbnormal 3 = false) (h6 : v.lineAbnormal 6 = false) (hd : v.scan.drain = false)
    (hc : v.covers (v.job i).account (v.job i).free (v.stored.settings.rates.scan.of a.size)) : u.renewScan = v.scanAdmitted a i := by
  rw [State.renewScan_touched hw, State.scanAdmit_licensed hargs hv h, h3, h6, hd]
  exact (if_neg (by simp)).trans (State.scanCheck8_covered (by rw [hv, State.touchJob_twice]) h.2.1 hc)

/-- R150: a SCANNER departure refuses a waiting ticket. -/
theorem State.renewScan_departed (hw : u.scan.state = .waiting) (hargs : u.scan.args = some a) (hv : v = u.touchJob a.job)
    (h : v.scanLicensed a i) (h3 : v.lineAbnormal 3 = true) : u.renewScan = (v.close 1 .scanInterrupted 65535 0).scanIdle := by
  rw [State.renewScan_touched hw, State.scanAdmit_licensed hargs hv h, h3]
  rfl

/-- R94: with the drain mark cleared a waiting ticket whose rate is covered is admitted. -/
theorem State.clearDrain_admits (hw : u.scan.state = .waiting) (hargs : u.scan.args = some a) (hv : v = u.touchJob a.job)
    (h : v.scanAllowed a i) (h6 : v.lineAbnormal 6 = false)
    (hc : v.covers (v.job i).account (v.job i).free (v.stored.settings.rates.scan.of a.size)) :
    u.clearDrain = State.scanAdmitted { v with scan := { v.scan with drain := false } } a i := by
  have hscan : v.scan = u.scan := by rw [hv, State.touchJob_frame]
  have hline : State.lineAbnormal { u with scan := { u.scan with drain := false } } 6 = false := by
    rw [hv, State.touchJob_lineAbnormal] at h6
    exact h6
  have hclear : u.clearDrain = State.renewScan { u with scan := { u.scan with drain := false } } := by
    unfold State.clearDrain
    dsimp only []
    exact if_neg (by rw [hline]; exact Bool.false_ne_true)
  rw [hclear]
  refine State.renewScan_admits (v := { v with scan := { v.scan with drain := false } }) hw hargs ?_ h.licensed h.2.2.2.2.2.2.2.2.2 h6 rfl hc
  rw [hscan, hv]
  exact (u.touchJob_scan { u.scan with drain := false } a.job).symm

theorem State.scanAdmitted_core (x : State) (a : ScanArgs) (i : Nat) : (x.scanAdmitted a i).core = x.core := by
  unfold State.scanAdmitted
  dsimp only []
  rw [State.touchHold_frame]
  rfl

theorem State.scanAdmitted_setLanes (x : State) (L : Vector Lane 4) (a : ScanArgs) (i : Nat) :
    (x.setLanes L).scanAdmitted a i = (x.scanAdmitted a i).setLanes L := by
  unfold State.scanAdmitted
  dsimp only []
  rw [show State.topUp (x.setLanes L) = fun i h held => (x.topUp i h held).setLanes L from rfl]
  dsimp only []
  rw [show (x.setLanes L).stored = x.stored from rfl, State.setLanes_touchHold]
  rfl

theorem State.scanAdmitted_edge (x : State) (n : Nat) (a : ScanArgs) (i : Nat) :
    (x.edgeTaken n).scanAdmitted a i = (x.scanAdmitted a i).edgeTaken n := by
  unfold State.scanAdmitted
  dsimp only []
  rw [show State.topUp (x.edgeTaken n) = fun i h held => (x.topUp i h held).edgeTaken n from rfl]
  dsimp only []
  rw [show (x.edgeTaken n).stored = x.stored from rfl, State.touchHold_edge]
  rfl

theorem State.scanAdmitted_levels (x : State) (a : ScanArgs) (i : Nat) : (x.scanAdmitted a i).levels = x.levels := by
  unfold State.scanAdmitted
  dsimp only []
  rw [State.touchHold_frame]
  rfl

theorem State.scanAdmitted_lanes (x : State) (a : ScanArgs) (i : Nat) : (x.scanAdmitted a i).lanes = x.lanes := by
  unfold State.scanAdmitted
  dsimp only []
  rw [State.touchHold_frame]
  rfl

end Sys2Proof.Machine

namespace Sys2Proof.Proofs

open Sys2Proof.Machine

/-- Settles O37: the admission of a scan page, its waits and its refusals. -/
theorem scanPageAdmits : Obligations.ScanPageAdmits := by
  intro env s a i b j n available rate emptied
  have hl : b.lanes = (s.begin env).lanes := State.touchJob_lanes _ _
  have he : b.env = env := State.touchJob_env _ _
  refine ⟨fun k bad hserves h1 h64 harea hread => ?_, ?_, fun halive hwait hargs hallowed => ?_⟩
  · refine hserves.answers 0 (v := ((s.begin env).touchJob (Handle.ofField (k.w 2))).captureMemory .memoryRead 1 bad)
      (State.touchJob_lanes _ _) (State.touchJob_env _ _) fun L => ?_
    unfold scanPageBody
    dsimp only []
    rw [if_neg (by simp [harea]; omega), State.setLanes_at_readWords, hread]
    dsimp only []
    rw [State.setLanes_touchJob, State.setLanes_captureMemory]
    rfl
  · intro k buffers hoffered hallowed held
    obtain ⟨hserves, h1, h64, harea, hargs, ws, hread, hbuffers, hroom⟩ := hoffered
    have hbody : ∀ L, scanPageBody k ((s.begin env).setLanes L) =
        if b.lineAbnormal 6 ∨ b.scan.drain then State.setLanes { b with scan := { held with state := .waiting } } L
        else (State.setLanes { b with scan := held } L).scanCheck8 a := fun L => by
      have hdrain : b.scan.drain = (s.begin env).scan.drain := by rw [show b = (s.begin env).touchJob a.job from rfl, State.touchJob_frame]
      rw [scanPageBody_admits h1 h64 harea hargs ((State.setLanes_at_readWords ..).trans hread) hbuffers hroom]
      rw [show ((s.begin env).setLanes L).scan.drain = b.scan.drain from hdrain.symm]
      exact State.scanAdmit_checked (v := State.setLanes { b with scan := held } L) (i := i) rfl
        (State.touchJob_holding (s.begin env) L held a.job).symm hallowed
    refine ⟨fun hwait => hserves.begun 0 (v := { b with scan := { held with state := .waiting } }) hl fun L =>
      (hbody L).trans (if_pos hwait), fun h6 hdrain => ⟨fun hc => ?_, fun hc hband => ?_⟩⟩
    · refine hserves.begun 0 (v := State.scanAdmitted { b with scan := held } a i) ((State.scanAdmitted_lanes ..).trans hl) fun L => ?_
      rw [hbody, if_neg (by simp [h6, hdrain]), ← State.scanAdmitted_setLanes]
      exact State.scanCheck8_covered (State.touchJob_recorded (v := b) (State.touchJob_twice ..) hallowed.2.1 hallowed.2.1 rfl rfl rfl)
        hallowed.2.1 hc
    · have hrefused : ∀ L, scanPageBody k ((s.begin env).setLanes L) = State.scanIdle
          ((State.setLanes { b.putJob i { b.job i with state := .quotaStopped } with scan := held } L).close 1 .noQuota 65535
            available) := fun L => by
        rw [hbody, if_neg (by simp [h6, hdrain])]
        exact State.scanCheck8_refused (v := State.setLanes { b with scan := held } L) hallowed.2.1 hallowed.2.2.1 hc
      have hanswer := hserves.answers_then 0 State.scanIdle (fun _ => rfl)
        (v := { b.putJob i { b.job i with state := .quotaStopped } with scan := held }) (body := scanPageBody) hl he hrefused
      rw [State.scanIdle_reset (by exact hband) (by exact hdrain)] at hanswer
      exact hanswer
  · have hscan : b.scan = s.scan := (congrArg State.scan ((s.begin env).touchJob_frame a.job)).trans rfl
    refine ⟨fun hdrain h6 hc => ?_, fun line high hlevel hwatch hsettled => ?_⟩
    · have hcleared := State.clearDrain_admits (u := s.begin env) hwait hargs rfl hallowed h6 hc
      have hend := (answers_iff (c := .scannerPageEnd env) (s := s) nofun).mpr rfl
      rw [show (Instr.scannerPageEnd env).env = env from rfl, effectOf_scannerPageEnd (b := s.begin env) env halive, State.scannerPageEnd,
        if_pos (show (s.begin env).scan.drain = true from hdrain), hcleared] at hend
      have herror := (answers_iff (c := .scannerError env) (s := s) nofun).mpr rfl
      rw [show (Instr.scannerError env).env = env from rfl, effectOf_scannerError (b := s.begin env) env halive, State.scannerError,
        if_pos (show (s.begin env).scan.drain = true from hdrain), hcleared] at herror
      exact ⟨hend, herror⟩
    · intro levels
      have hanswer := answers_senseLineEdge (env := env) halive hlevel
      have habnormal : ∀ m, (s.begin env).abnormal.getLsbD m = b.lineAbnormal m := fun m => (State.touchJob_lineAbnormal ..).symm
      have hedge : ∀ m l, (b.edgeTaken m).lineAbnormal l = ((s.begin env).edgeTaken m).abnormal.getLsbD l := fun m l => by
        rw [show b = (s.begin env).touchJob a.job from rfl, ← State.touchJob_edge]
        exact State.touchJob_lineAbnormal ..
      have hwatch' : (s.begin env).stored.settings.sense.watch.getLsbD line.val = true := by
        rw [show b = (s.begin env).touchJob a.job from rfl, State.touchJob_frame] at hwatch
        exact hwatch
      have hother : ∀ m < 8, m ≠ line.val → ((s.begin env).edgeTaken line.val).abnormal.getLsbD m = (s.begin env).abnormal.getLsbD m :=
        fun m hm hne => State.edgeTaken_other _ hm hne
      have hnew := State.edgeTaken_watched (s.begin env) line.isLt hwatch'
      refine ⟨fun hline h6 hdrain hc => ?_, fun k hline hk hcloses hband hqueue => ?_⟩
      · subst hline
        have hold := (habnormal 6).trans h6
        rw [show ((6 : Fin 8).val) = 6 from rfl] at hanswer hnew hother
        rw [hold] at hnew
        rw [State.senseChange_ready (fun m hm => hother m (by omega) (by omega)) (by rw [wentAbnormal, hold]; rfl),
          State.engineReadyReturn_same (hother 5 (by decide) (by decide)) (hother 7 (by decide) (by decide)), State.scannerReadyReturn,
          returned, hold, hnew, show ((s.begin env).edgeTaken 6).scan.drain = false from hdrain,
          if_pos (show (true && !!true && !false) = true from rfl),
          State.renewScan_admits (u := (s.begin env).edgeTaken 6) (v := b.edgeTaken 6) (i := i) hwait hargs (State.touchJob_edge ..).symm hallowed.licensed
            ((hedge 6 3).trans ((hother 3 (by decide) (by decide)).trans ((habnormal 3).trans hallowed.2.2.2.2.2.2.2.2.2))) ((hedge 6 6).trans hnew) (by rw [← hscan] at hdrain; exact hdrain) hc, State.pumpCore_settled] at hanswer
        · rw [State.scanAdmitted_edge, State.edgeTaken, State.scanAdmitted_levels] at hanswer
          exact hanswer
        · rw [State.coreSettled, State.scanAdmitted_core, show (b.edgeTaken 6).core = s.core from
            (congrArg State.core ((s.begin env).touchJob_frame a.job)).trans rfl]
          exact hsettled
      · subst hline
        have hold := (habnormal 3).trans hallowed.2.2.2.2.2.2.2.2.2
        rw [show ((3 : Fin 8).val) = 3 from rfl] at hanswer hnew hother
        rw [hold] at hnew
        have hdeparture : (((s.begin env).edgeTaken 3).raise .sense).scanDeparture =
            (((b.edgeTaken 3).raise .sense).close 1 .scanInterrupted 65535 0).scanIdle := by
          have hwaiting : (((s.begin env).edgeTaken 3).raise .sense).scan.state = .waiting := hwait
          rw [State.scanDeparture, hwaiting]
          exact State.renewScan_departed hwaiting hargs (by rw [State.touchJob_raise, State.touchJob_edge]) hallowed.licensed
            ((hedge 3 3).trans hnew)
        rw [State.senseChange_scanner hother hold hnew, hdeparture,
          State.refused_scan (x := (b.edgeTaken 3).raise .sense) hk (State.closesFreely_of_env (u := b) rfl hcloses) hband hqueue] at hanswer
        exact hanswer

end Sys2Proof.Proofs
end

