-- ==== Sys2Proof/Proofs/LinkEnds.lean ====
section
/-! The Supply Link (spec 08): its commands, its frames, and what ends a procedure; used by O31 and O45 to O49. -/

namespace Sys2Proof.Machine

variable {s u v b t : State} {env : Env} {p : Procedure} {rest : List Procedure} {tr : Transaction} {n m : Nat} {c : Instr}

/-! ### The commands of the link -/

theorem State.endCheckWait_none (h : s.checkWait = none) : s.endCheckWait = s := by rw [State.endCheckWait, h]

/-- R130, R66: a command of the link after which no Check Cartridge and no Print Impression waits. -/
theorem State.linkEffect_alone {f : State → State} (hup : b.up = true) (hwait : (f b).checkWait = none)
    (hprint : (f b).print.state ≠ .waiting) : b.linkEffect f = f b := by
  rw [State.linkEffect, if_pos hup, State.endCheckWait_none hwait, State.renewPrintOnSupply]
  split
  · rfl
  · exact if_neg fun h => hprint h.1

theorem answers_linkEffect {f : State → State} (hc : c.env = env) (heffect : ∀ b, effectOf c b = b.linkEffect f)
    (hnot : ∀ n, c ≠ .lossOfPower n) : Answers c s (((s.begin env).linkEffect f).finish) := by
  have hanswer := answers_effect (c := c) s hnot
  rw [hc, heffect] at hanswer
  exact hanswer

theorem answers_procedureStart (env : Env) (s : State) : Answers (.procedureStart env) s
    ((s.begin env).linkEffect fun b => if b.linkRuns then b.startProcedure else b).finish :=
  answers_linkEffect (c := .procedureStart env) rfl (fun _ => rfl) nofun

theorem answers_responseFrame (env : Env) (bytes : List Byte) (s : State) : Answers (.responseFrame env bytes) s
    ((s.begin env).linkEffect fun b => b.responseEnds (attemptOf bytes)).finish :=
  answers_linkEffect (c := .responseFrame env bytes) rfl (fun _ => rfl) nofun

theorem answers_responseDeadline (env : Env) (s : State) : Answers (.responseDeadline env) s
    ((s.begin env).linkEffect fun b => b.responseEnds fun _ => some .fails).finish :=
  answers_linkEffect (c := .responseDeadline env) rfl (fun _ => rfl) nofun

/-! ### Attempts (R139, R140) -/

theorem State.responseEnds_of (hstate : b.link.state = .response) (htr : b.link.transaction = some tr)
    {e : Transaction → Option AttemptEnd} {r : AttemptEnd} (he : e tr = some r) : b.responseEnds e = b.attemptEnds tr r := by
  rw [State.responseEnds, hstate, htr]
  dsimp only []
  rw [he]

/-- R140: an attempt fails while further attempts remain. -/
theorem State.attemptEnds_retries (hd : tr.discarded = false) (hr : tr.retries < b.stored.settings.supply.retryLimit) :
    b.attemptEnds tr .fails =
      { b with link := { b.link with
        state := .settling, frame := [], transaction := some { tr with retries := tr.retries + 1 } } } := by
  rw [State.attemptEnds, if_neg (by rw [hd]; exact Bool.false_ne_true)]
  exact if_pos hr

/-- R140: the last attempt fails. -/
theorem State.attemptEnds_last (hd : tr.discarded = false) (hr : b.stored.settings.supply.retryLimit ≤ tr.retries) :
    b.attemptEnds tr .fails = b.transactionEnds tr.sequence none := by
  rw [State.attemptEnds, if_neg (by rw [hd]; exact Bool.false_ne_true)]
  exact if_neg (Nat.not_lt.mpr hr)

theorem State.attemptEnds_answered (hd : tr.discarded = false) (payload : List Byte) :
    b.attemptEnds tr (.succeeds payload) = b.transactionEnds tr.sequence (some payload) := by
  rw [State.attemptEnds, if_neg (by rw [hd]; exact Bool.false_ne_true)]

theorem State.runningProcedure_head (hq : b.link.queue = p :: rest) (hr : p.running = true) : b.runningProcedure = some p := by
  rw [State.runningProcedure, hq]
  exact if_pos hr

/-! ### Frames (R134 to R136) -/

/-- R135: a complete frame with its check byte, as it is taken. -/
theorem takeFrame_framed (a status sequence length : Byte) {payload : List Byte} (hl : payload.length = length.toNat) (h32 : payload.length ≤ 32) :
    takeFrame ([a, status, sequence, length] ++ payload ++ [crc8 ([a, status, sequence, length] ++ payload)]) =
      .frame a.toNat status.toNat sequence.toNat payload true := by
  have hlength : ([a, status, sequence, length] ++ payload ++ [crc8 ([a, status, sequence, length] ++ payload)]).length =
      payload.length + 5 := by
    simp only [List.length_append, List.length_cons, List.length_nil]
    omega
  have hhead : ([a, status, sequence, length] ++ payload).length = payload.length + 4 := by
    simp only [List.length_append, List.length_cons, List.length_nil]
    omega
  have hcheck : ([a, status, sequence, length] ++ payload ++ [crc8 ([a, status, sequence, length] ++ payload)]).getD (payload.length + 4) 0 =
      crc8 ([a, status, sequence, length] ++ payload) := by
    rw [← hhead, List.getD_append_right _ _ _ _ (Nat.le_refl _), Nat.sub_self]
    rfl
  have htake : ([a, status, sequence, length] ++ payload ++ [crc8 ([a, status, sequence, length] ++ payload)]).take (payload.length + 4) =
      [a, status, sequence, length] ++ payload := by
    rw [← hhead, List.take_left]
  have hpayload : (([a, status, sequence, length] ++ payload ++ [crc8 ([a, status, sequence, length] ++ payload)]).drop 4).take
      payload.length = payload := by
    simp
  unfold takeFrame
  dsimp only []
  rw [if_neg (by rw [hlength]; omega),
    show ([a, status, sequence, length] ++ payload ++ [crc8 ([a, status, sequence, length] ++ payload)]).getD 3 0 = length from rfl,
    ← hl, if_neg (by omega), if_neg (by rw [hlength]; omega), hcheck, htake, hpayload]
  simp

/-- R139: an answer to the transaction's attempt, complete and without a fault. -/
theorem attemptOf_answered {slot : Nat} {length : Byte} {payload : List Byte} (hslot : slot = tr.slot) (h5 : slot ≤ 5)
    (hseq : tr.sequence < 16) (hl : payload.length = length.toNat) (h32 : payload.length ≤ 32)
    (hlen : payload.length = tr.command.responseLength) :
    attemptOf ([BitVec.ofNat 8 slot, 0, BitVec.ofNat 8 tr.sequence, length] ++ payload ++
      [crc8 ([BitVec.ofNat 8 slot, 0, BitVec.ofNat 8 tr.sequence, length] ++ payload)]) tr = some (.succeeds payload) := by
  unfold attemptOf
  rw [takeFrame_framed _ _ _ _ hl h32]
  have haddress : (BitVec.ofNat 8 slot).toNat = tr.slot := by
    rw [BitVec.toNat_ofNat, ← hslot]
    exact Nat.mod_eq_of_lt (by omega)
  have hsequence : (BitVec.ofNat 8 tr.sequence).toNat = tr.sequence := by
    rw [BitVec.toNat_ofNat]
    exact Nat.mod_eq_of_lt (by omega)
  rw [haddress, hsequence]
  simp [examine, hlen]

/-! ### Cartridge records and the ends of procedures -/

/-- R116: a record changed, with SUPPLY where the change is one that is noticed. -/
theorem State.changeCart_eq (s : State) (n : Nat) (c : Cartridge) : s.changeCart n c =
    { s with
      carts := putAt s.carts (n - 1) c
      notice := if (s.cart n).noticed c = true then s.notice ||| Cause.supply.mask else s.notice } := by
  unfold State.changeCart
  dsimp only []
  split <;> rfl

theorem Link.released_eq {l : Link} (h : l.state ≠ .stuck) : l.released = { l with state := .idle, transaction := none, frame := [] } := by
  unfold Link.released
  rw [if_neg h]

/-- R142: the end of a procedure nobody waits for, with the line not stuck. -/
theorem State.endProcedure_alone (hw : p.waiter = false) (hstate : s.link.state ≠ .stuck) : s.endProcedure p =
    { s with link := { s.link with state := .idle, queue := s.link.queue.tail, transaction := none, frame := [] } } := by
  have hreport : s.reportWaiter p = s := if_neg (by rw [hw]; exact Bool.false_ne_true)
  unfold State.endProcedure
  rw [hreport]
  dsimp only []
  rw [Link.released_eq hstate]

/-- R119: the record of a slot whose chip does not answer. -/
def Cartridge.gone (c : Cartridge) : Cartridge :=
  { c with auth := .absent, reason := none, id := none, kind := none, values := none, unproven := false }

theorem Cartridge.noticed_gone (c : Cartridge) : c.noticed c.gone = !(decide (c.auth = .absent) && decide (c.reason = none)) := by
  unfold Cartridge.noticed Cartridge.gone
  cases c.values <;> cases hr : c.reason <;> cases ha : c.auth <;> simp

/-- R119, R140: an unanswered IDENTIFY, with no attempt left. -/
theorem State.transactionEnds_absent (hq : s.link.queue = p :: rest) (hr : p.running = true) (hk : p.kind = .check)
    (hp : p.phase = some .identify) (sequence : Nat) : s.transactionEnds sequence none = s.checkAbsent p := by
  rw [State.transactionEnds, State.runningProcedure_head hq hr]
  dsimp only []
  rw [hk, hp]

/-- R119: a slot made ABSENT with nobody waiting for its CHECK. -/
theorem State.checkAbsent_alone (hq : s.link.queue = p :: rest) (hw : p.waiter = false) (hstate : s.link.state ≠ .stuck) :
    s.checkAbsent p =
      { s with
        carts := putAt s.carts (p.slot - 1) (s.cart p.slot).gone
        link := { s.link with state := .idle, queue := rest, transaction := none, frame := [] }
        notice := if (s.cart p.slot).noticed (s.cart p.slot).gone = true then s.notice ||| Cause.supply.mask else s.notice } := by
  have hchanged := s.changeCart_eq p.slot (s.cart p.slot).gone
  have hlink : (s.changeCart p.slot (s.cart p.slot).gone).link = s.link := by rw [hchanged]
  have habsent : s.checkAbsent p = (s.changeCart p.slot (s.cart p.slot).gone).endProcedure p := rfl
  rw [habsent, State.endProcedure_alone hw (by rw [hlink]; exact hstate)]
  rw [hlink, hq, hchanged]
  rfl

/-- R119, R139, R140: the deadline of the last attempt of an IDENTIFY. -/
theorem State.deadline_absent (hstate : s.link.state = .response) (htr : s.link.transaction = some tr) (hd : tr.discarded = false)
    (hl : s.stored.settings.supply.retryLimit ≤ tr.retries) (hq : s.link.queue = p :: rest) (hr : p.running = true)
    (hk : p.kind = .check) (hp : p.phase = some .identify) : (s.responseEnds fun _ => some .fails) = s.checkAbsent p := by
  rw [State.responseEnds_of hstate htr rfl, State.attemptEnds_last hd hl, State.transactionEnds_absent hq hr hk hp]

end Sys2Proof.Machine
end

