-- ==== Sys2Proof/Proofs/PrintAdmission.lean ====
section
/-! The admission of an impression (R59 to R66): O31. -/

namespace Sys2Proof.Machine

variable {s u v x b t : State} {env : Env} {k : Ticket} {n m i w13 w14 : Nat} {code : ReturnCode} {a : PrintArgs} {table : List BandEntry}

/-! ### A pass through the checks (R62) -/

theorem State.printRefusal12_none (h : v.printAllowed a table i) : v.printRefusal12 a = none := by
  obtain ⟨hop, hj, hopen, hkind, -⟩ := h
  have hkind' : decide (v.jobKind a.job = .scan) = false := by
    rw [State.jobKind, (State.jobOf_idx hj).1]
    exact decide_eq_false hkind
  unfold State.printRefusal12
  rw [State.runningRefusal_none hop, State.jobRefusal_opened hj hopen, hkind', firstRefusal_cons_none, firstRefusal_cons_none]
  rfl

theorem State.badBandSlot_none (h : ∀ e ∈ v.print.table, e.enciphered = true → v.keyGranted e.slot a.job .print = true) :
    v.badBandSlot a = none :=
  findIdx?_faultless fun e he => by
    cases hc : e.enciphered
    · rfl
    · rw [h e he hc]
      rfl

theorem State.heldByOther_none {h : Handle} (ho : ∀ e, v.hold = some e → e.owner = h) : v.heldByOther h = none := by
  unfold State.heldByOther
  split
  · rfl
  · rename_i e he
    rw [ho e he, refuseIf_none]
    simp

theorem State.printRefusal37_eq (h : v.printAllowed a table i) (ht : v.print.table = table) :
    v.printRefusal37 a = refuseIf v.engineDeparted .engineNotReady := by
  obtain ⟨-, hj, -, -, -, hseen, hcolour, howner, hslots⟩ := h
  have hmay : (a.colour && !v.mayColour (v.job i).account) = false := by
    cases hc : a.colour
    · rfl
    · rw [hcolour hc]
      rfl
  unfold State.printRefusal37
  rw [State.jobAccount_eq hj]
  dsimp only []
  rw [State.accountRefusal_active hseen, hmay, State.heldByOther_none howner, State.badBandSlot_none (by rw [ht]; exact hslots)]
  cases v.engineDeparted <;> rfl

/-- R62 checks 1 to 6: the pass goes on with the engine's lines and the supplies. -/
theorem State.printAdmit_allowed (hargs : u.print.args = some a) (hv : v = u.touchJob a.job) (h : v.printAllowed a table i)
    (ht : v.print.table = table) :
    u.printAdmit =
      match refuseIf v.engineDeparted .engineNotReady with
      | some r => v.printRefuse r
      | none =>
        if v.lineAbnormal 5 ∨ v.lineAbnormal 7 then v.printWait .ready
        else if (neededSlots a.colour).filter (fun n => v.supplyClass n = .refusing) ≠ [] then
          v.printRefuse { code := .supply, w14 := slotMask ((neededSlots a.colour).filter (fun n => v.supplyClass n = .refusing)) }
        else if (neededSlots a.colour).any (fun n => v.supplyClass n = .pending) then v.awaitSupply a.colour
        else v.printCheck10 a := by
  subst hv
  have h12 := State.printRefusal12_none h
  have h37 := State.printRefusal37_eq h ht
  obtain ⟨-, hj, -, -, hok, -⟩ := h
  unfold State.printAdmit
  rw [hargs]
  dsimp only []
  rw [h12]
  dsimp only []
  rw [State.jobAccount_eq hj, State.readAccount_ok hok, h37] <;> cases (u.touchJob a.job).engineDeparted <;> rfl

theorem State.engineDeparted_false (h : ∀ m ∈ [0, 1, 2], v.lineAbnormal m = false) : v.engineDeparted = false := by
  rw [State.engineDeparted, h 0 (by decide), h 1 (by decide), h 2 (by decide)]
  rfl

/-- R62 check 8: with the engine there and its ready lines normal the pass turns on the supplies. -/
theorem State.printAdmit_ready (hargs : u.print.args = some a) (hv : v = u.touchJob a.job) (h : v.printAllowed a table i)
    (ht : v.print.table = table) (hengine : ∀ m ∈ [0, 1, 2], v.lineAbnormal m = false) (h5 : v.lineAbnormal 5 = false)
    (h7 : v.lineAbnormal 7 = false) :
    u.printAdmit =
      if (neededSlots a.colour).filter (fun n => v.supplyClass n = .refusing) ≠ [] then
        v.printRefuse { code := .supply, w14 := slotMask ((neededSlots a.colour).filter (fun n => v.supplyClass n = .refusing)) }
      else if (neededSlots a.colour).any (fun n => v.supplyClass n = .pending) then v.awaitSupply a.colour
      else v.printCheck10 a := by
  rw [State.printAdmit_allowed hargs hv h ht, State.engineDeparted_false hengine, h5, h7]
  exact if_neg (by simp)

/-! ### Check 10 (R65) -/

/-- R40: the admission is activity for an engine hold, whose owner is the job (R62 check 5). -/
theorem State.touchHold_owned {h : Handle} (ho : ∀ e, x.hold = some e → e.owner = h) :
    x.touchHold h = { x with hold := x.hold.map (fun e => { e with last := x.dev.clock }) } := by
  unfold State.touchHold
  cases hh : x.hold with
  | none => exact congrArg (fun y => { x with hold := y }) hh
  | some e => exact if_pos (ho e hh)

theorem State.printCheck10_covered (hactive : v.touchJob a.job = v) (hargs : v.print.args = some a) (ht : v.print.table = table)
    (h : v.printAllowed a table i)
    (hc : v.covers (v.job i).account (v.job i).free ((PrintCapture.ofSettings v.stored.settings a.size).hold a.colour)) :
    v.printCheck10 a = v.printAdmitted a table i := by
  obtain ⟨-, hj, -, -, -, -, -, howner, -⟩ := h
  generalize hcap : PrintCapture.ofSettings v.stored.settings a.size = cap at hc
  unfold State.printCheck10
  dsimp only []
  rw [(State.jobOf_idx hj).1, hcap, State.requestHold_some hc]
  dsimp only []
  have hjob : ((v.topUp i (cap.hold a.colour) fun j => j.withHold .print (cap.hold a.colour)).job i) = { v.job i with
        free := (v.job i).free - cap.hold a.colour, printHold := cap.hold a.colour, printFlight := true } := by
    rw [State.topUp, State.putJob_job, if_pos ⟨rfl, (State.jobOf_idx hj).2.1⟩]
    rfl
  have hrecorded := State.touchJob_recorded (x := v.topUp i (cap.hold a.colour) fun j => j.withHold .print (cap.hold a.colour)) hactive hj
    (State.jobOf_congr hj (by rw [hjob]) (by rw [hjob])) (by rw [hjob]) rfl rfl
  rw [State.admitted, hrecorded, State.touchHold_owned (x := v.topUp i (cap.hold a.colour) fun j => j.withHold .print (cap.hold a.colour))
    howner]
  unfold State.printAdmitted
  subst hcap
  subst ht
  rw [← hargs]
  rfl

/-- R27: check 10 with a hold that is not covered. -/
theorem State.printCheck10_refused (hj : v.jobOf a.job = some i) (hopen : (v.job i).state = .opened)
    (hc : ¬v.covers (v.job i).account (v.job i).free ((PrintCapture.ofSettings v.stored.settings a.size).hold a.colour)) :
    v.printCheck10 a = ((v.putJob i { v.job i with state := .quotaStopped }).close 2 .noQuota 0
      ((v.record (v.job i).account).quota - (v.record (v.job i).account).used - (v.acct (v.job i).account).reserved)).printIdle := by
  have hlimited : v.unlimited (v.job i).account = false := Bool.eq_false_iff.mpr fun h => hc (.inl h)
  unfold State.printCheck10
  dsimp only []
  rw [(State.jobOf_idx hj).1, State.requestHold_none hc]
  dsimp only []
  rw [State.jobAccount_eq hj, State.available_limited hlimited, State.quotaStop, if_pos hopen]
  rfl

/-- R64: a CHECK asked for a slot joins the queue where the doors are closed. -/
theorem State.requestCheck_closed (hop : s.dev.op = .running) (h0 : s.lineAbnormal 0 = false) (h1 : s.lineAbnormal 1 = false) (n : Nat)
    (w : Bool) : s.requestCheck n w = { s with link := { s.link with queue := requestIn s.link.queue n .check w } } := by
  have hdoor : s.lineAbnormal (doorLine n) = false := by
    unfold doorLine
    split
    · exact h0
    · exact h1
  exact if_pos ⟨.inl hop, hdoor⟩

theorem State.requestChecks_closed (l : List Nat) (s : State) (hop : s.dev.op = .running) (h0 : s.lineAbnormal 0 = false)
    (h1 : s.lineAbnormal 1 = false) (w : Bool) : l.foldl (fun s n => s.requestCheck n w) s =
      { s with link := { s.link with queue := l.foldl (fun q n => requestIn q n .check w) s.link.queue } } := by
  induction l generalizing s with
  | nil => rfl
  | cons n l ih =>
    rw [List.foldl_cons, State.requestCheck_closed hop h0 h1, ih]
    · rfl
    · exact hop
    · exact h0
    · exact h1

theorem State.awaitSupply_eq (hop : s.dev.op = .running) (h0 : s.lineAbnormal 0 = false) (h1 : s.lineAbnormal 1 = false) (colour : Bool) :
    s.awaitSupply colour =
      { s with
        print := { s.print with state := .waiting, wait := some .supply }
        link := { s.link with
          queue := ((neededSlots colour).filter (fun m => (s.cart m).auth = .unchecked)).foldl (fun q m => requestIn q m .check false)
            s.link.queue } } := by
  unfold State.awaitSupply
  rw [State.requestChecks_closed _ s hop h0 h1]
  rfl

/-! ### The ticket -/

theorem State.touchJob_print (u : State) (p : PrintPath) (h : Handle) :
    State.touchJob { u with print := p } h = { u.touchJob h with print := p } := by
  refine (State.touchJob_like (x := { u with print := p }) (v := u) h rfl rfl rfl).trans ?_
  rw [u.touchJob_frame]

theorem State.touchJob_offered (u : State) (L : Vector Lane 4) (p : PrintPath) (h : Handle) :
    State.touchJob { u.setLanes L with print := p } h = State.setLanes { u.touchJob h with print := p } L :=
  (State.setLanes_touchJob { u with print := p } L h).trans (congrArg (State.setLanes · L) (u.touchJob_print p h))

/-- R59 to R61: a valid ticket takes its pass with its arguments and its band table held. -/
theorem printImpressionBody_admits {ws : List Word} (h1 : 1 ≤ (k.w 7).toNat) (h256 : (k.w 7).toNat ≤ 256) (hl : (k.w 6).toNat % 4 = 0)
    (ha : PrintArgs.ofTicket k = some a) (hr : u.readWords (k.w 6).toNat (6 * (k.w 7).toNat) = .ok ws)
    (hfault : printFault (some a) ((listEntries ws 6 (k.w 7).toNat).map RawBand.ofWords) = none)
    (ht : table = (listEntries ws 6 (k.w 7).toNat).map (fun e => (RawBand.ofWords e).entry)) :
    printImpressionBody k u = { u with print := { u.print with args := some a, table } }.printAdmit := by
  subst ht
  unfold printImpressionBody
  dsimp only []
  rw [if_neg (by omega), hr]
  dsimp only []
  rw [ha, hfault]
  dsimp only []
  rw [List.map_map]
  rfl

theorem State.printAdmitted_setLanes (x : State) (L : Vector Lane 4) (a : PrintArgs) (table : List BandEntry) (i : Nat) :
    (x.setLanes L).printAdmitted a table i = (x.printAdmitted a table i).setLanes L := rfl

/-! ### The end of a wait (R66) -/

/-- R152: a return of S5 or S7 with both normal, for a ticket waiting at check 8. -/
theorem State.engineReadyReturn_renews {old new : BitVec 8} (hr : returned old new 5 = true ∨ returned old new 7 = true)
    (h5 : new.getLsbD 5 = false) (h7 : new.getLsbD 7 = false) (hs : u.print.state = .waiting) (hw : u.print.wait = some .ready) :
    u.engineReadyReturn old new = u.printAdmit := by
  have hreturned : (returned old new 5 || returned old new 7) = true := by simpa using hr
  unfold State.engineReadyReturn State.renewPrint
  rw [hreturned, h5, h7, hs, hw]
  rfl

theorem State.printAdmit_admits (hargs : u.print.args = some a) (hv : v = u.touchJob a.job) (h : v.printAllowed a table i)
    (ht : v.print.table = table) (hengine : ∀ m ∈ [0, 1, 2], v.lineAbnormal m = false) (h5 : v.lineAbnormal 5 = false)
    (h7 : v.lineAbnormal 7 = false) (husable : ∀ m ∈ neededSlots a.colour, v.supplyClass m = .usable)
    (hc : v.covers (v.job i).account (v.job i).free ((PrintCapture.ofSettings v.stored.settings a.size).hold a.colour)) :
    u.printAdmit = v.printAdmitted a table i := by
  have hnone : (neededSlots a.colour).filter (fun m => v.supplyClass m = .refusing) = [] :=
    List.filter_eq_nil_iff.mpr fun m hm => by rw [husable m hm]; decide
  have hnot : (neededSlots a.colour).any (fun m => v.supplyClass m = .pending) = false :=
    List.any_eq_false.mpr fun m hm => by rw [husable m hm]; decide
  have hargs' : v.print.args = some a := by rw [hv, State.touchJob_frame]; exact hargs
  rw [State.printAdmit_ready hargs hv h ht hengine h5 h7, if_neg (not_not.mpr hnone), hnot, if_neg Bool.false_ne_true]
  exact State.printCheck10_covered (by rw [hv, State.touchJob_twice]) hargs' ht h hc

/-- R66: an ENGINE departure refuses a waiting ticket. -/
theorem State.printDeparture_waiting (hs : u.print.state = .waiting) (hargs : u.print.args = some a) (hv : v = u.touchJob a.job)
    (h : v.printAllowed a table i) (ht : v.print.table = table) (h2 : v.lineAbnormal 2 = true) :
    u.printDeparture = (v.close 2 .engineNotReady 0 0).printIdle := by
  have hdeparted : v.engineDeparted = true := by rw [State.engineDeparted, h2, Bool.or_true]
  rw [State.printDeparture, hs]
  dsimp only []
  rw [State.renewPrint, if_pos hs, State.printAdmit_allowed hargs hv h ht, hdeparted]
  rfl

/-- R66, R161: the answer of a waiting ticket that the departure at S3 refuses. -/
theorem State.departure_refuses (hk : (b.lane 2).service = some k) (hw : b.closesFreely k) (hb : b.core.band = none)
    (hq : b.core.scanWaiting = none) :
    ((((b.edgeTaken 2).raise .sense).close 2 code w13 w14 false).printIdle.pumpCore).finish =
      State.answered { b with
          levels := b.levels ^^^ BitVec.twoPow 8 2, notice := b.notice ||| Cause.sense.mask, print := b.print.ended
          core := { b.core with printQueue := [] } } 2 k code w13 w14 :=
  State.refused_print (x := (b.edgeTaken 2).raise .sense) hk hw hb hq

theorem State.touchJob_supply (u : State) (carts : Vector Cartridge 5) (link : Link) (notice : BitVec 13) (h : Handle) :
    State.touchJob { u with carts, link, notice } h = { u.touchJob h with carts, link, notice } := by
  refine (State.touchJob_like (x := { u with carts, link, notice }) (v := u) h rfl rfl rfl).trans ?_
  rw [u.touchJob_frame]

/-- R64: a cartridge that is absent refuses the page. -/
theorem State.supplyClass_gone {carts : Vector Cartridge 5} {link : Link} {notice : BitVec 13} (hn : 1 ≤ n ∧ n ≤ 5)
    (hc : carts = putAt v.carts (n - 1) (v.cart n).gone) (hm : 1 ≤ m ∧ m ≤ 5) :
    State.supplyClass { v with carts, link, notice } m = if m = n then .refusing else v.supplyClass m := by
  have hcart : State.cart { v with carts, link, notice } m = if m = n then (v.cart n).gone else v.cart m := by
    subst hc
    refine (entryAt_putAt ..).trans ?_
    by_cases h : m = n
    · rw [if_pos h, if_pos ⟨by rw [h], by omega⟩]
    · rw [if_neg h, if_neg fun hc => h (by omega)]
      rfl
  unfold State.supplyClass
  rw [hcart]
  split
  · rfl
  · rfl

/-- R66: an unanswered CHECK of a slot it needs refuses the ticket that waits for it. -/
theorem State.renewPrintOnSupply_gone {carts : Vector Cartridge 5} {link : Link} {notice : BitVec 13} (hs : u.print.state = .waiting)
    (hargs : u.print.args = some a) (hw : u.print.wait = some .supply) (hv : v = u.touchJob a.job) (h : v.printAllowed a table i)
    (ht : v.print.table = table) (hengine : ∀ m ∈ [0, 1, 2], v.lineAbnormal m = false) (h5 : v.lineAbnormal 5 = false)
    (h7 : v.lineAbnormal 7 = false) (hn : n ∈ neededSlots a.colour) (hpending : v.supplyClass n = .pending)
    (hc : carts = putAt v.carts (n - 1) (v.cart n).gone) :
    u.renewPrintOnSupply { u with carts, link, notice } =
      (State.close { v with carts, link, notice } 2 .supply 0
        (((neededSlots a.colour).filter (fun m => decide (m = n) || v.supplyClass m = .refusing)).map fun m => 2 ^ (m - 1)).sum).printIdle := by
  have hclass : ∀ m ∈ neededSlots a.colour, State.supplyClass { v with carts, link, notice } m =
      if m = n then .refusing else v.supplyClass m := fun m hm =>
    State.supplyClass_gone (neededSlots_range _ n hn) hc (neededSlots_range _ m hm)
  have hufree : ∀ m, u.supplyClass m = v.supplyClass m := fun m => by
    rw [hv, State.touchJob_frame]
    rfl
  have hucarts : State.supplyClass { u with carts, link, notice } n = State.supplyClass { v with carts, link, notice } n := by
    rw [hv, State.touchJob_frame]
    rfl
  have hleft : (neededSlots a.colour).any (fun m =>
      u.supplyClass m = .pending && State.supplyClass { u with carts, link, notice } m ≠ .pending) = true := by
    refine List.any_eq_true.mpr ⟨n, hn, ?_⟩
    rw [hufree, hpending, hucarts, hclass n hn, if_pos rfl]
    rfl
  have hfilter : (neededSlots a.colour).filter (fun m => State.supplyClass { v with carts, link, notice } m = .refusing) =
      (neededSlots a.colour).filter (fun m => decide (m = n) || v.supplyClass m = .refusing) := by
    refine List.filter_congr fun m hm => ?_
    rw [hclass m hm]
    by_cases he : m = n <;> simp [he]
  have hsome : (neededSlots a.colour).filter (fun m => decide (m = n) || v.supplyClass m = .refusing) ≠ [] :=
    List.ne_nil_of_mem (a := n) (List.mem_filter.mpr ⟨hn, by simp⟩)
  have htouch : { v with carts, link, notice } = State.touchJob { u with carts, link, notice } a.job := by
    rw [u.touchJob_supply, hv]
  unfold State.renewPrintOnSupply
  rw [show State.print { u with carts, link, notice } = u.print from rfl, hargs]
  dsimp only []
  rw [if_pos ⟨hs, hw, hleft⟩]
  refine (if_pos hs).trans ((State.printAdmit_ready (u := { u with carts, link, notice }) (v := { v with carts, link, notice }) hargs htouch h ht hengine h5 h7).trans ?_)
  rw [hfilter, if_pos hsome, slotMask_sum (neededSlots_sublist a.colour _)]
  rfl

end Sys2Proof.Machine

namespace Sys2Proof.Proofs

open Sys2Proof.Machine

/-- Settles O31: the admission of an impression, its waits and its refusals. -/
theorem printImpressionAdmission : Obligations.PrintImpressionAdmission := by
  intro env s a table i b j n available hold needed mask waiting emptied
  have hl : b.lanes = (s.begin env).lanes := State.touchJob_lanes _ _
  have he : b.env = env := State.touchJob_env _ _
  refine ⟨fun k bad hserves h1 h256 halign hread => ?_, fun k hoffered hallowed hengine => ?_, fun hwait hargs htable hallowed hengine => ?_⟩
  · refine hserves.answers 0 (v := ((s.begin env).touchJob (Handle.ofField (k.w 2))).captureMemory .memoryRead 2 bad)
      (State.touchJob_lanes _ _) (State.touchJob_env _ _) fun L => ?_
    unfold printImpressionBody
    dsimp only []
    rw [if_neg (by omega), State.setLanes_at_readWords, hread]
    dsimp only []
    rw [State.setLanes_touchJob, State.setLanes_captureMemory]
    rfl
  · obtain ⟨hserves, h1, h256, halign, hargs, ws, hread, hfault, htable⟩ := hoffered
    have hprint : b.print = (s.begin env).print := (congrArg State.print ((s.begin env).touchJob_frame a.job)).trans rfl
    let held : PrintPath := { b.print with args := some a, table }
    have hbody : ∀ L, printImpressionBody k ((s.begin env).setLanes L) =
        State.printAdmit { (s.begin env).setLanes L with print := held } := fun L => by
      rw [printImpressionBody_admits h1 h256 halign hargs ((State.setLanes_at_readWords ..).trans hread) hfault htable]
      dsimp only [held]
      rw [hprint]
      rfl
    have htouch : ∀ L, State.setLanes { b with print := held } L = State.touchJob { (s.begin env).setLanes L with print := held } a.job :=
      fun L => (State.touchJob_offered (s.begin env) L held a.job).symm
    refine ⟨fun hlines => ?_, fun h5 h7 => ?_⟩
    · refine hserves.begun 0 (v := { b with print := waiting .ready }) hl fun L => ?_
      rw [hbody, State.printAdmit_allowed (v := State.setLanes { b with print := held } L) rfl (htouch L) hallowed rfl,
        State.engineDeparted_false (v := State.setLanes { b with print := held } L) hengine]
      exact if_pos hlines
    · have hready : ∀ L, printImpressionBody k ((s.begin env).setLanes L) =
          if needed.filter (fun m => b.supplyClass m = .refusing) ≠ [] then
            (State.setLanes { b with print := held } L).printRefuse
              { code := .supply, w14 := slotMask (needed.filter (fun m => b.supplyClass m = .refusing)) }
          else if needed.any (fun m => b.supplyClass m = .pending) then
            (State.setLanes { b with print := held } L).awaitSupply a.colour
          else (State.setLanes { b with print := held } L).printCheck10 a := fun L =>
        (hbody L).trans (State.printAdmit_ready (v := State.setLanes { b with print := held } L) rfl (htouch L) hallowed rfl hengine h5 h7)
      have hmask : ∀ p : Nat → Bool, slotMask (needed.filter p) = mask (needed.filter p) := fun p =>
        slotMask_sum (neededSlots_sublist a.colour p)
      refine ⟨fun hrefusing hband => ?_, fun hrefusing hpending => ?_, fun husable => ?_⟩
      · have hrefused : ∀ L, printImpressionBody k ((s.begin env).setLanes L) = State.printIdle
            ((State.setLanes { b with print := held } L).close 2 .supply 0
              (mask (needed.filter (fun m => b.supplyClass m = .refusing)))) := fun L => by
          rw [hready, if_pos hrefusing, ← hmask]
          rfl
        have hanswer := hserves.answers_then 0 State.printIdle (fun _ => rfl) (v := { b with print := held })
          (body := printImpressionBody) hl he hrefused
        rw [State.printIdle_answered (by exact hband)] at hanswer
        exact hanswer
      · refine hserves.begun 0 (v := { b with
            print := waiting .supply
            link := { b.link with
              queue := (needed.filter (fun m => (b.cart m).auth = .unchecked)).foldl
                (fun q m => requestIn q m .check false) b.link.queue } }) hl fun L => ?_
        rw [hready, if_neg (not_not.mpr hrefusing), if_pos (by simpa using hpending)]
        exact State.awaitSupply_eq (s := State.setLanes { b with print := held } L) hallowed.1 (hengine 0 (by decide))
          (hengine 1 (by decide)) a.colour
      · have hnone : needed.filter (fun m => b.supplyClass m = .refusing) = [] :=
          List.filter_eq_nil_iff.mpr fun m hm => by rw [husable m hm]; decide
        have hnot : needed.any (fun m => b.supplyClass m = .pending) = false :=
          List.any_eq_false.mpr fun m hm => by rw [husable m hm]; decide
        have hcheck : ∀ L, printImpressionBody k ((s.begin env).setLanes L) = (State.setLanes { b with print := held } L).printCheck10 a :=
          fun L => by rw [hready, if_neg (not_not.mpr hnone), hnot, if_neg Bool.false_ne_true]
        refine ⟨fun hc => ?_, fun hc hband => ?_⟩
        · refine hserves.begun 0 (v := b.printAdmitted a table i) hl fun L => ?_
          rw [hcheck]
          exact State.printCheck10_covered (v := State.setLanes { b with print := held } L) (table := table)
            (State.touchJob_recorded (v := b) (State.touchJob_twice ..) hallowed.2.1 hallowed.2.1 rfl rfl rfl) rfl rfl hallowed hc
        · have hrefused : ∀ L, printImpressionBody k ((s.begin env).setLanes L) = State.printIdle
              ((State.setLanes { b.putJob i { b.job i with state := .quotaStopped } with print := held } L).close 2 .noQuota 0
                available) := fun L => by
            rw [hcheck]
            exact State.printCheck10_refused (v := State.setLanes { b with print := held } L) hallowed.2.1 hallowed.2.2.1 hc
          have hanswer := hserves.answers_then 0 State.printIdle (fun _ => rfl)
            (v := { b.putJob i { b.job i with state := .quotaStopped } with print := held }) (body := printImpressionBody) hl he hrefused
          rw [State.printIdle_answered (by exact hband)] at hanswer
          exact hanswer
  · have hargs' : b.print = s.print := (congrArg State.print ((s.begin env).touchJob_frame a.job)).trans rfl
    have hcore : b.core = s.core := (congrArg State.core ((s.begin env).touchJob_frame a.job)).trans rfl
    have hheld : b.print.table = table := by rw [hargs']; exact htable
    refine ⟨fun line high halive hlevel hwatch hsettled => ?_, fun k p rest tr hup hwaits h5 h7 hk hcloses hband hnowait hresponse htr hkept
      hlimit hqueue hrun hkind hphase hwaiter hneeded hpending => ?_⟩
    · intro levels
      have hanswer := answers_senseLineEdge (env := env) halive hlevel
      have habnormal : ∀ m, (s.begin env).abnormal.getLsbD m = b.lineAbnormal m := fun m => (State.touchJob_lineAbnormal ..).symm
      have hedge : ∀ m l, (b.edgeTaken m).lineAbnormal l = ((s.begin env).edgeTaken m).abnormal.getLsbD l := fun m l => by
        rw [show b = (s.begin env).touchJob a.job from rfl, ← State.touchJob_edge]
        exact State.touchJob_lineAbnormal ..
      have hwatch' : (s.begin env).stored.settings.sense.watch.getLsbD line.val = true := by
        rw [show b = (s.begin env).touchJob a.job from rfl, State.touchJob_frame] at hwatch
        exact hwatch
      have hother : ∀ m < 8, m ≠ line.val →
          ((s.begin env).edgeTaken line.val).abnormal.getLsbD m = (s.begin env).abnormal.getLsbD m :=
        fun m hm hne => State.edgeTaken_other _ hm hne
      have hnew := State.edgeTaken_watched (s.begin env) line.isLt hwatch'
      refine ⟨fun hline hwaits hold hrest husable hc => ?_, fun k hline hk hcloses hband hscan => ?_⟩
      · have hval : line.val = 5 ∨ line.val = 7 := by
          rcases hline with rfl | rfl
          · exact .inl rfl
          · exact .inr rfl
        have hready : ∀ m ∈ [5, 7], ((s.begin env).edgeTaken line.val).abnormal.getLsbD m = false := fun m hm => by
          by_cases hmline : m = line.val
          · rw [hmline, hnew, habnormal, hold]
            rfl
          · rw [hother m (by simp at hm; omega) hmline, habnormal]
            exact hrest m hm hmline
        have hreturned : returned (s.begin env).abnormal ((s.begin env).edgeTaken line.val).abnormal line.val = true := by
          rw [returned, hnew, habnormal, hold]
          rfl
        have heither : returned (s.begin env).abnormal ((s.begin env).edgeTaken line.val).abnormal 5 = true ∨
            returned (s.begin env).abnormal ((s.begin env).edgeTaken line.val).abnormal 7 = true := by
          rcases hline with rfl | rfl
          · exact .inl hreturned
          · exact .inr hreturned
        have hfive := hready 5 (by decide)
        have hseven := hready 7 (by decide)
        rw [State.senseChange_ready (fun m hm => hother m (by omega) (by omega)) (wentAbnormal_same (hother 6 (by decide) (by omega))),
          State.engineReadyReturn_renews (u := (s.begin env).edgeTaken line.val) (old := (s.begin env).abnormal) heither hfive hseven hwait
            hwaits,
          State.printAdmit_admits (u := (s.begin env).edgeTaken line.val) (v := b.edgeTaken line.val) (i := i) (table := table) hargs
            (State.touchJob_edge ..).symm hallowed hheld (fun m hm => (hedge _ m).trans ((hother m (by simp at hm; omega) (by simp at hm; omega)).trans
              ((habnormal m).trans (hengine m hm)))) ((hedge _ 5).trans hfive) ((hedge _ 7).trans hseven) husable hc,
          State.scannerReadyReturn_same (hother 6 (by decide) (by omega)), State.pumpCore_settled] at hanswer
        · exact hanswer
        · exact fun hfree => by
            have := hsettled (by rw [← hcore]; exact hfree)
            rw [← hcore] at this
            exact this
      · subst hline
        rw [show ((2 : Fin 8).val) = 2 from rfl] at hanswer hnew hother
        have hold := (habnormal 2).trans (hengine 2 (by decide))
        rw [hold] at hnew
        have hdeparture := State.printDeparture_waiting (u := ((s.begin env).edgeTaken 2).raise .sense)
          (v := (b.edgeTaken 2).raise .sense) (i := i) (table := table) hwait hargs (by rw [State.touchJob_raise, State.touchJob_edge])
          hallowed hheld ((hedge 2 2).trans hnew)
        rw [State.senseChange_engine hother ((habnormal 0).trans (hengine 0 (by decide))) ((habnormal 1).trans (hengine 1 (by decide))) hold
          hnew, hdeparture, State.departure_refuses hk hcloses hband hscan] at hanswer
        exact hanswer
    · have hsupply : b.carts = (s.begin env).carts ∧ b.link = (s.begin env).link ∧ b.notice = (s.begin env).notice := by
        rw [show b = (s.begin env).touchJob a.job from rfl, State.touchJob_frame]
        exact ⟨rfl, rfl, rfl⟩
      obtain ⟨hcarts, hlink, hnotice⟩ := hsupply
      have hlimit' : (s.begin env).stored.settings.supply.retryLimit ≤ tr.retries := by
        rw [show b = (s.begin env).touchJob a.job from rfl, State.touchJob_frame] at hlimit
        exact hlimit
      have hslot := neededSlots_range _ _ hneeded
      have hauth : (b.cart p.slot).auth ≠ .absent := fun h => by
        rw [State.supplyClass, Cartridge.supplyClass, h] at hpending
        cases hpending
      have hnoticed : ((s.begin env).cart p.slot).noticed ((s.begin env).cart p.slot).gone = true := by
        rw [Cartridge.noticed_gone, show (s.begin env).cart p.slot = b.cart p.slot by rw [State.cart, State.cart, hcarts], decide_eq_false hauth]
        rfl
      have habsent := (State.deadline_absent (s := s.begin env) hresponse htr hkept hlimit' hqueue hrun hkind hphase).trans
        (State.checkAbsent_alone (s := s.begin env) hqueue hwaiter (by rw [show (s.begin env).link = s.link from rfl, hresponse]; exact nofun))
      rw [if_pos hnoticed] at habsent
      have hanswer := answers_responseDeadline env s
      rw [State.linkEffect, if_pos (show (s.begin env).up = true from hup), habsent,
        State.endCheckWait_none (by exact hnowait)] at hanswer
      have hcart : (s.begin env).cart p.slot = b.cart p.slot := by rw [State.cart, State.cart, hcarts]
      rw [State.renewPrintOnSupply_gone (u := s.begin env) (v := b) (i := i) (table := table) hwait hargs hwaits rfl hallowed hheld hengine
        h5 h7 hneeded hpending (by rw [hcarts, hcart])] at hanswer
      rw [← hcarts, ← hlink, ← hnotice, hcart, State.closed_print (x := { b with
          carts := putAt b.carts (p.slot - 1) (b.cart p.slot).gone
          link := { b.link with state := .idle, queue := rest, transaction := none, frame := [] }
          notice := b.notice ||| Cause.supply.mask }) hk (State.closesFreely_of_env (u := b) rfl hcloses) hband] at hanswer
      exact hanswer

end Sys2Proof.Proofs
end

