-- ==== Sys2Proof/Proofs/Checks.lean ====
section
/-! The procedures of the Supply Link: how they start (R118, R127, R142) and what their answers do (R119 to R121): O46 and O47. -/

namespace Sys2Proof.Machine

variable {s u v b t : State} {env : Env} {p : Procedure} {rest : List Procedure} {tr : Transaction} {n m slot : Nat} {c : Instr} {waiter : Bool}

/-! ### The start of a procedure -/

theorem State.startProcedure_idle (hidle : s.link.state = .idle) (htr : s.link.transaction = none) (hq : s.link.queue = p :: rest)
    (hr : p.running = false) :
    s.startProcedure = match p.kind with | .check => s.startCheck p | .record => s.startRecord p := by
  rw [State.startProcedure, if_pos ⟨.inl hidle, htr⟩, hq]
  dsimp only []
  rw [hr]
  rfl

/-- R141: a CHECK that starts drops the RECORDs of its slot, of which a queue without another entry of the slot has none. -/
theorem filter_checks (head : Procedure) (hk : head.kind = .check) (hrest : ∀ q ∈ rest, q.slot ≠ n) :
    (head :: rest).filter (fun q => q.slot ≠ n || q.kind ≠ ProcedureKind.record) = head :: rest := by
  refine List.filter_eq_self.mpr fun q hq => ?_
  rcases List.mem_cons.mp hq with rfl | hq
  · rw [hk]
    exact Bool.or_true _
  · simp [hrest q hq]

theorem Cartridge.noticed_checking (c : Cartridge) (h : c.auth = .unchecked) (owed : Bool) :
    c.noticed { c with auth := .checking, recordOwed := owed } = true := by
  unfold Cartridge.noticed
  rw [h]
  rfl

/-- R118: what a CHECK does once its record is CHECKING. -/
def State.beginCheck (s : State) (p : Procedure) : State :=
  let p := { p with running := true, nonce := some (Config.randomSource.nonce s.draws), phase := some .identify }
  let s := { s with draws := s.draws + 1 }
  let s := s.putHead p
  let s := { s with link := { s.link with
    queue := s.link.queue.filter (fun q => q.slot ≠ p.slot || q.kind ≠ ProcedureKind.record) } }
  if s.link.state = .stuck then s.checkAbsent p else s.beginTransaction p.slot .identify []

theorem State.startCheck_untrusted (h : (s.cart p.slot).trusted = false) : s.startCheck p =
    (s.changeCart p.slot { s.cart p.slot with auth := .checking, recordOwed := false }).beginCheck p := by
  have hcart : (if (s.cart p.slot).trusted then s.listWrite p.slot else s) = s := if_neg (by rw [h]; exact Bool.false_ne_true)
  exact congrArg (fun x : State =>
    (x.changeCart p.slot { x.cart p.slot with auth := .checking, recordOwed := false }).beginCheck p) hcart

/-- R118: the CHECK of an UNCHECKED record begins with IDENTIFY. -/
theorem State.startCheck_unchecked (hidle : s.link.state = .idle) (hq : s.link.queue = .queued slot .check waiter :: rest)
    (hrest : ∀ q ∈ rest, q.slot ≠ slot) (hc : (s.cart slot).auth = .unchecked) :
    s.startCheck (.queued slot .check waiter) =
      { s with
        carts := putAt s.carts (slot - 1) { s.cart slot with auth := .checking, recordOwed := false }
        draws := s.draws + 1
        link := { s.link with
          state := .settling
          queue :=
            { Procedure.queued slot .check waiter with
              running := true, nonce := some (Config.randomSource.nonce s.draws), phase := some .identify } :: rest
          sequence := putAt s.link.sequence (slot - 1) ((entryAt s.link.sequence (slot - 1) 0 + 1) % 16)
          transaction := some
            { slot, command := .identify, sequence := (entryAt s.link.sequence (slot - 1) 0 + 1) % 16, payload := [], retries := 0
              discarded := false }
          frame := [] }
        notice := s.notice ||| Cause.supply.mask } := by
  have htrusted : (s.cart slot).trusted = false := by rw [Cartridge.trusted, hc]; rfl
  have hchanged := s.changeCart_eq slot { s.cart slot with auth := .checking, recordOwed := false }
  rw [if_pos (Cartridge.noticed_checking _ hc false)] at hchanged
  rw [State.startCheck_untrusted (p := .queued slot .check waiter) htrusted]
  dsimp only [Procedure.queued]
  rw [hchanged]
  dsimp only [State.beginCheck, State.putHead]
  rw [hq, List.tail_cons, filter_checks _ rfl hrest]
  exact if_neg fun h => by rw [show _ = s.link.state from rfl, hidle] at h; cases h

/-- R127: the RECORD of a trusted record captures what it sends. -/
theorem State.startRecord_trusted {w : CartridgeValues} (hidle : s.link.state = .idle)
    (hq : s.link.queue = .queued slot .record waiter :: rest) (hc : (s.cart slot).trusted = true) (hv : (s.cart slot).values = some w) :
    s.startRecord (.queued slot .record waiter) =
      { s with
        link := { s.link with
          state := .settling
          queue := { Procedure.queued slot .record waiter with running := true, captured := some (w.remaining, w.useCount) } :: rest
          sequence := putAt s.link.sequence (slot - 1) ((entryAt s.link.sequence (slot - 1) 0 + 1) % 16)
          transaction := some
            { slot, command := .record, sequence := (entryAt s.link.sequence (slot - 1) 0 + 1) % 16
              payload := countBytes w.remaining ++ countBytes w.useCount, retries := 0, discarded := false }
          frame := [] } } := by
  unfold State.startRecord
  dsimp only [Procedure.queued]
  rw [if_pos hc, hv]
  dsimp only [State.putHead]
  rw [hq]
  exact if_neg fun h => by rw [show _ = s.link.state from rfl, hidle] at h; cases h

theorem State.startRecord_untrusted (hidle : s.link.state = .idle) (htr : s.link.transaction = none)
    (hq : s.link.queue = .queued slot .record false :: rest) (hc : (s.cart slot).trusted = false) :
    s.startRecord (.queued slot .record false) = { s with link := { s.link with queue := rest, frame := [] } } := by
  unfold State.startRecord
  refine (if_neg fun h => Bool.false_ne_true (hc.symm.trans h)).trans ?_
  rw [State.endProcedure_alone rfl (by exact fun h => by rw [State.putHead, hidle] at h; cases h)]
  dsimp only [State.putHead]
  rw [hq, List.tail_cons, ← hidle, ← htr]
  rfl

/-! ### The frame goes out (R133, R134) -/

theorem answers_attemptSend (hup : t.up = true) (hstate : t.link.state = .settling) (htr : t.link.transaction = some tr) :
    Answers .attemptSend t { t.quiet with link := { t.link with state := .request, frame := tr.frame } } := by
  have hanswer := (answers_iff (c := .attemptSend) (s := t) nofun).mpr rfl
  rw [show Instr.attemptSend.env = .calm from rfl, show effectOf .attemptSend (t.begin .calm) =
    { t.begin .calm with link := { t.link with state := .request, frame := tr.frame } } from ?_] at hanswer
  · exact hanswer
  · dsimp only [effectOf]
    rw [show (t.begin .calm).link = t.link from rfl, hstate, htr]
    dsimp only []
    rw [← htr]
    exact if_pos hup

theorem answers_requestFrameDone (hup : u.up = true) (hstate : u.link.state = .request) :
    Answers .requestFrameDone u { u.quiet with link := { u.link with state := .response, frame := [] } } := by
  have hanswer := (answers_iff (c := .requestFrameDone) (s := u) nofun).mpr rfl
  rw [show Instr.requestFrameDone.env = .calm from rfl, show effectOf .requestFrameDone (u.begin .calm) =
    { u.begin .calm with link := { u.link with state := .response, frame := [] } } from if_pos ⟨hup, hstate⟩] at hanswer
  exact hanswer

theorem countBytes_length (n : Nat) : (countBytes n).length = 4 := by rw [countBytes, List.length_map, List.length_range]

/-- R142: a start of the link in RUNNING or WITHDRAWN, after which nobody waits. -/
theorem answers_started (hup : s.up = true) (hop : s.dev.op = .running ∨ s.dev.op = .withdrawn)
    (hstart : (s.begin env).startProcedure = v) (hwait : v.checkWait = none) (hprint : v.print.state ≠ .waiting) :
    Answers (.procedureStart env) s v.finish := by
  have hruns : (s.begin env).linkRuns = true := by
    rw [State.linkRuns, show (s.begin env).dev.op = s.dev.op from rfl]
    rcases hop with h | h <;> rw [h] <;> rfl
  have heffect : (if (s.begin env).linkRuns then (s.begin env).startProcedure else s.begin env) = v := by rw [if_pos hruns, hstart]
  have hanswer := answers_procedureStart env s
  rw [State.linkEffect_alone (b := s.begin env) (f := fun b => if b.linkRuns then b.startProcedure else b) hup (by rw [heffect]; exact hwait)
    (by rw [heffect]; exact hprint), heffect] at hanswer
  exact hanswer

/-! ### The response to IDENTIFY (R119) -/

/-- R139: an attempt answered without a fault ends its transaction. -/
theorem State.responseEnds_answered (hstate : b.link.state = .response) (htr : b.link.transaction = some tr) (hd : tr.discarded = false)
    {length : Byte} {payload : List Byte} (hslot : slot = tr.slot) (h5 : slot ≤ 5)
    (hseq : tr.sequence < 16) (hl : payload.length = length.toNat) (h32 : payload.length ≤ 32)
    (hlen : payload.length = tr.command.responseLength) :
    b.responseEnds (attemptOf ([BitVec.ofNat 8 slot, 0, BitVec.ofNat 8 tr.sequence, length] ++ payload ++
      [crc8 ([BitVec.ofNat 8 slot, 0, BitVec.ofNat 8 tr.sequence, length] ++ payload)])) =
        b.transactionEnds tr.sequence (some payload) := by
  rw [State.responseEnds_of hstate htr (attemptOf_answered hslot h5 hseq hl h32 hlen), State.attemptEnds_answered hd]

/-- R119: IDENTIFY is answered: a kind other than the slot's, or PROVE. -/
theorem State.transactionEnds_identified (hq : s.link.queue = p :: rest) (hr : p.running = true) (hk : p.kind = .check)
    (hp : p.phase = some .identify) (sequence : Nat) (payload : List Byte) :
    s.transactionEnds sequence (some payload) =
      if (Identity.ofPayload payload).kind = p.slot then s.checkProve p (Identity.ofPayload payload)
      else s.checkWrongKind p (Identity.ofPayload payload) := by
  rw [State.transactionEnds, State.runningProcedure_head hq hr]
  dsimp only []
  rw [hk, hp]

theorem State.checkProve_eq (hq : s.link.queue = p :: rest) (x : Identity) :
    s.checkProve p x =
      { s with
        link := { s.link with
          state := .settling
          queue := { p with identity := some x, phase := some .prove } :: rest
          sequence := putAt s.link.sequence (p.slot - 1) ((entryAt s.link.sequence (p.slot - 1) 0 + 1) % 16)
          transaction := some
            { slot := p.slot, command := .prove, sequence := (entryAt s.link.sequence (p.slot - 1) 0 + 1) % 16
              payload := bytes16 (p.nonce.getD 0), retries := 0, discarded := false }
          frame := [] } } := by
  unfold State.checkProve State.putHead
  rw [hq]
  rfl

/-- R119: the slot's record after a chip of another kind has answered. -/
def Cartridge.wrongKind (c : Cartridge) (x : Identity) : Cartridge :=
  { c with auth := .rejected, reason := some .wrongKind, id := some x.id, kind := some x.kind, values := none }

theorem State.checkWrongKind_alone (hq : s.link.queue = p :: rest) (hw : p.waiter = false) (hstate : s.link.state ≠ .stuck) (x : Identity) :
    s.checkWrongKind p x =
      { s with
        carts := putAt s.carts (p.slot - 1) ((s.cart p.slot).wrongKind x)
        link := { s.link with state := .idle, queue := rest, transaction := none, frame := [] }
        notice :=
          if (s.cart p.slot).noticed ((s.cart p.slot).wrongKind x) = true then s.notice ||| Cause.supply.mask else s.notice } := by
  have hchanged := s.changeCart_eq p.slot ((s.cart p.slot).wrongKind x)
  have hlink : (s.changeCart p.slot ((s.cart p.slot).wrongKind x)).link = s.link := by rw [hchanged]
  have hend : s.checkWrongKind p x = (s.changeCart p.slot ((s.cart p.slot).wrongKind x)).endProcedure p := rfl
  rw [hend, State.endProcedure_alone hw (by rw [hlink]; exact hstate)]
  rw [hlink, hq, hchanged]
  rfl

/-- The records of a table of five with one of them changed. -/
theorem State.cart_put {carts : Vector Cartridge 5} {x : Cartridge} (hc : t.carts = putAt carts (n - 1) x) (hn : 1 ≤ n ∧ n ≤ 5) :
    t.cart n = x ∧ ∀ m, m ≠ n → 1 ≤ m → t.cart m = entryAt carts (m - 1) .reset := by
  have hcart : ∀ m, t.cart m = if n - 1 = m - 1 ∧ n - 1 < 5 then x else entryAt carts (m - 1) .reset := fun m => by
    rw [State.cart, hc]
    exact entryAt_putAt ..
  refine ⟨(hcart n).trans (if_pos ⟨rfl, by omega⟩), fun m hne h1 => (hcart m).trans (if_neg fun h => hne (by omega))⟩

/-- A command of the link in RESPONSE after which nobody waits. -/
theorem answers_responded {bytes : List Byte} (hup : s.up = true) (heffect : (s.begin env).responseEnds (attemptOf bytes) = v)
    (hwait : v.checkWait = none) (hprint : v.print.state ≠ .waiting) : Answers (.responseFrame env bytes) s v.finish := by
  have hanswer := answers_responseFrame env bytes s
  rw [State.linkEffect_alone (b := s.begin env) (f := fun b => b.responseEnds (attemptOf bytes)) hup (by rw [heffect]; exact hwait)
    (by rw [heffect]; exact hprint), heffect] at hanswer
  exact hanswer

end Sys2Proof.Machine

namespace Sys2Proof.Proofs

open Sys2Proof.Machine

/-- Settles O46: what a CHECK and a RECORD begin with, the frame that goes out, and the listening after it. -/
theorem checkStartsAndSends : Obligations.CheckStartsAndSends := by
  refine ⟨fun env s slot waiter rest hup hop _ _ hidle htr hq hrest hwait hprint hc => ?_,
    fun env s slot rest hup hop _ _ hidle htr hq hwait hprint => ?_⟩
  · intro b sequence sent head
    have hstart : b.startProcedure = b.startCheck (.queued slot .check waiter) :=
      State.startProcedure_idle (s := b) hidle htr hq rfl
    have hchecked := State.startCheck_unchecked (s := b) hidle hq hrest hc
    refine ⟨_, _, answers_started hup hop (hstart.trans hchecked) hwait hprint, answers_attemptSend hup rfl rfl, rfl, rfl, ?_⟩
    exact answers_requestFrameDone hup rfl
  · intro b c
    refine ⟨fun v htrusted hv => ?_, fun hnot hnot' => ?_⟩
    · intro sequence payload head
      have hstart : b.startProcedure = b.startRecord (.queued slot .record false) :=
        State.startProcedure_idle (s := b) hidle htr hq rfl
      have hrecord := State.startRecord_trusted (s := b) hidle hq (by simpa [Cartridge.trusted] using htrusted) hv
      have hlength : payload.length = 8 := by rw [List.length_append, countBytes_length, countBytes_length]
      have hframe : Transaction.frame { slot, command := .record, sequence, payload, retries := 0, discarded := false } =
          head ++ [crc8 head] := by
        unfold Transaction.frame
        rw [hlength]
        rfl
      refine ⟨_, answers_started hup hop (hstart.trans hrecord) hwait hprint, rfl, ?_⟩
      rw [← hframe]
      exact answers_attemptSend hup rfl rfl
    · have hstart : b.startProcedure = b.startRecord (.queued slot .record false) :=
        State.startProcedure_idle (s := b) hidle htr hq rfl
      have huntrusted : (b.cart slot).trusted = false := by
        rw [Cartridge.trusted, decide_eq_false hnot, decide_eq_false hnot']
        rfl
      exact answers_started hup hop (hstart.trans (State.startRecord_untrusted (s := b) hidle htr hq huntrusted)) hwait hprint

/-- Settles O47: the response to IDENTIFY sends PROVE, or rejects a cartridge of another kind. -/
theorem identifyResponse : Obligations.IdentifyResponse := by
  intro env s p rest tr payload hup hstate htr hd hcommand hq hr hk hp hw hslot h1 h5 hseq hlen hwait hprint b x head frame n
  have hends : b.responseEnds (attemptOf frame) =
      if x.kind = p.slot then b.checkProve p x else b.checkWrongKind p x :=
    (State.responseEnds_answered (b := b) (length := 21) hstate htr hd hslot h5 hseq hlen (by omega) (by rw [hcommand]; exact hlen)).trans
      (State.transactionEnds_identified (s := b) hq hr hk hp _ _)
  split
  · rename_i hkind
    rw [if_pos hkind, State.checkProve_eq (s := b) hq] at hends
    exact answers_responded hup hends hwait hprint
  · rename_i hkind
    rw [if_neg hkind, State.checkWrongKind_alone (s := b) hq hw (by rw [show b.link = s.link from rfl, hstate]; exact nofun)] at hends
    have hcart := State.cart_put (t := { b with carts := putAt b.carts (p.slot - 1) ((b.cart p.slot).wrongKind x) }) rfl ⟨h1, h5⟩
    exact ⟨_, answers_responded hup hends hwait hprint, rfl, hcart.1, rfl, hcart.2⟩

end Sys2Proof.Proofs
end

