-- ==== Sys2Proof/Proofs/Attempts.lean ====
section
/-! Failing attempts (R139, R140), the stuck line (R144), and what the part relies on a chip for (R138): O49. -/

namespace Sys2Proof.Machine

variable {s u v b t : State} {env : Env} {p : Procedure} {rest : List Procedure} {tr : Transaction} {n m slot : Nat} {c : Instr}

/-! ### An attempt that fails -/

theorem answers_quietWaitTimeout (env : Env) (s : State) : Answers (.quietWaitTimeout env) s
    ((s.begin env).linkEffect fun b =>
      match b.link.state, b.link.transaction with
      | .settling, some t => b.attemptEnds t .fails
      | _, _ => b).finish :=
  answers_linkEffect (c := .quietWaitTimeout env) rfl (fun _ => rfl) nofun

/-- R139: a complete frame whose check byte does not match. -/
theorem attemptOf_badCheck {bytes : List Byte} (hl : bytes.length = 5) (hn : bytes.getD 3 0 = 0)
    (hc : crc8 (bytes.take 4) ≠ bytes.getD 4 0) (tr : Transaction) : attemptOf bytes tr = some .fails := by
  unfold attemptOf takeFrame
  rw [hl, hn]
  simp only [show (0 : Byte).toNat = 0 from rfl, Nat.zero_add]
  rw [decide_eq_false hc]
  rfl

/-- R133, R139: the three ways an attempt fails. -/
inductive AttemptFails (env : Env) (s : State) : Instr → Prop where
  | deadline (h : s.link.state = .response) : AttemptFails env s (.responseDeadline env)
  | badFrame (bytes : List Byte) (h : s.link.state = .response) (hl : bytes.length = 5) (hn : bytes.getD 3 0 = 0)
      (hc : crc8 (bytes.take 4) ≠ bytes.getD 4 0) : AttemptFails env s (.responseFrame env bytes)
  | neverQuiet (h : s.link.state = .settling) : AttemptFails env s (.quietWaitTimeout env)

theorem AttemptFails.not_stuck (h : AttemptFails env s c) : s.link.state ≠ .stuck := by
  cases h with
  | deadline h => rw [h]; exact nofun
  | badFrame bytes h => rw [h]; exact nofun
  | neverQuiet h => rw [h]; exact nofun

/-- R140: what a failing attempt leaves, where nobody waits. -/
theorem AttemptFails.answers (h : AttemptFails env s c) (hup : s.up = true) (htr : s.link.transaction = some tr)
    (hends : (s.begin env).attemptEnds tr .fails = v) (hwait : v.checkWait = none) (hprint : v.print.state ≠ .waiting) :
    Answers c s v.finish := by
  have halone : ∀ f : State → State, f (s.begin env) = v → (s.begin env).linkEffect f = v := fun f hf => by
    rw [State.linkEffect_alone (f := f) (show (s.begin env).up = true from hup) (by rw [hf]; exact hwait) (by rw [hf]; exact hprint), hf]
  cases h with
  | deadline hstate =>
    have hanswer := answers_responseDeadline env s
    rw [halone _ ((State.responseEnds_of (b := s.begin env) hstate htr rfl).trans hends)] at hanswer
    exact hanswer
  | badFrame bytes hstate hl hn hc =>
    have hanswer := answers_responseFrame env bytes s
    rw [halone _ ((State.responseEnds_of (b := s.begin env) hstate htr (attemptOf_badCheck hl hn hc tr)).trans hends)] at hanswer
    exact hanswer
  | neverQuiet hstate =>
    have hanswer := answers_quietWaitTimeout env s
    rw [halone _ ?_] at hanswer
    · exact hanswer
    · rw [show (s.begin env).link = s.link from rfl, hstate, htr]
      exact hends

/-! ### The stuck line (R144) -/

theorem State.lineStuck_idle (hidle : s.link.state = .idle) (htr : s.link.transaction = none) :
    s.lineStuck =
      { s with
        faults := s.faults.capture { kind := .linkLine, lane := none, address := none, time := s.faultTime, detail := s.queueHeadSlot }
        notice := s.notice ||| Cause.fault.mask
        link := { s.link with state := .stuck, transaction := none, frame := [] } } := by
  unfold State.lineStuck
  rw [if_pos (.inl hidle), htr]
  rfl

theorem State.faultTime_up (h : s.up = true) : s.faultTime = s.dev.clock := by
  refine if_neg fun hop => ?_
  rw [State.up, hop] at h
  simp at h

/-! ### Chips (R136, R138) -/

theorem ofCode_code (x : LinkCommand) : LinkCommand.ofCode x.code = some x := by
  cases x with
  | identify | prove | record => rfl

theorem LinkCommand.code_lt (x : LinkCommand) : x.code < 4 := by
  cases x with
  | identify | prove | record => decide

/-- R138: a request acted on is answered alike when it is received again: from what is stored, or, of IDENTIFY, from what does not
change. -/
theorem Chip.answer_twice (c : Chip) (x : LinkCommand) (sequence : Nat) (payload : List Byte) :
    (c.answer x sequence payload).1.answer x sequence payload = c.answer x sequence payload := by
  unfold Chip.answer
  cases hs : c.stored x sequence with
  | some a =>
    dsimp only []
    rw [hs]
  | none =>
    dsimp only []
    cases x with
    | identify => rfl
    | prove | record => simp [Chip.stored]

theorem Chip.answer_slot (c : Chip) (x : LinkCommand) (sequence : Nat) (payload : List Byte) :
    (c.answer x sequence payload).1.slot = c.slot := by
  unfold Chip.answer
  split
  · rfl
  · rfl

/-- What a chip does with a frame that holds a request for it. -/
theorem Chip.receive_request {bytes payload : List Byte} {x : LinkCommand} {sequence code : Nat} (c : Chip)
    (hframe : takeFrame bytes = .frame c.slot code sequence payload true) (hx : LinkCommand.ofCode code = some x) :
    c.receive bytes = ((c.answer x sequence payload).1, some (c.response 0 sequence (c.answer x sequence payload).2)) := by
  unfold Chip.receive
  rw [hframe]
  dsimp only []
  rw [if_neg (not_not.mpr rfl), if_neg (by decide), hx]

theorem Chip.receive_twice (c : Chip) (bytes : List Byte) : (c.receive bytes).1.receive bytes = c.receive bytes := by
  have hsame : (c.receive bytes).1 = c → (c.receive bytes).1.receive bytes = c.receive bytes := fun h => by rw [h]
  cases hframe : takeFrame bytes with
  | incomplete | malformed => exact hsame (by rw [Chip.receive, hframe])
  | frame address code sequence payload ok =>
    by_cases haddress : address = c.slot
    · subst haddress
      cases hok : ok with
      | false => exact hsame (by rw [Chip.receive, hframe, hok]; simp)
      | true =>
        subst hok
        cases hx : LinkCommand.ofCode code with
        | none => exact hsame (by rw [Chip.receive, hframe]; simp [hx])
        | some x =>
          have hslot := c.answer_slot x sequence payload
          rw [c.receive_request hframe hx]
          dsimp only []
          rw [(c.answer x sequence payload).1.receive_request (by rw [hslot]; exact hframe) hx, c.answer_twice]
          unfold Chip.response
          rw [hslot]
    · exact hsame (by rw [Chip.receive, hframe]; simp [haddress])

theorem bytes16_length (v : BitVec 128) : (bytes16 v).length = 16 := by rw [bytes16, List.length_map, List.length_range]

theorem idBytes_length (v : BitVec 64) : (idBytes v).length = 8 := by rw [idBytes, List.length_map, List.length_range]

/-- Figure 33: the length of what a chip answers. -/
theorem Chip.answer_length (c : Chip) (x : LinkCommand) (sequence : Nat) (payload : List Byte)
    (hlast : ∀ a, c.last = some a → a.payload.length = a.command.responseLength) :
    (c.answer x sequence payload).2.length = x.responseLength := by
  unfold Chip.answer
  cases hs : c.stored x sequence with
  | some a =>
    unfold Chip.stored at hs
    cases hl : c.last with
    | none => rw [hl] at hs; cases hs
    | some e =>
      rw [hl] at hs
      dsimp only [] at hs ⊢
      split at hs
      · rename_i he
        cases hs
        rw [hlast e hl, he.2.2]
      · cases hs
  | none =>
    cases x with
    | identify =>
      simp [Chip.act, Identity.payload, idBytes_length, countBytes_length, LinkCommand.responseLength]
    | prove => exact bytes16_length _
    | record => simp [Chip.act, countBytes_length, LinkCommand.responseLength]

theorem LinkCommand.responseLength_le (x : LinkCommand) : x.responseLength ≤ 32 := by
  cases x with
  | identify | prove | record => decide

theorem toNat_ofNat_byte (h : n < 256) : (BitVec.ofNat 8 n).toNat = n := by
  rw [BitVec.toNat_ofNat]
  exact Nat.mod_eq_of_lt h

/-- R134, R138: a chip of the slot answers the request of a transaction, and the answer is what its attempt takes. -/
theorem Chip.answers_transaction (c : Chip) (hslot : c.slot = tr.slot) (h5 : tr.slot ≤ 5) (hseq : tr.sequence < 16)
    (hl : tr.payload.length ≤ 16) (hlast : ∀ a, c.last = some a → a.payload.length = a.command.responseLength) :
    ∃ response, (c.receive tr.frame).2 = some response ∧
      attemptOf response tr = some (.succeeds (c.answer tr.command tr.sequence tr.payload).2) := by
  have hcode := tr.command.code_lt
  have hframe : takeFrame tr.frame = .frame c.slot tr.command.code tr.sequence tr.payload true := by
    have htaken := takeFrame_framed (BitVec.ofNat 8 tr.slot) (BitVec.ofNat 8 tr.command.code) (BitVec.ofNat 8 tr.sequence)
      (BitVec.ofNat 8 tr.payload.length) (payload := tr.payload) (toNat_ofNat_byte (by omega)).symm (by omega)
    rw [toNat_ofNat_byte (n := tr.slot) (by omega), toNat_ofNat_byte (n := tr.command.code) (by omega),
      toNat_ofNat_byte (n := tr.sequence) (by omega)] at htaken
    rw [hslot]
    exact htaken
  have hlength := c.answer_length tr.command tr.sequence tr.payload hlast
  have h32 := tr.command.responseLength_le
  refine ⟨_, congrArg Prod.snd (c.receive_request hframe (ofCode_code _)), ?_⟩
  exact attemptOf_answered hslot (by omega) hseq (toNat_ofNat_byte (by omega)).symm (by omega) hlength

/-- R138: what is stored of one transaction does not answer the next. -/
theorem Chip.stored_next {x : Answered} (c : Chip) (command : LinkCommand) (hl : c.last = some x) :
    c.stored command ((x.sequence + 1) % 16) = none := by
  unfold Chip.stored
  rw [hl]
  exact if_neg fun h => by omega

end Sys2Proof.Machine

namespace Sys2Proof.Proofs

open Sys2Proof.Machine

/-- Settles O49: retries and the end of the last attempt, the stuck line, and the chips' answers. -/
theorem attemptsFailAndLineSticks : Obligations.AttemptsFailAndLineSticks := by
  refine ⟨fun env s p rest tr c hup hfails htr hd hwait hprint => ?_, fun env s hup hwait hprint => ?_, Chip.receive_twice,
    fun c tr hslot _ h5 hseq hl hlast => c.answers_transaction hslot h5 hseq hl hlast,
    fun c _ command hl _ => c.stored_next command hl⟩
  · intro b limit
    have hfails : AttemptFails env s c := by
      rcases hfails with ⟨hstate, rfl | ⟨bytes, hl, hn, hcheck, rfl⟩⟩ | ⟨hstate, rfl⟩
      · exact .deadline hstate
      · exact .badFrame bytes hstate hl hn hcheck
      · exact .neverQuiet hstate
    refine ⟨fun hretries => hfails.answers hup htr (State.attemptEnds_retries hd hretries) hwait hprint,
      fun hlast hq hr hk hp hw h1 h5 => ?_⟩
    have hends : b.attemptEnds tr .fails = _ := ((State.attemptEnds_last (b := b) hd hlast).trans
      (State.transactionEnds_absent (s := b) hq hr hk hp tr.sequence)).trans
        (State.checkAbsent_alone (s := b) hq hw hfails.not_stuck)
    have hcart := State.cart_put (t := { b with carts := putAt b.carts (p.slot - 1) (b.cart p.slot).gone }) rfl ⟨h1, h5⟩
    exact ⟨_, hfails.answers hup htr hends hwait hprint, rfl, hcart.1, rfl⟩
  · intro b
    refine ⟨fun hidle htr => ?_, fun hstuck => ?_⟩
    · have hline := State.lineStuck_idle (s := b) hidle htr
      rw [State.faultTime_up (show b.up = true from hup)] at hline
      have hanswer := answers_linkEffect (c := .linkLine env) (f := State.lineStuck) (s := s) rfl (fun _ => rfl) nofun
      rw [show Instr.env (.linkLine env) = env from rfl] at hanswer
      rw [State.linkEffect_alone (b := s.begin env) (f := State.lineStuck) hup
        (by rw [hline]; exact hwait) (by rw [hline]; exact hprint), hline] at hanswer
      exact hanswer
    · have hanswer := (answers_iff (c := .linkLineRecovered) (s := s) nofun).mpr rfl
      rw [show Instr.linkLineRecovered.env = .calm from rfl, show effectOf .linkLineRecovered (s.begin .calm) =
        { s.begin .calm with link := { s.link with state := .idle } } from if_pos ⟨hup, hstuck⟩] at hanswer
      exact hanswer

end Sys2Proof.Proofs
end

