-- ==== Sys2Proof/Proofs/Responses.lean ====
section
/-! The responses to PROVE and RECORD (R120 to R122, R126, R127): O48. -/

namespace Sys2Proof.Machine

variable {s u v b t : State} {env : Env} {p : Procedure} {rest : List Procedure} {tr : Transaction} {n m slot : Nat} {c r : Cartridge}
  {x : Identity} {matched : Bool} {id : BitVec 64} {w : CartridgeValues}

/-! ### A record, its list write and the RECORD it wants -/

theorem putAt_twice {α : Type} {k : Nat} (l : Vector α k) (i : Nat) (x y : α) : putAt (putAt l i x) i y = putAt l i y := by
  apply Vector.ext
  intro j hj
  by_cases h : i = j <;> simp [putAt, h]

theorem State.cart_of_carts {carts : Vector Cartridge 5} (hc : t.carts = putAt carts (n - 1) r) (hn : 1 ≤ n ∧ n ≤ 5) : t.cart n = r := by
  rw [State.cart, hc]
  exact entryAt_putAt_same _ _ _ _ (by omega)

/-- R122: the list with a record's entry in front. -/
def State.knownWith (s : State) (c : Cartridge) (id : BitVec 64) (w : CartridgeValues) : List KnownCartridge :=
  frontEntry { id, kind := c.kind.getD 0, remaining := w.remaining, useCount := w.useCount } s.stored.known

theorem State.listWrite_eq (hid : (s.cart n).id = some id) (hv : (s.cart n).values = some w) :
    s.listWrite n =
      { s with
        stored := { s.stored with known := s.knownWith (s.cart n) id w, knownOk := true }
        afterWrites := (s.listWrite n).afterWrites } := by
  unfold State.listWrite
  dsimp only []
  rw [hid, hv]
  rfl

/-- R126: a trusted record's RECORD, with none of its slot running. -/
theorem State.wantRecord_requests (ht : (s.cart n).trusted = true) (hq : ∀ q ∈ s.link.queue, q.running = true → q.slot ≠ n) :
    s.wantRecord n = s.request n .record false := by
  have hnone : s.link.queue.any (fun q => q.slot = n && q.kind = .record && q.running) = false := by
    rw [List.any_eq_false]
    intro q hmem
    cases hr : q.running with
    | false => simp
    | true => simp [hq q hmem hr]
  unfold State.wantRecord
  rw [if_pos ht, hnone]
  rfl

/-- R126: a trusted record's RECORD while one runs is owed. -/
theorem State.wantRecord_owed (ht : (s.cart n).trusted = true) (hq : s.link.queue = p :: rest) (hr : p.running = true)
    (hk : p.kind = .record) (hp : p.slot = n) : s.wantRecord n = s.putCart n { s.cart n with recordOwed := true } := by
  have hrun : s.link.queue.any (fun q => q.slot = n && q.kind = .record && q.running) = true := by
    rw [hq, List.any_cons]
    simp [hr, hk, hp]
  unfold State.wantRecord
  rw [if_pos ht, hrun]
  rfl

theorem State.wantRecord_untrusted (ht : (s.cart n).trusted = false) : s.wantRecord n = s :=
  if_neg (by rw [ht]; exact Bool.false_ne_true)

/-! ### PROVE answered (R120, R121) -/

/-- R120: what the proof makes of a record. -/
def State.provedAuth (s : State) (matched : Bool) : AuthState :=
  if matched then .verified else if s.stored.settings.supply.policy = .lenient then .permitted else .rejected

/-- R120, R121: the record a proof leaves. -/
def State.provedRecord (s : State) (x : Identity) (matched : Bool) : Cartridge :=
  { auth := s.provedAuth matched
    reason := if s.provedAuth matched = .rejected then some .badProof else none
    id := some x.id, kind := some x.kind
    values := some (adoptedValues s.stored.settings.supply.lowPermille x (s.knownEntry x.id))
    unproven := !matched, recordOwed := false }

/-- R121: the values adopted are below the chip's. -/
def State.adoptsBelow (s : State) (x : Identity) : Prop :=
  (adoptedValues s.stored.settings.supply.lowPermille x (s.knownEntry x.id)).remaining < x.remaining ∨
    x.useCount < (adoptedValues s.stored.settings.supply.lowPermille x (s.knownEntry x.id)).useCount

theorem State.checkProved_rejected (ha : s.provedAuth matched = .rejected) :
    s.checkProved p x matched = (s.changeCart p.slot (s.provedRecord x matched)).endProcedure p := if_pos ha

/-- R120, R122: a trusted record goes to the front of the list, and its CHECK ends. -/
def State.provedListed (s : State) (p : Procedure) (x : Identity) (matched : Bool) : State :=
  ((s.changeCart p.slot (s.provedRecord x matched)).listWrite p.slot).endProcedure p

theorem State.checkProved_trusted (ha : s.provedAuth matched ≠ .rejected) :
    (s.adoptsBelow x → s.checkProved p x matched = (s.provedListed p x matched).wantRecord p.slot) ∧
      (¬s.adoptsBelow x → s.checkProved p x matched = s.provedListed p x matched) :=
  ⟨fun hb => (if_neg ha).trans (if_pos hb), fun hb => (if_neg ha).trans (if_neg hb)⟩

/-- The record `c` stands at slot n, with SUPPLY where its change is noticed. -/
theorem State.changeCart_listed (hid : r.id = some id) (hv : r.values = some w) (hn : 1 ≤ n ∧ n ≤ 5) :
    (s.changeCart n r).listWrite n =
      { s.changeCart n r with
        stored := { s.stored with known := s.knownWith r id w, knownOk := true }
        afterWrites := ((s.changeCart n r).listWrite n).afterWrites } := by
  have hchanged := s.changeCart_eq n r
  have hcart : (s.changeCart n r).cart n = r := State.cart_of_carts (by rw [hchanged]) hn
  have hstored : (s.changeCart n r).stored = s.stored := by rw [hchanged]
  have hwrite := State.listWrite_eq (s := s.changeCart n r) (n := n) (id := id) (w := w) (by rw [hcart]; exact hid) (by rw [hcart]; exact hv)
  rw [State.knownWith, hcart, hstored] at hwrite
  exact hwrite

theorem State.provedListed_eq (hq : s.link.queue = p :: rest) (hw : p.waiter = false) (hstate : s.link.state ≠ .stuck)
    (hn : 1 ≤ p.slot ∧ p.slot ≤ 5) :
    s.provedListed p x matched =
      { s with
        carts := putAt s.carts (p.slot - 1) (s.provedRecord x matched)
        link := { s.link with state := .idle, queue := rest, transaction := none, frame := [] }
        notice := (s.changeCart p.slot (s.provedRecord x matched)).notice
        stored := { s.stored with
          known := s.knownWith (s.provedRecord x matched) x.id
            (adoptedValues s.stored.settings.supply.lowPermille x (s.knownEntry x.id))
          knownOk := true }
        afterWrites := ((s.changeCart p.slot (s.provedRecord x matched)).listWrite p.slot).afterWrites } := by
  have hchanged := s.changeCart_eq p.slot (s.provedRecord x matched)
  have hlink : (s.changeCart p.slot (s.provedRecord x matched)).link = s.link := by rw [hchanged]
  have hlisted := State.changeCart_listed (s := s) (n := p.slot) (r := s.provedRecord x matched) rfl rfl hn
  have hlink' : ((s.changeCart p.slot (s.provedRecord x matched)).listWrite p.slot).link = s.link := by rw [hlisted]; exact hlink
  unfold State.provedListed
  rw [State.endProcedure_alone hw (by rw [hlink']; exact hstate), hlink', hq]
  rw [hlisted]
  generalize ((s.changeCart p.slot (s.provedRecord x matched)).listWrite p.slot).afterWrites = writes
  rw [hchanged]
  rfl

/-- R120: a proof that does not match under the strict policy. -/
theorem State.checkProved_strict (hq : s.link.queue = p :: rest) (hw : p.waiter = false) (hstate : s.link.state ≠ .stuck)
    (ha : s.provedAuth matched = .rejected) :
    s.checkProved p x matched =
      { s with
        carts := putAt s.carts (p.slot - 1) (s.provedRecord x matched)
        link := { s.link with state := .idle, queue := rest, transaction := none, frame := [] }
        notice := (s.changeCart p.slot (s.provedRecord x matched)).notice } := by
  have hchanged := s.changeCart_eq p.slot (s.provedRecord x matched)
  have hlink : (s.changeCart p.slot (s.provedRecord x matched)).link = s.link := by rw [hchanged]
  rw [State.checkProved_rejected ha, State.endProcedure_alone hw (by rw [hlink]; exact hstate), hlink, hq]
  rw [hchanged]
  rfl

theorem State.provedAuth_trusted (h : s.provedAuth matched ≠ .rejected) : (s.provedRecord x matched).trusted = true := by
  unfold State.provedRecord Cartridge.trusted
  unfold State.provedAuth at h ⊢
  cases matched with
  | true => rfl
  | false =>
    by_cases hp : s.stored.settings.supply.policy = .lenient
    · simp [hp]
    · simp [hp] at h

/-- R126: the queue once a proved record's CHECK has ended: with a RECORD of it where it adopts less than the chip holds. -/
theorem State.provedListed_wants (hq : s.link.queue = p :: rest) (hw : p.waiter = false) (hstate : s.link.state ≠ .stuck)
    (hn : 1 ≤ p.slot ∧ p.slot ≤ 5) (hquiet : ∀ q ∈ rest, q.running = false) (ht : (s.provedRecord x matched).trusted = true) :
    (s.provedListed p x matched).wantRecord p.slot =
      { s with
        carts := putAt s.carts (p.slot - 1) (s.provedRecord x matched)
        link := { s.link with state := .idle, queue := requestIn rest p.slot .record false, transaction := none, frame := [] }
        notice := (s.provedListed p x matched).notice
        stored := (s.provedListed p x matched).stored
        afterWrites := (s.provedListed p x matched).afterWrites } := by
  have heq := State.provedListed_eq (x := x) (matched := matched) hq hw hstate hn
  have hcart : (s.provedListed p x matched).cart p.slot = s.provedRecord x matched := State.cart_of_carts (by rw [heq]) hn
  have hqueue : (s.provedListed p x matched).link.queue = rest := by rw [heq]
  rw [State.wantRecord_requests (by rw [hcart]; exact ht)
    (fun q hmem hr => by rw [hqueue] at hmem; rw [hquiet q hmem] at hr; cases hr), State.request, hqueue]
  generalize (s.provedListed p x matched).notice = notice at heq ⊢
  rw [heq]

/-- R120 to R122, R126: what the answer to PROVE leaves. -/
theorem State.checkProved_eq (hq : s.link.queue = p :: rest) (hw : p.waiter = false) (hstate : s.link.state ≠ .stuck)
    (hn : 1 ≤ p.slot ∧ p.slot ≤ 5) (hquiet : ∀ q ∈ rest, q.running = false) (x : Identity) (matched : Bool) :
    ∃ queue stored notice writes, s.checkProved p x matched =
        { s with
          carts := putAt s.carts (p.slot - 1) (s.provedRecord x matched)
          link := { s.link with state := .idle, queue, transaction := none, frame := [] }
          stored, notice, afterWrites := writes } ∧
      (s.provedAuth matched = .rejected → stored = s.stored ∧ queue = rest) ∧
      (s.provedAuth matched ≠ .rejected →
        stored.known = s.knownWith (s.provedRecord x matched) x.id
          (adoptedValues s.stored.settings.supply.lowPermille x (s.knownEntry x.id)) ∧
        ((∀ q ∈ rest, q.slot ≠ p.slot) →
          (s.adoptsBelow x → queue = rest ++ [.queued p.slot .record false]) ∧ (¬s.adoptsBelow x → queue = rest))) := by
  by_cases ha : s.provedAuth matched = .rejected
  · exact ⟨_, _, _, _, State.checkProved_strict hq hw hstate ha, fun _ => ⟨rfl, rfl⟩, fun h => absurd ha h⟩
  · have heq := State.provedListed_eq (x := x) (matched := matched) hq hw hstate hn
    have hknown : (s.provedListed p x matched).stored.known = s.knownWith (s.provedRecord x matched) x.id
        (adoptedValues s.stored.settings.supply.lowPermille x (s.knownEntry x.id)) := by rw [heq]
    by_cases hb : s.adoptsBelow x
    · have hwants := State.provedListed_wants hq hw hstate hn hquiet (State.provedAuth_trusted (x := x) ha)
      exact ⟨_, _, _, _, ((State.checkProved_trusted ha).1 hb).trans hwants, fun h => absurd h ha,
        fun _ => ⟨hknown, fun hrest => ⟨fun _ => requestIn_new hrest .record false, fun h => absurd hb h⟩⟩⟩
    · exact ⟨_, _, _, _, ((State.checkProved_trusted ha).2 hb).trans heq, fun h => absurd h ha,
        fun _ => ⟨rfl, fun _ => ⟨fun h => absurd h hb, fun _ => rfl⟩⟩⟩

theorem State.transactionEnds_proved (hq : s.link.queue = p :: rest) (hr : p.running = true) (hk : p.kind = .check)
    (hp : p.phase = some .prove) (hx : p.identity = some x) (sequence : Nat) (payload : List Byte) :
    s.transactionEnds sequence (some payload) =
      s.checkProved p x
        (decide (Config.expectedProof (p.nonce.getD 0) x.id x.capacity x.remaining x.useCount sequence =
          BitVec.ofNat 128 (littleEndian payload))) := by
  rw [State.transactionEnds, State.runningProcedure_head hq hr]
  dsimp only []
  rw [hk, hp, hx]

/-! ### RECORD answered, or not (R127) -/

/-- R127: the end of a RECORD: what was owed is requested for a record left trusted. -/
theorem State.recordEnds_eq (hq : s.link.queue = p :: rest) (hw : p.waiter = false) (hstate : s.link.state ≠ .stuck)
    (hn : 1 ≤ p.slot ∧ p.slot ≤ 5) (hrest : ∀ q ∈ rest, q.slot ≠ p.slot) :
    s.recordEnds p =
      { s with
        carts := putAt s.carts (p.slot - 1) { s.cart p.slot with recordOwed := false }
        link := { s.link with
          state := .idle
          queue := rest ++
            if ((s.cart p.slot).trusted && (s.cart p.slot).recordOwed) = true then [.queued p.slot .record false] else []
          transaction := none, frame := [] } } := by
  let ended : State :=
    { s with
      carts := putAt s.carts (p.slot - 1) { s.cart p.slot with recordOwed := false }
      link := { s.link with state := .idle, queue := rest, transaction := none, frame := [] } }
  have hend : (s.putCart p.slot { s.cart p.slot with recordOwed := false }).endProcedure p = ended := by
    rw [State.endProcedure_alone hw (by exact hstate)]
    rw [State.putCart_link, hq]
    rfl
  have hcart : ended.cart p.slot = { s.cart p.slot with recordOwed := false } := State.cart_of_carts (t := ended) rfl hn
  have htrusted : (ended.cart p.slot).trusted = (s.cart p.slot).trusted := by rw [hcart]; rfl
  have hends : s.recordEnds p = if (s.cart p.slot).recordOwed then ended.wantRecord p.slot else ended := by
    unfold State.recordEnds
    dsimp only []
    rw [hend]
  rw [hends]
  cases ho : (s.cart p.slot).recordOwed with
  | false =>
    rw [if_neg Bool.false_ne_true, Bool.and_false, if_neg Bool.false_ne_true, List.append_nil]
  | true =>
    rw [if_pos rfl, Bool.and_true]
    cases ht : (s.cart p.slot).trusted with
    | false =>
      rw [State.wantRecord_untrusted (s := ended) (htrusted.trans ht), if_neg Bool.false_ne_true, List.append_nil]
    | true =>
      rw [State.wantRecord_requests (s := ended) (htrusted.trans ht) (fun q hmem _ => hrest q hmem), if_pos rfl, State.request,
        show ended.link.queue = rest from rfl, requestIn_new hrest]

/-- R126: a record changed while a RECORD of its slot runs; the RECORD it may want is owed. -/
theorem State.changeCart_owes (P : Prop) [Decidable P] (hq : s.link.queue = p :: rest) (hr : p.running = true) (hk : p.kind = .record)
    (hn : 1 ≤ p.slot ∧ p.slot ≤ 5) :
    (if P then (s.changeCart p.slot r).wantRecord p.slot else s.changeCart p.slot r) =
      { s with
        carts := putAt s.carts (p.slot - 1) { r with recordOwed := r.recordOwed || (r.trusted && decide P) }
        notice := (s.changeCart p.slot r).notice } := by
  have hchanged := s.changeCart_eq p.slot r
  have hcart : (s.changeCart p.slot r).cart p.slot = r := State.cart_of_carts (by rw [hchanged]) hn
  have hqueue : (s.changeCart p.slot r).link.queue = p :: rest := by rw [hchanged]; exact hq
  by_cases hP : P
  · rw [if_pos hP, decide_eq_true hP, Bool.and_true]
    cases ht : r.trusted with
    | false =>
      rw [State.wantRecord_untrusted (by rw [hcart]; exact ht), Bool.or_false, hchanged]
    | true =>
      rw [State.wantRecord_owed (by rw [hcart]; exact ht) hqueue hr hk rfl, State.putCart, hcart, Bool.or_true]
      generalize (s.changeCart p.slot r).notice = notice at hchanged ⊢
      rw [hchanged]
      dsimp only []
      rw [putAt_twice]
  · rw [if_neg hP, decide_eq_false hP, Bool.and_false, Bool.or_false, hchanged]

/-- R122: the list after a record's write: a trusted record's entry in front. -/
def State.listedAs (s : State) (c : Cartridge) (id : BitVec 64) (w : CartridgeValues) : List KnownCartridge :=
  if c.trusted then s.knownWith c id w else s.stored.known

theorem State.listWrite_trusted (hc : s.cart n = r) (hid : r.id = some id) (hv : r.values = some w) :
    ∃ ok writes, (if r.trusted then s.listWrite n else s) =
      { s with stored := { s.stored with known := s.listedAs r id w, knownOk := ok }, afterWrites := writes } := by
  unfold State.listedAs
  cases ht : r.trusted with
  | false => exact ⟨s.stored.knownOk, s.afterWrites, rfl⟩
  | true =>
    have hwrite := State.listWrite_eq (s := s) (n := n) (id := id) (w := w) (by rw [hc]; exact hid) (by rw [hc]; exact hv)
    rw [hc] at hwrite
    exact ⟨true, (s.listWrite n).afterWrites, hwrite⟩

/-- R127: what a RECORD's response makes of the values. -/
def CartridgeValues.answered (v : CartridgeValues) (permille remaining useCount : Nat) : CartridgeValues :=
  { v with
    remaining := min v.remaining remaining, level := levelOfValues permille v.capacity (min v.remaining remaining)
    useCount := max v.useCount useCount, sinceWrite := 0 }

theorem Cartridge.noticed_values (c : Cartridge) {v : CartridgeValues} (hv : c.values = some v) (w : CartridgeValues) :
    c.noticed { c with values := some w } = decide (v.level ≠ w.level) := by
  unfold Cartridge.noticed
  rw [hv]
  simp

/-- R127: the response to RECORD. -/
theorem State.recordAnswered_eq {v : CartridgeValues} (hq : s.link.queue = p :: rest) (hr : p.running = true) (hk : p.kind = .record)
    (hw : p.waiter = false) (hstate : s.link.state ≠ .stuck) (hn : 1 ≤ p.slot ∧ p.slot ≤ 5) (hrest : ∀ q ∈ rest, q.slot ≠ p.slot)
    (hid : (s.cart p.slot).id = some id) (hv : (s.cart p.slot).values = some v) (remaining useCount : Nat)
    (hanswered : v.answered s.stored.settings.supply.lowPermille remaining useCount = w) :
    ∃ ok writes, s.recordAnswered p remaining useCount =
      { s with
        carts := putAt s.carts (p.slot - 1) { s.cart p.slot with values := some w, recordOwed := false }
        stored := { s.stored with known := s.listedAs (s.cart p.slot) id w, knownOk := ok }
        link := { s.link with
          state := .idle
          queue := rest ++
            if ((s.cart p.slot).trusted && ((s.cart p.slot).recordOwed || decide (w.level ≠ v.level))) = true then
              [.queued p.slot .record false] else []
          transaction := none, frame := [] }
        notice := if w.level = v.level then s.notice else s.notice ||| Cause.supply.mask
        afterWrites := writes } := by
  let new : Cartridge := { s.cart p.slot with values := some w }
  let kept : Cartridge := { new with recordOwed := new.recordOwed || (new.trusted && decide (w.level ≠ v.level)) }
  let owes : State := { s with carts := putAt s.carts (p.slot - 1) kept, notice := (s.changeCart p.slot new).notice }
  have howes : (if w.level ≠ v.level then (s.changeCart p.slot new).wantRecord p.slot else s.changeCart p.slot new) = owes :=
    State.changeCart_owes (w.level ≠ v.level) hq hr hk hn
  have hcart : owes.cart p.slot = kept := State.cart_of_carts (t := owes) rfl hn
  obtain ⟨ok, writes, hlisted⟩ := State.listWrite_trusted (s := owes) hcart (id := id) (w := w) hid rfl
  have hanswer : s.recordAnswered p remaining useCount =
      State.recordEnds (if (owes.cart p.slot).trusted then owes.listWrite p.slot else owes) p := by
    unfold State.recordAnswered
    rw [hv, ← howes]
    subst hanswered
    rfl
  have hnotice : (s.changeCart p.slot new).notice = if w.level = v.level then s.notice else s.notice ||| Cause.supply.mask := by
    rw [s.changeCart_eq, Cartridge.noticed_values _ hv]
    by_cases hlevel : w.level = v.level
    · simp [hlevel]
    · simp [hlevel, Ne.symm hlevel]
  rw [hcart, hlisted] at hanswer
  refine ⟨ok, writes, ?_⟩
  have hkept : ∀ st aw, State.cart { owes with stored := st, afterWrites := aw } p.slot = kept := fun _ _ => hcart
  have howed : (kept.trusted && kept.recordOwed) =
      ((s.cart p.slot).trusted && ((s.cart p.slot).recordOwed || decide (w.level ≠ v.level))) := by
    refine (show _ = ((s.cart p.slot).trusted && ((s.cart p.slot).recordOwed || ((s.cart p.slot).trusted && decide (w.level ≠ v.level))))
      from rfl).trans ?_
    cases (s.cart p.slot).trusted <;> rfl
  rw [hanswer, State.recordEnds_eq (by exact hq) hw (by exact hstate) hn hrest, hkept, howed]
  dsimp only [owes]
  rw [putAt_twice, hnotice]
  rfl

/-- R127: the record of a cartridge that stopped answering. -/
def Cartridge.silenced (c : Cartridge) : Cartridge := { c with auth := .silent, reason := none, values := none }

/-- R127: no response to the RECORD of a trusted record. -/
theorem State.recordUnanswered_trusted {v : CartridgeValues} (hq : s.link.queue = p :: rest) (hw : p.waiter = false)
    (hstate : s.link.state ≠ .stuck) (hn : 1 ≤ p.slot ∧ p.slot ≤ 5) (hrest : ∀ q ∈ rest, q.slot ≠ p.slot)
    (hid : (s.cart p.slot).id = some id) (hv : (s.cart p.slot).values = some v) (ht : (s.cart p.slot).trusted = true) :
    ∃ writes notice, s.recordUnanswered p =
      { s with
        carts := putAt s.carts (p.slot - 1) { (s.cart p.slot).silenced with recordOwed := false }
        stored := { s.stored with known := s.knownWith (s.cart p.slot) id v, knownOk := true }
        link := { s.link with state := .idle, queue := rest, transaction := none, frame := [] }
        notice, afterWrites := writes } := by
  have hwrite := State.listWrite_eq hid hv
  have hcart : (s.listWrite p.slot).cart p.slot = s.cart p.slot := by rw [hwrite]; rfl
  have hchanged := (s.listWrite p.slot).changeCart_eq p.slot (s.cart p.slot).silenced
  generalize hu : (s.listWrite p.slot).changeCart p.slot (s.cart p.slot).silenced = u at hchanged
  have hsilent : u.cart p.slot = (s.cart p.slot).silenced := State.cart_of_carts (by rw [hchanged]) hn
  have hlink : u.link = s.link := by rw [hchanged, hwrite]
  have hanswer : s.recordUnanswered p = u.recordEnds p := by
    unfold State.recordUnanswered
    dsimp only []
    rw [if_pos ht, hcart, ← hu]
    rfl
  refine ⟨u.afterWrites, u.notice, ?_⟩
  rw [hanswer, State.recordEnds_eq (by rw [hlink]; exact hq) hw (by rw [hlink]; exact hstate) hn hrest, hsilent, hlink,
    if_neg (by exact Bool.false_ne_true), List.append_nil]
  generalize u.afterWrites = writes
  generalize u.notice = notice
  rw [hchanged, hwrite]
  dsimp only []
  rw [putAt_twice]

/-- R127: no response to the RECORD of a record that is not trusted. -/
theorem State.recordUnanswered_untrusted (hq : s.link.queue = p :: rest) (hw : p.waiter = false)
    (hstate : s.link.state ≠ .stuck) (hn : 1 ≤ p.slot ∧ p.slot ≤ 5) (hrest : ∀ q ∈ rest, q.slot ≠ p.slot)
    (ht : (s.cart p.slot).trusted = false) :
    s.recordUnanswered p =
      { s with
        carts := putAt s.carts (p.slot - 1) { s.cart p.slot with recordOwed := false }
        link := { s.link with state := .idle, queue := rest, transaction := none, frame := [] } } := by
  have hanswer : s.recordUnanswered p = s.recordEnds p := by
    unfold State.recordUnanswered
    dsimp only []
    rw [if_neg (by rw [ht]; exact Bool.false_ne_true)]
  rw [hanswer, State.recordEnds_eq hq hw hstate hn hrest, ht, Bool.false_and, if_neg Bool.false_ne_true, List.append_nil]

theorem State.transactionEnds_recorded (hq : s.link.queue = p :: rest) (hr : p.running = true) (hk : p.kind = .record)
    (sequence : Nat) : s.transactionEnds sequence none = s.recordUnanswered p ∧ ∀ payload : List Byte,
      s.transactionEnds sequence (some payload) =
        s.recordAnswered p (littleEndian (payload.take 4)) (littleEndian ((payload.drop 4).take 4)) := by
  have hrunning := State.runningProcedure_head hq hr
  refine ⟨?_, fun payload => ?_⟩
  · rw [State.transactionEnds, hrunning]
    dsimp only []
    rw [hk]
  · rw [State.transactionEnds, hrunning]
    dsimp only []
    rw [hk]

/-- A deadline of the link after which nobody waits. -/
theorem answers_deadline (hup : s.up = true) (heffect : (s.begin env).responseEnds (fun _ => some .fails) = v)
    (hwait : v.checkWait = none) (hprint : v.print.state ≠ .waiting) : Answers (.responseDeadline env) s v.finish := by
  have hanswer := answers_responseDeadline env s
  rw [State.linkEffect_alone (b := s.begin env) (f := fun b => b.responseEnds fun _ => some .fails) hup (by rw [heffect]; exact hwait)
    (by rw [heffect]; exact hprint), heffect] at hanswer
  exact hanswer

end Sys2Proof.Machine

namespace Sys2Proof.Proofs

open Sys2Proof.Machine

/-- Settles O48: what the answers to PROVE and RECORD, and no answer to RECORD, make of a record. -/
theorem proveResponse : Obligations.ProveResponse := by
  refine ⟨fun env s p rest tr x payload hup hstate htr hd hcommand hq hr hquiet hk hp hx hw hslot h1 h5 hseq hlen hwait hprint => ?_,
    fun env s p rest tr id v hup hstate htr hd hcommand hq hr hk hw hslot h1 h5 hseq hwait hprint hrest => ?_⟩
  · intro b head proves lenient
    have hstuck : b.link.state ≠ .stuck := by rw [show b.link = s.link from rfl, hstate]; exact nofun
    let matched : Bool := decide proves
    have hends : b.responseEnds (attemptOf (head ++ [crc8 head])) = b.checkProved p x matched :=
      (State.responseEnds_answered (b := b) (length := 16) hstate htr hd hslot h5 hseq hlen (by omega) (by rw [hcommand]; exact hlen)).trans
        (State.transactionEnds_proved (s := b) hq hr hk hp hx _ _)
    obtain ⟨queue, stored, notice, writes, hchecked, hrejected, htrusted⟩ :=
      State.checkProved_eq (s := b) hq hw hstuck ⟨h1, h5⟩ hquiet x matched
    have hcart := State.cart_put (t := { b with carts := putAt b.carts (p.slot - 1) (b.provedRecord x matched) }) rfl ⟨h1, h5⟩
    have hown := hcart.1
    have hyes : proves → b.provedAuth matched = .verified := fun h => if_pos (decide_eq_true h)
    have hlenient : ¬proves → lenient → b.provedAuth matched = .permitted := fun h hl =>
      (if_neg (by rw [show matched = false from decide_eq_false h]; exact Bool.false_ne_true)).trans (if_pos hl)
    have hno : ¬proves → ¬lenient → b.provedAuth matched = .rejected := fun h hl =>
      (if_neg (by rw [show matched = false from decide_eq_false h]; exact Bool.false_ne_true)).trans (if_neg hl)
    have hnot : proves ∨ lenient → b.provedAuth matched ≠ .rejected := fun h hr => by
      by_cases hp : proves
      · rw [hyes hp] at hr
        cases hr
      · rw [hlenient hp (h.resolve_left hp)] at hr
        cases hr
    refine ⟨_, _, answers_responded hup (hends.trans hchecked) hwait hprint, rfl, hcart.2, fun h => ?_, fun h hl => ?_, fun h hl => ?_,
      congrArg Cartridge.id hown, congrArg Cartridge.kind hown, congrArg Cartridge.recordOwed hown, congrArg Cartridge.values hown, rfl, rfl,
      fun e he => ?_, fun he => ?_, fun h => (htrusted (hnot h)).1, fun hslots => ?_⟩
    · exact ⟨(congrArg Cartridge.auth hown).trans (hyes h), (congrArg Cartridge.reason hown).trans (if_neg (hnot (.inl h))),
        (congrArg Cartridge.unproven hown).trans (congrArg not (decide_eq_true h))⟩
    · exact ⟨(congrArg Cartridge.auth hown).trans (hlenient h hl), (congrArg Cartridge.reason hown).trans (if_neg (hnot (.inr hl))),
        (congrArg Cartridge.unproven hown).trans (congrArg not (decide_eq_false h))⟩
    · exact ⟨(congrArg Cartridge.auth hown).trans (hno h hl), (congrArg Cartridge.reason hown).trans (if_pos (hno h hl)),
        (congrArg Cartridge.unproven hown).trans (congrArg not (decide_eq_false h)), (hrejected (hno h hl)).1⟩
    · rw [show b.knownEntry x.id = some e from he]
      exact ⟨rfl, rfl⟩
    · rw [show b.knownEntry x.id = none from he]
      exact ⟨rfl, rfl⟩
    · by_cases hauth : proves ∨ lenient
      · obtain ⟨hbelow, habove⟩ := (htrusted (hnot hauth)).2 hslots
        by_cases hb : b.adoptsBelow x
        · exact (hbelow hb).trans (congrArg (rest ++ ·) (if_pos ⟨hauth, hb⟩).symm)
        · exact (habove hb).trans ((List.append_nil rest).symm.trans (congrArg (rest ++ ·) (if_neg fun h => hb h.2).symm))
      · have hqueue := (hrejected (hno (fun h => hauth (.inl h)) fun h => hauth (.inr h))).2
        exact hqueue.trans ((List.append_nil rest).symm.trans (congrArg (rest ++ ·) (if_neg fun h => hauth h.1).symm))
  · intro b c trusted listed idle hid hv
    have hstuck : b.link.state ≠ .stuck := by rw [show b.link = s.link from rfl, hstate]; exact nofun
    have htrusted : trusted ↔ c.trusted = true := by simp [trusted, Cartridge.trusted]
    have hlisted : ∀ w, listed w = b.listedAs c id w := fun w => by
      by_cases ht : trusted
      · exact (if_pos ht).trans (if_pos (htrusted.mp ht)).symm
      · exact (if_neg ht).trans (if_neg fun h => ht (htrusted.mpr h)).symm
    refine ⟨fun payload hlen => ?_, fun hlimit => ?_⟩
    · intro head remaining
      have hends : b.responseEnds (attemptOf (head ++ [crc8 head])) =
          b.recordAnswered p (littleEndian (payload.take 4)) (littleEndian ((payload.drop 4).take 4)) :=
        (State.responseEnds_answered (b := b) (length := 8) hstate htr hd hslot h5 hseq hlen (by omega) (by rw [hcommand]; exact hlen)).trans
          ((State.transactionEnds_recorded (s := b) hq hr hk _).2 _)
      obtain ⟨ok, writes, hanswered⟩ := State.recordAnswered_eq (s := b) hq hr hk hw hstuck ⟨h1, h5⟩ hrest hid hv
        (littleEndian (payload.take 4)) (littleEndian ((payload.drop 4).take 4)) rfl
      generalize hnew : v.answered b.stored.settings.supply.lowPermille (littleEndian (payload.take 4))
        (littleEndian ((payload.drop 4).take 4)) = w at hanswered
      have hqueue : (if trusted ∧ (c.recordOwed = true ∨ w.level ≠ v.level) then [Procedure.queued p.slot .record false] else []) =
          if (c.trusted && (c.recordOwed || decide (w.level ≠ v.level))) = true then [.queued p.slot .record false] else [] :=
        if_congr ((and_congr_left' htrusted).trans (by simp)) rfl rfl
      refine ⟨_, w, answers_responded hup (hends.trans hanswered) hwait hprint, ?_, ?_⟩
      · rw [hlisted, hqueue]
        rfl
      · subst hnew
        exact ⟨rfl, rfl, rfl, rfl, rfl⟩
    · have hends : (b.responseEnds fun _ => some .fails) = b.recordUnanswered p :=
        (State.responseEnds_of (b := b) hstate htr rfl).trans ((State.attemptEnds_last (b := b) hd hlimit).trans
          (State.transactionEnds_recorded (s := b) hq hr hk _).1)
      rw [hlisted]
      by_cases ht : c.trusted = true
      · obtain ⟨writes, notice, hun⟩ := State.recordUnanswered_trusted (s := b) hq hw hstuck ⟨h1, h5⟩ hrest hid hv ht
        have hcart := State.cart_put (t := { b with
          carts := putAt b.carts (p.slot - 1) { (b.cart p.slot).silenced with recordOwed := false } }) rfl ⟨h1, h5⟩
        refine ⟨_, answers_deadline hup (hends.trans hun) hwait hprint, ?_, hcart.2, fun _ => hcart.1, fun h => ?_⟩
        · rw [State.listedAs, if_pos ht]
          rfl
        · exact absurd (htrusted.mpr ht) h
      · have hf : c.trusted = false := by simpa using ht
        have hun := State.recordUnanswered_untrusted (s := b) hq hw hstuck ⟨h1, h5⟩ hrest hf
        have hcart := State.cart_put (t := { b with
          carts := putAt b.carts (p.slot - 1) { b.cart p.slot with recordOwed := false } }) rfl ⟨h1, h5⟩
        refine ⟨_, answers_deadline hup (hends.trans hun) hwait hprint, ?_, hcart.2, fun h => ?_, fun _ => ⟨hcart.1, rfl⟩⟩
        · rw [State.listedAs, if_neg ht]
          rfl
        · exact absurd (htrusted.mp h) ht

end Sys2Proof.Proofs
end

