-- ==== Sys2Proof/Proofs/CartTickets.lean ====
section
/-! Check Cartridge, its wait and the end of it, and Read Cartridges (R130, R131): O45. -/

namespace Sys2Proof.Machine

variable {s u v b t x : State} {env : Env} {k : Ticket} {p : Procedure} {rest : List Procedure} {tr : Transaction} {n m : Nat} {w : CheckWait}

/-! ### Entries written where no write fails (R163) -/

theorem Memory.putWords_append (mem : Memory) (a : Nat) (l l' : List Word) :
    mem.putWords a (l ++ l') = (mem.putWords a l).putWords (a + 4 * l.length) l' := by
  induction l generalizing mem a with
  | nil => rfl
  | cons y l ih =>
    refine (ih (mem.putWord a y) (a + 4)).trans ?_
    rw [List.length_cons, show a + 4 + 4 * l.length = a + 4 * (l.length + 1) by omega]
    rfl

theorem State.writeEntries_ok (entries : List (List Word)) (s : State) (lane : Fin 4) (a : Nat) (h : s.env.badWrites = []) :
    s.writeEntries lane a entries = ({ s with mem := s.mem.putWords a entries.flatten }, entries.length, false) := by
  induction entries generalizing s a with
  | nil => rfl
  | cons e entries ih =>
    rw [State.writeEntries, State.writeWords_ok e s a h]
    dsimp only []
    rw [ih { s with mem := s.mem.putWords a e } (a + 4 * e.length) h, List.flatten_cons, Memory.putWords_append]
    rfl

/-! ### The wait of a Check Cartridge (R130) -/

theorem take_supplySlots (s : State) (n : Nat) :
    ((supplySlots.take n).map s.cartEntry).flatten = ([1, 2, 3, 4, 5].take n).flatMap s.cartEntry := by
  rw [List.flatMap]
  rfl

/-- R130: the end of the wait, with no waiter left in the queue and no write failing. -/
theorem State.endCheckWait_ends (hw : s.checkWait = some w) (hq : s.link.queue.any (fun p => p.waiter) = false)
    (hwrites : s.env.badWrites = []) :
    s.endCheckWait =
      { State.close { s with mem := s.mem.putWords w.result (([1, 2, 3, 4, 5].take w.capacity).flatMap s.cartEntry) } 3
          (if w.failed ≠ 0 then .linkFail else if w.notChecked ≠ 0 then .supply else .ok) w.failed.toNat w.notChecked.toNat false
          (decide (w.capacity < 5)) with
        checkWait := none } := by
  unfold State.endCheckWait
  split
  · rename_i hnone
    rw [hnone] at hw
    cases hw
  · rename_i w' hw'
    obtain rfl : w = w' := Option.some.inj (hw.symm.trans hw')
    rw [hq]
    dsimp only []
    rw [State.writeEntries_ok _ s 3 w.result hwrites, take_supplySlots]
    exact if_neg Bool.false_ne_true

/-- R130: the bits of the slots whose door line is abnormal. -/
def State.shutMask (s : State) (l : List Nat) : BitVec 5 :=
  (l.filter (fun n => s.lineAbnormal (doorLine n))).foldl (fun m n => m ||| slotBit n) 0

theorem foldl_slotBit (l : List Nat) (x : BitVec 5) :
    l.foldl (fun m n => m ||| slotBit n) x = x ||| l.foldl (fun m n => m ||| slotBit n) 0 := by
  induction l generalizing x with
  | nil => simp
  | cons n l ih =>
    rw [List.foldl_cons, List.foldl_cons, ih (x ||| slotBit n), ih (0 ||| slotBit n)]
    simp [BitVec.or_assoc]

/-- R130: the named slots in turn, none of which has a CHECK queued: CHECKs with the waiter mark, and the others counted. -/
theorem checkFor_all (l : List Nat) (hop : s.dev.op = .running ∨ s.dev.op = .withdrawn) (hl : l.Nodup)
    (hq : ∀ n ∈ l, ∀ p ∈ s.link.queue, p.slot ≠ n) (hw : s.checkWait = some w) :
    l.foldl State.checkFor s =
      { s with
        link := { s.link with
          queue := s.link.queue ++ (l.filter fun n => !s.lineAbnormal (doorLine n)).map fun n => .queued n .check true }
        checkWait := some { w with notChecked := w.notChecked ||| s.shutMask l } } := by
  induction l generalizing s w with
  | nil =>
    simp [State.shutMask, ← hw]
  | cons n l ih =>
    obtain ⟨hn, hl⟩ := List.nodup_cons.mp hl
    rw [List.foldl_cons]
    cases habnormal : s.lineAbnormal (doorLine n) with
    | true =>
      have hcount : s.checkFor n = { s with checkWait := some { w with notChecked := w.notChecked ||| slotBit n } } := by
        rw [State.checkFor, if_pos habnormal, State.countNotChecked, hw]
      have hmask : s.shutMask (n :: l) = slotBit n ||| s.shutMask l := by
        rw [State.shutMask, List.filter_cons_of_pos (p := fun n => s.lineAbnormal (doorLine n)) habnormal, List.foldl_cons, foldl_slotBit]
        simp [State.shutMask]
      rw [hcount]
      refine (ih (s := { s with checkWait := some { w with notChecked := w.notChecked ||| slotBit n } }) hop hl
        (fun m hm => hq m (List.mem_cons_of_mem _ hm)) rfl).trans ?_
      rw [hmask, ← BitVec.or_assoc, List.filter_cons_of_neg (p := fun n => !s.lineAbnormal (doorLine n)) (by simp [habnormal])]
      rfl
    | false =>
      have hjoin : s.checkFor n = { s with link := { s.link with queue := s.link.queue ++ [.queued n .check true] } } := by
        rw [State.checkFor, if_neg (by rw [habnormal]; exact Bool.false_ne_true)]
        refine (if_pos ⟨hop, habnormal⟩).trans ?_
        rw [State.request, requestIn_new (hq n List.mem_cons_self)]
      have hmask : s.shutMask (n :: l) = s.shutMask l := by
        rw [State.shutMask, List.filter_cons_of_neg (p := fun n => s.lineAbnormal (doorLine n)) (by simp [habnormal])]
        rfl
      have hq' : ∀ m ∈ l, ∀ p ∈ s.link.queue ++ [Procedure.queued n .check true], p.slot ≠ m := by
        intro m hm p hp
        rcases List.mem_append.mp hp with hp | hp
        · exact hq m (List.mem_cons_of_mem _ hm) p hp
        · rw [List.mem_singleton.mp hp]
          exact fun e : n = m => hn (e ▸ hm)
      rw [hjoin]
      refine (ih (s := { s with link := { s.link with queue := s.link.queue ++ [.queued n .check true] } }) hop hl hq' hw).trans ?_
      rw [hmask, List.filter_cons_of_pos (p := fun n => !s.lineAbnormal (doorLine n)) (by simp [habnormal]), List.map_cons, List.append_assoc]
      rfl

/-- Figure 54: the bits of distinct slots as the number they spell. -/
theorem slotBits_sum {l : List Nat} (hl : l ∈ [1, 2, 3, 4, 5].sublists) :
    l.foldl (fun m n => m ||| slotBit n) 0 = BitVec.ofNat 5 (l.map fun n => 2 ^ (n - 1)).sum ∧
      (l.map fun n => 2 ^ (n - 1)).sum < 32 ∧ (l ≠ [] → 1 ≤ (l.map fun n => 2 ^ (n - 1)).sum) := by
  revert l
  decide

/-- R130: a mask of the five bits names at least one slot. -/
theorem slotsOfMask_ne (mask : Nat) (h1 : 1 ≤ mask) (h31 : mask ≤ 31) : slotsOfMask mask ≠ [] := by
  have hall : ∀ mask ∈ List.range 32, 1 ≤ mask → slotsOfMask mask ≠ [] := by decide
  exact hall mask (List.mem_range.mpr (by omega)) h1

theorem Serves.op {kind : TicketKind} (h : Serves env s kind k) (hg : stateGate .stopped kind ≠ none) :
    (s.begin env).dev.op = .running ∨ (s.begin env).dev.op = .withdrawn := by
  have hup := (State.serving_some h.1).1
  have hgate := h.2.1
  cases hop : (s.begin env).dev.op with
  | running => exact .inl rfl
  | withdrawn => exact .inr rfl
  | starting =>
    rw [State.up, hop] at hup
    simp at hup
  | stopped => exact absurd (hop ▸ hgate) hg

/-- R130: the named slots whose door line is normal. -/
def State.askedSlots (s : State) (mask : Nat) : List Nat := (slotsOfMask mask).filter fun n => !s.lineAbnormal (doorLine n)

/-- R130: the bits of the named slots whose door line is abnormal. -/
def State.shutSum (s : State) (mask : Nat) : Nat :=
  (((slotsOfMask mask).filter fun n => s.lineAbnormal (doorLine n)).map fun n => 2 ^ (n - 1)).sum

theorem State.shutMask_sum (s : State) (mask : Nat) :
    s.shutMask (slotsOfMask mask) = BitVec.ofNat 5 (s.shutSum mask) ∧ s.shutSum mask < 32 ∧
      ((slotsOfMask mask).filter (fun n => s.lineAbnormal (doorLine n)) ≠ [] → 1 ≤ s.shutSum mask) :=
  slotBits_sum (List.mem_sublists.mpr (List.filter_sublist.trans List.filter_sublist))

/-- R130: the wait of a Check Cartridge as it begins. -/
def State.shutWait (s : State) (k : Ticket) : CheckWait :=
  { failed := 0, notChecked := BitVec.ofNat 5 (s.shutSum (bits (k.w 2) 7 0)), result := (k.w 3).toNat, capacity := (k.w 4).toNat }

/-- R130: Check Cartridge of a lawful mask, with nothing queued. -/
theorem checkCartridgeBody_asks (hop : u.dev.op = .running ∨ u.dev.op = .withdrawn) (hq : u.link.queue = [])
    (h1 : 1 ≤ bits (k.w 2) 7 0) (h31 : bits (k.w 2) 7 0 ≤ 31) (harea : areaOk (k.w 3).toNat = true) :
    checkCartridgeBody k u = State.endCheckWait { u with
      link := { u.link with queue := (u.askedSlots (bits (k.w 2) 7 0)).map fun n => .queued n .check true }
      checkWait := some (u.shutWait k) } := by
  have hnodup : (slotsOfMask (bits (k.w 2) 7 0)).Nodup := List.Nodup.filter _ (by decide)
  have hall := checkFor_all (s := { u with
      checkWait := some { failed := 0, notChecked := 0, result := (k.w 3).toNat, capacity := (k.w 4).toNat } })
    (slotsOfMask (bits (k.w 2) 7 0)) hop hnodup (fun n _ p hp => by rw [hq] at hp; cases hp) rfl
  rw [hq, List.nil_append] at hall
  unfold checkCartridgeBody
  dsimp only []
  rw [if_neg (by rw [harea]; simp; omega), hall, State.shutWait, ← (u.shutMask_sum _).1]
  exact congrArg State.endCheckWait (by rw [show (0 : BitVec 5) ||| _ = _ from BitVec.zero_or]; rfl)

/-- R130: CHECKs asked for keep the ticket waiting. -/
theorem State.endCheckWait_waits (hw : s.checkWait = some w) (hq : s.link.queue.any (fun p => p.waiter) = true) : s.endCheckWait = s := by
  unfold State.endCheckWait
  rw [hw, hq]
  rfl

/-- R130: with every named slot's door line abnormal, the ticket ends at once. -/
theorem checkCartridgeBody_shut {mem : Memory} (hop : u.dev.op = .running ∨ u.dev.op = .withdrawn) (hq : u.link.queue = [])
    (h1 : 1 ≤ bits (k.w 2) 7 0) (h31 : bits (k.w 2) 7 0 ≤ 31) (harea : areaOk (k.w 3).toNat = true)
    (hnone : u.askedSlots (bits (k.w 2) 7 0) = []) (hwrites : u.env.badWrites = [])
    (hmem : u.mem.putWords (k.w 3).toNat (([1, 2, 3, 4, 5].take (k.w 4).toNat).flatMap u.cartEntry) = mem) :
    checkCartridgeBody k u =
      { State.close { u with
            checkWait := some (u.shutWait k), mem } 3 .supply 0 (u.shutSum (bits (k.w 2) 7 0)) false (decide ((k.w 4).toNat < 5)) with
        checkWait := none } := by
  obtain ⟨-, hlt, hpos⟩ := u.shutMask_sum (bits (k.w 2) 7 0)
  have hshut : 1 ≤ u.shutSum (bits (k.w 2) 7 0) := hpos fun hempty => by
    obtain ⟨n, hn⟩ := List.exists_mem_of_ne_nil _ (slotsOfMask_ne _ h1 h31)
    cases habnormal : u.lineAbnormal (doorLine n) with
    | true => exact List.ne_nil_of_mem (List.mem_filter.mpr ⟨hn, habnormal⟩) hempty
    | false =>
      exact List.ne_nil_of_mem (List.mem_filter (p := fun n => !u.lineAbnormal (doorLine n)).mpr ⟨hn, by rw [habnormal]; rfl⟩) hnone
  have hnat : (BitVec.ofNat 5 (u.shutSum (bits (k.w 2) 7 0))).toNat = u.shutSum (bits (k.w 2) 7 0) := by
    rw [BitVec.toNat_ofNat]
    exact Nat.mod_eq_of_lt hlt
  have hne : BitVec.ofNat 5 (u.shutSum (bits (k.w 2) 7 0)) ≠ 0 := fun h => by
    rw [h] at hnat
    simp at hnat
    omega
  have hlink : { u.link with queue := [] } = u.link := by rw [← hq]
  have hends := State.endCheckWait_ends
    (s := { u with checkWait := some (u.shutWait k) }) rfl (by rw [hq]; rfl) hwrites
  rw [State.shutWait, if_neg (not_not.mpr rfl), if_pos hne, hnat] at hends
  rw [checkCartridgeBody_asks hop hq h1 h31 harea, hnone, List.map_nil, hlink, ← hmem]
  exact hends

/-! ### The CHECK a ticket waits for ends (R119, R130) -/

/-- R130: an absent cartridge is reported to the waiting ticket. -/
theorem State.checkAbsent_reports (hq : s.link.queue = p :: rest) (hp : p.waiter = true) (hstate : s.link.state ≠ .stuck)
    (hn : 1 ≤ p.slot ∧ p.slot ≤ 5) (hw : s.checkWait = some w) :
    s.checkAbsent p =
      { s with
        carts := putAt s.carts (p.slot - 1) (s.cart p.slot).gone
        link := { s.link with state := .idle, queue := rest, transaction := none, frame := [] }
        notice := if (s.cart p.slot).noticed (s.cart p.slot).gone = true then s.notice ||| Cause.supply.mask else s.notice
        checkWait := some { w with failed := w.failed ||| slotBit p.slot } } := by
  have hchanged := s.changeCart_eq p.slot (s.cart p.slot).gone
  generalize hu : s.changeCart p.slot (s.cart p.slot).gone = u at hchanged
  have hcart : u.cart p.slot = (s.cart p.slot).gone := State.cart_of_carts (by rw [hchanged]) hn
  have hlink : u.link = s.link := by rw [hchanged]
  have hwait : u.checkWait = some w := by rw [hchanged]; exact hw
  have hreport : u.reportWaiter p = { u with checkWait := some { w with failed := w.failed ||| slotBit p.slot } } := by
    unfold State.reportWaiter
    rw [if_pos hp, hwait]
    dsimp only []
    rw [hcart]
    exact if_pos (.inl rfl)
  have habsent : s.checkAbsent p = u.endProcedure p := by rw [← hu]; rfl
  rw [habsent, State.endProcedure, hreport]
  dsimp only []
  rw [hlink, Link.released_eq hstate, hq, hchanged]
  rfl

theorem State.renewPrintOnSupply_still (h : x.print.state ≠ .waiting) : b.renewPrintOnSupply x = x := by
  unfold State.renewPrintOnSupply
  split
  · rfl
  · exact if_neg fun hw => h hw.1

theorem slotBit_failed (x : BitVec 5) (hn : 1 ≤ n ∧ n ≤ 5) :
    x ||| slotBit n ≠ 0 ∧ (x ||| slotBit n).toNat = x.toNat ||| 2 ^ (n - 1) := by
  have hbit : (slotBit n).toNat = 2 ^ (n - 1) := by
    rw [slotBit, BitVec.toNat_twoPow]
    exact Nat.mod_eq_of_lt (Nat.pow_lt_pow_right (by decide) (by omega))
  have hor : (x ||| slotBit n).toNat = x.toNat ||| 2 ^ (n - 1) := by rw [BitVec.toNat_or, hbit]
  refine ⟨fun h => ?_, hor⟩
  rw [h] at hor
  have hle : 2 ^ (n - 1) ≤ x.toNat ||| 2 ^ (n - 1) := Nat.right_le_or
  rw [← hor] at hle
  exact absurd hle (by simp)

/-- R119, R130: what a Check Cartridge whose last CHECK went unanswered closes with. -/
theorem State.endCheckWait_reported {carts : Vector Cartridge 5} {link : Link} {notice : BitVec 13} (hn : 1 ≤ n ∧ n ≤ 5)
    (hq : ∀ q ∈ link.queue, q.waiter = false) (hwrites : b.env.badWrites = []) (hk : (b.lane 3).service = some k) :
    State.endCheckWait { b with carts, link, notice, checkWait := some { w with failed := w.failed ||| slotBit n } } =
      { State.answered { b with
          carts, link, notice, checkWait := none
          mem := b.mem.putWords w.result
            (([1, 2, 3, 4, 5].take w.capacity).flatMap (State.cartEntry { b with carts, link, notice, checkWait := none })) } 3 k .linkFail
          (w.failed.toNat ||| 2 ^ (n - 1)) w.notChecked.toNat false (decide (w.capacity < 5)) with
        env := b.env } := by
  have hcloses : b.closesFreely k := by
    rw [State.closesFreely, hwrites]
    exact ⟨rfl, rfl, rfl⟩
  have hnone : link.queue.any (fun p => p.waiter) = false := List.any_eq_false.mpr fun q hmem => by rw [hq q hmem]; exact Bool.false_ne_true
  have hends := State.endCheckWait_ends
    (s := { b with carts, link, notice, checkWait := some { w with failed := w.failed ||| slotBit n } }) rfl hnone hwrites
  obtain ⟨hne, hnat⟩ := slotBit_failed w.failed hn
  rw [if_pos hne, hnat] at hends
  exact hends.trans (congrArg (fun x : State => { x with checkWait := none })
    (State.close_ok (s := { b with
        carts, link, notice, checkWait := some { w with failed := w.failed ||| slotBit n }
        mem := b.mem.putWords w.result
          (([1, 2, 3, 4, 5].take w.capacity).flatMap (State.cartEntry { b with carts, link, notice, checkWait := none })) })
      (k := k) hk (State.closesFreely_of_env (u := b) rfl hcloses) _ _ _ _ _))

/-- The deadline whose CHECK a Check Cartridge waited for last. -/
theorem answers_reported {carts : Vector Cartridge 5} {link : Link} {notice : BitVec 13} (hup : s.up = true)
    (heffect : ((s.begin env).responseEnds fun _ => some .fails) = { s.begin env with
      carts, link, notice, checkWait := some { w with failed := w.failed ||| slotBit n } })
    (hq : ∀ q ∈ link.queue, q.waiter = false) (hwrites : env.badWrites = []) (hprint : s.print.state ≠ .waiting)
    (hk : ((s.begin env).lane 3).service = some k) (hn : 1 ≤ n ∧ n ≤ 5) :
    Answers (.responseDeadline env) s
      (State.answered { s.begin env with
          carts, link, notice, checkWait := none
          mem := (s.begin env).mem.putWords w.result
            (([1, 2, 3, 4, 5].take w.capacity).flatMap (State.cartEntry { s.begin env with carts, link, notice, checkWait := none })) } 3 k
        .linkFail (w.failed.toNat ||| 2 ^ (n - 1)) w.notChecked.toNat false (decide (w.capacity < 5))) := by
  have hanswer := answers_responseDeadline env s
  rw [State.linkEffect, if_pos (show (s.begin env).up = true from hup), heffect,
    State.endCheckWait_reported (b := s.begin env) hn hq hwrites hk, State.renewPrintOnSupply_still (by exact hprint)] at hanswer
  exact hanswer

end Sys2Proof.Machine

namespace Sys2Proof.Proofs

open Sys2Proof.Machine

/-- Settles O45: Check Cartridge, the end of its wait, and Read Cartridges. -/
theorem cartridgeTickets : Obligations.CartridgeTickets := by
  refine ⟨fun env s k hserves => ?_, fun env s k w p rest tr hup hwait hprint hstate htr hd hq hr hkind hphase hwaiter hrest h1 h5 hwrites => ?_,
    fun env s k hserves harea hwrites => ?_⟩
  · intro b mask capacity named asked shut h1 h31 harea hqueue
    have hop := hserves.op nofun
    refine ⟨fun hasked => ?_, fun hnone hwrites => ?_⟩
    · refine hserves.begun 0 (v := { b with
          link := { b.link with queue := asked.map fun n => .queued n .check true }
          checkWait := some { failed := 0, notChecked := BitVec.ofNat 5 shut, result := (k.w 3).toNat, capacity } }) rfl fun L => ?_
      refine (checkCartridgeBody_asks (u := b.setLanes L) hop hqueue h1 h31 harea).trans (State.endCheckWait_waits rfl ?_)
      obtain ⟨n, hn⟩ := List.exists_mem_of_ne_nil _ hasked
      exact List.any_eq_true.mpr ⟨_, List.mem_map_of_mem hn, rfl⟩
    · have hmem : ∀ L, (b.setLanes L).mem.putWords (k.w 3).toNat (([1, 2, 3, 4, 5].take capacity).flatMap (b.setLanes L).cartEntry) =
          b.mem.putWords (k.w 3).toNat (([1, 2, 3, 4, 5].take capacity).flatMap b.cartEntry) := fun L => by
        rw [show (b.setLanes L).cartEntry = b.cartEntry from rfl]
        rfl
      generalize b.mem.putWords (k.w 3).toNat (([1, 2, 3, 4, 5].take capacity).flatMap b.cartEntry) = mem at hmem ⊢
      exact hserves.answers_then 0 (fun x => { x with checkWait := none }) (fun _ => rfl) (body := checkCartridgeBody)
        (v := { b with
          checkWait := some { failed := 0, notChecked := BitVec.ofNat 5 shut, result := (k.w 3).toNat, capacity }, mem }) rfl rfl
        fun L => checkCartridgeBody_shut (u := b.setLanes L) hop hqueue h1 h31 harea hnone hwrites (hmem L)
  · intro b hk hlimit gone c
    have hnotStuck : b.link.state ≠ .stuck := by rw [show b.link = s.link from rfl, hstate]; exact nofun
    have heffect := (State.deadline_absent (s := b) hstate htr hd hlimit hq hr hkind hphase).trans
      (State.checkAbsent_reports (s := b) hq hwaiter hnotStuck ⟨h1, h5⟩ hwait)
    have hnotice : (if (b.cart p.slot).noticed (b.cart p.slot).gone = true then b.notice ||| Cause.supply.mask else b.notice) =
        if (b.cart p.slot).auth = .absent ∧ (b.cart p.slot).reason = none then b.notice else b.notice ||| Cause.supply.mask := by
      rw [Cartridge.noticed_gone]
      by_cases h : (b.cart p.slot).auth = .absent ∧ (b.cart p.slot).reason = none
      · rw [if_pos h, h.1, h.2]
        rfl
      · rw [if_neg h, if_pos (by simpa [Decidable.imp_iff_not_or] using h)]
    rw [hnotice] at heffect
    exact answers_reported hup heffect hrest hwrites hprint hk ⟨h1, h5⟩
  · intro b capacity entries
    refine hserves.answers 0 (v := { b with mem := b.mem.putWords (k.w 2).toNat (entries.take capacity).flatten }) rfl rfl fun L => ?_
    unfold readCartridgesBody
    dsimp only []
    rw [if_neg (by rw [harea]; exact nofun), State.writeEntries_ok _ _ 3 _ (by exact hwrites)]
    dsimp only []
    rw [List.length_take, Bool.false_or]
    rfl

end Sys2Proof.Proofs
end

