-- ==== Sys2Proof/Proofs/Doors.lean ====
section
/-! The toner door (R117, R129, R143, R153): O44. -/

namespace Sys2Proof.Machine

variable {s u v b t x : State} {env : Env} {p : Procedure} {rest : List Procedure} {n m : Nat} {c : Cartridge} {l : List Nat}

/-! ### One slot behind an opened door (R129, R143) -/

/-- R129: a record behind an opened door. -/
def Cartridge.uncovered (c : Cartridge) : Cartridge := { c with auth := .unchecked, reason := none, recordOwed := false }

/-- R122: the list after the list write a record takes when its door opens. -/
def State.writtenList (s : State) (list : List KnownCartridge) (n : Nat) : List KnownCartridge :=
  match (s.cart n).id, (s.cart n).values with
  | some id, some v =>
    if (s.cart n).auth = .verified ∨ (s.cart n).auth = .permitted then
      frontEntry { id, kind := (s.cart n).kind.getD 0, remaining := v.remaining, useCount := v.useCount } list
    else list
  | _, _ => list

theorem Cartridge.trusted_iff (c : Cartridge) : c.trusted = true ↔ c.auth = .verified ∨ c.auth = .permitted := by
  simp [Cartridge.trusted]

theorem State.writeKnown_wrote (s : State) (list : List KnownCartridge) : s.Wrote (s.writeKnown list) := by
  refine ⟨rfl, rfl, rfl, ?_⟩
  rcases s.store_afterWrites_cases .knownList { s.stored with known := list, knownOk := true } with ⟨hsame, e⟩ | ⟨-, e⟩
  · refine .inl ⟨?_, e⟩
    have hboth : list = s.stored.known ∧ true = s.stored.knownOk := by simpa [Stored.same] using hsame
    refine (show _ = { s.stored with known := list, knownOk := true } from rfl).trans ?_
    rw [hboth.1, hboth.2]
  · exact .inr e

theorem State.listWrite_wrote (s : State) (n : Nat) : s.Wrote (s.listWrite n) := by
  unfold State.listWrite
  dsimp only []
  split
  · exact s.writeKnown_wrote _
  · exact State.Wrote.refl s

theorem State.writtenList_untrusted (h : (s.cart n).trusted = false) (list : List KnownCartridge) : s.writtenList list n = list := by
  have hnot : ¬((s.cart n).auth = .verified ∨ (s.cart n).auth = .permitted) := fun ha => by
    rw [(Cartridge.trusted_iff _).mpr ha] at h
    cases h
  unfold State.writtenList
  split
  · exact if_neg hnot
  · rfl

theorem State.writtenList_some {id : BitVec 64} {w : CartridgeValues} (ht : (s.cart n).trusted = true) (hid : (s.cart n).id = some id)
    (hv : (s.cart n).values = some w) (list : List KnownCartridge) : s.writtenList list n =
      frontEntry { id, kind := (s.cart n).kind.getD 0, remaining := w.remaining, useCount := w.useCount } list := by
  unfold State.writtenList
  rw [hid, hv]
  exact if_pos ((Cartridge.trusted_iff _).mp ht)

theorem State.listWrite_none (h : (s.cart n).id = none ∨ (s.cart n).values = none) :
    s.listWrite n = s ∧ ∀ list, s.writtenList list n = list := by
  unfold State.listWrite State.writtenList
  dsimp only []
  rcases h with h | h
  · rw [h]
    exact ⟨rfl, fun _ => rfl⟩
  · rw [h]
    cases (s.cart n).id with
    | none | some _ => exact ⟨rfl, fun _ => rfl⟩

/-- R122: the list write of a slot's record, where it is trusted. -/
def State.listWriteTrusted (s : State) (n : Nat) : State := if (s.cart n).trusted then s.listWrite n else s

theorem State.listWriteTrusted_wrote (s : State) (n : Nat) : s.Wrote (s.listWriteTrusted n) := by
  unfold State.listWriteTrusted
  split
  · exact s.listWrite_wrote n
  · exact State.Wrote.refl s

theorem State.listWriteTrusted_eq (s : State) (n : Nat) :
    s.listWriteTrusted n =
      { s with
        stored := { s.stored with known := s.writtenList s.stored.known n, knownOk := (s.listWriteTrusted n).stored.knownOk }
        afterWrites := (s.listWriteTrusted n).afterWrites } := by
  have hsame : s.listWriteTrusted n = s → s.writtenList s.stored.known n = s.stored.known → s.listWriteTrusted n =
      { s with
        stored := { s.stored with known := s.writtenList s.stored.known n, knownOk := (s.listWriteTrusted n).stored.knownOk }
        afterWrites := (s.listWriteTrusted n).afterWrites } := fun he hl => by rw [he, hl]
  cases ht : (s.cart n).trusted with
  | false => exact hsame (if_neg (by rw [ht]; exact Bool.false_ne_true)) (State.writtenList_untrusted ht _)
  | true =>
    have hwrite : s.listWriteTrusted n = s.listWrite n := if_pos ht
    cases hid : (s.cart n).id with
    | none => exact hsame (hwrite.trans (State.listWrite_none (.inl hid)).1) ((State.listWrite_none (.inl hid)).2 _)
    | some id =>
      cases hv : (s.cart n).values with
      | none => exact hsame (hwrite.trans (State.listWrite_none (.inr hv)).1) ((State.listWrite_none (.inr hv)).2 _)
      | some w =>
        rw [hwrite, State.writtenList_some ht hid hv, State.listWrite_eq hid hv]
        rfl

theorem Cartridge.noticed_uncovered (c : Cartridge) :
    c.noticed c.uncovered = (decide (c.auth ≠ .unchecked) || decide (c.reason ≠ none)) := by
  unfold Cartridge.noticed Cartridge.uncovered
  cases c.values <;> simp

/-- R143: a slot's procedures removed. -/
theorem State.removeProcedures_frame (s : State) (n : Nat) :
    s.removeProcedures n = { s with link := (s.removeProcedures n).link, checkWait := (s.removeProcedures n).checkWait } ∧
      (s.removeProcedures n).link.queue = s.link.queue.filter (fun p => p.slot ≠ n) ∧
      (s.checkWait = none → (s.removeProcedures n).checkWait = none) := by
  have hcount : ∀ P : Bool, (if P then s.countNotChecked n else s) =
        { s with checkWait := (if P then s.countNotChecked n else s).checkWait } ∧
      (s.checkWait = none → (if P then s.countNotChecked n else s).checkWait = none) := fun P => by
    cases P with
    | false => exact ⟨rfl, fun h => h⟩
    | true =>
      rw [if_pos rfl]
      unfold State.countNotChecked
      split
      · exact ⟨rfl, fun h => h⟩
      · rename_i w hw
        exact ⟨rfl, fun h => by rw [h] at hw; cases hw⟩
  obtain ⟨hframe, hwait⟩ := hcount ((s.link.queue.filter fun p => p.slot = n).any fun p => p.waiter)
  unfold State.removeProcedures
  dsimp only []
  generalize (if (s.link.queue.filter fun p => p.slot = n).any (fun p => p.waiter) = true then s.countNotChecked n else s) = u at hframe hwait ⊢
  have hlink : u.link = s.link := by rw [hframe]
  refine ⟨?_, ?_, hwait⟩
  · rw [hframe]
  · rw [hlink]
    split
    · unfold Link.cutRunning
      split <;> rfl
    · rfl

/-- R129, R143: what an opened door leaves of one slot it covers. -/
structure DoorOpened (s t : State) (n : Nat) : Prop where
  frame : t = { s with
    stored := { s.stored with known := s.writtenList s.stored.known n, knownOk := t.stored.knownOk }
    afterWrites := t.afterWrites, carts := putAt s.carts (n - 1) (s.cart n).uncovered
    notice := if (s.cart n).noticed (s.cart n).uncovered = true then s.notice ||| Cause.supply.mask else s.notice
    link := t.link, checkWait := t.checkWait }
  queue : t.link.queue = s.link.queue.filter (fun p => p.slot ≠ n)
  wait : s.checkWait = none → t.checkWait = none
  wrote : s.Wrote t

theorem State.doorOpened_spec (s : State) (n : Nat) : DoorOpened s (s.doorOpened n) n := by
  have hlist := s.listWriteTrusted_eq n
  have hwrote := s.listWriteTrusted_wrote n
  have hopen : s.doorOpened n = ((s.listWriteTrusted n).changeCart n ((s.listWriteTrusted n).cart n).uncovered).removeProcedures n := rfl
  generalize s.listWriteTrusted n = u at hlist hwrote hopen
  have hcart : u.cart n = s.cart n := by rw [hlist]; rfl
  have hchange := u.changeCart_eq n (u.cart n).uncovered
  rw [hcart] at hopen hchange
  generalize u.changeCart n (s.cart n).uncovered = x at hchange hopen
  obtain ⟨hframe, hqueue, hwait⟩ := x.removeProcedures_frame n
  rw [← hopen] at hframe hqueue hwait
  obtain ⟨hmem, hshadow, hshadowMem, hwrites⟩ := hwrote
  generalize s.doorOpened n = t at hframe hqueue hwait ⊢
  have hstored : t.stored = u.stored := by rw [hframe, hchange]
  have hafter : t.afterWrites = u.afterWrites := by rw [hframe, hchange]
  have hsame : t.mem = u.mem ∧ t.shadow = u.shadow ∧ t.shadowMem = u.shadowMem := by
    rw [hframe, hchange]
    exact ⟨rfl, rfl, rfl⟩
  refine ⟨?_, ?_, fun h => hwait ?_, ⟨hsame.1.trans hmem, hsame.2.1.trans hshadow, hsame.2.2.trans hshadowMem, ?_⟩⟩
  · rw [hstored, hafter]
    generalize u.stored.knownOk = ok at hlist ⊢
    generalize u.afterWrites = writes at hlist ⊢
    rw [hframe, hchange, hlist]
  · rw [hqueue, hchange, hlist]
  · rw [hchange, hlist]
    exact h
  · rw [hstored, hafter, hsame.1]
    exact hwrites

/-! ### The slots a door covers, in turn -/

/-- R116: the door's opening changes a record that is not UNCHECKED without a reason. -/
def State.doorChanges (s : State) (n : Nat) : Bool := decide ((s.cart n).auth ≠ .unchecked) || decide ((s.cart n).reason ≠ none)

/-- R129, R143, R122: what an opened door leaves once the slots of a list have been taken in turn; the list is found at a loss of power
as one of them left it. -/
structure DoorsOpened (b t : State) (l : List Nat) : Prop where
  frame : t = { b with
    stored := { b.stored with known := l.foldl b.writtenList b.stored.known, knownOk := t.stored.knownOk }
    afterWrites := t.afterWrites, carts := t.carts
    notice := b.notice ||| (if l.any b.doorChanges then Cause.supply.mask else 0)
    link := t.link, checkWait := t.checkWait }
  carts : ∀ m, 1 ≤ m → m ≤ 5 → t.cart m = if m ∈ l then (b.cart m).uncovered else b.cart m
  queue : t.link.queue = b.link.queue.filter (fun p => p.slot ∉ l)
  wait : b.checkWait = none → t.checkWait = none
  last : t.moments.getLast? = some (t.stored, t.mem)
  found : ∀ x ∈ t.moments, ∃ j ≤ l.length, x.1.known = (l.take j).foldl b.writtenList b.stored.known
  kept : ∀ j ≤ l.length, ∃ (w : Nat) (x : Stored × Memory), t.moments[w]? = some x ∧ x.1.known = (l.take j).foldl b.writtenList b.stored.known

theorem DoorsOpened.nil (hb : b.moments = [(b.stored, b.mem)]) : DoorsOpened b b [] where
  frame := by simp
  carts := fun m _ _ => by simp
  queue := by simp
  wait := fun h => h
  last := by rw [hb]; rfl
  found := fun x hx => ⟨0, Nat.le_refl 0, by rw [hb] at hx; rw [List.mem_singleton.mp hx]; rfl⟩
  kept := fun j hj => ⟨0, (b.stored, b.mem), by rw [hb]; rfl, by simp⟩

theorem writtenList_of_cart (h : u.cart n = b.cart n) (list : List KnownCartridge) : u.writtenList list n = b.writtenList list n := by
  unfold State.writtenList
  rw [h]

theorem DoorsOpened.append (h : DoorsOpened b u l) (ho : DoorOpened u t n) (hn : 1 ≤ n ∧ n ≤ 5) (hl : n ∉ l) :
    DoorsOpened b t (l ++ [n]) := by
  have hcart : u.cart n = b.cart n := (h.carts n hn.1 hn.2).trans (if_neg hl)
  have hknown : u.stored.known = l.foldl b.writtenList b.stored.known := congrArg (fun x : State => x.stored.known) h.frame
  have hfold : (l ++ [n]).foldl b.writtenList b.stored.known = u.writtenList u.stored.known n := by
    rw [List.foldl_append, ← hknown]
    exact (writtenList_of_cart hcart _).symm
  have hknown' : t.stored.known = (l ++ [n]).foldl b.writtenList b.stored.known := by
    rw [hfold]
    exact congrArg (fun x : State => x.stored.known) ho.frame
  obtain ⟨hlast, hmoments⟩ := ho.wrote.moments h.last
  have hcarts : t.carts = putAt u.carts (n - 1) (u.cart n).uncovered := congrArg State.carts ho.frame
  have hnotice : (if (u.cart n).noticed (u.cart n).uncovered = true then u.notice ||| Cause.supply.mask else u.notice) =
      b.notice ||| (if (l ++ [n]).any b.doorChanges then Cause.supply.mask else 0) := by
    have hbefore : u.notice = b.notice ||| (if l.any b.doorChanges then Cause.supply.mask else 0) := congrArg State.notice h.frame
    rw [hcart, Cartridge.noticed_uncovered, hbefore, List.any_append, List.any_cons, List.any_nil, Bool.or_false]
    rw [show (decide ((b.cart n).auth ≠ .unchecked) || decide ((b.cart n).reason ≠ none)) = b.doorChanges n from rfl]
    cases b.doorChanges n <;> cases l.any b.doorChanges <;> simp [BitVec.or_assoc]
  have htake : ∀ j ≤ l.length, (l ++ [n]).take j = l.take j := fun j hj => List.take_append_of_le_length hj
  have hlength : (l ++ [n]).length = l.length + 1 := by simp
  refine ⟨?_, fun m h1 h5 => ?_, ?_, fun hw => ?_, hlast, fun x hx => ?_, fun j hj => ?_⟩
  · refine ho.frame.trans ?_
    rw [← hcarts, hnotice, ← hfold]
    generalize u.writtenList u.stored.known n = list
    rw [h.frame]
  · have hput : t.cart m = if n - 1 = m - 1 ∧ n - 1 < 5 then (u.cart n).uncovered else u.cart m := by
      rw [State.cart, hcarts]
      exact entryAt_putAt ..
    rw [hput, hcart]
    by_cases hm : m = n
    · rw [if_pos (by omega), if_pos (by simp [hm]), hm]
    · rw [if_neg (by omega), h.carts m h1 h5]
      simp [hm]
  · rw [ho.queue, h.queue, List.filter_filter]
    refine List.filter_congr fun p _ => ?_
    simp [and_comm]
  · exact ho.wait (h.wait hw)
  · rcases hmoments with e | e
    · rw [e] at hx
      obtain ⟨j, hj, hx⟩ := h.found x hx
      exact ⟨j, by omega, by rw [htake j hj]; exact hx⟩
    · rw [e] at hx
      rcases List.mem_append.mp hx with hx | hx
      · obtain ⟨j, hj, hx⟩ := h.found x hx
        exact ⟨j, by omega, by rw [htake j hj]; exact hx⟩
      · refine ⟨l.length + 1, by omega, ?_⟩
        rw [List.mem_singleton.mp hx, ← hlength, List.take_length]
        exact hknown'
  · by_cases hj' : j ≤ l.length
    · obtain ⟨w, x, hw, hx⟩ := h.kept j hj'
      refine ⟨w, x, ?_, by rw [htake j hj']; exact hx⟩
      rcases hmoments with e | e
      · rw [e]
        exact hw
      · rw [e, List.getElem?_append_left (List.getElem?_eq_some_iff.mp hw).1]
        exact hw
    · obtain rfl : j = (l ++ [n]).length := by omega
      refine ⟨t.moments.length - 1, (t.stored, t.mem), ?_, by rw [List.take_length]; exact hknown'⟩
      rw [← List.getLast?_eq_getElem?]
      exact hlast

/-- R129: the toner door's four slots. -/
theorem State.tonerDoor_opened (hb : b.moments = [(b.stored, b.mem)]) : DoorsOpened b ((doorSlots 1).foldl State.doorOpened b) [1, 2, 3, 4] :=
  ((((DoorsOpened.nil hb).append (b.doorOpened_spec 1) (by decide) (by decide)).append (State.doorOpened_spec _ 2) (by decide)
    (by decide)).append (State.doorOpened_spec _ 3) (by decide) (by decide)).append (State.doorOpened_spec _ 4) (by decide) (by decide)

/-! ### The edge (R147, R148, R153) -/

/-- R130: what the end of a Check Cartridge's wait may change. -/
theorem State.endCheckWait_frame (s : State) : s.endCheckWait = { s with
    mem := s.endCheckWait.mem, faults := s.endCheckWait.faults, notice := s.endCheckWait.notice, lanes := s.endCheckWait.lanes
    checkWait := s.endCheckWait.checkWait } := by
  unfold State.endCheckWait
  split
  · rfl
  · split
    · rfl
    · dsimp only []
      rw [State.close_frame, State.writeEntries_frame]

/-- R153, R148: an edge of the toner door, with the other lines as they were. -/
theorem State.senseChange_door {old new : BitVec 8} (hsame : ∀ m < 8, m ≠ 1 → new.getLsbD m = old.getLsbD m) :
    s.senseChange old new = ((s.doorChange old new 1).groupChange old new engineLines State.printDeparture).pumpCore := by
  have h0 := hsame 0 (by decide) (by decide)
  have h3 := hsame 3 (by decide) (by decide)
  have h4 := hsame 4 (by decide) (by decide)
  have h6 := hsame 6 (by decide) (by decide)
  have hscanner : departed scannerLines old = departed scannerLines new := by rw [departed_scanner, departed_scanner, h3]
  have hprivacy : departed privacyLines old = departed privacyLines new := by rw [departed_privacy, departed_privacy, h4]
  unfold State.senseChange
  dsimp only []
  rw [State.doorChange_same h0, State.scannerReadyEdge_same h6, State.groupChange_same hscanner,
    State.groupChange_same hprivacy, State.engineReadyReturn_same (hsame 5 (by decide) (by decide)) (hsame 7 (by decide) (by decide)),
    State.scannerReadyReturn_same h6]

/-- R148: SENSE, unless the ENGINE group is departed by another of its lines all along. -/
def senseUnless (other : Bool) : BitVec 13 := if other then 0 else Cause.sense.mask

/-- R148: a change of the ENGINE group with the print path idle. -/
theorem State.groupChange_engine {old new : BitVec 8} (hsame : ∀ m < 8, m ≠ 1 → new.getLsbD m = old.getLsbD m)
    (h1 : new.getLsbD 1 = !old.getLsbD 1) (hidle : s.print.state = .idle) :
    s.groupChange old new engineLines State.printDeparture =
      { s with notice := s.notice ||| senseUnless (old.getLsbD 0 || old.getLsbD 2) } := by
  have hdeparture : (s.raise .sense).printDeparture = s.raise .sense := by
    unfold State.printDeparture
    rw [show (s.raise .sense).print.state = .idle from hidle]
  unfold State.groupChange
  rw [departed_engine, departed_engine, hsame 0 (by decide) (by decide), hsame 2 (by decide) (by decide), h1, hdeparture]
  cases old.getLsbD 0 <;> cases old.getLsbD 1 <;> cases old.getLsbD 2 <;> simp [senseUnless, State.raise]

/-- R1, R122: what a loss of power after the door's opening finds of the list. -/
theorem DoorsOpened.lost (h : DoorsOpened b u l) (hm : t.moments = u.moments) (hs : t.stored = u.stored) (hp : t.power = true) :
    (∀ writes v, Answers (.lossOfPower writes) t v →
      ∃ j ≤ l.length, v.stored.known = (l.take j).foldl b.writtenList b.stored.known) ∧
    (∀ j ≤ l.length, ∃ writes v, Answers (.lossOfPower writes) t v ∧
      v.stored.known = (l.take j).foldl b.writtenList b.stored.known) := by
  have hlost : ∀ writes v, Answers (.lossOfPower writes) t v ↔ v = t.losePower writes := fun writes v =>
    answers_lossOfPower.trans (by rw [if_pos hp])
  have hheld : ∀ writes, (t.losePower writes).stored = ((u.moments[writes]?).getD (t.stored, t.mem)).1 := fun writes => by
    rw [← hm]
    exact congrArg Prod.fst (t.heldAfter_eq writes)
  refine ⟨fun writes v hv => ?_, fun j hj => ?_⟩
  · rw [(hlost writes v).mp hv, hheld]
    cases hx : u.moments[writes]? with
    | none =>
      refine ⟨l.length, Nat.le_refl _, ?_⟩
      rw [List.take_length, Option.getD_none, hs]
      exact congrArg (fun x : State => x.stored.known) h.frame
    | some x => exact h.found x (List.mem_of_getElem? hx)
  · obtain ⟨w, x, hw, hx⟩ := h.kept j hj
    refine ⟨w, _, (hlost w _).mpr rfl, ?_⟩
    rw [hheld, hw, Option.getD_some]
    exact hx

/-- R129: the toner door's opening, as the part takes it. -/
theorem State.doorChange_opens {old new : BitVec 8} (hold : old.getLsbD 1 = false) (hnew : new.getLsbD 1 = true) :
    s.doorChange old new 1 = ((doorSlots 1).foldl State.doorOpened s).endCheckWait := by
  have hwent : wentAbnormal old new 1 = true := by rw [wentAbnormal, hold, hnew]; rfl
  unfold State.doorChange
  rw [hwent, if_pos rfl, State.doorEdge]

theorem State.doorChange_shuts {old new : BitVec 8} (hold : old.getLsbD 1 = true) (hnew : new.getLsbD 1 = false) :
    s.doorChange old new 1 = s.doorReturn 1 := by
  have hwent : wentAbnormal old new 1 = false := by rw [wentAbnormal, hold, hnew]; rfl
  have hreturned : returned old new 1 = true := by rw [returned, hold, hnew]; rfl
  unfold State.doorChange
  rw [hwent, hreturned, if_neg Bool.false_ne_true, if_pos rfl]

end Sys2Proof.Machine

namespace Sys2Proof.Proofs

open Sys2Proof.Machine

/-- Settles O44: the toner door's opening, with what a loss of power then finds, and its return. -/
theorem tonerDoorEdge : Obligations.TonerDoorEdge := by
  intro env s high halive hlevel hidle hwatch hsettled b written sense
  have hanswer := answers_senseLineEdge (env := env) (line := 1) halive hlevel
  have hother : ∀ m < 8, m ≠ 1 → (b.edgeTaken 1).abnormal.getLsbD m = b.abnormal.getLsbD m := fun m hm hne =>
    State.edgeTaken_other b hm hne
  have hnew := State.edgeTaken_watched b (n := 1) (by decide)
    (by rw [show b.stored.settings = s.stored.settings from State.begin_settings s env]; exact hwatch)
  have hold : ∀ m, b.abnormal.getLsbD m = s.lineAbnormal m := fun m => State.begin_lineAbnormal s env m
  have hlevels : (b.edgeTaken 1).levels.getLsbD 1 = high := by
    rw [State.edgeTaken_level b 1 1 (by decide), show b.levels = s.levels from rfl]
    revert hlevel
    cases s.levels.getLsbD 1 <;> cases high <;> simp
  have hsense : senseUnless (b.abnormal.getLsbD 0 || b.abnormal.getLsbD 2) = sense := by
    rw [hold, hold]
    simp [senseUnless, sense]
  rw [show ((1 : Fin 8).val) = 1 from rfl, State.senseChange_door hother] at hanswer
  refine ⟨fun hnormal => ?_, fun habnormal hop hqueue => ?_⟩
  · rw [hold, hnormal] at hnew
    have hwritten : State.writtenList (b.edgeTaken 1) = written := rfl
    have hopened : DoorsOpened (b.edgeTaken 1) ((doorSlots 1).foldl State.doorOpened (b.edgeTaken 1)) [1, 2, 3, 4] :=
      State.tonerDoor_opened rfl
    have hopens := State.doorChange_opens (s := b.edgeTaken 1) ((hold 1).trans hnormal) hnew
    generalize (doorSlots 1).foldl State.doorOpened (b.edgeTaken 1) = u at hopened hopens
    have hframe := u.endCheckWait_frame
    have hnone : u.checkWait = none → u.endCheckWait = u := State.endCheckWait_none
    generalize u.endCheckWait = v at hopens hframe hnone
    have hu := hopened.frame
    have hvidle : v.print.state = .idle := by
      rw [hframe, hu]
      exact hidle
    have hcore : v.core = s.core := by
      rw [hframe, hu]
      rfl
    have hvcarts : ∀ m, v.cart m = u.cart m := fun m => by
      rw [hframe]
      rfl
    have hmoments : v.moments = u.moments := by
      rw [hframe]
      rfl
    have hstored : v.stored = u.stored := by rw [hframe]
    have hlevel : v.levels = (b.edgeTaken 1).levels := by rw [hframe, hu]
    have hpower : v.power = true := by
      rw [hframe, hu]
      rw [State.alive, Bool.and_eq_true] at halive
      exact halive.1
    have hcarts : v.carts = u.carts := by rw [hframe]
    have hlink : v.link = u.link := by rw [hframe]
    have hafter : v.afterWrites = u.afterWrites := by rw [hframe]
    have hknown : u.stored.known = [1, 2, 3, 4].foldl written b.stored.known := congrArg (fun x : State => x.stored.known) hu
    have hleft : v = { b with
        levels := v.levels, carts := v.carts, link := v.link, checkWait := v.checkWait
        stored := { b.stored with known := v.stored.known, knownOk := v.stored.knownOk }
        notice := v.notice, lanes := v.lanes, mem := v.mem, faults := v.faults, afterWrites := v.afterWrites } := by
      rw [hcarts, hlink, hstored, hafter, hlevel, hknown]
      conv_lhs => rw [hframe, hu]
      rfl
    have hlost := hopened.lost (t := State.finish { v with notice := v.notice ||| sense }) hmoments hstored hpower
    rw [hopens, State.groupChange_engine hother (by rw [hnew, hold, hnormal]) hvidle, hsense, State.pumpCore_settled] at hanswer
    · refine ⟨_, hanswer, (congrArg (fun x : BitVec 8 => x.getLsbD 1) hlevel).trans hlevels, ?_, fun slot hslot => ?_, ?_, ?_, hlost.1,
        hlost.2, ?_, fun hw => ?_⟩
      · exact congrArg (fun x : State => State.finish { x with notice := x.notice ||| sense }) hleft
      · have hrange : 1 ≤ slot ∧ slot ≤ 5 := by
          simp only [List.mem_cons, List.not_mem_nil, or_false] at hslot
          omega
        exact (hvcarts slot).trans ((hopened.carts slot hrange.1 hrange.2).trans (if_pos hslot))
      · exact (hvcarts 5).trans ((hopened.carts 5 (by decide) (by decide)).trans (if_neg (by decide)))
      · exact (congrArg Stored.known hstored).trans hknown
      · exact (congrArg Link.queue hlink).trans hopened.queue
      · have hsame := hnone (hopened.wait hw)
        have hchanged : [1, 2, 3, 4].any (State.doorChanges (b.edgeTaken 1)) =
            [1, 2, 3, 4].any (fun slot => decide ((b.cart slot).auth ≠ .unchecked ∨ (b.cart slot).reason ≠ none)) := by
          refine congrArg (List.any [1, 2, 3, 4]) (funext fun slot => ?_)
          exact (Bool.decide_or _ _).symm
        refine ⟨?_, ?_, ?_, ?_, ?_⟩
        · exact (congrArg State.checkWait hsame).trans (hopened.wait hw)
        · exact (congrArg State.lanes hsame).trans ((congrArg State.lanes hu).trans rfl)
        · exact (congrArg State.mem hsame).trans ((congrArg State.mem hu).trans rfl)
        · exact (congrArg State.faults hsame).trans ((congrArg State.faults hu).trans rfl)
        · have hnotice : v.notice = b.notice |||
              (if [1, 2, 3, 4].any (State.doorChanges (b.edgeTaken 1)) then Cause.supply.mask else 0) :=
            (congrArg State.notice hsame).trans ((congrArg State.notice hu).trans rfl)
          refine (congrArg (· ||| sense) hnotice).trans ?_
          rw [hchanged, BitVec.or_assoc, BitVec.or_comm _ sense, ← BitVec.or_assoc]
    · refine fun hfree => ?_
      have hwaiting := hsettled (by rw [← hcore]; exact hfree)
      rw [← hcore] at hwaiting
      exact hwaiting
  · rw [hold, habnormal] at hnew
    have hchecks := requestChecks_eq (s := b.edgeTaken 1) [1, 2, 3, 4] false (.inl hop) (by decide)
      (fun n _ p hp => by rw [show (b.edgeTaken 1).link.queue = s.link.queue from rfl, hqueue] at hp; cases hp)
    have hshuts := State.doorChange_shuts (s := b.edgeTaken 1) ((hold 1).trans habnormal) hnew
    have hall : [1, 2, 3, 4].filter (fun n => !(b.edgeTaken 1).lineAbnormal (doorLine n)) = [1, 2, 3, 4] := by
      refine List.filter_eq_self.mpr fun n hn => ?_
      have hline : doorLine n = 1 := if_neg fun h => by rw [h] at hn; exact absurd hn (by decide)
      rw [hline, show (b.edgeTaken 1).lineAbnormal 1 = false from hnew]
      rfl
    rw [hall, show (b.edgeTaken 1).link.queue = [] from hqueue] at hchecks
    have hreturn : (b.edgeTaken 1).doorReturn 1 = { b.edgeTaken 1 with
        link := { b.link with
          queue := [.queued 1 .check false, .queued 2 .check false, .queued 3 .check false, .queued 4 .check false] } } := hchecks
    rw [hshuts, hreturn, State.groupChange_engine (s := { b.edgeTaken 1 with
        link := { b.link with
          queue := [.queued 1 .check false, .queued 2 .check false, .queued 3 .check false, .queued 4 .check false] } }) hother
        (by rw [hnew, hold, habnormal]) hidle, hsense, State.pumpCore_settled] at hanswer
    · exact ⟨_, hanswer, hlevels, rfl⟩
    · exact hsettled

end Sys2Proof.Proofs
end

