-- ==== Sys2Proof/Proofs/SelfTest.lean ====
section
/-! The periodic self-test of the cipher core (R174): O30. -/

namespace Sys2Proof.Machine

variable {s t u : State} {W : Scope} {f : FirstFault}

/-- R176: the first fault of a record stays its first. -/
theorem Act.firstFault (h : Act W s t) (hf : s.faults.first = some f) : t.faults.first = some f := by
  cases h with
  | capture =>
    unfold State.capture FaultRecord.capture
    dsimp only []
    rw [hf]
  | misc h =>
    rw [h.frame]
    exact hf
  | _ => exact hf

theorem State.withdraw_firstFault (s : State) (hf : s.faults.first = some f) : s.withdraw.faults.first = some f :=
  Reaches.keeps (P := fun x => x.faults.first = some f)
    (Reaches.refl.withdraw (W := Scope.still) ⟨fun _ _ _ _ _ _ => trivial, fun _ _ _ _ _ => trivial, fun _ _ _ _ _ => trivial⟩ id
      fun _ _ _ _ _ _ _ => .inr trivial) hf Act.firstFault

theorem State.selfTestDue_iff (s : State) : s.selfTestDue = true ↔
    4096 ≤ s.core.count ∧ s.core.band = none ∧ s.core.periodicTest = false ∧ s.core.resumeTest = false := by
  have hbands : decide (Config.cipherTestBands ≤ s.core.count) = true ↔ 4096 ≤ s.core.count := decide_eq_true_iff
  simp [State.selfTestDue, hbands, and_assoc]

theorem State.pumpCore_empty (h : s.core.isEmpty) : s.pumpCore = s := by
  obtain ⟨-, hqueue, hwaiting⟩ := h
  exact State.pumpCore_settled fun _ => ⟨hqueue, hwaiting⟩

end Sys2Proof.Machine

namespace Sys2Proof.Proofs

open Sys2Proof.Machine

/-- Settles O30: when the periodic self-test begins, and what its end leaves. -/
theorem periodicSelfTest : Obligations.PeriodicSelfTest := by
  intro env s hup
  have hbegins := (answers_iff (c := .periodicSelfTest) (s := s) nofun).mpr rfl
  rw [show Instr.periodicSelfTest.env = .calm from rfl] at hbegins
  have hends : ∀ passes, s.core.periodicTest = true →
      Answers (.periodicSelfTestEnd env passes) s ((s.begin env).selfTestEnds passes).finish := fun passes htest => by
    have hanswer := (answers_iff (c := .periodicSelfTestEnd env passes) (s := s) nofun).mpr rfl
    rw [show (Instr.periodicSelfTestEnd env passes).env = env from rfl,
      show effectOf (.periodicSelfTestEnd env passes) (s.begin env) = (s.begin env).selfTestEnds passes from if_pos ⟨hup, htest⟩] at hanswer
    exact hanswer
  refine ⟨?_, fun htest => ⟨hends true htest, fun hop hslots => ?_⟩⟩
  · split
    · rename_i hdue
      have heffect : effectOf .periodicSelfTest (s.begin .calm) =
          { s.begin .calm with core := { s.core with periodicTest := true } } := if_pos ⟨hup, (State.selfTestDue_iff _).mpr hdue⟩
      rw [heffect] at hbegins
      exact hbegins
    · rename_i hdue
      have heffect : effectOf .periodicSelfTest (s.begin .calm) = s.begin .calm :=
        if_neg fun h => hdue ((State.selfTestDue_iff (s.begin .calm)).mp h.2)
      rw [heffect] at hbegins
      exact hbegins
  · have hanswer := hends false htest
    let failed : State := State.capture
      { s.begin env with core := { (s.begin env).core with periodicTest := false, count := 0 } } .cipherCheck none none 1
    have heffect : (s.begin env).selfTestEnds false = failed.withdraw.pumpCore := rfl
    have hrun : failed.dev.op = .running := hop
    have hwork := State.withdraw_ends hrun
    have hfree := State.wipeAll_isFree (s := failed.markWithdrawn) hslots
    have hwipe := failed.markWithdrawn.wipeAll_spec.1
    have hempty := hwork.core failed.markWithdrawn.wipeAll_empty
    have hnotice := failed.withdraw_notice (i := Cause.fault.bit) (by
      simp only [failed, State.capture, Cause.mask, BitVec.getLsbD_or, BitVec.getLsbD_twoPow]
      simp [show Cause.fault.bit < 13 by decide])
    have hfirst : (s.begin env).faults.first = none → failed.withdraw.faults.first =
        some { kind := .cipherCheck, lane := none, address := none, time := (s.begin env).dev.clock, detail := 1 } := fun hnone => by
      refine failed.withdraw_firstFault ?_
      have htime : State.faultTime
          { s.begin env with core := { (s.begin env).core with periodicTest := false, count := 0 } } = (s.begin env).dev.clock :=
        State.faultTime_up hup
      simp only [failed, State.capture, FaultRecord.capture]
      rw [htime, hnone]
    rw [heffect, State.pumpCore_empty hempty] at hanswer
    have hcount : failed.withdraw.core.count = 0 := by
      rw [hwork.count, hwipe]
      rfl
    have hdev : failed.withdraw.dev = failed.markWithdrawn.dev := by
      rw [hwork.frame, hwipe]
    have hslot : ∀ i, (failed.withdraw.slot i).state = .free ∧ (failed.withdraw.slot i).key = none := fun i => by
      rw [hwork.slots i (hfree i)]
      exact ⟨rfl, rfl⟩
    have hframe := hwork.frame
    generalize failed.withdraw = w at *
    refine ⟨_, hanswer, ?_, hdev.trans rfl, hslot, hempty.1, hcount, hnotice, hfirst⟩
    rw [hframe, hwipe]
    rfl

end Sys2Proof.Proofs
end

