-- ==== Sys2Proof/Proofs/Sections.lean ====
section
/-! Configure (R178, R116, R125, R128): O27. -/

namespace Sys2Proof.Machine

variable {s u v b t : State} {env : Env} {k : Ticket} {n m : Nat} {c d : Cartridge} {x : Section} {ws : List Word} {old new : SupplySettings}

/-! ### The service of a Configure (R178) -/

theorem configureBody_refused
    (h : sectionLength (k.w 2).toNat = none ∨ areaOk (k.w 3).toNat = false ∨ areaOk (k.w 4).toNat = false) :
    configureBody k u = u.close 0 .badTicket 0 0 := by
  unfold configureBody
  dsimp only []
  cases hl : sectionLength (k.w 2).toNat with
  | none => rfl
  | some length => exact if_pos (h.resolve_left (by rw [hl]; exact nofun))

theorem configureBody_reads {length : Nat} (hl : sectionLength (k.w 2).toNat = some length) (hs : areaOk (k.w 3).toNat = true)
    (hr : areaOk (k.w 4).toNat = true) :
    (∀ bad, u.readWords (k.w 3).toNat length = .error bad →
      configureBody k u = (u.captureMemory .memoryRead 0 bad).close 0 .memoryFault 0 0) ∧
    (∀ ws, u.readWords (k.w 3).toNat length = .ok ws → Section.ofWords (k.w 2).toNat ws = none →
      configureBody k u = u.close 0 .badTicket 0 0) ∧
    (∀ ws x, u.readWords (k.w 3).toNat length = .ok ws → Section.ofWords (k.w 2).toNat ws = some x →
      configureBody k u =
        ((u.putSection x.clamped).writeControlResult (k.w 4).toNat x.clamped.words).close 0 .ok (k.w 2).toNat 0) := by
  have hareas : ¬(areaOk (k.w 3).toNat = false ∨ areaOk (k.w 4).toNat = false) := by simp [hs, hr]
  unfold configureBody
  dsimp only []
  rw [hl]
  dsimp only []
  rw [if_neg hareas]
  refine ⟨fun bad hread => ?_, fun ws hread hx => ?_, fun ws x hread hx => ?_⟩
  · rw [hread]
  · rw [hread]
    dsimp only []
    rw [hx]
  · rw [hread]
    dsimp only []
    rw [hx]

/-- R178: a section other than SUPPLY comes of no source of SUPPLY's number. -/
theorem Section.ofWords_supply {y : SupplySettings} (h : Section.ofWords n ws = some (.supply y)) : n = 3 := by
  unfold Section.ofWords at h
  split at h
  · cases h
  · cases h
  · rfl
  · cases h
  · cases hs : SenseSettings.ofWords ws with
    | none => rw [hs] at h; cases h
    | some z => rw [hs] at h; cases h
  · cases h

/-- R148: an unchanged status of the lines changes nothing. -/
theorem State.senseChange_still (s : State) (lines : BitVec 8) : s.senseChange lines lines = s.pumpCore := by
  unfold State.senseChange
  dsimp only []
  rw [State.doorChange_same rfl, State.doorChange_same rfl, State.scannerReadyEdge_same rfl, State.groupChange_same rfl,
    State.groupChange_same rfl, State.groupChange_same rfl, State.engineReadyReturn_same rfl rfl, State.scannerReadyReturn_same rfl]

/-- R178 step 5: the settings stored with a section in place. -/
def State.withSection (s : State) (x : Section) : State :=
  s.store .settings { s.stored with settings := s.stored.settings.put x, settingsOk := true }

/-- R178 step 6: a section other than SUPPLY that leaves the lines' status as it was. -/
theorem State.putSection_plain (hx : ∀ y, x ≠ .supply y) (hsense : ∀ y, x = .sense y → abnormalLines y s.levels = s.abnormal)
    (hs : s.coreSettled) : s.putSection x = s.withSection x := by
  cases x with
  | supply y => exact absurd rfl (hx y)
  | rates r => rfl
  | curves c => rfl
  | timers t => rfl
  | sense y =>
    have hsame : (s.withSection (.sense y)).abnormal = s.abnormal := hsense y rfl
    refine (congrArg (State.senseChange (s.withSection (.sense y)) s.abnormal) hsame).trans ?_
    rw [State.senseChange_still]
    exact State.pumpCore_settled hs

theorem Section.clamped_supply {y : SupplySettings} (h : x.clamped = .supply y) : ∃ z, x = .supply z := by
  cases x with
  | supply z => exact ⟨z, rfl⟩
  | rates r => cases h
  | curves c => cases h
  | timers t => cases h
  | sense z => cases h

theorem Section.clamped_sense {y : SenseSettings} (h : x.clamped = .sense y) : x = .sense y := by
  cases x with
  | sense z => exact h
  | rates r => cases h
  | curves c => cases h
  | timers t => cases h
  | supply z => cases h

theorem State.writeControlResult_fails {a bad : Nat} (h : s.writeWords a ws = (u, some bad)) :
    s.writeControlResult a ws = u.captureMemory .memoryWrite 0 bad := by
  rw [State.writeControlResult, h]

/-! ### SUPPLY (R116, R125, R128) -/

/-- The same record but for its RECORD-owed mark. -/
def Cartridge.alike (c d : Cartridge) : Prop := d = { c with recordOwed := d.recordOwed }

theorem Cartridge.alike.refl (c : Cartridge) : c.alike c := rfl

theorem Cartridge.alike.trans {e : Cartridge} (h : c.alike d) (h' : d.alike e) : c.alike e := by
  unfold Cartridge.alike at h h' ⊢
  rw [h', h]

theorem State.wantRecord_alike (s : State) (n m : Nat) : (s.cart m).alike ((s.wantRecord n).cart m) := by
  unfold State.wantRecord
  split
  · split
    · rw [State.putCart_cart]
      split
      · rename_i h
        rw [show s.cart m = s.cart n by rw [State.cart, State.cart, h.1]]
        rfl
      · exact .refl _
    · exact .refl _
  · exact .refl _

theorem State.wantRecord_frame (s : State) (n : Nat) :
    s.wantRecord n = { s with carts := (s.wantRecord n).carts, link := (s.wantRecord n).link } := by
  unfold State.wantRecord
  split
  · split <;> rfl
  · rfl

/-- R125, R128: a record under changed SUPPLY settings. -/
def Cartridge.resupplied (c : Cartridge) (old new : SupplySettings) : Cartridge :=
  { c.remapped old.policy new.policy with
    values := (c.remapped old.policy new.policy).values.map fun v =>
      { v with level := if (c.remapped old.policy new.policy).trusted then levelOfValues new.lowPermille v.capacity v.remaining else v.level } }

/-- R125, R128: one slot under changed SUPPLY settings. -/
structure Resupplied (old new : SupplySettings) (s t : State) (n : Nat) : Prop where
  frame : t = { s with carts := t.carts, link := t.link, notice := t.notice }
  other : ∀ m, n - 1 ≠ m - 1 → t.cart m = s.cart m
  own : n - 1 < 5 → ((s.cart n).resupplied old new).alike (t.cart n)

theorem State.changeCart_resupplied (h : d = (s.cart n).resupplied old new) : Resupplied old new s (s.changeCart n d) n where
  frame := by rw [s.changeCart_eq]
  other m hm := by rw [State.changeCart_cart, if_neg fun hc => hm hc.1]
  own hn := by
    rw [State.changeCart_cart, if_pos ⟨rfl, hn⟩, h]
    exact .refl _

theorem Resupplied.wants (h : Resupplied old new s t n) (P : Prop) [Decidable P] :
    Resupplied old new s (if P then t.wantRecord n else t) n := by
  split
  · refine ⟨?_, fun m hm => ((t.wantRecord_cart n m).1 hm).trans (h.other m hm), fun hn => (h.own hn).trans (t.wantRecord_alike n n)⟩
    have hframe := t.wantRecord_frame n
    generalize t.wantRecord n = r at hframe ⊢
    rw [hframe, h.frame]
  · exact h

theorem State.resupply_spec (s : State) (old new : SupplySettings) (n : Nat) : Resupplied old new s (s.resupply old new n) n := by
  unfold State.resupply
  dsimp only []
  split
  · rename_i hv
    refine State.changeCart_resupplied ?_
    rw [Cartridge.resupplied, hv, Option.map_none, ← hv]
  · rename_i v hv
    split
    · rename_i ht
      refine ((State.changeCart_resupplied ?_).wants _).wants _
      rw [Cartridge.resupplied, hv, Option.map_some, if_pos ht]
    · rename_i ht
      refine State.changeCart_resupplied ?_
      rw [Cartridge.resupplied, hv, Option.map_some, if_neg ht, ← hv]

/-- R125, R128: the slots in turn. -/
theorem resupply_all (old new : SupplySettings) (l : List Nat) (s : State) (hl : l.Nodup) (hr : ∀ n ∈ l, 1 ≤ n ∧ n ≤ 5) :
    l.foldl (State.resupply old new) s = { s with
        carts := (l.foldl (State.resupply old new) s).carts, link := (l.foldl (State.resupply old new) s).link
        notice := (l.foldl (State.resupply old new) s).notice } ∧
      (∀ m, 1 ≤ m → m ∉ l → (l.foldl (State.resupply old new) s).cart m = s.cart m) ∧
      ∀ m ∈ l, ((s.cart m).resupplied old new).alike ((l.foldl (State.resupply old new) s).cart m) := by
  induction l generalizing s with
  | nil => exact ⟨rfl, fun _ _ _ => rfl, nofun⟩
  | cons n l ih =>
    obtain ⟨hn, hl⟩ := List.nodup_cons.mp hl
    have hfirst := s.resupply_spec old new n
    have hrange := hr n List.mem_cons_self
    obtain ⟨hframe, hother, hown⟩ := ih (s.resupply old new n) hl fun m hm => hr m (List.mem_cons_of_mem _ hm)
    rw [List.foldl_cons]
    generalize l.foldl (State.resupply old new) (s.resupply old new n) = t at hframe hother hown ⊢
    refine ⟨by rw [hframe, hfirst.frame], fun m hm hnot => ?_, fun m hm => ?_⟩
    · rw [List.mem_cons, not_or] at hnot
      exact (hother m hm hnot.2).trans (hfirst.other m (by omega))
    · rcases List.mem_cons.mp hm with rfl | hm
      · rw [hother m hrange.1 hn]
        exact hfirst.own (by omega)
      · have hne : m ≠ n := fun e => hn (e ▸ hm)
        have hrm := hr m (List.mem_cons_of_mem _ hm)
        rw [← hfirst.other m (by omega)]
        exact hown m hm

/-! ### The service lane's table does not matter -/

theorem State.setLanes_changeCart (s : State) (L : Vector Lane 4) (n : Nat) (c : Cartridge) :
    (s.setLanes L).changeCart n c = (s.changeCart n c).setLanes L := by
  rw [State.changeCart_eq, State.changeCart_eq]
  rfl

theorem State.setLanes_wantRecord (s : State) (L : Vector Lane 4) (n : Nat) :
    (s.setLanes L).wantRecord n = (s.wantRecord n).setLanes L := by
  unfold State.wantRecord
  rw [apply_ite (State.setLanes · L), apply_ite (State.setLanes · L)]
  rfl

theorem State.setLanes_wants (s : State) (L : Vector Lane 4) (n : Nat) (P : Prop) [Decidable P] :
    (if P then (s.setLanes L).wantRecord n else s.setLanes L) = (if P then s.wantRecord n else s).setLanes L := by
  split
  · exact s.setLanes_wantRecord L n
  · rfl

theorem State.setLanes_resupply (s : State) (L : Vector Lane 4) (n : Nat) :
    (s.setLanes L).resupply old new n = (s.resupply old new n).setLanes L := by
  unfold State.resupply
  dsimp only []
  rw [show (s.setLanes L).cart n = s.cart n from rfl]
  cases ((s.cart n).remapped old.policy new.policy).values with
  | none => exact s.setLanes_changeCart L n _
  | some v =>
    dsimp only []
    rw [State.setLanes_changeCart, State.setLanes_wants, State.setLanes_wants, State.setLanes_changeCart]
    split <;> rfl

theorem setLanes_resupplyAll (L : Vector Lane 4) (l : List Nat) (s : State) :
    l.foldl (State.resupply old new) (s.setLanes L) = (l.foldl (State.resupply old new) s).setLanes L := by
  induction l generalizing s with
  | nil => rfl
  | cons n l ih => rw [List.foldl_cons, State.setLanes_resupply, ih, List.foldl_cons]

/-! ### The values reported (R128) -/

/-- R128: the four values of SUPPLY in effect. -/
theorem SupplySettings.words_clamped (y : SupplySettings) :
    (Section.supply y).clamped.words =
      [if y.policy = .strict then 1 else 2, min 1000 y.lowPermille, max 1 (min 255 y.writeBack), min 7 y.retryLimit].map
        (BitVec.ofNat 32) := by
  cases hp : y.policy with
  | strict | lenient =>
    simp [Section.clamped, Section.words, SupplySettings.clamped, word32, hp, clamp]

/-- R128: the change of policy decides the auth state and the reason of a record, and nothing else of it. -/
theorem Cartridge.remapped_spec (c : Cartridge) (old new : Policy) :
    ((c.remapped old new).auth, (c.remapped old new).reason) =
        (if old = .strict ∧ new = .lenient ∧ c.auth = .rejected ∧ c.reason = some .badProof then (.permitted, none)
        else if old = .lenient ∧ new = .strict ∧ c.auth = .permitted then (.rejected, some .badProof)
        else (c.auth, c.reason)) ∧
      (c.remapped old new).values = c.values := by
  unfold Cartridge.remapped
  cases old with
  | strict =>
    cases new with
    | strict => exact ⟨by simp, rfl⟩
    | lenient => by_cases h : c.auth = .rejected ∧ c.reason = some .badProof <;> simp [h]
  | lenient =>
    cases new with
    | lenient => exact ⟨by simp, rfl⟩
    | strict => by_cases h : c.auth = .permitted <;> simp [h]

theorem Cartridge.resupplied_spec (c : Cartridge) (h : (c.resupplied old new).alike d) :
    (d.auth, d.reason) =
        (if old.policy = .strict ∧ new.policy = .lenient ∧ c.auth = .rejected ∧ c.reason = some .badProof then (.permitted, none)
        else if old.policy = .lenient ∧ new.policy = .strict ∧ c.auth = .permitted then (.rejected, some .badProof)
        else (c.auth, c.reason)) ∧
      d.values = c.values.map (fun v =>
        { v with
          level :=
            if d.trusted = false then v.level
            else if v.remaining = 0 then .empty
            else if v.remaining ≤ v.capacity * new.lowPermille / 1000 then .low else .normal }) := by
  obtain ⟨hauth, hvalues⟩ := c.remapped_spec old.policy new.policy
  have hd : d.auth = (c.remapped old.policy new.policy).auth ∧ d.reason = (c.remapped old.policy new.policy).reason ∧
      d.values = (c.resupplied old new).values := by
    unfold Cartridge.alike at h
    rw [h]
    exact ⟨rfl, rfl, rfl⟩
  have htrusted : d.trusted = (c.remapped old.policy new.policy).trusted := by
    unfold Cartridge.trusted
    rw [hd.1]
  refine ⟨by rw [hd.1, hd.2.1]; exact hauth, ?_⟩
  rw [hd.2.2, htrusted, Cartridge.resupplied, hvalues]
  cases (c.remapped old.policy new.policy).trusted with
  | false => rfl
  | true => rfl

end Sys2Proof.Machine

namespace Sys2Proof.Proofs

open Sys2Proof.Machine

/-- Settles O27: Configure's refusals, its plain sections, and SUPPLY. -/
theorem configureSections : Obligations.ConfigureSections := by
  refine ⟨fun env s k n length ws x hserves => ?_, fun env s k hserves => ?_, fun env s k ws x hserves => ?_⟩
  · intro b hn hl hsource hresult hread hx hne hsense hsettled c
    subst hn
    have hbody : ∀ L, configureBody k (b.setLanes L) =
        State.close ((c.setLanes L).writeControlResult (k.w 4).toNat x.clamped.words) 0 .ok (k.w 2).toNat 0 := fun L => by
      rw [(configureBody_reads (u := b.setLanes L) hl hsource hresult).2.2 ws x ((State.setLanes_at_readWords ..).trans hread) hx,
        State.putSection_plain (s := b.setLanes L) (fun y hy => ?_) (fun y hy => hsense y (Section.clamped_sense hy)) hsettled]
      · rfl
      · obtain ⟨z, rfl⟩ := Section.clamped_supply hy
        exact hne (Section.ofWords_supply hx)
    refine ⟨fun hwrites => ?_, fun u bad hwrite => ?_⟩
    · refine hserves.answers 0 (v := { c with mem := b.mem.putWords (k.w 4).toNat x.clamped.words }) rfl rfl fun L => ?_
      rw [hbody, State.writeControlResult_ok _ _ _ (by exact hwrites)]
      rfl
    · have hframe := State.writeWords_frame x.clamped.words c (k.w 4).toNat
      rw [hwrite] at hframe
      refine hserves.answers 0 (v := u.captureMemory .memoryWrite 0 bad) ((congrArg State.lanes hframe).trans rfl)
        ((congrArg State.env hframe).trans rfl) fun L => ?_
      rw [hbody, State.writeControlResult_fails (u := u.setLanes L) (bad := bad) (by rw [State.setLanes_writeWords, hwrite]),
        State.setLanes_captureMemory]
      rfl
  · intro b n
    refine ⟨fun h => hserves.answers 0 (v := b) rfl rfl fun L => configureBody_refused h, fun length hl hsource hresult => ?_⟩
    refine ⟨fun bad hread => ?_, fun ws hread hx => ?_⟩
    · refine hserves.answers 0 (v := b.captureMemory .memoryRead 0 bad) rfl rfl fun L => ?_
      rw [(configureBody_reads (u := b.setLanes L) hl hsource hresult).1 bad ((State.setLanes_at_readWords ..).trans hread),
        State.setLanes_captureMemory]
      rfl
    · exact hserves.answers 0 (v := b) rfl rfl fun L =>
        (configureBody_reads (u := b.setLanes L) hl hsource hresult).2.1 ws ((State.setLanes_at_readWords ..).trans hread) hx
  · intro b old hn hsource hresult hwrites hread hx
    let stored : State := b.withSection (.supply x.clamped)
    obtain ⟨hframe, -, hown⟩ := resupply_all old x.clamped supplySlots stored (by decide) fun n hm => by
      simp only [supplySlots, List.mem_cons, List.not_mem_nil, or_false] at hm
      omega
    have hput : ∀ L, (b.setLanes L).putSection (Section.supply x).clamped =
        (supplySlots.foldl (State.resupply old x.clamped) stored).setLanes L := fun L =>
      setLanes_resupplyAll (old := old) (new := x.clamped) L supplySlots stored
    generalize supplySlots.foldl (State.resupply old x.clamped) stored = u at hframe hown hput
    have hmem : u.mem.putWords (k.w 4).toNat (Section.supply x).clamped.words =
        b.mem.putWords (k.w 4).toNat (Section.supply x).clamped.words := by
      rw [hframe]
      rfl
    rw [← SupplySettings.words_clamped]
    generalize b.mem.putWords (k.w 4).toNat (Section.supply x).clamped.words = mem at hmem ⊢
    have hbody : ∀ L, configureBody k (b.setLanes L) = State.close (State.setLanes { u with mem } L) 0 .ok 3 0 := fun L => by
        rw [(configureBody_reads (u := b.setLanes L) (by rw [hn]; rfl) hsource hresult).2.2 ws (.supply x)
          ((State.setLanes_at_readWords ..).trans hread) (by rw [hn, Section.ofWords, hx]; rfl), hput,
          State.writeControlResult_ok _ _ _ (by rw [hframe]; exact hwrites), hn, State.setLanes_mem, hmem]
        rfl
    refine ⟨_, hserves.answers 0 (v := { u with mem }) ?_ ?_ hbody,
      ?_, fun slot h1 h5 => ?_⟩
    · rw [hframe]
      rfl
    · rw [hframe]
      rfl
    · rw [hframe]
      rfl
    · have hmem : slot ∈ supplySlots := by
        simp only [supplySlots, List.mem_cons, List.not_mem_nil, or_false]
        omega
      exact Cartridge.resupplied_spec (b.cart slot) (hown slot hmem)

end Sys2Proof.Proofs
end

