-- ==== Sys2Proof/Proofs/Plain.lean ====
section
/-! What most operations leave alone: the parts of the state that speak of a job's units and slots, of the work of the two paths and of
the scan path's share of the core. The laws of sections 2.2, 5.1, 6.1 and of R100 speak of nothing else. -/

namespace Sys2Proof.Machine

variable {s t u : State}

/-! ### Entries alike -/

/-- A job entry keeps its place, its units and its slots. -/
structure Job.alike (j k : Job) : Prop where
  free_iff : k.state = .free ↔ j.state = .free := by exact Iff.rfl
  gen : k.gen = j.gen := by rfl
  account : k.account = j.account := by rfl
  free : k.free = j.free := by rfl
  printHold : k.printHold = j.printHold := by rfl
  scanHold : k.scanHold = j.scanHold := by rfl
  printFlight : k.printFlight = j.printFlight := by rfl
  scanFlight : k.scanFlight = j.scanFlight := by rfl
  slots : k.slots = j.slots := by rfl

theorem Job.alike.trans {j k l : Job} (h : j.alike k) (h' : k.alike l) : j.alike l :=
  ⟨h'.free_iff.trans h.free_iff, h'.gen.trans h.gen, h'.account.trans h.account, h'.free.trans h.free, h'.printHold.trans h.printHold,
    h'.scanHold.trans h.scanHold, h'.printFlight.trans h.printFlight, h'.scanFlight.trans h.scanFlight, h'.slots.trans h.slots⟩

/-- A key slot keeps what its law and its key requests look at; the page number and the keep-minutes count. -/
structure KeySlot.alike (k l : KeySlot) : Prop where
  state : l.state = k.state := by rfl
  gen : l.gen = k.gen := by rfl
  owner : l.owner = k.owner := by rfl
  job : l.job = k.job := by rfl
  uses : l.uses = k.uses := by rfl
  key : l.key = k.key := by rfl

theorem KeySlot.alike.trans {k l m : KeySlot} (h : k.alike l) (h' : l.alike m) : k.alike m :=
  ⟨h'.state.trans h.state, h'.gen.trans h.gen, h'.owner.trans h.owner, h'.job.trans h.job, h'.uses.trans h.uses, h'.key.trans h.key⟩

/-! ### The relation -/

/-- From `s` to `t` only what the laws of units, slots and bands do not look at has changed. -/
structure Plain (s t : State) : Prop where
  power : t.power = s.power := by rfl
  nrst : t.nrst = s.nrst := by rfl
  service1 : (t.lane 1).service = (s.lane 1).service := by rfl
  service2 : (t.lane 2).service = (s.lane 2).service := by rfl
  jobs : ∀ i, (s.job i).alike (t.job i) := by exact fun _ => {}
  slots : ∀ i, (s.slot i).alike (t.slot i) := by exact fun _ => {}
  draws : s.draws ≤ t.draws := by exact Nat.le_refl _
  idle : t.print.state = .idle ↔ s.print.state = .idle := by exact Iff.rfl
  flight : t.print.state.inFlight ↔ s.print.state.inFlight := by exact Iff.rfl
  args : t.print.args = s.print.args := by rfl
  captured : t.print.capture = s.print.capture := by rfl
  scanState : t.scan.state = s.scan.state := by rfl
  work : t.scan.work = s.scan.work := by rfl
  scanArgs : t.scan.args = s.scan.args := by rfl
  scanCapture : t.scan.capture = s.scan.capture := by rfl
  failed : t.scan.failed = s.scan.failed := by rfl
  internal : t.scan.internal = s.scan.internal := by rfl
  waiting : t.core.scanWaiting = s.core.scanWaiting := by rfl
  band : ∀ b, b.path = CipherPath.scan → (t.core.band = some b ↔ s.core.band = some b) := by exact fun _ _ => Iff.rfl
  settled : s.coreSettled → t.coreSettled := by exact fun h => h
  reserved : ∀ n < 512, (t.acct n).reserved = (s.acct n).reserved := by exact fun _ _ => rfl
  quota : s.quotaKept → t.quotaKept := by exact fun h => h

theorem Plain.refl : Plain s s := {}

theorem Plain.trans (h : Plain s t) (h' : Plain t u) : Plain s u where
  power := h'.power.trans h.power
  nrst := h'.nrst.trans h.nrst
  service1 := h'.service1.trans h.service1
  service2 := h'.service2.trans h.service2
  jobs i := (h.jobs i).trans (h'.jobs i)
  slots i := (h.slots i).trans (h'.slots i)
  draws := h.draws.trans h'.draws
  idle := h'.idle.trans h.idle
  flight := h'.flight.trans h.flight
  args := h'.args.trans h.args
  captured := h'.captured.trans h.captured
  scanState := h'.scanState.trans h.scanState
  work := h'.work.trans h.work
  scanArgs := h'.scanArgs.trans h.scanArgs
  scanCapture := h'.scanCapture.trans h.scanCapture
  failed := h'.failed.trans h.failed
  internal := h'.internal.trans h.internal
  waiting := h'.waiting.trans h.waiting
  band b hb := (h'.band b hb).trans (h.band b hb)
  settled hc := h'.settled (h.settled hc)
  reserved n hn := (h'.reserved n hn).trans (h.reserved n hn)
  quota hq := h'.quota (h.quota hq)

/-- To either branch. -/
theorem Plain.ite {p : Prop} [Decidable p] {v : State} (hu : p → Plain s u) (hv : ¬p → Plain s v) :
    Plain s (if p then u else v) := by
  split
  · exact hu ‹_›
  · exact hv ‹_›

/-- One operation for each entry of a list. -/
theorem Plain.foldl {α : Type} {f : State → α → State} (hf : ∀ {t x}, Plain s t → Plain s (f t x)) (l : List α) (h : Plain s t) :
    Plain s (l.foldl f t) := by
  induction l generalizing t with
  | nil => exact h
  | cons x rest ih => exact ih (hf h)

/-- What a match on a pair answers with. -/
theorem Plain.fst_of_eq {α : Type} {r : State × α} {x : α} (h : Plain s r.1) (e : r = (u, x)) : Plain s u := by rwa [e] at h

/-! ### Stored areas (R8) -/

theorem State.unlimited_false {n : Nat} : s.unlimited n = false ↔ n ≠ 0 ∧ (s.record n).unlimited = false := by
  simp [State.unlimited]

/-- The stored areas written keep used and reserved within the quota. -/
theorem State.quotaKept_store {a : AreaId} {st : Stored} (h : s.quotaKept)
    (hst : ∀ n < 512, n ≠ 0 → (entryAt st.accounts n .vacant).unlimited = false →
      (entryAt st.accounts n .vacant).used + (s.acct n).reserved ≤ (entryAt st.accounts n .vacant).quota) :
    (s.store a st).quotaKept := by
  obtain ⟨-, hshadow, hwrites⟩ := h
  refine ⟨fun n hn hu => ?_, hshadow, fun x hx => ?_⟩
  · obtain ⟨h0, hl⟩ := State.unlimited_false.mp hu
    exact hst n hn h0 hl
  · have hx' : x ∈ s.afterWrites ∨ x = (st, s.mem) := by
      dsimp only [State.store] at hx
      split at hx
      · exact .inl hx
      · simpa using hx
    rcases hx' with hx | rfl
    · exact hwrites x hx
    · exact fun n hn h0 hu => (Nat.le_add_right _ _).trans (hst n hn h0 hu)

/-- What the present records keep. -/
theorem State.quotaKept.record (h : s.quotaKept) {n : Nat} (hn : n < 512) (h0 : n ≠ 0) (hu : (s.record n).unlimited = false) :
    (s.record n).used + (s.acct n).reserved ≤ (s.record n).quota := h.1 n hn (State.unlimited_false.mpr ⟨h0, hu⟩)

/-- Another stored area is written. -/
theorem Plain.store (h : Plain s t) {a : AreaId} {st : Stored} (hst : st.accounts = t.stored.accounts) : Plain s (t.store a st) := by
  refine h.trans { quota := fun hq => State.quotaKept_store hq fun n hn h0 => ?_ }
  rw [hst]
  exact hq.record hn h0

theorem Plain.zeroCaptured (h : Plain s t) {x : Bool} : Plain s { t with zeroCaptured := x } := h.trans {}

/-- A record is written whose used and reserved lie within its quota. -/
theorem Plain.putRecord (h : Plain s t) {n : Nat} {r : AccountRecord}
    (hr : t.quotaKept → n < 512 → n ≠ 0 → r.unlimited = false → r.used + (t.acct n).reserved ≤ r.quota) :
    Plain s (t.putRecord n r) := by
  refine h.trans { quota := fun hq => State.quotaKept_store hq fun m hm h0 => ?_ }
  dsimp only
  rw [entryAt_putAt]
  split
  · rename_i e
    obtain ⟨rfl, -⟩ := e
    exact hr hq hm h0
  · exact hq.record hm h0

/-- A record is written that counts as many units as before. -/
theorem Plain.putRecord_same (h : Plain s t) {n : Nat} {r : AccountRecord} (hu : r.used = (t.record n).used)
    (hq : r.quota = (t.record n).quota) (hl : r.unlimited = (t.record n).unlimited) : Plain s (t.putRecord n r) :=
  h.putRecord fun hk hn h0 hr => by
    rw [hu, hq]
    exact hk.record hn h0 (hl ▸ hr)

theorem Plain.writeRecord_same (h : Plain s t) {n : Nat} {r : AccountRecord} (hu : r.used = (t.record n).used)
    (hq : r.quota = (t.record n).quota) (hl : r.unlimited = (t.record n).unlimited) : Plain s (t.writeRecord n r) :=
  h.putRecord_same hu hq hl

/-! ### The updates -/

theorem Plain.capture (h : Plain s t) {k : FaultKind} {l a : Option Nat} {d : Nat} : Plain s (t.capture k l a d) := h.trans {}

theorem Plain.captureMemory (h : Plain s t) {k : FaultKind} {l a : Nat} : Plain s (t.captureMemory k l a) := h.trans {}

theorem Plain.raise (h : Plain s t) {c : Cause} : Plain s (t.raise c) := h.trans {}

/-- An account's volatile part changes, but for its reserved. -/
theorem Plain.putAcct (h : Plain s t) {n : Nat} {a : AccountVolatile} (ha : a.reserved = (t.acct n).reserved := by rfl) :
    Plain s (t.putAcct n a) := by
  have hres : ∀ m, ((t.putAcct n a).acct m).reserved = (t.acct m).reserved := by
    intro m
    dsimp only [State.putAcct, State.acct]
    rw [entryAt_putAt]
    split
    · rename_i e
      obtain ⟨rfl, -⟩ := e
      exact ha
    · rfl
  refine h.trans { reserved := fun m _ => hres m, quota := fun hq => ⟨fun m hm hu => ?_, hq.2⟩ }
  rw [hres m]
  exact hq.1 m hm hu

theorem Plain.putSession (h : Plain s t) {i : Nat} {x : Session} : Plain s (t.putSession i x) := h.trans {}

theorem Plain.putJob (h : Plain s t) {i : Nat} {x : Job} (hx : (t.job i).alike x) : Plain s (t.putJob i x) := by
  refine h.trans { jobs := fun m => ?_ }
  dsimp only [State.putJob, State.job]
  rw [entryAt_putAt]
  split
  · rename_i e
    obtain ⟨rfl, -⟩ := e
    exact hx
  · exact {}

theorem Plain.putSlot (h : Plain s t) {i : Nat} {x : KeySlot} (hx : (t.slot i).alike x) : Plain s (t.putSlot i x) := by
  refine h.trans { slots := fun m => ?_ }
  dsimp only [State.putSlot, State.slot]
  rw [entryAt_putAt]
  split
  · rename_i e
    obtain ⟨rfl, -⟩ := e
    exact hx
  · exact {}

theorem Plain.hold (h : Plain s t) {x : Option EngineHold} : Plain s { t with hold := x } := h.trans {}

theorem Plain.setMem (h : Plain s t) {m : Memory} : Plain s (t.setMem m) := h.trans {}

theorem Plain.putCart (h : Plain s t) {n : Nat} {c : Cartridge} : Plain s (t.putCart n c) := h.trans {}

theorem Plain.link (h : Plain s t) {l : Link} : Plain s { t with link := l } := h.trans {}

theorem Plain.checkWait (h : Plain s t) {w : Option CheckWait} : Plain s { t with checkWait := w } := h.trans {}

theorem Plain.dev (h : Plain s t) {d : Device} : Plain s { t with dev := d } := h.trans {}

theorem Plain.levels (h : Plain s t) {x : BitVec 8} : Plain s { t with levels := x } := h.trans {}

/-- The print path changes, but for what it has in flight. -/
theorem Plain.print (h : Plain s t) {p : PrintPath} (hi : p.state = .idle ↔ t.print.state = .idle := by exact Iff.rfl)
    (hf : p.state.inFlight ↔ t.print.state.inFlight := by exact Iff.rfl) (ha : p.args = t.print.args := by rfl)
    (hc : p.capture = t.print.capture := by rfl) : Plain s { t with print := p } :=
  h.trans { idle := hi, flight := hf, args := ha, captured := hc }

/-- The counters and marks of the scan path change. -/
theorem Plain.scan (h : Plain s t) {p : ScanPath} (hs : p.state = t.scan.state := by rfl) (hw : p.work = t.scan.work := by rfl)
    (ha : p.args = t.scan.args := by rfl) (hc : p.capture = t.scan.capture := by rfl) (hf : p.failed = t.scan.failed := by rfl)
    (hi : p.internal = t.scan.internal := by rfl) : Plain s { t with scan := p } :=
  h.trans { scanState := hs, work := hw, scanArgs := ha, scanCapture := hc, failed := hf, internal := hi }

/-- The core changes, but for the scan path's bands, and no band waits for it that it can take. -/
theorem Plain.core (h : Plain s t) {c : Core} (hs : t.coreSettled → ({ t with core := c } : State).coreSettled)
    (hw : c.scanWaiting = t.core.scanWaiting := by rfl)
    (hb : ∀ b, b.path = CipherPath.scan → (c.band = some b ↔ t.core.band = some b) := by exact fun _ _ => Iff.rfl) :
    Plain s { t with core := c } := h.trans { settled := hs, waiting := hw, band := hb }

/-- A core with a band, or with a test under way, takes none. -/
theorem Core.busy {c : Core} (h : c.band.isSome = true ∨ c.periodicTest = true ∨ c.resumeTest = true) : c.canTake = false := by
  unfold Core.canTake
  rcases h with h | h | h
  · rw [Option.isSome_iff_exists] at h
    obtain ⟨b, hb⟩ := h
    rw [hb]
    rfl
  · simp [h]
  · simp [h]

theorem State.coreSettled_busy (h : s.core.band.isSome = true ∨ s.core.periodicTest = true ∨ s.core.resumeTest = true) :
    s.coreSettled := fun hc => by rw [Core.busy h] at hc; cases hc

theorem Core.orphaned_isNone (c : Core) (p : CipherPath) : (c.orphaned p).isNone = c.band.isNone := by
  unfold Core.orphaned
  split
  · rename_i e; rw [e]
  · rename_i e
    rw [e]
    split <;> rfl

theorem State.coreSettled.dropCore (h : s.coreSettled) (p : CipherPath) : (s.dropCore p).coreSettled := by
  intro hc
  have hcan : s.core.canTake = true := by
    have he : (s.dropCore p).core.canTake = s.core.canTake := by
      cases p <;> (unfold Core.canTake State.dropCore; dsimp only []; rw [Core.orphaned_isNone])
    exact he ▸ hc
  obtain ⟨hp, hs⟩ := h hcan
  cases p
  · exact ⟨rfl, hs⟩
  · exact ⟨hp, rfl⟩

theorem Plain.dropPrint (h : Plain s t) : Plain s (t.dropCore .print) := by
  refine h.core (fun hs => hs.dropCore .print) (hb := fun b hb => ?_)
  show (t.core.orphaned .print) = some b ↔ _
  unfold Core.orphaned
  split
  · rename_i e; rw [e]
  · rename_i c e
    rw [e]
    split
    · rename_i hc
      have hne : ∀ x : CoreBand, x.path = c.path → some x = some b → False := fun x hx e => by
        have hpath : c.path = b.path := hx.symm.trans (congrArg CoreBand.path (Option.some.inj e))
        rw [hc, hb] at hpath
        cases hpath
      exact ⟨fun e => (hne { c with orphan := true } rfl e).elim, fun e => (hne c rfl e).elim⟩
    · rfl

/-! ### Memory -/

theorem Plain.writeBytes (h : Plain s t) {a : Nat} {l : List Byte} : Plain s (t.writeBytes a l).1 := by
  rw [State.writeBytes_frame]; exact h.trans {}

theorem Plain.writeWords (h : Plain s t) {a : Nat} {l : List Word} : Plain s (t.writeWords a l).1 := by
  rw [State.writeWords_frame]; exact h.trans {}

theorem Plain.writeControlResult (h : Plain s t) {a : Nat} {l : List Word} : Plain s (t.writeControlResult a l) := by
  unfold State.writeControlResult
  split <;> rename_i e
  · exact h.writeWords.fst_of_eq e
  · exact (h.writeWords.fst_of_eq e).captureMemory

theorem Plain.writePrintResult (h : Plain s t) {a : Nat} {l : List Word} : Plain s (t.writePrintResult a l) := by
  unfold State.writePrintResult
  split <;> rename_i e
  · exact h.writeWords.fst_of_eq e
  · exact (h.writeWords.fst_of_eq e).captureMemory

theorem Plain.writeEntries (h : Plain s t) {lane : Fin 4} {a : Nat} {l : List (List Word)} : Plain s (t.writeEntries lane a l).1 := by
  induction l generalizing t a with
  | nil => exact h
  | cons e rest ih =>
    simp only [State.writeEntries]
    split <;> rename_i he
    · exact (h.writeWords.fst_of_eq he).captureMemory
    · exact ih (h.writeWords.fst_of_eq he)

theorem Plain.writeTicketWord (h : Plain s t) {lane : Fin 4} {a : Nat} {w : Word} : Plain s (t.writeTicketWord lane a w) := by
  rcases t.writeTicketWord_cases lane a w with ⟨-, e⟩ | ⟨-, e⟩ <;> rw [e]
  · exact h.captureMemory
  · exact h.setMem

theorem Plain.closeWords (h : Plain s t) {lane : Fin 4} {a : Nat} {code : ReturnCode} {w13 w14 : Nat} {x y : Bool} :
    Plain s (t.closeWords lane a code w13 w14 x y) := h.writeTicketWord.writeTicketWord.writeTicketWord

/-! ### Tickets of lanes 0 and 3 -/

/-- A lane that serves neither path changes. -/
theorem Plain.putLane (h : Plain s t) {n : Fin 4} {l : Lane} (h1 : n ≠ 1) (h2 : n ≠ 2) : Plain s (t.putLane n l) :=
  h.trans { service1 := by rw [State.putLane_lane_other _ _ _ _ h1], service2 := by rw [State.putLane_lane_other _ _ _ _ h2] }

/-- The queue of a lane changes. -/
theorem Plain.putQueue (h : Plain s t) {n : Fin 4} {q : List Nat} : Plain s (t.putLane n { t.lane n with queue := q }) := by
  have hs : ∀ m, ((t.putLane n { t.lane n with queue := q }).lane m).service = (t.lane m).service := by
    intro m
    by_cases hm : n = m
    · rw [hm, State.putLane_lane_same]
    · rw [State.putLane_lane_other _ _ _ _ hm]
  exact h.trans { service1 := hs 1, service2 := hs 2 }

theorem Plain.close (h : Plain s t) {n : Fin 4} {code : ReturnCode} {w13 w14 : Nat} {x y : Bool} (h1 : n ≠ 1) (h2 : n ≠ 2) :
    Plain s (t.close n code w13 w14 x y) := by
  unfold State.close
  split
  · exact h
  · exact (h.closeWords.raise).putLane h1 h2

theorem Plain.close0 (h : Plain s t) {code : ReturnCode} {w13 w14 : Nat} {x y : Bool} : Plain s (t.close 0 code w13 w14 x y) :=
  h.close (by decide) (by decide)

theorem Plain.close3 (h : Plain s t) {code : ReturnCode} {w13 w14 : Nat} {x y : Bool} : Plain s (t.close 3 code w13 w14 x y) :=
  h.close (by decide) (by decide)

theorem Plain.refuse0 (h : Plain s t) {r : Refused} : Plain s (t.refuse 0 r) := h.close0

/-! ### Activity and accounts -/

theorem Plain.touchSession (h : Plain s t) {j : Handle} : Plain s (t.touchSession j) := by
  unfold State.touchSession
  split
  · exact h
  · exact h.putSession

theorem Plain.touchOptSession (h : Plain s t) {j : Option Handle} : Plain s (t.touchOptSession j) := by
  cases j with
  | none => exact h
  | some j => exact h.touchSession

theorem Plain.touchJob (h : Plain s t) {j : Handle} : Plain s (t.touchJob j) := by
  unfold State.touchJob
  split
  · exact h
  · exact h.touchOptSession

theorem Plain.touchHold (h : Plain s t) {j : Handle} : Plain s (t.touchHold j) := by
  unfold State.touchHold
  split
  · exact h
  · exact .ite (fun _ => h.hold) fun _ => h

theorem Plain.admitted (h : Plain s t) {j : Handle} : Plain s (t.admitted j) := h.touchJob.touchHold

/-- R2, R3: reading a record changes no account's units but account 0's, which is unlimited. -/
theorem Plain.readAccount (h : Plain s t) {n : Nat} : Plain s (t.readAccount n) := by
  have hzero : Plain s (t.writeRecord 0 (t.record 0).zeroed) := h.putRecord fun _ _ h0 => absurd rfl h0
  rcases t.readAccount_cases n with ⟨-, e⟩ | ⟨-, -, ⟨-, e⟩ | ⟨-, e⟩⟩ | ⟨-, -, ⟨-, e⟩ | ⟨-, e⟩⟩ <;> rw [e]
  · exact h
  · exact hzero
  · exact hzero.capture.zeroCaptured
  · exact h
  · exact h.putAcct.capture

theorem Plain.quotaStop (h : Plain s t) {i : Nat} : Plain s (t.quotaStop i) := by
  refine .ite (fun ho => h.putJob { free_iff := ?_ }) fun _ => h
  rw [ho]
  exact ⟨nofun, nofun⟩

theorem Plain.releaseHoldOf (h : Plain s t) {j : Handle} : Plain s (t.releaseHoldOf j) := by
  unfold State.releaseHoldOf
  split
  · exact h
  · exact .ite (fun _ => h.hold) fun _ => h

/-- R106: the page number of a slot counts on. -/
theorem Plain.takePageNumber (h : Plain s t) {k : SlotHandle} : Plain s (t.takePageNumber k).1 := h.putSlot {}

/-! ### Supplies -/

theorem Plain.changeCart (h : Plain s t) {n : Nat} {c : Cartridge} : Plain s (t.changeCart n c) :=
  .ite (fun _ => h.putCart.raise) fun _ => h.putCart

theorem Plain.writeKnown (h : Plain s t) {l : List KnownCartridge} : Plain s (t.writeKnown l) := h.store rfl

theorem Plain.writeMeters (h : Plain s t) {m : Meters} : Plain s (t.writeMeters m) := h.store rfl

theorem Plain.listWrite (h : Plain s t) {n : Nat} : Plain s (t.listWrite n) := by
  dsimp only [State.listWrite]
  split
  · exact h.writeKnown
  · exact h

theorem Plain.requestCheck (h : Plain s t) {n : Nat} {w : Bool} : Plain s (t.requestCheck n w) := .ite (fun _ => h.link) fun _ => h

theorem Plain.requestChecks (h : Plain s t) (l : List Nat) : Plain s (l.foldl (fun s n => s.requestCheck n false) t) :=
  Plain.foldl (fun h => h.requestCheck) l h

theorem Plain.wantRecord (h : Plain s t) {n : Nat} : Plain s (t.wantRecord n) :=
  .ite (fun _ => .ite (fun _ => h.putCart) fun _ => h.link) fun _ => h

theorem Plain.deductTrusted (h : Plain s t) {n m : Nat} : Plain s (t.deductTrusted n m) := by
  unfold State.deductTrusted
  extract_lets c permille
  split
  · exact h
  · extract_lets w changed low
    have hlow : Plain s low := .ite (fun _ => h.changeCart.wantRecord) fun _ => h.changeCart
    exact .ite (fun _ => hlow.wantRecord) fun _ => hlow

theorem Plain.deductUntrusted (h : Plain s t) {n m : Nat} : Plain s (t.deductUntrusted n m) := by
  unfold State.deductUntrusted
  extract_lets c u
  have hu : Plain s u := by
    dsimp only [u]
    split
    · exact h
    · exact h.changeCart
  clear_value u
  split
  · exact hu
  · exact .ite (fun _ => hu.writeKnown) fun _ => hu

theorem Plain.deductSlot (h : Plain s t) {n m : Nat} : Plain s (t.deductSlot n m) :=
  .ite (fun _ => h.deductTrusted) fun _ => h.deductUntrusted

theorem Plain.deduct (h : Plain s t) {c : Bool} {m : PerPlane Nat} : Plain s (t.deduct c m) := by
  dsimp only [State.deduct]
  split
  · exact h.deductSlot.deductSlot.deductSlot.deductSlot.deductSlot
  · exact h.deductSlot.deductSlot

theorem Plain.endCheckWait (h : Plain s t) : Plain s t.endCheckWait := by
  unfold State.endCheckWait
  split
  · exact h
  · split
    · exact h
    · exact (h.writeEntries.close3).checkWait

theorem Plain.countNotChecked (h : Plain s t) {n : Nat} : Plain s (t.countNotChecked n) := by
  unfold State.countNotChecked
  split
  · exact h
  · exact h.checkWait

theorem Plain.removeProcedures (h : Plain s t) {n : Nat} : Plain s (t.removeProcedures n) := by
  unfold State.removeProcedures
  extract_lets mine u l link
  have hu : Plain s u := .ite (fun _ => h.countNotChecked) fun _ => h
  exact hu.link

theorem Plain.doorOpened (h : Plain s t) {n : Nat} : Plain s (t.doorOpened n) := by
  unfold State.doorOpened
  extract_lets u c v
  have hu : Plain s u := .ite (fun _ => h.listWrite) fun _ => h
  exact hu.changeCart.removeProcedures

theorem Plain.doorChange (h : Plain s t) {old new : BitVec 8} {n : Nat} : Plain s (t.doorChange old new n) :=
  .ite (fun _ => (Plain.foldl (fun h => h.doorOpened) _ h).endCheckWait) fun _ =>
    .ite (fun _ => h.requestChecks _) fun _ => h

theorem Plain.resupply (h : Plain s t) {old new : SupplySettings} {n : Nat} : Plain s (State.resupply old new t n) := by
  unfold State.resupply
  extract_lets c
  split
  · exact h.changeCart
  · refine .ite (fun _ => ?_) fun _ => h.changeCart
    extract_lets w changed wanted
    have hw : Plain s wanted := .ite (fun _ => h.changeCart.wantRecord) fun _ => h.changeCart
    exact .ite (fun _ => hw.wantRecord) fun _ => hw

/-! ### The Supply Link -/

theorem Plain.putHead (h : Plain s t) {p : Procedure} : Plain s (t.putHead p) := h.link

theorem Plain.reportWaiter (h : Plain s t) {p : Procedure} : Plain s (t.reportWaiter p) := by
  unfold State.reportWaiter
  split
  · split
    · exact h
    · exact .ite (fun _ => h.checkWait) fun _ => h
  · exact h

theorem Plain.endProcedure (h : Plain s t) {p : Procedure} : Plain s (t.endProcedure p) := h.reportWaiter.link

theorem Plain.beginTransaction (h : Plain s t) {n : Nat} {c : LinkCommand} {l : List Byte} : Plain s (t.beginTransaction n c l) := h.link

theorem Plain.checkAbsent (h : Plain s t) {p : Procedure} : Plain s (t.checkAbsent p) := h.changeCart.endProcedure

theorem Plain.checkProved (h : Plain s t) {p : Procedure} {x : Identity} {m : Bool} : Plain s (t.checkProved p x m) := by
  unfold State.checkProved
  extract_lets set v auth reason u
  have hu : Plain s u := h.changeCart
  clear_value u
  exact .ite (fun _ => hu.endProcedure) fun _ =>
    .ite (fun _ => hu.listWrite.endProcedure.wantRecord) fun _ => hu.listWrite.endProcedure

theorem Plain.recordEnds (h : Plain s t) {p : Procedure} : Plain s (t.recordEnds p) :=
  .ite (fun _ => h.putCart.endProcedure.wantRecord) fun _ => h.putCart.endProcedure

theorem Plain.recordAnswered (h : Plain s t) {p : Procedure} {r u : Nat} : Plain s (t.recordAnswered p r u) := by
  unfold State.recordAnswered
  extract_lets permille
  split
  · exact h.recordEnds
  · extract_lets r' w changed wanted listed
    have hw : Plain s wanted := .ite (fun _ => h.changeCart.wantRecord) fun _ => h.changeCart
    have hl : Plain s listed := .ite (fun _ => hw.listWrite) fun _ => hw
    exact hl.recordEnds

theorem Plain.recordUnanswered (h : Plain s t) {p : Procedure} : Plain s (t.recordUnanswered p) :=
  (Plain.ite (fun _ => h.listWrite.changeCart) fun _ => h).recordEnds

theorem Plain.transactionEnds (h : Plain s t) {n : Nat} {r : Option (List Byte)} : Plain s (t.transactionEnds n r) := by
  unfold State.transactionEnds
  split
  · exact h.link
  · split
    · split
      · exact h.recordUnanswered
      · exact h.recordAnswered
    · split
      · split
        · exact h.changeCart.endProcedure
        · exact h.checkProved
      · split
        · exact h.checkAbsent
        · exact .ite (fun _ => h.putHead.beginTransaction) fun _ => h.changeCart.endProcedure

theorem Plain.attemptEnds (h : Plain s t) {x : Transaction} {e : AttemptEnd} : Plain s (t.attemptEnds x e) := by
  unfold State.attemptEnds
  split
  · exact h.link
  · split
    · exact h.transactionEnds
    · exact h.transactionEnds
    · exact .ite (fun _ => h.link) fun _ => h.transactionEnds

theorem Plain.responseEnds (h : Plain s t) {f : Transaction → Option AttemptEnd} : Plain s (t.responseEnds f) := by
  unfold State.responseEnds
  split
  · split
    · exact h
    · exact h.attemptEnds
  · exact h

theorem Plain.startCheck (h : Plain s t) {p : Procedure} : Plain s (t.startCheck p) := by
  unfold State.startCheck
  extract_lets listed c changed p' drawn headed l started
  have hl : Plain s listed := .ite (fun _ => h.listWrite) fun _ => h
  have hd : Plain s drawn := hl.changeCart.trans { draws := Nat.le_succ _ }
  have hs : Plain s started := hd.putHead.link
  exact .ite (fun _ => hs.checkAbsent) fun _ => hs.beginTransaction

theorem Plain.startRecord (h : Plain s t) {p : Procedure} : Plain s (t.startRecord p) := by
  unfold State.startRecord
  extract_lets c r u p' headed
  have hh : Plain s headed := h.putHead
  exact .ite (fun _ => .ite (fun _ => hh.recordUnanswered) fun _ => hh.beginTransaction) fun _ => h.putHead.endProcedure

theorem Plain.startProcedure (h : Plain s t) : Plain s t.startProcedure := by
  unfold State.startProcedure
  split
  · split
    · exact h
    · split
      · exact h
      · split
        · exact h.startCheck
        · exact h.startRecord
  · exact h

theorem Plain.lineStuck (h : Plain s t) : Plain s t.lineStuck := by
  unfold State.lineStuck
  split
  · extract_lets x u l v
    have hv : Plain s v := h.capture.link
    clear_value x
    split
    · exact hv
    · exact hv.transactionEnds
  · exact h

end Sys2Proof.Machine
end

