-- ==== Sys2Proof/Proofs/Ops.lean ====
section
/-! The operations that the laws of units, slots and bands look at, said once, each with what holds where the model takes it; and the
runs of them. A run carries what is owed meanwhile: slots lost under work not yet ended, settlements whose path is not idle yet, and the
job whose slots are being taken from it. -/

namespace Sys2Proof.Machine

/-! ### What is owed in the middle of a command -/

/-- What stands open in the middle of a command. -/
structure Debt where
  /-- handles that have lost their slot, whose work is not ended yet -/
  lost : SlotHandle → Prop
  /-- the impression in flight is settled and its path not idle yet -/
  print : Bool
  /-- the page in flight is settled and its path not idle yet -/
  scan : Bool
  /-- the job that ends, and the slots still to be taken from it -/
  ending : Option (Nat × List SlotHandle)
  /-- job entries may be taken -/
  opens : Bool
  /-- page holds may be taken and settled -/
  holds : Bool
  /-- what a band that comes to the core comes with -/
  presents : Prop

/-- Nothing is owed. -/
def Debt.clear : Debt :=
  { lost := fun _ => False, print := false, scan := false, ending := none, opens := true, holds := true, presents := True }

/-- The scan path has no band that a lost slot could fail: its work has failed already, is not begun, or has none at the core. -/
def State.bandless (s : State) : Prop :=
  s.scan.failed.isSome = true ∨ s.scan.state = .idle ∨ s.scan.state = .waiting ∨ ∀ i < 2, (s.buffer i).cond ≠ .ciphering

/-- The ticket in service on a lane has begun. -/
def State.begun (s : State) (n : Fin 4) : Prop := ∃ k, (s.lane n).service = some k ∧ k.begun = true

/-- The scan path is between the begin of its work and its end. -/
def State.scanBusy (s : State) : Prop := s.scan.state = .scanning ∨ s.scan.state = .ciphering

/-- The key of the scan path's work is granted, and, of Decipher Bands, its job is authorised. -/
def State.presentable (s : State) : Prop :=
  ∃ a, s.scan.args = some a ∧ ((s.scan.state = .scanning ∧ s.keyGranted a.slot a.job .scan = true) ∨
    (s.keyGranted a.slot a.job s.scan.work.use = true ∧ (s.scan.work = .decipher → s.authorised a.job a.slot = true)))

/-- Both internal buffers are erased. -/
def erasedBuffers : Vector Buffer 2 := Vector.replicate 2 .erased

/-- R33 step 5: a job that has no slots left goes. -/
def State.jobGone (s : State) (i : Nat) : State := (s.putJob i { s.job i with slots := [] }).freeJob i

/-- R108: a slot at its job's end, before the work under it. -/
def State.slotLeaves (s : State) (k : SlotHandle) : State :=
  if (s.slot k.idx).keep = 0 then s.wipeSlot k.idx
  else
    s.putSlot k.idx { s.slot k.idx with state := .held, job := none, expiry := some (s.dev.clock + (s.slot k.idx).keep * 60) }

/-- R32: units granted to a job. -/
def State.grantTo (s : State) (i grant : Nat) : State :=
  (s.putJob i { s.job i with state := .opened, free := (s.job i).free + grant }).addReserved (s.job i).account grant

/-- One operation. What `K` guards is known where the laws of units hold before the command. -/
inductive Op (K : Prop) : Debt × State → Debt × State → Prop
  | plain {D : Debt} {s t : State} (h : Plain s t) : Op K (D, s) (D, t)
  | relax {D : Debt} {s : State} (L : SlotHandle → Prop)
      (h : ∀ a, s.scan.args = some a → D.lost a.slot → L a.slot ∨ s.bandless) : Op K (D, s) ({ D with lost := L }, s)
  | lane {D : Debt} {s : State} (n : Fin 4) (l : Lane) (h1 : K → n = 1 → s.scan.state = .idle) (h2 : K → n = 2 → s.print.state = .idle) :
      Op K (D, s) (D, s.putLane n l)
  -- the print path
  | printTicket {D : Debt} {s : State} (p : PrintPath) (h : K → s.print.state = .idle) (hp : p.state = s.print.state) :
      Op K (D, s) (D, { s with print := p })
  | printWaits {D : Debt} {s : State} (p : PrintPath) (h : K → ¬s.print.state.inFlight) (hb : K → s.print.state = .idle → s.begun 2) (hp : p.state = .waiting) :
      Op K (D, s) (D, { s with print := p })
  | printHold {D : Debt} {s u v : State} (a : PrintArgs) (cap : PrintCapture) (i : Nat) (p : PrintPath) (hD : D.print = false ∧ D.ending = none ∧ D.holds = true)
      (h : K → ¬s.print.state.inFlight) (hb : K → s.print.state = .idle → s.begun 2) (hj : s.jobOf a.job = some i)
      (hu : s.requestHold i .print (cap.hold a.colour) = some u) (hv : Plain u v) (hp : p.state = .preparing) (hpa : p.args = some a)
      (hpc : p.capture = some cap) : Op K (D, s) (D, { v with print := p })
  | settlePrint {D : Debt} {s : State} (a : PrintArgs) (cap : PrintCapture) (d : Bool) (c : AccountCharge)
      (hD : D.print = false ∧ D.ending = none ∧ D.holds = true) (h : s.print.state.inFlight) (ha : s.print.args = some a) (hc : s.print.capture = some cap)
      (hle : c.charge ≤ cap.hold a.colour) : Op K (D, s) ({ D with print := true }, s.settleHold a.job .print d c)
  | closePrint {D : Debt} {s : State} (p : PrintPath) (code : ReturnCode) (w13 w14 : Nat) (e x : Bool)
      (h : K → ¬s.print.state.inFlight ∨ D.print = true) (hp : p.state = .idle) :
      Op K (D, s) ({ D with print := false }, { s.close 2 code w13 w14 e x with print := p })
  -- the scan path
  | scanTicket {D : Debt} {s : State} (p : ScanPath) (h : K → s.scan.state = .idle) (hp : p.state = .idle) (hw : p.work = .page)
      (hf : p.failed = none) (hi : p.internal = erasedBuffers) : Op K (D, s) (D, { s with scan := p })
  | scanWaits {D : Debt} {s : State} (h : K → s.scan.state = .idle ∨ s.scan.state = .waiting) (hb : K → s.scan.state = .idle → s.begun 1)
      (hw : K → s.scan.state = .idle → s.scan.work = .page) :
      Op K (D, s) (D, { s with scan := { s.scan with state := .waiting } })
  | scanHold {D : Debt} {s u v : State} (a : ScanArgs) (i n : Nat) (p : ScanPath) (hD : D.scan = false ∧ D.ending = none ∧ D.holds = true)
      (h : K → s.scan.state = .idle ∨ s.scan.state = .waiting) (hb : K → s.scan.state = .idle → s.begun 1)
      (hpage : K → s.scan.state = .idle → s.scan.work = .page) (hj : s.jobOf a.job = some i)
      (hu : s.requestHold i .scan n = some u) (hv : Plain u v) (hp : p.state = .scanning) (hw : p.work = s.scan.work) (hpa : p.args = some a)
      (hpc : p.capture = some n) (hf : p.failed = none) (hi : p.internal = s.scan.internal) : Op K (D, s) (D, { v with scan := p })
  | settleScan {D : Debt} {s : State} (a : ScanArgs) (d : Bool) (c : AccountCharge) (hD : D.scan = false ∧ D.ending = none ∧ D.holds = true)
      (h : K → s.scan.state = .scanning) (hq : K → s.bandless) (ha : s.scan.args = some a) (hle : c.charge ≤ s.scan.capture.getD 0) :
      Op K (D, s) ({ D with scan := true }, s.settleHold a.job .scan d c)
  | closeScan {D : Debt} {s : State} (code : ReturnCode) (w13 w14 : Nat) (e x o : Bool) (ho : K → o = false)
      (h : K → s.scan.state ≠ .scanning ∨ D.scan = true) : Op K (D, s) ({ D with scan := o }, (s.close 1 code w13 w14 e x).scanIdle)
  | fails {D : Debt} {s : State} (code : ReturnCode) (drain : Bool) (h : s.scanBusy) (hc : code ≠ .ok) :
      Op K (D, s)
        (D, (({ s with scan := { s.scan with failed := some code, drain := drain } } : State).eraseUnwritten).dropCore .scan)
  | beginCipher {D : Debt} {s : State} (p : ScanPath) (h : K → s.scan.state = .idle) (hb : K → s.begun 1) (hp : p.state = .ciphering)
      (hw : p.work ≠ .page) (hf : p.failed = none) (hi : p.internal = erasedBuffers) : Op K (D, s) (D, { s with scan := p })
  | fill {D : Debt} {s : State} (i : Nat) (b : Buffer) (hs : K → s.scanBusy) (hf : s.scan.failed = none)
      (hb : (s.buffer i).cond = .free ∨ (s.buffer i).cond = .filling) (hc : b.cond = .filling) : Op K (D, s) (D, s.putBuffer i b)
  | present {D : Debt} {s : State} (i : Nat) (b : Buffer) (a : ScanArgs) (hD : D.scan = false ∧ (K → D.presents)) (hs : s.scanBusy) (hf : s.scan.failed = none)
      (hb : (s.buffer i).cond = .filling) (hc : b.cond = .ciphering) (ha : s.scan.args = some a)
      (hg : K → (s.scan.state = .scanning ∧ s.keyGranted a.slot a.job .scan = true) ∨ s.keyGranted a.slot a.job s.scan.work.use = true) : Op K (D, s) (D, (s.putBuffer i b).presentScan i)
  | sealed {D : Debt} {s : State} (x : CoreBand) (a : ScanArgs) (b : Buffer) (n : Nat) (hD : ∀ k, ¬D.lost k) (hx : s.core.band = some x)
      (hp : x.path = .scan) (ho : x.orphan = false) (ha : s.scan.args = some a) (hc : b.cond = .ciphered)
      (hd : ∃ nonce band, if s.scan.work = .decipher then decipherBand (s.slotKey a.slot) nonce band = some b.data
        else b.data = encipherBand (s.slotKey a.slot) nonce band) :
      Op K (D, s) (D, ({ s with core := { s.core with band := none, count := n } } : State).putBuffer x.idx b)
  | startWrite {D : Debt} {s : State} : Op K (D, s) (D, s.startWrite)
  | rewrite {D : Debt} {s : State} (i : Nat) (b : Buffer) (hw : (s.buffer i).isWriting = true) (hb : b.isWriting = true)
      (hd : b.data = (s.buffer i).data) : Op K (D, s) (D, s.putBuffer i b)
  | erase {D : Debt} {s : State} (i : Nat) (hw : (s.buffer i).isWriting = true) : Op K (D, s) (D, s.putBuffer i .erased)
  | coreFree {D : Debt} {s : State} (c : Core) (hb : c.band = none) (hw : c.scanWaiting = s.core.scanWaiting ∨ c.scanWaiting = none) :
      Op K (D, s) (D, { s with core := c })
  | printCore {D : Debt} {s : State} (c : Core) (hw : c.scanWaiting = s.core.scanWaiting)
      (hb : ∀ b, b.path = CipherPath.scan → (c.band = some b ↔ s.core.band = some b)) : Op K (D, s) (D, { s with core := c })
  | pumpScan {D : Debt} {s : State} (i : Nat) (hc : s.core.band = none) (hw : s.core.scanWaiting = some i) :
      Op K (D, s) (D, { s with core := { s.core with
        band := some { path := .scan, idx := i, slot := s.scanSlot, orphan := false }, scanWaiting := s.nextScanBand i,
        lastServed := .scan } })
  -- jobs
  | releaseFree {D : Debt} {s : State} (i : Nat) (hD : D.ending = none) (hi : (s.job i).state ≠ .free) : Op K (D, s) (D, s.releaseFree i)
  | beginEnd {D : Debt} {s : State} (i : Nat) (hD : D.ending = none) (hi : (s.job i).state ≠ .free) (hf : (s.job i).free = 0)
      (hp : (s.job i).printFlight = false) (hs : (s.job i).scanFlight = false) :
      Op K (D, s) ({ D with ending := some (i, (s.job i).slots) }, s)
  | endSlot {D : Debt} {s : State} (i : Nat) (k : SlotHandle) (rest : List SlotHandle) (hD : D.ending = some (i, k :: rest)) :
      Op K (D, s) ({ D with ending := some (i, rest), lost := fun h => D.lost h ∨ (h = k ∧ s.scan.state = .ciphering) }, s.slotLeaves k)
  | endJob {D : Debt} {s : State} (i : Nat) (hD : D.ending = some (i, [])) : Op K (D, s) ({ D with ending := none }, s.jobGone i)
  | grant {D : Debt} {s : State} (i grant : Nat) (hD : D.ending = none) (hi : (s.job i).state ≠ .free)
      (hg : ∀ n, s.available (s.job i).account = some n → grant ≤ n) : Op K (D, s) (D, s.grantTo i grant)
  | openJob {D : Debt} {s : State} (a : OpenJobArgs) (i : Nat) (hD : D.ending = none ∧ D.opens = true) (hi : s.freeEntry = some i)
      (ha : a.account < 512) : Op K (D, s) (D, s.openJobEntry a i)
  | vacate {D : Debt} {s : State} (n : Nat) (h : ∀ i, (s.job i).state ≠ .free → (s.job i).account ≠ n) :
      Op K (D, s) (D, s.writeRecord n .vacant)
  -- slots
  | wipe {D : Debt} {s : State} (i : Nat) (hD : D.ending = none) :
      Op K (D, s) ({ D with lost := fun h => D.lost h ∨ h = { idx := i, gen := (s.slot i).gen } }, s.wipeSlot i)
  | openSlot {D : Debt} {s : State} (i : Nat) (j : Handle) (uses : BitVec 4) (keep : Bool) (hD : D.ending = none)
      (hi : s.freeSlot = some i) (hj : s.jobOf j = some j.idx) (hl : (s.job j.idx).slots.length < 4) :
      Op K (D, s) (D, s.openSlotEntry i j uses keep)
  | attachSlot {D : Debt} {s : State} (k : SlotHandle) (j : Handle) (hD : D.ending = none) (hk : s.slotOf k = some k.idx)
      (hh : (s.slot k.idx).state = .held) (ho : (s.slot k.idx).owner = some (s.jobAccount j)) (hj : s.jobOf j = some j.idx)
      (hl : (s.job j.idx).slots.length < 4) : Op K (D, s) (D, s.attachSlotEntry k j)

/-- A run of operations. -/
def Ops (K : Prop) : Debt × State → Debt × State → Prop := Relation.ReflTransGen (Op K)

end Sys2Proof.Machine
end

