-- ==== Sys2Proof/Proofs/OpRuns1.lean ====
section
/-! Jobs, sessions, the print path and the ends of the scan path's work as runs of operations. -/

namespace Sys2Proof.Machine

variable {K : Prop} {x y z : Debt × State} {D : Debt} {s t u : State}

/-! ### Runs -/

theorem Ops.refl : Ops K x x := Relation.ReflTransGen.refl

theorem Ops.op (h : Ops K x y) (o : Op K y z) : Ops K x z := Relation.ReflTransGen.tail h o

theorem Ops.trans (h : Ops K x y) (h' : Ops K y z) : Ops K x z := Relation.ReflTransGen.trans h h'

theorem Ops.plain (h : Ops K x (D, t)) (hp : Plain t u) : Ops K x (D, u) := h.op (.plain hp)

theorem Ops.ite {p : Prop} [Decidable p] {v : State} (hu : p → Ops K x (D, u)) (hv : ¬p → Ops K x (D, v)) :
    Ops K x (D, if p then u else v) := by
  split
  · exact hu ‹_›
  · exact hv ‹_›

/-- What every operation keeps, a run keeps. -/
theorem Ops.keeps {P : Debt × State → Prop} (h : Ops K x y) (hx : P x) (hop : ∀ {a b}, Op K a b → P a → P b) : P y := by
  induction h with
  | refl => exact hx
  | tail _ o ih => exact hop o ih

/-- Nothing is owed but, maybe, work under lost slots. -/
structure Debt.paid (D : Debt) : Prop where
  print : D.print = false
  scan : D.scan = false
  ending : D.ending = none

/-- Nothing such is owed, and pages may be admitted and settled. -/
structure Debt.rests (D : Debt) : Prop extends toPaid : D.paid where
  holds : D.holds = true

theorem Debt.clear_rests : Debt.clear.rests := ⟨⟨rfl, rfl, rfl⟩, rfl⟩

theorem Debt.print_paid (h : D.print = false) : { D with print := false } = D := by rw [← h]

theorem Debt.scan_paid (h : D.scan = false) : { D with scan := false } = D := by rw [← h]

theorem Debt.ending_paid (h : D.ending = none) : { D with ending := none } = D := by rw [← h]

/-! ### Handles -/

theorem Plain.jobOf (h : Plain s t) (j : Handle) : t.jobOf j = s.jobOf j := by
  have hj := h.jobs j.idx
  simp only [State.jobOf, hj.gen, ne_eq, hj.free_iff]

theorem Plain.slotOf (h : Plain s t) (k : SlotHandle) : t.slotOf k = s.slotOf k := by
  have hk := h.slots k.idx
  simp only [State.slotOf, hk.gen, hk.state]

theorem Plain.keyGranted (h : Plain s t) (k : SlotHandle) (j : Handle) (use : KeyUse) : t.keyGranted k j use = s.keyGranted k j use := by
  unfold State.keyGranted
  rw [h.slotOf]
  split
  · rfl
  · rename_i i _
    have hi := h.slots i
    rw [hi.state, hi.job, KeySlot.holds, hi.uses]
    rfl

theorem Plain.begun (h : Plain s t) (hb : s.begun 2) : t.begun 2 := by
  obtain ⟨k, hk, e⟩ := hb
  exact ⟨k, h.service2.trans hk, e⟩

theorem Plain.begun1 (h : Plain s t) (hb : s.begun 1) : t.begun 1 := by
  obtain ⟨k, hk, e⟩ := hb
  exact ⟨k, h.service1.trans hk, e⟩

theorem State.jobOf_of_refusal {h : Handle} {b : Bool} (hr : s.jobRefusal h b = none) : s.jobOf h = some h.idx := by
  unfold State.jobRefusal at hr
  cases hj : s.jobOf h with
  | none => rw [hj] at hr; cases hr
  | some i => rw [(State.jobOf_idx hj).1]

/-- The entries of the job table are those of its 32 places. -/
theorem State.job_lt {i : Nat} (h : (s.job i).state ≠ .free) : i < 32 := by
  by_contra hi
  exact h (by rw [State.job, entryAt_beyond _ _ _ (by omega)]; rfl)

/-! ### The end of a cipher ticket's work -/

theorem Ops.closeScan (h : Ops K x (D, t)) (hs : K → t.scan.state ≠ .scanning) (hD : K → D.scan = false)
    {code : ReturnCode} {w13 w14 : Nat} {e f : Bool} : Ops K x (D, (t.close 1 code w13 w14 e f).scanIdle) :=
  h.op (.closeScan code w13 w14 e f D.scan hD fun hk => .inl (hs hk))

theorem Ops.closeCipher (h : Ops K x (D, t)) (hs : K → t.scan.state ≠ .scanning) (hD : K → D.scan = false) {code : ReturnCode} :
    Ops K x (D, t.closeCipher code) := by
  unfold State.closeCipher
  split
  · exact h
  · exact h.closeScan hs hD
  · exact h.closeScan hs hD

theorem Ops.failCipher (h : Ops K x (D, t)) (hD : K → D.scan = false) {code : ReturnCode} (hc : code ≠ .ok := by nofun) :
    Ops K x (D, t.failCipher code) := by
  refine .ite (fun hs => ?_) fun _ => h
  have hf := h.op (.fails code t.scan.drain (.inr hs.1) hc)
  refine .ite (fun _ => hf.closeCipher (fun _ => ?_) hD) fun _ => hf
  show t.scan.state ≠ .scanning
  rw [hs.1]
  nofun

/-- A band of the scan path in the core is stopped. -/
def State.scanStopped (s : State) : State :=
  match s.core.band with
  | none => s
  | some b => if b.path = CipherPath.scan ∧ b.orphan = false then { s with core := { s.core with band := none } } else s

theorem Ops.scanStopped (h : Ops K x (D, t)) : Ops K x (D, t.scanStopped) := by
  unfold State.scanStopped
  split
  · exact h
  · exact .ite (fun _ => h.op (.coreFree _ rfl (.inl rfl))) fun _ => h

theorem State.cipherSlotLost_eq (s : State) (k : SlotHandle) : s.cipherSlotLost k =
    if s.scan.state = .ciphering ∧ s.scan.failed = none ∧ s.scanSlot = k ∧ s.scan.internal.toList.any (fun b => b.cond = .ciphering) then
      s.scanStopped.failCipher .badSlot
    else s := rfl

theorem Ops.cipherSlotLost (h : Ops K x (D, t)) (hD : K → D.scan = false ∨ t.scan.state ≠ .ciphering) {k : SlotHandle} :
    Ops K x (D, t.cipherSlotLost k) := by
  rw [State.cipherSlotLost_eq]
  refine .ite (fun hc => ?_) fun _ => h
  exact h.scanStopped.failCipher (fun hk => (hD hk).resolve_right fun hn => hn hc.1)

/-- Some buffer holds a band for the core, or none does. -/
theorem State.any_ciphering (s : State) : s.scan.internal.toList.any (fun b => b.cond = .ciphering) = false ↔
    ∀ i < 2, (s.buffer i).cond ≠ .ciphering := by
  rw [List.any_eq_false]
  constructor
  · intro h i hi
    have := h (s.buffer i) (by simp [State.buffer, entryAt, hi])
    simpa using this
  · intro h b hb
    obtain ⟨i, hi, rfl⟩ := List.getElem_of_mem hb
    have hi2 : i < 2 := by simpa using hi
    have := h i hi2
    simpa [State.buffer, entryAt, hi2] using this

theorem State.scanStopped_scan (s : State) : s.scanStopped.scan = s.scan := by
  unfold State.scanStopped
  split
  · rfl
  · split <;> rfl

theorem State.closeCipher_bandless {code : ReturnCode} (h : s.bandless) : (s.closeCipher code).bandless := by
  unfold State.closeCipher
  split
  · exact h
  · exact .inr (.inl rfl)
  · exact .inr (.inl rfl)

theorem State.failCipher_bandless {code : ReturnCode} (h : s.scan.state = .ciphering) : (s.failCipher code).bandless := by
  unfold State.failCipher
  split
  · extract_lets p u
    have hu : u.bandless := .inl rfl
    clear_value u
    split
    · exact State.closeCipher_bandless hu
    · exact hu
  · rename_i hc
    refine .inl (Option.isSome_iff_ne_none.mpr fun e => hc ⟨h, e⟩)

/-- After the loss of its slot has been found a cipher ticket has no band at the core. -/
theorem State.cipherSlotLost_bandless {k : SlotHandle} (h : s.scan.state = .ciphering) (a : ScanArgs)
    (ha : (s.cipherSlotLost k).scan.args = some a) (hk : a.slot = k) : (s.cipherSlotLost k).bandless := by
  rw [State.cipherSlotLost_eq] at ha ⊢
  split
  · exact State.failCipher_bandless (by rw [State.scanStopped_scan]; exact h)
  · rename_i hc
    rw [if_neg hc] at ha
    have hslot : s.scanSlot = k := by rw [State.scanSlot, ha]; exact hk
    by_cases hf : s.scan.failed = none
    · refine .inr (.inr (.inr (s.any_ciphering.mp ?_)))
      by_contra hany
      exact hc ⟨h, hf, hslot, by simpa using hany⟩
    · exact .inl (Option.isSome_iff_ne_none.mpr hf)

/-! ### The end of a job -/

theorem State.jobEndSlot_eq (s : State) (k : SlotHandle) : s.jobEndSlot k = (s.slotLeaves k).cipherSlotLost k := by
  by_cases hk : (s.slot k.idx).keep = 0 <;> simp [State.jobEndSlot, State.slotLeaves, hk]

theorem State.stopCore_scan (s : State) (k : SlotHandle) : (s.stopCore k).scan = s.scan := by
  unfold State.stopCore
  split
  · rfl
  · split <;> rfl

theorem State.wipeSlot_scan (s : State) (i : Nat) : (s.wipeSlot i).scan = s.scan := by
  unfold State.wipeSlot
  rw [State.stopCore_scan]
  unfold State.detachSlot
  split <;> rfl

theorem State.slotLeaves_scan (s : State) (k : SlotHandle) : (s.slotLeaves k).scan = s.scan := by
  unfold State.slotLeaves
  split
  · exact s.wipeSlot_scan _
  · rfl

theorem State.cipherSlotLost_still {k : SlotHandle} (h : s.scan.state ≠ .ciphering) : s.cipherSlotLost k = s := by
  rw [State.cipherSlotLost_eq]
  exact if_neg fun hc => h hc.1

/-- The slots of a job that ends are taken from it one by one. -/
theorem Ops.jobEndSlotsOf {i : Nat} (l : List SlotHandle) (h : Ops K x ({ D with ending := some (i, l) }, t))
    (hD : K → D.scan = false ∨ t.scan.state ≠ .ciphering) : Ops K x ({ D with ending := some (i, []) }, l.foldl State.jobEndSlot t) := by
  induction l generalizing t with
  | nil => exact h
  | cons k rest ih =>
    rw [List.foldl_cons, State.jobEndSlot_eq]
    have hscan := t.slotLeaves_scan k
    have hD' : K → D.scan = false ∨ (t.slotLeaves k).scan.state ≠ .ciphering := by rwa [hscan]
    have hleft := (h.op (.endSlot i k rest rfl)).cipherSlotLost (k := k) hD'
    refine ih (hleft.op (.relax D.lost fun a ha hl => ?_)) ?_
    · rcases hl with hl | ⟨hk, hc⟩
      · exact .inl hl
      · exact .inr (State.cipherSlotLost_bandless (by rw [hscan]; exact hc) a ha hk)
    · refine fun hk => (hD hk).imp id fun hn => ?_
      rwa [State.cipherSlotLost_still (by rwa [hscan]), hscan]

theorem Ops.jobEnds {i : Nat} (h : Ops K x (D, t)) (hD : D.ending = none) (hs : K → D.scan = false ∨ t.scan.state ≠ .ciphering)
    (hi : (t.job i).state ≠ .free) (hf : (t.job i).free = 0) (hp : (t.job i).printFlight = false) (hc : (t.job i).scanFlight = false) :
    Ops K x (D, (t.jobEndSlots i).freeJob i) := by
  have := (Ops.jobEndSlotsOf _ (h.op (.beginEnd i hD hi hf hp hc)) hs).op (.endJob i rfl)
  have hpaid : { ({ D with ending := some (i, []) } : Debt) with ending := none } = D := Debt.ending_paid hD
  rwa [hpaid] at this

theorem State.releaseFree_job {i : Nat} (h : i < 32) : (s.releaseFree i).job i = { s.job i with free := 0 } :=
  State.putJob_job_same _ _ h

theorem Ops.finishJob {i : Nat} (h : Ops K x (D, t)) (hD : D.ending = none) (hs : K → D.scan = false ∨ t.scan.state ≠ .ciphering)
    (hi : (t.job i).state ≠ .free) (hp : (t.job i).printFlight = false) (hc : (t.job i).scanFlight = false) :
    Ops K x (D, t.finishJob i) := by
  have hj := State.releaseFree_job (s := t) (State.job_lt hi)
  refine (h.op (.releaseFree i hD hi)).jobEnds hD hs ?_ ?_ ?_ ?_ <;> rw [hj]
  · exact hi
  · exact hp
  · exact hc

theorem Ops.completeEnd {j : Handle} (h : Ops K x (D, t)) (hD : D.ending = none) (hs : K → D.scan = false ∨ t.scan.state ≠ .ciphering) :
    Ops K x (D, (t.completeEnd j).1) := by
  unfold State.completeEnd
  split
  · exact h
  · rename_i i _
    dsimp only []
    split
    · rename_i hc
      exact h.finishJob hD hs (by rw [hc.1]; nofun) hc.2.1 hc.2.2
    · exact h

/-- A waiting print ticket is closed. -/
theorem Ops.closePrint (h : Ops K x (D, t)) (hf : K → ¬t.print.state.inFlight) (hD : D.print = false) {code : ReturnCode} {w13 w14 : Nat}
    {e f : Bool} {p : PrintPath} (hp : p.state = .idle) : Ops K x (D, { t.close 2 code w13 w14 e f with print := p }) := by
  have := h.op (.closePrint p code w13 w14 e f (fun hk => .inl (hf hk)) hp)
  rwa [Debt.print_paid hD] at this

theorem Ops.closeWaitingPrint {j : Handle} (h : Ops K x (D, t)) (hD : D.print = false) : Ops K x (D, t.closeWaitingPrint j) := by
  unfold State.closeWaitingPrint
  split
  · rename_i hs _
    refine .ite (fun _ => h.closePrint (fun _ => ?_) hD rfl) fun _ => h
    rw [hs]
    simp [PrintState.inFlight]
  · exact h

theorem Ops.closeWaitingScan {j : Handle} (h : Ops K x (D, t)) (hD : D.scan = false) : Ops K x (D, t.closeWaitingScan j) := by
  unfold State.closeWaitingScan
  split
  · rename_i hs _
    exact .ite (fun _ => h.closeScan (fun _ => by rw [hs]; nofun) fun _ => hD) fun _ => h
  · exact h

theorem State.close_jobs (s : State) (lane : Fin 4) (code : ReturnCode) (w13 w14 : Nat) (e f : Bool) :
    (s.close lane code w13 w14 e f).jobs = s.jobs := by rw [State.close_frame]

theorem State.closeWaitingPrint_jobs (s : State) (j : Handle) : (s.closeWaitingPrint j).jobs = s.jobs := by
  unfold State.closeWaitingPrint
  split
  · split
    · exact s.close_jobs ..
    · rfl
  · rfl

theorem State.closeWaitingScan_jobs (s : State) (j : Handle) : (s.closeWaitingScan j).jobs = s.jobs := by
  unfold State.closeWaitingScan
  split
  · split
    · exact s.close_jobs ..
    · rfl
  · rfl

theorem State.job_congr (h : t.jobs = s.jobs) (i : Nat) : t.job i = s.job i := by rw [State.job, h]; rfl

theorem State.releaseHoldOf_jobs (s : State) (j : Handle) : (s.releaseHoldOf j).jobs = s.jobs := by
  unfold State.releaseHoldOf
  split
  · rfl
  · split <;> rfl

theorem Ops.endJobEntry {i : Nat} (h : Ops K x (D, t)) (hD : D.paid) (hi : (t.job i).state ≠ .free) :
    Ops K x (D, (t.endJobEntry i).1) := by
  have hc := (h.closeWaitingPrint (j := t.jobHandle i) hD.print).closeWaitingScan (j := t.jobHandle i) hD.scan
  have hjob : ((t.closeWaitingPrint (t.jobHandle i)).closeWaitingScan (t.jobHandle i)).job i = t.job i :=
    State.job_congr ((State.closeWaitingScan_jobs _ _).trans (t.closeWaitingPrint_jobs _)) i
  unfold State.endJobEntry
  extract_lets j c ending ended
  change Ops K x (D, c) at hc
  change c.job i = t.job i at hjob
  have hr : ∀ w : State, w = (c.releaseFree i).releaseHoldOf j → w.job i = { t.job i with free := 0 } := by
    intro w hw
    rw [hw, State.job_congr (State.releaseHoldOf_jobs _ _), State.releaseFree_job (State.job_lt hi), hjob]
  have hrun : Ops K x (D, (c.releaseFree i).releaseHoldOf j) := (hc.op (.releaseFree i hD.ending (by rw [hjob]; exact hi))).plain (Plain.refl.releaseHoldOf)
  split
  · refine hrun.plain (Plain.refl.putJob { free_iff := ?_ })
    rw [hr _ rfl]
    exact ⟨nofun, fun e => absurd e hi⟩
  · rename_i hn
    rw [hjob, not_or, Bool.not_eq_true, Bool.not_eq_true] at hn
    refine hrun.jobEnds hD.ending (fun _ => .inl hD.scan) ?_ ?_ ?_ ?_ <;> rw [hr _ rfl]
    · exact hi
    · exact hn.1
    · exact hn.2

theorem Ops.endSession {e : Nat} (h : Ops K x (D, t)) (hD : D.rests) : Ops K x (D, (t.endSession e).1) := by
  have hjobs : ∀ (l : List Nat) (j : Handle) (r : State × Nat × Nat), Ops K x (D, r.1) →
      Ops K x (D, (l.foldl (State.endSessionJob j) r).1) := by
    intro l j
    induction l with
    | nil => exact fun _ hr => hr
    | cons i rest ih =>
      intro r hr
      refine ih _ ?_
      unfold State.endSessionJob
      dsimp only []
      split
      · rename_i hc
        have he := hr.endJobEntry hD.toPaid hc.1
        split <;> exact he
      · exact hr
  exact (hjobs _ _ (t, 0, 0) h).plain ((Plain.refl.putSession).putAcct)

/-! ### The print path -/

theorem Ops.printRefuse (h : Ops K x (D, t)) (hf : K → ¬t.print.state.inFlight) (hD : D.print = false) {r : Refused} :
    Ops K x (D, t.printRefuse r) :=
  Ops.plain (h.closePrint hf hD rfl) Plain.refl.dropPrint

theorem printCharge_le {o : PrintOutcome} {cap : PrintCapture} {colour : Bool} {pixels : Nat} {sums counts : PerPlane Nat} :
    (printCharge o (meter cap colour pixels sums counts (o = .delivered))).charge ≤ cap.hold colour := by
  cases o with
  | delivered => exact meter_charge_le cap colour pixels sums counts (decide (PrintOutcome.delivered = .delivered))
  | spoiled => exact Nat.zero_le _
  | notImaged => exact Nat.zero_le _

theorem Ops.settlePrint (h : Ops K x (D, t)) (hD : D.rests) (hf : t.print.state.inFlight) {o : PrintOutcome} {c : PrintCause}
    {code : ReturnCode} {w14 : Nat} : Ops K x (D, t.settlePrint o c code w14) := by
  unfold State.settlePrint
  split
  · rename_i a cap ha hcap
    extract_lets m settled deducted metered result r
    have hs : Ops K x ({ D with print := true }, settled) :=
      h.op (.settlePrint a cap _ _ ⟨hD.print, hD.ending, hD.holds⟩ hf ha hcap printCharge_le)
    have hp : Plain settled result :=
      (Plain.ite (fun _ => .ite (fun _ => .refl) fun _ => Plain.refl.deduct) fun _ =>
        (Plain.ite (fun _ => .refl) fun _ => Plain.refl.deduct).writeMeters).writePrintResult
    have hr : Ops K x ({ D with print := true }, r.1) := (hs.plain hp).completeEnd hD.ending (fun _ => .inl hD.scan)
    have hclosed := hr.op (.closePrint
      { (r.1.close 2 code m.charge w14 r.2).print with state := .idle, wait := none, args := none, table := [], capture := none }
      code m.charge w14 r.2 false (fun _ => .inr rfl) rfl)
    have hpaid : { ({ D with print := true } : Debt) with print := false } = D := Debt.print_paid hD.print
    rw [hpaid] at hclosed
    exact hclosed.plain Plain.refl.dropPrint
  · exact h

theorem Ops.spoil (h : Ops K x (D, t)) (hD : D.rests) (hf : t.print.state.inFlight) {c : PrintCause} : Ops K x (D, t.spoil c) := by
  have hm : Plain t { t with engineOut := t.engineOut ++ [EngineMessage.abort t.print.number],
                             print := { t.print with retired := some t.print.number } } := {}
  exact (h.plain hm.dropPrint).settlePrint hD hf

theorem Ops.bandFails (h : Ops K x (D, t)) (hD : D.rests) {i : Nat} {c : PrintCause} : Ops K x (D, t.bandFails i c) := by
  unfold State.bandFails
  split
  · rename_i hs; exact h.settlePrint hD (.inl hs)
  · rename_i hs; exact h.spoil hD (.inr (.inl hs))
  · exact h

theorem Ops.imagingStart (h : Ops K x (D, t)) (hD : D.rests) (hs : t.print.state = .preparing) {a : PrintArgs} :
    Ops K x (D, t.imagingStart a) := by
  unfold State.imagingStart
  extract_lets bad number
  refine .ite (fun _ => h.plain { idle := ?_, flight := ?_ }) fun _ => h.settlePrint hD (.inl hs)
  · rw [hs]; exact ⟨nofun, nofun⟩
  · rw [hs]; exact ⟨fun _ => .inl rfl, fun _ => .inr (.inl rfl)⟩

theorem Ops.bandReady (h : Ops K x (D, t)) (hD : D.rests) {i : Nat} {e : BandEntry} {p : List Byte} :
    Ops K x (D, t.bandReady i e p) := by
  unfold State.bandReady
  extract_lets p u
  have hu : Ops K x (D, u) := h.plain Plain.refl.print
  clear_value u
  split
  · exact hu
  · exact .ite (fun hc => hu.imagingStart hD hc.1) fun _ => hu

/-- A print ticket in admission. -/
structure State.printReady (s : State) (K : Prop) : Prop where
  waits : K → ¬s.print.state.inFlight
  begun : K → s.print.state = .idle → s.begun 2

theorem Plain.printReady (h : Plain s t) (hr : s.printReady K) : t.printReady K :=
  ⟨fun hk hf => hr.waits hk (h.flight.mp hf), fun hk hi => h.begun (hr.begun hk (h.idle.mp hi))⟩

theorem Ops.printWait (h : Ops K x (D, t)) (hr : t.printReady K) {w : PrintWait} : Ops K x (D, t.printWait w) :=
  h.op (.printWaits _ hr.waits hr.begun rfl)

theorem State.requestHold_print {i n : Nat} {p : CipherPath} (e : s.requestHold i p n = some u) : u.print = s.print ∧ u.scan = s.scan := by
  by_cases hc : s.covers (s.job i).account (s.job i).free n
  · rw [State.requestHold_some hc] at e; cases e; exact ⟨rfl, rfl⟩
  · rw [State.requestHold_none hc] at e; cases e

theorem State.admitted_print (s : State) (j : Handle) : (s.admitted j).print = s.print ∧ (s.admitted j).scan = s.scan := by
  rw [State.admitted, State.touchHold_frame, State.touchJob_frame]
  exact ⟨rfl, rfl⟩

theorem Ops.printCheck10 (h : Ops K x (D, t)) (hD : D.rests) (hr : t.printReady K) {a : PrintArgs} (ha : t.print.args = some a)
    (hj : t.jobOf a.job = some a.job.idx) : Ops K x (D, t.printCheck10 a) := by
  unfold State.printCheck10
  extract_lets cap
  split
  · have hq : Plain t (t.quotaStop a.job.idx) := Plain.refl.quotaStop
    exact (h.plain hq).printRefuse (hq.printReady hr).waits hD.print
  · rename_i u hu
    refine h.op (.printHold a cap a.job.idx _ ⟨hD.print, hD.ending, hD.holds⟩ hr.waits hr.begun hj hu Plain.refl.admitted rfl ?_ rfl)
    dsimp only []
    rw [(u.admitted_print a.job).1, (State.requestHold_print hu).1, ha]

theorem Ops.printAdmit (h : Ops K x (D, t)) (hD : D.rests) (hr : t.printReady K) : Ops K x (D, t.printAdmit) := by
  unfold State.printAdmit
  split
  · exact h
  · rename_i a ha
    extract_lets s1 s2 refusing
    have h1 : Plain t s1 := Plain.refl.touchJob
    clear_value s1
    split
    · exact (h.plain h1).printRefuse (h1.printReady hr).waits hD.print
    · rename_i hnone
      have hj : s1.jobOf a.job = some a.job.idx := State.jobOf_of_refusal (firstRefusal_none.mp hnone (s1.jobRefusal a.job true) (by simp))
      have h2 : Plain s1 s2 := Plain.refl.readAccount
      have h12 : Plain t s2 := h1.trans h2
      clear_value s2
      have hrun := h.plain h12
      have hr2 := h12.printReady hr
      split
      · exact hrun.printRefuse hr2.waits hD.print
      · refine .ite (fun _ => hrun.printWait hr2) fun _ => ?_
        refine .ite (fun _ => hrun.printRefuse hr2.waits hD.print) fun _ => .ite (fun _ => ?_) fun _ => ?_
        · have hw : Plain s2 _ := Plain.refl.requestChecks ((neededSlots a.colour).filter (fun n => (s2.cart n).auth = .unchecked))
          exact (hrun.plain hw).printWait (hw.printReady hr2)
        · exact hrun.printCheck10 hD hr2 (h12.args.trans ha) ((h2.jobOf a.job).trans hj)

theorem Ops.renewPrint (h : Ops K x (D, t)) (hD : D.rests) : Ops K x (D, t.renewPrint) :=
  .ite (fun hw => h.printAdmit hD ⟨fun _ => by rw [hw]; simp [PrintState.inFlight], fun _ e => by rw [hw] at e; cases e⟩) fun _ => h

theorem Ops.renewPrintOnSupply (h : Ops K x (D, t)) (hD : D.rests) {b : State} : Ops K x (D, b.renewPrintOnSupply t) := by
  unfold State.renewPrintOnSupply
  split
  · exact h
  · exact .ite (fun _ => h.renewPrint hD) fun _ => h

theorem Ops.printDeparture (h : Ops K x (D, t)) (hD : D.rests) : Ops K x (D, t.printDeparture) := by
  unfold State.printDeparture
  split
  · exact h
  · exact h.renewPrint hD
  · rename_i hs; exact h.settlePrint hD (.inl hs)
  · rename_i hs; exact h.spoil hD (.inr (.inl hs))
  · rename_i hs; exact h.spoil hD (.inr (.inr hs))

theorem Ops.printWithdrawal (h : Ops K x (D, t)) (hD : D.rests) : Ops K x (D, t.printWithdrawal) := by
  unfold State.printWithdrawal
  split
  · exact h
  · exact h.renewPrint hD
  · rename_i hs; exact h.settlePrint hD (.inl hs)
  · rename_i hs; exact h.spoil hD (.inr (.inl hs))
  · rename_i hs; exact h.spoil hD (.inr (.inr hs))

theorem Ops.failBands (h : Ops K x (D, t)) (hD : D.rests) {l : List Nat} : Ops K x (D, t.failBands l) := by
  cases l with
  | nil => exact h
  | cons i rest => exact h.bandFails hD

end Sys2Proof.Machine
end

