-- ==== Sys2Proof/Proofs/OpRuns2.lean ====
section
/-! The scan path, the destruction of slots, the withdrawal and the sense watch as runs of operations. -/

namespace Sys2Proof.Machine

variable {K : Prop} {x : Debt × State} {D : Debt} {s t u : State}

/-! ### Settlement and failure of a page -/

theorem State.chargeAccount_scan (s : State) (n : Nat) (c : AccountCharge) : (s.chargeAccount n c).scan = s.scan := by
  have hr : (s.readAccount n).scan = s.scan := by rw [State.readAccount_frame]
  dsimp only [State.chargeAccount]
  split
  · exact hr
  · exact hr

theorem State.settleHold_scan (s : State) (j : Handle) (p : CipherPath) (d : Bool) (c : AccountCharge) :
    (s.settleHold j p d c).scan = s.scan := by
  unfold State.settleHold
  split
  · rfl
  · extract_lets n u v w
    have hw : w.scan = s.scan := by
      change ((v.touchJob j).touchHold j).scan = _
      rw [State.touchHold_frame, State.touchJob_frame]
      exact State.chargeAccount_scan _ _ _
    split
    · exact hw
    · exact hw

theorem Ops.settleScan (h : Ops K x (D, t)) (hD : D.rests) (hs : K → t.scan.state = .scanning) (hq : K → t.bandless) {code : ReturnCode}
    {charge : Nat} (hle : charge ≤ t.scan.capture.getD 0) : Ops K x (D, t.settleScan code charge) := by
  unfold State.settleScan
  split
  · exact h
  · rename_i a ha
    extract_lets completed u m metered r
    have hu : Ops K x ({ D with scan := true }, u) := h.op (.settleScan a false _ ⟨hD.scan, hD.ending, hD.holds⟩ hs hq ha hle)
    have hm : Plain u metered := .ite (fun _ => Plain.refl.writeMeters) fun _ => .refl
    have hscan : K → metered.scan.state ≠ .ciphering := fun hk => by
      rw [hm.scanState, State.settleHold_scan, hs hk]
      nofun
    have hr : Ops K x ({ D with scan := true }, r.1) := (hu.plain hm).completeEnd hD.ending fun hk => .inr (hscan hk)
    have hclosed := hr.op (.closeScan code metered.scan.page metered.scan.written r.2 metered.scan.truncation false (fun _ => rfl) fun _ => .inr rfl)
    have hpaid : { ({ D with scan := true } : Debt) with scan := false } = D := Debt.scan_paid hD.scan
    rwa [hpaid] at hclosed

theorem Ops.failPage (h : Ops K x (D, t)) (hD : D.rests) {code : ReturnCode} (hc : code ≠ .ok := by nofun) {ended : Bool} :
    Ops K x (D, t.failPage code ended) := by
  refine .ite (fun hs => ?_) fun _ => h
  have hf := h.op (.fails code (t.scan.drain || !(t.scan.pageEnd || ended)) (.inl hs.1) hc)
  exact .ite (fun _ => hf.settleScan hD (fun _ => hs.1) (fun _ => .inl rfl) (Nat.zero_le _)) fun _ => hf

theorem State.settleScan_bandless {code : ReturnCode} {n : Nat} (h : s.bandless) : (s.settleScan code n).bandless := by
  unfold State.settleScan
  split
  · exact h
  · exact .inr (.inl rfl)

theorem State.failPage_bandless {code : ReturnCode} {ended : Bool} (h : s.scan.state = .scanning) : (s.failPage code ended).bandless := by
  by_cases hf : s.scan.failed = none
  · have hq : (s.pageFailing code (s.scan.drain || !(s.scan.pageEnd || ended))).bandless := .inl rfl
    rw [State.failPage_eq h hf]
    split
    · exact State.settleScan_bandless hq
    · exact hq
  · rw [State.failPage, if_neg fun hc => hf hc.2]
    exact .inl (Option.isSome_iff_ne_none.mpr hf)

theorem State.all_free (s : State) : s.scan.internal.toList.all (fun b => b.cond = .free) = true ↔ ∀ i < 2, (s.buffer i).cond = .free := by
  rw [List.all_eq_true]
  constructor
  · intro h i hi
    simpa using h (s.buffer i) (by simp [State.buffer, entryAt, hi])
  · intro h b hb
    obtain ⟨i, hi, rfl⟩ := List.getElem_of_mem hb
    have hi2 : i < 2 := by simpa using hi
    simpa [State.buffer, entryAt, hi2] using h i hi2

theorem Ops.settleIfWritten (h : Ops K x (D, t)) (hD : D.rests) : Ops K x (D, t.settleIfWritten) :=
  .ite (fun hc => h.settleScan hD (fun _ => hc.1)
    (fun _ => .inr (.inr (.inr fun i hi => by rw [t.all_free.mp hc.2.2.2 i hi]; nofun))) (Nat.le_refl _)) fun _ => h

/-! ### Lines and bands of a page -/

/-- The page in flight takes lines; `P` comes with a band whose key is granted. -/
structure State.takes (s : State) (a : ScanArgs) (P : Prop) : Prop where
  state : s.scan.state = .scanning
  failed : s.scan.failed = none
  args : s.scan.args = some a
  grants : s.keyGranted a.slot a.job .scan = true → P

theorem Plain.takes {a : ScanArgs} {P : Prop} (h : Plain s t) (hs : s.takes a P) : t.takes a P :=
  ⟨h.scanState.trans hs.state, h.failed.trans hs.failed, h.scanArgs.trans hs.args, by rw [h.keyGranted]; exact hs.grants⟩

theorem Plain.buffer (h : Plain s t) (i : Nat) : t.buffer i = s.buffer i := by rw [State.buffer, h.internal]; rfl

theorem State.bufferIn_some {c : BufferCond} {i : Nat} (h : s.bufferIn c = some i) : i < 2 ∧ (s.buffer i).cond = c := by
  have := lowest_some h Buffer.erased
  exact ⟨this.1, of_decide_eq_true this.2⟩

theorem Ops.bandComplete (h : Ops K x (D, t)) (hD : D.rests) {a : ScanArgs} (ht : t.takes a (K → D.presents)) {i : Nat}
    (hb : (t.buffer i).cond = .filling) : Ops K x (D, t.bandComplete i a) :=
  .ite (fun _ => h.failPage hD) fun _ => .ite
    (fun hg => h.op (.present i _ a ⟨hD.scan, ht.grants hg⟩ (.inl ht.state) ht.failed hb rfl ht.args fun _ => .inl ⟨ht.state, hg⟩)) fun _ => h.failPage hD

/-- What a line joins is a buffer FILLING of the same page. -/
theorem Ops.lineBuffer (h : Ops K x (D, t)) {a : ScanArgs} {P : Prop} (ht : t.takes a P) {i : Nat} (e : t.lineBuffer = some (u, i)) :
    Ops K x (D, u) ∧ u.takes a P ∧ i < 2 ∧ (u.buffer i).cond = .filling := by
  unfold State.lineBuffer at e
  split at e
  · rename_i k hk
    cases e
    exact ⟨h, ht, State.bufferIn_some hk⟩
  · split at e
    · cases e
    · rename_i k hk
      cases e
      obtain ⟨hi, hc⟩ := State.bufferIn_some hk
      refine ⟨Ops.plain (h.op (.fill i _ (fun _ => .inl ht.state) ht.failed (.inl hc) rfl)) Plain.refl.scan, ⟨ht.state, ht.failed, ht.args, ht.grants⟩, hi, ?_⟩
      exact congrArg Buffer.cond (State.putBuffer_same hi _)

theorem Ops.joinLine (h : Ops K x (D, t)) (hD : D.rests) {a : ScanArgs} (ht : t.takes a (K → D.presents)) {l : List Byte} :
    Ops K x (D, t.joinLine a l) := by
  unfold State.joinLine
  split
  · exact h.failPage hD
  · rename_i u i e
    obtain ⟨hu, htu, hi, hc⟩ := h.lineBuffer ht e
    extract_lets b v taken p w
    have hv : Ops K x (D, v) := hu.op (.fill i _ (fun _ => .inl htu.state) htu.failed (.inr hc) hc)
    have hw : Plain v w := Plain.refl.scan
    have hcw : (w.buffer i).cond = .filling := by
      rw [hw.buffer]
      exact (congrArg Buffer.cond (State.putBuffer_same hi _)).trans hc
    have htv : v.takes a (K → D.presents) := ⟨htu.state, htu.failed, htu.args, htu.grants⟩
    exact .ite (fun _ => (hv.plain hw).bandComplete hD (hw.takes htv) hcw) fun _ => hv.plain hw

theorem Ops.takeLine (h : Ops K x (D, t)) (hD : D.rests) {a : ScanArgs} (ht : t.takes a (K → D.presents)) {l : List Byte} :
    Ops K x (D, t.takeLine a l) := by
  refine .ite (fun _ => h.plain Plain.refl.scan) fun _ => .ite (fun _ => h.failPage hD) fun _ => ?_
  have hp : Plain t (if a.lineBytes < l.length then { t with scan := { t.scan with truncation := true } } else t) :=
    .ite (fun _ => Plain.refl.scan) fun _ => .refl
  exact (h.plain hp).joinLine hD (hp.takes ht)

theorem Ops.takePageEnd (h : Ops K x (D, t)) (hD : D.rests) {a : ScanArgs} (ht : t.takes a (K → D.presents)) : Ops K x (D, t.takePageEnd a) := by
  unfold State.takePageEnd
  extract_lets p u
  have hp : Plain t u := Plain.refl.scan
  have hu := h.plain hp
  refine .ite (fun _ => hu.failPage hD) fun _ => ?_
  split
  · rename_i i hi
    exact hu.bandComplete hD (hp.takes ht) (State.bufferIn_some hi).2
  · exact hu.settleIfWritten hD

/-! ### Admission of a page -/

/-- A Scan Page in admission. -/
structure State.scanReady (s : State) (K : Prop) : Prop where
  waits : K → s.scan.state = .idle ∨ s.scan.state = .waiting
  begun : K → s.scan.state = .idle → s.begun 1
  page : K → s.scan.state = .idle → s.scan.work = .page

theorem Plain.scanReady (h : Plain s t) (hr : s.scanReady K) : t.scanReady K where
  waits hk := by rw [h.scanState]; exact hr.waits hk
  begun hk hi := h.begun1 (hr.begun hk (h.scanState ▸ hi))
  page hk hi := h.work.trans (hr.page hk (h.scanState ▸ hi))

theorem State.scanReady.notScanning (h : s.scanReady K) (hk : K) : s.scan.state ≠ .scanning := by
  rcases h.waits hk with e | e <;> rw [e] <;> nofun

theorem Ops.scanRefuse (h : Ops K x (D, t)) (hD : D.rests) (hr : t.scanReady K) {r : Refused} {w : Nat} :
    Ops K x (D, t.scanRefuse r w) := h.closeScan hr.notScanning fun _ => hD.scan

theorem Ops.scanCheck8 (h : Ops K x (D, t)) (hD : D.rests) (hr : t.scanReady K) {a : ScanArgs} (ha : t.scan.args = some a)
    (hj : t.jobOf a.job = some a.job.idx) : Ops K x (D, t.scanCheck8 a) := by
  unfold State.scanCheck8
  extract_lets rate
  split
  · have hq : Plain t (t.quotaStop a.job.idx) := Plain.refl.quotaStop
    exact (h.plain hq).scanRefuse hD (hq.scanReady hr)
  · rename_i u hu
    have hscan : (u.admitted a.job).scan = t.scan := (u.admitted_print a.job).2.trans (State.requestHold_print hu).2
    have hwork : (u.admitted a.job).scan.work = t.scan.work := congrArg ScanPath.work hscan
    have hinternal : (u.admitted a.job).scan.internal = t.scan.internal := congrArg ScanPath.internal hscan
    refine h.op (.scanHold a a.job.idx rate _ ⟨hD.scan, hD.ending, hD.holds⟩ hr.waits hr.begun hr.page hj hu Plain.refl.admitted.takePageNumber rfl
      hwork ?_ rfl rfl hinternal)
    exact (congrArg ScanPath.args hscan).trans ha

theorem Ops.scanAdmit (h : Ops K x (D, t)) (hD : D.rests) (hr : t.scanReady K) : Ops K x (D, t.scanAdmit) := by
  unfold State.scanAdmit
  split
  · exact h
  · rename_i a ha
    extract_lets s1 s2
    have h1 : Plain t s1 := Plain.refl.touchJob
    clear_value s1
    split
    · exact (h.plain h1).scanRefuse hD (h1.scanReady hr)
    · split
      · exact (h.plain h1).scanRefuse hD (h1.scanReady hr)
      · rename_i hnone
        have hj : s1.jobOf a.job = some a.job.idx :=
          State.jobOf_of_refusal (firstRefusal_none.mp hnone (s1.jobRefusal a.job true) (by simp))
        have h2 : Plain s1 s2 := Plain.refl.readAccount
        have h12 : Plain t s2 := h1.trans h2
        clear_value s2
        have hrun := h.plain h12
        have hr2 := h12.scanReady hr
        split
        · exact hrun.scanRefuse hD hr2
        · refine .ite (fun _ => hrun.op (.scanWaits hr2.waits hr2.begun hr2.page)) fun _ => ?_
          exact hrun.scanCheck8 hD hr2 (h12.scanArgs.trans ha) ((h2.jobOf a.job).trans hj)

theorem Ops.renewScan (h : Ops K x (D, t)) (hD : D.rests) : Ops K x (D, t.renewScan) :=
  .ite (fun hw => h.scanAdmit hD ⟨fun _ => .inr hw, fun _ e => (by rw [hw] at e; cases e), fun _ e => (by rw [hw] at e; cases e)⟩) fun _ => h

theorem Ops.clearDrain (h : Ops K x (D, t)) (hD : D.rests) : Ops K x (D, t.clearDrain) :=
  .ite (fun _ => h.plain Plain.refl.scan) fun _ => (h.plain Plain.refl.scan).renewScan hD

/-! ### Writes -/

/-- The scan path is at work on what its state tells. -/
structure State.scanWorks (s : State) : Prop where
  busy : s.scanBusy
  page_iff : s.scan.work = .page ↔ s.scan.state = .scanning

theorem State.startWrite_scan (s : State) : s.startWrite.scan.state = s.scan.state ∧ s.startWrite.scan.work = s.scan.work ∧
    s.startWrite.scan.failed = s.scan.failed := by
  unfold State.startWrite
  split
  · exact ⟨rfl, rfl, rfl⟩
  · split <;> exact ⟨rfl, rfl, rfl⟩

theorem Ops.startSourceRead (h : Ops K x (D, t)) (hb : K → t.scanBusy) (hf : t.scan.failed = none) : Ops K x (D, t.startSourceRead) := by
  unfold State.startSourceRead
  split
  · exact h
  · split
    · exact h
    · rename_i i hi
      exact Ops.plain (h.op (.fill i _ hb hf (.inl (State.bufferIn_some hi).2) rfl)) Plain.refl.scan

theorem Ops.afterWrite (h : Ops K x (D, t)) (hD : D.rests) (hw : K → t.scanWorks) : Ops K x (D, t.afterWrite) := by
  unfold State.afterWrite
  split
  · rename_i code hf
    have hq : t.bandless := .inl (by rw [hf]; rfl)
    refine .ite (fun _ => h) fun _ => .ite (fun hp => ?_) fun hp => ?_
    · exact h.settleScan hD (fun hk => (hw hk).page_iff.mp hp) (fun _ => hq) (Nat.zero_le _)
    · exact h.closeCipher (fun hk e => hp ((hw hk).page_iff.mpr e)) fun _ => hD.scan
  · rename_i hf
    extract_lets u
    have hu : Ops K x (D, u) := h.op .startWrite
    obtain ⟨hstate, hwork, hfailed⟩ : u.scan.state = t.scan.state ∧ u.scan.work = t.scan.work ∧ u.scan.failed = t.scan.failed :=
      t.startWrite_scan
    clear_value u
    have hbusy : K → u.scanBusy := fun hk => by rw [State.scanBusy, hstate]; exact (hw hk).busy
    have hnot : u.scan.work ≠ .page → K → u.scan.state ≠ .scanning := fun hp hk e =>
      hp (hwork.trans ((hw hk).page_iff.mpr (hstate.symm.trans e)))
    refine .ite (fun _ => hu.settleIfWritten hD) fun hp => .ite (fun _ => ?_) fun _ => ?_
    · exact hu.closeCipher (hnot hp) fun _ => hD.scan
    · exact hu.startSourceRead hbusy (hfailed.trans hf)

theorem Ops.bandWritten (h : Ops K x (D, t)) (hD : D.rests) (hw : K → t.scanWorks) {i : Nat} (hi : (t.buffer i).isWriting = true) :
    Ops K x (D, t.bandWritten i) := by
  unfold State.bandWritten
  extract_lets u
  have hu : Ops K x (D, u) := h.op (.erase i hi)
  exact (hu.plain Plain.refl.scan).afterWrite hD fun hk => ⟨(hw hk).busy, (hw hk).page_iff⟩

theorem Ops.writeFailed (h : Ops K x (D, t)) (hD : D.rests) (hw : K → t.scanWorks) {i a : Nat} (hi : (t.buffer i).isWriting = true) :
    Ops K x (D, t.writeFailed i a) := by
  unfold State.writeFailed
  extract_lets u
  have hu : Ops K x (D, u) := (h.plain Plain.refl.captureMemory).op (.erase i hi)
  have hwu : K → u.scanWorks := fun hk => ⟨(hw hk).busy, (hw hk).page_iff⟩
  clear_value u
  split
  · exact hu.afterWrite hD hwu
  · exact .ite (fun _ => hu.failPage hD) fun _ => hu.failCipher (fun _ => hD.scan)

theorem Ops.writeDone (h : Ops K x (D, t)) (hD : D.rests) (hw : K → ∀ i, t.writingBuffer = some i → t.scanWorks) :
    Ops K x (D, t.writeDone) := by
  unfold State.writeDone
  split
  · exact h
  · rename_i i hi
    have hwr : (t.buffer i).isWriting = true := (State.writingBuffer_some hi).2
    have hwi : ∀ {u}, Plain t u → K → u.scanWorks := fun hp hk =>
      ⟨by rw [State.scanBusy, hp.scanState]; exact (hw hk i hi).busy, by rw [hp.work, hp.scanState]; exact (hw hk i hi).page_iff⟩
    have hbi : ∀ {u}, Plain t u → (u.buffer i).isWriting = true := fun hp => by rw [hp.buffer]; exact hwr
    extract_lets b
    split
    · have hm : Plain t (t.writeBytes (t.destination b.band) b.data).1 := Plain.refl.writeBytes
      split <;> rename_i e
      · exact (h.plain (hm.fst_of_eq e)).writeFailed hD (hwi (hm.fst_of_eq e)) (hbi (hm.fst_of_eq e))
      · have hp := hm.fst_of_eq e
        refine .ite (fun _ => (h.plain hp).bandWritten hD (hwi hp) (hbi hp)) fun _ => (h.plain hp).op (.rewrite i _ (hbi hp) rfl ?_)
        rw [hp.buffer]
    · have hm : Plain t (t.writeWords ((t.scan.args.map (·.records)).getD 0 + 12 * b.band) (bandRecord b)).1 := Plain.refl.writeWords
      split <;> rename_i e
      · exact (h.plain (hm.fst_of_eq e)).writeFailed hD (hwi (hm.fst_of_eq e)) (hbi (hm.fst_of_eq e))
      · exact (h.plain (hm.fst_of_eq e)).bandWritten hD (hwi (hm.fst_of_eq e)) (hbi (hm.fst_of_eq e))

/-! ### The core and the source reads -/

theorem Ops.pumpCore (h : Ops K x (D, t)) : Ops K x (D, t.pumpCore) := by
  rcases t.pumpCore_cases with ⟨hc, i, rest, -, e⟩ | ⟨hc, i, hi, e⟩ | ⟨-, e⟩ <;> rw [e]
  · have hnone : t.core.band = none := by
      simp only [Core.canTake, Bool.and_eq_true] at hc
      simpa using hc.1.1.1
    refine h.plain (Plain.refl.core (fun _ => State.coreSettled_busy (.inl rfl)) (hb := fun b hb => ?_))
    rw [hnone]
    refine ⟨fun e => ?_, nofun⟩
    rw [← Option.some.inj e] at hb
    cases hb
  · have hnone : t.core.band = none := by
      simp only [Core.canTake, Bool.and_eq_true] at hc
      simpa using hc.1.1.1
    exact h.op (.pumpScan i hnone hi)
  · exact h

/-- R97, R99: what a source that is not refused has. -/
theorem State.granted_of_sourceRefusal {a : ScanArgs} (hp : t.scan.work ≠ .page) (h : t.sourceRefusal a = none) :
    t.keyGranted a.slot a.job t.scan.work.use = true ∧ (t.scan.work = .decipher → t.authorised a.job a.slot = true) := by
  unfold State.sourceRefusal at h
  cases hw : t.scan.work with
  | page => exact absurd hw hp
  | encipher =>
    rw [hw] at h
    by_cases hg : t.keyGranted a.slot a.job .encipher = true
    · exact ⟨hg, nofun⟩
    · simp [hg] at h
  | decipher =>
    rw [hw] at h
    by_cases hg : t.keyGranted a.slot a.job .decipher = true
    · by_cases ha : t.authorised a.job a.slot = true
      · exact ⟨hg, fun _ => ha⟩
      · simp [hg, ha] at h
    · simp [hg] at h

theorem Ops.sourceRead (h : Ops K x (D, t)) (hD : D.rests) {a : ScanArgs} (hs : t.scan.state = .ciphering) (hf : t.scan.failed = none)
    (ha : t.scan.args = some a) (hwork : K → t.scan.work ≠ .page) (hp : K → t.presentable → D.presents) {i : Nat} (hi : t.bufferIn .filling = some i) :
    Ops K x (D, t.sourceRead i a) := by
  unfold State.sourceRead
  extract_lets b src lines
  split
  · exact (h.plain Plain.refl.captureMemory).failCipher (fun _ => hD.scan)
  · split
    · rename_i code hcode
      refine h.failCipher (fun _ => hD.scan) ?_
      rintro rfl
      revert hcode
      unfold State.sourceRefusal
      split
      · nofun
      · split <;> nofun
      · split
        · split <;> nofun
        · nofun
    · rename_i data _ _ hnone
      have hbi := (State.bufferIn_some hi).2
      have hg : K → t.keyGranted a.slot a.job t.scan.work.use = true ∧ (t.scan.work = .decipher → t.authorised a.job a.slot = true) :=
        fun hk => State.granted_of_sourceRefusal (hwork hk) hnone
      have hpres := h.op (.present i { b with cond := .ciphering, lines, data } a ⟨hD.scan, fun hk => hp hk ⟨a, ha, .inr (hg hk)⟩⟩ (.inr hs) hf
        hbi rfl ha fun hk => .inr (hg hk).1)
      exact hpres.startSourceRead (fun _ => .inr hs) hf

theorem Ops.coreBandEnds (h : Ops K x (D, t)) (hD : D.rests) (hl : ∀ k, ¬D.lost k) {b : CoreBand} (hb : t.core.band = some b) :
    Ops K x (D, t.coreBandEnds b) := by
  unfold State.coreBandEnds
  extract_lets c u v
  have hu : Ops K x (D, u) := h.op (.coreFree _ rfl (.inl rfl))
  refine Ops.pumpCore (.ite (fun _ => hu) fun ho => ?_)
  rw [Bool.not_eq_true] at ho
  split
  · unfold State.printBandCiphered
    split
    · exact hu
    · split
      · exact hu.bandFails hD
      · exact hu.bandReady hD
  · rename_i hp
    split
    · exact hu
    · rename_i a ha
      have hsealed : ∀ x : Buffer, x.cond = .ciphered → (∃ nonce band, if t.scan.work = .decipher then
          decipherBand (t.slotKey a.slot) nonce band = some x.data else x.data = encipherBand (t.slotKey a.slot) nonce band) →
          Ops K _ (D, (u.putBuffer b.idx x).startWrite) := fun x hx hd =>
        (h.op (.sealed b a x (t.core.count + 1) hl hb hp ho ha hx hd)).op .startWrite
      unfold State.scanBandCiphered
      extract_lets y key index out
      split
      · rename_i hw
        split
        · exact hu.failCipher fun _ => hD.scan
        · rename_i plain hplain
          exact hsealed _ rfl ⟨_, _, by rw [if_pos hw]; exact hplain⟩
      · rename_i hw
        exact hsealed _ rfl ⟨nonceOf a.slot t.scan.page y.band, y.data, by rw [if_neg hw]; rfl⟩

/-! ### Departure and the loss of slots -/

theorem Ops.scanDeparture (h : Ops K x (D, t)) (hD : D.rests) : Ops K x (D, t.scanDeparture) := by
  unfold State.scanDeparture
  split
  · exact h.renewScan hD
  · exact .ite (fun _ => h) fun _ => h.failPage hD
  · exact h

theorem Ops.pageSlotLost (h : Ops K x (D, t)) (hD : D.rests) {k : SlotHandle} : Ops K x (D, t.pageSlotLost k) :=
  .ite (fun _ => h.failPage hD) fun _ => h

/-- A buffer CIPHERING is what the path asks for when it asks for any. -/
theorem State.anyCiphering_false (h : s.anyCiphering = false) {i : Nat} (hi : i < 2) : (s.buffer i).cond ≠ .ciphering := by
  unfold State.anyCiphering at h
  rw [List.any_eq_false] at h
  have := h (s.buffer i) (by simp [State.buffer, entryAt, hi])
  intro e
  simp [Buffer.isCiphering, e] at this

/-- After the destruction of a slot no work under it has a band at the core. -/
theorem State.slotLost_bandless {k : SlotHandle} {a : ScanArgs} (ha : ((s.pageSlotLost k).cipherSlotLost k).scan.args = some a)
    (hk : a.slot = k) : ((s.pageSlotLost k).cipherSlotLost k).bandless := by
  by_cases hc : (s.pageSlotLost k).scan.state = .ciphering
  · exact State.cipherSlotLost_bandless hc a ha hk
  · rw [State.cipherSlotLost_still hc] at ha ⊢
    revert ha
    unfold State.pageSlotLost at hc ⊢
    split
    · rename_i hcond
      exact fun _ => State.failPage_bandless hcond.1
    · rename_i hcond
      intro ha
      rw [if_neg hcond] at hc
      have hslot : s.scanSlot = k := by rw [State.scanSlot, ha]; exact hk
      cases hs : s.scan.state with
      | idle => exact .inr (.inl hs)
      | waiting => exact .inr (.inr (.inl hs))
      | ciphering => exact absurd hs hc
      | scanning =>
        have hend : s.scan.pageEnd = true ∧ s.anyCiphering = false := by
          by_contra hn
          exact hcond ⟨hs, hslot, hn⟩
        exact .inr (.inr (.inr fun i hi => State.anyCiphering_false hend.2 hi))

theorem Ops.destroySlot (h : Ops K x (D, t)) (hD : D.rests) {i : Nat} : Ops K x (D, t.destroySlot i) := by
  unfold State.destroySlot
  extract_lets k bands
  have hw := h.op (.wipe i hD.ending)
  have hf := (Ops.failBands hw ⟨⟨hD.print, hD.scan, hD.ending⟩, hD.holds⟩ (l := bands)).pageSlotLost ⟨⟨hD.print, hD.scan, hD.ending⟩, hD.holds⟩ (k := k)
  refine (hf.cipherSlotLost (k := k) fun _ => .inl hD.scan).op (.relax D.lost fun a ha hl => ?_)
  rcases hl with hl | hk
  · exact .inl hl
  · exact .inr (State.slotLost_bandless ha hk)

theorem Ops.destroyHeldOf (h : Ops K x (D, t)) (hD : D.rests) {n : Nat} : Ops K x (D, t.destroyHeldOf n) := by
  unfold State.destroyHeldOf
  generalize List.range 32 = l
  induction l generalizing t with
  | nil => exact h
  | cons i rest ih => exact ih (.ite (fun _ => h.destroySlot hD) fun _ => h)

/-! ### The withdrawal -/

theorem Ops.wipeAll (h : Ops K x (D, t)) (hD : D.ending = none) : ∃ L, Ops K x ({ D with lost := L }, t.wipeAll) := by
  have hfold : ∀ (l : List Nat) (L : SlotHandle → Prop) (u : State), Ops K x ({ D with lost := L }, u) →
      ∃ L, Ops K x ({ D with lost := L }, l.foldl State.wipeUsed u) := by
    intro l
    induction l with
    | nil => exact fun L u hu => ⟨L, hu⟩
    | cons i rest ih =>
      intro L u hu
      by_cases hf : (u.slot i).state = .free
      · exact ih L _ (by rw [State.wipeUsed, if_pos hf]; exact hu)
      · have hw := hu.op (.wipe i hD)
        exact ih _ _ (by rw [State.wipeUsed, if_neg hf]; exact hw)
  obtain ⟨L, hL⟩ := hfold (List.range 32) D.lost t h
  exact ⟨L, hL.op (.coreFree _ rfl (.inr rfl))⟩

/-- A scope that grants every byte. -/
def Scope.open : Scope := { bytes := fun _ _ => True, queue := False, writes := False }

theorem State.within_open (s : State) : s.within .open := 
  ⟨fun _ _ _ _ _ _ => trivial, fun _ _ _ _ _ => trivial, fun _ _ _ _ _ => trivial⟩

theorem State.renewScan_bandless (hop : s.dev.op ≠ .running) (h : s.scan.state = .waiting) : s.renewScan.bandless := by
  rw [State.renewScan, if_pos h]
  unfold State.scanAdmit
  split
  · exact .inr (.inr (.inl h))
  · extract_lets s1 s2
    split
    · exact .inr (.inl rfl)
    · rename_i hr
      have hop1 : s1.dev.op ≠ .running := by
        change (s.touchJob _).dev.op ≠ .running
        rwa [State.touchJob_dev]
      exfalso
      unfold State.runningRefusal at hr
      split at hr
      · exact hop1 ‹_›
      all_goals cases hr

theorem State.scanWithdrawal_bandless (hop : s.dev.op ≠ .running) : s.scanWithdrawal.bandless := by
  unfold State.scanWithdrawal
  split
  · exact .inr (.inl ‹_›)
  · exact State.renewScan_bandless hop ‹_›
  · exact State.failPage_bandless ‹_›
  · rename_i hs
    extract_lets u
    have hu : u.scan.state = .ciphering := by
      dsimp only [u]
      unfold State.stopPlainWrite
      split
      · exact (congrArg (fun p => p.scan.state) (State.writeBytes_frame _ s _)).trans hs
      · exact hs
    clear_value u
    split
    · exact State.failCipher_bandless hu
    · rename_i code hf
      have hq : u.bandless := .inl (by rw [hf]; rfl)
      split
      · exact State.closeCipher_bandless hq
      · exact hq

theorem Ops.stopPlainWrite (h : Ops K x (D, t)) : Ops K x (D, t.stopPlainWrite) := by
  unfold State.stopPlainWrite
  split
  · rename_i i _ hi
    extract_lets b
    have hp : Plain t (t.writeBytes (t.destination b.band) (b.data.take t.env.stopped)).1 := Plain.refl.writeBytes
    refine (h.plain hp).op (.erase i ?_)
    rw [hp.buffer]
    exact (State.writingBuffer_some hi).2
  · exact h

theorem State.stopPlainWrite_state (s : State) : s.stopPlainWrite.scan.state = s.scan.state := by
  unfold State.stopPlainWrite
  split
  · exact congrArg (fun p => p.scan.state) (State.writeBytes_frame _ s _)
  · rfl

theorem Ops.scanWithdrawal (h : Ops K x (D, t)) (hD : D.rests) : Ops K x (D, t.scanWithdrawal) := by
  unfold State.scanWithdrawal
  split
  · exact h
  · exact h.renewScan hD
  · exact h.failPage hD
  · rename_i hs
    extract_lets u
    have hu : Ops K x (D, u) := h.stopPlainWrite
    have hus : u.scan.state = .ciphering := t.stopPlainWrite_state.trans hs
    clear_value u
    split
    · exact hu.failCipher fun _ => hD.scan
    · exact .ite (fun _ => hu.closeCipher (fun _ => by rw [hus]; nofun) fun _ => hD.scan) fun _ => hu

theorem Ops.withdraw (h : Ops K x (D, t)) (hD : D.rests) : Ops K x (D, t.withdraw) := by
  unfold State.withdraw
  split
  · extract_lets d u
    have hu : Ops K x (D, u) := h.plain Plain.refl.dev
    obtain ⟨L, hL⟩ := hu.wipeAll hD.ending
    have hR : ({ D with lost := L } : Debt).rests := ⟨⟨hD.print, hD.scan, hD.ending⟩, hD.holds⟩
    have hop : u.wipeAll.printWithdrawal.dev.op = .withdrawn := by
      have hrun : Reaches .open u u.wipeAll.printWithdrawal := Reaches.refl.wipeAll.printWithdrawal u.within_open
      exact (hrun.op_eq (show u.dev.op ≠ .running by nofun)).trans rfl
    refine ((hL.printWithdrawal hR).scanWithdrawal hR).op (.relax D.lost fun _ _ _ => .inr ?_)
    exact State.scanWithdrawal_bandless (by rw [hop]; nofun)
  · exact h

/-! ### The sense watch -/

theorem Ops.groupChange (h : Ops K x (D, t)) {old new group : BitVec 8} {f : State → State}
    (hf : ∀ {u}, Ops K x (D, u) → Ops K x (D, f u)) : Ops K x (D, t.groupChange old new group f) :=
  .ite (fun _ => h) fun _ => .ite (fun _ => hf (h.plain Plain.refl.raise)) fun _ => h.plain Plain.refl.raise

theorem Ops.senseChange (h : Ops K x (D, t)) (hD : D.rests) {old new : BitVec 8} : Ops K x (D, t.senseChange old new) := by
  unfold State.senseChange
  have hdoors : Plain t ((t.doorChange old new 0).doorChange old new 1) := Plain.refl.doorChange.doorChange
  have hd := h.plain hdoors
  have he : Ops K x (D, ((t.doorChange old new 0).doorChange old new 1).scannerReadyEdge old new) :=
    .ite (fun _ => hd.plain Plain.refl.scan) fun _ => hd
  have hg := ((he.groupChange (old := old) (new := new) (group := engineLines) fun h => h.printDeparture hD).groupChange
    (old := old) (new := new) (group := scannerLines) fun h => h.scanDeparture hD).groupChange (old := old) (new := new)
    (group := privacyLines) fun h => h.withdraw hD
  exact Ops.pumpCore (.ite (fun _ => Ops.renewScan (.ite (fun _ => hg.renewPrint hD) fun _ => hg) hD) fun _ =>
    .ite (fun _ => hg.renewPrint hD) fun _ => hg)

theorem Ops.takeEdge (h : Ops K x (D, t)) (hD : D.rests) {n : Nat} {high : Bool} : Ops K x (D, t.takeEdge n high) :=
  .ite (fun _ => h) fun _ => (h.plain Plain.refl.levels).senseChange hD

end Sys2Proof.Machine
end

