-- ==== Sys2Proof/Proofs/OpRuns3.lean ====
section
/-! The services of tickets as runs of operations. -/

namespace Sys2Proof.Machine

variable {K : Prop} {x y : Debt × State} {D : Debt} {b s t u : State}

/-! ### No job comes into being -/

/-- Every job that stands in `t` stands in `s`, of the same account. -/
def State.older (s t : State) : Prop := ∀ i, (t.job i).state ≠ .free → (s.job i).state ≠ .free ∧ (t.job i).account = (s.job i).account

theorem State.older.trans (h : s.older t) (h' : t.older u) : s.older u := fun i hi =>
  ⟨(h i (h' i hi).1).1, (h' i hi).2.trans (h i (h' i hi).1).2⟩

theorem State.older_of_jobs (h : t.jobs = s.jobs) : s.older t := fun i hi => by
  rw [State.job_congr h i] at hi ⊢
  exact ⟨hi, rfl⟩

theorem Plain.older (h : Plain s t) : s.older t := fun i hi => ⟨fun e => hi ((h.jobs i).free_iff.mpr e), (h.jobs i).account⟩

theorem State.older_putJob {i : Nat} {j : Job} (hj : j.state ≠ .free → (s.job i).state ≠ .free ∧ j.account = (s.job i).account) :
    s.older (s.putJob i j) := by
  intro m hm
  dsimp only [State.putJob, State.job] at hm ⊢
  rw [entryAt_putAt] at hm ⊢
  split at hm
  · rename_i e
    obtain ⟨rfl, hi⟩ := e
    rw [if_pos ⟨rfl, hi⟩]
    exact hj hm
  · rename_i e
    rw [if_neg e]
    exact ⟨hm, rfl⟩

theorem State.older_detachSlot (j : Option Handle) (k : SlotHandle) : s.older (s.detachSlot j k) := by
  cases j with
  | none => exact State.older_of_jobs rfl
  | some j => exact State.older_putJob fun h => ⟨h, rfl⟩

theorem State.stopCore_jobs (s : State) (k : SlotHandle) : (s.stopCore k).jobs = s.jobs := by
  unfold State.stopCore
  split
  · rfl
  · split <;> rfl

theorem State.older_wipeSlot (i : Nat) : s.older (s.wipeSlot i) :=
  ((State.older_of_jobs (t := s.putSlot i (.free (((s.slot i).gen + 1) % 65536))) rfl).trans
    (State.older_detachSlot _ _)).trans (State.older_of_jobs (State.stopCore_jobs _ _))

theorem State.older_slotLeaves (k : SlotHandle) : s.older (s.slotLeaves k) := by
  unfold State.slotLeaves
  split
  · exact State.older_wipeSlot _
  · exact State.older_of_jobs rfl

theorem Job.settled_account (j : Job) (p : CipherPath) (c : Nat) (d : Bool) :
    (j.settled p c d).state = j.state ∧ (j.settled p c d).account = j.account := by
  cases p <;> exact ⟨rfl, rfl⟩

theorem Job.withHold_account (j : Job) (p : CipherPath) (n : Nat) :
    (j.withHold p n).state = j.state ∧ (j.withHold p n).account = j.account := by
  cases p <;> exact ⟨rfl, rfl⟩

theorem State.chargeAccount_jobs (s : State) (n : Nat) (c : AccountCharge) : (s.chargeAccount n c).jobs = s.jobs := by
  have hr : (s.readAccount n).jobs = s.jobs := by rw [State.readAccount_frame]
  dsimp only [State.chargeAccount]
  split
  · exact hr
  · exact hr

theorem State.older_releaseFree (i : Nat) : s.older (s.releaseFree i) :=
  State.older_putJob (s := s.subReserved _ _) fun h => ⟨h, rfl⟩

theorem State.older_settleHold (j : Handle) (p : CipherPath) (d : Bool) (c : AccountCharge) : s.older (s.settleHold j p d c) := by
  unfold State.settleHold
  split
  · exact State.older_of_jobs rfl
  · rename_i i _
    extract_lets n u v w
    have hu : s.older u := State.older_putJob (s := s.subReserved n c.charge) fun h => by
      rw [((s.job i).settled_account p c.charge d).1] at h
      exact ⟨h, ((s.job i).settled_account p c.charge d).2⟩
    have hw : w.jobs = u.jobs := by
      change ((v.touchJob j).touchHold j).jobs = _
      rw [State.touchHold_frame, State.touchJob_frame]
      exact u.chargeAccount_jobs _ _
    have hsw := hu.trans (State.older_of_jobs hw)
    split
    · exact hsw.trans (State.older_releaseFree _)
    · exact hsw

theorem State.older_requestHold {i n : Nat} {p : CipherPath} (e : s.requestHold i p n = some u) : s.older u := by
  have hput : ∀ m : Nat, ∀ t : State, t.jobs = s.jobs → s.older (t.putJob i ({ s.job i with free := m }.withHold p n)) := by
    intro m t ht
    refine (State.older_of_jobs ht).trans (State.older_putJob fun h => ?_)
    rw [(Job.withHold_account { s.job i with free := m } p n).1] at h
    rw [(Job.withHold_account { s.job i with free := m } p n).2, State.job_congr ht]
    exact ⟨h, rfl⟩
  by_cases hc : s.covers (s.job i).account (s.job i).free n
  · rw [State.requestHold_some hc] at e
    cases e
    exact hput _ _ rfl
  · rw [State.requestHold_none hc] at e
    cases e

theorem Job.freed_state (n : Nat) : (Job.freed n).state = .free := rfl

theorem State.older_freeJob (i : Nat) : s.older (s.freeJob i) := State.older_putJob fun h => absurd (Job.freed_state _) h

theorem State.older_jobGone (i : Nat) : s.older (s.jobGone i) := by
  have hput : s.older (s.putJob i { s.job i with slots := [] }) := State.older_putJob fun h => ⟨h, rfl⟩
  exact hput.trans (State.older_freeJob i)

/-- No operation but Open Job's makes a job. -/
theorem Op.older (h : Op K x y) (ho : x.1.opens = false) : y.1.opens = false ∧ x.2.older y.2 := by
  cases h with
  | plain h => exact ⟨ho, h.older⟩
  | printHold a cap i p hD h hb hj hu hv => exact ⟨ho, (State.older_requestHold hu).trans hv.older⟩
  | settlePrint => exact ⟨ho, State.older_settleHold _ _ _ _⟩
  | closePrint p code w13 w14 e f => exact ⟨ho, State.older_of_jobs (State.close_jobs _ 2 code w13 w14 e f)⟩
  | scanHold a i n p hD h hb hpage hj hu hv => exact ⟨ho, (State.older_requestHold hu).trans hv.older⟩
  | settleScan => exact ⟨ho, State.older_settleHold _ _ _ _⟩
  | closeScan code w13 w14 e f => exact ⟨ho, State.older_of_jobs (State.close_jobs _ 1 code w13 w14 e f)⟩
  | startWrite =>
    refine ⟨ho, State.older_of_jobs ?_⟩
    unfold State.startWrite
    split
    · rfl
    · split <;> rfl
  | releaseFree i => exact ⟨ho, State.older_releaseFree i⟩
  | endSlot i k rest => exact ⟨ho, State.older_slotLeaves k⟩
  | endJob i => exact ⟨ho, State.older_jobGone i⟩
  | grant i n hD hi =>
    exact ⟨ho, (State.older_putJob (j := { State.job _ i with state := .opened, free := _ }) fun _ => ⟨hi, rfl⟩).trans
      (State.older_of_jobs rfl)⟩
  | openJob a i hD => exact absurd ho (by rw [hD.2]; nofun)
  | wipe i => exact ⟨ho, State.older_wipeSlot i⟩
  | openSlot i j uses keep =>
    refine ⟨ho, ?_⟩
    refine State.older.trans ?_ (State.older_of_jobs (State.close_jobs _ 0 _ _ _ _ _))
    exact State.older_putJob fun h => ⟨h, rfl⟩
  | attachSlot k j =>
    refine ⟨ho, ?_⟩
    refine State.older.trans ?_ (State.older_of_jobs (State.close_jobs _ 0 _ _ _ _ _))
    exact State.older_putJob fun h => ⟨h, rfl⟩
  | _ => exact ⟨ho, State.older_of_jobs rfl⟩

theorem Ops.older (h : Ops K x y) (ho : x.1.opens = false) : x.2.older y.2 :=
  (h.keeps (P := fun z => z.1.opens = false ∧ x.2.older z.2) ⟨ho, State.older_of_jobs rfl⟩
    fun o hz => ⟨(o.older hz.1).1, hz.2.trans (o.older hz.1).2⟩).2

/-! ### Account and session tickets -/

theorem Plain.writeAccount (h : Plain s t) {n : Nat} {a : WriteArgs} : Plain s (t.writeAccount n a) := by
  refine Plain.putAcct (h.putRecord fun _ _ _ hu => ?_)
  change (t.writeBase n).used + (t.acct n).reserved ≤ t.quotaInEffect n a
  have hcommitted : (t.writeBase n).used + (t.acct n).reserved = t.committed n := rfl
  rw [hcommitted]
  unfold State.quotaInEffect
  split
  · exact Nat.le_refl _
  · rename_i hq
    exact Nat.not_lt.mp fun hlt => hq ⟨hu, hlt⟩

theorem Plain.setAccountWrite (h : Plain s t) {n : Nat} {a : WriteArgs} : Plain s (t.setAccountWrite n a) :=
  .ite (fun _ => h.readAccount.close0) fun _ => h.readAccount.writeAccount.close0

/-- Nothing is owed, and no job may be opened. -/
def Debt.shut : Debt := { Debt.clear with opens := false }

theorem State.older_destroyHeldOf (n : Nat) : s.older (s.destroyHeldOf n) := by
  have hrun : Ops False (Debt.shut, s) (Debt.shut, s.destroyHeldOf n) := Ops.destroyHeldOf Ops.refl ⟨⟨rfl, rfl, rfl⟩, rfl⟩
  generalize s.destroyHeldOf n = v at hrun ⊢
  exact hrun.older rfl

/-- R7: the volatile part of a vacated account. -/
theorem Plain.vacated (s : State) (n : Nat) : Plain (s.writeRecord n .vacant)
    ((s.writeRecord n .vacant).putAcct n { s.acct n with damaged := false, lockoutEnd := none }) := Plain.refl.putAcct

theorem Ops.setAccountVacate (h : Ops K x (D, t)) (hD : D.rests) {n : Nat} : Ops K x (D, t.setAccountVacate n) := by
  unfold State.setAccountVacate
  refine .ite (fun _ => h.plain Plain.refl.close0) fun hu => ?_
  have hnone : ∀ i, (t.job i).state ≠ .free → (t.job i).account ≠ n := by
    intro i hi hn
    refine hu ?_
    have hmem : t.job i ∈ t.jobs.toList := by simp [State.job, entryAt, State.job_lt hi]
    simp only [State.accountInUse, Bool.or_eq_true, List.any_eq_true]
    exact .inr ⟨_, hmem, by simp [hi, hn]⟩
  have hr : Plain t (t.readAccount n) := Plain.refl.readAccount
  have hrun := (h.plain hr).destroyHeldOf hD (n := n)
  have hgone := hrun.op (.vacate n fun i hi => by
    obtain ⟨ht, e⟩ := (hr.older.trans (State.older_destroyHeldOf n)) i hi
    rw [e]
    exact hnone i ht)
  exact (hgone.plain (Plain.vacated _ n).close0).pumpCore

theorem Ops.setAccountBody (h : Ops K x (D, t)) (hD : D.rests) {k : Ticket} : Ops K x (D, setAccountBody k t) := by
  unfold Machine.setAccountBody
  refine .ite (fun _ => h.plain Plain.refl.close0) fun _ => ?_
  split
  · split
    · exact h.plain Plain.refl.close0
    · exact .ite (fun _ => h.plain Plain.refl.close0) fun _ => h.plain Plain.refl.setAccountWrite
  · exact .ite (fun _ => h.plain Plain.refl.close0) fun _ => h.setAccountVacate hD
  · exact h.plain Plain.refl.close0

theorem Plain.writeAccounts {l : List Nat} (h : Plain s t) {a : Nat} : Plain s (t.writeAccounts a l).1 := by
  induction l generalizing t a with
  | nil => exact h
  | cons n rest ih =>
    simp only [State.writeAccounts]
    split <;> rename_i e
    · exact (h.readAccount.writeWords.fst_of_eq e).captureMemory
    · exact ih (h.readAccount.writeWords.fst_of_eq e)

theorem Plain.readAccountsBody (h : Plain s t) {k : Ticket} : Plain s (readAccountsBody k t) :=
  .ite (fun _ => h.close0) fun _ => h.writeAccounts.close0

/-- R9: a record whose used becomes 0. -/
theorem Plain.usedReset (h : Plain s t) {n : Nat} : Plain s (t.writeRecord n { t.record n with used := 0 }) :=
  h.putRecord fun hq hn h0 hu => (Nat.add_le_add_right (Nat.zero_le _) _).trans (hq.record hn h0 hu)

theorem Plain.resetOne {r : State × Nat × Nat} (h : Plain s r.1) {n : Nat} : Plain s (State.resetOne r n).1 := by
  unfold State.resetOne
  extract_lets u
  have hu : Plain s u := h.readAccount
  clear_value u
  split
  · exact hu
  · exact hu
  · exact hu.usedReset

theorem Plain.resetPeriodBody (h : Plain s t) {k : Ticket} : Plain s (resetPeriodBody k t) := by
  have hall : ∀ (l : List Nat) (r : State × Nat × Nat), Plain s r.1 → Plain s (l.foldl State.resetOne r).1 := by
    intro l
    induction l with
    | nil => exact fun _ hr => hr
    | cons n rest ih => exact fun r hr => ih _ hr.resetOne
  unfold Machine.resetPeriodBody
  refine .ite (fun _ => (hall _ (t, 0, 0) h).close0) fun _ => .ite (fun _ => h.close0) fun _ => ?_
  extract_lets u
  have hu : Plain s u := h.readAccount
  clear_value u
  split
  · exact hu.close0
  · exact hu.close0
  · exact hu.usedReset.close0

theorem Plain.openSessionBody (h : Plain s t) {k : Ticket} : Plain s (openSessionBody k t) := by
  unfold Machine.openSessionBody
  extract_lets n length u r v
  have hu : Plain s u := h.readAccount
  refine .ite (fun _ => h.close0) fun _ => ?_
  split
  · exact hu.refuse0
  · refine .ite (fun _ => ?_) fun _ => .ite (fun _ => hu.close0) fun _ => ?_
    · have hv : Plain s v := .ite (fun _ => hu.writeRecord_same rfl rfl rfl) fun _ => hu
      clear_value v
      unfold State.openSessionFor
      split
      · exact hv.close0
      · split
        · exact hv.close0
        · exact hv.putSession.putAcct.close0
    · have hr : Plain s (u.writeRecord n ((u.record n).wrong u.stored.settings.timers.failureLimit)) := hu.writeRecord_same rfl rfl rfl
      exact Plain.close0 (.ite (fun _ => hr.putAcct) fun _ => hr)

theorem Ops.closeSessionBody (h : Ops K x (D, t)) (hD : D.rests) {k : Ticket} : Ops K x (D, closeSessionBody k t) := by
  unfold Machine.closeSessionBody
  split
  · exact h.plain Plain.refl.close0
  · exact ((h.endSession hD).plain Plain.refl.close0).pumpCore

/-! ### Job and hold tickets -/

theorem Ops.openJobBody (h : Ops K x (D, t)) (hD : D.paid) (ho : D.opens = true) {k : Ticket} : Ops K x (D, openJobBody k t) := by
  unfold Machine.openJobBody
  split
  · exact h.plain Plain.refl.close0
  · rename_i a ha
    extract_lets u
    have hu : Ops K x (D, u) := h.plain Plain.refl.touchOptSession.readAccount
    clear_value u
    split
    · exact hu.plain Plain.refl.refuse0
    · split
      · exact hu.plain Plain.refl.close0
      · rename_i i hi
        refine hu.op (.openJob a i ⟨hD.ending, ho⟩ hi ?_)
        unfold OpenJobArgs.ofTicket at ha
        split at ha
        · cases ha
        · split at ha
          · cases ha
          · cases ha
            show (k.w 2).toNat < 512
            omega

theorem grantOf_le {r n : Nat} {o : Option Nat} (h : o = some n) : grantOf r o ≤ n := by
  rw [h]
  exact Nat.min_le_right _ _

theorem Ops.resumeJobBody (h : Ops K x (D, t)) (hD : D.paid) {k : Ticket} : Ops K x (D, resumeJobBody k t) := by
  unfold Machine.resumeJobBody
  extract_lets j u
  have hu : Ops K x (D, u) := h.plain Plain.refl.touchJob
  clear_value u
  split
  · exact hu.plain Plain.refl.close0
  · exact hu.plain Plain.refl.refuse0
  · rename_i i hi _
    extract_lets v e grant
    have hp : Plain u v := Plain.refl.readAccount
    have hv := hu.plain hp
    split
    · exact hv.plain Plain.refl.refuse0
    · refine Ops.plain (hv.op (.grant i grant hD.ending ?_ fun n hn => ?_)) Plain.refl.close0
      · intro hf
        exact (State.jobOf_idx hi).2.2.1 ((hp.jobs i).free_iff.mp hf)
      · exact (Nat.min_le_left _ _).trans (grantOf_le hn)

theorem Ops.endJobBody (h : Ops K x (D, t)) (hD : D.paid) {k : Ticket} : Ops K x (D, endJobBody k t) := by
  unfold Machine.endJobBody
  extract_lets j u
  have hu : Ops K x (D, u) := h.plain Plain.refl.touchJob
  clear_value u
  split
  · exact hu.plain Plain.refl.close0
  · exact hu.plain Plain.refl.refuse0
  · rename_i i hi _
    exact ((hu.endJobEntry hD (State.jobOf_idx hi).2.2.1).plain Plain.refl.close0).pumpCore

theorem Plain.takeHoldBody (h : Plain s t) {k : Ticket} : Plain s (takeHoldBody k t) := by
  unfold Machine.takeHoldBody
  extract_lets j u n v taken
  have hu : Plain s u := h.touchJob
  have hv : Plain s v := hu.readAccount
  clear_value v u
  split
  · exact hu.refuse0
  · split
    · exact hv.refuse0
    · exact hv.hold.close0

theorem Plain.releaseHoldBody (h : Plain s t) {k : Ticket} : Plain s (releaseHoldBody k t) := by
  unfold Machine.releaseHoldBody
  extract_lets j u
  have hu : Plain s u := h.touchJob
  clear_value u
  split
  · exact hu.refuse0
  · exact hu.hold.close0

/-! ### Key slot tickets -/

theorem State.lt_of_listFull {j : Handle} (h : s.listFull j = none) : (s.job j.idx).slots.length < 4 := by
  have := refuseIf_none.mp h
  simpa using this

theorem Ops.openSlotBody (h : Ops K x (D, t)) (hD : D.rests) {k : Ticket} : Ops K x (D, openSlotBody k t) := by
  unfold Machine.openSlotBody
  extract_lets uses keep j u n v
  refine .ite (fun _ => h.plain Plain.refl.close0) fun _ => ?_
  have hu : Ops K x (D, u) := h.plain Plain.refl.touchJob
  split
  · exact hu.plain Plain.refl.refuse0
  · rename_i hj
    have hp : Plain u v := Plain.refl.readAccount
    have hv : Ops K x (D, v) := hu.plain hp
    split
    · exact hv.plain Plain.refl.refuse0
    · rename_i hr
      split
      · exact hv.plain Plain.refl.close0
      · rename_i i hi
        refine hv.op (.openSlot i j uses _ hD.ending hi ((hp.jobOf j).trans (State.jobOf_of_refusal hj)) (State.lt_of_listFull ?_))
        exact firstRefusal_none.mp hr (v.listFull j) (by simp)

theorem Plain.keepSlotBody (h : Plain s t) {k : Ticket} : Plain s (keepSlotBody k t) := by
  unfold Machine.keepSlotBody
  extract_lets i j u minutes
  have hu : Plain s u := h.touchJob
  clear_value u
  split
  · exact hu.refuse0
  · exact (hu.putSlot {}).close0

theorem Ops.attachSlotBody (h : Ops K x (D, t)) (hD : D.rests) {k : Ticket} : Ops K x (D, attachSlotBody k t) := by
  unfold Machine.attachSlotBody
  extract_lets i j e u n v
  have hu : Ops K x (D, u) := h.plain Plain.refl.touchJob.touchSession
  split
  · exact hu.plain Plain.refl.refuse0
  · rename_i hr1
    have hp : Plain u v := Plain.refl.readAccount
    have hv : Ops K x (D, v) := hu.plain hp
    split
    · exact hv.plain Plain.refl.refuse0
    · rename_i hr2
      have hall := firstRefusal_none.mp hr1
      have hj := State.jobOf_of_refusal (hall (u.jobRefusal j true) (by simp))
      have hnot := refuseIf_none.mp (hall (refuseIf ((u.slotOf i).isNone || decide ((u.slot i.idx).state = .live)) .badSlot) (by simp))
      have hheld := State.held_of_attachable hnot
      have hfound : u.slotOf i = some i.idx := by
        rw [Bool.or_eq_false_iff, Option.isNone_eq_false_iff, Option.isSome_iff_exists] at hnot
        obtain ⟨m, hm⟩ := hnot.1
        rw [hm, (State.slotOf_some hm).1]
      have howner := refuseIf_none.mp (hall (u.ownerRefusal j i) (by simp))
      have hslot := hp.slots i.idx
      have haccount : v.jobAccount j = u.jobAccount j := (hp.jobs j.idx).account
      refine hv.op (.attachSlot i j hD.ending ((hp.slotOf i).trans hfound) (hslot.state.trans hheld) ?_ ((hp.jobOf j).trans hj)
        (State.lt_of_listFull (firstRefusal_none.mp hr2 (v.listFull j) (by simp))))
      rw [hslot.owner, haccount]
      simpa using howner

theorem Ops.destroySlotBody (h : Ops K x (D, t)) (hD : D.rests) {k : Ticket} : Ops K x (D, destroySlotBody k t) := by
  unfold Machine.destroySlotBody
  extract_lets i j e u k
  have hu : Plain t u := by
    dsimp only [u]
    cases j
    · exact Plain.refl.touchOptSession
    · exact Plain.refl.touchJob
  refine .ite (fun _ => h.plain Plain.refl.close0) fun _ => ?_
  split
  · exact (h.plain hu).plain Plain.refl.refuse0
  · exact (((h.plain hu).destroySlot hD).plain Plain.refl.close0).pumpCore

/-! ### Settings, status and the end of a withdrawal -/

theorem Ops.putSection (h : Ops K x (D, t)) (hD : D.rests) {c : Section} : Ops K x (D, t.putSection c) := by
  unfold State.putSection
  extract_lets old was st u
  have hu : Ops K x (D, u) := h.plain (Plain.refl.store rfl)
  clear_value u
  split
  · exact hu.plain (Plain.foldl (fun h => h.resupply) _ .refl)
  · exact hu.senseChange hD
  · exact hu

theorem Ops.configureBody (h : Ops K x (D, t)) (hD : D.rests) {k : Ticket} : Ops K x (D, configureBody k t) := by
  unfold Machine.configureBody
  extract_lets n source result
  split
  · exact h.plain Plain.refl.close0
  · refine .ite (fun _ => h.plain Plain.refl.close0) fun _ => ?_
    split
    · exact h.plain Plain.refl.captureMemory.close0
    · split
      · exact h.plain Plain.refl.close0
      · exact (h.putSection hD).plain Plain.refl.writeControlResult.close0

theorem Plain.statusDigestBody (h : Plain s t) {k : Ticket} : Plain s (statusDigestBody k t) := by
  unfold Machine.statusDigestBody
  extract_lets result session u
  have hu : Plain s u := h.touchOptSession
  exact .ite (fun _ => h.close0) fun _ => .ite (fun _ => h.close0) fun _ => hu.writeControlResult.close0

theorem Plain.clearFaultsBody (h : Plain s t) {k : Ticket} : Plain s (clearFaultsBody k t) :=
  have hc : Plain t { t with faults := FaultRecord.cleared } := {}
  Plain.close0 (h.trans hc)

theorem Plain.resumeServiceBody (h : Plain s t) {k : Ticket} : Plain s (resumeServiceBody k t) :=
  .ite (fun _ => h.close0) fun _ => .ite (fun _ => h.close0) fun _ => .ite (fun _ => h.close0) fun _ =>
    h.core fun _ => State.coreSettled_busy (.inr (.inr rfl))

/-! ### Cartridge tickets -/

theorem Plain.checkCartridgeBody (h : Plain s t) {k : Ticket} : Plain s (checkCartridgeBody k t) :=
  .ite (fun _ => h.close3) fun _ => (Plain.foldl (fun h => .ite (fun _ => h.countNotChecked) fun _ => h.requestCheck) _ h.checkWait).endCheckWait

theorem Plain.readCartridgesBody (h : Plain s t) {k : Ticket} : Plain s (readCartridgesBody k t) :=
  .ite (fun _ => h.close3) fun _ => h.writeEntries.close3

end Sys2Proof.Machine
end

