-- ==== Sys2Proof/Proofs/OpRuns4.lean ====
section
/-! The tickets of the two paths, and every command, as runs of operations. -/

namespace Sys2Proof.Machine

variable {K : Prop} {x y : Debt × State} {D : Debt} {b s t u : State}

/-! ### What holds before a command -/

/-- What the laws of units tell of the lanes and the paths of a part that is alive (R160, R90). -/
structure State.linked (s : State) : Prop where
  print : s.print.state ≠ .idle → s.begun 2
  scan : s.scan.state ≠ .idle → s.begun 1
  writes : ∀ i, s.writingBuffer = some i → s.scanWorks
  cipher : s.scan.state = .ciphering → s.scan.work ≠ .page

/-- Nothing of a path is under way that the lane's ticket would be for. -/
structure State.laneRests (s : State) (K : Prop) (n : Fin 4) : Prop where
  scan : K → n = 1 → s.scan.state = .idle
  print : K → n = 2 → s.print.state = .idle

theorem Plain.laneRests {n : Fin 4} (h : Plain s t) (hr : s.laneRests K n) : t.laneRests K n :=
  ⟨fun hk hn => h.scanState.trans (hr.scan hk hn), fun hk hn => h.idle.mpr (hr.print hk hn)⟩

theorem State.linked.laneRests {n : Fin 4} (h : K → s.linked) (hn : ¬s.begun n) : s.laneRests K n where
  scan hk e := by
    by_contra hs
    exact hn (e ▸ (h hk).scan hs)
  print hk e := by
    by_contra hs
    exact hn (e ▸ (h hk).print hs)

theorem Ops.putLane {n : Fin 4} {l : Lane} (h : Ops K x (D, t)) (hr : t.laneRests K n) : Ops K x (D, t.putLane n l) :=
  h.op (.lane n l hr.scan hr.print)

theorem Ops.closeRests {n : Fin 4} (h : Ops K x (D, t)) (hr : t.laneRests K n) {code : ReturnCode} {w13 w14 : Nat} {e f : Bool} :
    Ops K x (D, t.close n code w13 w14 e f) := by
  unfold State.close
  split
  · exact h
  · rename_i k _
    have hp : Plain t ((t.closeWords n k.address code w13 w14 e f).raise (.closed n)) := Plain.refl.closeWords.raise
    exact (h.plain hp).putLane (hp.laneRests hr)

/-- The service of a ticket begins: its lane's path is at rest, and the ticket has begun. -/
theorem Ops.beginService {n : Fin 4} {k : Ticket} (h : Ops K x (D, t)) (hr : t.laneRests K n) (hk : (t.lane n).service = some k) :
    Ops K x (D, t.beginService n) ∧ (t.beginService n).laneRests K n ∧ (t.beginService n).begun n := by
  unfold State.beginService
  rw [hk]
  exact ⟨h.putLane hr, ⟨hr.scan, hr.print⟩, { k with begun := true }, by rw [State.putLane_lane_same], rfl⟩

/-- A ticket is served by a body that is a run. -/
theorem Ops.serve {kind : TicketKind} {w13 : Nat} {body : Ticket → State → State} (h : Ops K x (D, b)) (hl : K → b.alive = true → b.linked)
    (hbody : ∀ k t, Ops K x (D, t) → t.laneRests K kind.lane → t.begun kind.lane → Ops K x (D, body k t)) :
    Ops K x (D, serve kind w13 body b) := by
  unfold Machine.serve
  split
  · exact h
  · rename_i k hk
    extract_lets t
    obtain ⟨hup, hserv, hbegun⟩ : b.up = true ∧ (b.lane kind.lane).service = some k ∧ k.begun = false := by
      unfold State.serving at hk
      split at hk
      · rename_i hup
        split at hk
        · cases hk
        · rename_i k' hk'
          split at hk
          · rename_i hc
            cases hk
            exact ⟨hup, hk', hc.1⟩
          · cases hk
      · cases hk
    have halive : b.alive = true := by
      simp only [State.up, Bool.and_eq_true] at hup
      exact hup.1
    have hrest : b.laneRests K kind.lane := State.linked.laneRests (fun hk => hl hk halive) fun ⟨k', hk', e⟩ => by
      rw [hserv] at hk'
      cases hk'
      rw [hbegun] at e
      cases e
    obtain ⟨ht, hrt, hbt⟩ := h.beginService hrest hserv
    split
    · exact ht.closeRests hrt
    · exact hbody k t ht hrt hbt

/-! ### The tickets of the print path -/

theorem Ops.printImpressionBody (h : Ops K x (D, t)) (hD : D.rests) (hr : t.laneRests K 2) (hb : t.begun 2) {k : Ticket} :
    Ops K x (D, printImpressionBody k t) := by
  unfold Machine.printImpressionBody
  extract_lets job list count
  refine .ite (fun _ => h.closeRests hr) fun _ => ?_
  split
  · have hp : ∀ bad, Plain t ((t.touchJob job).captureMemory .memoryRead 2 bad) := fun _ => Plain.refl.touchJob.captureMemory
    exact (h.plain (hp _)).closeRests ((hp _).laneRests hr)
  · extract_lets raw
    split
    · exact h.closeRests hr
    · refine Ops.printAdmit (h.op (.printTicket _ (fun hk => hr.print hk rfl) rfl)) hD ⟨fun hk hf => ?_, fun _ _ => hb⟩
      have hi : t.print.state = .idle := hr.print hk rfl
      have hf' : t.print.state.inFlight := hf
      rw [hi] at hf'
      simp [PrintState.inFlight] at hf'

/-! ### The tickets of the scan path -/

theorem Ops.scanPageBody (h : Ops K x (D, t)) (hD : D.rests) (hr : t.laneRests K 1) (hb : t.begun 1) {k : Ticket} :
    Ops K x (D, scanPageBody k t) := by
  unfold Machine.scanPageBody
  extract_lets job list count
  refine .ite (fun _ => h.closeRests hr) fun _ => ?_
  split
  · have hp : ∀ bad, Plain t ((t.touchJob job).captureMemory .memoryRead 1 bad) := fun _ => Plain.refl.touchJob.captureMemory
    exact (h.plain (hp _)).closeRests ((hp _).laneRests hr)
  · extract_lets buffers
    split
    · exact h.closeRests hr
    · exact Ops.scanAdmit (h.op (.scanTicket _ (fun hk => hr.scan hk rfl) rfl rfl rfl rfl)) hD
        ⟨fun _ => .inl rfl, fun _ _ => hb, fun _ _ => rfl⟩

theorem Ops.beginCipherWork (h : Ops K x (D, t)) (hr : t.laneRests K 1) (hb : t.begun 1) {work : ScanWork} {a : ScanArgs}
    {page : Nat} {l : List Source} {d : List Destination} (hw : work ≠ .page := by nofun) : Ops K x (D, t.beginCipher work a page l d) :=
  Ops.startSourceRead (h.op (.beginCipher _ (fun hk => hr.scan hk rfl) (fun _ => hb) rfl hw rfl rfl)) (fun _ => .inr rfl) rfl

theorem Ops.admitEncipher (h : Ops K x (D, t)) (hr : t.laneRests K 1) (hb : t.begun 1) {a : ScanArgs} {l : List Source}
    {d : List Destination} : Ops K x (D, t.admitEncipher a l d) := by
  unfold State.admitEncipher
  extract_lets u v r
  have hu : Plain t u := Plain.refl.touchJob
  have hv : Plain t v := hu.readAccount
  have hp : Plain t r.1 := hv.takePageNumber
  split
  · exact (h.plain hu).closeRests (hu.laneRests hr)
  · split
    · exact (h.plain hv).closeRests (hv.laneRests hr)
    · exact (h.plain hp).beginCipherWork (hp.laneRests hr) (hp.begun1 hb)

theorem Ops.admitDecipher (h : Ops K x (D, t)) (hr : t.laneRests K 1) (hb : t.begun 1) {a : ScanArgs} {page : Nat} {l : List Source}
    {d : List Destination} : Ops K x (D, t.admitDecipher a page l d) := by
  unfold State.admitDecipher
  extract_lets u v
  have hu : Plain t u := Plain.refl.touchJob
  have hv : Plain t v := hu.readAccount
  split
  · exact (h.plain hu).closeRests (hu.laneRests hr)
  · split
    · exact (h.plain hv).closeRests (hv.laneRests hr)
    · exact (h.plain hv).beginCipherWork (hv.laneRests hr) (hv.begun1 hb)

theorem Ops.encipherBandsBody (h : Ops K x (D, t)) (hr : t.laneRests K 1) (hb : t.begun 1) {k : Ticket} :
    Ops K x (D, encipherBandsBody k t) := by
  unfold Machine.encipherBandsBody
  extract_lets job count
  refine .ite (fun _ => h.closeRests hr) fun _ => ?_
  split
  · have hp : ∀ bad, Plain t ((t.touchJob job).captureMemory .memoryRead 1 bad) := fun _ => Plain.refl.touchJob.captureMemory
    exact (h.plain (hp _)).closeRests ((hp _).laneRests hr)
  · refine .ite (fun _ => h.closeRests hr) fun _ => ?_
    split
    · exact h.closeRests hr
    · exact h.admitEncipher hr hb

theorem Ops.decipherBandsBody (h : Ops K x (D, t)) (hr : t.laneRests K 1) (hb : t.begun 1) {k : Ticket} :
    Ops K x (D, decipherBandsBody k t) := by
  unfold Machine.decipherBandsBody
  extract_lets job count page
  refine .ite (fun _ => h.closeRests hr) fun _ => ?_
  split
  · have hp : ∀ bad, Plain t ((t.touchJob job).captureMemory .memoryRead 1 bad) := fun _ => Plain.refl.touchJob.captureMemory
    exact (h.plain (hp _)).closeRests ((hp _).laneRests hr)
  · refine .ite (fun _ => h.closeRests hr) fun _ => ?_
    split
    · exact h.closeRests hr
    · exact h.admitDecipher hr hb

/-! ### The fetch -/

theorem Ops.fetchTicket (h : Ops K x (D, t)) {n : Fin 4} {a : Nat} (hr : t.laneRests K n) : Ops K x (D, t.fetchTicket n a) := by
  unfold State.fetchTicket
  split
  · have hp : ∀ bad, Plain t (t.captureMemory .memoryRead n.val bad) := fun _ => Plain.refl.captureMemory
    exact (h.plain (hp _)).putLane ((hp _).laneRests hr)
  · extract_lets k l u
    have hu : Ops K x (D, u) := h.putLane hr
    have hru : u.laneRests K n := ⟨hr.scan, hr.print⟩
    clear_value u
    refine .ite (fun _ => ?_) fun _ => ?_
    · have hp : Plain u (u.raise .stale) := Plain.refl.raise
      exact (hu.plain hp).putLane (hp.laneRests hru)
    · split
      · exact hu.closeRests hru
      · unfold State.markActive
        rcases u.writeWord_cases (k.address + 60) (closingWord 2 0 u.epoch false false) with ⟨-, e⟩ | ⟨-, e⟩ <;> rw [e]
        · have hp : ∀ bad, Plain u (u.captureMemory .memoryWrite n.val bad) := fun _ => Plain.refl.captureMemory
          exact (hu.plain (hp _)).putLane ((hp _).laneRests hru)
        · exact hu.plain Plain.refl.setMem

theorem Ops.takeFetch (h : Ops K x (D, t)) {n : Fin 4} (hl : K → t.linked) : Ops K x (D, t.takeFetch n) := by
  unfold State.takeFetch
  split
  · rename_i hs _
    have hr : t.laneRests K n := State.linked.laneRests hl fun ⟨k, hk, _⟩ => by rw [hs] at hk; cases hk
    have hp : ∀ q, Plain t (t.putLane n { t.lane n with queue := q }) := fun _ => Plain.putQueue .refl
    exact (h.plain (hp _)).fetchTicket ((hp _).laneRests hr)
  · exact h

/-! ### The engine port and the band reads -/

theorem Plain.sendLine (h : Plain s t) (hs : t.print.state = .imaging ∨ t.print.state = .imaged) {a : PrintArgs} {c : Curve} {p : Plane}
    {i : Nat} {e : BandEntry} : Plain s (t.sendLine a c p i e) := by
  unfold State.sendLine
  extract_lets line bytes position
  refine h.trans { idle := ?_, flight := ?_ }
  · dsimp only []
    split
    · rcases hs with e | e <;> simp [e]
    · exact Iff.rfl
  · dsimp only []
    split
    · exact ⟨fun _ => hs.elim (fun e => .inr (.inl e)) fun e => .inr (.inr e), fun _ => .inr (.inr rfl)⟩
    · exact Iff.rfl

theorem Ops.takeDemand (h : Ops K x (D, t)) (hD : D.rests) (hs : t.print.state = .imaging ∨ t.print.state = .imaged) {p : Plane} :
    Ops K x (D, t.takeDemand p) := by
  have hf : t.print.state.inFlight := .inr hs
  unfold State.takeDemand
  split
  · refine .ite (fun _ => h.plain Plain.refl.capture) fun _ => ?_
    split
    · exact (h.spoil hD hf).pumpCore
    · split
      · exact (h.spoil hD hf).pumpCore
      · exact .ite (fun _ => h.plain (Plain.refl.sendLine hs)) fun _ => (h.spoil hD hf).pumpCore
  · exact h

theorem Ops.takeOutcome (h : Ops K x (D, t)) (hD : D.rests) (hs : t.print.state = .imaging ∨ t.print.state = .imaged) {d : Bool} :
    Ops K x (D, t.takeOutcome d) := by
  have hf : t.print.state.inFlight := .inr hs
  exact .ite (fun _ => .ite (fun _ => h.settlePrint hD hf) fun _ => (h.plain Plain.refl.capture).spoil hD hf) fun _ => h.settlePrint hD hf

theorem Ops.engineEvent (h : Ops K x (D, t)) {n : Nat} {e : EngineEvent} {f : State → State}
    (hf : t.print.state = .imaging ∨ t.print.state = .imaged → Ops K x (D, f t)) : Ops K x (D, t.engineEvent n e f) := by
  refine .ite (fun hn => hf ?_) fun _ => .ite (fun _ => h) fun _ => h.plain Plain.refl.capture
  unfold State.inFlightNumber at hn
  split at hn
  · assumption
  · cases hn

theorem Ops.printCore (h : Ops K x (D, t)) {c : Core} (hw : c.scanWaiting = t.core.scanWaiting := by rfl)
    (hb : ∀ b, b.path = CipherPath.scan → (c.band = some b ↔ t.core.band = some b) := by exact fun _ _ => Iff.rfl) :
    Ops K x (D, { t with core := c }) := h.op (.printCore c hw hb)

theorem Ops.presentPrint (h : Ops K x (D, t)) {l : List BandEntry} {i : Nat} :
    Ops K x (D, ({ t with print := { t.print with table := l } } : State).presentPrint i) := (h.plain Plain.refl.print).printCore

theorem Ops.takeBandRead (h : Ops K x (D, t)) (hD : D.rests) {i : Nat} : Ops K x (D, t.takeBandRead i) := by
  unfold State.takeBandRead
  split
  · split
    · refine .ite (fun _ => Ops.pumpCore ?_) fun _ => h
      unfold State.bandRead
      split
      · exact (h.plain Plain.refl.captureMemory).bandFails hD
      · exact .ite (fun _ => .ite (fun _ => h.presentPrint) fun _ => h.bandFails hD) fun _ =>
          h.bandReady hD
    · exact h
  · exact h

/-! ### The scanner port and the source reads -/

theorem State.takesScanner_takes {a : ScanArgs} (h : s.takesScanner = true) {P : Prop} (ha : s.scan.args = some a) (hp : s.presentable → P) : s.takes a P := by
  simp only [State.takesScanner, Bool.and_eq_true, decide_eq_true_eq, Option.isNone_iff_eq_none] at h
  exact ⟨h.1.1, h.1.2, ha, fun hg => hp ⟨a, ha, .inl ⟨h.1.1, hg⟩⟩⟩

theorem Ops.scannerLine (h : Ops K x (D, t)) (hD : D.rests) (hp : K → t.presentable → D.presents) {l : List Byte} : Ops K x (D, t.scannerLine l) := by
  unfold State.scannerLine
  split
  · exact h
  · rename_i a ha
    exact .ite (fun hc => (h.takeLine hD (State.takesScanner_takes hc.2 ha fun hg hk => hp hk hg)).pumpCore) fun _ => h

theorem Ops.scannerPageEnd (h : Ops K x (D, t)) (hD : D.rests) (hp : K → t.presentable → D.presents) : Ops K x (D, t.scannerPageEnd) := by
  unfold State.scannerPageEnd
  refine .ite (fun _ => h.clearDrain hD) fun _ => ?_
  split
  · exact h
  · rename_i a ha
    exact .ite (fun hc => (h.takePageEnd hD (State.takesScanner_takes hc ha fun hg hk => hp hk hg)).pumpCore) fun _ => h

theorem Ops.scannerError (h : Ops K x (D, t)) (hD : D.rests) : Ops K x (D, t.scannerError) :=
  .ite (fun _ => h.clearDrain hD) fun _ => .ite (fun _ => (h.failPage hD).pumpCore) fun _ => h

theorem Ops.takeSourceRead (h : Ops K x (D, t)) (hD : D.rests) (hl : K → t.linked) (hp : K → t.presentable → D.presents) : Ops K x (D, t.takeSourceRead) := by
  unfold State.takeSourceRead
  split
  · rename_i a i ha hi
    exact .ite (fun hc => (h.sourceRead hD hc.1 hc.2 ha (fun hk => (hl hk).cipher hc.1) hp hi).pumpCore) fun _ => h
  · exact h

/-! ### Tests, starts and expiries -/

theorem Ops.resumeTestEnds (h : Ops K x (D, t)) {p : Bool} : Ops K x (D, t.resumeTestEnds p) := by
  unfold State.resumeTestEnds
  extract_lets c u d v w
  have hu : Ops K x (D, u) := h.printCore
  refine .ite (fun _ => ?_) fun _ => hu.plain Plain.refl.capture.close0
  have hv : Ops K x (D, v) := hu.printCore
  exact .ite (fun _ => hv.plain Plain.refl.close0) fun _ => hv.plain Plain.refl.dev.close0

theorem Ops.selfTestEnds (h : Ops K x (D, t)) (hD : D.rests) {p : Bool} : Ops K x (D, t.selfTestEnds p) := by
  unfold State.selfTestEnds
  extract_lets c u
  have hu : Ops K x (D, u) := h.printCore
  exact .ite (fun _ => hu.pumpCore) fun _ => ((hu.plain Plain.refl.capture).withdraw hD).pumpCore

theorem Ops.endStart (h : Ops K x (D, t)) (hD : D.rests) : Ops K x (D, t.endStart) := by
  unfold State.endStart
  refine .ite (fun _ => h.plain Plain.refl.dev) fun _ => ?_
  extract_lets d u v
  have hv : Ops K x (D, v) := h.plain (Plain.refl.dev.requestChecks _)
  exact .ite (fun _ => hv.withdraw hD) fun _ => hv

theorem Plain.unlock (h : Plain s t) {n : Nat} : Plain s (t.unlock n) := by
  have hw : Plain s (t.writeRecord n { t.record n with state := .active, failed := 0 }) := h.writeRecord_same rfl rfl rfl
  exact hw.putAcct.raise

theorem Plain.takePost (h : Plain s t) {v : Word} : Plain s (t.takePost v) := .ite (fun _ => h.raise) fun _ => h.trans (Plain.putQueue .refl)

/-! ### Every command -/

theorem State.up_alive (h : s.up = true) : s.alive = true := by
  simp only [State.up, Bool.and_eq_true] at h
  exact h.1

theorem Ops.whenUp {f : State → State} (h : Ops K x (D, b)) (hf : b.up = true → Ops K x (D, f b)) : Ops K x (D, b.whenUp f) :=
  .ite hf fun _ => h

theorem Ops.whenAlive {f : State → State} (h : Ops K x (D, b)) (hf : b.alive = true → Ops K x (D, f b)) : Ops K x (D, b.whenAlive f) :=
  .ite hf fun _ => h

theorem Ops.linkEffect {f : State → State} (h : Ops K x (D, b)) (hD : D.rests) (hf : Plain b (f b)) : Ops K x (D, b.linkEffect f) :=
  .ite (fun _ => (h.plain hf.endCheckWait).renewPrintOnSupply hD) fun _ => h

/-- What a command does: operations from the state it begins in, a start, or the hold of the reset input. -/
inductive Worked (K : Prop) (D : Debt) (b : State) : State → Prop
  | ops {t : State} (h : Ops K (D, b) (D, t)) : Worked K D b t
  | start (f : FaultRecord) (cause : StartCause) (x : StartInputs) : Worked K D b (State.start { b with faults := f } cause x)
  | held : Worked K D b b.holdReset

/-- Where a command begins nothing stands open, and job entries may be taken. -/
structure Debt.begins (D : Debt) : Prop extends toRests : D.rests where
  lost : ∀ k, ¬D.lost k
  opens : D.opens = true

theorem Debt.clear_begins : Debt.clear.begins := ⟨Debt.clear_rests, fun _ => id, rfl⟩

theorem effectOf_worked (c : Instr) (b : State) (hB : D.begins) (hl : K → b.alive = true → b.linked)
    (hp : K → b.alive = true → b.presentable → D.presents) : Worked K D b (effectOf c b) := by
  have h0 : Ops K (D, b) (D, b) := .refl
  have hD := hB.toRests
  have hup : b.up = true → K → b.linked := fun hu hk => hl hk (State.up_alive hu)
  cases c with
  | powerOn e x => exact .start .cleared .power x
  | resetInputAssert =>
    show Worked K D b (if b.power then b.holdReset else b)
    split
    · exact .held
    · exact .ops h0
  | resetInputRelease e x =>
    show Worked K D b (if b.power ∧ b.nrst then b.powerStart x else b)
    split
    · exact .start .cleared .power x
    · exact .ops h0
  | restart e v x =>
    show Worked K D b (if b.alive ∧ bits v 3 0 = 1 then b.start .restart x else b)
    split
    · exact .start b.faults .restart x
    · exact .ops h0
  | startEnd e => exact .ops (.ite (fun _ => h0.endStart hD) fun _ => h0)
  | post v => exact .ops (h0.whenAlive (f := fun b : State => b.takePost v) fun _ => h0.plain Plain.refl.takePost)
  | noticeRead => exact .ops (h0.whenAlive (f := fun b : State => { b with readData := b.notice.setWidth 32, notice := 0 }) fun _ => h0.plain {})
  | noticeEnableWrite v => exact .ops (h0.whenAlive (f := fun b : State => { b with enable := v.setWidth 13 }) fun _ => h0.plain {})
  | registerWriteIgnored w => exact .ops h0
  | fetch e n => exact .ops (h0.whenUp (f := fun b : State => b.takeFetch n) fun hu => h0.takeFetch (hup hu))
  | setAccount e => exact .ops (h0.serve hl fun k t ht _ _ => ht.setAccountBody hD)
  | readAccounts e => exact .ops (h0.serve hl fun k t ht _ _ => ht.plain Plain.refl.readAccountsBody)
  | resetPeriod e => exact .ops (h0.serve hl fun k t ht _ _ => ht.plain Plain.refl.resetPeriodBody)
  | openSession e => exact .ops (h0.serve hl fun k t ht _ _ => ht.plain Plain.refl.openSessionBody)
  | closeSession e => exact .ops (h0.serve hl fun k t ht _ _ => ht.closeSessionBody hD)
  | sessionIdleExpiry e n => exact .ops (.ite (fun _ => ((h0.endSession hD).plain Plain.refl.raise).pumpCore) fun _ => h0)
  | lockoutExpiry e n => exact .ops (.ite (fun _ => h0.plain Plain.refl.unlock) fun _ => h0)
  | openJob e => exact .ops (h0.serve hl fun k t ht _ _ => ht.openJobBody hD.toPaid hB.opens)
  | resumeJob e => exact .ops (h0.serve hl fun k t ht _ _ => ht.resumeJobBody hD.toPaid)
  | endJob e => exact .ops (h0.serve hl fun k t ht _ _ => ht.endJobBody hD.toPaid)
  | takeHold e => exact .ops (h0.serve hl fun k t ht _ _ => ht.plain Plain.refl.takeHoldBody)
  | releaseHold e => exact .ops (h0.serve hl fun k t ht _ _ => ht.plain Plain.refl.releaseHoldBody)
  | engineHoldIdleExpiry e => exact .ops (.ite (fun _ => h0.plain Plain.refl.hold.raise) fun _ => h0)
  | openSlot e => exact .ops (h0.serve hl fun k t ht _ _ => ht.openSlotBody hD)
  | keepSlot e => exact .ops (h0.serve hl fun k t ht _ _ => ht.plain Plain.refl.keepSlotBody)
  | attachSlot e => exact .ops (h0.serve hl fun k t ht _ _ => ht.attachSlotBody hD)
  | destroySlot e => exact .ops (h0.serve hl fun k t ht _ _ => ht.destroySlotBody hD)
  | heldSlotExpiry e i => exact .ops (.ite (fun _ => ((h0.destroySlot hD).plain Plain.refl.raise).pumpCore) fun _ => h0)
  | configure e => exact .ops (h0.serve hl fun k t ht _ _ => ht.configureBody hD)
  | statusDigest e => exact .ops (h0.serve hl fun k t ht _ _ => ht.plain Plain.refl.statusDigestBody)
  | clearFaults e => exact .ops (h0.serve hl fun k t ht _ _ => ht.plain Plain.refl.clearFaultsBody)
  | resumeService e => exact .ops (h0.serve hl fun k t ht _ _ => ht.plain Plain.refl.resumeServiceBody)
  | resumeServiceTestEnd e p => exact .ops (.ite (fun _ => h0.resumeTestEnds.pumpCore) fun _ => h0)
  | printImpression e => exact .ops (h0.serve hl fun k t ht hr hb => ht.printImpressionBody hD hr hb)
  | bandReadDone e i => exact .ops (h0.whenUp (f := fun b : State => b.takeBandRead i) fun _ => h0.takeBandRead hD)
  | cipherBandDone e =>
    refine .ops ?_
    show Ops K _ (D, match b.core.band with
      | none => b
      | some x => b.whenUp fun b => b.coreBandEnds x)
    split
    · exact h0
    · rename_i x hx
      exact h0.whenUp fun _ => h0.coreBandEnds hD hB.lost hx
  | engineDemand e n p => exact .ops (h0.whenAlive (f := fun b : State => b.engineEvent n.toNat .demand fun b => b.takeDemand p) fun _ => h0.engineEvent fun hs => h0.takeDemand hD hs)
  | engineOutcome e n d => exact .ops (h0.whenAlive (f := fun b : State => b.engineEvent n.toNat (if d then .delivered else .spoiled) fun b => (b.takeOutcome d).pumpCore) fun _ => h0.engineEvent fun hs => (h0.takeOutcome hD hs).pumpCore)
  | scanPage e => exact .ops (h0.serve hl fun k t ht hr hb => ht.scanPageBody hD hr hb)
  | scannerLine e l => exact .ops (h0.whenAlive (f := fun b : State => b.scannerLine l) fun ha => h0.scannerLine hD fun hk => hp hk ha)
  | scannerPageEnd e => exact .ops (h0.whenAlive (f := State.scannerPageEnd) fun ha => h0.scannerPageEnd hD fun hk => hp hk ha)
  | scannerError e => exact .ops (h0.whenAlive (f := State.scannerError) fun _ => h0.scannerError hD)
  | bandWriteDone e => exact .ops (h0.whenUp (f := fun b : State => b.writeDone.pumpCore) fun hu => (h0.writeDone hD fun hk => (hup hu hk).writes).pumpCore)
  | encipherBands e => exact .ops (h0.serve hl fun k t ht hr hb => ht.encipherBandsBody hr hb)
  | decipherBands e => exact .ops (h0.serve hl fun k t ht hr hb => ht.decipherBandsBody hr hb)
  | sourceReadDone e => exact .ops (h0.whenUp (f := State.takeSourceRead) fun hu => h0.takeSourceRead hD (hup hu) fun hk => hp hk (State.up_alive hu))
  | periodicSelfTest => exact .ops (.ite (fun _ => h0.printCore) fun _ => h0)
  | periodicSelfTestEnd e p => exact .ops (.ite (fun _ => h0.selfTestEnds hD) fun _ => h0)
  | senseLineEdge e n high => exact .ops (h0.whenAlive (f := fun b : State => b.takeEdge n.val high) fun _ => h0.takeEdge hD)
  | checkCartridge e => exact .ops (h0.serve hl fun k t ht _ _ => ht.plain Plain.refl.checkCartridgeBody)
  | readCartridges e => exact .ops (h0.serve hl fun k t ht _ _ => ht.plain Plain.refl.readCartridgesBody)
  | procedureStart e => exact .ops (h0.linkEffect hD (.ite (fun _ => Plain.refl.startProcedure) fun _ => .refl))
  | attemptSend =>
    refine .ops ?_
    show Ops K _ (D, match b.link.state, b.link.transaction with
      | .settling, some t => b.whenUp fun b => { b with link := { b.link with state := .request, frame := t.frame } }
      | _, _ => b)
    split
    · exact h0.whenUp fun _ => h0.plain Plain.refl.link
    · exact h0
  | requestFrameDone => exact .ops (.ite (fun _ => h0.plain Plain.refl.link) fun _ => h0)
  | quietWaitTimeout e =>
    refine .ops (h0.linkEffect (f := fun b : State => match b.link.state, b.link.transaction with
      | .settling, some t => b.attemptEnds t .fails
      | _, _ => b) hD ?_)
    split
    · exact Plain.refl.attemptEnds
    · exact .refl
  | responseFrame e l => exact .ops (h0.linkEffect (f := fun b : State => b.responseEnds (attemptOf l)) hD Plain.refl.responseEnds)
  | responseDeadline e => exact .ops (h0.linkEffect (f := fun b : State => b.responseEnds fun _ => some .fails) hD Plain.refl.responseEnds)
  | linkLine e => exact .ops (h0.linkEffect hD Plain.refl.lineStuck)
  | linkLineRecovered => exact .ops (.ite (fun _ => h0.plain Plain.refl.link) fun _ => h0)
  | lossOfPower n => exact .ops h0

end Sys2Proof.Machine
end

