-- ==== Sys2Proof/Proofs/Attached.lean ====
section
/-! Slots, attachments and keys (sections 6.1 and 6.2): every operation keeps their laws, with a job's list standing for the slots still
to be taken from it while the job ends. -/

namespace Sys2Proof.Machine

variable {K : Prop} {x y : Debt × State} {s t u : State} {e f : Option (Nat × List SlotHandle)}

/-! ### The law -/

/-- A job's list of slots, or, of the job that ends, what is left of it. -/
def State.listOf (s : State) (e : Option (Nat × List SlotHandle)) (j : Nat) : List SlotHandle :=
  match e with
  | none => (s.job j).slots
  | some (i, rest) => if j = i then rest else (s.job j).slots

/-- R103, R104 and section 6.1, in the middle of a command. -/
structure Attached (e : Option (Nat × List SlotHandle)) (s : State) : Prop where
  live : ∀ i < 32, (s.slot i).state = .live → ∃ h j, (s.slot i).job = some h ∧ s.jobOf h = some j ∧
    (s.slot i).owner = some (s.job j).account ∧ { idx := i, gen := (s.slot i).gen } ∈ s.listOf e j
  lists : ∀ j, ∀ h ∈ s.listOf e j, (s.job j).state ≠ .free ∧ s.slotOf h = some h.idx ∧ (s.slot h.idx).state = .live ∧
    (s.slot h.idx).job = some (s.jobHandle j)
  short : ∀ j, (s.listOf e j).Nodup ∧ (s.listOf e j).length ≤ 4
  keys : s.keysDrawn
  keyed : ∀ i, (s.slot i).state ≠ .free → (s.slot i).key.isSome
  loose : ∀ i, (s.slot i).state ≠ .live → (s.slot i).job = none

theorem KeySlot.lawful_keyed {k : KeySlot} (h : k.lawful) : (k.state ≠ .free → k.key.isSome) ∧ (k.state ≠ .live → k.job = none) := by
  unfold KeySlot.lawful at h
  cases hk : k.state with
  | free =>
    rw [hk] at h
    rw [h]
    exact ⟨fun hn => absurd rfl hn, fun _ => rfl⟩
  | live => rw [hk] at h; exact ⟨fun _ => h.1, fun hn => absurd rfl hn⟩
  | held => rw [hk] at h; exact ⟨fun _ => h.1, fun _ => h.2.1⟩

theorem attached_of_laws (hl : s.slotsLawful) (ha : s.slotsAgree) (hk : s.keysDrawn) : Attached none s :=
  ⟨ha.1, ha.2.1, ha.2.2, hk, fun i => (KeySlot.lawful_keyed (hl i)).1, fun i => (KeySlot.lawful_keyed (hl i)).2⟩

theorem Attached.agree (h : Attached none s) : s.slotsAgree := ⟨h.live, h.lists, h.short⟩

theorem State.slotHandle_eq {h : SlotHandle} (hs : s.slotOf h = some h.idx) : h = { idx := h.idx, gen := (s.slot h.idx).gen } := by
  rw [(State.slotOf_some hs).2.2.2]

/-! ### Handles and keys of entries alike -/

/-- A job entry keeps its place and its account. -/
structure Job.placed (j k : Job) : Prop where
  free_iff : k.state = .free ↔ j.state = .free := by exact Iff.rfl
  gen : k.gen = j.gen := by rfl
  account : k.account = j.account := by rfl

theorem State.jobOf_placed (hj : ∀ i, (s.job i).placed (t.job i)) (h : Handle) : t.jobOf h = s.jobOf h := by
  unfold State.jobOf
  rw [(hj h.idx).gen]
  refine if_congr ?_ rfl rfl
  rw [Ne, Ne, (hj h.idx).free_iff]

theorem State.jobHandle_placed (hj : ∀ i, (s.job i).placed (t.job i)) (i : Nat) : t.jobHandle i = s.jobHandle i := by
  rw [State.jobHandle, State.jobHandle, (hj i).gen]

theorem State.slotOf_alike {h : SlotHandle} (hk : (s.slot h.idx).alike (t.slot h.idx)) : t.slotOf h = s.slotOf h := by
  unfold State.slotOf
  rw [hk.gen, hk.state]

theorem State.keysDrawn.fewer (h : s.keysDrawn) (hk : ∀ i, (t.slot i).key = none ∨ (t.slot i).key = (s.slot i).key) (hd : s.draws ≤ t.draws) :
    t.keysDrawn := by
  obtain ⟨draw, hdraw, hne⟩ := h
  have hold : ∀ i, (t.slot i).key.isSome → (t.slot i).key = (s.slot i).key := fun i hi =>
    (hk i).resolve_left fun hn => by rw [hn] at hi; cases hi
  refine ⟨draw, fun i key hi => ?_, fun i j hij hi hj => ?_⟩
  · rw [hold i (by rw [hi]; rfl)] at hi
    exact ⟨(hdraw i key hi).1.trans_le hd, (hdraw i key hi).2⟩
  · rw [hold i hi] at hi
    rw [hold j hj] at hj
    exact hne i j hij hi hj

/-! ### What leaves slots and lists alone -/

/-- The entries keep their places, their slots and their keys. -/
structure Seated (s t : State) : Prop where
  jobs : ∀ i, (s.job i).placed (t.job i) ∧ (t.job i).slots = (s.job i).slots
  slots : ∀ i, (s.slot i).alike (t.slot i)
  draws : s.draws ≤ t.draws

theorem Seated.trans (h : Seated s t) (h' : Seated t u) : Seated s u where
  jobs i := ⟨⟨(h'.jobs i).1.free_iff.trans (h.jobs i).1.free_iff, (h'.jobs i).1.gen.trans (h.jobs i).1.gen,
    (h'.jobs i).1.account.trans (h.jobs i).1.account⟩, (h'.jobs i).2.trans (h.jobs i).2⟩
  slots i := (h.slots i).trans (h'.slots i)
  draws := h.draws.trans h'.draws

theorem Plain.seated (h : Plain s t) : Seated s t :=
  ⟨fun i => ⟨⟨(h.jobs i).free_iff, (h.jobs i).gen, (h.jobs i).account⟩, (h.jobs i).slots⟩, h.slots, h.draws⟩

theorem Seated.of_eq (hj : t.jobs = s.jobs) (hk : t.slots = s.slots) (hd : t.draws = s.draws) : Seated s t :=
  ⟨fun i => by rw [State.job_congr hj i]; exact ⟨{}, rfl⟩, fun i => by rw [State.slot_congr hk i]; exact {}, hd.ge⟩

theorem Seated.putJob {i : Nat} {j : Job} (hp : (s.job i).placed j) (hl : j.slots = (s.job i).slots) : Seated s (s.putJob i j) := by
  refine ⟨fun m => ?_, fun _ => {}, Nat.le_refl _⟩
  rw [State.putJob_job]
  split
  · rename_i c
    rw [← c.1]
    exact ⟨hp, hl⟩
  · exact ⟨{}, rfl⟩

theorem State.listOf_seated (h : Seated s t) (e : Option (Nat × List SlotHandle)) (j : Nat) : t.listOf e j = s.listOf e j := by
  unfold State.listOf
  split
  · exact (h.jobs j).2
  · rw [(h.jobs j).2]

theorem Attached.seated (h : Attached e s) (hs : Seated s t) : Attached e t := by
  have hj : ∀ i, (s.job i).placed (t.job i) := fun i => (hs.jobs i).1
  refine ⟨fun i hi hl => ?_, fun j k hk => ?_, fun j => ?_, h.keys.fewer (fun i => .inr (hs.slots i).key) hs.draws, fun i hi => ?_, fun i hi => ?_⟩
  · rw [(hs.slots i).state] at hl
    obtain ⟨k, j, hjob, hof, howner, hmem⟩ := h.live i hi hl
    refine ⟨k, j, (hs.slots i).job.trans hjob, (State.jobOf_placed hj k).trans hof, ?_, ?_⟩
    · rw [(hs.slots i).owner, (hj j).account, howner]
    · rw [(hs.slots i).gen, State.listOf_seated hs]
      exact hmem
  · rw [State.listOf_seated hs] at hk
    obtain ⟨hfree, hof, hl, hjob⟩ := h.lists j k hk
    rw [State.slotOf_alike (hs.slots k.idx), (hs.slots k.idx).state, (hs.slots k.idx).job, State.jobHandle_placed hj]
    exact ⟨fun c => hfree ((hj j).free_iff.mp c), hof, hl, hjob⟩
  · rw [State.listOf_seated hs]
    exact h.short j
  · rw [(hs.slots i).key]
    exact h.keyed i ((hs.slots i).state ▸ hi)
  · rw [(hs.slots i).job]
    exact h.loose i ((hs.slots i).state ▸ hi)

/-! ### A slot leaves -/

theorem filter_ne_self {l : List SlotHandle} {k : SlotHandle} (h : k ∉ l) : l.filter (· ≠ k) = l :=
  List.filter_eq_self.mpr fun a ha => by simpa using fun c : a = k => h (c ▸ ha)

/-- One slot is LIVE no more, and its handle has left its job's list. -/
theorem Attached.leaves (h : Attached e s) {k : Nat} (hj : ∀ i, (s.job i).placed (t.job i)) (hs : ∀ i, i ≠ k → t.slot i = s.slot i)
    (hk : (t.slot k).state ≠ .live) (hjob : (t.slot k).job = none) (hkey : (t.slot k).state = .free ∧ (t.slot k).key = none ∨ (t.slot k).key = (s.slot k).key ∧ (s.slot k).state ≠ .free)
    (hd : s.draws ≤ t.draws)
    (hin : ∀ j, ({ idx := k, gen := (s.slot k).gen } : SlotHandle) ∈ s.listOf e j →
      t.listOf f j = (s.listOf e j).filter (· ≠ ({ idx := k, gen := (s.slot k).gen } : SlotHandle)))
    (hout : ∀ j, ({ idx := k, gen := (s.slot k).gen } : SlotHandle) ∉ s.listOf e j → t.listOf f j = s.listOf e j) : Attached f t := by
  have hlist : ∀ j, t.listOf f j = (s.listOf e j).filter (· ≠ ({ idx := k, gen := (s.slot k).gen } : SlotHandle)) := by
    intro j
    by_cases hm : ({ idx := k, gen := (s.slot k).gen } : SlotHandle) ∈ s.listOf e j
    · exact hin j hm
    · rw [hout j hm]
      exact (filter_ne_self hm).symm
  refine ⟨fun i hi hl => ?_, fun j a ha => ?_, fun j => ?_, h.keys.fewer (fun i => ?_) hd, fun i hi => ?_, fun i hi => ?_⟩
  · have hne : i ≠ k := fun c => hk (c ▸ hl)
    rw [hs i hne] at hl ⊢
    obtain ⟨a, j, hja, hof, howner, hmem⟩ := h.live i hi hl
    refine ⟨a, j, hja, (State.jobOf_placed hj a).trans hof, by rw [(hj j).account, howner], ?_⟩
    rw [hlist, List.mem_filter]
    exact ⟨hmem, decide_eq_true fun c => hne (congrArg SlotHandle.idx c)⟩
  · rw [hlist, List.mem_filter] at ha
    obtain ⟨hfree, hof, hl, hja⟩ := h.lists j a ha.1
    have hne : a.idx ≠ k := fun c => by
      refine of_decide_eq_true ha.2 ?_
      rw [State.slotHandle_eq hof, c]
    have hslot := hs a.idx hne
    rw [State.slotOf_alike (s := s) (by rw [hslot]; exact {}), hslot, State.jobHandle_placed hj]
    exact ⟨fun c => hfree ((hj j).free_iff.mp c), hof, hl, hja⟩
  · rw [hlist]
    exact ⟨(h.short j).1.filter _, (List.length_filter_le _ _).trans (h.short j).2⟩
  · by_cases c : i = k
    · rw [c]
      exact hkey.imp (·.2) (·.1)
    · exact .inr (by rw [hs i c])
  · by_cases c : i = k
    · rw [c] at hi ⊢
      rcases hkey with ⟨hf, -⟩ | ⟨he, hf⟩
      · exact absurd hf hi
      · rw [he]
        exact h.keyed k hf
    · rw [hs i c] at hi ⊢
      exact h.keyed i hi
  · by_cases c : i = k
    · rw [c]
      exact hjob
    · rw [hs i c] at hi ⊢
      exact h.loose i hi

theorem State.stopCore_job (s : State) (k : SlotHandle) (j : Nat) : (s.stopCore k).job j = s.job j :=
  State.job_congr (s.stopCore_jobs k) j

theorem State.wipeSlot_placed (s : State) (k i : Nat) : (s.job i).placed ((s.wipeSlot k).job i) := by
  rw [(s.wipeSlot_moved k).jobs i]
  exact {}

/-- The list of the job a destroyed slot was attached to. -/
theorem State.wipeSlot_list_same {k : Nat} {h : Handle} (hj : (s.slot k).job = some h) :
    ((s.wipeSlot k).job h.idx).slots = (s.job h.idx).slots.filter (· ≠ ({ idx := k, gen := (s.slot k).gen } : SlotHandle)) := by
  rw [State.wipeSlot, State.stopCore_job, hj, State.detachSlot, State.putJob_job]
  split
  · rfl
  · rename_i c
    have hjob : s.job h.idx = .freed 0 := by
      have hn : ¬h.idx < 32 := fun hi => c ⟨rfl, hi⟩
      simp [State.job, entryAt, Nat.le_of_not_lt hn]
    show (s.job h.idx).slots = _
    rw [hjob]
    rfl

theorem State.wipeSlot_list_other {k j : Nat} (hj : ∀ h, (s.slot k).job = some h → h.idx ≠ j) :
    ((s.wipeSlot k).job j).slots = (s.job j).slots := by
  rw [State.wipeSlot, State.stopCore_job]
  cases hk : (s.slot k).job with
  | none => rfl
  | some h =>
    rw [State.detachSlot, State.putJob_job, if_neg fun c => hj h hk c.1]
    rfl

theorem State.wipeSlot_draws (s : State) (k : Nat) : (s.wipeSlot k).draws = s.draws := by rw [(s.wipeSlot_moved k).frame]

/-- The slot is FREE. -/
theorem State.wipeSlot_free (s : State) (k : Nat) : ∃ gen, (s.wipeSlot k).slot k = .free gen := by
  rw [State.wipeSlot_slot]
  split
  · exact ⟨_, rfl⟩
  · rename_i c
    have hn : ¬k < 32 := fun hk => c ⟨rfl, hk⟩
    exact ⟨0, by simp [State.slot, entryAt, Nat.le_of_not_lt hn]⟩

theorem State.wipeSlot_other {k i : Nat} (h : i ≠ k) : (s.wipeSlot k).slot i = s.slot i := by
  rw [State.wipeSlot_slot, if_neg fun c => h c.1.symm]

theorem Attached.wipeSlot (h : Attached none s) (k : Nat) : Attached none (s.wipeSlot k) := by
  obtain ⟨gen, hg⟩ := s.wipeSlot_free k
  refine h.leaves (k := k) (s.wipeSlot_placed k) (fun i hi => State.wipeSlot_other hi) ?_ ?_ ?_ (s.wipeSlot_draws k).ge (fun j hj => ?_) fun j hj => ?_
  · rw [hg]; nofun
  · rw [hg]; rfl
  · rw [hg]; exact .inl ⟨rfl, rfl⟩
  · obtain ⟨-, -, -, hjob⟩ := h.lists j _ hj
    exact State.wipeSlot_list_same hjob
  · by_cases c : ∃ a, (s.slot k).job = some a ∧ a.idx = j
    · obtain ⟨a, ha, rfl⟩ := c
      refine (State.wipeSlot_list_same ha).trans (filter_ne_self hj)
    · exact State.wipeSlot_list_other fun a ha ci => c ⟨a, ha, ci⟩

/-- R108: the slot at the head of what is left of an ending job's list. -/
theorem Attached.slotLeaves {i : Nat} {k : SlotHandle} {rest : List SlotHandle} (h : Attached (some (i, k :: rest)) s) :
    Attached (some (i, rest)) (s.slotLeaves k) := by
  have hmem : k ∈ s.listOf (some (i, k :: rest)) i := by simp [State.listOf]
  obtain ⟨hfree, hof, hl, hjob⟩ := h.lists i k hmem
  have hk := State.slotHandle_eq hof
  have honly : ∀ j, k ∈ s.listOf (some (i, k :: rest)) j → j = i := fun j hj => by
    have := hjob.symm.trans (h.lists j k hj).2.2.2
    exact (congrArg Handle.idx (Option.some.inj this)).symm
  have hrest : (k :: rest).filter (· ≠ k) = rest := by
    have hn : (k :: rest).Nodup := by simpa [State.listOf] using (h.short i).1
    rw [List.filter_cons_of_neg (by simp)]
    exact filter_ne_self (List.nodup_cons.mp hn).1
  have hother : ∀ j, j ≠ i → ((s.slotLeaves k).job j).slots = (s.job j).slots := by
    intro j hj
    unfold State.slotLeaves
    split
    · exact State.wipeSlot_list_other fun a ha c => hj (by rw [hjob] at ha; cases ha; exact c.symm)
    · rfl
  have hin : ∀ j, k ∈ s.listOf (some (i, k :: rest)) j →
      (s.slotLeaves k).listOf (some (i, rest)) j = (s.listOf (some (i, k :: rest)) j).filter (· ≠ k) := fun j hj => by
    rw [honly j hj]
    simpa [State.listOf] using hrest.symm
  have hout : ∀ j, k ∉ s.listOf (some (i, k :: rest)) j →
      (s.slotLeaves k).listOf (some (i, rest)) j = s.listOf (some (i, k :: rest)) j := fun j hj => by
    have hne : j ≠ i := fun c => hj (c ▸ hmem)
    simp only [State.listOf, if_neg hne]
    exact hother j hne
  have hplaced : ∀ j, (s.job j).placed ((s.slotLeaves k).job j) := fun j => by
    unfold State.slotLeaves
    split
    · exact s.wipeSlot_placed k.idx j
    · exact {}
  have hslots : ∀ j, j ≠ k.idx → (s.slotLeaves k).slot j = s.slot j := fun j hj => by
    unfold State.slotLeaves
    split
    · exact State.wipeSlot_other hj
    · rw [State.putSlot_slot, if_neg fun c => hj c.1.symm]
  have hdraws : (s.slotLeaves k).draws = s.draws := by
    unfold State.slotLeaves
    split
    · exact s.wipeSlot_draws k.idx
    · rfl
  have hleft : ((s.slotLeaves k).slot k.idx).state ≠ .live ∧ ((s.slotLeaves k).slot k.idx).job = none ∧
      (((s.slotLeaves k).slot k.idx).state = .free ∧ ((s.slotLeaves k).slot k.idx).key = none ∨
        ((s.slotLeaves k).slot k.idx).key = (s.slot k.idx).key ∧ (s.slot k.idx).state ≠ .free) := by
    unfold State.slotLeaves
    split
    · obtain ⟨gen, hg⟩ := s.wipeSlot_free k.idx
      rw [hg]
      exact ⟨nofun, rfl, .inl ⟨rfl, rfl⟩⟩
    · rw [State.putSlot_slot, if_pos ⟨rfl, (State.slotOf_some hof).2.1⟩]
      exact ⟨nofun, rfl, .inr ⟨rfl, by rw [hl]; nofun⟩⟩
  exact h.leaves (k := k.idx) hplaced hslots hleft.1 hleft.2.1 hleft.2.2 hdraws.ge (by rw [← hk]; exact hin) (by rw [← hk]; exact hout)

/-! ### Jobs end and begin -/

/-- R33 step 5: the entry of a job without a slot left. -/
theorem Attached.jobGone {i : Nat} (h : Attached (some (i, [])) s) : Attached none (s.jobGone i) := by
  have hother : ∀ j, j ≠ i → (s.jobGone i).job j = s.job j := fun j hj => by
    rw [State.jobGone, State.freeJob, State.putJob_job, if_neg fun c => hj c.1.symm, State.putJob_job, if_neg fun c => hj c.1.symm]
  have hgone : ∃ gen, (s.jobGone i).job i = .freed gen := by
    rw [State.jobGone, State.freeJob, State.putJob_job]
    split
    · exact ⟨_, rfl⟩
    · rename_i c
      have hn : ¬i < 32 := fun hi => c ⟨rfl, hi⟩
      exact ⟨0, by rw [State.putJob_job, if_neg fun c => hn c.2]; simp [State.job, entryAt, Nat.le_of_not_lt hn]⟩
  obtain ⟨gen, hgone⟩ := hgone
  have hlist : ∀ j, (s.jobGone i).listOf none j = s.listOf (some (i, [])) j := fun j => by
    by_cases c : j = i
    · subst c
      simp only [State.listOf, if_pos]
      rw [hgone]
      rfl
    · simp only [State.listOf, if_neg c]
      rw [hother j c]
  have hni : ∀ j k, k ∈ s.listOf (some (i, [])) j → j ≠ i := fun j k hk c => by
    subst c
    simp [State.listOf] at hk
  refine ⟨fun k hk hl => ?_, fun j k hk => ?_, fun j => ?_, h.keys.fewer (fun _ => .inr rfl) (Nat.le_refl _), h.keyed, h.loose⟩
  · obtain ⟨a, j, hjob, hof, howner, hmem⟩ := h.live k hk hl
    have hj := hni j _ hmem
    obtain ⟨hidx, -⟩ := State.jobOf_idx hof
    refine ⟨a, j, hjob, ?_, by rw [hother j hj]; exact howner, by rw [hlist]; exact hmem⟩
    unfold State.jobOf at hof ⊢
    rw [hother a.idx (hidx ▸ hj)]
    exact hof
  · rw [hlist] at hk
    obtain ⟨hfree, hof, hl, hjob⟩ := h.lists j k hk
    refine ⟨by rw [hother j (hni j k hk)]; exact hfree, hof, hl, ?_⟩
    rw [State.jobHandle, hother j (hni j k hk)]
    exact hjob
  · rw [hlist]
    exact h.short j

/-- R24: an entry is taken that was FREE, and so without a slot. -/
theorem Attached.openJob (h : Attached none s) {i : Nat} {j : Job} (hi : (s.job i).state = .free) (hj : j.slots = []) : Attached none (s.putJob i j) := by
  have hfresh : ∀ m k, k ∈ (s.job m).slots → m ≠ i := fun m k hk c => (h.lists m k hk).1 (c ▸ hi)
  have hlist : ∀ m, ((s.putJob i j).job m).slots = (s.job m).slots := fun m => by
    rw [State.putJob_job]
    split
    · rename_i c
      rw [hj, ← c.1]
      exact (List.eq_nil_iff_forall_not_mem.mpr fun k hk => hfresh i k hk rfl).symm
    · rfl
  refine ⟨fun k hk hl => ?_, fun m k hk => ?_, fun m => ?_, h.keys.fewer (fun _ => .inr rfl) (Nat.le_refl _), h.keyed, h.loose⟩
  · obtain ⟨a, m, hjob, hof, howner, hmem⟩ := h.live k hk hl
    have hm : i ≠ m := fun c => hfresh m _ hmem c.symm
    refine ⟨a, m, hjob, ?_, by rw [State.putJob_job_other _ _ hm]; exact howner, by rw [State.listOf, hlist]; exact hmem⟩
    unfold State.jobOf at hof ⊢
    have ha : i ≠ a.idx := fun c => hm (c.trans (by split at hof <;> simp_all))
    rw [State.putJob_job_other _ _ ha]
    exact hof
  · rw [State.listOf, hlist] at hk
    have hm : i ≠ m := fun c => hfresh m k hk c.symm
    obtain ⟨hfree, hof, hl, hjob⟩ := h.lists m k hk
    refine ⟨by rw [State.putJob_job_other _ _ hm]; exact hfree, hof, hl, ?_⟩
    rw [State.jobHandle, State.putJob_job_other _ _ hm]
    exact hjob
  · rw [State.listOf, hlist]
    exact h.short m

/-! ### A slot joins a job -/

/-- R104, R109: a slot that was not LIVE is attached to a job of the account that owns it. -/
theorem Attached.joins (h : Attached none s) {k : SlotHandle} {j : Handle} {x : KeySlot} (hk : k.idx < 32)
    (hn : (s.slot k.idx).state ≠ .live) (hj : s.jobOf j = some j.idx)
    (hx : x.state = .live ∧ x.gen = k.gen ∧ x.job = some j ∧ x.owner = some (s.jobAccount j) ∧ x.key.isSome)
    (hlen : (s.job j.idx).slots.length < 4) {d : Nat} (hkeys : ({ s.putSlot k.idx x with draws := d } : State).keysDrawn) :
    Attached none (({ s.putSlot k.idx x with draws := d } : State).appendSlot j.idx k) := by
  obtain ⟨-, hj32, hjf, hjg⟩ := State.jobOf_idx hj
  obtain ⟨hxs, hxg, hxj, hxo, hxk⟩ := hx
  generalize ht : ({ s.putSlot k.idx x with draws := d } : State).appendSlot j.idx k = t
  have hjob : ∀ m, t.job m = if j.idx = m then { s.job m with slots := (s.job m).slots ++ [k] } else s.job m := fun m => by
    rw [← ht, State.appendSlot, State.putJob_job]
    by_cases c : j.idx = m
    · subst c
      rw [if_pos ⟨rfl, hj32⟩, if_pos rfl]
      rfl
    · rw [if_neg fun e => c e.1, if_neg c]
      rfl
  have hslot : ∀ m, t.slot m = if k.idx = m then x else s.slot m := fun m => by
    rw [← ht]
    show (s.putSlot k.idx x).slot m = _
    rw [State.putSlot_slot]
    simp only [hk, and_true]
  have hplaced : ∀ m, (s.job m).placed (t.job m) := fun m => by
    rw [hjob]
    split <;> exact {}
  have hnew : ∀ m, k ∉ (s.job m).slots := fun m c => hn (h.lists m k c).2.2.1
  have hold : ∀ m a, a ∈ (s.job m).slots → k.idx ≠ a.idx := fun m a ha c => hn (c ▸ (h.lists m a ha).2.2.1)
  refine ⟨fun m hm hl => ?_, fun m a ha => ?_, fun m => ?_, ?_, fun m hm => ?_, fun m hm => ?_⟩
  · rw [hslot] at hl ⊢
    split at hl
    · rename_i c
      subst c
      rw [if_pos rfl]
      refine ⟨j, j.idx, hxj, (State.jobOf_placed hplaced j).trans hj, ?_, ?_⟩
      · rw [hxo, (hplaced j.idx).account]
        rfl
      · rw [State.listOf, hjob, if_pos rfl, hxg]
        exact List.mem_append_right _ (List.mem_singleton_self _)
    · rename_i c
      rw [if_neg c]
      obtain ⟨a, i, hja, hof, howner, hmem⟩ := h.live m hm hl
      refine ⟨a, i, hja, (State.jobOf_placed hplaced a).trans hof, by rw [(hplaced i).account]; exact howner, ?_⟩
      rw [State.listOf, hjob]
      split
      · exact List.mem_append_left _ hmem
      · exact hmem
  · have hcase : a ∈ (s.job m).slots ∨ (a = k ∧ m = j.idx) := by
      rw [State.listOf, hjob] at ha
      split at ha
      · rename_i c
        exact (List.mem_append.mp ha).imp_right fun e => ⟨List.mem_singleton.mp e, c.symm⟩
      · exact .inl ha
    rw [State.jobHandle_placed hplaced]
    rcases hcase with ha | ⟨rfl, rfl⟩
    · obtain ⟨hfree, hof, hl, hja⟩ := h.lists m a ha
      have hs := (hslot a.idx).trans (if_neg (hold m a ha))
      rw [State.slotOf_alike (s := s) (by rw [hs]; exact {}), hs]
      exact ⟨fun c => hfree ((hplaced m).free_iff.mp c), hof, hl, hja⟩
    · have hs := (hslot a.idx).trans (if_pos rfl)
      refine ⟨fun c => hjf ((hplaced _).free_iff.mp c), ?_, by rw [hs]; exact hxs, ?_⟩
      · rw [State.slotOf, if_pos ⟨hk, by rw [hs, hxs]; nofun, by rw [hs]; exact hxg⟩]
      · rw [hs, hxj, State.jobHandle_eq hj]
  · rw [State.listOf, hjob]
    split
    · rename_i c
      subst c
      refine ⟨List.nodup_append.mpr ⟨(h.short _).1, by simp, fun a ha b hb => ?_⟩, ?_⟩
      · rw [List.mem_singleton.mp hb]
        exact fun c => hnew _ (c ▸ ha)
      · rw [List.length_append]
        exact hlen
    · exact h.short m
  · rw [← ht]
    exact hkeys
  · rw [hslot] at hm ⊢
    split
    · exact hxk
    · rename_i c
      rw [if_neg c] at hm
      exact h.keyed m hm
  · rw [hslot] at hm ⊢
    split
    · rename_i c
      rw [if_pos c] at hm
      exact absurd hxs hm
    · rename_i c
      rw [if_neg c] at hm
      exact h.loose m hm

/-- R104: the next key the random source gives is drawn for the slot alone. -/
theorem State.keysDrawn.draws (h : s.keysDrawn) {i : Nat} {k : KeySlot} (hk : k.key = some (Config.randomSource.key s.draws)) :
    ({ s.putSlot i k with draws := s.draws + 1 } : State).keysDrawn := by
  obtain ⟨draw, hdraw, hne⟩ := h
  have hslot : ∀ m, ({ s.putSlot i k with draws := s.draws + 1 } : State).slot m = if i = m ∧ i < 32 then k else s.slot m := fun m =>
    State.putSlot_slot (s := s) i m k
  have hbelow : ∀ m : Fin 32, (s.slot m).key.isSome → draw m < s.draws := fun m hm => by
    obtain ⟨key, hkey⟩ := Option.isSome_iff_exists.mp hm
    exact (hdraw m key hkey).1
  refine ⟨fun m => if i = m ∧ i < 32 then s.draws else draw m, fun m key hm => ?_, fun m n hmn hm hn => ?_⟩
  · rw [hslot] at hm
    dsimp only []
    split at hm
    · rename_i c
      rw [if_pos c]
      exact ⟨Nat.lt_succ_self _, Option.some.inj (hm.symm.trans hk)⟩
    · rename_i c
      rw [if_neg c]
      exact ⟨(hdraw m key hm).1.trans (Nat.lt_succ_self _), (hdraw m key hm).2⟩
  · rw [hslot] at hm hn
    dsimp only []
    by_cases cm : i = m ∧ i < 32
    · by_cases cn : i = n ∧ i < 32
      · exact absurd (Fin.ext (cm.1.symm.trans cn.1)) hmn
      · rw [if_pos cm, if_neg cn]
        rw [if_neg cn] at hn
        exact (hbelow n hn).ne'
    · rw [if_neg cm] at hm ⊢
      by_cases cn : i = n ∧ i < 32
      · rw [if_pos cn]
        exact (hbelow m hm).ne
      · rw [if_neg cn] at hn ⊢
        exact hne m n hmn hm hn

/-! ### Units change hands -/

theorem Seated.releaseFree (i : Nat) : Seated s (s.releaseFree i) := by
  have hs : Seated s (s.subReserved (s.job i).account (s.job i).free) := .of_eq rfl rfl rfl
  exact hs.trans (.putJob {} rfl)

theorem Seated.settleHold (j : Handle) (p : CipherPath) (d : Bool) (c : AccountCharge) : Seated s (s.settleHold j p d c) := by
  unfold State.settleHold
  split
  · exact .of_eq rfl rfl rfl
  · rename_i i _
    extract_lets n u v w
    have hs : Seated s (s.subReserved n c.charge) := .of_eq rfl rfl rfl
    have hu : Seated s u := hs.trans (by cases p <;> exact .putJob {} rfl)
    have hv : Seated u v := by
      have hr : Seated u (u.readAccount n) := Plain.refl.readAccount.seated
      dsimp only [v, State.chargeAccount]
      split
      · exact hr
      · exact hr.trans (.of_eq rfl rfl rfl)
    have hw : Seated s w := (hu.trans hv).trans (Plain.refl.touchJob.touchHold).seated
    split
    · exact hw.trans (.releaseFree _)
    · exact hw

theorem Seated.requestHold {i n : Nat} {p : CipherPath} (e : s.requestHold i p n = some u) : Seated s u := by
  have hput : ∀ m : Nat, ∀ t : State, Seated s t → t.jobs = s.jobs → Seated s (t.putJob i ({ s.job i with free := m }.withHold p n)) := by
    intro m t ht hj
    refine ht.trans (.putJob ?_ ?_) <;> rw [State.job_congr hj] <;> cases p
    · exact {}
    · exact {}
    · rfl
    · rfl
  by_cases hc : s.covers (s.job i).account (s.job i).free n
  · rw [State.requestHold_some hc] at e
    cases e
    exact hput _ _ (.of_eq rfl rfl rfl) rfl
  · rw [State.requestHold_none hc] at e
    cases e

theorem Seated.grantTo (i n : Nat) (hi : (s.job i).state ≠ .free) : Seated s (s.grantTo i n) :=
  (Seated.putJob (j := { s.job i with state := .opened, free := (s.job i).free + n }) ⟨⟨nofun, fun c => absurd c hi⟩, rfl, rfl⟩ rfl).trans
    (.of_eq rfl rfl rfl)

theorem Seated.close (n : Fin 4) (code : ReturnCode) (w13 w14 : Nat) (x y : Bool) : Seated s (s.close n code w13 w14 x y) := by
  rw [State.close_frame]
  exact .of_eq rfl rfl rfl

theorem State.startWrite_frame (s : State) : s.startWrite = { s with scan := s.startWrite.scan } := by
  unfold State.startWrite
  split
  · rfl
  · split <;> rfl

/-! ### Every operation -/

theorem Attached.ended (h : Attached none s) {i : Nat} : Attached (some (i, (s.job i).slots)) s := by
  have hl : ∀ j, s.listOf (some (i, (s.job i).slots)) j = s.listOf none j := fun j => by
    dsimp only [State.listOf]
    split
    · rename_i c; rw [c]
    · rfl
  exact ⟨fun k hk hs => by simp only [hl]; exact h.live k hk hs, fun j => by rw [hl]; exact h.lists j, fun j => by rw [hl]; exact h.short j,
    h.keys, h.keyed, h.loose⟩

theorem Attached.openJobEntry (h : Attached none s) {i : Nat} (hi : (s.job i).state = .free) (a : OpenJobArgs) :
    Attached none (s.openJobEntry a i) := by
  have hput := h.openJob (j := a.job (s.job i).gen (grantOf a.units (s.available a.account))) hi rfl
  refine Attached.seated ?_ (.close 0 _ _ _ _ _)
  exact hput.seated (.of_eq rfl rfl rfl)

theorem Attached.openSlotEntry (h : Attached none s) {i : Nat} {j : Handle} (hi : s.freeSlot = some i) (hj : s.jobOf j = some j.idx)
    (hl : (s.job j.idx).slots.length < 4) (uses : BitVec 4) (keep : Bool) : Attached none (s.openSlotEntry i j uses keep) := by
  obtain ⟨h32, hfree⟩ := lowest_some hi (.free 0)
  have hn : (s.slot i).state ≠ .live := by rw [show (s.slot i).state = .free from of_decide_eq_true hfree]; nofun
  refine Attached.seated ?_ (.close 0 _ _ _ _ _)
  let x : KeySlot :=
    { state := .live, gen := (s.slot i).gen, owner := some (s.jobAccount j), job := some j, uses, page := 0,
      keep := if keep then s.stored.settings.timers.heldSlotTime else 0, expiry := none, key := some (Config.randomSource.key s.draws) }
  exact h.joins (x := x) (k := { idx := i, gen := (s.slot i).gen }) h32 hn hj ⟨rfl, rfl, rfl, rfl, rfl⟩ hl (h.keys.draws rfl)

theorem Attached.attachSlotEntry (h : Attached none s) {k : SlotHandle} {j : Handle} (hk : s.slotOf k = some k.idx)
    (hh : (s.slot k.idx).state = .held) (ho : (s.slot k.idx).owner = some (s.jobAccount j)) (hj : s.jobOf j = some j.idx)
    (hl : (s.job j.idx).slots.length < 4) : Attached none (s.attachSlotEntry k j) := by
  obtain ⟨-, h32, hfree, hgen⟩ := State.slotOf_some hk
  refine Attached.seated ?_ (.close 0 _ _ _ _ _)
  refine h.joins (d := s.draws) (x := { s.slot k.idx with state := .live, job := some j, expiry := none, keep := 0 }) h32
    (by rw [hh]; nofun) hj ⟨rfl, hgen, rfl, ho, h.keyed _ hfree⟩ hl (h.keys.fewer (fun m => .inr ?_) (Nat.le_refl _))
  show ((s.putSlot k.idx _).slot m).key = _
  rw [State.putSlot_slot]
  split
  · rename_i c
    rw [← c.1]
  · rfl

/-- Every operation keeps the laws of slots, attachments and keys. -/
theorem Op.attached (h : Op K x y) (ha : Attached x.1.ending x.2) : Attached y.1.ending y.2 := by
  cases h with
  | plain h => exact ha.seated h.seated
  | printHold a cap i p hD h hb hj hu hv => exact ha.seated (((Seated.requestHold hu).trans hv.seated).trans (.of_eq rfl rfl rfl))
  | settlePrint => exact ha.seated (.settleHold _ _ _ _)
  | closePrint p code w13 w14 e f => exact ha.seated ((Seated.close 2 code w13 w14 e f).trans (.of_eq rfl rfl rfl))
  | scanHold a i n p hD h hb hpage hj hu hv => exact ha.seated (((Seated.requestHold hu).trans hv.seated).trans (.of_eq rfl rfl rfl))
  | settleScan => exact ha.seated (.settleHold _ _ _ _)
  | closeScan code w13 w14 e f => exact ha.seated ((Seated.close 1 code w13 w14 e f).trans (.of_eq rfl rfl rfl))
  | startWrite => exact ha.seated (by rw [State.startWrite_frame]; exact .of_eq rfl rfl rfl)
  | releaseFree i => exact ha.seated (.releaseFree i)
  | beginEnd i hD =>
    dsimp only [] at ha
    rw [hD] at ha
    exact ha.ended
  | endSlot i k rest hD =>
    dsimp only [] at ha
    rw [hD] at ha
    exact ha.slotLeaves
  | endJob i hD =>
    dsimp only [] at ha
    rw [hD] at ha
    exact ha.jobGone
  | grant i n hD hi => exact ha.seated (.grantTo i n hi)
  | openJob a i hD hi =>
    dsimp only [] at ha
    rw [hD.1] at ha ⊢
    exact ha.openJobEntry (of_decide_eq_true (lowest_some hi (.freed 0)).2) a
  | wipe i hD =>
    dsimp only [] at ha
    rw [hD] at ha ⊢
    exact ha.wipeSlot i
  | openSlot i j uses keep hD hi hj hl =>
    dsimp only [] at ha
    rw [hD] at ha ⊢
    exact ha.openSlotEntry hi hj hl uses keep
  | attachSlot k j hD hk hh ho hj hl =>
    dsimp only [] at ha
    rw [hD] at ha ⊢
    exact ha.attachSlotEntry hk hh ho hj hl
  | _ => exact ha.seated (.of_eq rfl rfl rfl)

theorem Ops.attached (h : Ops K x y) (ha : Attached x.1.ending x.2) : Attached y.1.ending y.2 :=
  h.keeps (P := fun z => Attached z.1.ending z.2) ha Op.attached

end Sys2Proof.Machine
end

