-- ==== Sys2Proof/Proofs/Steps.lean ====
section
/-! What it takes for a law of the operations to be kept by every step. -/

namespace Sys2Proof.Machine

variable {K : Prop} {P : State → Prop} {c : Instr} {s t u b : State}

/-! ### A start -/

theorem Plain.markStopping (h : Plain s t) : Plain s t.markStopping := h.dev

theorem Plain.startCounts (h : Plain s t) : Plain s t.startCounts :=
  (h.store (a := .startCount) (st := { t.stored with startCount := (t.stored.startCount + 1) % 2 ^ 32, startCountOk := true }) rfl).dev

theorem Plain.startTest (h : Plain s t) {p : Bool} : Plain s (t.startTest p) := .ite (fun _ => h) fun _ => h.capture.markStopping

theorem Plain.startMeters (h : Plain s t) {p : Bool} : Plain s (t.startMeters p) := by
  unfold State.startMeters
  extract_lets u
  have hu : Plain s u := .ite (fun _ => h) fun _ => h.capture.markStopping
  exact .ite (fun _ => hu) fun _ => hu.capture.markStopping

theorem Plain.startSettings (h : Plain s t) : Plain s t.startSettings :=
  .ite (fun _ => h) fun _ => (h.store (a := .settings) (st := { t.stored with settings := .factory, settingsOk := true }) rfl).dev.capture

theorem Plain.startList (h : Plain s t) : Plain s t.startList := .ite (fun _ => h) fun _ => h.writeKnown.capture

theorem Plain.startAccount (h : Plain s t) {n : Nat} : Plain s (t.startAccount n) := by
  unfold State.startAccount
  extract_lets u
  have hu : Plain s u := h.readAccount
  exact .ite (fun _ => hu.putAcct) fun _ => hu

theorem Plain.startLines (h : Plain s t) {x : BitVec 8} : Plain s (t.startLines x) :=
  (Plain.foldl (fun h => h.startAccount) _ h).levels

/-- A start changes no more than that of what it reset. -/
theorem Plain.start (cause : StartCause) (x : StartInputs) : Plain (s.volatileReset cause) (s.start cause x) :=
  Plain.refl.startCounts.startTest.startMeters.startSettings.startList.startLines

/-! ### Laws every step keeps -/

/-- A law that the operations, the frame of a command, resets and a loss of power keep. -/
structure OpsLaw (K : Prop) (P : State → Prop) : Prop where
  pending : ∀ {s : State} (l : List Instr), P s → P { s with pending := l } := by exact fun _ h => h
  begins : ∀ {s : State} (e : Env), P s → P (s.begin e) := by exact fun _ h => h
  finishes : ∀ {s : State}, P s → P s.finish := by exact fun h => h
  linked : ∀ {s : State}, P s → K → s.alive = true → s.linked
  ops : ∀ {s t : State}, P s → Ops K (Debt.clear, s) (Debt.clear, t) → P t
  resets : ∀ {s : State} (f : FaultRecord) (cause : StartCause), P s → P (State.volatileReset { s with faults := f } cause)
  held : ∀ {s : State}, P s → P s.holdReset
  lost : ∀ {s : State} (n : Nat), P s → P (s.losePower n)

theorem OpsLaw.worked (hl : OpsLaw K P) (hp : P b) (h : Worked K .clear b t) : P t := by
  cases h with
  | ops h => exact hl.ops hp h
  | start f cause x => exact hl.ops (hl.resets f cause hp) (Ops.refl.plain (Plain.start cause x))
  | held => exact hl.held hp

theorem OpsLaw.answers (hl : OpsLaw K P) (hp : P s) (h : Answers c s t) : P t := by
  by_cases hc : ∃ n, c = .lossOfPower n
  · obtain ⟨n, rfl⟩ := hc
    rw [answers_lossOfPower.mp h]
    split
    · exact hl.lost n hp
    · exact hp
  · rw [h.eq_effect fun n e => hc ⟨n, e⟩]
    have hb : P (s.begin c.env) := hl.begins _ hp
    exact hl.finishes (hl.worked hb (effectOf_worked c _ Debt.clear_begins (hl.linked hb) fun _ _ _ => trivial))

/-- Such a law is kept by every step. -/
theorem OpsLaw.step (hl : OpsLaw K P) (h : Machine.step s = .next t) (hp : P s) : P t := by
  unfold Machine.step at h
  split at h
  · exact Host.Outcome.next.inj h ▸ hp
  · exact hl.answers (hl.pending _ hp) h

/-! ### Slots, attachments and keys -/

/-- Every slot and every job entry is FREE. -/
theorem attached_of_reset (hj : s.jobs = State.reset.jobs) (hk : s.slots = State.reset.slots) : Attached none s := by
  have hjob : ∀ i, s.job i = .freed 0 := fun i => by
    rw [State.job_congr hj]
    simp only [State.job, State.reset, entryAt, Vector.getElem?_replicate]
    split <;> rfl
  have hslot : ∀ i, s.slot i = .free 0 := fun i => by
    rw [State.slot_congr hk]
    simp only [State.slot, State.reset, entryAt, Vector.getElem?_replicate]
    split <;> rfl
  have hlist : ∀ j, s.listOf none j = [] := fun j => by
    show (s.job j).slots = []
    rw [hjob]
    rfl
  refine ⟨fun i _ hl => ?_, fun j h hm => ?_, fun j => ?_, ⟨fun _ => 0, fun i key hi => ?_, fun i _ _ hi => ?_⟩, fun i hi => ?_, fun i _ => ?_⟩
  · rw [hslot] at hl
    cases hl
  · rw [hlist] at hm
    cases hm
  · rw [hlist]
    exact ⟨List.nodup_nil, Nat.zero_le 4⟩
  · rw [hslot] at hi
    cases hi
  · rw [hslot] at hi
    cases hi
  · rw [hslot] at hi
    exact absurd rfl hi
  · rw [hslot]
    rfl

theorem Attached.congr (h : Attached none s) (hj : t.jobs = s.jobs) (hk : t.slots = s.slots) (hd : t.draws = s.draws) : Attached none t :=
  h.seated (.of_eq hj hk hd)

/-- Every step keeps the laws of slots, attachments and keys. -/
theorem attached_law : OpsLaw False (Attached none) where
  pending _ h := h.congr rfl rfl rfl
  begins _ h := h.congr rfl rfl rfl
  finishes h := h.congr rfl rfl rfl
  linked _ hk := hk.elim
  ops ha h := h.attached ha
  resets _ _ _ := attached_of_reset rfl rfl
  held h := h.congr rfl rfl rfl
  lost _ _ := attached_of_reset rfl rfl

end Sys2Proof.Machine
end

