-- ==== Sys2Proof/Proofs/Settled.lean ====
section
/-! No band waits for a core that can take one (R84): commands end by handing the core its next band, or leave the core and its queues no
fuller. -/

namespace Sys2Proof.Machine

variable {K : Prop} {c : Instr} {s t u b : State}

theorem State.coreSettled.of_core (h : s.coreSettled) (e : t.core = s.core) : t.coreSettled := by
  unfold State.coreSettled
  rw [e]
  exact h

theorem State.pumpCore_coreSettled (s : State) : s.pumpCore.coreSettled := by
  rcases s.pumpCore_cases with ⟨-, i, rest, -, e⟩ | ⟨-, i, -, e⟩ | ⟨h, e⟩ <;> rw [e]
  · exact State.coreSettled_busy (.inl rfl)
  · exact State.coreSettled_busy (.inl rfl)
  · exact h

theorem State.coreSettled.close (h : s.coreSettled) {n : Fin 4} {code : ReturnCode} {w13 w14 : Nat} {x y : Bool} :
    (s.close n code w13 w14 x y).coreSettled := h.of_core (by rw [State.close_frame])

theorem State.coreSettled.refuse (h : s.coreSettled) {n : Fin 4} {r : Refused} {w13 : Nat} : (s.refuse n r w13).coreSettled :=
  h.close

theorem State.requestHold_core {i n : Nat} {p : CipherPath} (e : s.requestHold i p n = some u) : u.core = s.core := by
  by_cases hc : s.covers (s.job i).account (s.job i).free n
  · rw [State.requestHold_some hc] at e; cases e; rfl
  · rw [State.requestHold_none hc] at e; cases e

theorem coreSettled_ite {p : Prop} [Decidable p] (hu : p → u.coreSettled) (hv : ¬p → t.coreSettled) :
    (if p then u else t : State).coreSettled := by
  split
  · exact hu ‹_›
  · exact hv ‹_›

/-! ### Admission to the paths -/

theorem State.coreSettled.printRefuse (h : s.coreSettled) (r : Refused) : (s.printRefuse r).coreSettled :=
  State.coreSettled.dropCore (s := { s.refuse 2 r with print := _ }) h.refuse .print

theorem State.coreSettled.printCheck10 (h : s.coreSettled) (a : PrintArgs) : (s.printCheck10 a).coreSettled := by
  unfold State.printCheck10
  extract_lets cap
  split
  · exact ((Plain.refl (s := s)).quotaStop.settled h).printRefuse _
  · rename_i u hu
    exact (Plain.refl (s := u)).admitted.settled (h.of_core (State.requestHold_core hu))

theorem State.coreSettled.printAdmit (h : s.coreSettled) : s.printAdmit.coreSettled := by
  unfold State.printAdmit
  split
  · exact h
  · extract_lets s1 s2 refusing
    have h1 : s1.coreSettled := (Plain.refl (s := s)).touchJob.settled h
    have h2 : s2.coreSettled := (Plain.refl (s := s1)).readAccount.settled h1
    split
    · exact h1.printRefuse _
    · split
      · exact h2.printRefuse _
      · split
        · exact h2
        · split
          · exact h2.printRefuse _
          · split
            · exact (Plain.refl (s := s2)).requestChecks _ |>.settled h2
            · exact h2.printCheck10 _

theorem State.coreSettled.renewPrint (h : s.coreSettled) : s.renewPrint.coreSettled := by
  unfold State.renewPrint
  split
  · exact h.printAdmit
  · exact h

theorem State.coreSettled.renewPrintOnSupply (h : s.coreSettled) (b : State) : (b.renewPrintOnSupply s).coreSettled := by
  unfold State.renewPrintOnSupply
  split
  · exact h
  · split
    · exact h.renewPrint
    · exact h

theorem State.coreSettled.scanRefuse (h : s.coreSettled) (r : Refused) (w13 : Nat) : (s.scanRefuse r w13).coreSettled :=
  State.coreSettled.dropCore (s := { s.refuse 1 r w13 with scan := _ }) h.refuse .scan

theorem State.coreSettled.scanAdmit (h : s.coreSettled) : s.scanAdmit.coreSettled := by
  unfold State.scanAdmit
  split
  · exact h
  · rename_i a _
    extract_lets s1 s2
    have h1 : s1.coreSettled := (Plain.refl (s := s)).touchJob.settled h
    have h2 : s2.coreSettled := (Plain.refl (s := s1)).readAccount.settled h1
    split
    · exact h1.scanRefuse _ _
    · split
      · exact h1.scanRefuse _ _
      · split
        · exact h2.scanRefuse _ _
        · split
          · exact h2
          · unfold State.scanCheck8
            extract_lets rate
            split
            · exact ((Plain.refl (s := s2)).quotaStop.settled h2).scanRefuse _ _
            · rename_i u hu
              exact ((Plain.refl (s := u)).admitted.takePageNumber (k := a.slot)).settled (h2.of_core (State.requestHold_core hu))

theorem State.coreSettled.renewScan (h : s.coreSettled) : s.renewScan.coreSettled := by
  unfold State.renewScan
  split
  · exact h.scanAdmit
  · exact h

theorem State.coreSettled.clearDrain (h : s.coreSettled) : s.clearDrain.coreSettled := by
  have hd : ({ s with scan := { s.scan with drain := false } } : State).coreSettled := h
  unfold State.clearDrain
  extract_lets u
  split
  · exact hd
  · exact hd.renewScan

theorem State.startSourceRead_core (s : State) : s.startSourceRead.core = s.core := by
  unfold State.startSourceRead
  split
  · rfl
  · split <;> rfl

/-! ### Tickets -/

theorem State.coreSettled.openJobEntry (h : s.coreSettled) (a : OpenJobArgs) (i : Nat) : (s.openJobEntry a i).coreSettled := by
  refine State.coreSettled.close (h.of_core ?_)
  rfl

theorem State.coreSettled.openSlotEntry (h : s.coreSettled) (i : Nat) (j : Handle) (uses : BitVec 4) (keep : Bool) :
    (s.openSlotEntry i j uses keep).coreSettled := by
  refine State.coreSettled.close (h.of_core ?_)
  rfl

theorem State.coreSettled.attachSlotEntry (h : s.coreSettled) (k : SlotHandle) (j : Handle) : (s.attachSlotEntry k j).coreSettled := by
  refine State.coreSettled.close (h.of_core ?_)
  rfl

theorem State.coreSettled.grantTo (h : s.coreSettled) (i n : Nat) {code : ReturnCode} {w13 w14 : Nat} :
    ((s.grantTo i n).close 0 code w13 w14).coreSettled := by
  refine State.coreSettled.close (h.of_core ?_)
  rfl

theorem State.coreSettled.serve (h : b.coreSettled) {kind : TicketKind} {w13 : Nat} {body : Ticket → State → State}
    (hbody : ∀ k t, t.coreSettled → (body k t).coreSettled) : (serve kind w13 body b).coreSettled := by
  unfold Machine.serve
  split
  · exact h
  · extract_lets t
    have ht : t.coreSettled := h.of_core (by show (b.beginService _).core = _; rw [State.beginService_frame])
    split
    · exact ht.close
    · exact hbody _ _ ht

theorem setAccountBody_settled (k : Ticket) (h : t.coreSettled) : (setAccountBody k t).coreSettled := by
  unfold Machine.setAccountBody
  refine coreSettled_ite (fun _ => h.close) fun _ => ?_
  split
  · split
    · exact h.close
    · exact coreSettled_ite (fun _ => h.close) fun _ => (Plain.refl (s := t)).setAccountWrite.settled h
  · exact coreSettled_ite (fun _ => h.close) fun _ => coreSettled_ite (fun _ => h.close) fun _ => State.pumpCore_coreSettled _
  · exact h.close

theorem closeSessionBody_settled (k : Ticket) (h : t.coreSettled) : (closeSessionBody k t).coreSettled := by
  unfold Machine.closeSessionBody
  split
  · exact h.close
  · exact State.pumpCore_coreSettled _

theorem openJobBody_settled (k : Ticket) (h : t.coreSettled) : (openJobBody k t).coreSettled := by
  unfold Machine.openJobBody
  split
  · exact h.close
  · extract_lets u
    have hu : u.coreSettled := (Plain.refl (s := t)).touchOptSession.readAccount.settled h
    split
    · exact hu.refuse
    · split
      · exact hu.close
      · exact hu.openJobEntry _ _

theorem resumeJobBody_settled (k : Ticket) (h : t.coreSettled) : (resumeJobBody k t).coreSettled := by
  unfold Machine.resumeJobBody
  extract_lets j u
  have hu : u.coreSettled := (Plain.refl (s := t)).touchJob.settled h
  split
  · exact hu.close
  · exact hu.refuse
  · extract_lets v e grant
    have hv : v.coreSettled := (Plain.refl (s := u)).readAccount.settled hu
    split
    · exact hv.refuse
    · exact hv.grantTo _ _

theorem endJobBody_settled (k : Ticket) (h : t.coreSettled) : (endJobBody k t).coreSettled := by
  unfold Machine.endJobBody
  extract_lets j u
  have hu : u.coreSettled := (Plain.refl (s := t)).touchJob.settled h
  split
  · exact hu.close
  · exact hu.refuse
  · exact State.pumpCore_coreSettled _

theorem openSlotBody_settled (k : Ticket) (h : t.coreSettled) : (openSlotBody k t).coreSettled := by
  unfold Machine.openSlotBody
  extract_lets uses keep j u n v
  have hu : u.coreSettled := (Plain.refl (s := t)).touchJob.settled h
  have hv : v.coreSettled := (Plain.refl (s := u)).readAccount.settled hu
  split
  · exact h.close
  · split
    · exact hu.refuse
    · split
      · exact hv.refuse
      · split
        · exact hv.close
        · exact hv.openSlotEntry _ _ _ _

theorem attachSlotBody_settled (k : Ticket) (h : t.coreSettled) : (attachSlotBody k t).coreSettled := by
  unfold Machine.attachSlotBody
  extract_lets i j e u n v
  have hu : u.coreSettled := (Plain.refl (s := t)).touchJob.touchSession.settled h
  have hv : v.coreSettled := (Plain.refl (s := u)).readAccount.settled hu
  split
  · exact hu.refuse
  · split
    · exact hv.refuse
    · exact hv.attachSlotEntry _ _

theorem destroySlotBody_settled (k : Ticket) (h : t.coreSettled) : (destroySlotBody k t).coreSettled := by
  unfold Machine.destroySlotBody
  extract_lets i j e u k
  have hu : u.coreSettled := by
    dsimp only [u]
    cases j
    · exact (Plain.refl (s := t)).touchOptSession.settled h
    · exact (Plain.refl (s := t)).touchJob.settled h
  split
  · exact h.close
  · split
    · exact hu.refuse
    · exact State.pumpCore_coreSettled _

theorem State.coreSettled.putSection (h : s.coreSettled) (x : Section) : (s.putSection x).coreSettled := by
  unfold State.putSection
  extract_lets old was st u
  have hu : u.coreSettled := h
  clear_value u
  split
  · exact (Plain.foldl (fun h => h.resupply) _ (Plain.refl (s := u))).settled hu
  · exact State.pumpCore_coreSettled _
  · exact hu

theorem configureBody_settled (k : Ticket) (h : t.coreSettled) : (configureBody k t).coreSettled := by
  unfold Machine.configureBody
  extract_lets n source result
  split
  · exact h.close
  · split
    · exact h.close
    · split
      · exact State.coreSettled.close (s := State.captureMemory _ _ _ _) h
      · split
        · exact h.close
        · exact (Plain.refl (s := State.putSection _ _)).writeControlResult.close0.settled (h.putSection _)

theorem printImpressionBody_settled (k : Ticket) (h : t.coreSettled) : (printImpressionBody k t).coreSettled := by
  unfold Machine.printImpressionBody
  extract_lets job list count
  split
  · exact h.close
  · split
    · exact State.coreSettled.close ((Plain.refl (s := t)).touchJob.captureMemory.settled h)
    · extract_lets raw
      split
      · exact h.close
      · exact State.coreSettled.printAdmit (s := { t with print := _ }) h

theorem scanPageBody_settled (k : Ticket) (h : t.coreSettled) : (scanPageBody k t).coreSettled := by
  unfold Machine.scanPageBody
  extract_lets job list count
  split
  · exact h.close
  · split
    · exact State.coreSettled.close ((Plain.refl (s := t)).touchJob.captureMemory.settled h)
    · extract_lets buffers
      split
      · exact h.close
      · exact State.coreSettled.scanAdmit (s := { t with scan := _ }) h

theorem State.coreSettled.beginCipher (h : s.coreSettled) {work : ScanWork} {a : ScanArgs} {page : Nat} {l : List Source}
    {d : List Destination} : (s.beginCipher work a page l d).coreSettled := h.of_core (State.startSourceRead_core _)

theorem State.coreSettled.admitEncipher (h : s.coreSettled) {a : ScanArgs} {l : List Source} {d : List Destination} :
    (s.admitEncipher a l d).coreSettled := by
  unfold State.admitEncipher
  extract_lets u v r
  have hu : u.coreSettled := (Plain.refl (s := s)).touchJob.settled h
  have hv : v.coreSettled := (Plain.refl (s := u)).readAccount.settled hu
  split
  · exact hu.refuse
  · split
    · exact hv.refuse
    · exact ((Plain.refl (s := v)).takePageNumber.settled hv).beginCipher

theorem State.coreSettled.admitDecipher (h : s.coreSettled) {a : ScanArgs} {page : Nat} {l : List Source} {d : List Destination} :
    (s.admitDecipher a page l d).coreSettled := by
  unfold State.admitDecipher
  extract_lets u v
  have hu : u.coreSettled := (Plain.refl (s := s)).touchJob.settled h
  have hv : v.coreSettled := (Plain.refl (s := u)).readAccount.settled hu
  split
  · exact hu.refuse
  · split
    · exact hv.refuse
    · exact hv.beginCipher

theorem encipherBandsBody_settled (k : Ticket) (h : t.coreSettled) : (encipherBandsBody k t).coreSettled := by
  unfold Machine.encipherBandsBody
  extract_lets job count
  split
  · exact h.close
  · split
    · exact State.coreSettled.close ((Plain.refl (s := t)).touchJob.captureMemory.settled h)
    · split
      · exact h.close
      · split
        · exact h.close
        · exact h.admitEncipher

theorem decipherBandsBody_settled (k : Ticket) (h : t.coreSettled) : (decipherBandsBody k t).coreSettled := by
  unfold Machine.decipherBandsBody
  extract_lets job count page
  split
  · exact h.close
  · split
    · exact State.coreSettled.close ((Plain.refl (s := t)).touchJob.captureMemory.settled h)
    · split
      · exact h.close
      · split
        · exact h.close
        · exact h.admitDecipher

theorem State.coreSettled.fetchTicket (h : s.coreSettled) {n : Fin 4} {a : Nat} : (s.fetchTicket n a).coreSettled := by
  unfold State.fetchTicket
  split
  · exact h
  · extract_lets k l u
    have hu : u.coreSettled := h
    clear_value u
    refine coreSettled_ite (fun _ => hu) fun _ => ?_
    split
    · exact hu.close
    · unfold State.markActive
      rcases u.writeWord_cases (k.address + 60) (closingWord 2 0 u.epoch false false) with ⟨-, e⟩ | ⟨-, e⟩ <;> rw [e]
      · exact hu
      · exact hu

theorem State.coreSettled.takeFetch (h : s.coreSettled) {n : Fin 4} : (s.takeFetch n).coreSettled := by
  unfold State.takeFetch
  split
  · exact State.coreSettled.fetchTicket (s := State.putLane _ _ _) h
  · exact h

/-! ### Events -/

theorem coreSettled_of_empty (h : t.core.isEmpty) : t.coreSettled := fun _ => ⟨h.2.1, h.2.2⟩

theorem State.coreSettled.withdraw (h : s.coreSettled) : s.withdraw.coreSettled := by
  by_cases hop : s.dev.op = .running
  · exact coreSettled_of_empty ((State.withdraw_ends hop).core (State.wipeAll_empty _))
  · rw [State.withdraw, if_neg hop]
    exact h

theorem State.coreSettled.endStart (h : s.coreSettled) : s.endStart.coreSettled := by
  unfold State.endStart
  refine coreSettled_ite (fun _ => h) fun _ => ?_
  extract_lets d u v
  have hu : u.coreSettled := h
  have hv : v.coreSettled := ((Plain.refl (s := u)).requestChecks _).settled hu
  exact coreSettled_ite (fun _ => hv.withdraw) fun _ => hv

theorem State.coreSettled.takeBandRead (h : s.coreSettled) {i : Nat} : (s.takeBandRead i).coreSettled := by
  unfold State.takeBandRead
  split
  · split
    · exact coreSettled_ite (fun _ => State.pumpCore_coreSettled _) fun _ => h
    · exact h
  · exact h

theorem State.coreSettled.engineEvent (h : s.coreSettled) {n : Nat} {e : EngineEvent} {f : State → State}
    (hf : s.print.state = .imaging ∨ s.print.state = .imaged → (f s).coreSettled) : (s.engineEvent n e f).coreSettled := by
  refine coreSettled_ite (fun hn => hf ?_) fun _ => coreSettled_ite (fun _ => h) fun _ => h
  unfold State.inFlightNumber at hn
  split at hn
  · assumption
  · cases hn

theorem State.coreSettled.takeDemand (h : s.coreSettled) (hs : s.print.state = .imaging ∨ s.print.state = .imaged) {p : Plane} :
    (s.takeDemand p).coreSettled := by
  unfold State.takeDemand
  split
  · refine coreSettled_ite (fun _ => h) fun _ => ?_
    split
    · exact State.pumpCore_coreSettled _
    · split
      · exact State.pumpCore_coreSettled _
      · exact coreSettled_ite (fun _ => ((Plain.refl (s := s)).sendLine hs).settled h) fun _ => State.pumpCore_coreSettled _
  · exact h

theorem State.coreSettled.scannerLine (h : s.coreSettled) {l : List Byte} : (s.scannerLine l).coreSettled := by
  unfold State.scannerLine
  split
  · exact h
  · exact coreSettled_ite (fun _ => State.pumpCore_coreSettled _) fun _ => h

theorem State.coreSettled.scannerPageEnd (h : s.coreSettled) : s.scannerPageEnd.coreSettled := by
  unfold State.scannerPageEnd
  refine coreSettled_ite (fun _ => h.clearDrain) fun _ => ?_
  split
  · exact h
  · exact coreSettled_ite (fun _ => State.pumpCore_coreSettled _) fun _ => h

theorem State.coreSettled.scannerError (h : s.coreSettled) : s.scannerError.coreSettled :=
  coreSettled_ite (fun _ => h.clearDrain) fun _ => coreSettled_ite (fun _ => State.pumpCore_coreSettled _) fun _ => h

theorem State.coreSettled.takeSourceRead (h : s.coreSettled) : s.takeSourceRead.coreSettled := by
  unfold State.takeSourceRead
  split
  · exact coreSettled_ite (fun _ => State.pumpCore_coreSettled _) fun _ => h
  · exact h

theorem State.coreSettled.takeEdge (h : s.coreSettled) {n : Nat} {high : Bool} : (s.takeEdge n high).coreSettled :=
  coreSettled_ite (fun _ => h) fun _ => State.pumpCore_coreSettled _

theorem State.coreSettled.linkEffect (h : b.coreSettled) {f : State → State} (hf : Plain b (f b)) : (b.linkEffect f).coreSettled :=
  coreSettled_ite (fun _ => (hf.endCheckWait.settled h).renewPrintOnSupply b) fun _ => h

theorem State.coreSettled.whenUp (h : b.coreSettled) {f : State → State} (hf : (f b).coreSettled) : (b.whenUp f).coreSettled :=
  coreSettled_ite (fun _ => hf) fun _ => h

theorem State.coreSettled.whenAlive (h : b.coreSettled) {f : State → State} (hf : (f b).coreSettled) : (b.whenAlive f).coreSettled :=
  coreSettled_ite (fun _ => hf) fun _ => h

/-- What is up pumps, or keeps the core's queues. -/
theorem coreSettled_pumped {p : Prop} [Decidable p] (h : b.coreSettled) : (if p then t.pumpCore else b : State).coreSettled :=
  coreSettled_ite (fun _ => State.pumpCore_coreSettled _) fun _ => h

theorem coreSettled_start (f : FaultRecord) (cause : StartCause) (x : StartInputs) : (State.start { b with faults := f } cause x).coreSettled :=
  (Plain.start cause x).settled fun _ => ⟨rfl, rfl⟩

theorem effectOf_settled (c : Instr) (h : b.coreSettled) : (effectOf c b).coreSettled := by
  cases c with
  | powerOn e x => exact coreSettled_start .cleared .power x
  | resetInputAssert => exact coreSettled_ite (fun _ => h) fun _ => h
  | resetInputRelease e x => exact coreSettled_ite (fun _ => coreSettled_start .cleared .power x) fun _ => h
  | restart e v x => exact coreSettled_ite (fun _ => coreSettled_start b.faults .restart x) fun _ => h
  | startEnd e => exact coreSettled_ite (fun _ => h.endStart) fun _ => h
  | post v => exact coreSettled_ite (fun _ => (Plain.refl (s := b)).takePost.settled h) fun _ => h
  | noticeRead => exact coreSettled_ite (fun _ => h) fun _ => h
  | noticeEnableWrite v => exact coreSettled_ite (fun _ => h) fun _ => h
  | registerWriteIgnored w => exact h
  | fetch e n => exact coreSettled_ite (fun _ => h.takeFetch) fun _ => h
  | setAccount e => exact h.serve fun k t => setAccountBody_settled k
  | readAccounts e => exact h.serve fun k t => Plain.refl.readAccountsBody.settled
  | resetPeriod e => exact h.serve fun k t => Plain.refl.resetPeriodBody.settled
  | openSession e => exact h.serve fun k t => Plain.refl.openSessionBody.settled
  | closeSession e => exact h.serve fun k t => closeSessionBody_settled k
  | sessionIdleExpiry e n => exact coreSettled_pumped h
  | lockoutExpiry e n => exact coreSettled_ite (fun _ => (Plain.refl (s := b)).unlock.settled h) fun _ => h
  | openJob e => exact h.serve fun k t => openJobBody_settled k
  | resumeJob e => exact h.serve fun k t => resumeJobBody_settled k
  | endJob e => exact h.serve fun k t => endJobBody_settled k
  | takeHold e => exact h.serve fun k t => Plain.refl.takeHoldBody.settled
  | releaseHold e => exact h.serve fun k t => Plain.refl.releaseHoldBody.settled
  | engineHoldIdleExpiry e => exact coreSettled_ite (fun _ => h) fun _ => h
  | openSlot e => exact h.serve fun k t => openSlotBody_settled k
  | keepSlot e => exact h.serve fun k t => Plain.refl.keepSlotBody.settled
  | attachSlot e => exact h.serve fun k t => attachSlotBody_settled k
  | destroySlot e => exact h.serve fun k t => destroySlotBody_settled k
  | heldSlotExpiry e i => exact coreSettled_pumped h
  | configure e => exact h.serve fun k t => configureBody_settled k
  | statusDigest e => exact h.serve fun k t => Plain.refl.statusDigestBody.settled
  | clearFaults e => exact h.serve fun k t => Plain.refl.clearFaultsBody.settled
  | resumeService e => exact h.serve fun k t => Plain.refl.resumeServiceBody.settled
  | resumeServiceTestEnd e p => exact coreSettled_pumped h
  | printImpression e => exact h.serve fun k t => printImpressionBody_settled k
  | bandReadDone e i => exact coreSettled_ite (fun _ => h.takeBandRead) fun _ => h
  | cipherBandDone e =>
    show (match b.core.band with
      | none => b
      | some x => b.whenUp fun b => b.coreBandEnds x).coreSettled
    split
    · exact h
    · exact coreSettled_pumped h
  | engineDemand e n p => exact coreSettled_ite (fun _ => h.engineEvent fun hs => h.takeDemand hs) fun _ => h
  | engineOutcome e n d => exact coreSettled_ite (fun _ => h.engineEvent fun _ => State.pumpCore_coreSettled _) fun _ => h
  | scanPage e => exact h.serve fun k t => scanPageBody_settled k
  | scannerLine e l => exact coreSettled_ite (fun _ => h.scannerLine) fun _ => h
  | scannerPageEnd e => exact coreSettled_ite (fun _ => h.scannerPageEnd) fun _ => h
  | scannerError e => exact coreSettled_ite (fun _ => h.scannerError) fun _ => h
  | bandWriteDone e => exact coreSettled_pumped h
  | encipherBands e => exact h.serve fun k t => encipherBandsBody_settled k
  | decipherBands e => exact h.serve fun k t => decipherBandsBody_settled k
  | sourceReadDone e => exact coreSettled_ite (fun _ => h.takeSourceRead) fun _ => h
  | periodicSelfTest => exact coreSettled_ite (fun _ => State.coreSettled_busy (.inr (.inl rfl))) fun _ => h
  | periodicSelfTestEnd e p =>
    refine coreSettled_ite (fun _ => ?_) fun _ => h
    exact coreSettled_ite (fun _ => State.pumpCore_coreSettled _) fun _ => State.pumpCore_coreSettled _
  | senseLineEdge e n high => exact coreSettled_ite (fun _ => h.takeEdge) fun _ => h
  | checkCartridge e => exact h.serve fun k t => Plain.refl.checkCartridgeBody.settled
  | readCartridges e => exact h.serve fun k t => Plain.refl.readCartridgesBody.settled
  | procedureStart e =>
    exact h.linkEffect (f := fun b : State => if b.linkRuns then b.startProcedure else b)
      (.ite (fun _ => Plain.refl.startProcedure) fun _ => .refl)
  | attemptSend =>
    show (match b.link.state, b.link.transaction with
      | .settling, some t => b.whenUp fun b => { b with link := { b.link with state := .request, frame := t.frame } }
      | _, _ => b).coreSettled
    split
    · exact coreSettled_ite (fun _ => h) fun _ => h
    · exact h
  | requestFrameDone => exact coreSettled_ite (fun _ => h) fun _ => h
  | quietWaitTimeout e =>
    refine h.linkEffect (f := fun b : State => match b.link.state, b.link.transaction with
      | .settling, some t => b.attemptEnds t .fails
      | _, _ => b) ?_
    split
    · exact Plain.refl.attemptEnds
    · exact .refl
  | responseFrame e l => exact h.linkEffect (f := fun b : State => b.responseEnds (attemptOf l)) Plain.refl.responseEnds
  | responseDeadline e => exact h.linkEffect (f := fun b : State => b.responseEnds fun _ => some .fails) Plain.refl.responseEnds
  | linkLine e => exact h.linkEffect Plain.refl.lineStuck
  | linkLineRecovered => exact coreSettled_ite (fun _ => h) fun _ => h
  | lossOfPower n => exact h

/-- Every step leaves no band waiting for a core that can take one. -/
theorem step_coreSettled (h : step s = .next t) (hs : s.coreSettled) : t.coreSettled := by
  unfold Machine.step at h
  split at h
  · exact Host.Outcome.next.inj h ▸ hs
  · rename_i c rest _
    have ha : Answers c { s with pending := rest } t := h
    by_cases hc : ∃ n, c = .lossOfPower n
    · obtain ⟨n, rfl⟩ := hc
      rw [answers_lossOfPower.mp ha]
      exact coreSettled_ite (fun _ _ => ⟨rfl, rfl⟩) fun _ => hs
    · rw [ha.eq_effect fun n e => hc ⟨n, e⟩]
      have hb : (State.begin { s with pending := rest } c.env).coreSettled := hs
      exact effectOf_settled c hb

end Sys2Proof.Machine
end

