-- ==== Sys2Proof/Proofs/StartRest.lean ====
section
/-! A part that is STARTING stays at rest (R171): no command serves a ticket, fetches, or begins work of a path before the start ends. -/

namespace Sys2Proof.Machine

variable {c : Instr} {s t u b : State}

/-- STARTING, with the paths, the cipher core, the link queue and the lanes at rest. -/
structure State.atStart (s : State) : Prop where
  op : s.dev.op = .starting
  print : s.print.state = .idle
  scan : s.scan.state = .idle
  link : s.link.queue = []
  core : s.core.isEmpty
  lanes : ∀ n : Fin 4, (s.lane n).service = none

theorem State.atStart.rests (h : s.atStart) : s.startRests := fun _ =>
  ⟨h.print, h.scan, h.link, h.core.1, h.core.2.1, h.core.2.2, h.lanes⟩

theorem State.startRests.atStart (h : s.startRests) (ho : s.dev.op = .starting) : s.atStart := by
  obtain ⟨hp, hs, hl, hb, hq, hw, hn⟩ := h ho
  exact ⟨ho, hp, hs, hl, ⟨hb, hq, hw⟩, hn⟩

/-- What a start is at rest of stays the same. -/
structure Still (s t : State) : Prop where
  dev : t.dev = s.dev := by rfl
  print : t.print.state = s.print.state := by rfl
  scan : t.scan.state = s.scan.state := by rfl
  queue : s.link.queue = [] → t.link.queue = [] := by exact id
  core : t.core = s.core := by rfl
  lanes : t.lanes = s.lanes := by rfl

theorem Still.refl : Still s s := {}

theorem Still.trans (h : Still s t) (h' : Still t u) : Still s u :=
  ⟨h'.dev.trans h.dev, h'.print.trans h.print, h'.scan.trans h.scan, h'.queue ∘ h.queue, h'.core.trans h.core, h'.lanes.trans h.lanes⟩

theorem Still.foldl {α : Type} {f : State → α → State} (hf : ∀ t x, Still t (f t x)) (l : List α) (s : State) : Still s (l.foldl f s) := by
  induction l generalizing s with
  | nil => exact .refl
  | cons x rest ih => exact (hf s x).trans (ih _)

theorem State.atStart.still (h : s.atStart) (hs : Still s t) : t.atStart where
  op := by rw [hs.dev]; exact h.op
  print := hs.print.trans h.print
  scan := hs.scan.trans h.scan
  link := hs.queue h.link
  core := by rw [hs.core]; exact h.core
  lanes n := by rw [State.lane, hs.lanes]; exact h.lanes n

/-! ### A door edge -/

theorem Still.ite {p : Prop} [Decidable p] (hu : p → Still s u) (hv : ¬p → Still s t) : Still s (if p then u else t) := by
  split
  · exact hu ‹_›
  · exact hv ‹_›

theorem Still.listWrite (h : Still s t) {n : Nat} : Still s (t.listWrite n) := by
  unfold State.listWrite
  dsimp only []
  split
  · exact h.trans {}
  · exact h

theorem Still.changeCart (h : Still s t) {n : Nat} {x : Cartridge} : Still s (t.changeCart n x) :=
  .ite (fun _ => h.trans {}) fun _ => h.trans {}

theorem Still.removeProcedures (h : Still s t) {n : Nat} : Still s (t.removeProcedures n) := by
  unfold State.removeProcedures
  extract_lets mine u x l
  have hu : Still s u := .ite (fun _ => by unfold State.countNotChecked; split; exacts [h, h.trans {}]) fun _ => h
  have hl : u.link.queue = [] → l.queue = [] := fun hq => by
    show u.link.queue.filter _ = []
    rw [hq]
    rfl
  refine hu.trans { queue := fun hq => ?_ }
  dsimp only []
  split
  · rw [Link.cutRunning_queue]
    exact hl hq
  · exact hl hq

theorem Still.doorOpened (s : State) (n : Nat) : Still s (s.doorOpened n) :=
  (Still.ite (fun _ => Still.refl.listWrite) fun _ => .refl).changeCart.removeProcedures

theorem State.writeEntries_still (l : List (List Word)) (s : State) (n : Fin 4) (a : Nat) : Still s (s.writeEntries n a l).1 := by
  rw [State.writeEntries_frame]
  exact {}

/-- Nothing is in service that the end of a wait would close. -/
theorem State.atStart.endCheckWait (h : s.atStart) : s.endCheckWait.atStart := by
  unfold State.endCheckWait
  split
  · exact h
  · split
    · exact h
    · extract_lets r code v
      have hr : r.1.atStart := h.still (State.writeEntries_still _ _ _ _)
      have hv : v = r.1 := State.close_idle _ _ _ _ _ _ _ (hr.lanes 3)
      rw [hv]
      exact hr.still {}

theorem State.atStart.doorEdge (h : s.atStart) (n : Nat) : (s.doorEdge n).atStart :=
  (h.still (Still.foldl Still.doorOpened _ _)).endCheckWait

theorem State.atStart.requestCheck (h : s.atStart) (n : Nat) (w : Bool) : s.requestCheck n w = s := by
  refine if_neg fun hc => ?_
  rw [h.op] at hc
  rcases hc.1 with e | e <;> cases e

theorem State.atStart.doorReturn (h : s.atStart) (n : Nat) : s.doorReturn n = s := by
  unfold State.doorReturn
  induction doorSlots n with
  | nil => rfl
  | cons x rest ih => rw [List.foldl_cons, h.requestCheck, ih]

theorem State.atStart.doorChange (h : s.atStart) (old new : BitVec 8) (n : Nat) : (s.doorChange old new n).atStart := by
  unfold State.doorChange
  split
  · exact h.doorEdge n
  · split
    · rw [h.doorReturn]
      exact h
    · exact h

theorem State.atStart.groupChange (h : s.atStart) {f : State → State} (hf : ∀ t, t.atStart → f t = t) (old new group : BitVec 8) :
    (s.groupChange old new group f).atStart := by
  have hr : (s.raise .sense).atStart := h.still {}
  unfold State.groupChange
  split
  · exact h
  · split
    · rw [hf _ hr]
      exact hr
    · exact hr

theorem State.atStart.senseChange (h : s.atStart) (old new : BitVec 8) : (s.senseChange old new).atStart := by
  unfold State.senseChange
  extract_lets u v w x y
  have hu : u.atStart := (h.doorChange old new 0).doorChange old new 1
  have hv : v.atStart := by
    show (u.scannerReadyEdge old new).atStart
    unfold State.scannerReadyEdge
    split
    · exact hu.still {}
    · exact hu
  have hw : w.atStart := hv.groupChange (fun t ht => by rw [State.printDeparture, ht.print]) old new engineLines
  have hx : x.atStart := hw.groupChange (fun t ht => by rw [State.scanDeparture, ht.scan]) old new scannerLines
  have hy : y.atStart := hx.groupChange (fun t ht => if_neg fun e => by rw [ht.op] at e; cases e) old new privacyLines
  have hz : y.engineReadyReturn old new = y := if_neg fun hc => by
    simp [hy.print] at hc
  have hr : y.scannerReadyReturn old new = y := by
    unfold State.scannerReadyReturn
    split
    · exact if_neg fun e => by rw [hy.scan] at e; cases e
    · rfl
  rw [hz, hr, State.pumpCore_empty hy.core]
  exact hy

/-! ### Every command -/

theorem State.atStart.takeEdge (h : s.atStart) (n : Nat) (high : Bool) : (s.takeEdge n high).atStart := by
  unfold State.takeEdge
  split
  · exact h
  · exact State.atStart.senseChange (h.still {}) _ _

theorem State.atStart.clearDrain (h : s.atStart) : s.clearDrain.atStart := by
  unfold State.clearDrain
  extract_lets p u
  have hu : u.atStart := h.still {}
  split
  · exact hu
  · rw [State.renewScan, if_neg fun e => by rw [hu.scan] at e; cases e]
    exact hu

theorem State.atStart.takesScanner (h : s.atStart) : s.takesScanner = false := by simp [State.takesScanner, h.scan]

theorem State.atStart.scannerEvents (h : s.atStart) :
    (∀ l, (s.scannerLine l).atStart) ∧ s.scannerPageEnd.atStart ∧ s.scannerError.atStart := by
  refine ⟨fun l => ?_, ?_, ?_⟩
  · unfold State.scannerLine
    split
    · exact h
    · rw [if_neg fun hc => by rw [h.takesScanner] at hc; cases hc.2]
      exact h
  · unfold State.scannerPageEnd
    split
    · exact h.clearDrain
    · split
      · exact h
      · rw [if_neg fun hc => by rw [h.takesScanner] at hc; cases hc]
        exact h
  · unfold State.scannerError
    split
    · exact h.clearDrain
    · rw [if_neg fun hc => by rw [h.takesScanner] at hc; cases hc]
      exact h

theorem State.atStart.engineEvent (h : s.atStart) (n : Nat) (e : EngineEvent) (f : State → State) : (s.engineEvent n e f).atStart := by
  have hn : s.inFlightNumber = none := by simp [State.inFlightNumber, h.print]
  unfold State.engineEvent
  rw [hn, if_neg (by nofun)]
  split
  · exact h
  · exact h.still {}

theorem State.atStart.takePost (h : s.atStart) (v : Word) : (s.takePost v).atStart := by
  unfold State.takePost
  extract_lets n
  split
  · exact h.still {}
  · refine ⟨h.op, h.print, h.scan, h.link, h.core, fun m => ?_⟩
    by_cases hm : n = m
    · subst hm
      rw [State.putLane_lane_same]
      exact h.lanes n
    · rw [State.putLane_lane_other _ _ _ _ hm]
      exact h.lanes m

/-- The commands that act on a part whose start has not ended. -/
def reachesStart : Instr → Bool
  | .powerOn .. => true
  | .resetInputAssert => true
  | .resetInputRelease .. => true
  | .restart .. => true
  | .startEnd _ => true
  | .post _ => true
  | .noticeRead => true
  | .noticeEnableWrite _ => true
  | .engineDemand .. => true
  | .engineOutcome .. => true
  | .scannerLine .. => true
  | .scannerPageEnd _ => true
  | .scannerError _ => true
  | .senseLineEdge .. => true
  | _ => false

theorem serve_down (h : b.up = false) {kind : TicketKind} {w13 : Nat} {body : Ticket → State → State} : serve kind w13 body b = b := by
  have hs : b.serving kind = none := if_neg fun e => by rw [h] at e; cases e
  rw [serve, hs]

theorem whenUp_down (h : b.up = false) {f : State → State} : b.whenUp f = b := if_neg (by rw [h]; nofun)

theorem if_down (h : b.up = false) {p : Prop} [Decidable p] : (if b.up = true ∧ p then t else b) = b :=
  if_neg fun e => by rw [h] at e; cases e.1

/-- Any other command leaves a part alone that is not up. -/
theorem effectOf_down (h : b.up = false) (hc : reachesStart c = false) : effectOf c b = b := by
  cases c with
  | powerOn | resetInputAssert | resetInputRelease | restart | startEnd | post | noticeRead | noticeEnableWrite | engineDemand
  | engineOutcome | scannerLine | scannerPageEnd | scannerError | senseLineEdge => cases hc
  | setAccount | readAccounts | resetPeriod | openSession | closeSession | openJob | resumeJob | endJob | takeHold | releaseHold
  | openSlot | keepSlot | attachSlot | destroySlot | configure | statusDigest | clearFaults | resumeService | printImpression | scanPage
  | encipherBands | decipherBands | checkCartridge | readCartridges => exact serve_down h
  | fetch | bandReadDone | bandWriteDone | sourceReadDone => exact if_neg (by rw [h]; nofun)
  | sessionIdleExpiry | lockoutExpiry | engineHoldIdleExpiry | heldSlotExpiry | resumeServiceTestEnd | periodicSelfTest
  | periodicSelfTestEnd | requestFrameDone | linkLineRecovered => exact if_down h
  | procedureStart | quietWaitTimeout | responseFrame | responseDeadline | linkLine => exact if_neg (by rw [h]; nofun)
  | registerWriteIgnored | lossOfPower => rfl
  | cipherBandDone =>
    show (match b.core.band with
      | none => b
      | some x => b.whenUp fun b => b.coreBandEnds x) = b
    split
    · rfl
    · exact whenUp_down h
  | attemptSend =>
    show (match b.link.state, b.link.transaction with
      | .settling, some t => b.whenUp fun b => { b with link := { b.link with state := .request, frame := t.frame } }
      | _, _ => b) = b
    split
    · exact whenUp_down h
    · rfl

theorem start_rests (f : FaultRecord) (cause : StartCause) (x : StartInputs) : (State.start { b with faults := f } cause x).startRests := by
  obtain ⟨aw, acc, hstart, -⟩ := State.start_startingWith { b with faults := f } cause x
  rw [hstart]
  exact fun _ => ⟨rfl, rfl, rfl, rfl, rfl, rfl, fun n => by fin_cases n <;> rfl⟩

theorem State.requestCheck_dev (s : State) (n : Nat) (w : Bool) : (s.requestCheck n w).dev = s.dev := by
  unfold State.requestCheck
  split <;> rfl

/-- A start ends in another state. -/
theorem State.endStart_op (s : State) : s.endStart.dev.op ≠ .starting := by
  unfold State.endStart
  split
  · nofun
  · extract_lets d u v
    have hv : v.dev.op = .running := by
      show (supplySlots.foldl _ u).dev.op = _
      have hdev : ∀ (l : List Nat) (t : State), (l.foldl (fun s n => s.requestCheck n false) t).dev = t.dev := by
        intro l
        induction l with
        | nil => exact fun _ => rfl
        | cons n rest ih => exact fun t => (ih _).trans (t.requestCheck_dev n false)
      rw [hdev]
    split
    · rw [(State.withdraw_ends hv).frame, (State.wipeAll_spec _).1]
      nofun
    · rw [hv]
      nofun

theorem effectOf_atStart (c : Instr) (h : b.atStart) : (effectOf c b).startRests := by
  have hdown : b.up = false := by rw [State.up, h.op]; simp
  have hite : ∀ {p : Prop} [Decidable p] {t : State}, t.startRests → (if p then t else b).startRests := fun {p} _ {t} ht => by
    split
    · exact ht
    · exact h.rests
  by_cases hc : reachesStart c = false
  · rw [effectOf_down hdown hc]
    exact h.rests
  · cases c with
    | powerOn e x => exact start_rests .cleared .power x
    | resetInputAssert => exact hite fun _ => ⟨rfl, h.scan, rfl, h.core.1, h.core.2.1, h.core.2.2, h.lanes⟩
    | resetInputRelease e x => exact hite (start_rests .cleared .power x)
    | restart e v x => exact hite (start_rests b.faults .restart x)
    | startEnd e => exact hite fun ho => absurd ho b.endStart_op
    | post v => exact hite (h.takePost v).rests
    | noticeRead => exact hite (h.still {}).rests
    | noticeEnableWrite v => exact hite (h.still {}).rests
    | engineDemand e n p => exact hite (h.engineEvent _ _ _).rests
    | engineOutcome e n d => exact hite (h.engineEvent _ _ _).rests
    | scannerLine e l => exact hite (h.scannerEvents.1 l).rests
    | scannerPageEnd e => exact hite h.scannerEvents.2.1.rests
    | scannerError e => exact hite h.scannerEvents.2.2.rests
    | senseLineEdge e n high => exact hite (h.takeEdge _ _).rests
    | _ => exact absurd rfl hc

theorem Act.not_starting {W : Scope} (h : Act W s t) (hs : s.dev.op ≠ .starting) : t.dev.op ≠ .starting := by
  rcases h.op with e | ⟨-, e⟩ <;> rw [e]
  · exact hs
  · nofun

theorem losePower_rests (n : Nat) : (s.losePower n).startRests := fun _ =>
  ⟨rfl, rfl, rfl, rfl, rfl, rfl, fun n => by fin_cases n <;> rfl⟩

theorem finish_startRests (h : s.startRests) : s.finish.startRests := h

/-- Only a start makes a part STARTING, which leaves it at rest. -/
theorem Effect.startRests (h : Effect c s t) (hs : s.dev.op ≠ .starting) : t.startRests := by
  cases h with
  | lost n hc =>
    split
    · exact losePower_rests _
    · exact fun ho => absurd ho hs
  | started cause x hc f hf =>
    exact finish_startRests (start_rests f cause x)
  | ran e hr =>
    obtain ⟨u, v, hbu, huv, hvt⟩ := hr
    have hu : u.dev.op ≠ .starting := hbu.keeps (P := fun x => x.dev.op ≠ .starting) hs Act.not_starting
    have hv : v.dev.op ≠ .starting := by
      cases huv with
      | startEnds hc hop op ho => exact absurd hop hu
      | resumed hc ht x hx => nofun
      | _ => exact hu
    exact fun ho => absurd ho (hvt.keeps (P := fun x => x.dev.op ≠ .starting) hv Act.not_starting)

/-- Every step keeps a part that is STARTING at rest. -/
theorem step_startRests (h : step s = .next t) (hs : s.startRests) : t.startRests := by
  unfold Machine.step at h
  split at h
  · exact Host.Outcome.next.inj h ▸ hs
  · rename_i c rest _
    have ha : Answers c { s with pending := rest } t := h
    by_cases ho : s.dev.op = .starting
    · by_cases hc : ∃ n, c = .lossOfPower n
      · obtain ⟨n, rfl⟩ := hc
        rw [answers_lossOfPower.mp ha]
        split
        · exact losePower_rests _
        · exact hs
      · rw [ha.eq_effect fun n e => hc ⟨n, e⟩]
        have hb : (State.begin { s with pending := rest } c.env).atStart := State.startRests.atStart hs ho
        exact effectOf_atStart c hb
    · exact Effect.startRests (exec_effect ha) ho

end Sys2Proof.Machine

namespace Sys2Proof.Proofs

open Sys2Proof.Machine

/-- Settles O57: the operations keep slots, lists and keys in agreement; a part that is not up serves nothing; and a command ends by
handing the core its next band, or leaves its queues no fuller. -/
theorem stepKeepsSlotsAndRest : Obligations.StepKeepsSlotsAndRest := by
  intro s t h
  refine ⟨slotsLawful_kept.step h, step_startRests h, testsWithdrawn_kept.step h, fun hl ha hk => ?_, step_coreSettled h⟩
  have hattached := attached_law.step h (attached_of_laws hl ha hk)
  exact ⟨hattached.agree, hattached.keys⟩

end Sys2Proof.Proofs
end

