-- ==== Sys2Proof/Proofs/Tally.lean ====
section
/-! R25: an account's reserved is the sum of its jobs' free reservations and holds. Every operation keeps this but those that take or settle
a page's hold, which need the links of the paths (R26, R29). -/

namespace Sys2Proof.Machine

variable {K : Prop} {x y : Debt × State} {D E : Debt} {s t u : State}

/-! ### Sums over the job table -/

/-- The units the jobs keep of an account. -/
def State.unitsOf (s : State) (n : Nat) : Nat := (s.jobs.toList.map (fun j => j.reservedFor n)).sum

theorem sum_map_set {α : Type} (f : α → Nat) (l : List α) (i : Nat) (x : α) (hi : i < l.length) :
    ((l.set i x).map f).sum + f l[i] = (l.map f).sum + f x := by
  induction l generalizing i with
  | nil => cases hi
  | cons a l ih =>
    cases i with
    | zero => simp; omega
    | succ i =>
      have hi' : i < l.length := by simpa using hi
      have := ih i hi'
      simp only [List.set_cons_succ, List.map_cons, List.sum_cons, List.getElem_cons_succ]
      omega

theorem State.job_getElem {i : Nat} (hi : i < 32) : s.job i = s.jobs.toList[i]'(by simpa using hi) := by
  simp [State.job, entryAt, hi]

/-- One entry of the job table is replaced. -/
theorem State.unitsOf_putJob {i : Nat} (hi : i < 32) (j : Job) (n : Nat) :
    (s.putJob i j).unitsOf n + (s.job i).reservedFor n = s.unitsOf n + j.reservedFor n := by
  have hset : (s.putJob i j).jobs.toList = s.jobs.toList.set i j := by simp [State.putJob, putAt]
  rw [State.unitsOf, State.unitsOf, hset, State.job_getElem hi]
  exact sum_map_set _ _ _ _ _

theorem State.unitsOf_congr {n : Nat} (h : ∀ i, (t.job i).reservedFor n = (s.job i).reservedFor n) : t.unitsOf n = s.unitsOf n := by
  have hmap : t.jobs.toList.map (fun j => j.reservedFor n) = s.jobs.toList.map (fun j => j.reservedFor n) := by
    refine List.ext_getElem (by simp) fun i hi _ => ?_
    have hi' : i < 32 := by simpa using hi
    rw [List.getElem_map, List.getElem_map]
    have := h i
    rwa [State.job_getElem hi', State.job_getElem hi'] at this
  rw [State.unitsOf, State.unitsOf, hmap]

theorem State.reservedFor_le_unitsOf (i n : Nat) : (s.job i).reservedFor n ≤ s.unitsOf n := by
  by_cases hi : i < 32
  · have := s.unitsOf_putJob hi (.freed 0) n
    have h0 : (Job.freed 0).reservedFor n = 0 := if_neg fun c => c.1 rfl
    omega
  · have h0 : (s.job i).reservedFor n = 0 := by
      have : s.job i = .freed 0 := by simp [State.job, entryAt, Nat.le_of_not_lt hi]
      rw [this]
      exact if_neg fun c => c.1 rfl
    omega

/-! ### The law -/

/-- R25 in the middle of a command: a job that ends keeps nothing (R33). -/
structure Tally (D : Debt) (s : State) : Prop where
  sums : ∀ n < 512, (s.acct n).reserved = s.unitsOf n
  flights : ∀ i, ((s.job i).printFlight = false → (s.job i).printHold = 0) ∧ ((s.job i).scanFlight = false → (s.job i).scanHold = 0)
  ended : ∀ i l, D.ending = some (i, l) → (s.job i).free = 0 ∧ (s.job i).printFlight = false ∧ (s.job i).scanFlight = false

theorem Tally.balanced (h : Tally D s) : s.balanced := ⟨h.sums, h.flights⟩

theorem tally_of_balanced (h : s.balanced) (hD : D.ending = none) : Tally D s :=
  ⟨h.1, h.2, fun i l e => by rw [hD] at e; cases e⟩

/-- A job entry keeps its units. -/
structure Job.owing (j k : Job) : Prop where
  free_iff : k.state = .free ↔ j.state = .free := by exact Iff.rfl
  account : k.account = j.account := by rfl
  free : k.free = j.free := by rfl
  printHold : k.printHold = j.printHold := by rfl
  scanHold : k.scanHold = j.scanHold := by rfl
  printFlight : k.printFlight = j.printFlight := by rfl
  scanFlight : k.scanFlight = j.scanFlight := by rfl

theorem Job.owing.reservedFor {j k : Job} (h : j.owing k) (n : Nat) : k.reservedFor n = j.reservedFor n := by
  unfold Job.reservedFor
  simp only [h.account, h.free, h.printHold, h.scanHold, ne_eq, h.free_iff]

theorem Job.alike.owing {j k : Job} (h : j.alike k) : j.owing k :=
  ⟨h.free_iff, h.account, h.free, h.printHold, h.scanHold, h.printFlight, h.scanFlight⟩

theorem Tally.owing (h : Tally D s) (hj : ∀ i, (s.job i).owing (t.job i)) (hr : ∀ n < 512, (t.acct n).reserved = (s.acct n).reserved)
    (hD : E.ending = D.ending ∨ ∃ i l l', D.ending = some (i, l) ∧ E.ending = some (i, l')) : Tally E t := by
  refine ⟨fun n hn => ?_, fun i => ?_, fun i l e => ?_⟩
  · rw [hr n hn, h.sums n hn]
    exact (State.unitsOf_congr fun i => (hj i).reservedFor n).symm
  · rw [(hj i).printFlight, (hj i).printHold, (hj i).scanFlight, (hj i).scanHold]
    exact h.flights i
  · rw [(hj i).free, (hj i).printFlight, (hj i).scanFlight]
    rcases hD with hD | ⟨m, l1, l2, h1, h2⟩
    · exact h.ended i l (hD ▸ e)
    · rw [h2] at e
      cases e
      exact h.ended i l1 h1

theorem Tally.plain (h : Tally D s) (hp : Plain s t) : Tally D t := h.owing (fun i => (hp.jobs i).owing) hp.reserved (.inl rfl)

theorem Tally.same (h : Tally D s) (hj : t.jobs = s.jobs) (ha : t.accounts = s.accounts) (hD : E.ending = D.ending) : Tally E t :=
  h.owing (fun i => by rw [State.job_congr hj]; exact {}) (fun n _ => by rw [State.acct, ha]; rfl) (.inl hD)

/-- One job's units and its account's reserved change together. -/
theorem Tally.update (h : Tally D s) {i : Nat} {j : Job} (hi : i < 32) (ht : t.jobs = putAt s.jobs i j)
    (hr : ∀ n < 512, (t.acct n).reserved + (s.job i).reservedFor n = (s.acct n).reserved + j.reservedFor n)
    (hj : (j.printFlight = false → j.printHold = 0) ∧ (j.scanFlight = false → j.scanHold = 0)) (hE : E.ending = none) : Tally E t := by
  have hjob : ∀ m, t.job m = (s.putJob i j).job m := fun m => State.job_congr (s := s.putJob i j) ht m
  refine ⟨fun n hn => ?_, fun m => ?_, fun m l e => by rw [hE] at e; cases e⟩
  · have hunits : t.unitsOf n = (s.putJob i j).unitsOf n := State.unitsOf_congr fun m => by rw [hjob]
    have := s.unitsOf_putJob hi j n
    have := hr n hn
    have := h.sums n hn
    omega
  · rw [hjob, State.putJob_job]
    split
    · exact hj
    · exact h.flights m

/-! ### What jobs and accounts do -/

theorem Job.reservedFor_own (j : Job) (h : j.state ≠ .free) (n : Nat) :
    j.reservedFor n = if j.account = n then j.free + j.printHold + j.scanHold else 0 := by
  unfold Job.reservedFor
  simp only [h, ne_eq, not_false_eq_true, true_and]

/-- What an account has reserved covers a job of it. -/
theorem Tally.covers (h : Tally D s) {i : Nat} (hi : (s.job i).state ≠ .free) (ha : (s.job i).account < 512) :
    (s.job i).free + (s.job i).printHold + (s.job i).scanHold ≤ (s.acct (s.job i).account).reserved := by
  rw [h.sums _ ha]
  refine Nat.le_trans (Nat.le_of_eq ?_) (s.reservedFor_le_unitsOf i _)
  rw [Job.reservedFor_own _ hi, if_pos rfl]

/-- The reserved of one account changes. -/
theorem State.reserved_putAcct (m n : Nat) (a : AccountVolatile) :
    ((s.putAcct m a).acct n).reserved = if m = n ∧ m < 512 then a.reserved else (s.acct n).reserved := by
  rw [State.putAcct_acct]
  split <;> rfl

theorem Tally.releaseFree (h : Tally D s) {i : Nat} (hi : (s.job i).state ≠ .free) (hE : E.ending = none) : Tally E (s.releaseFree i) := by
  refine h.update (i := i) (j := { s.job i with free := 0 }) (State.job_lt hi) rfl (fun n hn => ?_) (h.flights i) hE
  show ((s.subReserved _ _).acct n).reserved + _ = _
  rw [State.subReserved, State.reserved_putAcct, Job.reservedFor_own _ hi, Job.reservedFor_own { s.job i with free := 0 } hi]
  by_cases hn' : (s.job i).account = n
  · subst hn'
    have := h.covers hi hn
    rw [if_pos ⟨rfl, hn⟩, if_pos rfl, if_pos rfl]
    dsimp only []
    omega
  · rw [if_neg fun c => hn' c.1, if_neg hn', if_neg hn']

theorem Tally.grantTo (h : Tally D s) {i g : Nat} (hi : (s.job i).state ≠ .free) (hE : E.ending = none) : Tally E (s.grantTo i g) := by
  let j : Job := { s.job i with state := .opened, free := (s.job i).free + g }
  refine h.update (i := i) (j := j) (State.job_lt hi) rfl (fun n hn => ?_) (h.flights i) hE
  show (((s.putJob i j).addReserved _ g).acct n).reserved + _ = _
  rw [State.addReserved, State.reserved_putAcct, Job.reservedFor_own _ hi, Job.reservedFor_own j (by nofun)]
  by_cases hn' : (s.job i).account = n
  · subst hn'
    rw [if_pos ⟨rfl, hn⟩, if_pos rfl, if_pos rfl]
    show (s.acct _).reserved + g + _ = (s.acct _).reserved + ((s.job i).free + g + (s.job i).printHold + (s.job i).scanHold)
    omega
  · rw [if_neg fun c => hn' c.1, if_neg hn', if_neg hn']
    rfl

/-- R24: the entry taken, before the ticket is closed. -/
def State.openedJob (s : State) (a : OpenJobArgs) (i : Nat) : State :=
  (s.putJob i (a.job (s.job i).gen (grantOf a.units (s.available a.account)))).addReserved a.account
    (grantOf a.units (s.available a.account))

theorem Tally.openedJob (h : Tally D s) {i : Nat} (hi : i < 32) (hfree : (s.job i).state = .free) (a : OpenJobArgs) (hE : E.ending = none) :
    Tally E (s.openedJob a i) := by
  unfold State.openedJob
  generalize grantOf a.units (s.available a.account) = g
  let j : Job := a.job (s.job i).gen g
  refine h.update (i := i) (j := j) hi rfl (fun n hn => ?_) ⟨fun _ => rfl, fun _ => rfl⟩ hE
  have h0 : (s.job i).reservedFor n = 0 := if_neg fun c => c.1 hfree
  rw [State.addReserved, State.reserved_putAcct, h0, Job.reservedFor_own j (by nofun)]
  show _ = _ + if a.account = n then g + 0 + 0 else 0
  by_cases hn' : a.account = n
  · subst hn'
    rw [if_pos ⟨rfl, hn⟩, if_pos rfl]
    rfl
  · rw [if_neg fun c => hn' c.1, if_neg hn']
    rfl

theorem Tally.jobGone (h : Tally D s) {i : Nat} (hD : D.ending = some (i, [])) (hE : E.ending = none) : Tally E (s.jobGone i) := by
  obtain ⟨hfree, hp, hs⟩ := h.ended i [] hD
  by_cases hi : i < 32
  · refine h.update (i := i) (j := .freed (((s.job i).gen + 1) % 256)) hi ?_ (fun n hn => ?_) ⟨fun _ => rfl, fun _ => rfl⟩ hE
    · rw [State.jobGone, State.freeJob, State.putJob_putJob, State.putJob_job_same _ _ hi]
      rfl
    · have h0 : (s.job i).reservedFor n = 0 := by
        unfold Job.reservedFor
        rw [hfree, (h.flights i).1 hp, (h.flights i).2 hs]
        split <;> rfl
      have h1 : (Job.freed (((s.job i).gen + 1) % 256)).reservedFor n = 0 := if_neg fun c => c.1 rfl
      rw [h0, h1]
      rfl
  · have hsame : ∀ j, (s.jobGone i).job j = s.job j := fun j => by
      rw [State.jobGone, State.freeJob, State.putJob_job, if_neg fun c => hi c.2, State.putJob_job, if_neg fun c => hi c.2]
    refine ⟨fun n hn => ?_, fun j => by rw [hsame]; exact h.flights j, fun j l e => by rw [hE] at e; cases e⟩
    have hunits : (s.jobGone i).unitsOf n = s.unitsOf n := State.unitsOf_congr fun j => by rw [hsame]
    rw [hunits]
    exact h.sums n hn

theorem State.wipeSlot_owing (s : State) (k i : Nat) : (s.job i).owing ((s.wipeSlot k).job i) := by
  rw [(s.wipeSlot_moved k).jobs i]
  exact {}

theorem Tally.slotLeaves (h : Tally D s) (k : SlotHandle)
    (hD : E.ending = D.ending ∨ ∃ i l l', D.ending = some (i, l) ∧ E.ending = some (i, l')) : Tally E (s.slotLeaves k) := by
  unfold State.slotLeaves
  split
  · exact h.owing (s.wipeSlot_owing _) (fun n _ => by rw [State.acct, (s.wipeSlot_moved _).frame]; rfl) hD
  · exact h.owing (fun _ => {}) (fun _ _ => rfl) hD

theorem Tally.appendSlot (h : Tally D s) (i : Nat) (k : SlotHandle) : Tally D (s.appendSlot i k) := by
  refine h.owing (fun m => ?_) (fun _ _ => rfl) (.inl rfl)
  rw [State.appendSlot, State.putJob_job]
  split
  · rename_i c
    rw [← c.1]
    exact {}
  · exact {}

theorem Tally.close (h : Tally D s) {n : Fin 4} {code : ReturnCode} {w13 w14 : Nat} {x y : Bool} (hD : E.ending = D.ending) :
    Tally E (s.close n code w13 w14 x y) := by
  rw [State.close_frame]
  exact h.same rfl rfl hD

/-- Every operation but those of a page's hold keeps the balance. -/
theorem Op.tally (h : Op K x y) (hx : x.1.holds = false) (ht : Tally x.1 x.2) : Tally y.1 y.2 ∧ y.1.holds = false := by
  cases h with
  | plain h => exact ⟨ht.plain h, hx⟩
  | printHold a cap i p hD => exact absurd hx (by rw [hD.2.2]; nofun)
  | settlePrint a cap d c hD => exact absurd hx (by rw [hD.2.2]; nofun)
  | scanHold a i n p hD => exact absurd hx (by rw [hD.2.2]; nofun)
  | settleScan a d c hD => exact absurd hx (by rw [hD.2.2]; nofun)
  | closePrint p code w13 w14 e f => exact ⟨Tally.same (Tally.close ht rfl) rfl rfl rfl, hx⟩
  | closeScan code w13 w14 e f => exact ⟨Tally.same (Tally.close ht rfl) rfl rfl rfl, hx⟩
  | startWrite => exact ⟨by rw [State.startWrite_frame]; exact ht.same rfl rfl rfl, hx⟩
  | releaseFree i hD hi => exact ⟨ht.releaseFree hi hD, hx⟩
  | beginEnd i hD hi hf hp hs =>
    refine ⟨⟨ht.sums, ht.flights, fun m l e => ?_⟩, hx⟩
    cases e
    exact ⟨hf, hp, hs⟩
  | endSlot i k rest hD => exact ⟨ht.slotLeaves k (.inr ⟨i, _, _, hD, rfl⟩), hx⟩
  | endJob i hD => exact ⟨ht.jobGone hD rfl, hx⟩
  | grant i n hD hi => exact ⟨ht.grantTo hi hD, hx⟩
  | openJob a i hD hi =>
    obtain ⟨h32, hfree⟩ := lowest_some hi (.freed 0)
    refine ⟨Tally.close ?_ rfl, hx⟩
    exact ht.openedJob h32 (of_decide_eq_true hfree) a hD.1
  | wipe i => exact ⟨ht.owing (State.wipeSlot_owing _ _) (fun n _ => by rw [State.acct, (State.wipeSlot_moved _ _).frame]; rfl) (.inl rfl), hx⟩
  | openSlot i j uses keep =>
    refine ⟨Tally.close (Tally.appendSlot ?_ _ _) rfl, hx⟩
    exact ht.same rfl rfl rfl
  | attachSlot k j =>
    refine ⟨Tally.close (Tally.appendSlot ?_ _ _) rfl, hx⟩
    exact ht.same rfl rfl rfl
  | _ => exact ⟨ht.same rfl rfl rfl, hx⟩

/-- What a command does that neither admits nor settles a page. -/
def Debt.still : Debt := { Debt.clear with holds := false }

theorem Debt.still_paid : Debt.still.paid := ⟨rfl, rfl, rfl⟩

theorem Ops.balanced (h : Ops K (Debt.still, s) (Debt.still, t)) (hs : s.balanced) : t.balanced :=
  (h.keeps (P := fun z => Tally z.1 z.2 ∧ z.1.holds = false) ⟨tally_of_balanced hs rfl, rfl⟩ fun o hz => o.tally hz.2 hz.1).1.balanced

/-- The job tickets keep the balance, whatever the paths hold. -/
theorem jobTickets_balanced {c : Instr} {e : Env} (hc : c = .openJob e ∨ c = .resumeJob e ∨ c = .endJob e) (hs : s.balanced)
    (h : Answers c s t) : t.balanced := by
  have hrefl : ∀ b : State, Ops False (Debt.still, b) (Debt.still, b) := fun _ => .refl
  have hnone : ∀ b : State, False → b.alive = true → b.linked := fun _ hk => hk.elim
  have hb : ∀ e, (s.begin e).balanced := fun _ => hs
  rcases hc with rfl | rfl | rfl <;> rw [h.eq_effect (by nofun)]
  · have hrun := (hrefl (s.begin e)).serve (kind := .openJob) (w13 := 0) (body := openJobBody) (hnone _) fun k u hu _ _ =>
      hu.openJobBody Debt.still_paid rfl
    exact hrun.balanced (hb e)
  · have hrun := (hrefl (s.begin e)).serve (kind := .resumeJob) (w13 := 0) (body := resumeJobBody) (hnone _) fun k u hu _ _ =>
      hu.resumeJobBody Debt.still_paid
    exact hrun.balanced (hb e)
  · have hrun := (hrefl (s.begin e)).serve (kind := .endJob) (w13 := 0) (body := endJobBody) (hnone _) fun k u hu _ _ =>
      hu.endJobBody Debt.still_paid
    exact hrun.balanced (hb e)

end Sys2Proof.Machine
end

