-- ==== Sys2Proof/Proofs/Units.lean ====
section
/-! The laws of units (R8, R25) and the links of the paths to the jobs whose pages are in flight (R26, R29), in the middle of a command. -/

namespace Sys2Proof.Machine

variable {x y : Debt × State} {D E : Debt} {s t u v : State} {d : Bool}

/-! ### The links -/

/-- R26, R29: the print path and the job whose impression is in flight name each other, until the impression is settled. -/
structure PrintLink (d : Bool) (s : State) : Prop where
  begun : s.print.state ≠ .idle → s.begun 2
  flight : s.print.state.inFlight → d = false → ∃ a cap i, s.print.args = some a ∧ s.print.capture = some cap ∧ s.jobOf a.job = some i ∧
    (s.job i).printFlight = true ∧ (s.job i).printHold = cap.hold a.colour
  owner : ∀ i, (s.job i).printFlight = true →
    d = false ∧ s.print.state.inFlight ∧ ∃ a, s.print.args = some a ∧ s.jobOf a.job = some i

/-- A path that has begun nothing has no band in its buffers or at the core (R88). -/
def State.scanBare (s : State) : Prop :=
  (∀ i < 2, (s.buffer i).cond = .free) ∧ s.core.scanWaiting = none ∧
    ∀ b, s.core.band = some b → b.path = .scan → b.orphan = true

/-- R26, R29, R88: the same of the scan path, and what its state tells of its work. -/
structure ScanLink (d : Bool) (s : State) : Prop where
  begun : s.scan.state ≠ .idle → s.begun 1
  page : s.scan.state = .scanning → s.scan.work = .page
  flight : s.scan.state = .scanning → d = false → ∃ a r i, s.scan.args = some a ∧ s.scan.capture = some r ∧
    s.jobOf a.job = some i ∧ (s.job i).scanFlight = true ∧ (s.job i).scanHold = r
  owner : ∀ i, (s.job i).scanFlight = true →
    d = false ∧ s.scan.state = .scanning ∧ ∃ a, s.scan.args = some a ∧ s.jobOf a.job = some i
  ciphering : s.scan.state = .ciphering → s.scan.work ≠ .page
  waiting : s.scan.state = .waiting → s.scan.work = .page
  rest : s.scan.state = .idle ∨ s.scan.state = .waiting → s.scanBare

theorem printLink_of_linked (h : s.printLinked) : PrintLink false s where
  begun := h.1
  flight hf _ := h.2.1 hf
  owner i hi := ⟨rfl, h.2.2 i hi⟩

theorem PrintLink.linked (h : PrintLink false s) : s.printLinked :=
  ⟨h.begun, fun hf => h.flight hf rfl, fun i hi => (h.owner i hi).2⟩

theorem scanLink_of_linked (h : s.scanLinked) : ScanLink false s where
  begun := h.1
  page hs := (h.2.1 hs).1
  flight hs _ := (h.2.1 hs).2
  owner i hi := ⟨rfl, h.2.2.1 i hi⟩
  ciphering := h.2.2.2.1
  waiting := h.2.2.2.2.1
  rest := h.2.2.2.2.2

theorem ScanLink.linked (h : ScanLink false s) : s.scanLinked :=
  ⟨h.begun, fun hs => ⟨h.page hs, h.flight hs rfl⟩, fun i hi => (h.owner i hi).2, h.ciphering, h.waiting, h.rest⟩

/-- What lanes and paths tell of each other. -/
theorem linked_of_links (hp : PrintLink d s) (hs : ScanLink d s) : s.linked where
  print := hp.begun
  scan := hs.begun
  writes i hi := by
    have hbusy : s.scanBusy := by
      by_contra hn
      have hrest : s.scan.state = .idle ∨ s.scan.state = .waiting := by
        unfold State.scanBusy at hn
        cases he : s.scan.state <;> simp_all
      obtain ⟨h2, hw⟩ := lowest_some hi .erased
      have hfree := (hs.rest hrest).1 i h2
      have hwriting : (s.buffer i).isWriting = true := hw
      simp [Buffer.isWriting, hfree] at hwriting
    refine ⟨hbusy, fun hw => ?_, hs.page⟩
    rcases hbusy with h | h
    · exact h
    · exact absurd hw (hs.ciphering h)
  cipher := hs.ciphering

/-! ### What keeps a link -/

theorem State.jobOf_kept {h : Handle} {i : Nat} (hj : s.jobOf h = some i) (hg : (t.job i).gen = (s.job i).gen)
    (hs : (t.job i).state ≠ .free) : t.jobOf h = some i := by
  obtain ⟨hidx, hi, -, hgen⟩ := State.jobOf_idx hj
  subst hidx
  unfold State.jobOf
  exact if_pos ⟨hi, hs, hg.trans hgen⟩

theorem State.begun_of_service {n : Fin 4} (h : s.begun n) (hs : (t.lane n).service = (s.lane n).service) : t.begun n := by
  obtain ⟨k, hk, hb⟩ := h
  exact ⟨k, hs.trans hk, hb⟩

/-- The print path, its lane and the job whose impression is in flight stay. -/
structure PrintKin (s t : State) : Prop where
  service : (t.lane 2).service = (s.lane 2).service := by rfl
  idle : t.print.state = .idle ↔ s.print.state = .idle := by exact Iff.rfl
  flight : t.print.state.inFlight ↔ s.print.state.inFlight := by exact Iff.rfl
  args : t.print.args = s.print.args := by rfl
  captured : t.print.capture = s.print.capture := by rfl
  jobs : ∀ i, (t.job i).printFlight = (s.job i).printFlight ∧ (t.job i).printHold = (s.job i).printHold ∧
    ((s.job i).printFlight = true → (t.job i).gen = (s.job i).gen ∧ ((s.job i).state ≠ .free → (t.job i).state ≠ .free)) := by
    exact fun _ => ⟨rfl, rfl, fun _ => ⟨rfl, id⟩⟩

theorem PrintKin.trans (h : PrintKin s t) (h' : PrintKin t u) : PrintKin s u where
  service := h'.service.trans h.service
  idle := h'.idle.trans h.idle
  flight := h'.flight.trans h.flight
  args := h'.args.trans h.args
  captured := h'.captured.trans h.captured
  jobs i := by
    obtain ⟨hf, hh, hk⟩ := h.jobs i
    obtain ⟨hf', hh', hk'⟩ := h'.jobs i
    refine ⟨hf'.trans hf, hh'.trans hh, fun e => ?_⟩
    obtain ⟨hg, hs⟩ := hk e
    obtain ⟨hg', hs'⟩ := hk' (hf.trans e)
    exact ⟨hg'.trans hg, hs' ∘ hs⟩

theorem PrintLink.kin (h : PrintLink d s) (hk : PrintKin s t) : PrintLink d t := by
  refine ⟨fun hi => ?_, fun hf hd => ?_, fun i hi => ?_⟩
  · exact State.begun_of_service (h.begun fun e => hi (hk.idle.mpr e)) hk.service
  · obtain ⟨a, cap, i, ha, hc, hj, hfl, hh⟩ := h.flight (hk.flight.mp hf) hd
    obtain ⟨e1, e2, e3⟩ := hk.jobs i
    obtain ⟨hg, hs⟩ := e3 hfl
    exact ⟨a, cap, i, hk.args.trans ha, hk.captured.trans hc, State.jobOf_kept hj hg (hs (State.jobOf_idx hj).2.2.1), e1.trans hfl,
      e2.trans hh⟩
  · obtain ⟨e1, -, e3⟩ := hk.jobs i
    rw [e1] at hi
    obtain ⟨hd, hf, a, ha, hj⟩ := h.owner i hi
    obtain ⟨hg, hs⟩ := e3 hi
    exact ⟨hd, hk.flight.mpr hf, a, hk.args.trans ha, State.jobOf_kept hj hg (hs (State.jobOf_idx hj).2.2.1)⟩

/-- The scan path, its lane and the job whose page is in flight stay. -/
structure ScanKin (s t : State) : Prop where
  service : (t.lane 1).service = (s.lane 1).service := by rfl
  state : t.scan.state = s.scan.state := by rfl
  work : t.scan.work = s.scan.work := by rfl
  args : t.scan.args = s.scan.args := by rfl
  captured : t.scan.capture = s.scan.capture := by rfl
  rest : s.scan.state = .idle ∨ s.scan.state = .waiting → s.scanBare → t.scanBare := by exact fun _ h => h
  jobs : ∀ i, (t.job i).scanFlight = (s.job i).scanFlight ∧ (t.job i).scanHold = (s.job i).scanHold ∧
    ((s.job i).scanFlight = true → (t.job i).gen = (s.job i).gen ∧ ((s.job i).state ≠ .free → (t.job i).state ≠ .free)) := by
    exact fun _ => ⟨rfl, rfl, fun _ => ⟨rfl, id⟩⟩

theorem ScanKin.trans (h : ScanKin s t) (h' : ScanKin t u) : ScanKin s u where
  service := h'.service.trans h.service
  state := h'.state.trans h.state
  work := h'.work.trans h.work
  args := h'.args.trans h.args
  captured := h'.captured.trans h.captured
  rest hr hb := h'.rest (by rwa [h.state]) (h.rest hr hb)
  jobs i := by
    obtain ⟨hf, hh, hk⟩ := h.jobs i
    obtain ⟨hf', hh', hk'⟩ := h'.jobs i
    refine ⟨hf'.trans hf, hh'.trans hh, fun e => ?_⟩
    obtain ⟨hg, hs⟩ := hk e
    obtain ⟨hg', hs'⟩ := hk' (hf.trans e)
    exact ⟨hg'.trans hg, hs' ∘ hs⟩

theorem ScanLink.kin (h : ScanLink d s) (hk : ScanKin s t) : ScanLink d t := by
  refine ⟨fun hi => ?_, fun hs => ?_, fun hs hd => ?_, fun i hi => ?_, fun hs => ?_, fun hs => ?_, fun hs => ?_⟩
  · exact State.begun_of_service (h.begun (by rwa [← hk.state])) hk.service
  · rw [hk.work]
    exact h.page (by rwa [← hk.state])
  · obtain ⟨a, r, i, ha, hc, hj, hfl, hh⟩ := h.flight (by rwa [← hk.state]) hd
    obtain ⟨e1, e2, e3⟩ := hk.jobs i
    obtain ⟨hg, hs⟩ := e3 hfl
    exact ⟨a, r, i, hk.args.trans ha, hk.captured.trans hc, State.jobOf_kept hj hg (hs (State.jobOf_idx hj).2.2.1), e1.trans hfl,
      e2.trans hh⟩
  · obtain ⟨e1, -, e3⟩ := hk.jobs i
    rw [e1] at hi
    obtain ⟨hd, hf, a, ha, hj⟩ := h.owner i hi
    obtain ⟨hg, hs⟩ := e3 hi
    exact ⟨hd, hk.state.trans hf, a, hk.args.trans ha, State.jobOf_kept hj hg (hs (State.jobOf_idx hj).2.2.1)⟩
  · rw [hk.work]
    exact h.ciphering (by rwa [← hk.state])
  · rw [hk.work]
    exact h.waiting (by rwa [← hk.state])
  · have hr : s.scan.state = .idle ∨ s.scan.state = .waiting := by rwa [← hk.state]
    exact hk.rest hr (h.rest hr)

theorem Plain.printKin (h : Plain s t) : PrintKin s t :=
  ⟨h.service2, h.idle, h.flight, h.args, h.captured, fun i =>
    ⟨(h.jobs i).printFlight, (h.jobs i).printHold, fun _ => ⟨(h.jobs i).gen, fun hf e => hf ((h.jobs i).free_iff.mp e)⟩⟩⟩

theorem Plain.scanBare (h : Plain s t) (hb : s.scanBare) : t.scanBare := by
  refine ⟨fun i hi => ?_, h.waiting.trans hb.2.1, fun b hbt hp => hb.2.2 b ((h.band b hp).mp hbt) hp⟩
  have hbuf : t.buffer i = s.buffer i := by
    show entryAt t.scan.internal i _ = _
    rw [h.internal]
    rfl
  rw [hbuf]
  exact hb.1 i hi

theorem Plain.scanKin (h : Plain s t) : ScanKin s t :=
  ⟨h.service1, h.scanState, h.work, h.scanArgs, h.scanCapture, fun _ => h.scanBare, fun i =>
    ⟨(h.jobs i).scanFlight, (h.jobs i).scanHold, fun _ => ⟨(h.jobs i).gen, fun hf e => hf ((h.jobs i).free_iff.mp e)⟩⟩⟩

/-! ### Quotas -/

/-- The reserved of accounts changes, within the quota. -/
theorem State.quotaKept.reserved (h : s.quotaKept) (hst : t.stored = s.stored) (hsh : t.shadow = s.shadow)
    (haw : t.afterWrites = s.afterWrites)
    (hr : ∀ n < 512, s.unlimited n = false → (s.record n).used + (t.acct n).reserved ≤ (s.record n).quota) : t.quotaKept := by
  have hrec : ∀ n, t.record n = s.record n := fun n => by
    show entryAt t.stored.accounts n _ = _
    rw [hst]
    rfl
  refine ⟨fun n hn hu => ?_, by rw [hsh]; exact h.2.1, by rw [haw]; exact h.2.2⟩
  have hu' : s.unlimited n = false := by
    rw [State.unlimited, hrec] at hu
    exact hu
  rw [hrec]
  exact hr n hn hu'

/-- R25: units leave an account's reserved. -/
theorem State.quotaKept.subReserved (h : s.quotaKept) (m c : Nat) : (s.subReserved m c).quotaKept := by
  refine h.reserved rfl rfl rfl fun n hn hu => ?_
  have := h.1 n hn hu
  rw [State.subReserved, State.reserved_putAcct]
  split
  · rename_i e
    obtain ⟨rfl, -⟩ := e
    dsimp only []
    omega
  · exact this

/-- R24, R26: units an account has available are reserved. -/
theorem State.quotaKept.addReserved (h : s.quotaKept) {m g : Nat} (hg : ∀ n, s.available m = some n → g ≤ n) :
    (s.addReserved m g).quotaKept := by
  refine h.reserved rfl rfl rfl fun n hn hu => ?_
  have hle := h.1 n hn hu
  rw [State.addReserved, State.reserved_putAcct]
  split
  · rename_i e
    obtain ⟨rfl, -⟩ := e
    have := hg _ (by rw [State.available, hu]; rfl)
    dsimp only []
    omega
  · exact hle

/-! ### A hold is taken -/

/-- The job with its hold taken (R26). -/
def State.holding (s : State) (i n : Nat) (p : CipherPath) : Job := ({ s.job i with free := (s.job i).free - n }).withHold p n

theorem State.topUp_eq (s : State) (i n : Nat) (p : CipherPath) :
    s.topUp i n (fun j => j.withHold p n) = (s.addReserved (s.job i).account (n - (s.job i).free)).putJob i (s.holding i n p) := rfl

theorem Tally.hold (h : Tally D s) {i n : Nat} {p : CipherPath} (hi : (s.job i).state ≠ .free) (h0 : (s.job i).holdOf p = 0)
    (hE : E.ending = none) : Tally E (s.topUp i n fun j => j.withHold p n) := by
  rw [State.topUp_eq]
  have hown : (s.holding i n p).state ≠ .free ∧ (s.holding i n p).account = (s.job i).account ∧
      (s.holding i n p).free + (s.holding i n p).printHold + (s.holding i n p).scanHold =
        (s.job i).free + (s.job i).printHold + (s.job i).scanHold + (n - (s.job i).free) := by
    cases p
    · have h0 : (s.job i).printHold = 0 := h0
      refine ⟨hi, rfl, ?_⟩
      show (s.job i).free - n + n + (s.job i).scanHold = _
      omega
    · have h0 : (s.job i).scanHold = 0 := h0
      refine ⟨hi, rfl, ?_⟩
      show (s.job i).free - n + (s.job i).printHold + n = _
      omega
  obtain ⟨hs, ha, hsum⟩ := hown
  refine h.update (i := i) (j := s.holding i n p) (State.job_lt hi) rfl (fun m hm => ?_) ?_ hE
  · show ((s.addReserved _ _).acct m).reserved + _ = _
    rw [State.addReserved, State.reserved_putAcct, Job.reservedFor_own _ hi, Job.reservedFor_own _ hs, ha]
    by_cases hm' : (s.job i).account = m
    · subst hm'
      rw [if_pos ⟨rfl, hm⟩, if_pos rfl, if_pos rfl, hsum]
      dsimp only []
      omega
    · rw [if_neg fun c => hm' c.1, if_neg hm', if_neg hm']
  · cases p
    · exact ⟨nofun, (h.flights i).2⟩
    · exact ⟨(h.flights i).1, nofun⟩

theorem State.quotaKept.hold (h : s.quotaKept) {i n : Nat} {p : CipherPath} (hc : s.covers (s.job i).account (s.job i).free n) :
    (s.topUp i n fun j => j.withHold p n).quotaKept := by
  rw [State.topUp_eq]
  refine State.quotaKept.addReserved h fun m hm => ?_
  unfold State.available at hm
  split at hm
  · cases hm
  · rename_i hu
    cases hm
    rcases hc with hc | hc
    · exact absurd hc hu
    · omega

theorem State.topUp_job {i n : Nat} {p : CipherPath} (hi : i < 32) (m : Nat) :
    (s.topUp i n fun j => j.withHold p n).job m = if i = m then s.holding i n p else s.job m := by
  rw [State.topUp_eq, State.putJob_job]
  simp only [hi, and_true]
  rfl

/-- The other path does not see the hold. -/
theorem scanKin_hold {i n : Nat} (hi : i < 32) : ScanKin s (s.topUp i n fun j => j.withHold .print n) := by
  refine { jobs := fun m => ?_ }
  rw [State.topUp_job hi]
  split
  · rename_i c
    rw [← c]
    exact ⟨rfl, rfl, fun _ => ⟨rfl, id⟩⟩
  · exact ⟨rfl, rfl, fun _ => ⟨rfl, id⟩⟩

theorem printKin_hold {i n : Nat} (hi : i < 32) : PrintKin s (s.topUp i n fun j => j.withHold .scan n) := by
  refine { jobs := fun m => ?_ }
  rw [State.topUp_job hi]
  split
  · rename_i c
    rw [← c]
    exact ⟨rfl, rfl, fun _ => ⟨rfl, id⟩⟩
  · exact ⟨rfl, rfl, fun _ => ⟨rfl, id⟩⟩

/-- R26: the impression admitted, and its job. -/
theorem printLink_hold {i n : Nat} {a : PrintArgs} {cap : PrintCapture} {p : PrintPath} (hno : ∀ m, (s.job m).printFlight = false)
    (hb : s.begun 2) (hj : s.jobOf a.job = some i) (hv : Plain (s.topUp i n fun j => j.withHold .print n) v) (hp : p.state = .preparing)
    (hpa : p.args = some a) (hpc : p.capture = some cap) (hn : n = cap.hold a.colour) : PrintLink false { v with print := p } := by
  obtain ⟨-, h32, hfree, -⟩ := State.jobOf_idx hj
  have hjob : ∀ m, (v.job m).printFlight = (if i = m then s.holding i n .print else s.job m).printFlight ∧
      (v.job m).printHold = (if i = m then s.holding i n .print else s.job m).printHold := fun m => by
    rw [(hv.jobs m).printFlight, (hv.jobs m).printHold, State.topUp_job h32]
    exact ⟨rfl, rfl⟩
  have hof : v.jobOf a.job = some i := by
    have hu := State.topUp_job (s := s) (n := n) (p := .print) h32 i
    rw [if_pos rfl] at hu
    refine State.jobOf_kept hj ?_ fun e => hfree ?_
    · rw [(hv.jobs i).gen, hu]
      rfl
    · have := (hv.jobs i).free_iff.mp e
      rw [hu] at this
      exact this
  have hflight : p.state.inFlight := .inl hp
  refine ⟨fun _ => State.begun_of_service hb hv.service2, fun _ _ => ⟨a, cap, i, hpa, hpc, hof, ?_, ?_⟩, fun m hm => ?_⟩
  · show (v.job i).printFlight = true
    rw [(hjob i).1, if_pos rfl]
    rfl
  · show (v.job i).printHold = _
    rw [(hjob i).2, if_pos rfl, ← hn]
    rfl
  · have hm' : (v.job m).printFlight = true := hm
    rw [(hjob m).1] at hm'
    split at hm'
    · rename_i c
      subst c
      exact ⟨rfl, hflight, a, hpa, hof⟩
    · rw [hno m] at hm'
      cases hm'

/-- R26, R88: the page admitted, and its job. -/
theorem scanLink_hold {i n : Nat} {a : ScanArgs} {p : ScanPath} (hno : ∀ m, (s.job m).scanFlight = false)
    (hb : s.begun 1) (hj : s.jobOf a.job = some i) (hv : Plain (s.topUp i n fun j => j.withHold .scan n) v) (hp : p.state = .scanning)
    (hw : p.work = .page) (hpa : p.args = some a) (hpc : p.capture = some n) : ScanLink false { v with scan := p } := by
  obtain ⟨-, h32, hfree, -⟩ := State.jobOf_idx hj
  have hjob : ∀ m, (v.job m).scanFlight = (if i = m then s.holding i n .scan else s.job m).scanFlight ∧
      (v.job m).scanHold = (if i = m then s.holding i n .scan else s.job m).scanHold := fun m => by
    rw [(hv.jobs m).scanFlight, (hv.jobs m).scanHold, State.topUp_job h32]
    exact ⟨rfl, rfl⟩
  have hof : v.jobOf a.job = some i := by
    have hu := State.topUp_job (s := s) (n := n) (p := .scan) h32 i
    rw [if_pos rfl] at hu
    refine State.jobOf_kept hj ?_ fun e => hfree ?_
    · rw [(hv.jobs i).gen, hu]
      rfl
    · have := (hv.jobs i).free_iff.mp e
      rw [hu] at this
      exact this
  refine ⟨fun _ => State.begun_of_service hb hv.service1, fun _ => hw, fun _ _ => ⟨a, n, i, hpa, hpc, hof, ?_, ?_⟩, fun m hm => ?_,
    fun e => ?_, fun _ => hw, fun e => ?_⟩
  · show (v.job i).scanFlight = true
    rw [(hjob i).1, if_pos rfl]
    rfl
  · show (v.job i).scanHold = _
    rw [(hjob i).2, if_pos rfl]
    rfl
  · have hm' : (v.job m).scanFlight = true := hm
    rw [(hjob m).1] at hm'
    split at hm'
    · rename_i c
      subst c
      exact ⟨rfl, hp, a, hpa, hof⟩
    · rw [hno m] at hm'
      cases hm'
  · rw [hp] at e
    cases e
  · rw [hp] at e
    rcases e with e | e <;> cases e

/-! ### A hold is settled -/

/-- The job and its account as a settlement leaves them, before the stored record (R29). -/
def State.holdPaid (s : State) (i : Nat) (p : CipherPath) (d : Bool) (c : Nat) : State :=
  (s.subReserved (s.job i).account c).putJob i ((s.job i).settled p c d)

theorem Tally.holdPaid (h : Tally D s) {i c : Nat} {p : CipherPath} (hi : (s.job i).state ≠ .free) (hc : c ≤ (s.job i).holdOf p)
    (hE : E.ending = none) : Tally E (s.holdPaid i p d c) := by
  have hown : ((s.job i).settled p c d).state ≠ .free ∧ ((s.job i).settled p c d).account = (s.job i).account ∧
      ((s.job i).settled p c d).free + ((s.job i).settled p c d).printHold + ((s.job i).settled p c d).scanHold + c =
        (s.job i).free + (s.job i).printHold + (s.job i).scanHold := by
    cases p
    · have hc : c ≤ (s.job i).printHold := hc
      refine ⟨hi, rfl, ?_⟩
      show (s.job i).free + ((s.job i).printHold - c) + 0 + (s.job i).scanHold + c = _
      omega
    · have hc : c ≤ (s.job i).scanHold := hc
      refine ⟨hi, rfl, ?_⟩
      show (s.job i).free + ((s.job i).scanHold - c) + (s.job i).printHold + 0 + c = _
      omega
  obtain ⟨hs, ha, hsum⟩ := hown
  refine h.update (i := i) (j := (s.job i).settled p c d) (State.job_lt hi) rfl (fun m hm => ?_) ?_ hE
  · show ((s.subReserved _ _).acct m).reserved + _ = _
    rw [State.subReserved, State.reserved_putAcct, Job.reservedFor_own _ hi, Job.reservedFor_own _ hs, ha]
    by_cases hm' : (s.job i).account = m
    · subst hm'
      have := h.covers hi hm
      rw [if_pos ⟨rfl, hm⟩, if_pos rfl, if_pos rfl]
      dsimp only []
      omega
    · rw [if_neg fun c => hm' c.1, if_neg hm', if_neg hm']
  · cases p
    · exact ⟨fun _ => rfl, (h.flights i).2⟩
    · exact ⟨(h.flights i).1, fun _ => rfl⟩

theorem sat32_le (a b : Nat) : sat32 a b ≤ a + b := Nat.min_le_left _ _

theorem State.readAccount_record_other {n : Nat} (h0 : n ≠ 0) : (s.readAccount n).record n = s.record n := by
  rcases s.readAccount_cases n with ⟨-, e⟩ | ⟨-, hn, -⟩ | ⟨-, -, ⟨-, e⟩ | ⟨-, e⟩⟩
  · rw [e]
  · exact absurd hn h0
  · rw [e]
  · rw [e]
    rfl

/-- R30: the record of a settlement counts what its account had reserved. -/
theorem Plain.chargeAccount {n : Nat} {c : AccountCharge}
    (hq : n < 512 → s.unlimited n = false → (s.record n).used + c.charge + (s.acct n).reserved ≤ (s.record n).quota) :
    Plain s (s.chargeAccount n c) := by
  unfold State.chargeAccount
  extract_lets u
  have hu : Plain s u := Plain.refl.readAccount
  refine .ite (fun _ => hu) fun _ => hu.putRecord fun _ hn h0 hl => ?_
  have hrec : u.record n = s.record n := State.readAccount_record_other h0
  have hle := hq hn (State.unlimited_false.mpr ⟨h0, by rw [← hrec]; exact hl⟩)
  have hused : ((u.record n).charge c).used ≤ (s.record n).used + c.charge := by
    rw [hrec]
    exact sat32_le _ _
  rw [hu.reserved n hn]
  show ((u.record n).charge c).used + _ ≤ (u.record n).quota
  rw [hrec] at hused ⊢
  omega

/-- What follows the payment of a hold: activity, and the free reservation of a job that is ENDING (R35). -/
theorem State.settleHold_eq {j : Handle} {i : Nat} {p : CipherPath} {c : AccountCharge} (hj : s.jobOf j = some i) (d : Bool) :
    s.settleHold j p d c =
      (let v := (((s.holdPaid i p d c.charge).chargeAccount (s.job i).account c).touchJob j).touchHold j
       if (v.job i).state = .ending then v.releaseFree i else v) := by
  unfold State.settleHold
  rw [hj]
  rfl

/-! ### The laws of units in the middle of a command -/

/-- R8, R25 and the links of the paths. -/
structure Units (D : Debt) (s : State) : Prop where
  tally : Tally D s
  quota : s.quotaKept
  print : PrintLink D.print s
  scan : ScanLink D.scan s

theorem Units.plain (h : Units D s) (hp : Plain s t) : Units D t :=
  ⟨h.tally.plain hp, hp.quota h.quota, h.print.kin hp.printKin, h.scan.kin hp.scanKin⟩

/-- R33 step 2. -/
theorem Units.releaseFree (h : Units D s) {i : Nat} (hD : D.ending = none) (hi : (s.job i).state ≠ .free) : Units D (s.releaseFree i) := by
  have hjob : ∀ m, (s.releaseFree i).job m = if i = m then { s.job i with free := 0 } else s.job m := fun m => by
    rw [State.releaseFree, State.putJob_job]
    simp only [State.job_lt hi, and_true]
    rfl
  refine ⟨h.tally.releaseFree hi hD, State.quotaKept.subReserved h.quota _ _, h.print.kin { jobs := fun m => ?_ }, h.scan.kin { jobs := fun m => ?_ }⟩
  · rw [hjob]
    split
    · rename_i c
      rw [← c]
      exact ⟨rfl, rfl, fun _ => ⟨rfl, id⟩⟩
    · exact ⟨rfl, rfl, fun _ => ⟨rfl, id⟩⟩
  · rw [hjob]
    split
    · rename_i c
      rw [← c]
      exact ⟨rfl, rfl, fun _ => ⟨rfl, id⟩⟩
    · exact ⟨rfl, rfl, fun _ => ⟨rfl, id⟩⟩

/-- A hold is paid, and what follows. -/
theorem Units.settled {j : Handle} {i : Nat} {p : CipherPath} {c : AccountCharge} (hpaid : Units E (s.holdPaid i p d c.charge))
    (hE : E.ending = none) (hj : s.jobOf j = some i) (hq : s.quotaKept) (hc : c.charge ≤ (s.job i).holdOf p) (ht : Tally D s) :
    Units E (s.settleHold j p d c) := by
  obtain ⟨-, h32, hfree, -⟩ := State.jobOf_idx hj
  have hcharge : Plain (s.holdPaid i p d c.charge) ((s.holdPaid i p d c.charge).chargeAccount (s.job i).account c) := by
    refine Plain.chargeAccount fun hn hu => ?_
    have hold := hq.1 _ hn hu
    have hcover := ht.covers hfree hn
    have hhold : (s.job i).holdOf p ≤ (s.job i).free + (s.job i).printHold + (s.job i).scanHold := by
      cases p
      · show (s.job i).printHold ≤ _
        omega
      · show (s.job i).scanHold ≤ _
        omega
    show (s.record _).used + c.charge + ((s.subReserved _ _).acct _).reserved ≤ (s.record _).quota
    rw [State.subReserved, State.reserved_putAcct, if_pos ⟨rfl, hn⟩]
    dsimp only []
    omega
  rw [State.settleHold_eq hj]
  extract_lets v
  have hplain : Plain (s.holdPaid i p d c.charge) v := hcharge.touchJob.touchHold
  have hv : Units E v := hpaid.plain hplain
  split
  · rename_i he
    exact hv.releaseFree hE (by rw [he]; nofun)
  · exact hv

theorem State.holdPaid_job {i c : Nat} {p : CipherPath} (hi : i < 32) (m : Nat) :
    (s.holdPaid i p d c).job m = if i = m then (s.job i).settled p c d else s.job m := by
  rw [State.holdPaid, State.putJob_job]
  simp only [hi, and_true]
  rfl

/-- R29: the impression in flight is settled. -/
theorem Units.settlePrint (h : Units D s) {a : PrintArgs} {cap : PrintCapture} {c : AccountCharge}
    (hD : D.print = false ∧ D.ending = none) (hf : s.print.state.inFlight) (ha : s.print.args = some a) (hc : s.print.capture = some cap)
    (hle : c.charge ≤ cap.hold a.colour) : Units { D with print := true } (s.settleHold a.job .print d c) := by
  obtain ⟨a', cap', i, ha', hc', hj, hfl, hh⟩ := h.print.flight hf hD.1
  rw [ha] at ha'
  rw [hc] at hc'
  cases ha'
  cases hc'
  obtain ⟨-, h32, hfree, -⟩ := State.jobOf_idx hj
  have hhold : c.charge ≤ (s.job i).holdOf .print := by
    show c.charge ≤ (s.job i).printHold
    rw [hh]
    exact hle
  have hpaid : Units { D with print := true } (s.holdPaid i .print d c.charge) := by
    refine ⟨h.tally.holdPaid hfree hhold hD.2, State.quotaKept.subReserved h.quota _ _,
      ⟨h.print.begun, fun _ e => (by cases e), fun m hm => ?_⟩, h.scan.kin { jobs := fun m => ?_ }⟩
    · rw [State.holdPaid_job h32] at hm
      split at hm
      · cases hm
      · rename_i hne
        obtain ⟨-, -, a', ha', hj'⟩ := h.print.owner m hm
        rw [ha] at ha'
        cases ha'
        rw [hj] at hj'
        exact absurd (Option.some.inj hj') hne
    · rw [State.holdPaid_job h32]
      split
      · rename_i e
        rw [← e]
        exact ⟨rfl, rfl, fun _ => ⟨rfl, id⟩⟩
      · exact ⟨rfl, rfl, fun _ => ⟨rfl, id⟩⟩
  exact hpaid.settled hD.2 hj h.quota hhold h.tally

/-- R29: the page in flight is settled. -/
theorem Units.settleScan (h : Units D s) {a : ScanArgs} {c : AccountCharge} (hD : D.scan = false ∧ D.ending = none)
    (hf : s.scan.state = .scanning) (ha : s.scan.args = some a) (hle : c.charge ≤ s.scan.capture.getD 0) :
    Units { D with scan := true } (s.settleHold a.job .scan d c) := by
  obtain ⟨a', r, i, ha', hc', hj, hfl, hh⟩ := h.scan.flight hf hD.1
  rw [ha] at ha'
  cases ha'
  obtain ⟨-, h32, hfree, -⟩ := State.jobOf_idx hj
  have hhold : c.charge ≤ (s.job i).holdOf .scan := by
    show c.charge ≤ (s.job i).scanHold
    rw [hh]
    rwa [hc'] at hle
  have hpaid : Units { D with scan := true } (s.holdPaid i .scan d c.charge) := by
    refine ⟨h.tally.holdPaid hfree hhold hD.2, State.quotaKept.subReserved h.quota _ _, h.print.kin { jobs := fun m => ?_ },
      ⟨h.scan.begun, h.scan.page, fun _ e => (by cases e), fun m hm => ?_, h.scan.ciphering, h.scan.waiting, h.scan.rest⟩⟩
    · rw [State.holdPaid_job h32]
      split
      · rename_i e
        rw [← e]
        exact ⟨rfl, rfl, fun _ => ⟨rfl, id⟩⟩
      · exact ⟨rfl, rfl, fun _ => ⟨rfl, id⟩⟩
    · rw [State.holdPaid_job h32] at hm
      split at hm
      · cases hm
      · rename_i hne
        obtain ⟨-, -, a', ha', hj'⟩ := h.scan.owner m hm
        rw [ha] at ha'
        cases ha'
        rw [hj] at hj'
        exact absurd (Option.some.inj hj') hne
  exact hpaid.settled hD.2 hj h.quota hhold h.tally

end Sys2Proof.Machine
end

