-- ==== Sys2Proof/Proofs/UnitOps.lean ====
section
/-! Every operation keeps the laws of units: O22. -/

namespace Sys2Proof.Machine

variable {x y : Debt × State} {D E : Debt} {s t u v : State} {d : Bool}

/-! ### Ops that leave jobs and accounts alone -/

/-- Jobs, accounts and stored areas stay as they are. -/
structure Booked (s t : State) : Prop where
  jobs : t.jobs = s.jobs := by rfl
  accounts : t.accounts = s.accounts := by rfl
  stored : t.stored = s.stored := by rfl
  shadow : t.shadow = s.shadow := by rfl
  writes : t.afterWrites = s.afterWrites := by rfl

theorem Booked.acct (h : Booked s t) (n : Nat) : t.acct n = s.acct n := by
  show entryAt t.accounts n _ = _
  rw [h.accounts]
  rfl

theorem Units.booked (h : Units D s) (hb : Booked s t) (hE : E.ending = D.ending) (hp : PrintLink E.print t) (hs : ScanLink E.scan t) :
    Units E t := by
  refine ⟨h.tally.same hb.jobs hb.accounts hE, h.quota.reserved hb.stored hb.shadow hb.writes fun n hn hu => ?_, hp, hs⟩
  rw [hb.acct]
  exact h.quota.1 n hn hu

theorem Booked.close (n : Fin 4) (code : ReturnCode) (w13 w14 : Nat) (a b : Bool) : Booked s (s.close n code w13 w14 a b) := by
  rw [State.close_frame]
  exact {}

theorem printKin_of_jobs (h : Booked s t) (hs : (t.lane 2).service = (s.lane 2).service := by rfl) (hp : t.print = s.print := by rfl) : PrintKin s t where
  service := hs
  idle := by rw [hp]
  flight := by rw [hp]
  args := by rw [hp]
  captured := by rw [hp]
  jobs i := by
    rw [State.job_congr h.jobs]
    exact ⟨rfl, rfl, fun _ => ⟨rfl, id⟩⟩

theorem scanKin_of_jobs (h : Booked s t) (hs : (t.lane 1).service = (s.lane 1).service := by rfl) (hp : t.scan = s.scan := by rfl)
    (hc : t.core = s.core := by rfl) : ScanKin s t where
  service := hs
  state := by rw [hp]
  work := by rw [hp]
  args := by rw [hp]
  captured := by rw [hp]
  rest _ hb := by
    obtain ⟨hfree, hw, hband⟩ := hb
    refine ⟨fun i hi => ?_, by rw [hc]; exact hw, by rw [hc]; exact hband⟩
    show (entryAt t.scan.internal i _).cond = _
    rw [hp]
    exact hfree i hi
  jobs i := by
    rw [State.job_congr h.jobs]
    exact ⟨rfl, rfl, fun _ => ⟨rfl, id⟩⟩

/-- The core of the scan path's bands and its buffers change while it is at work. -/
theorem scanKin_busy (hbusy : s.scanBusy) (h : Booked s t) (hl : t.lanes = s.lanes := by rfl) (h1 : t.scan.state = s.scan.state := by rfl)
    (h2 : t.scan.work = s.scan.work := by rfl) (h3 : t.scan.args = s.scan.args := by rfl) (h4 : t.scan.capture = s.scan.capture := by rfl) :
    ScanKin s t where
  service := by rw [State.lane, hl]; rfl
  state := h1
  work := h2
  args := h3
  captured := h4
  rest hr := by
    rcases hbusy with e | e <;> rw [e] at hr <;> rcases hr with hr | hr <;> cases hr
  jobs i := by
    rw [State.job_congr h.jobs]
    exact ⟨rfl, rfl, fun _ => ⟨rfl, id⟩⟩

/-- Where the scan path is at rest it is bare. -/
theorem ScanLink.bare_or_busy (h : ScanLink d s) : s.scanBare ∨ s.scanBusy := by
  by_cases hb : s.scanBusy
  · exact .inr hb
  · refine .inl (h.rest ?_)
    unfold State.scanBusy at hb
    cases he : s.scan.state <;> simp_all

theorem ScanLink.busy_of_buffer (h : ScanLink d s) {i : Nat} (hi : (s.buffer i).cond ≠ .free) : s.scanBusy := by
  refine h.bare_or_busy.resolve_left fun hb => ?_
  by_cases h2 : i < 2
  · exact hi (hb.1 i h2)
  · refine hi ?_
    rw [State.buffer, entryAt_beyond _ _ _ (by omega)]
    rfl

/-- No impression is in flight, so no job has one. -/
theorem PrintLink.none (h : PrintLink d s) (hn : ¬s.print.state.inFlight) (i : Nat) : (s.job i).printFlight = false := by
  by_contra hf
  exact hn (h.owner i (by simpa using hf)).2.1

theorem ScanLink.none (h : ScanLink d s) (hn : s.scan.state ≠ .scanning) (i : Nat) : (s.job i).scanFlight = false := by
  by_contra hf
  exact hn (h.owner i (by simpa using hf)).2.1

/-- The print path changes, with nothing in flight. -/
theorem printLink_rests {p : PrintPath} (hno : ∀ i, (s.job i).printFlight = false) (hp : ¬p.state.inFlight)
    (hb : p.state ≠ .idle → s.begun 2) (d : Bool) : PrintLink d { s with print := p } where
  begun := hb
  flight hf := absurd hf hp
  owner i hi := by
    have hi' : (s.job i).printFlight = true := hi
    rw [hno i] at hi'
    cases hi'

/-- The scan path changes, without a page in flight. -/
theorem scanLink_rests {p : ScanPath} (hno : ∀ i, (s.job i).scanFlight = false) (hp : p.state ≠ .scanning)
    (hb : p.state ≠ .idle → s.begun 1) (hc : p.state = .ciphering → p.work ≠ .page) (hw : p.state = .waiting → p.work = .page)
    (hr : p.state = .idle ∨ p.state = .waiting → ({ s with scan := p } : State).scanBare) (d : Bool) : ScanLink d { s with scan := p } where
  begun := hb
  page hs := absurd hs hp
  flight hs := absurd hs hp
  owner i hi := by
    have hi' : (s.job i).scanFlight = true := hi
    rw [hno i] at hi'
    cases hi'
  ciphering := hc
  waiting := hw
  rest := hr

theorem erasedBuffers_free (i : Nat) (hi : i < 2) : (entryAt erasedBuffers i .erased).cond = .free := by
  simp [erasedBuffers, entryAt, hi, Buffer.erased]

theorem scanBare_idle (s : State) : s.scanIdle.scanBare := by
  refine ⟨fun i hi => ?_, rfl, fun b hb hp => ?_⟩
  · show (entryAt ScanPath.reset.internal i _).cond = _
    simp [ScanPath.reset, entryAt, hi, Buffer.erased]
  · have hb' : s.core.orphaned .scan = some b := hb
    unfold Core.orphaned at hb'
    split at hb'
    · cases hb'
    · split at hb'
      · cases hb'
        rfl
      · rename_i hne
        cases hb'
        exact absurd hp hne

/-! ### The operations in turn -/

theorem Units.lane (h : Units D s) {n : Fin 4} {l : Lane} (h1 : n = 1 → s.scan.state = .idle) (h2 : n = 2 → s.print.state = .idle) :
    Units D (s.putLane n l) := by
  have hb : Booked s (s.putLane n l) := {}
  refine h.booked hb rfl ?_ ?_
  · by_cases hn : n = 2
    · refine ⟨fun hi => absurd (h2 hn) hi, h.print.flight, h.print.owner⟩
    · exact h.print.kin (printKin_of_jobs hb (by rw [State.putLane_lane_other _ _ _ _ hn]))
  · by_cases hn : n = 1
    · exact ⟨fun hi => absurd (h1 hn) hi, h.scan.page, h.scan.flight, h.scan.owner, h.scan.ciphering, h.scan.waiting, h.scan.rest⟩
    · exact h.scan.kin (scanKin_of_jobs hb (by rw [State.putLane_lane_other _ _ _ _ hn]))

theorem Units.printRests (h : Units D s) {p : PrintPath} (hn : ¬s.print.state.inFlight) (hp : ¬p.state.inFlight)
    (hb : p.state ≠ .idle → s.begun 2) : Units D { s with print := p } :=
  h.booked {} rfl (printLink_rests (h.print.none hn) hp hb _) (h.scan.kin (scanKin_of_jobs {}))

theorem Units.closePrint (h : Units D s) {p : PrintPath} {code : ReturnCode} {w13 w14 : Nat} {a b : Bool}
    (hn : ¬s.print.state.inFlight ∨ D.print = true) (hp : p.state = .idle) :
    Units { D with print := false } { s.close 2 code w13 w14 a b with print := p } := by
  have hb : Booked s (s.close 2 code w13 w14 a b) := .close ..
  have hno : ∀ i, (s.job i).printFlight = false := fun i => by
    rcases hn with hn | hn
    · exact h.print.none hn i
    · by_contra hf
      have := (h.print.owner i (by simpa using hf)).1
      rw [hn] at this
      cases this
  have hscan : (s.close 2 code w13 w14 a b).scan = s.scan := by rw [State.close_frame]
  have hcore : (s.close 2 code w13 w14 a b).core = s.core := by rw [State.close_frame]
  have hlane := s.close_lane_other (lane := 2) (n := 1) (by decide) code w13 w14 a b
  generalize s.close 2 code w13 w14 a b = u at hb hscan hcore hlane ⊢
  refine h.booked { hb with } rfl ?_ (h.scan.kin (scanKin_of_jobs { hb with } (by rw [← hlane]; rfl) hscan hcore))
  refine printLink_rests (fun i => ?_) (by rw [hp]; simp [PrintState.inFlight]) (fun e => absurd hp e) false
  rw [State.job_congr hb.jobs]
  exact hno i

theorem Units.closeScan (h : Units D s) {code : ReturnCode} {w13 w14 : Nat} {a b o : Bool}
    (hn : s.scan.state ≠ .scanning ∨ D.scan = true) : Units { D with scan := o } (s.close 1 code w13 w14 a b).scanIdle := by
  have hb : Booked s (s.close 1 code w13 w14 a b) := .close ..
  have hno : ∀ i, (s.job i).scanFlight = false := fun i => by
    rcases hn with hn | hn
    · exact h.scan.none hn i
    · by_contra hf
      have := (h.scan.owner i (by simpa using hf)).1
      rw [hn] at this
      cases this
  have hprint : (s.close 1 code w13 w14 a b).print = s.print := by rw [State.close_frame]
  have hlane := s.close_lane_other (lane := 1) (n := 2) (by decide) code w13 w14 a b
  generalize s.close 1 code w13 w14 a b = u at hb hprint hlane ⊢
  have hbi : Booked s u.scanIdle := { hb with }
  refine h.booked hbi rfl (h.print.kin (printKin_of_jobs hbi (by rw [← hlane]; rfl) hprint)) ?_
  have hjob : ∀ i, (u.scanIdle.job i).scanFlight = false := fun i => by
    rw [State.job_congr hbi.jobs]
    exact hno i
  have hidle : u.scanIdle.scan.state = .idle := rfl
  refine ⟨fun e => absurd hidle e, fun e => ?_, fun e => ?_, fun i hi => ?_, fun e => ?_, fun e => ?_, fun _ => scanBare_idle u⟩
  · rw [hidle] at e; cases e
  · rw [hidle] at e; cases e
  · rw [hjob i] at hi; cases hi
  · rw [hidle] at e; cases e
  · rw [hidle] at e; cases e

/-- The buffers and the core change while the scan path is at work. -/
theorem Units.busy (h : Units D s) (hb : s.scanBusy) (hk : Booked s t) (hl : t.lanes = s.lanes := by rfl) (hp : t.print = s.print := by rfl)
    (h1 : t.scan.state = s.scan.state := by rfl) (h2 : t.scan.work = s.scan.work := by rfl) (h3 : t.scan.args = s.scan.args := by rfl)
    (h4 : t.scan.capture = s.scan.capture := by rfl) : Units D t :=
  h.booked hk rfl (h.print.kin (printKin_of_jobs hk (by rw [State.lane, hl]; rfl) hp)) (h.scan.kin (scanKin_busy hb hk hl h1 h2 h3 h4))

/-- The core changes and the scan path's bands at it do not grow in number. -/
theorem Units.core (h : Units D s) {c : Core} (hw : s.core.scanWaiting = none → c.scanWaiting = none)
    (hb : ∀ b, c.band = some b → b.path = .scan → s.core.band = some b) : Units D { s with core := c } := by
  have hk : Booked s { s with core := c } := {}
  refine h.booked hk rfl (h.print.kin (printKin_of_jobs hk)) (h.scan.kin { rest := fun _ hr => ?_ })
  exact ⟨hr.1, hw hr.2.1, fun b hbt hp => hr.2.2 b (hb b hbt hp) hp⟩

/-- Units change hands with job entries that keep their flights. -/
theorem Units.jobs (h : Units D s) (ht : Tally E t) (hq : t.quotaKept) (hE : E.print = D.print ∧ E.scan = D.scan)
    (hl : t.lanes = s.lanes) (hp : t.print = s.print) (hs : t.scan = s.scan) (hw : s.core.scanWaiting = none → t.core.scanWaiting = none)
    (hb : ∀ b, t.core.band = some b → s.core.band = some b)
    (hj : ∀ i, (t.job i).printFlight = (s.job i).printFlight ∧ (t.job i).printHold = (s.job i).printHold ∧
      (t.job i).scanFlight = (s.job i).scanFlight ∧ (t.job i).scanHold = (s.job i).scanHold ∧
      ((s.job i).printFlight = true ∨ (s.job i).scanFlight = true → (t.job i).gen = (s.job i).gen ∧
        ((s.job i).state ≠ .free → (t.job i).state ≠ .free))) : Units E t := by
  refine ⟨ht, hq, ?_, ?_⟩
  · rw [hE.1]
    refine h.print.kin ⟨by rw [State.lane, hl]; rfl, by rw [hp], by rw [hp], by rw [hp], by rw [hp], fun i => ?_⟩
    obtain ⟨h1, h2, -, -, h5⟩ := hj i
    exact ⟨h1, h2, fun e => h5 (.inl e)⟩
  · rw [hE.2]
    refine h.scan.kin ⟨by rw [State.lane, hl]; rfl, by rw [hs], by rw [hs], by rw [hs], by rw [hs], fun _ hr => ?_, fun i => ?_⟩
    · refine ⟨fun i hi => ?_, hw hr.2.1, fun b hbt hpath => hr.2.2 b (hb b hbt) hpath⟩
      show (entryAt t.scan.internal i _).cond = _
      rw [hs]
      exact hr.1 i hi
    · obtain ⟨-, -, h3, h4, h5⟩ := hj i
      exact ⟨h3, h4, fun e => h5 (.inr e)⟩

theorem Units.close0 (h : Units D s) {code : ReturnCode} {w13 w14 : Nat} {a b : Bool} : Units D (s.close 0 code w13 w14 a b) :=
  h.plain Plain.refl.close0

theorem Units.ending (h : Units D s) (hE : E.print = D.print ∧ E.scan = D.scan) (ht : Tally E s) : Units E s :=
  ⟨ht, h.quota, by rw [hE.1]; exact h.print, by rw [hE.2]; exact h.scan⟩

/-- A slot is destroyed or joins a job: units and flights stay. -/
theorem Units.moved (h : Units D s) (hm : SlotsMoved s t) (hE : E.print = D.print ∧ E.scan = D.scan)
    (ht : Tally E t) (hb : ∀ b, t.core.band = some b → s.core.band = some b) : Units E t := by
  have hq : t.quotaKept := by
    rw [hm.frame]
    exact h.quota
  obtain ⟨band, hcore⟩ := hm.core
  refine h.jobs ht hq hE (by rw [hm.frame]) (by rw [hm.frame]) (by rw [hm.frame]) (fun hw => by rw [hcore]; exact hw) hb fun i => ?_
  rw [hm.jobs i]
  exact ⟨rfl, rfl, rfl, rfl, fun _ => ⟨rfl, id⟩⟩

theorem State.stopCore_band (k : SlotHandle) (b : CoreBand) (h : (s.stopCore k).core.band = some b) : s.core.band = some b := by
  unfold State.stopCore at h
  split at h
  · exact h
  · split at h
    · cases h
    · exact h

theorem State.wipeSlot_band (i : Nat) (b : CoreBand) (h : (s.wipeSlot i).core.band = some b) : s.core.band = some b := by
  have := State.stopCore_band _ _ h
  cases hj : (s.slot i).job <;> rw [hj] at this <;> exact this

theorem State.putSlot_moved (s : State) (i : Nat) (k : KeySlot) : SlotsMoved s (s.putSlot i k) := ⟨rfl, fun _ => rfl, s.core.band, rfl⟩

theorem State.appendSlot_moved (s : State) (i : Nat) (k : SlotHandle) : SlotsMoved s (s.appendSlot i k) := by
  refine ⟨rfl, fun m => ?_, s.core.band, rfl⟩
  simp only [State.appendSlot, State.putJob_job]
  split
  · rename_i c
    rw [← c.1]
  · rfl

theorem Units.slotLeaves (h : Units D s) {k : SlotHandle} (hE : E.print = D.print ∧ E.scan = D.scan)
    (hD : E.ending = D.ending ∨ ∃ i l l', D.ending = some (i, l) ∧ E.ending = some (i, l')) : Units E (s.slotLeaves k) := by
  have ht : Tally E (s.slotLeaves k) := h.tally.slotLeaves k hD
  unfold State.slotLeaves at ht ⊢
  split at ht
  · rename_i hc
    rw [if_pos hc]
    exact h.moved (s.wipeSlot_moved _) hE ht fun b => State.wipeSlot_band _ b
  · rename_i hc
    rw [if_neg hc]
    exact h.moved (s.putSlot_moved _ _) hE ht fun _ e => e

theorem Units.jobGone (h : Units D s) {i : Nat} (hD : D.ending = some (i, [])) : Units { D with ending := none } (s.jobGone i) := by
  obtain ⟨-, hp, hs⟩ := h.tally.ended i [] hD
  refine h.jobs (h.tally.jobGone hD rfl) h.quota ⟨rfl, rfl⟩ rfl rfl rfl id (fun _ => id) fun m => ?_
  rw [State.jobGone, State.freeJob, State.putJob_job]
  split
  · rename_i c
    rw [← c.1, hp, hs, (h.tally.flights i).1 hp, (h.tally.flights i).2 hs]
    exact ⟨rfl, rfl, rfl, rfl, fun e => by rcases e with e | e <;> cases e⟩
  · rename_i c
    rw [State.putJob_job]
    split
    · rename_i c'
      exact absurd c' c
    · exact ⟨rfl, rfl, rfl, rfl, fun _ => ⟨rfl, id⟩⟩

theorem Units.grantTo (h : Units D s) {i g : Nat} (hD : D.ending = none) (hi : (s.job i).state ≠ .free)
    (hg : ∀ n, s.available (s.job i).account = some n → g ≤ n) : Units D (s.grantTo i g) := by
  have hq : (s.grantTo i g).quotaKept := State.quotaKept.addReserved (s := s.putJob i _) h.quota hg
  refine h.jobs (h.tally.grantTo hi hD) hq ⟨rfl, rfl⟩ rfl rfl rfl id (fun _ => id) fun m => ?_
  show ((s.putJob i _).job m).printFlight = _ ∧ ((s.putJob i _).job m).printHold = _ ∧ ((s.putJob i _).job m).scanFlight = _ ∧
    ((s.putJob i _).job m).scanHold = _ ∧ (_ → ((s.putJob i _).job m).gen = _ ∧ (_ → ((s.putJob i _).job m).state ≠ _))
  rw [State.putJob_job]
  split
  · rename_i c
    rw [← c.1]
    exact ⟨rfl, rfl, rfl, rfl, fun _ => ⟨rfl, fun _ => nofun⟩⟩
  · exact ⟨rfl, rfl, rfl, rfl, fun _ => ⟨rfl, id⟩⟩

theorem grantOf_le_available {r : Nat} {o : Option Nat} (n : Nat) (h : o = some n) : grantOf r o ≤ n := grantOf_le h

theorem Units.openJobEntry (h : Units D s) {i : Nat} {a : OpenJobArgs} (hD : D.ending = none) (hi : s.freeEntry = some i) :
    Units D (s.openJobEntry a i) := by
  obtain ⟨h32, hfree⟩ := lowest_some hi (.freed 0)
  have hfree : (s.job i).state = .free := of_decide_eq_true hfree
  have hpf : (s.job i).printFlight = false := by
    by_contra hf
    obtain ⟨-, -, b, -, hj⟩ := h.print.owner i (by simpa using hf)
    exact (State.jobOf_idx hj).2.2.1 hfree
  have hsf : (s.job i).scanFlight = false := by
    by_contra hf
    obtain ⟨-, -, b, -, hj⟩ := h.scan.owner i (by simpa using hf)
    exact (State.jobOf_idx hj).2.2.1 hfree
  have htally : Tally D (s.openedJob a i) := h.tally.openedJob h32 hfree a hD
  have hq : (s.openedJob a i).quotaKept := State.quotaKept.addReserved (s := s.putJob i _) h.quota grantOf_le_available
  refine Units.close0 (s := s.openedJob a i) (h.jobs htally hq ⟨rfl, rfl⟩ rfl rfl rfl id (fun _ => id) fun m => ?_)
  show ((s.putJob i _).job m).printFlight = _ ∧ ((s.putJob i _).job m).printHold = _ ∧ ((s.putJob i _).job m).scanFlight = _ ∧
    ((s.putJob i _).job m).scanHold = _ ∧ (_ → ((s.putJob i _).job m).gen = _ ∧ (_ → ((s.putJob i _).job m).state ≠ _))
  rw [State.putJob_job]
  split
  · rename_i c
    rw [← c.1, hpf, hsf, (h.tally.flights i).1 hpf, (h.tally.flights i).2 hsf]
    exact ⟨rfl, rfl, rfl, rfl, fun e => by rcases e with e | e <;> cases e⟩
  · exact ⟨rfl, rfl, rfl, rfl, fun _ => ⟨rfl, id⟩⟩

/-- R7: the record of an account without a job is vacated. -/
theorem Units.vacate (h : Units D s) {n : Nat} (hn : ∀ i, (s.job i).state ≠ .free → (s.job i).account ≠ n) :
    Units D (s.writeRecord n .vacant) := by
  have h0 : n < 512 → (s.acct n).reserved = 0 := fun hlt => by
    rw [h.tally.sums n hlt, State.unitsOf, List.sum_eq_zero]
    intro v hv
    obtain ⟨j, hj, rfl⟩ := List.mem_map.mp hv
    obtain ⟨i, hi, rfl⟩ := List.getElem_of_mem hj
    have hi' : i < 32 := by simpa using hi
    rw [← State.job_getElem hi']
    exact if_neg fun c => hn i c.1 c.2
  have hp : Plain s (s.writeRecord n .vacant) := Plain.refl.putRecord fun _ hlt _ _ => by
    show 0 + (s.acct n).reserved ≤ 0
    rw [h0 hlt]
  exact h.plain hp

/-- A slot begins to live, and joins its job. -/
theorem Units.slotTaken (h : Units D s) (i : Nat) (k : KeySlot) (d : Nat) (m : Nat) (l : SlotHandle) {code : ReturnCode} {w13 w14 : Nat} :
    Units D ((({ s.putSlot i k with draws := d } : State).appendSlot m l).close 0 code w13 w14) := by
  have hput : Units D ({ s.putSlot i k with draws := d } : State) :=
    h.booked {} rfl (h.print.kin (printKin_of_jobs {})) (h.scan.kin (scanKin_of_jobs {}))
  exact Units.close0 (hput.moved (State.appendSlot_moved _ _ _) ⟨rfl, rfl⟩ (hput.tally.appendSlot _ _) fun _ e => e)

theorem Units.openSlotEntry (h : Units D s) (i : Nat) (j : Handle) (uses : BitVec 4) (keep : Bool) :
    Units D (s.openSlotEntry i j uses keep) := h.slotTaken _ _ _ _ _

theorem Units.attachSlotEntry (h : Units D s) (k : SlotHandle) (j : Handle) : Units D (s.attachSlotEntry k j) :=
  h.slotTaken k.idx _ s.draws _ _

end Sys2Proof.Machine
end

