-- ==== Sys2Proof/Proofs/UnitKeep.lean ====
section
/-! Every operation keeps the laws of units (R8, R25) and the links of the paths (R26, R29). -/

namespace Sys2Proof.Machine

variable {x y : Debt × State} {D E : Debt} {s t u v b : State}

/-! ### Admissions -/

theorem State.requestHold_topUp {i n : Nat} {p : CipherPath} (h : s.requestHold i p n = some u) :
    s.covers (s.job i).account (s.job i).free n ∧ u = s.topUp i n fun j => j.withHold p n := by
  by_cases hc : s.covers (s.job i).account (s.job i).free n
  · rw [State.requestHold_some hc] at h
    exact ⟨hc, (Option.some.inj h).symm⟩
  · rw [State.requestHold_none hc] at h
    cases h

/-- R26, R65: an impression is admitted. -/
theorem Units.printHold (h : Units D s) {a : PrintArgs} {cap : PrintCapture} {i : Nat} {p : PrintPath} (hD : D.print = false ∧ D.ending = none)
    (hn : ¬s.print.state.inFlight) (hb : s.print.state = .idle → s.begun 2) (hj : s.jobOf a.job = some i)
    (hu : s.requestHold i .print (cap.hold a.colour) = some u) (hv : Plain u v) (hp : p.state = .preparing) (hpa : p.args = some a)
    (hpc : p.capture = some cap) : Units D { v with print := p } := by
  obtain ⟨hc, rfl⟩ := State.requestHold_topUp hu
  obtain ⟨-, h32, hfree, -⟩ := State.jobOf_idx hj
  have hno := h.print.none hn
  have hbegun : s.begun 2 := by
    by_cases hi : s.print.state = .idle
    · exact hb hi
    · exact h.print.begun hi
  have htally : Tally D v := (h.tally.hold (p := .print) hfree ((h.tally.flights i).1 (hno i)) hD.2).plain hv
  refine ⟨htally.same rfl rfl rfl, hv.quota (State.quotaKept.hold h.quota hc), ?_, ?_⟩
  · rw [hD.1]
    exact printLink_hold hno hbegun hj hv hp hpa hpc rfl
  · exact h.scan.kin (((scanKin_hold h32).trans hv.scanKin).trans (scanKin_of_jobs {}))

/-- R26, R88: a page is admitted. -/
theorem Units.scanHold (h : Units D s) {a : ScanArgs} {i n : Nat} {p : ScanPath} (hD : D.scan = false ∧ D.ending = none)
    (hn : s.scan.state = .idle ∨ s.scan.state = .waiting) (hb : s.scan.state = .idle → s.begun 1)
    (hpage : s.scan.state = .idle → s.scan.work = .page) (hj : s.jobOf a.job = some i)
    (hu : s.requestHold i .scan n = some u) (hv : Plain u v) (hp : p.state = .scanning) (hw : p.work = s.scan.work) (hpa : p.args = some a)
    (hpc : p.capture = some n) : Units D { v with scan := p } := by
  obtain ⟨hc, rfl⟩ := State.requestHold_topUp hu
  obtain ⟨-, h32, hfree, -⟩ := State.jobOf_idx hj
  have hscanning : s.scan.state ≠ .scanning := by rcases hn with e | e <;> rw [e] <;> nofun
  have hno := h.scan.none hscanning
  have hbegun : s.begun 1 ∧ s.scan.work = .page := by
    rcases hn with e | e
    · exact ⟨hb e, hpage e⟩
    · exact ⟨h.scan.begun (by rw [e]; nofun), h.scan.waiting e⟩
  have htally : Tally D v := (h.tally.hold (p := .scan) hfree ((h.tally.flights i).2 (hno i)) hD.2).plain hv
  refine ⟨htally.same rfl rfl rfl, hv.quota (State.quotaKept.hold h.quota hc), ?_, ?_⟩
  · exact h.print.kin (((printKin_hold h32).trans hv.printKin).trans (printKin_of_jobs {}))
  · rw [hD.1]
    exact scanLink_hold hno hbegun.1 hj hv hp (hw.trans hbegun.2) hpa hpc

/-! ### The scan path at rest and at work -/

/-- The scan path changes, with no page in flight before or after. -/
theorem Units.scanRests (h : Units D s) {p : ScanPath} (hn : s.scan.state = .idle ∨ s.scan.state = .waiting) (hp : p.state ≠ .scanning)
    (hb : p.state ≠ .idle → s.begun 1) (hc : p.state = .ciphering → p.work ≠ .page) (hw : p.state = .waiting → p.work = .page)
    (hi : ∀ i < 2, (entryAt p.internal i .erased).cond = .free) : Units D { s with scan := p } := by
  have hno := h.scan.none (by rcases hn with e | e <;> rw [e] <;> nofun)
  exact h.booked {} rfl (h.print.kin (printKin_of_jobs {})) (scanLink_rests hno hp hb hc hw (fun _ => ⟨hi, (h.scan.rest hn).2⟩) _)

/-- A band moves on while the scan path is at work. -/
theorem Units.putBuffer (h : Units D s) (hb : s.scanBusy) {i : Nat} {x : Buffer} : Units D (s.putBuffer i x) := h.busy hb {}

theorem State.buffer_writing {i : Nat} (h : (s.buffer i).isWriting = true) : (s.buffer i).cond ≠ .free := fun e => by
  simp [Buffer.isWriting, e] at h

theorem Units.startWrite (h : Units D s) : Units D s.startWrite := by
  unfold State.startWrite
  split
  · exact h
  · split
    · exact h
    · rename_i i hi
      have hc : (s.buffer i).cond = .ciphered := of_decide_eq_true (lowest_some hi .erased).2
      exact h.putBuffer (h.scan.busy_of_buffer (i := i) (by rw [hc]; nofun))

/-- A band of the scan path that is not orphaned is one of work under way. -/
theorem Units.busy_of_band (h : Units D s) {x : CoreBand} (hx : s.core.band = some x) (hp : x.path = .scan) (ho : x.orphan = false) :
    s.scanBusy := by
  refine h.scan.bare_or_busy.resolve_left fun hb => ?_
  rw [hb.2.2 x hx hp] at ho
  cases ho

/-! ### Every operation -/

theorem Op.units (h : Op True x y) (hx : Units x.1 x.2) : Units y.1 y.2 := by
  cases h with
  | plain h => exact hx.plain h
  | relax L h => exact hx.ending ⟨rfl, rfl⟩ ⟨hx.tally.sums, hx.tally.flights, hx.tally.ended⟩
  | lane n l h1 h2 => exact hx.lane (h1 trivial) (h2 trivial)
  | printTicket p h hp =>
    have hi := h trivial
    exact hx.printRests (by rw [hi]; simp [PrintState.inFlight]) (by rw [hp, hi]; simp [PrintState.inFlight]) fun e => absurd (hp.trans hi) e
  | @printWaits D s p h hb hp =>
    refine hx.printRests (h trivial) (by rw [hp]; simp [PrintState.inFlight]) fun _ => ?_
    by_cases hi : s.print.state = .idle
    · exact hb trivial hi
    · exact hx.print.begun hi
  | printHold a cap i p hD h hb hj hu hv hp hpa hpc => exact hx.printHold ⟨hD.1, hD.2.1⟩ (h trivial) (hb trivial) hj hu hv hp hpa hpc
  | settlePrint a cap d c hD h ha hc hle => exact hx.settlePrint ⟨hD.1, hD.2.1⟩ h ha hc hle
  | closePrint p code w13 w14 e f h hp => exact hx.closePrint (h trivial) hp
  | scanTicket p h hp hw hf hi =>
    exact hx.scanRests (.inl (h trivial)) (by rw [hp]; nofun) (fun e => absurd hp e) (by rw [hp]; nofun) (by rw [hp]; nofun) (by rw [hi]; exact erasedBuffers_free)
  | @scanWaits D s h hb hw =>
    have hbegun : s.begun 1 ∧ s.scan.work = .page := by
      rcases h trivial with e | e
      · exact ⟨hb trivial e, hw trivial e⟩
      · exact ⟨hx.scan.begun (by rw [e]; nofun), hx.scan.waiting e⟩
    exact hx.scanRests (h trivial) nofun (fun _ => hbegun.1) nofun (fun _ => hbegun.2) (hx.scan.rest (h trivial)).1
  | scanHold a i n p hD h hb hpage hj hu hv hp hw hpa hpc =>
    exact hx.scanHold ⟨hD.1, hD.2.1⟩ (h trivial) (hb trivial) (hpage trivial) hj hu hv hp hw hpa hpc
  | settleScan a d c hD h hq ha hle => exact hx.settleScan ⟨hD.1, hD.2.1⟩ (h trivial) ha hle
  | closeScan code w13 w14 e f o ho h => exact hx.closeScan (h trivial)
  | fails code drain h => exact hx.busy h {}
  | beginCipher p h hb hp hw hf hi =>
    exact hx.scanRests (.inl (h trivial)) (by rw [hp]; nofun) (fun _ => hb trivial) (fun _ => hw) (by rw [hp]; nofun) (by rw [hi]; exact erasedBuffers_free)
  | fill i b hs => exact hx.putBuffer (hs trivial)
  | present i b a hD hs => exact hx.busy hs {}
  | sealed c a b n hD hc hp ho => exact hx.busy (hx.busy_of_band hc hp ho) {}
  | startWrite => exact hx.startWrite
  | rewrite i b hw => exact hx.putBuffer (hx.scan.busy_of_buffer (State.buffer_writing hw))
  | erase i hw => exact hx.putBuffer (hx.scan.busy_of_buffer (State.buffer_writing hw))
  | coreFree c hb hw =>
    refine hx.core (fun e => ?_) fun b hbt => by rw [hb] at hbt; cases hbt
    rcases hw with hw | hw
    · exact hw.trans e
    · exact hw
  | printCore c hw hb => exact hx.core (fun e => hw.trans e) fun b hbt hp => (hb b hp).mp hbt
  | pumpScan i hc hw =>
    have hbusy := hx.scan.bare_or_busy.resolve_left fun hb => by rw [hb.2.1] at hw; cases hw
    exact hx.busy hbusy {}
  | releaseFree i hD hi => exact hx.releaseFree hD hi
  | beginEnd i hD hi hf hp hs =>
    refine hx.ending ⟨rfl, rfl⟩ ⟨hx.tally.sums, hx.tally.flights, fun m l e => ?_⟩
    cases e
    exact ⟨hf, hp, hs⟩
  | endSlot i k rest hD => exact hx.slotLeaves ⟨rfl, rfl⟩ (.inr ⟨i, _, _, hD, rfl⟩)
  | endJob i hD => exact hx.jobGone hD
  | grant i n hD hi hg => exact hx.grantTo hD hi hg
  | openJob a i hD hi => exact hx.openJobEntry hD.1 hi
  | vacate n h => exact hx.vacate h
  | wipe i hD =>
    refine hx.moved (State.wipeSlot_moved _ _) ⟨rfl, rfl⟩ ?_ fun b => State.wipeSlot_band _ b
    exact hx.tally.owing (State.wipeSlot_owing _ _) (fun n _ => by rw [State.acct, (State.wipeSlot_moved _ _).frame]; rfl) (.inl rfl)
  | openSlot i j uses keep => exact hx.openSlotEntry _ _ _ _
  | attachSlot k j => exact hx.attachSlotEntry _ _

end Sys2Proof.Machine
end

