-- ==== Sys2Proof/Proofs/UnitSteps.lean ====
section
/-! Every step keeps the laws of units: O22. -/

namespace Sys2Proof.Machine

variable {c : Instr} {s t b : State}

theorem State.unitsLawful.units (h : s.unitsLawful) (ha : s.alive = true) : Units .clear s :=
  ⟨tally_of_balanced h.1 rfl, h.2.1, printLink_of_linked (h.2.2 ha).1, scanLink_of_linked (h.2.2 ha).2⟩

theorem Units.lawful (h : Units .clear s) : s.unitsLawful := ⟨h.tally.balanced, h.quota, fun _ => ⟨h.print.linked, h.scan.linked⟩⟩

/-- A part that is not alive has let go of its links. -/
theorem unitsLawful_dead (hb : s.balanced) (hq : s.quotaKept) (ha : s.alive = false) : s.unitsLawful :=
  ⟨hb, hq, fun e => by rw [ha] at e; cases e⟩

/-! ### The frame of a command -/

/-- The same accounts, in the units they count. -/
def Stored.sameUnits (x y : Stored) : Prop :=
  ∀ n, (entryAt y.accounts n .vacant).used = (entryAt x.accounts n .vacant).used ∧
    (entryAt y.accounts n .vacant).quota = (entryAt x.accounts n .vacant).quota ∧
    (entryAt y.accounts n .vacant).unlimited = (entryAt x.accounts n .vacant).unlimited

/-- A check value that no longer holds changes no record's units. -/
theorem Stored.decay_sameUnits (st : Stored) (d : Decay) : st.sameUnits (st.decay d) := by
  intro n
  cases d with
  | account m =>
    show (entryAt (putAt st.accounts m _) n _).used = _ ∧ (entryAt (putAt st.accounts m _) n _).quota = _ ∧
      (entryAt (putAt st.accounts m _) n _).unlimited = _
    rw [entryAt_putAt]
    split
    · rename_i e
      rw [← e.1]
      exact ⟨rfl, rfl, rfl⟩
    · exact ⟨rfl, rfl, rfl⟩
  | _ => exact ⟨rfl, rfl, rfl⟩

theorem Stored.decayed_sameUnits (l : List Decay) (st : Stored) : st.sameUnits (l.foldl Stored.decay st) := by
  induction l generalizing st with
  | nil => exact fun _ => ⟨rfl, rfl, rfl⟩
  | cons d rest ih =>
    intro n
    obtain ⟨h1, h2, h3⟩ := st.decay_sameUnits d n
    obtain ⟨h1', h2', h3'⟩ := ih (st.decay d) n
    exact ⟨h1'.trans h1, h2'.trans h2, h3'.trans h3⟩

theorem State.quotaKept.stored (h : s.quotaKept) : s.stored.quotaKept := fun _ hn h0 hu =>
  (Nat.le_add_right _ _).trans (h.record hn h0 hu)

theorem State.quotaKept.begin (h : s.quotaKept) (e : Env) : (s.begin e).quotaKept := by
  have hsame := Stored.decayed_sameUnits e.decayed s.stored
  refine ⟨fun n hn hu => ?_, fun n hn h0 hu => ?_, nofun⟩
  · obtain ⟨h0, hl⟩ := State.unlimited_false.mp hu
    obtain ⟨h1, h2, h3⟩ := hsame n
    have hle := h.record hn h0 (h3.symm.trans hl)
    show (entryAt (e.decayed.foldl Stored.decay s.stored).accounts n _).used + _ ≤ (entryAt (e.decayed.foldl Stored.decay s.stored).accounts n _).quota
    rw [h1, h2]
    exact hle
  · obtain ⟨h1, h2, h3⟩ := hsame n
    have hle := h.stored n hn h0 (h3.symm.trans hu)
    show (entryAt (e.decayed.foldl Stored.decay s.stored).accounts n _).used ≤ (entryAt (e.decayed.foldl Stored.decay s.stored).accounts n _).quota
    rw [h1, h2]
    exact hle

theorem State.unitsLawful.begin (h : s.unitsLawful) (e : Env) : (s.begin e).unitsLawful := ⟨h.1, h.2.1.begin e, h.2.2⟩

theorem unitsLawful_finish (h : s.unitsLawful) : s.finish.unitsLawful := h

/-! ### Resets and a loss of power -/

/-- Every job entry is FREE, and no account has units reserved. -/
theorem balanced_of_reset (hj : s.jobs = State.reset.jobs) (ha : s.accounts = State.reset.accounts) : s.balanced := by
  have hjob : ∀ i, s.job i = .freed 0 := fun i => by
    rw [State.job_congr hj]
    simp only [State.job, State.reset, entryAt, Vector.getElem?_replicate]
    split <;> rfl
  have hacct : ∀ n, (s.acct n).reserved = 0 := fun n => by
    rw [State.acct, ha]
    simp only [State.reset, entryAt, Vector.getElem?_replicate]
    split <;> rfl
  refine ⟨fun n _ => ?_, fun i => by rw [hjob]; exact ⟨fun _ => rfl, fun _ => rfl⟩⟩
  rw [hacct, List.sum_eq_zero]
  intro v hv
  obtain ⟨j, hj', rfl⟩ := List.mem_map.mp hv
  obtain ⟨i, hi, rfl⟩ := List.getElem_of_mem hj'
  have hi' : i < 32 := by simpa using hi
  rw [← State.job_getElem hi', hjob]
  exact if_neg fun c => c.1 rfl

/-- Stored areas within their quotas, with nothing reserved. -/
theorem quotaKept_of_reset (ha : s.accounts = State.reset.accounts) (hst : s.stored.quotaKept) (hsh : s.shadow.quotaKept)
    (haw : s.afterWrites = []) : s.quotaKept := by
  refine ⟨fun n hn hu => ?_, hsh, by rw [haw]; nofun⟩
  have hacct : (s.acct n).reserved = 0 := by
    rw [State.acct, ha]
    simp only [State.reset, entryAt, Vector.getElem?_replicate]
    split <;> rfl
  obtain ⟨h0, hl⟩ := State.unlimited_false.mp hu
  rw [hacct]
  exact hst n hn h0 hl

theorem printLink_reset (hj : s.jobs = State.reset.jobs) (hp : s.print.state = .idle) : PrintLink false s := by
  have hflight : ¬s.print.state.inFlight := by rw [hp]; simp [PrintState.inFlight]
  refine ⟨fun e => absurd hp e, fun e => absurd e hflight, fun i hi => ?_⟩
  rw [State.job_congr hj] at hi
  simp only [State.job, State.reset, entryAt, Vector.getElem?_replicate] at hi
  split at hi <;> cases hi

theorem scanLink_reset (hj : s.jobs = State.reset.jobs) (hs : s.scan.state = .idle) (hb : s.scanBare) : ScanLink false s := by
  refine ⟨fun e => absurd hs e, fun e => ?_, fun e => ?_, fun i hi => ?_, fun e => ?_, fun e => ?_, fun _ => hb⟩
  · rw [hs] at e; cases e
  · rw [hs] at e; cases e
  · rw [State.job_congr hj] at hi
    simp only [State.job, State.reset, entryAt, Vector.getElem?_replicate] at hi
    split at hi <;> cases hi
  · rw [hs] at e; cases e
  · rw [hs] at e; cases e

theorem scanBare_reset (hs : s.scan.internal = State.reset.scan.internal) (hc : s.core = .reset) : s.scanBare := by
  refine ⟨fun i hi => ?_, by rw [hc]; rfl, fun b hb _ => by rw [hc] at hb; cases hb⟩
  show (entryAt s.scan.internal i _).cond = _
  rw [hs]
  exact erasedBuffers_free i hi

theorem State.quotaKept.volatileReset (h : s.quotaKept) (f : FaultRecord) (cause : StartCause) :
    Units .clear (State.volatileReset { s with faults := f } cause) := by
  refine ⟨tally_of_balanced (balanced_of_reset rfl rfl) rfl, quotaKept_of_reset rfl h.stored h.2.1 rfl, printLink_reset rfl rfl,
    scanLink_reset rfl rfl (scanBare_reset rfl rfl)⟩

theorem State.quotaKept.losePower (h : s.quotaKept) (n : Nat) : (s.losePower n).unitsLawful := by
  have hheld : (s.heldAfter n).1.quotaKept := by
    rcases s.heldAfter_cases n with ⟨-, e⟩ | he | ⟨-, e⟩
    · rw [e]; exact h.2.1
    · exact h.2.2 _ he
    · rw [e]; exact h.stored
  exact unitsLawful_dead (balanced_of_reset rfl rfl) (quotaKept_of_reset rfl hheld h.2.1 rfl) rfl

/-! ### Every command -/

/-- A start is one of a part reset. -/
theorem State.unitsLawful.start (h : s.unitsLawful) (f : FaultRecord) (cause : StartCause) (x : StartInputs) :
    (State.start { s with faults := f } cause x).unitsLawful := ((h.2.1.volatileReset f cause).plain (Plain.start cause x)).lawful

theorem State.unitsLawful.holdReset (h : s.unitsLawful) : s.holdReset.unitsLawful :=
  unitsLawful_dead h.1 h.2.1 (by simp [State.alive, State.holdReset])

/-- Only starts and the reset input act on a part that is not alive. -/
theorem effectOf_dead (h : b.alive = false) :
    effectOf c b = b ∨ effectOf c b = b.holdReset ∨ ∃ f cause x, effectOf c b = State.start { b with faults := f } cause x := by
  have hup : b.up = false := by simp [State.up, h]
  have hand : ∀ {p : Prop} [Decidable p] {t : State}, (if b.alive = true ∧ p then t else b) = b := fun {p} _ {t} =>
    if_neg fun e => by rw [h] at e; cases e.1
  by_cases hc : reachesStart c = false
  · exact .inl (effectOf_down hup hc)
  · cases c with
    | powerOn e x => exact .inr (.inr ⟨.cleared, .power, x, rfl⟩)
    | resetInputAssert =>
      show (if b.power then b.holdReset else b) = b ∨ _
      split
      · exact .inr (.inl (if_pos ‹_›))
      · exact .inl rfl
    | resetInputRelease e x =>
      by_cases hp : b.power ∧ b.nrst
      · exact .inr (.inr ⟨.cleared, .power, x, if_pos hp⟩)
      · exact .inl (if_neg hp)
    | restart | startEnd => exact .inl hand
    | post | noticeRead | noticeEnableWrite | engineDemand | engineOutcome | scannerLine | scannerPageEnd | scannerError | senseLineEdge =>
      exact .inl (if_neg (by rw [h]; nofun))
    | _ => exact absurd rfl hc

theorem effectOf_unitsLawful (c : Instr) (h : b.unitsLawful) : (effectOf c b).unitsLawful := by
  by_cases ha : b.alive = true
  · have hu := h.units ha
    have hworked := effectOf_worked (K := True) c b Debt.clear_begins (fun _ _ => linked_of_links hu.print hu.scan) fun _ _ _ => trivial
    generalize effectOf c b = t at hworked ⊢
    cases hworked with
    | ops hops => exact (hops.keeps (P := fun z => Units z.1 z.2) hu fun o hz => o.units hz).lawful
    | start f cause x => exact h.start f cause x
    | held => exact h.holdReset
  · rcases effectOf_dead (c := c) (by simpa using ha) with e | e | ⟨f, cause, x, e⟩
    · rw [e]; exact h
    · rw [e]; exact h.holdReset
    · rw [e]; exact h.start f cause x

theorem Answers.unitsLawful (h : Answers c s t) (hs : s.unitsLawful) : t.unitsLawful := by
  by_cases hc : ∃ n, c = .lossOfPower n
  · obtain ⟨n, rfl⟩ := hc
    rw [answers_lossOfPower.mp h]
    split
    · exact hs.2.1.losePower n
    · exact hs
  · rw [h.eq_effect fun n e => hc ⟨n, e⟩]
    exact unitsLawful_finish (effectOf_unitsLawful c (hs.begin _))

theorem step_unitsLawful (h : step s = .next t) (hs : s.unitsLawful) : t.unitsLawful := by
  unfold Machine.step at h
  split at h
  · exact Host.Outcome.next.inj h ▸ hs
  · rename_i c rest _
    exact Answers.unitsLawful (c := c) (s := { s with pending := rest }) h hs

end Sys2Proof.Machine

namespace Sys2Proof.Proofs

open Sys2Proof.Machine

/-- Settles O22: the tickets of jobs neither take nor settle a page's hold and keep the sums alone; every other operation keeps the sums
together with the links of the paths to the jobs whose pages are in flight. -/
theorem jobTicketsKeepBalance : Obligations.JobTicketsKeepBalance :=
  ⟨fun _ _ _ _ hc hs h => jobTickets_balanced hc hs h, fun _ _ hs h => step_unitsLawful h hs⟩

end Sys2Proof.Proofs
end

