-- ==== Sys2Proof/Proofs/BandLaws.lean ====
section
/-! R100: what brings a band of the scan path to the core and what the core returns, in the middle of a command. -/

namespace Sys2Proof.Machine

variable {x y : Debt × State} {D E : Debt} {s t u v b : State}

/-! ### The law -/

/-- What the core returned under a drawn key: ciphertext with its tag, or, of Decipher Bands, the plaintext of a match. -/
def State.coreReturned (s : State) (data : List Byte) : Prop :=
  ∃ draw < s.draws, ∃ (nonce : Config.Nonce) (band : List Byte),
    if s.scan.work = .decipher then decipherBand (Config.randomSource.key draw) nonce band = some data
    else data = encipherBand (Config.randomSource.key draw) nonce band

/-- R84, R100 in the middle of a command: a band under a slot just lost waits for its work to be ended, and a page that is settled has
none at the core. -/
structure Sealed (D : Debt) (s : State) : Prop where
  granted : ∀ i < 2, (s.buffer i).cond = .ciphering →
    ∃ a, s.scan.args = some a ∧ (D.lost a.slot ∨ s.keyGranted a.slot a.job s.scan.work.use = true)
  whole : ∀ i < 2, (s.buffer i).cond = .ciphered ∨ (s.buffer i).isWriting = true → s.coreReturned (s.buffer i).data
  core : ∀ c, s.core.band = some c → c.path = .scan → c.orphan = false → c.idx < 2 ∧ (s.buffer c.idx).cond = .ciphering
  waiting : ∀ i, s.core.scanWaiting = some i → i < 2 ∧ (s.buffer i).cond = .ciphering ∧
    ∀ c, s.core.band = some c → c.path = .scan → c.orphan = false → c.idx ≠ i
  failed : s.scan.failed.isSome = true → ∀ i < 2, (s.buffer i).cond = .free ∨ (s.buffer i).isWriting = true
  code : s.scan.failed ≠ some .ok
  paid : D.scan = true → ∀ i < 2, (s.buffer i).cond ≠ .ciphering

theorem sealed_of_bandsSealed (h : s.bandsSealed) (hD : D.scan = false) : Sealed D s where
  granted i hi hc := (h.1 i hi hc).imp fun _ ⟨ha, hg⟩ => ⟨ha, .inr hg⟩
  whole := h.2.1
  core := h.2.2.1
  waiting := h.2.2.2.1
  failed := h.2.2.2.2.1
  code := h.2.2.2.2.2
  paid hs := by rw [hD] at hs; cases hs

theorem Sealed.bandsSealed (h : Sealed D s) (hD : ∀ k, ¬D.lost k) : s.bandsSealed :=
  ⟨fun i hi hc => (h.granted i hi hc).imp fun _ ⟨ha, hg⟩ => ⟨ha, hg.resolve_left (hD _)⟩, h.whole, h.core, h.waiting, h.failed, h.code⟩

/-- A path without a band keeps the law. -/
theorem sealed_of_bare (h : s.scanBare) (hc : s.scan.failed ≠ some .ok) : Sealed D s where
  granted i hi e := by rw [h.1 i hi] at e; cases e
  whole i hi e := by
    rcases e with e | e
    · rw [h.1 i hi] at e; cases e
    · exact absurd (h.1 i hi) (State.buffer_writing e)
  core c hb hp ho := by rw [h.2.2 c hb hp] at ho; cases ho
  waiting i hw := by rw [h.2.1] at hw; cases hw
  failed _ i hi := .inl (h.1 i hi)
  code := hc
  paid _ i hi := by rw [h.1 i hi]; nofun

/-! ### What leaves the bands alone -/

/-- The scan path keeps its work and its bands, and the core has no more of them. -/
structure Bands (s t : State) : Prop where
  internal : t.scan.internal = s.scan.internal := by rfl
  work : t.scan.work = s.scan.work := by rfl
  args : t.scan.args = s.scan.args := by rfl
  failed : t.scan.failed = s.scan.failed := by rfl
  draws : s.draws ≤ t.draws := by exact Nat.le_refl _
  waiting : ∀ i, t.core.scanWaiting = some i → s.core.scanWaiting = some i := by exact fun _ h => h
  band : ∀ b, b.path = CipherPath.scan → t.core.band = some b → s.core.band = some b := by exact fun _ _ h => h

theorem Bands.trans (h : Bands s t) (h' : Bands t u) : Bands s u :=
  ⟨h'.internal.trans h.internal, h'.work.trans h.work, h'.args.trans h.args, h'.failed.trans h.failed, h.draws.trans h'.draws,
    fun i e => h.waiting i (h'.waiting i e), fun b hp e => h.band b hp (h'.band b hp e)⟩

theorem Plain.bands (h : Plain s t) : Bands s t :=
  ⟨h.internal, h.work, h.scanArgs, h.failed, h.draws, fun _ e => h.waiting ▸ e, fun b hp e => (h.band b hp).mp e⟩

theorem Bands.of_eq (hs : t.scan = s.scan) (hc : t.core = s.core) (hd : t.draws = s.draws) : Bands s t :=
  ⟨by rw [hs], by rw [hs], by rw [hs], by rw [hs], hd.ge, fun _ e => hc ▸ e, fun _ _ e => hc ▸ e⟩

theorem Bands.buffer (h : Bands s t) (i : Nat) : t.buffer i = s.buffer i := by rw [State.buffer, h.internal]; rfl

theorem State.coreReturned_bands (h : Bands s t) {l : List Byte} (hl : s.coreReturned l) : t.coreReturned l := by
  obtain ⟨draw, hd, nonce, band, hb⟩ := hl
  refine ⟨draw, hd.trans_le h.draws, nonce, band, ?_⟩
  rw [h.work]
  exact hb

/-- The bands stay, and each is still granted or its slot's loss still to be found. -/
theorem Sealed.bands (h : Sealed D s) (hb : Bands s t) (hE : E.scan = true → ∀ i < 2, (s.buffer i).cond ≠ .ciphering)
    (hg : ∀ a, s.scan.args = some a → (∃ i < 2, (s.buffer i).cond = .ciphering) →
      D.lost a.slot ∨ s.keyGranted a.slot a.job s.scan.work.use = true →
      E.lost a.slot ∨ t.keyGranted a.slot a.job s.scan.work.use = true) : Sealed E t where
  granted i hi hc := by
    rw [hb.buffer] at hc
    obtain ⟨a, ha, hk⟩ := h.granted i hi hc
    refine ⟨a, hb.args.trans ha, ?_⟩
    rw [hb.work]
    exact hg a ha ⟨i, hi, hc⟩ hk
  whole i hi hw := by
    rw [hb.buffer] at hw ⊢
    exact State.coreReturned_bands hb (h.whole i hi hw)
  core c hc hp ho := by
    rw [hb.buffer]
    exact h.core c (hb.band c hp hc) hp ho
  waiting i hw := by
    rw [hb.buffer]
    obtain ⟨hi, hc, hne⟩ := h.waiting i (hb.waiting i hw)
    exact ⟨hi, hc, fun c hc hp => hne c (hb.band c hp hc) hp⟩
  failed hf i hi := by
    rw [hb.buffer]
    exact h.failed (hb.failed ▸ hf) i hi
  code := by
    rw [hb.failed]
    exact h.code
  paid hs i hi := by
    rw [hb.buffer]
    exact hE hs i hi

theorem State.keyGranted_congr (h : t.slots = s.slots) (k : SlotHandle) (j : Handle) (use : KeyUse) :
    t.keyGranted k j use = s.keyGranted k j use := by
  unfold State.keyGranted State.slotOf State.slot
  rw [h]

/-- The bands and the slots stay. -/
theorem Sealed.same (h : Sealed D s) (hb : Bands s t) (hk : t.slots = s.slots := by rfl) (hE : E.scan = D.scan := by rfl)
    (hL : E.lost = D.lost := by rfl) : Sealed E t := by
  refine h.bands hb (fun e => h.paid (hE ▸ e)) fun a _ _ hg => ?_
  rw [hL, State.keyGranted_congr hk]
  exact hg

theorem Sealed.plain (h : Sealed D s) (hp : Plain s t) : Sealed D t := by
  refine h.bands hp.bands h.paid fun a _ _ hg => ?_
  rw [hp.keyGranted]
  exact hg

/-! ### One buffer changes -/

/-- Neither the core nor its queue has a band whose buffer is not CIPHERING. -/
theorem Sealed.away (h : Sealed D s) {i : Nat} (hi : (s.buffer i).cond ≠ .ciphering) :
    (∀ c, s.core.band = some c → c.path = .scan → c.orphan = false → c.idx ≠ i) ∧ s.core.scanWaiting ≠ some i :=
  ⟨fun c hb hp ho e => hi (e ▸ (h.core c hb hp ho).2), fun e => hi (h.waiting i e).2.1⟩

theorem Sealed.put (h : Sealed D s) {i : Nat} {x : Buffer}
    (ha : (∀ c, s.core.band = some c → c.path = .scan → c.orphan = false → c.idx ≠ i) ∧ s.core.scanWaiting ≠ some i)
    (hg : x.cond = .ciphering → D.scan = false ∧ ∃ a, s.scan.args = some a ∧ s.keyGranted a.slot a.job s.scan.work.use = true)
    (hw : x.cond = .ciphered ∨ x.isWriting = true → s.coreReturned x.data)
    (hf : s.scan.failed.isSome = true → x.cond = .free ∨ x.isWriting = true) : Sealed D (s.putBuffer i x) where
  granted j hj hc := by
    rw [State.putBuffer_buffer] at hc
    split at hc
    · obtain ⟨a, ha, hk⟩ := (hg hc).2
      exact ⟨a, ha, .inr hk⟩
    · exact h.granted j hj hc
  whole j hj hc := by
    rw [State.putBuffer_buffer] at hc ⊢
    split at hc
    · rw [if_pos ‹_›]
      exact hw hc
    · rw [if_neg ‹_›]
      exact h.whole j hj hc
  core c hb hp ho := by
    rw [State.putBuffer_buffer, if_neg fun e => ha.1 c hb hp ho e.1.symm]
    exact h.core c hb hp ho
  waiting j hj := by
    have hne : i ≠ j := fun e => ha.2 (e ▸ hj)
    rw [State.putBuffer_buffer, if_neg fun e => hne e.1]
    exact h.waiting j hj
  failed hs j hj := by
    rw [State.putBuffer_buffer]
    split
    · exact hf hs
    · exact h.failed hs j hj
  code := h.code
  paid hs j hj := by
    rw [State.putBuffer_buffer]
    split
    · intro hc
      rw [(hg hc).1] at hs
      cases hs
    · exact h.paid hs j hj

theorem Buffer.not_writing {x : Buffer} (h : x.cond = .free ∨ x.cond = .filling ∨ x.cond = .ciphering) : ¬(x.cond = .ciphered ∨ x.isWriting = true) := by
  rcases h with h | h | h <;> simp [Buffer.isWriting, h]

theorem Buffer.writing_cond {x : Buffer} (h : x.isWriting = true) : x.cond ≠ .ciphering ∧ x.cond ≠ .ciphered ∧ x.cond ≠ .free := by
  refine ⟨?_, ?_, ?_⟩ <;> intro e <;> simp [Buffer.isWriting, e] at h

/-! ### The operations in turn -/

/-- R89: a line joins a band. -/
theorem Sealed.fill (h : Sealed D s) {i : Nat} {x : Buffer} (hf : s.scan.failed = none)
    (hb : (s.buffer i).cond = .free ∨ (s.buffer i).cond = .filling) (hc : x.cond = .filling) : Sealed D (s.putBuffer i x) := by
  refine h.put (h.away ?_) (fun e => ?_) (fun e => absurd e (Buffer.not_writing (.inr (.inl hc)))) fun e => ?_
  · rcases hb with e | e <;> rw [e] <;> nofun
  · rw [hc] at e; cases e
  · rw [hf] at e; cases e

/-- A band comes to the core, or waits for it, with its key granted. -/
theorem Sealed.present (h : Sealed D s) {i : Nat} {x : Buffer} {a : ScanArgs} (hD : D.scan = false) (hf : s.scan.failed = none)
    (hb : (s.buffer i).cond = .filling) (hc : x.cond = .ciphering) (ha : s.scan.args = some a)
    (hg : s.keyGranted a.slot a.job s.scan.work.use = true) : Sealed D ((s.putBuffer i x).presentScan i) := by
  have haway := h.away (i := i) (by rw [hb]; nofun)
  have hput : Sealed D (s.putBuffer i x) := h.put haway (fun _ => ⟨hD, a, ha, hg⟩) (fun e => absurd e (Buffer.not_writing (.inr (.inr hc))))
    fun e => by rw [hf] at e; cases e
  have h2 : i < 2 := by
    by_contra hi
    rw [State.buffer, entryAt_beyond _ _ _ (by omega)] at hb
    cases hb
  refine ⟨hput.granted, hput.whole, hput.core, fun j hj => ?_, hput.failed, hput.code, hput.paid⟩
  have hj' : s.core.scanWaiting.or (some i) = some j := hj
  cases hw : s.core.scanWaiting with
  | none =>
    rw [hw] at hj'
    cases hj'
    refine ⟨h2, ?_, fun c => haway.1 c⟩
    show ((s.putBuffer i x).buffer i).cond = _
    rw [State.putBuffer_same h2]
    exact hc
  | some k =>
    rw [hw] at hj'
    cases hj'
    exact hput.waiting j hw

/-- R97, R99: a band goes to be written. -/
theorem Sealed.startWrite (h : Sealed D s) : Sealed D s.startWrite := by
  unfold State.startWrite
  split
  · exact h
  · split
    · exact h
    · rename_i i hi
      obtain ⟨h2, hc⟩ := State.bufferIn_some hi
      have hw : s.coreReturned (s.buffer i).data := h.whole i h2 (.inl hc)
      exact h.put (h.away (by rw [hc]; nofun)) nofun (fun _ => hw) fun _ => .inr rfl

theorem State.writing_lt {i : Nat} (h : (s.buffer i).isWriting = true) : i < 2 := by
  by_contra hi
  rw [State.buffer, entryAt_beyond _ _ _ (by omega)] at h
  cases h

theorem Sealed.rewrite (h : Sealed D s) {i : Nat} {x : Buffer} (hw : (s.buffer i).isWriting = true) (hx : x.isWriting = true)
    (hd : x.data = (s.buffer i).data) : Sealed D (s.putBuffer i x) := by
  refine h.put (h.away (Buffer.writing_cond hw).1) (fun e => absurd e (Buffer.writing_cond hx).1) (fun _ => ?_) fun _ => .inr hx
  rw [hd]
  exact h.whole i (State.writing_lt hw) (.inr hw)

theorem Sealed.erase (h : Sealed D s) {i : Nat} (hw : (s.buffer i).isWriting = true) : Sealed D (s.putBuffer i .erased) :=
  h.put (h.away (Buffer.writing_cond hw).1) nofun (fun e => absurd e (Buffer.not_writing (.inl rfl))) fun _ => .inl rfl

/-- R93, R97, R99: of a page or ticket that fails a band WRITING stays. -/
theorem State.fails_buffer (s : State) (code : ReturnCode) (drain : Bool) (i : Nat) :
    ((({ s with scan := { s.scan with failed := some code, drain := drain } } : State).eraseUnwritten).dropCore .scan).buffer i =
      if (s.buffer i).isWriting = true then s.buffer i else .erased :=
  State.eraseUnwritten_buffer ({ s with scan := { s.scan with failed := some code, drain := drain } } : State) i

theorem State.fails_cond (s : State) (code : ReturnCode) (drain : Bool) (i : Nat) :
    let x := ((({ s with scan := { s.scan with failed := some code, drain := drain } } : State).eraseUnwritten).dropCore .scan).buffer i
    x.cond = .free ∨ x.isWriting = true := by
  intro x
  have hx : x = if (s.buffer i).isWriting = true then s.buffer i else .erased := s.fails_buffer code drain i
  rw [hx]
  split
  · exact .inr ‹_›
  · exact .inl rfl

theorem State.fails_not_ciphering (s : State) (code : ReturnCode) (drain : Bool) (i : Nat) :
    (((({ s with scan := { s.scan with failed := some code, drain := drain } } : State).eraseUnwritten).dropCore .scan).buffer i).cond ≠
      .ciphering := by
  rcases s.fails_cond code drain i with e | e
  · rw [e]; nofun
  · exact (Buffer.writing_cond e).1

/-- R93, R97, R99: a page or ticket fails. -/
theorem Sealed.fails (h : Sealed D s) {code : ReturnCode} {drain : Bool} (hc : code ≠ .ok) :
    Sealed D ((({ s with scan := { s.scan with failed := some code, drain := drain } } : State).eraseUnwritten).dropCore .scan) := by
  refine ⟨fun i _ e => absurd e (s.fails_not_ciphering code drain i), fun i hi e => ?_, fun c hb hp ho => ?_, fun i hi => (by cases hi),
    fun _ i _ => s.fails_cond code drain i, fun e => hc (Option.some.inj e), fun _ i _ => s.fails_not_ciphering code drain i⟩
  · rw [s.fails_buffer] at e ⊢
    split at e
    · rename_i hw
      rw [if_pos hw]
      exact h.whole i hi (.inr hw)
    · exact absurd e (Buffer.not_writing (.inl rfl))
  · have hb' : s.core.orphaned .scan = some c := hb
    unfold Core.orphaned at hb'
    split at hb'
    · cases hb'
    · split at hb'
      · cases hb'
        cases ho
      · rename_i hne
        cases hb'
        exact absurd hp hne

end Sys2Proof.Machine
end

