-- ==== Sys2Proof/Proofs/BandOps.lean ====
section
/-! Every operation keeps what brings bands to the core and what the core returns (R84, R100, R105). -/

namespace Sys2Proof.Machine

variable {x y : Debt × State} {D E : Debt} {s t u v b : State}

/-! ### Slots come and go -/

/-- R105: what a granted key request tells. -/
theorem State.keyGranted_slot {k : SlotHandle} {j : Handle} {use : KeyUse} (h : s.keyGranted k j use = true) :
    s.slotOf k = some k.idx ∧ (s.slot k.idx).state = .live ∧ (s.slot k.idx).job = some j := by
  unfold State.keyGranted at h
  cases hk : s.slotOf k with
  | none => rw [hk] at h; cases h
  | some i =>
    obtain ⟨rfl, -⟩ := State.slotOf_some hk
    rw [hk] at h
    simp only [Bool.and_eq_true, decide_eq_true_eq] at h
    exact ⟨rfl, h.1.1, h.1.2⟩

theorem State.keyGranted_other {k : SlotHandle} (h : t.slot k.idx = s.slot k.idx) (j : Handle) (use : KeyUse) :
    t.keyGranted k j use = s.keyGranted k j use := by
  have hof : t.slotOf k = s.slotOf k := by
    unfold State.slotOf
    rw [h]
  unfold State.keyGranted
  rw [hof]
  split
  · rfl
  · rename_i i hi
    obtain ⟨rfl, -⟩ := State.slotOf_some hi
    rw [h]

/-- A slot is destroyed; the key requests for it are owed their refusal. -/
theorem Sealed.wipeSlot (h : Sealed D s) (i : Nat) (hE : E.scan = D.scan)
    (hL : ∀ a, s.scan.args = some a → (∃ i < 2, (s.buffer i).cond = .ciphering) →
      D.lost a.slot ∨ (a.slot = { idx := i, gen := (s.slot i).gen } ∧ s.keyGranted a.slot a.job s.scan.work.use = true) → E.lost a.slot) : Sealed E (s.wipeSlot i) := by
  obtain ⟨band, hcore⟩ := (s.wipeSlot_moved i).core
  have hscan : (s.wipeSlot i).scan = s.scan := s.wipeSlot_scan i
  have hb : Bands s (s.wipeSlot i) := ⟨by rw [hscan], by rw [hscan], by rw [hscan], by rw [hscan], (s.wipeSlot_draws i).ge,
    fun j e => by rw [hcore] at e; exact e, fun b _ e => State.wipeSlot_band i b e⟩
  refine h.bands hb (fun e => h.paid (hE ▸ e)) fun a ha hc hg => ?_
  by_cases hi : a.slot.idx = i
  · refine .inl (hL a ha hc ?_)
    refine hg.imp id fun hk => ?_
    refine ⟨?_, hk⟩
    rw [State.slotHandle_eq (State.keyGranted_slot hk).1, hi]
  · rcases hg with hl | hk
    · exact .inl (hL a ha hc (.inl hl))
    · rw [State.keyGranted_other (State.wipeSlot_other hi)]
      exact .inr hk

/-- R33, R108: a job whose page is in flight does not end; a slot of one that ends is that of a cipher ticket, or of no work. -/
theorem Sealed.slotLeaves (h : Sealed D s) (hu : Units D s) {i : Nat} {k : SlotHandle} {rest : List SlotHandle}
    (hD : D.ending = some (i, k :: rest)) (ha : Attached D.ending s) :
    Sealed { D with ending := some (i, rest), lost := fun m => D.lost m ∨ (m = k ∧ s.scan.state = .ciphering) } (s.slotLeaves k) := by
  rw [hD] at ha
  obtain ⟨-, hof, -, hjob⟩ := ha.lists i k (by simp [State.listOf])
  have hk := State.slotHandle_eq hof
  have hlost : ∀ a, s.scan.args = some a → (∃ m < 2, (s.buffer m).cond = .ciphering) → s.keyGranted a.slot a.job s.scan.work.use = true →
      a.slot = k → s.scan.state = .ciphering := by
    intro a hargs ⟨m, hm, hc⟩ hg hs
    rcases hu.scan.busy_of_buffer (i := m) (by rw [hc]; nofun) with hscan | hscan
    · have hpaid : D.scan = false := by
        by_contra hp
        exact h.paid (by simpa using hp) m hm hc
      obtain ⟨a', r, j, ha', -, hj, hfl, -⟩ := hu.scan.flight hscan hpaid
      rw [hargs] at ha'
      cases ha'
      obtain ⟨-, -, hown⟩ := State.keyGranted_slot hg
      rw [hs, hjob] at hown
      have hij : i = j := by
        have := congrArg Handle.idx (Option.some.inj hown)
        exact this.trans (State.jobOf_idx hj).1
      rw [← hij, (hu.tally.ended i _ hD).2.2] at hfl
      cases hfl
    · exact hscan
  unfold State.slotLeaves
  split
  · refine h.wipeSlot _ rfl fun a hargs hc hg => hg.imp id fun ⟨hs, hkey⟩ => ?_
    have hs : a.slot = k := hs.trans hk.symm
    exact ⟨hs, hlost a hargs hc hkey hs⟩
  · refine h.bands (.of_eq rfl rfl rfl) h.paid fun a hargs hc hg => ?_
    rcases hg with hl | hkey
    · exact .inl (.inl hl)
    · by_cases hs : a.slot = k
      · exact .inl (.inr ⟨hs, hlost a hargs hc hkey hs⟩)
      · have hne : k.idx ≠ a.slot.idx := fun e => hs <| by
          rw [State.slotHandle_eq (State.keyGranted_slot hkey).1, hk, e]
        refine .inr ((State.keyGranted_other ?_ _ _).trans hkey)
        rw [State.putSlot_slot, if_neg fun c => hne c.1]

theorem State.freeSlot_not_live {i : Nat} (h : s.freeSlot = some i) : (s.slot i).state ≠ .live := by
  have hfree : (s.slot i).state = .free := of_decide_eq_true (lowest_some h (.free 0)).2
  rw [hfree]
  nofun

/-- R104, R109: a slot that was not LIVE, and so granted no key, begins to live and joins a job. -/
theorem Sealed.slotTaken (h : Sealed D s) {i : Nat} (hi : (s.slot i).state ≠ .live) (k : KeySlot) {d : Nat} (hd : s.draws ≤ d) (m : Nat)
    (l : SlotHandle) {code : ReturnCode} {w13 w14 : Nat} :
    Sealed D ((({ s.putSlot i k with draws := d } : State).appendSlot m l).close 0 code w13 w14) := by
  refine Sealed.plain ?_ Plain.refl.close0
  refine h.bands { draws := hd } h.paid fun a _ _ hg => hg.imp id fun hkey => (State.keyGranted_other ?_ _ _).trans hkey
  have hne : i ≠ a.slot.idx := fun e => hi (e ▸ (State.keyGranted_slot hkey).2.1)
  show (s.putSlot i k).slot a.slot.idx = _
  rw [State.putSlot_slot, if_neg fun c => hne c.1]

/-! ### The core and the ends of work -/

/-- What a page or ticket asked for may be lost where it has no band at the core. -/
theorem Sealed.relax (h : Sealed D s) (hu : Units D s) {L : SlotHandle → Prop}
    (hL : ∀ a, s.scan.args = some a → D.lost a.slot → L a.slot ∨ s.bandless) : Sealed { D with lost := L } s := by
  refine h.bands {} h.paid fun a ha ⟨i, hi, hc⟩ hg => ?_
  rcases hg with hl | hk
  · rcases hL a ha hl with hl | hn
    · exact .inl hl
    · exfalso
      rcases hn with hf | hr | hr | hn
      · rcases h.failed hf i hi with e | e
        · rw [hc] at e; cases e
        · exact (Buffer.writing_cond e).1 hc
      · rw [(hu.scan.rest (.inl hr)).1 i hi] at hc; cases hc
      · rw [(hu.scan.rest (.inr hr)).1 i hi] at hc; cases hc
      · exact hn i hi hc
  · exact .inr hk

/-- R84: the core takes the band that waits, and the other that is complete waits. -/
theorem Sealed.pumpScan (h : Sealed D s) {i : Nat} (hw : s.core.scanWaiting = some i) :
    Sealed D { s with core := { s.core with
      band := some { path := .scan, idx := i, slot := s.scanSlot, orphan := false }, scanWaiting := s.nextScanBand i, lastServed := .scan } } := by
  obtain ⟨h2, hc, -⟩ := h.waiting i hw
  refine ⟨h.granted, h.whole, fun c hb _ _ => ?_, fun j hj => ?_, h.failed, h.code, h.paid⟩
  · cases hb
    exact ⟨h2, hc⟩
  · have hj' : s.nextScanBand i = some j := hj
    obtain ⟨hj2, hcj⟩ := lowest_some hj' .erased
    have hcj := of_decide_eq_true hcj
    rw [entryAt_putAt] at hcj
    split at hcj
    · cases hcj
    · rename_i hne
      refine ⟨hj2, hcj, fun c hb _ _ e => ?_⟩
      cases hb
      exact hne ⟨e, h2⟩

/-- R83, R100: what the core returns goes to be written. -/
theorem Sealed.sealed (h : Sealed D s) (ha : Attached D.ending s) {x : CoreBand} {a : ScanArgs} {y : Buffer} {n : Nat} (hD : ∀ k, ¬D.lost k)
    (hx : s.core.band = some x) (hp : x.path = .scan) (ho : x.orphan = false) (hargs : s.scan.args = some a) (hc : y.cond = .ciphered)
    (hd : ∃ nonce band, if s.scan.work = .decipher then decipherBand (s.slotKey a.slot) nonce band = some y.data
      else y.data = encipherBand (s.slotKey a.slot) nonce band) :
    Sealed D (({ s with core := { s.core with band := none, count := n } } : State).putBuffer x.idx y) := by
  obtain ⟨h2, hcx⟩ := h.core x hx hp ho
  obtain ⟨a', ha', hg⟩ := h.granted x.idx h2 hcx
  rw [hargs] at ha'
  cases ha'
  have hkey := hg.resolve_left (hD _)
  obtain ⟨hof, hlive, -⟩ := State.keyGranted_slot hkey
  obtain ⟨-, h32, -⟩ := State.slotOf_some hof
  obtain ⟨key, hsome⟩ := Option.isSome_iff_exists.mp (ha.keyed a.slot.idx (by rw [hlive]; nofun))
  obtain ⟨draw, hdraw, -⟩ := ha.keys
  obtain ⟨hlt, rfl⟩ := hdraw ⟨a.slot.idx, h32⟩ key hsome
  have hslot : s.slotKey a.slot = Config.randomSource.key (draw ⟨a.slot.idx, h32⟩) := by rw [State.slotKey, hsome]; rfl
  have hstop : Sealed D ({ s with core := { s.core with band := none, count := n } } : State) :=
    h.same { band := fun _ _ e => by cases e }
  refine hstop.put ⟨nofun, fun e => ?_⟩ (fun e => by rw [hc] at e; cases e) (fun _ => ?_) fun hf => ?_
  · exact (h.waiting x.idx e).2.2 x hx hp ho rfl
  · obtain ⟨nonce, band, hb⟩ := hd
    rw [hslot] at hb
    exact ⟨_, hlt, nonce, band, hb⟩
  · rcases h.failed hf x.idx h2 with e | e
    · rw [hcx] at e; cases e
    · exact absurd hcx (Buffer.writing_cond e).1

/-- R26, R88: a page is admitted, with no band yet. -/
theorem Sealed.scanHold (hu : Units D s) {i n : Nat} {p : ScanPath} (h : s.scan.state = .idle ∨ s.scan.state = .waiting)
    (hq : s.requestHold i .scan n = some u) (hv : Plain u v) (hf : p.failed = none) (hi : p.internal = s.scan.internal) :
    Sealed D { v with scan := p } := by
  obtain ⟨-, rfl⟩ := State.requestHold_topUp hq
  have hbare : v.scanBare := hv.scanBare (hu.scan.rest h)
  refine sealed_of_bare ⟨fun m hm => ?_, hbare.2⟩ (by show p.failed ≠ _; rw [hf]; nofun)
  show (entryAt p.internal m _).cond = _
  rw [hi]
  exact (hu.scan.rest h).1 m hm

/-- The scan path begins anew, with nothing in its buffers. -/
theorem sealed_of_erased (hu : Units D s) {p : ScanPath} (h : s.scan.state = .idle) (hf : p.failed = none) (hi : p.internal = erasedBuffers) :
    Sealed D { s with scan := p } := by
  refine sealed_of_bare ⟨fun m hm => ?_, (hu.scan.rest (.inl h)).2⟩ (by show p.failed ≠ _; rw [hf]; nofun)
  show (entryAt p.internal m _).cond = _
  rw [hi]
  exact erasedBuffers_free m hm

theorem Bands.of_settled (j : Handle) (p : CipherPath) (d : Bool) (c : AccountCharge) : Bands s (s.settleHold j p d c) := by
  unfold State.settleHold
  split
  · exact {}
  · extract_lets n u v w
    have hu : Bands s u := {}
    have hv : Bands u v := by
      have hr : Bands u (u.readAccount n) := Plain.refl.readAccount.bands
      dsimp only [v, State.chargeAccount]
      split
      · exact hr
      · exact hr.trans {}
    have hw : Bands s w := (hu.trans hv).trans (Plain.refl.touchJob.touchHold).bands
    split
    · exact hw.trans {}
    · exact hw

theorem Seated.keyGranted (h : Seated s t) (k : SlotHandle) (j : Handle) (use : KeyUse) : t.keyGranted k j use = s.keyGranted k j use := by
  unfold State.keyGranted
  rw [State.slotOf_alike (h.slots k.idx)]
  split
  · rfl
  · rename_i i _
    have hi := h.slots i
    rw [hi.state, hi.job, KeySlot.holds, hi.uses]
    rfl

/-- R29: the impression in flight is settled. -/
theorem Sealed.settlePrint (h : Sealed D s) (j : Handle) (d : Bool) (c : AccountCharge) :
    Sealed { D with print := true } (s.settleHold j .print d c) := by
  refine h.bands (.of_settled j .print d c) h.paid fun a _ _ hg => ?_
  rw [(Seated.settleHold (s := s) j .print d c).keyGranted]
  exact hg

/-- R29: the page in flight is settled, with no band at the core. -/
theorem Sealed.settleScan (h : Sealed D s) (hu : Units D s) (hq : s.bandless) (j : Handle) (d : Bool) (c : AccountCharge) :
    Sealed { D with scan := true } (s.settleHold j .scan d c) := by
  have hnone : ∀ i < 2, (s.buffer i).cond ≠ .ciphering := fun i hi hc => by
    rcases hq with hf | hr | hr | hn
    · rcases h.failed hf i hi with e | e
      · rw [hc] at e; cases e
      · exact (Buffer.writing_cond e).1 hc
    · rw [(hu.scan.rest (.inl hr)).1 i hi] at hc; cases hc
    · rw [(hu.scan.rest (.inr hr)).1 i hi] at hc; cases hc
    · exact hn i hi hc
  exact h.bands (.of_settled j .scan d c) (fun _ => hnone) fun a _ ⟨i, hi, hc⟩ _ => absurd hc (hnone i hi)

theorem Sealed.close (h : Sealed D s) (n : Fin 4) (code : ReturnCode) (w13 w14 : Nat) (e f : Bool) : Sealed D (s.close n code w13 w14 e f) := by
  rw [State.close_frame]
  exact h.same {}

/-! ### Every operation -/

theorem Op.bands (h : Op True x y) (ha : Attached x.1.ending x.2) (hu : Units x.1 x.2) (hx : Sealed x.1 x.2) : Sealed y.1 y.2 := by
  cases h with
  | plain h => exact hx.plain h
  | relax L h => exact hx.relax hu h
  | printHold a cap i p hD h hb hj hq hv =>
    obtain ⟨-, rfl⟩ := State.requestHold_topUp hq
    exact (Sealed.plain (hx.same {}) hv).same {}
  | closePrint p code w13 w14 e f => exact (hx.close 2 code w13 w14 e f).same {}
  | scanTicket p h hp hw hf hi => exact sealed_of_erased hu (h trivial) hf hi
  | scanHold a i n p hD h hb hpage hj hq hv hp hw hpa hpc hf hi => exact Sealed.scanHold hu (h trivial) hq hv hf hi
  | settleScan a d c hD h hq ha =>
    exact hx.settleScan hu (hq trivial) _ _ _
  | settlePrint a cap d c => exact hx.settlePrint _ _ _
  | closeScan code w13 w14 e f => exact sealed_of_bare (scanBare_idle _) nofun
  | fails code drain h hc => exact hx.fails hc
  | beginCipher p h hb hp hw hf hi => exact sealed_of_erased hu (h trivial) hf hi
  | fill i b hs hf hb hc => exact hx.fill hf hb hc
  | @present D s i b a hD hs hf hb hc hargs hg =>
    refine hx.present hD.1 hf hb hc hargs ?_
    rcases hg trivial with ⟨hs, hk⟩ | hk
    · rw [hu.scan.page hs]
      exact hk
    · exact hk
  | sealed c a b n hD hc hp ho hargs hcond hd => exact hx.sealed ha hD hc hp ho hargs hcond hd
  | startWrite => exact hx.startWrite
  | rewrite i b hw hb hd => exact hx.rewrite hw hb hd
  | erase i hw => exact hx.erase hw
  | coreFree c hb hw =>
    refine hx.same { waiting := fun i e => ?_, band := fun b _ e => ?_ }
    · rcases hw with hw | hw
      · exact hw ▸ e
      · have e' : c.scanWaiting = some i := e
        rw [hw] at e'
        cases e'
    · have e' : c.band = some b := e
      rw [hb] at e'
      cases e'
  | printCore c hw hb => exact hx.same { waiting := fun i e => hw ▸ e, band := fun b hp e => (hb b hp).mp e }
  | pumpScan i hc hw => exact hx.pumpScan hw
  | openJob a i => exact (Sealed.same (t := State.openedJob _ a i) hx {}).close 0 _ _ _ _ _
  | endSlot i k rest hD => exact hx.slotLeaves hu hD ha
  | wipe i hD => exact hx.wipeSlot i rfl fun a _ _ hg => hg.imp id (·.1)
  | openSlot i j uses keep hD hi => exact hx.slotTaken (State.freeSlot_not_live hi) _ (Nat.le_succ _) _ _
  | attachSlot k j hD hk hh => exact hx.slotTaken (i := k.idx) (by rw [hh]; nofun) _ (Nat.le_refl _) _ _
  | _ => exact hx.same {}

end Sys2Proof.Machine
end

