-- ==== Sys2Proof/Proofs/BandSteps.lean ====
section
/-! What reaches memory from the scan path, over every command: O6. -/

namespace Sys2Proof.Machine

variable {c : Instr} {x y : Debt × State} {s t b : State}

/-! ### The frame of a command, resets and a loss of power -/

theorem State.bandsSealed.begin (h : s.bandsSealed) (e : Env) : (s.begin e).bandsSealed := h

theorem bandsSealed_finish (h : s.bandsSealed) : s.finish.bandsSealed := h

theorem State.bandsSealed.holdReset (h : s.bandsSealed) : s.holdReset.bandsSealed := h

theorem bandsSealed_start (f : FaultRecord) (cause : StartCause) (x : StartInputs) :
    (State.start { b with faults := f } cause x).bandsSealed := by
  have hreset : Sealed .clear (State.volatileReset { b with faults := f } cause) := sealed_of_bare (scanBare_reset rfl rfl) nofun
  exact (hreset.plain (Plain.start cause x)).bandsSealed fun _ => id

theorem bandsSealed_losePower (n : Nat) : (s.losePower n).bandsSealed :=
  (sealed_of_bare (D := .clear) (s := s.losePower n) (scanBare_reset rfl rfl) nofun).bandsSealed fun _ => id

/-! ### Every command -/

/-- The laws of slots, units and bands together. -/
structure Handled (D : Debt) (s : State) : Prop where
  attached : Attached D.ending s
  units : Units D s
  bands : Sealed D s

theorem Op.handled (h : Op True x y) (hx : Handled x.1 x.2) : Handled y.1 y.2 :=
  ⟨h.attached hx.attached, h.units hx.units, h.bands hx.attached hx.units hx.bands⟩

theorem effectOf_bandsSealed (c : Instr) (ha : Attached none b) (hu : b.unitsLawful) (hs : b.bandsSealed) : (effectOf c b).bandsSealed := by
  by_cases halive : b.alive = true
  · have hunits := hu.units halive
    have hb : Handled .clear b := ⟨ha, hunits, sealed_of_bandsSealed hs rfl⟩
    have hworked := effectOf_worked (K := True) c b Debt.clear_begins (fun _ _ => linked_of_links hunits.print hunits.scan) fun _ _ _ => trivial
    generalize effectOf c b = t at hworked ⊢
    cases hworked with
    | ops hops => exact (hops.keeps (P := fun z => Handled z.1 z.2) hb fun o hz => o.handled hz).bands.bandsSealed fun _ => id
    | start f cause x => exact bandsSealed_start f cause x
    | held => exact hs.holdReset
  · rcases effectOf_dead (c := c) (by simpa using halive) with e | e | ⟨f, cause, x, e⟩
    · rw [e]; exact hs
    · rw [e]; exact hs.holdReset
    · rw [e]; exact bandsSealed_start f cause x

theorem Answers.bandsSealed (h : Answers c s t) (ha : Attached none s) (hu : s.unitsLawful) (hs : s.bandsSealed) : t.bandsSealed := by
  by_cases hc : ∃ n, c = .lossOfPower n
  · obtain ⟨n, rfl⟩ := hc
    rw [answers_lossOfPower.mp h]
    split
    · exact bandsSealed_losePower n
    · exact hs
  · rw [h.eq_effect fun n e => hc ⟨n, e⟩]
    exact bandsSealed_finish (effectOf_bandsSealed c (ha.congr rfl rfl rfl) (hu.begin _) (hs.begin _))

theorem step_bandsSealed (h : step s = .next t) (ha : Attached none s) (hu : s.unitsLawful) (hs : s.bandsSealed) : t.bandsSealed := by
  unfold Machine.step at h
  split at h
  · exact Host.Outcome.next.inj h ▸ hs
  · rename_i c rest _
    exact Answers.bandsSealed (c := c) (s := { s with pending := rest }) h (ha.congr rfl rfl rfl) hu hs

/-! ### What a band comes to the core with -/

/-- A band comes to the core only with `P`. -/
def Brings (P : Prop) (s t : State) : Prop := ∀ i < 2, (t.buffer i).cond = .ciphering → (s.buffer i).cond = .ciphering ∨ P

theorem brings_put {P : Prop} {i : Nat} {x : Buffer} (h : x.cond = .ciphering → P) : Brings P s (s.putBuffer i x) := by
  intro j _ hc
  rw [State.putBuffer_buffer] at hc
  split at hc
  · exact .inr (h hc)
  · exact .inl hc

theorem brings_of_internal {P : Prop} (h : t.scan.internal = s.scan.internal) : Brings P s t := fun i _ hc => by
  have hb : t.buffer i = s.buffer i := by rw [State.buffer, h]; rfl
  exact .inl (hb ▸ hc)

theorem brings_of_free {P : Prop} (h : ∀ i < 2, (t.buffer i).cond = .free) : Brings P s t := fun i hi hc => by
  rw [h i hi] at hc
  cases hc

theorem brings_of_erased {P : Prop} {p : ScanPath} (h : p.internal = erasedBuffers) : Brings P s { s with scan := p } := by
  refine brings_of_free fun i hi => ?_
  show (entryAt p.internal i _).cond = _
  rw [h]
  exact erasedBuffers_free i hi

theorem brings_startWrite {P : Prop} : Brings P s s.startWrite := by
  unfold State.startWrite
  split
  · exact brings_of_internal rfl
  · split
    · exact brings_of_internal rfl
    · exact brings_put nofun

/-- Only where a band is presented does a buffer become one that waits for the core. -/
theorem Op.brings (h : Op True x y) : Brings x.1.presents x.2 y.2 ∧ y.1.presents = x.1.presents := by
  cases h with
  | plain h => exact ⟨brings_of_internal h.internal, rfl⟩
  | scanTicket p h hp hw hf hi => exact ⟨brings_of_erased hi, rfl⟩
  | beginCipher p h hb hp hw hf hi => exact ⟨brings_of_erased hi, rfl⟩
  | printHold a cap i p hD h hb hj hu hv =>
    obtain ⟨-, rfl⟩ := State.requestHold_topUp hu
    exact ⟨brings_of_internal hv.internal, rfl⟩
  | scanHold a i n p hD h hb hpage hj hu hv hp hw hpa hpc hf hi => exact ⟨brings_of_internal hi, rfl⟩
  | settlePrint a cap d c => exact ⟨brings_of_internal (Bands.of_settled _ _ _ _).internal, rfl⟩
  | settleScan a d c => exact ⟨brings_of_internal (Bands.of_settled _ _ _ _).internal, rfl⟩
  | closePrint p code w13 w14 e f => exact ⟨brings_of_internal (congrArg ScanPath.internal (State.close_scan ..)), rfl⟩
  | closeScan code w13 w14 e f => exact ⟨brings_of_free (scanBare_idle _).1, rfl⟩
  | fails code drain h hc => exact ⟨fun i _ hc => absurd hc (State.fails_not_ciphering _ _ _ i), rfl⟩
  | fill i b hs hf hb hc => exact ⟨brings_put fun e => (by rw [hc] at e; cases e), rfl⟩
  | present i b a hD => exact ⟨brings_put fun _ => hD.2 trivial, rfl⟩
  | sealed c a b n hD hx hp ho ha hc =>  exact ⟨brings_put fun e => (by rw [hc] at e; cases e), rfl⟩
  | startWrite => exact ⟨brings_startWrite, rfl⟩
  | rewrite i b hw hb =>  exact ⟨brings_put fun e => absurd e (Buffer.writing_cond hb).1, rfl⟩
  | erase i hw => exact ⟨brings_put nofun, rfl⟩
  | endSlot i k rest => exact ⟨brings_of_internal (congrArg ScanPath.internal (State.slotLeaves_scan _ k)), rfl⟩
  | wipe i => exact ⟨brings_of_internal (congrArg ScanPath.internal (State.wipeSlot_scan _ i)), rfl⟩
  | openJob a i => exact ⟨brings_of_internal (congrArg ScanPath.internal (State.close_scan ..)), rfl⟩
  | openSlot i j uses keep => exact ⟨brings_of_internal (congrArg ScanPath.internal (State.close_scan ..)), rfl⟩
  | attachSlot k j => exact ⟨brings_of_internal (congrArg ScanPath.internal (State.close_scan ..)), rfl⟩
  | _ => exact ⟨brings_of_internal rfl, rfl⟩

theorem Brings.trans {P : Prop} {u : State} (h : Brings P s t) (h' : Brings P t u) : Brings P s u := fun i hi hc =>
  (h' i hi hc).elim (h i hi) .inr

theorem Ops.brings (h : Ops True x y) : Brings x.1.presents x.2 y.2 :=
  (h.keeps (P := fun z => Brings x.1.presents x.2 z.2 ∧ z.1.presents = x.1.presents) ⟨brings_of_internal rfl, rfl⟩ fun o ⟨hb, he⟩ =>
    ⟨hb.trans (he ▸ o.brings.1), o.brings.2.trans he⟩).1

/-- R99, R105: the key of the scan path's work is granted, and, of Decipher Bands, its job is authorised. -/
def State.bandGranted (s : State) : Prop :=
  ∃ a, s.scan.args = some a ∧ s.keyGranted a.slot a.job s.scan.work.use = true ∧
    (s.scan.work = .decipher → s.authorised a.job a.slot = true)

/-- A page in flight is work that asks for the key to scan. -/
theorem State.presentable.granted (h : s.presentable) (hs : s.scan.state = .scanning → s.scan.work = .page) : s.bandGranted := by
  obtain ⟨a, ha, ⟨hst, hk⟩ | hk⟩ := h
  · have hw := hs hst
    refine ⟨a, ha, ?_, fun e => ?_⟩
    · rw [hw]
      exact hk
    · rw [hw] at e
      cases e
  · exact ⟨a, ha, hk⟩

/-- What a command is given for its band. -/
def Debt.granting (P : Prop) : Debt := { Debt.clear with presents := P }

theorem Debt.granting_begins (P : Prop) : (Debt.granting P).begins := ⟨⟨⟨rfl, rfl, rfl⟩, rfl⟩, fun _ => id, rfl⟩

theorem brings_start {P : Prop} (f : FaultRecord) (cause : StartCause) (x : StartInputs) :
    Brings P b (State.start { b with faults := f } cause x) := brings_of_free fun i hi => by
  rw [(Plain.start cause x).buffer]
  exact erasedBuffers_free i hi

theorem effectOf_brings (c : Instr) (hu : b.unitsLawful) : Brings b.bandGranted b (effectOf c b) := by
  by_cases halive : b.alive = true
  · have hunits := hu.units halive
    have hworked := effectOf_worked (K := True) c b (Debt.granting_begins b.bandGranted)
      (fun _ _ => linked_of_links hunits.print hunits.scan) fun _ _ hp => hp.granted hunits.scan.page
    generalize effectOf c b = t at hworked ⊢
    cases hworked with
    | ops hops => exact hops.brings
    | start f cause x => exact brings_start f cause x
    | held => exact brings_of_internal rfl
  · rcases effectOf_dead (c := c) (by simpa using halive) with e | e | ⟨f, cause, x, e⟩
    · rw [e]; exact brings_of_internal rfl
    · rw [e]; exact brings_of_internal rfl
    · rw [e]; exact brings_start f cause x

theorem Answers.brings (h : Answers c s t) (hu : s.unitsLawful) : Brings s.bandGranted s t := by
  by_cases hc : ∃ n, c = .lossOfPower n
  · obtain ⟨n, rfl⟩ := hc
    rw [answers_lossOfPower.mp h]
    split
    · exact brings_of_free erasedBuffers_free
    · exact brings_of_internal rfl
  · rw [h.eq_effect fun n e => hc ⟨n, e⟩]
    exact effectOf_brings (b := s.begin c.env) c (hu.begin _)

end Sys2Proof.Machine

namespace Sys2Proof.Proofs

open Sys2Proof.Machine

/-- Settles O6: every operation keeps what the core returned and what brought it there; only where a band is presented does a buffer
become one that waits for the core; and a byte a command changes is promised or one of the band being written. -/
theorem onlyCiphertextReachesMemory : Obligations.OnlyCiphertextReachesMemory :=
  ⟨fun _ _ hl ha hk hu hs h => step_bandsSealed h (attached_of_laws hl ha hk) hu hs, fun _ _ _ h =>
    ⟨fun i hi hu hc hn => (h.brings hu i hi hc).resolve_left hn, fun hm hc x => effect_mem_read (exec_effect h) hc hm.1 x⟩⟩

end Sys2Proof.Proofs
end
